-- ==== Sys2Proof/Word.lean ====
section
/-! DEFINITION. The word types of the Keaten 9 (03 R46, 04 R73). -/

namespace Sys2Proof

/-- A 32-bit register or instruction word. -/
abbrev Word := BitVec 32

/-- One byte of any array. -/
abbrev Byte := BitVec 8

/-- A 64-bit generic address, or the value of a pair. -/
abbrev DWord := BitVec 64

/-- A 128-bit quad value. -/
abbrev QWord := BitVec 128

end Sys2Proof
end

