-- ==== Sys2Proof/Syntax.lean ====
section
/-! DEFINITION. The instructions (spec/opcode_table.json): one constructor for every row. The 116 rows that are
instruction words come first; the 82 rows without encoding bits are the part's events. The chain bit C (bit 31) is no
field of an instruction: it belongs to the chain (04 R74). An optional or required extension word (R84) is a field. -/

namespace Sys2Proof

/-- A v register index (04 R78). -/
abbrev Reg := BitVec 7
/-- A predicate index k0-k7. -/
abbrev KIx := BitVec 3
/-- A rejoin mask index j0-j7. -/
abbrev JIx := BitVec 3
/-- A tile index field (13 R202). -/
abbrev TIx := BitVec 5

/-- Format tags (03 R54); 13-15 are reserved and no instruction writes them. -/
inductive Tag where
  | raw | i32 | i64 | f32 | f64 | bf16x2 | f16x2 | e4m3x4 | e5m2x4 | i8x4 | kn4x8 | f32x2 | b128
  deriving DecidableEq, Repr

/-- Integer conditions of ISET and WAITA (04 R86). -/
inductive Cond where
  | eq | ne | lt | le | gt | ge | ltu | leu | gtu | geu
  deriving DecidableEq, Repr

/-- Float conditions of FSET (04 R86). -/
inductive FCond where
  | eq | ne | lt | le | gt | ge | num | nan
  deriving DecidableEq, Repr

/-- Operations of AMO and APST (09 R157). -/
inductive AmoOp where
  | add | min | max | and | or | xor | xchg | inc | dec
  deriving DecidableEq, Repr

/-- Operations of GRED (22 R329). -/
inductive RedOp where
  | add | min | max | and | or | xor
  deriving DecidableEq, Repr

/-- Operations of TRED (13 R202). -/
inductive TRedOp where
  | sum | sq | max | min
  deriving DecidableEq, Repr

/-- Rounding modes (03 R60). -/
inductive Rm where
  | rne | rtz | rdn | rup
  deriving DecidableEq, Repr

/-- Registers moved by MOV (23 R343). -/
inductive MovSize where
  | one | two | four
  deriving DecidableEq, Repr

/-- Branch hints (02 R29). -/
inductive BrHint where
  | none | lk | un | gu
  deriving DecidableEq, Repr

/-- Cache hints (04 R80). -/
inductive CHint where
  | normal | ef | kp | nl
  deriving DecidableEq, Repr

/-- Where VOTE puts its result (24 R371). -/
inductive VoteDst where
  | all (k : KIx) | any (k : KIx) | uni (k : KIx) | bal (d : Reg)
  deriving DecidableEq, Repr

/-- INVT modes (06 R114). -/
inductive InvtMode where
  | page (a : Reg) | nonGlobal | all
  deriving DecidableEq, Repr

/-- Tile tags (13 R202). -/
inductive TileTag where
  | i32 | f32 | f64
  deriving DecidableEq, Repr

/-- Formats of TMMA's B (13 R207). -/
inductive BFmt where
  | f64 | bf16 | f16 | e4m3 | e5m2 | i8
  deriving DecidableEq, Repr

/-- Fill constants of triangular mode (13 R207). -/
inductive Fill where
  | zero | ninf | pinf
  deriving DecidableEq, Repr

/-- The extension word of TMMA (13 R207); `bfmt := none` is BFMT 0. -/
structure TmmaExt where
  diag : BitVec 10
  fill : Fill
  tri  : Bool
  bfmt : Option BFmt
  deriving DecidableEq, Repr

/-- The placed operations (24 R375). -/
inductive XOp where
  | add | sub | mul | fma | min | max | fil
  deriving DecidableEq, Repr

/-- System registers (03 R51). -/
inductive SysReg where
  | lane | group | team | fold | tidx | argp | clk
  | fltCause | fltPc | fltMask | fltInst | fltAddr | fltSub | fltExc
  | utvec | ften | frm | uctl | taskid | taskst
  deriving DecidableEq, Repr

/-- A thread of the machine: the unique name of its team and its index in the team (02 R21). -/
structure TRef where
  team : Nat
  tidx : Nat
  deriving DecidableEq, Repr

/-- The fuses (20 R285). -/
inductive Fuse where
  | rootHash (bit : Nat) | ownerHash (bit : Nat) | sealBit | fwsvn (bit : Nat) | cosvn (bit : Nat) | idseed (bit : Nat)
  deriving DecidableEq, Repr

/-- The debug states (20 R287). -/
inductive DebugState where
  | none | halt | trace
  deriving DecidableEq, Repr

/-- The power states a request names (20 R289). -/
inductive PowerState where
  | run | idle | dieOff | pkgSleep
  deriving DecidableEq, Repr

/-- The array instances that keep error counters (05 R104, R106), the chiplet's caches (19 R276) and a pool device behind a port
(R272). -/
inductive Place where
  | pasture (core : Nat) | l1 (core : Nat) | accum (core : Nat) | queue (core : Nat)
  | slice (n : Nat) | byre (die : Nat) | stack (n : Nat) | chiplet | pool (port : Nat)
  deriving DecidableEq, Repr

/-- What an uncorrectable error strikes inside its array (05 R104): a thread's register, a team's array, a line, or
a saved team. -/
inductive Struck where
  | register (t : TRef) (v : Nat) | team (uid : Nat) | cleanLine (pa : Nat) | dirtyLine (pa : Nat) | saved (uid : Nat)
  deriving DecidableEq, Repr

/-- An access made by an agent outside the cores, at physical address `pa` (19 R265, R271, 01 R14). `own`: an atomic
of a peer's core on a CORE page, run in the line that the peer takes (07 R137); `part`: an update of a peer's core on a UPDT page (09
R162); `payload` and `row`: what a peer's drover writes, a payload and a row unit with
the bytes of another or with zeros (05 R105, 11 R191, R192). -/
inductive AgentAccess where
  | read (pa : Nat) (n : Nat)
  | write (pa : Nat) (bytes : List Byte)
  | atomic (pa : Nat) (op : AmoOp) (tag : Tag) (operand : BitVec 64)
  | own (pa : Nat) (op : AmoOp) (tag : Tag) (operand : BitVec 64)
  | part (peer pa : Nat) (op : AmoOp) (tag : Tag) (operand : BitVec 64)
  | payload (pa : Nat) (bytes : List Byte)
  | row (dst : Nat) (src : Option Nat)
  deriving DecidableEq, Repr

/-- A context descriptor as firmware writes it (19 R267). -/
structure CtxDesc where
  ctxno   : Nat
  root    : Nat
  keymask : BitVec 16
  kmode   : Bool
  lright  : Bool
  policy  : Bool   -- true: RESTART
  svcok   : Bool
  rlimit  : Nat
  fqbase  : Nat
  fqsize  : Nat
  fqtail  : Word
  deriving DecidableEq, Repr

/-- What an x16 port is (01 R13; 19 R271, R272): off, an endpoint toward an external host, or the root port of a CXL pool of some
bytes. -/
inductive Port where
  | off | pcie | cxl (bytes : Nat)
  deriving DecidableEq, Repr

/-- A public key: a point of the curve (20 R279). -/
structure PubKey where
  x : Nat
  y : Nat
  deriving DecidableEq, Repr

/-- What the boot ROM and the image find at a start (20 R292): whether the image has the format, its SVN and digest, the public key
and the signature it bears, the reason of a failed check of step 3 (4 to 7; 0 when every check passes), the domain module number and the
module count (19 R274), the domain time then (24 R367), and the ports' personalities (01 R13). -/
structure StartReport where
  formatOk : Bool
  svn      : Nat
  image    : BitVec 384
  key      : PubKey
  sig      : List Byte
  check    : Nat
  module   : Nat
  modules  : Nat
  time     : Nat
  ports    : List Port
  deriving DecidableEq, Repr

/-- What the debug interface may write as the state in which a saved thread stands (16 R253): ready, held by a rejoin mask, parked with
the cause, the address and the page, asleep at a hurdle, or asleep in WAITA with its watch: a team's scratchpad, or a line by its
physical and generic address. -/
inductive DebugWait where
  | ready
  | held (j : Nat)
  | parked (cause addr page bytes : Nat)
  | hurdle (team off gen : Nat)
  | scratch (k : KIx) (team off width : Nat) (cond : Cond) (value : DWord) (deadline : Option Nat)
  | line (k : KIx) (pa va width : Nat) (cond : Cond) (value : DWord) (deadline : Option Nat)
  | counts (l s d t : Nat)
  | xfen
  | service (batch : Nat)
  | acquire (targets : List (Nat × Word))
  | drains (cmds : List (Nat × Nat × Nat)) (stamps : List (TRef × Nat))
  deriving DecidableEq, Repr

/-- What the debug interface writes of a saved team (20 R287; 16 R253): a register, predicates, a program counter, a system register
that software may read (of FLT_SUB its lower half), FLT_SUB whole with its tag, the handler's state, a reuse latch, the state in which a
thread stands, a set of a rejoin mask (02 R30), a byte of the scratchpad, tiles or queue, a tile's tag, or the ends of the queue with the
pushes that stand in it. -/
inductive DebugEdit where
  | reg (t : TRef) (r : Reg) (bits : Word) (tag : Tag)
  | preds (t : TRef) (v : Byte)
  | pc (t : TRef) (v : DWord)
  | sys (t : TRef) (n : SysReg) (v : DWord)
  | handler (t : TRef) (active written : Bool) (resume : DWord)
  | mask (team group n : Nat) (parked : Bool) (v : Word)
  | scratch (team off : Nat) (v : Byte)
  | tile (team off : Nat) (v : Byte)
  | queue (team off : Nat) (v : Byte)
  | sub (t : TRef) (bits : QWord) (tag : Tag)
  | latch (t : TRef) (v : Option (Nat × List (Word × Tag)))
  | wait (t : TRef) (v : DebugWait)
  | tileTag (team tile : Nat) (v : TileTag)
  | pushes (team head tail : Nat) (v : List (Nat × TRef × Word))
  deriving DecidableEq, Repr

/-- A DEBUG_RESUME: the context it names and what the debugger wrote before it (20 R287). -/
structure DebugResume where
  ctx   : Nat
  edits : List DebugEdit
  deriving DecidableEq, Repr

/-- Every operation of the part. -/
inductive Instr where
  -- instruction words, in the table's order
  | acas (d a b : Reg)
  | amo (d a b : Reg) (f : AmoOp)
  | andReg (d a b : Reg)
  | andImm (d a : Reg) (i : BitVec 9)
  | apst (a b : Reg) (f : AmoOp)
  | bfx (d a b : Reg)
  | bfi (d a b : Reg)
  | bprm (d a b : Reg)
  | br (h : BrHint) (k : KIx) (n : Bool) (disp : BitVec 19)
  | call (h : BrHint) (k : KIx) (n : Bool) (disp : BitVec 19)
  | brk (code : BitVec 7)
  | brx (a : Reg)
  | clz (d a : Reg)
  | cvt (d a : Reg) (sat : Bool) (rm : Rm) (tgt : Tag)
  | dcmd (n : BitVec 2) (a : Reg)
  | dot4 (d a b : Reg)
  | dqry (d : Reg)
  | enrl (n : JIx)
  | park (n : JIx)
  | strk (n : JIx)
  | exit
  | fadd (d a b : Reg)
  | fsub (d a b : Reg)
  | fmul (d a b : Reg)
  | fmin (d a b : Reg)
  | fmax (d a b : Reg)
  | fdiv (d a b : Reg)
  | fcls (d a : Reg)
  | ffma (d a b : Reg)
  | frcp (d a : Reg)
  | frsq (d a : Reg)
  | fsqrt (d a : Reg)
  | fex2 (d a : Reg)
  | flg2 (d a : Reg)
  | fsin (d a : Reg)
  | fcos (d a : Reg)
  | fset (k : KIx) (a b : Reg) (f : FCond)
  | gred (d a : Reg) (o : RedOp)
  | gsr (d : Reg) (n : SysReg)
  | hrdi (d a b : Reg)
  | hrda (d a b : Reg)
  | hrdw (a b : Reg)
  | iaddReg (d a b : Reg)
  | iaddImm (d a : Reg) (i : BitVec 11)
  | isub (d a b : Reg)
  | imul (d a b : Reg)
  | imulh (d a b : Reg)
  | imin (d a b : Reg)
  | imax (d a b : Reg)
  | iabs (d a : Reg)
  | imad (d a b : Reg)
  | invt (m : InvtMode)
  | iset (k : KIx) (a b : Reg) (f : Cond)
  | ld (d a : Reg) (h : CHint) (t : Tag) (o : BitVec 5)
  | ldb (d a : Reg) (refetch : Bool) (t : Tag) (k : BitVec 5)
  | lnch (d a : Reg)
  | mov (d a : Reg) (s : MovSize)
  | movh (d : Reg) (i : BitVec 16)
  | movi (d : Reg) (i : BitVec 18) (ext : Option (BitVec 14))
  | nop
  | inot (d a : Reg)
  | orReg (d a b : Reg)
  | orImm (d a : Reg) (i : BitVec 9)
  | xorReg (d a b : Reg)
  | xorImm (d a : Reg) (i : BitVec 9)
  | pack (d a b : Reg)
  | unpk (d a : Reg)
  | phse (s : BitVec 5)
  | prel (s : BitVec 5)
  | pacq (s : BitVec 5)
  | pfch (a : Reg) (h : CHint) (t : Tag) (o : BitVec 5)
  | popc (d a : Reg)
  | qswp (d a : Reg) (x : BitVec 2)
  | qbrd (d a : Reg) (i : BitVec 2)
  | shfl (d a b : Reg)
  | vote (dst : VoteDst) (k : KIx)
  | ret (a : Reg)
  | rtag (d a : Reg) (t : Tag)
  | rte (sub : Bool)
  | scpg (idx : BitVec 5) (a : Reg)
  | sel (d a b : Reg) (k : KIx)
  | shlReg (d a b : Reg)
  | shrReg (d a b : Reg)
  | shaReg (d a b : Reg)
  | shlImm (d a : Reg) (n : BitVec 6)
  | shrImm (d a : Reg) (n : BitVec 6)
  | shaImm (d a : Reg) (n : BitVec 6)
  | ssr (d : Reg) (n : SysReg)
  | st (d a : Reg) (h : CHint) (t : Tag) (o : BitVec 5)
  | svc (num : BitVec 7) (a : Reg)
  | time (d : Reg)
  | trap (code : BitVec 7)
  | tmma (td : TIx) (a b : Reg) (ru : Bool) (ext : Option TmmaExt)
  | tzro (td : TIx) (t : TileTag)
  | tld (td : TIx) (t : TileTag) (b : Reg)
  | tst (td : TIx) (b : Reg)
  | tcvt (td ta : TIx) (t : TileTag) (rm : Rm)
  | trdr (td : TIx) (a : Reg) (g : BitVec 6)
  | twrr (td : TIx) (a : Reg) (g : BitVec 6)
  | tscl (td : TIx) (a : Reg)
  | tred (td : TIx) (a : Reg) (o : TRedOp)
  | tspl (td : TIx) (a b : Reg)
  | tfch (td : TIx) (a b : Reg)
  | waita (k : KIx) (a b : Reg) (f : Cond) (timeout : Option (BitVec 25))
  | waitc (l s d t : BitVec 6)
  | xadd (d a b : Reg) (t : Tag) (n : Reg)
  | xsub (d a b : Reg) (t : Tag) (n : Reg)
  | xmul (d a b : Reg) (t : Tag) (n : Reg)
  | xfma (d a b : Reg) (t : Tag) (n : Reg)
  | xmin (d a b : Reg) (t : Tag) (n : Reg)
  | xmax (d a b : Reg) (t : Tag) (n : Reg)
  | xfil (d a : Reg) (t : Tag) (n : Reg)
  | xfen
  | xqry (d a : Reg)
  | xsht (d a b : Reg)
  | yild
  -- events, in the table's order
  | regroup (core sub : Nat)
  | loadReturn (t : TRef) (op : Nat)
  | storeComplete (t : TRef) (op : Nat)
  | updtPartialEvict (core line : Nat)
  | ownershipUpgrade (core line : Nat)
  | lineRecall (line : Nat)
  | mirrorPush (die region : Nat)
  | waitaWake (t : TRef)
  | waitaTimeout (t : TRef)
  | monitorPoll (t : TRef)
  | hrdwWake (t : TRef)
  | droverAccept (team : Nat)
  | lin (cmd : Nat)
  | fill (cmd : Nat)
  | ten2 (cmd : Nat)
  | ten3 (cmd : Nat)
  | gath (cmd : Nat)
  | idxr (cmd : Nat)
  | rowc (cmd : Nat)
  | rowz (cmd : Nat)
  | coll (cmd : Nat) (agree : Bool) (peers : List (Nat × List Byte))
  | droverStamp (cmd : Nat)
  | payloadLand (cmd piece : Nat)
  | droverCommandEnd (cmd : Nat)
  | chunkArrival (core sub : Nat)
  | xshtDrainDone (t : TRef) (op : Nat)
  | handlerEntry (t : TRef)
  | impreciseFaultDetect (team : Nat)
  | teamRetire (team : Nat)
  | gridComplete (launch : Nat)
  | launchEligible (launch : Nat)
  | foldPlace
  | priorityWaitExpiry (launch : Nat)
  | preemptRequest (team : Nat)
  | drainTimeout (team : Nat)
  | deferTimeout (team : Nat)
  | deferClear (team : Nat)
  | teamSave (team : Nat)
  | teamRestore (team : Nat) (fillFault : Bool)
  | contextTeardown (ctx : Nat)
  | uncorrectableError (at_ : Place) (what : Struck)
  | correctableError (at_ : Place) (line : Option Nat)
  | peerUnreachable (peer : Nat)
  | serviceResult (batch : Nat)
  | nullService (batch : Nat)
  | wallclock (batch : Nat)
  | moduleService (batch : Nat)
  | execmap (batch : Nat)
  | shepherdKilled (die : Nat)
  | mailboxRequest (box : Nat)
  | chipletAccess (acc : AgentAccess)
  | hostBarAccess (port : Nat) (acc : AgentAccess)
  | svcon (entry : Nat) (arg : DWord)
  | svcoff
  | submit (pa : Nat)
  | loadobj (pa ctx codeBase dataBase : Nat)
  | unloadobj (obj ctx : Nat)
  | advsvn (n : Nat)
  | keyEnrolment (key : PubKey) (signedByOwner : Bool)
  | enterAttested (nonce : BitVec 384)
  | contextDescriptorChange (desc : CtxDesc)
  | debugStateSet (d : DebugState)
  | debugHalt (ctx : Nat)
  | debugResume (r : DebugResume)
  | powerStateRequest (state : PowerState) (dies : List Nat) (wait : Nat)
  | powerRequestTimeout
  | wakeToRun
  | powerCapSet (watts : Nat)
  | powerOn (report : StartReport)
  | startTimeout
  | clearFails
  | recoveryImageWrite
  | thermalLimit (above : Bool)
  | coolantPowerRemoval
  | errorCounterClear (at_ : Place)
  | tileOperationComplete (core sub : Nat)
  | walkComplete (die ctx va : Nat)
  | publicationComplete (t : TRef)
  | startComplete
  | drovewayRequest (acc : AgentAccess)
  | multicastInvalidation (line : Nat)
  | fuseBlow (f : Fuse)
  deriving DecidableEq, Repr

end Sys2Proof
end

