-- ==== Sys2Proof/WellFormed.lean ====
section
/-! DEFINITION. Which instructions a word can stand for: the alignments and field values that the word alone fixes (03 R47,
04 R87, 21 R297). The register count N and the tile count are the launch's and are checked at issue (02 R23). -/

namespace Sys2Proof

/-- Registers one value of a tag occupies (03 R54). -/
def Tag.regs : Tag → Nat
  | .i64 | .f64 | .f32x2 => 2
  | .b128 => 4
  | _ => 1

/-- Whether a register index is a multiple of `k`. -/
def Reg.al (r : Reg) (k : Nat) : Bool := r.toNat % k == 0

/-- Registers that hold a system register's value (03 R51); FLT_SUB's follow its tag and are checked at issue. -/
def SysReg.regs : SysReg → Nat
  | .argp | .clk | .fltPc | .fltAddr | .utvec => 2
  | _ => 1

/-- Whether SSR may write the register (03 R51). -/
def SysReg.writable : SysReg → Bool
  | .lane | .group | .team | .fold | .tidx | .argp | .clk | .taskst => false
  | _ => true

/-- Element tags a placed operation accepts (24 R375). -/
def XOp.accepts (x : XOp) (t : Tag) : Bool :=
  match x with
  | .fil => t != .raw
  | .fma => t == .f32 || t == .f64 || t == .bf16x2 || t == .f32x2
  | _ => t == .i32 || t == .i64 || t == .f32 || t == .f64 || t == .bf16x2 || t == .f32x2

def MovSize.regs : MovSize → Nat
  | .one => 1 | .two => 2 | .four => 4

/-- The checks that the word alone fixes. -/
def Instr.wf : Instr → Bool
  | .acas _ a b => Reg.al a 2 && Reg.al b 2
  | .amo _ a _ _ => Reg.al a 2
  | .apst a _ _ => Reg.al a 2
  | .brx a => Reg.al a 2
  | .ret a => Reg.al a 2
  | .cvt _ _ _ _ t => t != .raw && t != .b128
  | .dcmd n a => n != 0 && Reg.al a 8
  | .gsr d n => Reg.al d n.regs
  | .ssr d n => n.writable && Reg.al d n.regs
  | .hrdi d a _ => Reg.al d 2 && Reg.al a 2
  | .hrda _ a _ => Reg.al a 2
  | .hrdw a _ => Reg.al a 2
  | .invt (.page a) => Reg.al a 2
  | .ld d a _ t _ => Reg.al a 2 && Reg.al d t.regs
  | .ldb d a _ t k => Reg.al a 2 && Reg.al d t.regs && k != 31
  | .st d a _ t _ => Reg.al a 2 && Reg.al d t.regs
  | .pfch a _ _ _ => Reg.al a 2
  | .lnch _ a => Reg.al a 2
  | .mov d a s => Reg.al d s.regs && Reg.al a s.regs
  | .unpk d _ => Reg.al d 2
  | .qswp _ _ x => x != 0
  | .rtag d a t => Reg.al d t.regs && Reg.al a t.regs
  | .scpg i a => decide (4 ≤ i.toNat) && Reg.al a 4
  | .svc _ a => Reg.al a 8
  | .time d => Reg.al d 2
  | .tmma _ a b _ _ => Reg.al a 8 && Reg.al b 2
  | .tld _ _ b => Reg.al b 2
  | .tst _ b => Reg.al b 2
  | .trdr _ a g => Reg.al a 8 && decide (g.toNat ≤ 47)
  | .twrr _ a g => Reg.al a 8 && decide (g.toNat ≤ 47)
  | .tscl _ a => Reg.al a 2
  | .tspl _ _ b => Reg.al b 2
  | .tfch _ _ b => Reg.al b 2
  | .waita _ a _ _ _ => Reg.al a 2
  | .xadd d a b t _ => Reg.al d 2 && Reg.al a 2 && Reg.al b 2 && XOp.accepts .add t
  | .xsub d a b t _ => Reg.al d 2 && Reg.al a 2 && Reg.al b 2 && XOp.accepts .sub t
  | .xmul d a b t _ => Reg.al d 2 && Reg.al a 2 && Reg.al b 2 && XOp.accepts .mul t
  | .xfma d a b t _ => Reg.al d 2 && Reg.al a 2 && Reg.al b 2 && XOp.accepts .fma t
  | .xmin d a b t _ => Reg.al d 2 && Reg.al a 2 && Reg.al b 2 && XOp.accepts .min t
  | .xmax d a b t _ => Reg.al d 2 && Reg.al a 2 && Reg.al b 2 && XOp.accepts .max t
  | .xfil d a t _ => Reg.al d 2 && Reg.al a t.regs && XOp.accepts .fil t
  | .xqry d a => Reg.al d 2 && Reg.al a 2
  | .xsht d a b => Reg.al d 2 && Reg.al a 2 && Reg.al b 2
  | _ => true

/-- Whether the instruction is an instruction word: the other constructors are events. -/
def Instr.isWord : Instr → Bool
  | .regroup .. | .loadReturn .. | .storeComplete .. | .updtPartialEvict .. | .ownershipUpgrade .. | .lineRecall ..
  | .mirrorPush .. | .waitaWake .. | .waitaTimeout .. | .monitorPoll .. | .hrdwWake .. | .droverAccept ..
  | .lin .. | .fill .. | .ten2 .. | .ten3 .. | .gath .. | .idxr .. | .rowc .. | .rowz .. | .coll .. | .droverStamp ..
  | .payloadLand .. | .droverCommandEnd .. | .chunkArrival .. | .xshtDrainDone .. | .handlerEntry ..
  | .impreciseFaultDetect .. | .teamRetire .. | .gridComplete .. | .launchEligible .. | .foldPlace
  | .priorityWaitExpiry .. | .preemptRequest .. | .drainTimeout .. | .deferTimeout .. | .deferClear .. | .teamSave ..
  | .teamRestore .. | .contextTeardown .. | .uncorrectableError .. | .correctableError .. | .peerUnreachable ..
  | .serviceResult .. | .nullService .. | .wallclock .. | .moduleService .. | .execmap .. | .shepherdKilled ..
  | .mailboxRequest .. | .chipletAccess .. | .hostBarAccess .. | .svcon .. | .svcoff | .submit .. | .loadobj ..
  | .unloadobj .. | .advsvn .. | .keyEnrolment .. | .enterAttested .. | .contextDescriptorChange .. | .debugStateSet ..
  | .debugHalt .. | .debugResume .. | .powerStateRequest .. | .powerRequestTimeout | .wakeToRun | .powerCapSet ..
  | .powerOn .. | .startTimeout | .clearFails | .recoveryImageWrite | .thermalLimit .. | .coolantPowerRemoval
  | .errorCounterClear .. | .tileOperationComplete .. | .walkComplete .. | .publicationComplete .. | .startComplete
  | .drovewayRequest .. | .multicastInvalidation .. | .fuseBlow .. => false
  | _ => true

end Sys2Proof
end

