-- ==== Sys2Proof/Decode.lean ====
section
/-! DEFINITION. Decoding: words to instructions, total, rejecting by name (04 R73-R88), and the encoder written from the
same tables. A word's fields are read by division so that each stands where R77 puts it. -/

namespace Sys2Proof

/-- Why a word is illegal (04 R74, R84, R87); every one raises cause 0x01. -/
inductive Illegal where
  | unassignedMajor | illegalFn | reservedField | badTag | badIndex | misaligned
  | cInSlot2 | pipeClash | extPlace | extNotTaken | extMissing | dstOverlap | registerRange | tileRange | stepping
  deriving DecidableEq, Repr

/-- Bits `lo + n - 1 : lo` of a word. -/
def fld (w lo n : Nat) : Nat := w / 2 ^ lo % 2 ^ n

/-- Tags by number (03 R54). -/
def Tag.code : Tag → Nat
  | .raw => 0 | .i32 => 1 | .i64 => 2 | .f32 => 3 | .f64 => 4 | .bf16x2 => 5 | .f16x2 => 6 | .e4m3x4 => 7
  | .e5m2x4 => 8 | .i8x4 => 9 | .kn4x8 => 10 | .f32x2 => 11 | .b128 => 12

def tagOf : Nat → Option Tag
  | 0 => some .raw | 1 => some .i32 | 2 => some .i64 | 3 => some .f32 | 4 => some .f64 | 5 => some .bf16x2
  | 6 => some .f16x2 | 7 => some .e4m3x4 | 8 => some .e5m2x4 | 9 => some .i8x4 | 10 => some .kn4x8
  | 11 => some .f32x2 | 12 => some .b128 | _ => none

def Cond.code : Cond → Nat
  | .eq => 0 | .ne => 1 | .lt => 2 | .le => 3 | .gt => 4 | .ge => 5 | .ltu => 6 | .leu => 7 | .gtu => 8 | .geu => 9

def condOf : Nat → Option Cond
  | 0 => some .eq | 1 => some .ne | 2 => some .lt | 3 => some .le | 4 => some .gt | 5 => some .ge
  | 6 => some .ltu | 7 => some .leu | 8 => some .gtu | 9 => some .geu | _ => none

def FCond.code : FCond → Nat
  | .eq => 0 | .ne => 1 | .lt => 2 | .le => 3 | .gt => 4 | .ge => 5 | .num => 6 | .nan => 7

def fcondOf : Nat → Option FCond
  | 0 => some .eq | 1 => some .ne | 2 => some .lt | 3 => some .le | 4 => some .gt | 5 => some .ge
  | 6 => some .num | 7 => some .nan | _ => none

def AmoOp.code : AmoOp → Nat
  | .add => 0 | .min => 2 | .max => 3 | .and => 4 | .or => 5 | .xor => 6 | .xchg => 7 | .inc => 8 | .dec => 9

def amoOf : Nat → Option AmoOp
  | 0 => some .add | 2 => some .min | 3 => some .max | 4 => some .and | 5 => some .or | 6 => some .xor
  | 7 => some .xchg | 8 => some .inc | 9 => some .dec | _ => none

def RedOp.code : RedOp → Nat
  | .add => 0 | .min => 2 | .max => 3 | .and => 4 | .or => 5 | .xor => 6

def redOf : Nat → Option RedOp
  | 0 => some .add | 2 => some .min | 3 => some .max | 4 => some .and | 5 => some .or | 6 => some .xor | _ => none

def TRedOp.code : TRedOp → Nat
  | .sum => 0 | .sq => 1 | .max => 2 | .min => 3

def tredOf : Nat → TRedOp
  | 0 => .sum | 1 => .sq | 2 => .max | _ => .min

def Rm.code : Rm → Nat
  | .rne => 0 | .rtz => 1 | .rdn => 2 | .rup => 3

def rmOf : Nat → Rm
  | 0 => .rne | 1 => .rtz | 2 => .rdn | _ => .rup

def BrHint.code : BrHint → Nat
  | .none => 0 | .lk => 1 | .un => 2 | .gu => 3

def brHintOf : Nat → BrHint
  | 0 => .none | 1 => .lk | 2 => .un | _ => .gu

def CHint.code : CHint → Nat
  | .normal => 0 | .ef => 1 | .kp => 2 | .nl => 3

def cHintOf : Nat → CHint
  | 0 => .normal | 1 => .ef | 2 => .kp | _ => .nl

def MovSize.code : MovSize → Nat
  | .one => 0 | .two => 1 | .four => 2

def movSizeOf : Nat → Option MovSize
  | 0 => some .one | 1 => some .two | 2 => some .four | _ => none

def TileTag.code : TileTag → Nat
  | .i32 => 1 | .f32 => 3 | .f64 => 4

def tileTagOf : Nat → Option TileTag
  | 1 => some .i32 | 3 => some .f32 | 4 => some .f64 | _ => none

def bfmtCode : Option BFmt → Nat
  | none => 0 | some .f64 => 4 | some .bf16 => 5 | some .f16 => 6 | some .e4m3 => 7 | some .e5m2 => 8 | some .i8 => 9

def bfmtOf : Nat → Option (Option BFmt)
  | 0 => some none | 4 => some (some .f64) | 5 => some (some .bf16) | 6 => some (some .f16) | 7 => some (some .e4m3)
  | 8 => some (some .e5m2) | 9 => some (some .i8) | _ => none

def Fill.code : Fill → Nat
  | .zero => 0 | .ninf => 1 | .pinf => 2

def fillOf : Nat → Option Fill
  | 0 => some .zero | 1 => some .ninf | 2 => some .pinf | _ => none

/-- System register numbers (03 R51). -/
def SysReg.code : SysReg → Nat
  | .lane => 0x001 | .group => 0x002 | .team => 0x003 | .fold => 0x004 | .tidx => 0x005 | .argp => 0x006 | .clk => 0x007
  | .fltCause => 0x010 | .fltPc => 0x011 | .fltMask => 0x012 | .fltInst => 0x013 | .fltAddr => 0x014 | .fltSub => 0x015
  | .fltExc => 0x016 | .utvec => 0x020 | .ften => 0x021 | .frm => 0x022 | .uctl => 0x023
  | .taskid => 0x030 | .taskst => 0x031

def sysRegOf : Nat → Option SysReg
  | 0x001 => some .lane | 0x002 => some .group | 0x003 => some .team | 0x004 => some .fold | 0x005 => some .tidx
  | 0x006 => some .argp | 0x007 => some .clk | 0x010 => some .fltCause | 0x011 => some .fltPc | 0x012 => some .fltMask
  | 0x013 => some .fltInst | 0x014 => some .fltAddr | 0x015 => some .fltSub | 0x016 => some .fltExc
  | 0x020 => some .utvec | 0x021 => some .ften | 0x022 => some .frm | 0x023 => some .uctl
  | 0x030 => some .taskid | 0x031 => some .taskst | _ => none

/-- The answer of decoding one word with the extension word that follows it in its chain, if any; `extBad` marks
a failure that lies in the extension word itself. -/
inductive WordDec where
  | ok (i : Instr)
  | bad (e : Illegal)
  | extBad (e : Illegal)
  deriving DecidableEq, Repr

/-- `i` when the condition holds and `i` is well formed; else the named failure. -/
def need (c : Bool) (e : Illegal) (i : Instr) : WordDec :=
  if c then (if i.wf then .ok i else .bad .misaligned) else .bad e

/-- An option that names an unassigned value fails with `e`. -/
def opt {α : Type} (o : Option α) (e : Illegal) (f : α → WordDec) : WordDec :=
  match o with
  | some x => f x
  | none => .bad e

/-- The extension's IMM25 of a placed word (04 R84). The count register and the element tag stand in the extension word, but a count
register at or beyond N and a tag that the function does not take are reported at the word itself (log 15, DESIGN CHOICE): the
extension's own bits are in order. -/
def placed (ext : Option Nat) (zero : Bool) (mk : Tag → Reg → Instr) : WordDec :=
  match ext with
  | none => .bad .extMissing
  | some x =>
    if fld x 11 14 == 0 then
      match tagOf (fld x 7 4) with
      | some t => if t == .raw then .extBad .badTag else need zero .reservedField (mk t (BitVec.ofNat 7 (fld x 0 7)))
      | none => .extBad .badTag
    else .extBad .reservedField

/-- A word that takes no extension refuses one (04 R74); the extension word is the one reported. -/
def noExt (ext : Option Nat) (r : WordDec) : WordDec :=
  match ext with
  | none => r
  | some _ => match r with | .bad e => .bad e | _ => .extBad .extNotTaken

/-- MAJ 0x00 (04 R85). -/
def decControl (d a b fn : Nat) : WordDec :=
  let ra : Reg := BitVec.ofNat 7 a
  match fn with
  | 0 => need (d == 0 && a == 0 && b == 0) .reservedField .nop
  | 1 => need (d == 0 && a == 0 && b == 0) .reservedField .exit
  | 2 => need (d == 0 && b == 0) .reservedField (.ret ra)
  | 3 => need (d < 2 && a == 0 && b == 0) .reservedField (.rte (d == 1))
  | 4 => need (a == 0 && b == 0) .reservedField (.brk (BitVec.ofNat 7 d))
  | 5 => need (d == 0 && a == 0 && b == 0) .reservedField .xfen
  | 6 => need (d == 0 && a == 0 && b == 0) .reservedField .yild
  | 7 => need (b == 0) .reservedField (.svc (BitVec.ofNat 7 d) ra)
  | 8 => need (a == 0 && b == 0) .reservedField (.trap (BitVec.ofNat 7 d))
  | 9 => need (d == 0 && b == 0) .reservedField (.brx ra)
  | _ => .bad .illegalFn

/-- MAJ 0x03 (02 R31). -/
def decRejoin (d a b fn : Nat) : WordDec :=
  let n : JIx := BitVec.ofNat 3 d
  let z := d < 8 && a == 0 && b == 0
  match fn with
  | 0 => need z .reservedField (.enrl n)
  | 1 => need z .reservedField (.park n)
  | 2 => need z .reservedField (.strk n)
  | _ => .bad .illegalFn

/-- MAJ 0x04 (04 R85). -/
def decInt (d a b fn : Nat) : WordDec :=
  let rd : Reg := BitVec.ofNat 7 d
  let ra : Reg := BitVec.ofNat 7 a
  let rb : Reg := BitVec.ofNat 7 b
  match fn with
  | 0 => need true .reservedField (.iaddReg rd ra rb)
  | 1 => need true .reservedField (.isub rd ra rb)
  | 2 => need true .reservedField (.imul rd ra rb)
  | 3 => need true .reservedField (.imulh rd ra rb)
  | 4 => need true .reservedField (.imin rd ra rb)
  | 5 => need true .reservedField (.imax rd ra rb)
  | 6 => need (b == 0) .reservedField (.iabs rd ra)
  | 7 => need true .reservedField (.andReg rd ra rb)
  | 8 => need true .reservedField (.orReg rd ra rb)
  | 9 => need true .reservedField (.xorReg rd ra rb)
  | 10 => need (b == 0) .reservedField (.inot rd ra)
  | 11 => need true .reservedField (.shlReg rd ra rb)
  | 12 => need true .reservedField (.shrReg rd ra rb)
  | 13 => need true .reservedField (.shaReg rd ra rb)
  | 14 => need (b == 0) .reservedField (.clz rd ra)
  | _ => need (b == 0) .reservedField (.popc rd ra)

/-- MAJ 0x06 and 0x07 (04 R79). -/
def decIntImm (maj d a imm : Nat) : WordDec :=
  let rd : Reg := BitVec.ofNat 7 d
  let ra : Reg := BitVec.ofNat 7 a
  if maj == 6 then
    let n : BitVec 6 := BitVec.ofNat 6 imm
    let z := imm / 64 % 8 == 0
    match imm / 512 with
    | 0 => need z .reservedField (.shlImm rd ra n)
    | 1 => need z .reservedField (.shrImm rd ra n)
    | 2 => need z .reservedField (.shaImm rd ra n)
    | _ => .bad .illegalFn
  else
    let n : BitVec 9 := BitVec.ofNat 9 imm
    match imm / 512 with
    | 0 => need true .reservedField (.andImm rd ra n)
    | 1 => need true .reservedField (.orImm rd ra n)
    | 2 => need true .reservedField (.xorImm rd ra n)
    | _ => .bad .illegalFn

/-- MAJ 0x08-0x0B (04 R85). -/
def decMove (maj d a b fn : Nat) : WordDec :=
  let rd : Reg := BitVec.ofNat 7 d
  let ra : Reg := BitVec.ofNat 7 a
  let rb : Reg := BitVec.ofNat 7 b
  match maj with
  | 8 => if fn == 0 then need true .reservedField (.imad rd ra rb) else .bad .illegalFn
  | 9 =>
    match fn with
    | 0 => need true .reservedField (.bfx rd ra rb)
    | 1 => need true .reservedField (.bfi rd ra rb)
    | 2 => need true .reservedField (.bprm rd ra rb)
    | n => if n < 8 then .bad .illegalFn else need true .reservedField (.sel rd ra rb (BitVec.ofNat 3 n))
  | 10 => opt (condOf fn) .illegalFn fun f => need (d < 8) .reservedField (.iset (BitVec.ofNat 3 d) ra rb f)
  | _ =>
    match fn with
    | 0 => if b < 4 then opt (movSizeOf b) .illegalFn fun s => need true .reservedField (.mov rd ra s)
           else .bad .reservedField
    | 1 => if b < 16 then opt (tagOf b) .badTag fun t => need true .reservedField (.rtag rd ra t)
           else .bad .reservedField
    | 2 => opt (sysRegOf (a * 128 + b)) .badIndex fun n => need true .reservedField (.gsr rd n)
    | 3 => opt (sysRegOf (a * 128 + b)) .badIndex fun n => need true .reservedField (.ssr rd n)
    | 4 => need (a == 0 && b == 0) .reservedField (.time rd)
    | _ => .bad .illegalFn

/-- MAJ 0x10-0x15 (04 R85). -/
def decFloat (maj d a b fn : Nat) : WordDec :=
  let rd : Reg := BitVec.ofNat 7 d
  let ra : Reg := BitVec.ofNat 7 a
  let rb : Reg := BitVec.ofNat 7 b
  match maj with
  | 0x10 =>
    match fn with
    | 0 => need true .reservedField (.fadd rd ra rb)
    | 1 => need true .reservedField (.fsub rd ra rb)
    | 2 => need true .reservedField (.fmul rd ra rb)
    | 3 => need true .reservedField (.fmin rd ra rb)
    | 4 => need true .reservedField (.fmax rd ra rb)
    | 5 => need true .reservedField (.fdiv rd ra rb)
    | 6 => need (b == 0) .reservedField (.fcls rd ra)
    | 7 => need true .reservedField (.dot4 rd ra rb)
    | _ => .bad .illegalFn
  | 0x11 => if fn == 0 then need true .reservedField (.ffma rd ra rb) else .bad .illegalFn
  | 0x12 =>
    match fn with
    | 0 => need (b == 0) .reservedField (.frcp rd ra)
    | 1 => need (b == 0) .reservedField (.frsq rd ra)
    | 2 => need (b == 0) .reservedField (.fsqrt rd ra)
    | 3 => need (b == 0) .reservedField (.fex2 rd ra)
    | 4 => need (b == 0) .reservedField (.flg2 rd ra)
    | 5 => need (b == 0) .reservedField (.fsin rd ra)
    | 6 => need (b == 0) .reservedField (.fcos rd ra)
    | _ => .bad .illegalFn
  | 0x13 => opt (fcondOf fn) .illegalFn fun f => need (d < 8) .reservedField (.fset (BitVec.ofNat 3 d) ra rb f)
  | 0x14 => opt (tagOf fn) .badTag fun t =>
      if t == .raw || t == .b128 then .bad .badTag
      else need (b < 8) .reservedField (.cvt rd ra (b / 4 == 1) (rmOf (b % 4)) t)
  | _ =>
    match fn with
    | 0 => need true .reservedField (.pack rd ra rb)
    | 1 => need (b == 0) .reservedField (.unpk rd ra)
    | _ => .bad .illegalFn

/-- MAJ 0x18 (22 R329, 23 R354, 24 R371). -/
def decExchange (d a b fn : Nat) : WordDec :=
  let rd : Reg := BitVec.ofNat 7 d
  let ra : Reg := BitVec.ofNat 7 a
  let rb : Reg := BitVec.ofNat 7 b
  match fn with
  | 0 => need (b < 4) .reservedField (.qswp rd ra (BitVec.ofNat 2 b))
  | 1 => need (b < 4) .reservedField (.qbrd rd ra (BitVec.ofNat 2 b))
  | 2 => need true .reservedField (.shfl rd ra rb)
  | 3 =>
    let k : KIx := BitVec.ofNat 3 d
    let s : KIx := BitVec.ofNat 3 a
    match b with
    | 0 => need (a < 8 && d < 8) .reservedField (.vote (.all k) s)
    | 1 => need (a < 8 && d < 8) .reservedField (.vote (.any k) s)
    | 2 => need (a < 8 && d < 8) .reservedField (.vote (.uni k) s)
    | 3 => need (a < 8) .reservedField (.vote (.bal rd) s)
    | _ => .bad .reservedField
  | 4 => if b < 16 then opt (redOf b) .illegalFn fun o => need true .reservedField (.gred rd ra o) else .bad .reservedField
  | _ => .bad .illegalFn

/-- MAJ 0x20-0x23, the memory form (04 R80). -/
def decMem (maj w : Nat) : WordDec :=
  let rd : Reg := BitVec.ofNat 7 (fld w 18 7)
  let ra : Reg := BitVec.ofNat 7 (fld w 11 7)
  let o : BitVec 5 := BitVec.ofNat 5 (fld w 0 5)
  let h := cHintOf (fld w 9 2)
  opt (tagOf (fld w 5 4)) .badTag fun t =>
    match maj with
    | 0x20 => need true .reservedField (.ld rd ra h t o)
    | 0x21 => need true .reservedField (.st rd ra h t o)
    | 0x22 => need (fld w 9 1 == 0) .reservedField (.ldb rd ra (fld w 10 1 == 1) t o)
    | _ => need (fld w 18 7 == 0) .reservedField (.pfch ra h t o)

/-- MAJ 0x24-0x26, 0x29, 0x34, 0x38 (04 R85). -/
def decAtomic (maj d a b fn : Nat) : WordDec :=
  let rd : Reg := BitVec.ofNat 7 d
  let ra : Reg := BitVec.ofNat 7 a
  let rb : Reg := BitVec.ofNat 7 b
  match maj with
  | 0x24 => opt (amoOf fn) .illegalFn fun f => need true .reservedField (.amo rd ra rb f)
  | 0x25 => if fn == 0 then need true .reservedField (.acas rd ra rb) else .bad .illegalFn
  | 0x26 => opt (amoOf fn) .illegalFn fun f => need (d == 0) .reservedField (.apst ra rb f)
  | 0x29 => if fn == 0 then need (b == 0) .reservedField (.xqry rd ra) else .bad .illegalFn
  | 0x34 =>
    match fn with
    | 0 => need (d < 4 && b == 0) .reservedField (.dcmd (BitVec.ofNat 2 d) ra)
    | 1 => need (a == 0 && b == 0) .reservedField (.dqry rd)
    | _ => .bad .illegalFn
  | _ =>
    match fn with
    | 0 => need (d < 32 && b == 0) .reservedField (.scpg (BitVec.ofNat 5 d) ra)
    | 1 => need true .reservedField (.xsht rd ra rb)
    | 2 =>
      match d with
      | 0 => need (b == 0) .reservedField (.invt (.page ra))
      | 1 => need (a == 0 && b == 0) .reservedField (.invt .nonGlobal)
      | 2 => need (a == 0 && b == 0) .reservedField (.invt .all)
      | _ => .bad .illegalFn
    | 3 => need (b == 0) .reservedField (.lnch rd ra)
    | _ => .bad .illegalFn

/-- MAJ 0x2C (07 R130, 09 R171). -/
def decFence (d a b fn : Nat) : WordDec :=
  let rd : Reg := BitVec.ofNat 7 d
  let ra : Reg := BitVec.ofNat 7 a
  let rb : Reg := BitVec.ofNat 7 b
  let s : BitVec 5 := BitVec.ofNat 5 a
  let z := d == 0 && b == 0 && a < 32
  match fn with
  | 0 => need z .reservedField (.phse s)
  | 1 => need z .reservedField (.prel s)
  | 2 => need z .reservedField (.pacq s)
  | 4 => need true .reservedField (.hrdi rd ra rb)
  | 5 => need true .reservedField (.hrda rd ra rb)
  | 6 => need (d == 0) .reservedField (.hrdw ra rb)
  | _ => .bad .illegalFn

/-- MAJ 0x30, the tile form (13 R202). The TMMA extension is passed in. -/
def decTile (td a b ru fn : Nat) (ext : Option TmmaExt) : WordDec :=
  let t : TIx := BitVec.ofNat 5 td
  let ra : Reg := BitVec.ofNat 7 a
  let rb : Reg := BitVec.ofNat 7 b
  match fn with
  | 0 => need true .reservedField (.tmma t ra rb (ru == 1) ext)
  | 1 => opt (tileTagOf a) .badTag fun g => need (b == 0 && ru == 0) .reservedField (.tzro t g)
  | 2 => opt (tileTagOf a) .badTag fun g => need (ru == 0) .reservedField (.tld t g rb)
  | 3 => need (a == 0 && ru == 0) .reservedField (.tst t rb)
  | 4 => if b < 32 then opt (tileTagOf (b / 4)) .badTag fun g =>
           need (a < 32 && ru == 0) .reservedField (.tcvt t (BitVec.ofNat 5 a) g (rmOf (b % 4)))
         else .bad .reservedField
  | 5 => need (b < 48 && ru == 0) .badIndex (.trdr t ra (BitVec.ofNat 6 b))
  | 6 => need (b < 48 && ru == 0) .badIndex (.twrr t ra (BitVec.ofNat 6 b))
  | 7 => need (b == 0 && ru == 0) .reservedField (.tscl t ra)
  | 8 => need (b < 4 && ru == 0) .reservedField (.tred t ra (tredOf b))
  | 9 => need (ru == 0) .reservedField (.tspl t ra rb)
  | 10 => need (ru == 0) .reservedField (.tfch t ra rb)
  | _ => .bad .illegalFn

/-- The extension word of TMMA (13 R207). -/
def tmmaExtOf (x : Nat) : Option TmmaExt :=
  if fld x 17 8 == 0 then
    match fillOf (fld x 5 2), bfmtOf (fld x 0 4) with
    | some f, some g => some { diag := BitVec.ofNat 10 (fld x 7 10), fill := f, tri := fld x 4 1 == 1, bfmt := g }
    | _, _ => none
  else none

/-- One word, bit 31 ignored, and the IMM25 of the extension word that follows it in its chain (04 R85). -/
def decodeWord (w : Nat) (ext : Option Nat) : WordDec :=
  let d := fld w 18 7
  let a := fld w 11 7
  let b := fld w 4 7
  let fn := fld w 0 4
  let rd : Reg := BitVec.ofNat 7 d
  match fld w 25 6 with
  | 0x00 => noExt ext (decControl d a b fn)
  | 0x01 => noExt ext (need true .reservedField
      (.br (brHintOf (fld w 23 2)) (BitVec.ofNat 3 (fld w 20 3)) (fld w 19 1 == 1) (BitVec.ofNat 19 (fld w 0 19))))
  | 0x02 => noExt ext (need true .reservedField
      (.call (brHintOf (fld w 23 2)) (BitVec.ofNat 3 (fld w 20 3)) (fld w 19 1 == 1) (BitVec.ofNat 19 (fld w 0 19))))
  | 0x03 => noExt ext (decRejoin d a b fn)
  | 0x04 => noExt ext (decInt d a b fn)
  | 0x05 => noExt ext (need true .reservedField (.iaddImm rd (BitVec.ofNat 7 a) (BitVec.ofNat 11 (fld w 0 11))))
  | 0x06 => noExt ext (decIntImm 6 d a (fld w 0 11))
  | 0x07 => noExt ext (decIntImm 7 d a (fld w 0 11))
  | 0x08 => noExt ext (decMove 8 d a b fn)
  | 0x09 => noExt ext (decMove 9 d a b fn)
  | 0x0A => noExt ext (decMove 10 d a b fn)
  | 0x0B => noExt ext (decMove 11 d a b fn)
  | 0x0C =>
    match ext with
    | none => need true .reservedField (.movi rd (BitVec.ofNat 18 (fld w 0 18)) none)
    | some x =>
      if fld x 14 11 == 0
      then need true .reservedField (.movi rd (BitVec.ofNat 18 (fld w 0 18)) (some (BitVec.ofNat 14 (fld x 0 14))))
      else .extBad .reservedField
  | 0x0D => noExt ext (need (fld w 16 2 == 0) .reservedField (.movh rd (BitVec.ofNat 16 (fld w 0 16))))
  | 0x10 => noExt ext (decFloat 0x10 d a b fn)
  | 0x11 => noExt ext (decFloat 0x11 d a b fn)
  | 0x12 => noExt ext (decFloat 0x12 d a b fn)
  | 0x13 => noExt ext (decFloat 0x13 d a b fn)
  | 0x14 => noExt ext (decFloat 0x14 d a b fn)
  | 0x15 => noExt ext (decFloat 0x15 d a b fn)
  | 0x18 => noExt ext (decExchange d a b fn)
  | 0x20 => noExt ext (decMem 0x20 w)
  | 0x21 => noExt ext (decMem 0x21 w)
  | 0x22 => noExt ext (decMem 0x22 w)
  | 0x23 => noExt ext (decMem 0x23 w)
  | 0x24 => noExt ext (decAtomic 0x24 d a b fn)
  | 0x25 => noExt ext (decAtomic 0x25 d a b fn)
  | 0x26 => noExt ext (decAtomic 0x26 d a b fn)
  | 0x28 =>
    let ra : Reg := BitVec.ofNat 7 a
    let rb : Reg := BitVec.ofNat 7 b
    match fn with
    | 0 => placed ext true (.xadd rd ra rb)
    | 1 => placed ext true (.xsub rd ra rb)
    | 2 => placed ext true (.xmul rd ra rb)
    | 3 => placed ext true (.xfma rd ra rb)
    | 4 => placed ext true (.xmin rd ra rb)
    | 5 => placed ext true (.xmax rd ra rb)
    | 6 => placed ext (b == 0) (.xfil rd ra)
    | _ => .bad .illegalFn
  | 0x29 => noExt ext (decAtomic 0x29 d a b fn)
  | 0x2C => noExt ext (decFence d a b fn)
  | 0x2D => noExt ext (need (fld w 0 1 == 0) .reservedField
      (.waitc (BitVec.ofNat 6 (fld w 19 6)) (BitVec.ofNat 6 (fld w 13 6)) (BitVec.ofNat 6 (fld w 7 6))
        (BitVec.ofNat 6 (fld w 1 6))))
  | 0x2E => opt (condOf fn) .illegalFn fun f =>
      need (d < 8) .reservedField
        (.waita (BitVec.ofNat 3 d) (BitVec.ofNat 7 a) (BitVec.ofNat 7 b) f (ext.map (BitVec.ofNat 25)))
  | 0x30 =>
    let td := fld w 20 5
    let ta := fld w 13 7
    let tb := fld w 6 7
    let ru := fld w 5 1
    let tf := fld w 0 5
    match ext with
    | none => decTile td ta tb ru tf none
    | some x =>
      if tf == 0 then
        match tmmaExtOf x with
        | some e => decTile td ta tb ru tf (some e)
        | none => .extBad .reservedField
      else noExt ext (decTile td ta tb ru tf none)
  | 0x34 => noExt ext (decAtomic 0x34 d a b fn)
  | 0x38 => noExt ext (decAtomic 0x38 d a b fn)
  | _ => .bad .unassignedMajor

/-- The pipes (01 R6, 04 R85). -/
inductive Pipe where
  | K | I | M | T
  deriving DecidableEq, Repr

/-- The pipe of a word's major opcode; NOP and extension words take none (04 R74). -/
def pipeOf (i : Instr) : Option Pipe :=
  match i with
  | .nop => none
  | .exit | .ret _ | .rte _ | .brk _ | .xfen | .yild | .svc _ _ | .trap _ | .brx _ | .br .. | .call ..
  | .enrl _ | .park _ | .strk _ | .gsr .. | .ssr .. | .time _ | .phse _ | .prel _ | .pacq _ | .hrdi .. | .hrda ..
  | .hrdw .. | .waitc .. | .waita .. | .dcmd .. | .dqry _ | .scpg .. | .xsht .. | .invt _ | .lnch .. => some .K
  | .ld .. | .st .. | .ldb .. | .pfch .. | .amo .. | .acas .. | .apst .. | .xadd .. | .xsub .. | .xmul .. | .xfma ..
  | .xmin .. | .xmax .. | .xfil .. | .xqry .. => some .M
  | .tmma .. | .tzro .. | .tld .. | .tst .. | .tcvt .. | .trdr .. | .twrr .. | .tscl .. | .tred .. | .tspl ..
  | .tfch .. => some .T
  | _ => some .I

/-- One decoded word of a chain: its instruction, its word offset in the chain, and the words it occupies. -/
structure Placed where
  instr : Instr
  off   : Nat
  size  : Nat
  deriving DecidableEq, Repr

/-- A chain, or the offset of the lowest-addressed word that breaks it (04 R74, R76). -/
inductive ChainDec where
  | ok (ws : List Placed) (len : Nat)
  | bad (off : Nat) (e : Illegal)
  deriving DecidableEq, Repr

/-- Whether a word is an extension word. -/
def isExt (w : Nat) : Bool := fld w 25 6 == 0x3F

/-- The payload of an extension word that every placed word takes: tag F32, register 0 (24 R375, R378). -/
def extPlain : Nat := Tag.f32.code * 2 ^ 7

/-- A word judged by itself, whatever extension follows it: a placed word with one that is in order. -/
def decodeAlone (n : Nat) : WordDec := decodeWord n (if fld n 25 6 == 0x28 then some extPlain else none)

/-- Decode a chain: `slot` is the packet slot of the first word, `ws` the words from there to the packet's end; `off` counts
words already decoded, `used` their pipes. The first argument bounds the words of a packet. -/
def decodeChainFrom : Nat → (slot off : Nat) → List Pipe → List Placed → List Word → ChainDec
  | 0, _, off, _, acc, _ => .ok acc.reverse off
  | _ + 1, _, off, _, acc, [] => .ok acc.reverse off
  | fuel + 1, slot, off, used, acc, w :: rest =>
    let n := w.toNat
    let c := fld n 31 1 == 1
    if isExt n then .bad off .extPlace
    else
      let ext : Option Nat :=
        match c, rest with
        | true, x :: _ => if isExt x.toNat then some (fld x.toNat 0 25) else none
        | _, _ => none
      let r := decodeWord n ext
      let own := match r with | .extBad _ => decodeAlone n | r => r
      match own with
      | .bad e => .bad off e
      | _ =>
        if c && slot + off == 2 then .bad off .cInSlot2
        else
          let clash := match own with
            | .ok i => match pipeOf i with | some p => used.contains p | none => false
            | _ => false
          if clash then .bad off .pipeClash
          else
            match r with
            | .extBad e => .bad (off + 1) e
            | .bad e => .bad off e
            | .ok i =>
              let used' := match pipeOf i with | some p => p :: used | none => used
              match ext, rest with
              | some _, x :: rest' =>
                let cx := fld x.toNat 31 1 == 1
                if cx && slot + off + 1 == 2 then .bad (off + 1) .cInSlot2
                else if cx then decodeChainFrom fuel slot (off + 2) used' ({ instr := i, off := off, size := 2 } :: acc) rest'
                else .ok ({ instr := i, off := off, size := 2 } :: acc).reverse (off + 2)
              | _, _ =>
                if c then decodeChainFrom fuel slot (off + 1) used' ({ instr := i, off := off, size := 1 } :: acc) rest
                else .ok ({ instr := i, off := off, size := 1 } :: acc).reverse (off + 1)

/-- Decode the chain that starts at packet slot `slot`. -/
def decodeChain (slot : Nat) (ws : List Word) : ChainDec := decodeChainFrom 3 slot 0 [] [] ws

/-- The words of a chain that stand before the one at `off`, which breaks it, the last of them judged by itself (04 R76). -/
def decodeBefore (slot off : Nat) (ws : List Word) : List Placed :=
  let pre := ws.take off
  let last : List Word := match pre.getLast? with
    | none => []
    | some w =>
      if fld w.toNat 25 6 == 0x28 then [w, BitVec.ofNat 32 (0x3F * 2 ^ 25 + extPlain)] else [w &&& 0x7FFFFFFF#32]
  match decodeChain slot (pre.dropLast ++ last) with
  | .ok ps _ => ps
  | .bad .. => []

/-- The word at an offset as a NOP with its C bit, which a packet's last word cannot carry on. -/
def nopAt (slot off : Nat) (ws : List Word) : List Word :=
  ws.zipIdx.map fun p => if p.2 == off then (if slot + off == 2 then 0 else p.1 &&& 0x80000000) else p.1

/-- The words of a chain in which RTE.sub has put a substitute in place of the word at `at_`: a word that breaks the chain there is a NOP,
an extension word with the word it extends (16 R243). -/
def pastWords (slot : Nat) (at_ : Option Nat) (ws : List Word) : List Word :=
  match decodeChain slot ws with
  | .bad off e =>
    if at_ == some off then
      let ws' := nopAt slot off ws
      let ext := e != .extPlace && (match ws[off]? with | some x => isExt x.toNat | none => false)
      if ext then nopAt slot (off - 1) ws' else ws'
    else ws
  | .ok .. => ws

/-- Decode a chain past the word that RTE.sub has replaced. -/
def decodeChainPast (slot : Nat) (at_ : Option Nat) (ws : List Word) : ChainDec := decodeChain slot (pastWords slot at_ ws)

/-- Major, D, A, B and FN to a word (04 R77, register form). -/
def encR (maj d a b fn : Nat) : Word := BitVec.ofNat 32 (maj * 2 ^ 25 + d * 2 ^ 18 + a * 2 ^ 11 + b * 2 ^ 4 + fn)

/-- Memory form (04 R77). -/
def encM (maj d a h t o : Nat) : Word :=
  BitVec.ofNat 32 (maj * 2 ^ 25 + d * 2 ^ 18 + a * 2 ^ 11 + h * 2 ^ 9 + t * 2 ^ 5 + o)

/-- Branch form (04 R77). -/
def encB (maj h k n disp : Nat) : Word :=
  BitVec.ofNat 32 (maj * 2 ^ 25 + h * 2 ^ 23 + k * 2 ^ 20 + n * 2 ^ 19 + disp)

/-- Tile form (04 R77). -/
def encT (td a b ru fn : Nat) : Word :=
  BitVec.ofNat 32 (0x30 * 2 ^ 25 + td * 2 ^ 20 + a * 2 ^ 13 + b * 2 ^ 6 + ru * 2 ^ 5 + fn)

/-- A word with C set and its extension word (04 R84). -/
def withExt (w : Word) (imm25 : Nat) : List Word := [w ||| 0x80000000#32, BitVec.ofNat 32 (0x3F * 2 ^ 25 + imm25)]

/-- A placed word and its extension (24 R375). -/
def encX (fn d a b : Nat) (t : Tag) (n : Reg) : List Word :=
  withExt (encR 0x28 d a b fn) (t.code * 2 ^ 7 + n.toNat)

/-- The words of an instruction, C clear on the last; an event has none. -/
def encode : Instr → List Word
  | .acas d a b => [encR 0x25 d.toNat a.toNat b.toNat 0]
  | .amo d a b f => [encR 0x24 d.toNat a.toNat b.toNat f.code]
  | .andReg d a b => [encR 0x04 d.toNat a.toNat b.toNat 7]
  | .andImm d a i => [encR 0x07 d.toNat a.toNat 0 0 + BitVec.ofNat 32 i.toNat]
  | .apst a b f => [encR 0x26 0 a.toNat b.toNat f.code]
  | .bfx d a b => [encR 0x09 d.toNat a.toNat b.toNat 0]
  | .bfi d a b => [encR 0x09 d.toNat a.toNat b.toNat 1]
  | .bprm d a b => [encR 0x09 d.toNat a.toNat b.toNat 2]
  | .br h k n disp => [encB 0x01 h.code k.toNat n.toNat disp.toNat]
  | .call h k n disp => [encB 0x02 h.code k.toNat n.toNat disp.toNat]
  | .brk c => [encR 0x00 c.toNat 0 0 4]
  | .brx a => [encR 0x00 0 a.toNat 0 9]
  | .clz d a => [encR 0x04 d.toNat a.toNat 0 14]
  | .cvt d a sat rm t => [encR 0x14 d.toNat a.toNat (sat.toNat * 4 + rm.code) t.code]
  | .dcmd n a => [encR 0x34 n.toNat a.toNat 0 0]
  | .dot4 d a b => [encR 0x10 d.toNat a.toNat b.toNat 7]
  | .dqry d => [encR 0x34 d.toNat 0 0 1]
  | .enrl n => [encR 0x03 n.toNat 0 0 0]
  | .park n => [encR 0x03 n.toNat 0 0 1]
  | .strk n => [encR 0x03 n.toNat 0 0 2]
  | .exit => [encR 0x00 0 0 0 1]
  | .fadd d a b => [encR 0x10 d.toNat a.toNat b.toNat 0]
  | .fsub d a b => [encR 0x10 d.toNat a.toNat b.toNat 1]
  | .fmul d a b => [encR 0x10 d.toNat a.toNat b.toNat 2]
  | .fmin d a b => [encR 0x10 d.toNat a.toNat b.toNat 3]
  | .fmax d a b => [encR 0x10 d.toNat a.toNat b.toNat 4]
  | .fdiv d a b => [encR 0x10 d.toNat a.toNat b.toNat 5]
  | .fcls d a => [encR 0x10 d.toNat a.toNat 0 6]
  | .ffma d a b => [encR 0x11 d.toNat a.toNat b.toNat 0]
  | .frcp d a => [encR 0x12 d.toNat a.toNat 0 0]
  | .frsq d a => [encR 0x12 d.toNat a.toNat 0 1]
  | .fsqrt d a => [encR 0x12 d.toNat a.toNat 0 2]
  | .fex2 d a => [encR 0x12 d.toNat a.toNat 0 3]
  | .flg2 d a => [encR 0x12 d.toNat a.toNat 0 4]
  | .fsin d a => [encR 0x12 d.toNat a.toNat 0 5]
  | .fcos d a => [encR 0x12 d.toNat a.toNat 0 6]
  | .fset k a b f => [encR 0x13 k.toNat a.toNat b.toNat f.code]
  | .gred d a o => [encR 0x18 d.toNat a.toNat o.code 4]
  | .gsr d n => [encR 0x0B d.toNat (n.code / 128) (n.code % 128) 2]
  | .hrdi d a b => [encR 0x2C d.toNat a.toNat b.toNat 4]
  | .hrda d a b => [encR 0x2C d.toNat a.toNat b.toNat 5]
  | .hrdw a b => [encR 0x2C 0 a.toNat b.toNat 6]
  | .iaddReg d a b => [encR 0x04 d.toNat a.toNat b.toNat 0]
  | .iaddImm d a i => [encR 0x05 d.toNat a.toNat 0 0 + BitVec.ofNat 32 i.toNat]
  | .isub d a b => [encR 0x04 d.toNat a.toNat b.toNat 1]
  | .imul d a b => [encR 0x04 d.toNat a.toNat b.toNat 2]
  | .imulh d a b => [encR 0x04 d.toNat a.toNat b.toNat 3]
  | .imin d a b => [encR 0x04 d.toNat a.toNat b.toNat 4]
  | .imax d a b => [encR 0x04 d.toNat a.toNat b.toNat 5]
  | .iabs d a => [encR 0x04 d.toNat a.toNat 0 6]
  | .imad d a b => [encR 0x08 d.toNat a.toNat b.toNat 0]
  | .invt (.page a) => [encR 0x38 0 a.toNat 0 2]
  | .invt .nonGlobal => [encR 0x38 1 0 0 2]
  | .invt .all => [encR 0x38 2 0 0 2]
  | .iset k a b f => [encR 0x0A k.toNat a.toNat b.toNat f.code]
  | .ld d a h t o => [encM 0x20 d.toNat a.toNat h.code t.code o.toNat]
  | .ldb d a rf t k => [encM 0x22 d.toNat a.toNat (rf.toNat * 2) t.code k.toNat]
  | .lnch d a => [encR 0x38 d.toNat a.toNat 0 3]
  | .mov d a s => [encR 0x0B d.toNat a.toNat s.code 0]
  | .movh d i => [encR 0x0D d.toNat 0 0 0 + BitVec.ofNat 32 i.toNat]
  | .movi d i none => [encR 0x0C d.toNat 0 0 0 + BitVec.ofNat 32 i.toNat]
  | .movi d i (some x) => withExt (encR 0x0C d.toNat 0 0 0 + BitVec.ofNat 32 i.toNat) x.toNat
  | .nop => [0#32]
  | .inot d a => [encR 0x04 d.toNat a.toNat 0 10]
  | .orReg d a b => [encR 0x04 d.toNat a.toNat b.toNat 8]
  | .orImm d a i => [encR 0x07 d.toNat a.toNat 32 0 + BitVec.ofNat 32 i.toNat]
  | .xorReg d a b => [encR 0x04 d.toNat a.toNat b.toNat 9]
  | .xorImm d a i => [encR 0x07 d.toNat a.toNat 64 0 + BitVec.ofNat 32 i.toNat]
  | .pack d a b => [encR 0x15 d.toNat a.toNat b.toNat 0]
  | .unpk d a => [encR 0x15 d.toNat a.toNat 0 1]
  | .phse s => [encR 0x2C 0 s.toNat 0 0]
  | .prel s => [encR 0x2C 0 s.toNat 0 1]
  | .pacq s => [encR 0x2C 0 s.toNat 0 2]
  | .pfch a h t o => [encM 0x23 0 a.toNat h.code t.code o.toNat]
  | .popc d a => [encR 0x04 d.toNat a.toNat 0 15]
  | .qswp d a x => [encR 0x18 d.toNat a.toNat x.toNat 0]
  | .qbrd d a i => [encR 0x18 d.toNat a.toNat i.toNat 1]
  | .shfl d a b => [encR 0x18 d.toNat a.toNat b.toNat 2]
  | .vote (.all k) s => [encR 0x18 k.toNat s.toNat 0 3]
  | .vote (.any k) s => [encR 0x18 k.toNat s.toNat 1 3]
  | .vote (.uni k) s => [encR 0x18 k.toNat s.toNat 2 3]
  | .vote (.bal d) s => [encR 0x18 d.toNat s.toNat 3 3]
  | .ret a => [encR 0x00 0 a.toNat 0 2]
  | .rtag d a t => [encR 0x0B d.toNat a.toNat t.code 1]
  | .rte sub => [encR 0x00 sub.toNat 0 0 3]
  | .scpg i a => [encR 0x38 i.toNat a.toNat 0 0]
  | .sel d a b k => [encR 0x09 d.toNat a.toNat b.toNat (8 + k.toNat)]
  | .shlReg d a b => [encR 0x04 d.toNat a.toNat b.toNat 11]
  | .shrReg d a b => [encR 0x04 d.toNat a.toNat b.toNat 12]
  | .shaReg d a b => [encR 0x04 d.toNat a.toNat b.toNat 13]
  | .shlImm d a n => [encR 0x06 d.toNat a.toNat 0 0 + BitVec.ofNat 32 n.toNat]
  | .shrImm d a n => [encR 0x06 d.toNat a.toNat 32 0 + BitVec.ofNat 32 n.toNat]
  | .shaImm d a n => [encR 0x06 d.toNat a.toNat 64 0 + BitVec.ofNat 32 n.toNat]
  | .ssr d n => [encR 0x0B d.toNat (n.code / 128) (n.code % 128) 3]
  | .st d a h t o => [encM 0x21 d.toNat a.toNat h.code t.code o.toNat]
  | .svc n a => [encR 0x00 n.toNat a.toNat 0 7]
  | .time d => [encR 0x0B d.toNat 0 0 4]
  | .trap c => [encR 0x00 c.toNat 0 0 8]
  | .tmma t a b ru none => [encT t.toNat a.toNat b.toNat ru.toNat 0]
  | .tmma t a b ru (some e) =>
    withExt (encT t.toNat a.toNat b.toNat ru.toNat 0)
      (e.diag.toNat * 2 ^ 7 + e.fill.code * 2 ^ 5 + e.tri.toNat * 2 ^ 4 + bfmtCode e.bfmt)
  | .tzro t g => [encT t.toNat g.code 0 0 1]
  | .tld t g b => [encT t.toNat g.code b.toNat 0 2]
  | .tst t b => [encT t.toNat 0 b.toNat 0 3]
  | .tcvt t a g rm => [encT t.toNat a.toNat (g.code * 4 + rm.code) 0 4]
  | .trdr t a g => [encT t.toNat a.toNat g.toNat 0 5]
  | .twrr t a g => [encT t.toNat a.toNat g.toNat 0 6]
  | .tscl t a => [encT t.toNat a.toNat 0 0 7]
  | .tred t a o => [encT t.toNat a.toNat o.code 0 8]
  | .tspl t a b => [encT t.toNat a.toNat b.toNat 0 9]
  | .tfch t a b => [encT t.toNat a.toNat b.toNat 0 10]
  | .waita k a b f none => [encR 0x2E k.toNat a.toNat b.toNat f.code]
  | .waita k a b f (some x) => withExt (encR 0x2E k.toNat a.toNat b.toNat f.code) x.toNat
  | .waitc l s d t =>
    [BitVec.ofNat 32 (0x2D * 2 ^ 25 + l.toNat * 2 ^ 19 + s.toNat * 2 ^ 13 + d.toNat * 2 ^ 7 + t.toNat * 2)]
  | .xadd d a b t n => encX 0 d.toNat a.toNat b.toNat t n
  | .xsub d a b t n => encX 1 d.toNat a.toNat b.toNat t n
  | .xmul d a b t n => encX 2 d.toNat a.toNat b.toNat t n
  | .xfma d a b t n => encX 3 d.toNat a.toNat b.toNat t n
  | .xmin d a b t n => encX 4 d.toNat a.toNat b.toNat t n
  | .xmax d a b t n => encX 5 d.toNat a.toNat b.toNat t n
  | .xfil d a t n => encX 6 d.toNat a.toNat 0 t n
  | .xfen => [encR 0x00 0 0 0 5]
  | .xqry d a => [encR 0x29 d.toNat a.toNat 0 0]
  | .xsht d a b => [encR 0x38 d.toNat a.toNat b.toNat 1]
  | .yild => [encR 0x00 0 0 0 6]
  | _ => []

/-- The instruction the decoder reads from an instruction whose bits are `w`, the first word in bits 31:0 (bits above
`nbits` zero), standing at slot 0 of a packet. -/
def decodeTableWord (nbits w : Nat) : Option Instr :=
  let v := if nbits == 0 then w else w % 2 ^ nbits
  match decodeChain 0 [BitVec.ofNat 32 v, BitVec.ofNat 32 (v / 2 ^ 32), BitVec.ofNat 32 (v / 2 ^ 64)] with
  | .ok (p :: _) _ => some p.instr
  | _ => none

end Sys2Proof
end

