-- ==== Sys2Proof/Config.lean ====
section
/-! DEFINITION. What an implementation fixes and the free values (logs 5-8). An opaque constant has no body: nothing in
Lean can evaluate it, so a statement holds whatever it is. -/

namespace Sys2Proof.Config

/-- A free 64-bit value for each count of `State.free` (log 5): a tile element that R211 makes unspecified, an element of a
merge area that R217 makes unspecified. -/
opaque freeValue : Nat → BitVec 64

/-- A free choice below any bound, for each count of `State.free` (log 7): which of several unordered things comes next. -/
opaque freeChoice : Nat → Nat

/-- The tier, by its number modulo 3, of the page of a context at an address for which there is no translation (log 79). -/
opaque absentTier : (ctx page : Nat) → Nat

/-- Whether a bundle in which some lanes only have executed YILD falls behind the others, as 24 R382 has it and 15 R235 does not (log 86).
-/
opaque someYield : Bool

/-- The identity key's signature on an attestation report (20 R286; log 8). -/
opaque attestSig : (idseed image : BitVec 384) → (fwsvn cosvn : Nat) → (k2 : Bool) → (keys : List (BitVec 384)) →
  (nonce : BitVec 384) → BitVec 768

/-- Requests a core can have outstanding (01 R15). -/
def outstanding : Nat := 8192

/-- Launches a queue holds (15 R226). -/
def queueDepth : Nat := 1024

/-- Cycles of the 1.75 GHz clock in some microseconds (01 R7). -/
def usCycles (us : Nat) : Nat := us * 1750

end Sys2Proof.Config
end

