-- ==== Sys2Proof/Machine/Float.lean ====
section
/-! DEFINITION. Number formats and arithmetic: unpacking, one rounding, and the operations computed exactly before it
(03 R59-R72, 22 R320-R328). Every function is on natural numbers, so the kernel can evaluate it. -/

namespace Sys2Proof.Machine

/-- A floating-point format (03 R59); `inf := false` is E4M3, which has no infinity. -/
structure Fmt where
  ew   : Nat
  fw   : Nat
  bias : Nat
  inf  : Bool
  deriving DecidableEq, Repr

def fp64 : Fmt := { ew := 11, fw := 52, bias := 1023, inf := true }
def fp32 : Fmt := { ew := 8, fw := 23, bias := 127, inf := true }
def bf16 : Fmt := { ew := 8, fw := 7, bias := 127, inf := true }
def fp16 : Fmt := { ew := 5, fw := 10, bias := 15, inf := true }
def e5m2 : Fmt := { ew := 5, fw := 2, bias := 15, inf := true }
def e4m3 : Fmt := { ew := 4, fw := 3, bias := 7, inf := false }

/-- Width in bits. -/
def Fmt.bits (f : Fmt) : Nat := 1 + f.ew + f.fw

/-- A value: NaN (signalling or quiet), infinity, zero, or (-1)^s m 2^e with m > 0. -/
inductive FV where
  | nan (signalling : Bool)
  | inf (s : Bool)
  | zero (s : Bool)
  | fin (s : Bool) (m : Nat) (e : Int)
  deriving DecidableEq, Repr

/-- Read a code (03 R59). -/
def unpack (f : Fmt) (b : Nat) : FV :=
  let s := b / 2 ^ (f.ew + f.fw) % 2 == 1
  let x := b / 2 ^ f.fw % 2 ^ f.ew
  let m := b % 2 ^ f.fw
  if f.inf && x == 2 ^ f.ew - 1 then
    if m == 0 then .inf s else .nan (m < 2 ^ (f.fw - 1))
  else if !f.inf && x == 2 ^ f.ew - 1 && m == 2 ^ f.fw - 1 then .nan false
  else if x == 0 then
    if m == 0 then .zero s else .fin s m (1 - (f.bias : Int) - f.fw)
  else .fin s (2 ^ f.fw + m) ((x : Int) - f.bias - f.fw)

/-- Whether a value is subnormal in its format. -/
def isSub (f : Fmt) (b : Nat) : Bool := b / 2 ^ f.fw % 2 ^ f.ew == 0 && b % 2 ^ f.fw != 0

/-- FTZ on an input: a subnormal reads as zero of its sign (03 R61). -/
def flushIn (ftz : Bool) (f : Fmt) (b : Nat) : Nat :=
  if ftz && isSub f b then b / 2 ^ (f.ew + f.fw) * 2 ^ (f.ew + f.fw) else b

/-- The exceptions of one operation (03 R62). -/
structure Flags where
  iv : Bool := false
  dz : Bool := false
  ov : Bool := false
  un : Bool := false
  nx : Bool := false
  deriving DecidableEq, Repr

def Flags.union (a b : Flags) : Flags :=
  { iv := a.iv || b.iv, dz := a.dz || b.dz, ov := a.ov || b.ov, un := a.un || b.un, nx := a.nx || b.nx }

/-- The canonical NaN (03 R59). -/
def qnan (f : Fmt) : Nat :=
  if f.inf then (2 ^ f.ew - 1) * 2 ^ f.fw + 2 ^ (f.fw - 1) else 2 ^ (f.ew + f.fw) - 1

def signBit (f : Fmt) (s : Bool) : Nat := if s then 2 ^ (f.ew + f.fw) else 0
/-- Largest finite (03 R59). -/
def maxFin (f : Fmt) (s : Bool) : Nat :=
  signBit f s + (if f.inf then (2 ^ f.ew - 1) * 2 ^ f.fw - 1 else 2 ^ (f.ew + f.fw) - 2)
/-- Infinity; for E4M3 the canonical NaN (03 R63). -/
def infOf (f : Fmt) (s : Bool) : Nat := if f.inf then signBit f s + (2 ^ f.ew - 1) * 2 ^ f.fw else qnan f

/-- The overflow default by mode (03 R63). -/
def overflowOf (f : Fmt) (rm : Rm) (s : Bool) : Nat :=
  match rm, s with
  | .rne, _ => infOf f s
  | .rtz, _ => maxFin f s
  | .rdn, false => maxFin f s
  | .rdn, true => infOf f s
  | .rup, false => infOf f s
  | .rup, true => maxFin f s

/-- Whether a rounding step goes up: `q` the kept integer, `half` -1, 0, 1 as the rest lies below, at or above one half. -/
def roundsUp (rm : Rm) (s : Bool) (q : Nat) (exact : Bool) (half : Int) : Bool :=
  match rm with
  | .rne => if half == 0 then q % 2 == 1 else half == 1
  | .rtz => false
  | .rdn => s && !exact
  | .rup => !s && !exact

/-- Keep `m / 2^sh` (or `m * 2^-sh`), rounded; also whether it was exact. `sticky` says a positive rest lies below m. -/
def shiftRound (rm : Rm) (s : Bool) (m : Nat) (sh : Int) (sticky : Bool) : Nat × Bool :=
  if sh ≤ 0 then
    let q := m * 2 ^ (-sh).toNat
    (if roundsUp rm s q (!sticky) (-1) then q + 1 else q, !sticky)
  else
    let n := sh.toNat
    let q := m / 2 ^ n
    let r := m % 2 ^ n
    let h := 2 ^ (n - 1)
    let exact := r == 0 && !sticky
    let half : Int := if r < h then -1 else if r == h && !sticky then 0 else 1
    (if roundsUp rm s q exact half then q + 1 else q, exact)

/-- Round (-1)^s (m + rest) 2^e, m > 0, into a format (03 R60-R63). `sat` replaces the overflow default by the largest
finite (R64). -/
def roundTo (f : Fmt) (rm : Rm) (ftz sat : Bool) (s : Bool) (m : Nat) (e : Int) (sticky : Bool) : Nat × Flags :=
  let top : Int := e + (Nat.log2 m : Int)
  let emin : Int := 1 - (f.bias : Int)
  let base : Int := if top < emin then emin else top
  let q : Int := base - f.fw
  let (k, exact) := shiftRound rm s m (q - e) sticky
  let carry := k == 2 ^ (f.fw + 1)
  let k' := if carry then k / 2 else k
  let q' := if carry then q + 1 else q
  let (u, _) := shiftRound rm s m (top - f.fw - e) sticky
  let tiny := top < emin && !(top == emin - 1 && u == 2 ^ (f.fw + 1))
  let x : Int := q' + f.fw + f.bias
  let overs := if f.inf then x ≥ (2 ^ f.ew - 1 : Nat)
              else x > (2 ^ f.ew - 1 : Nat) || (x == (2 ^ f.ew - 1 : Nat) && k' == 2 ^ (f.fw + 1) - 1)
  if k' < 2 ^ f.fw then
    if ftz && k' != 0 then (signBit f s, { un := true, nx := true })
    else (signBit f s + k', { un := tiny && !exact, nx := !exact })
  else if overs then (if sat then maxFin f s else overflowOf f rm s, { ov := true, nx := true })
  else (signBit f s + x.toNat * 2 ^ f.fw + (k' - 2 ^ f.fw), { un := tiny && !exact, nx := !exact })

/-- Signed mantissa. -/
def sgn (s : Bool) (m : Nat) : Int := if s then -(m : Int) else m

/-- Exact sum of m1 2^e1 and m2 2^e2. -/
def addExact (a : Int × Int) (b : Int × Int) : Int × Int :=
  let e := if a.2 ≤ b.2 then a.2 else b.2
  (a.1 * 2 ^ (a.2 - e).toNat + b.1 * 2 ^ (b.2 - e).toNat, e)

/-- The sign of an exact zero sum of two operands (22 R320). -/
def zeroSign (rm : Rm) (s1 s2 : Bool) : Bool := if s1 == s2 then s1 else rm == .rdn

/-- An exact product (03 R68): NaN when 0 meets infinity. -/
def mulFV (a b : FV) : FV :=
  match a, b with
  | .nan x, .nan y => .nan (x || y)
  | .nan x, _ => .nan x
  | _, .nan x => .nan x
  | .inf s, .inf t => .inf (s != t)
  | .inf _, .zero _ => .nan true
  | .zero _, .inf _ => .nan true
  | .inf s, .fin t _ _ => .inf (s != t)
  | .fin s _ _, .inf t => .inf (s != t)
  | .zero s, .zero t => .zero (s != t)
  | .zero s, .fin t _ _ => .zero (s != t)
  | .fin s _ _, .zero t => .zero (s != t)
  | .fin s m e, .fin t n g => .fin (s != t) (m * n) (e + g)

/-- An exact sum; infinities of opposite signs give a NaN marked as invalid. -/
def addFV (rm : Rm) (a b : FV) : FV :=
  match a, b with
  | .nan x, .nan y => .nan (x || y)
  | .nan x, _ => .nan x
  | _, .nan x => .nan x
  | .inf s, .inf t => if s == t then .inf s else .nan true
  | .inf s, _ => .inf s
  | _, .inf s => .inf s
  | .zero s, .zero t => .zero (zeroSign rm s t)
  | .zero _, x => x
  | x, .zero _ => x
  | .fin s m e, .fin t n g =>
    let r := addExact (sgn s m, e) (sgn t n, g)
    if r.1 == 0 then .zero (rm == .rdn) else .fin (r.1 < 0) r.1.natAbs r.2

/-- Deliver an exact value in a format; `iv` is invalid raised by the operands. -/
def deliver (f : Fmt) (rm : Rm) (ftz : Bool) (iv : Bool) (v : FV) : Nat × Flags :=
  match v with
  | .nan x => (qnan f, { iv := iv || x })
  | .inf s => (infOf f s, { iv := iv })
  | .zero s => (signBit f s, { iv := iv })
  | .fin s m e => let r := roundTo f rm ftz false s m e false; (r.1, { r.2 with iv := iv })

def FV.neg : FV → FV
  | .nan x => .nan x | .inf s => .inf (!s) | .zero s => .zero (!s) | .fin s m e => .fin (!s) m e

def FV.isNan : FV → Bool
  | .nan _ => true | _ => false

def FV.isSnan : FV → Bool
  | .nan x => x | _ => false

/-- a + b (22 R320). -/
def fAdd (f : Fmt) (rm : Rm) (ftz : Bool) (a b : Nat) : Nat × Flags :=
  deliver f rm ftz false (addFV rm (unpack f (flushIn ftz f a)) (unpack f (flushIn ftz f b)))

/-- a - b. -/
def fSub (f : Fmt) (rm : Rm) (ftz : Bool) (a b : Nat) : Nat × Flags :=
  deliver f rm ftz false (addFV rm (unpack f (flushIn ftz f a)) (unpack f (flushIn ftz f b)).neg)

/-- a x b. -/
def fMul (f : Fmt) (rm : Rm) (ftz : Bool) (a b : Nat) : Nat × Flags :=
  deliver f rm ftz false (mulFV (unpack f (flushIn ftz f a)) (unpack f (flushIn ftz f b)))

/-- a x b + d, fused; infinity times zero is invalid whatever d holds (22 R327). -/
def fFma (f : Fmt) (rm : Rm) (ftz : Bool) (a b d : Nat) : Nat × Flags :=
  let x := unpack f (flushIn ftz f a)
  let y := unpack f (flushIn ftz f b)
  deliver f rm ftz false (addFV rm (mulFV x y) (unpack f (flushIn ftz f d)))

/-- Quotient of two positive numbers to at least `bits` bits, with its rest. -/
def quot (m n bits : Nat) : Nat × Int × Bool :=
  let k := bits + Nat.log2 n + 1
  (m * 2 ^ k / n, -(k : Int), m * 2 ^ k % n != 0)

/-- a / b (22 R320). -/
def fDiv (f : Fmt) (rm : Rm) (ftz : Bool) (a b : Nat) : Nat × Flags :=
  match unpack f (flushIn ftz f a), unpack f (flushIn ftz f b) with
  | .nan x, .nan y => (qnan f, { iv := x || y })
  | .nan x, _ => (qnan f, { iv := x })
  | _, .nan x => (qnan f, { iv := x })
  | .inf _, .inf _ => (qnan f, { iv := true })
  | .zero _, .zero _ => (qnan f, { iv := true })
  | .inf s, .zero t => (infOf f (s != t), {})
  | .inf s, .fin t _ _ => (infOf f (s != t), {})
  | .zero s, .inf t => (signBit f (s != t), {})
  | .fin s _ _, .inf t => (signBit f (s != t), {})
  | .zero s, .fin t _ _ => (signBit f (s != t), {})
  | .fin s _ _, .zero t => (infOf f (s != t), { dz := true })
  | .fin s m e, .fin t n g =>
    let (q, k, st) := quot m n (f.fw + 4)
    roundTo f rm ftz false (s != t) q (e - g + k) st

/-- a < b, a = b as numbers; neither is NaN. -/
def cmpFV (a b : FV) : Ordering :=
  let key (v : FV) : Int × Int := match v with
    | .fin s m e => (sgn s m, e)
    | _ => (0, 0)
  match a, b with
  | .inf s, .inf t => if s == t then .eq else if s then .lt else .gt
  | .inf s, _ => if s then .lt else .gt
  | _, .inf t => if t then .gt else .lt
  | _, _ =>
    let r := addExact (key a) (-(key b).1, (key b).2)
    if r.1 < 0 then .lt else if r.1 == 0 then .eq else .gt

/-- FMIN and FMAX (22 R321): -0 below +0, the other operand when one is NaN. -/
def fMinMax (max : Bool) (f : Fmt) (ftz : Bool) (a b : Nat) : Nat × Flags :=
  let a := flushIn ftz f a
  let b := flushIn ftz f b
  let x := unpack f a
  let y := unpack f b
  let iv := x.isSnan || y.isSnan
  if x.isNan && y.isNan then (qnan f, { iv := iv })
  else if x.isNan then (b, { iv := iv })
  else if y.isNan then (a, { iv := iv })
  else
    let sa := a / 2 ^ (f.ew + f.fw) % 2 == 1
    let aLess := match cmpFV x y with
      | .lt => true
      | .gt => false
      | .eq => sa
    (if aLess != max then a else b, { iv := iv })

/-- FSET's condition (04 R86, 22 R328) and whether it raises invalid. -/
def fCmp (c : FCond) (f : Fmt) (ftz : Bool) (a b : Nat) : Bool × Bool :=
  let x := unpack f (flushIn ftz f a)
  let y := unpack f (flushIn ftz f b)
  let un := x.isNan || y.isNan
  let sn := x.isSnan || y.isSnan
  let o := cmpFV x y
  match c with
  | .eq => (!un && o == .eq, sn)
  | .ne => (un || o != .eq, sn)
  | .lt => (!un && o == .lt, un)
  | .le => (!un && o != .gt, un)
  | .gt => (!un && o == .gt, un)
  | .ge => (!un && o != .lt, un)
  | .num => (!un, sn)
  | .nan => (un, sn)

/-- The class bit of one element (22 R323). -/
def fClass (f : Fmt) (b : Nat) : Nat :=
  match unpack f b with
  | .nan sg => if sg then 8 else 9
  | .inf s => if s then 0 else 7
  | .zero s => if s then 3 else 4
  | .fin s _ _ => if isSub f b then (if s then 2 else 5) else (if s then 1 else 6)

/-- Integer square root by bits: `k` bits remain. -/
def isqrtFrom (n : Nat) : Nat → Nat → Nat
  | 0, r => r
  | k + 1, r => let t := r + 2 ^ k; isqrtFrom n k (if t * t ≤ n then t else r)

def isqrt (n : Nat) : Nat := isqrtFrom n (Nat.log2 n / 2 + 1) 0

/-- The positive square root of m 2^e, to many bits. -/
def sqrtExact (m : Nat) (e : Int) : Nat × Int × Bool :=
  let m' := if e % 2 == 0 then m else m * 2
  let e' := if e % 2 == 0 then e else e - 1
  let n := m' * 2 ^ 160
  let r := isqrt n
  (r, (e' - 160) / 2, r * r != n)

/-- 1 / sqrt(m 2^e), to many bits. -/
def rsqrtExact (m : Nat) (e : Int) : Nat × Int × Bool :=
  let m' := if e % 2 == 0 then m else m * 2
  let e' := if e % 2 == 0 then e else e - 1
  let n := 2 ^ 320 / m'
  let r := isqrt n
  (r, -(e' / 2) - 160, r * r * m' != 2 ^ 320)

/-- Fixed-point scale of the series below. -/
def sp : Nat := 280
/-- ln 2 at scale 2^280. -/
def ln2 : Nat := 0xb17217f7d1cf79abc9e3b39803f2f6af40f343267298b62d8a0d175b8baafa2be7b876
/-- pi at scale 2^640. -/
def piFix : Nat := 0x3243f6a8885a308d313198a2e03707344a4093822299f31d0082efa98ec4e6c89452821e638d01377be5466cf34e90c6cc0ac29b7c97c50dd3f84d5b5b54709179216d5d98979fb1bd1310ba698dfb5ac

/-- Sum of t^k / k! from the term `t` on, at scale 2^280; `fuel` terms. -/
def expSeries (x : Nat) : Nat → Nat → Nat → Nat
  | 0, _, _ => 0
  | fuel + 1, k, t => t + expSeries x fuel (k + 1) (t * x / 2 ^ sp / (k + 1))

/-- 2^f for a fraction f at scale 2^280, at scale 2^280. -/
def exp2Frac (f : Nat) : Nat := expSeries (f * ln2 / 2 ^ sp) 70 0 (2 ^ sp)

/-- 2^x for x = (-1)^s m 2^e (22 R326), rounded to nearest even. -/
def exp2Of (s : Bool) (m : Nat) (e : Int) (ftz : Bool) : Nat × Flags :=
  let big := e + (Nat.log2 m : Int)
  if big ≥ 8 then
    if s then roundTo fp32 .rne ftz false false 1 (-400) true else (infOf fp32 false, { ov := true, nx := true })
  else
    let fx : Int := if e + sp ≥ 0 then sgn s (m * 2 ^ (e + sp).toNat) else sgn s (m / 2 ^ (-(e + sp)).toNat)
    let i := fx / (2 ^ sp : Nat)
    let f := (fx % (2 ^ sp : Nat)).toNat
    if f == 0 then roundTo fp32 .rne ftz false false 1 i false
    else roundTo fp32 .rne ftz false false (exp2Frac f) (i - sp) true

/-- Sum of z^(2k+1) / (2k+1) from the power `t` on, at scale 2^280. -/
def atanhSeries (z2 : Nat) : Nat → Nat → Nat → Nat
  | 0, _, _ => 0
  | fuel + 1, k, t => t / (2 * k + 1) + atanhSeries z2 fuel (k + 1) (t * z2 / 2 ^ sp)

/-- log2 of m 2^e > 0 (22 R326), rounded to nearest even. -/
def log2Of (m : Nat) (e : Int) (ftz : Bool) : Nat × Flags :=
  let l := Nat.log2 m
  let n : Int := e + l
  if m == 2 ^ l then
    if n == 0 then (0, {}) else roundTo fp32 .rne ftz false (n < 0) n.natAbs 0 false
  else
    let z := (m - 2 ^ l) * 2 ^ sp / (m + 2 ^ l)
    let ln := 2 * atanhSeries (z * z / 2 ^ sp) 100 0 z
    let v : Int := n * (2 ^ sp : Nat) + ((ln * 2 ^ sp / ln2 : Nat) : Int)
    roundTo fp32 .rne ftz false (v < 0) v.natAbs (-(sp : Int)) true

/-- Alternating series of sin (first = 1) or cos (first = 0) at scale 2^400. -/
def trigSeries (x2 : Nat) : Nat → Nat → Nat → Int
  | 0, _, _ => 0
  | fuel + 1, k, t => (t : Int) - trigSeries x2 fuel (k + 2) (t * x2 / 2 ^ 400 / ((k + 1) * (k + 2)))

/-- sin and cos of m 2^e > 0, both at scale 2^400: quadrant reduction by pi / 2, exact to far below an ulp. -/
def sinCos (m : Nat) (e : Int) : Int × Int :=
  let x := if e + 600 ≥ 0 then m * 2 ^ (e + 600).toNat else m / 2 ^ (-(e + 600)).toNat
  let k := x * 2 ^ 41 / piFix
  let r := (x - k * piFix / 2 ^ 41) / 2 ^ 200
  let s := trigSeries (r * r / 2 ^ 400) 90 1 r
  let c := trigSeries (r * r / 2 ^ 400) 90 0 (2 ^ 400)
  match k % 4 with
  | 0 => (s, c) | 1 => (c, -s) | 2 => (-s, -c) | _ => (-c, s)

/-- The seven special functions (22 R324). -/
inductive Special where
  | rcp | rsq | sqrt | ex2 | lg2 | sin | cos
  deriving DecidableEq, Repr

/-- A special function of FP32 bits (22 R325, R326). -/
def special (k : Special) (rm : Rm) (ftz : Bool) (b : Nat) : Nat × Flags :=
  let f := fp32
  let inv : Nat × Flags := (qnan f, { iv := true })
  match unpack f (flushIn ftz f b) with
  | .nan x => (qnan f, { iv := x })
  | .inf s =>
    match k, s with
    | .rcp, _ => (signBit f s, {})
    | .rsq, false => (0, {})
    | .sqrt, false => (infOf f false, {})
    | .ex2, false => (infOf f false, {})
    | .ex2, true => (0, {})
    | .lg2, false => (infOf f false, {})
    | _, _ => inv
  | .zero s =>
    match k with
    | .rcp | .rsq => (infOf f s, { dz := true })
    | .sqrt | .sin => (signBit f s, {})
    | .ex2 | .cos => (0x3F800000, {})
    | .lg2 => (infOf f true, { dz := true })
  | .fin s m e =>
    match k with
    | .rcp => let (q, x, st) := quot 1 m 30; roundTo f rm ftz false s q (x - e) st
    | .rsq => if s then inv else let (q, x, st) := rsqrtExact m e; roundTo f .rne ftz false false q x st
    | .sqrt => if s then inv else let (q, x, st) := sqrtExact m e; roundTo f rm ftz false false q x st
    | .ex2 => exp2Of s m e ftz
    | .lg2 => if s then inv else log2Of m e ftz
    | .sin => let v := (sinCos m e).1; roundTo f .rne ftz false ((v < 0) != s) v.natAbs (-400) true
    | .cos => let v := (sinCos m e).2; roundTo f .rne ftz false (v < 0) v.natAbs (-400) true

/-- Whether a value is the infinity of a sign. -/
def FV.isInf (neg : Bool) : FV → Bool
  | .inf s => s == neg
  | _ => false

/-- The exact sum of products and its start, as DOT4 and AccChunks form it (03 R68, R71): invalid when a product is
infinity times zero, a NaN is signalling, or the sum holds infinities of both signs, whatever stands between them (21 R317). -/
def sumProducts (rm : Rm) (start : Option FV) (ps : List (FV × FV)) : FV :=
  let terms := start.toList ++ ps.map fun p => mulFV p.1 p.2
  if terms.any (FV.isInf true) && terms.any (FV.isInf false) then .nan true
  else match terms with
  | [] => .zero false
  | v :: rest => rest.foldl (addFV rm) v

/-- Round a float of one format to an integer of `w` bits (03 R65). -/
def toInt (f : Fmt) (w : Nat) (rm : Rm) (sat : Bool) (v : FV) : Nat × Flags :=
  let lo : Int := -(2 ^ (w - 1) : Nat)
  let hi : Int := (2 ^ (w - 1) : Nat) - 1
  let wrap (x : Int) : Nat := (x % (2 ^ w : Nat)).toNat
  let _ := f
  match v with
  | .nan _ => (0, { iv := !sat })
  | .inf s => (wrap (if s then lo else hi), { iv := !sat })
  | .zero _ => (0, {})
  | .fin s m e =>
    let (q, exact) := shiftRound rm s m (-e) false
    let x := sgn s q
    if x < lo then (wrap lo, { iv := !sat }) else if x > hi then (wrap hi, { iv := !sat })
    else (wrap x, { nx := !exact })

/-- KN4 magnitudes (03 R66). -/
def knLevel : Nat → Nat
  | 0 => 86 | 1 => 261 | 2 => 442 | 3 => 637 | 4 => 854 | 5 => 1110 | 6 => 1449 | _ => 2048

/-- The value of a KN4 code as ±m / 2048. -/
def unpackKn (c : Nat) : FV := .fin (c / 8 % 2 == 1) (knLevel (c % 8)) (-11)

/-- Whether (m 2^e) compares with level i: m 2^(e+11) against the level. -/
def knCmp (m : Nat) (e : Int) (i : Nat) : Ordering := cmpFV (.fin false m e) (.fin false (knLevel i) (-11))

/-- Compare twice the value with the sum of two levels, for nearest. -/
def knMid (m : Nat) (e : Int) (i : Nat) : Ordering :=
  cmpFV (.fin false m (e + 1)) (.fin false (knLevel i + knLevel (i + 1)) (-11))

/-- Convert a value to a KN4 code (21 R315). -/
def toKn (rm : Rm) (sat : Bool) (v : FV) : Nat × Flags :=
  let sg (s : Bool) : Nat := if s then 8 else 0
  match v with
  | .nan _ => (0, { iv := true })
  | .inf s => (sg s + 7, { iv := !sat })
  | .zero s => (sg s, { nx := true })
  | .fin s m e =>
    if knCmp m e 7 == .gt then (sg s + 7, { ov := true, nx := true })
    else
      match (List.range 8).find? fun i => knCmp m e i == .eq with
      | some i => (sg s + i, {})
      | none =>
        let below := ((List.range 8).filter fun i => knCmp m e i == .gt).length
        let dn := below - 1
        let up := below
        let i := match rm with
          | .rne => if below == 0 then 0 else
              match knMid m e dn with
              | .lt => dn
              | .gt => up
              | .eq => if dn % 2 == 0 then dn else up
          | .rtz => dn
          | .rdn => if s then (if below == 8 then 7 else up) else dn
          | .rup => if s then dn else up
        (sg s + i, { nx := true })

end Sys2Proof.Machine
end

