-- ==== Sys2Proof/Machine/Flags.lean ====
section
/-! DEFINITION. Arithmetic on tagged values: their elements (03 R55), the integer and packed float operations, the atomic
operation Op of 09 R159, conversions (03 R64-R65, 21 R312-R315), and the exception flags with the trap they raise (03 R62-R63). -/

namespace Sys2Proof

/-- Bits of one value. -/
def Tag.width (t : Tag) : Nat := 32 * t.regs

/-- The tags of float arithmetic (03 R57). -/
def Tag.isFloat : Tag → Bool
  | .f32 | .f64 | .bf16x2 | .f16x2 | .f32x2 => true | _ => false

/-- The tags of integer arithmetic (03 R57). -/
def Tag.isInt : Tag → Bool
  | .i32 | .i64 | .i8x4 => true | _ => false

/-- Any tag but RAW and B128. -/
def Tag.isData : Tag → Bool
  | .raw | .b128 => false | _ => true

/-- GRED's operations as AMO's (22 R329). -/
def RedOp.amo : RedOp → AmoOp
  | .add => .add | .min => .min | .max => .max | .and => .and | .or => .or | .xor => .xor

end Sys2Proof

namespace Sys2Proof.Machine

/-- Element width in bits (03 R55). -/
def elemW : Tag → Nat
  | .i64 | .f64 => 64 | .bf16x2 | .f16x2 => 16 | .e4m3x4 | .e5m2x4 | .i8x4 => 8 | .kn4x8 => 4 | .b128 => 128 | _ => 32

/-- Elements of one value (21 R313). -/
def elemN : Tag → Nat
  | .bf16x2 | .f16x2 | .f32x2 => 2 | .e4m3x4 | .e5m2x4 | .i8x4 => 4 | .kn4x8 => 8 | _ => 1

/-- The elements of a value, element 0 first. -/
def elems (t : Tag) (v : Nat) : List Nat := (List.range (elemN t)).map fun i => v / 2 ^ (elemW t * i) % 2 ^ elemW t

/-- Elements of width `w` joined, element 0 lowest. -/
def joinW (w : Nat) : List Nat → Nat
  | [] => 0
  | x :: xs => x % 2 ^ w + 2 ^ w * joinW w xs

def join (t : Tag) (xs : List Nat) : Nat := joinW (elemW t) xs

/-- The float format of a tag's elements. -/
def fmtOf : Tag → Option Fmt
  | .f32 | .f32x2 => some fp32 | .f64 => some fp64 | .bf16x2 => some bf16 | .f16x2 => some fp16
  | .e4m3x4 => some e4m3 | .e5m2x4 => some e5m2 | _ => none

/-- The signed value of `w` bits. -/
def toS (w x : Nat) : Int := if x % 2 ^ w < 2 ^ (w - 1) then (x % 2 ^ w : Nat) else (x % 2 ^ w : Nat) - (2 ^ w : Nat)

/-- An integer modulo 2^w. -/
def ofS (w : Nat) (x : Int) : Nat := (x % (2 ^ w : Nat)).toNat

/-- A float operation over the elements, its exceptions joined (03 R63). -/
def packF (t : Tag) (op : Fmt → Nat → Nat → Nat × Flags) (a b : Nat) : Nat × Flags :=
  match fmtOf t with
  | none => (0, {})
  | some f =>
    let rs := (elems t a).zipWith (op f) (elems t b)
    (join t (rs.map (·.1)), rs.foldl (fun acc r => acc.union r.2) {})

/-- A fused operation over the elements. -/
def packF3 (t : Tag) (op : Fmt → Nat → Nat → Nat → Nat × Flags) (a b d : Nat) : Nat × Flags :=
  match fmtOf t with
  | none => (0, {})
  | some f =>
    let rs := ((elems t a).zip (elems t b)).zipWith (fun p z => op f p.1 p.2 z) (elems t d)
    (join t (rs.map (·.1)), rs.foldl (fun acc r => acc.union r.2) {})

/-- An integer operation over the elements of `w` bits. -/
def packI (t : Tag) (op : Nat → Nat → Nat → Nat) (a b : Nat) : Nat :=
  join t ((elems t a).zipWith (op (elemW t)) (elems t b))

def packI1 (t : Tag) (op : Nat → Nat → Nat) (a : Nat) : Nat := join t ((elems t a).map (op (elemW t)))

def iAdd (w a b : Nat) : Nat := (a + b) % 2 ^ w
def iSub (w a b : Nat) : Nat := (a + 2 ^ w - b % 2 ^ w) % 2 ^ w
def iMul (w a b : Nat) : Nat := a * b % 2 ^ w
def iMulh (w a b : Nat) : Nat := ofS w (toS w a * toS w b / (2 ^ w : Nat))
def iMin (w a b : Nat) : Nat := if toS w a ≤ toS w b then a else b
def iMax (w a b : Nat) : Nat := if toS w a ≤ toS w b then b else a
def iAbs (w a : Nat) : Nat := ofS w (toS w a).natAbs
def iShl (n w a : Nat) : Nat := if n < w then a * 2 ^ n % 2 ^ w else 0
def iShr (n w a : Nat) : Nat := if n < w then a / 2 ^ n else 0
def iSha (n w a : Nat) : Nat := if n < w then ofS w (toS w a / (2 ^ n : Nat)) else if toS w a < 0 then 2 ^ w - 1 else 0
def iClz (w a : Nat) : Nat := if a == 0 then w else w - 1 - Nat.log2 a
def iPop (w a : Nat) : Nat := ((List.range w).filter fun i => a / 2 ^ i % 2 == 1).length

/-- An integer condition (04 R86). -/
def iCmp (c : Cond) (w a b : Nat) : Bool :=
  match c with
  | .eq => a == b
  | .ne => a != b
  | .lt => toS w a < toS w b
  | .le => toS w a ≤ toS w b
  | .gt => toS w a > toS w b
  | .ge => toS w a ≥ toS w b
  | .ltu => a < b
  | .leu => a ≤ b
  | .gtu => a > b
  | .geu => a ≥ b

/-- The tags an atomic accepts for its function (09 R158). -/
def amoAccepts (f : AmoOp) (t : Tag) : Bool :=
  match f with
  | .add | .min | .max => t == .i32 || t == .i64 || t == .f32 || t == .f64 || t == .bf16x2 || t == .f32x2
  | .and | .or | .xor => t == .i32 || t == .i64
  | .xchg => t != .raw
  | .inc | .dec => t == .i32

/-- Op of 09 R159: floats are exact, rounded to nearest even, no flag, subnormals kept. -/
def amoApply (f : AmoOp) (t : Tag) (x b : Nat) : Nat :=
  let w := t.width
  match f with
  | .add => if t.isFloat then (packF t (fun g => fAdd g .rne false) x b).1 else packI t iAdd x b
  | .min => if t.isFloat then (packF t (fun g => fMinMax false g false) x b).1 else packI t iMin x b
  | .max => if t.isFloat then (packF t (fun g => fMinMax true g false) x b).1 else packI t iMax x b
  | .and => x &&& b
  | .or => x ||| b
  | .xor => x ^^^ b
  | .xchg => b
  | .inc => if x ≥ b then 0 else x + 1
  | .dec => if x == 0 || x > b then b else (x - 1) % 2 ^ w

/-- The identity of an operation (09 R161). -/
def identity (f : AmoOp) (t : Tag) : Nat :=
  let e := elemW t
  let one : Nat := match f with
    | .add => match fmtOf t with | some g => signBit g true | none => 0
    | .min => match fmtOf t with | some g => infOf g false | none => 2 ^ (e - 1) - 1
    | .max => match fmtOf t with | some g => infOf g true | none => 2 ^ (e - 1)
    | .and => 2 ^ e - 1
    | _ => 0
  join t (List.replicate (elemN t) one)

/-- Set the flags that occurred, and the cause of the highest-priority enabled one (03 R62, R63). -/
def raise (ften : Word) (f : Flags) : Word × Option Nat :=
  let b (x : Bool) (i : Nat) : Word := if x then BitVec.ofNat 32 (2 ^ i) else 0
  let ften' := ften ||| b f.iv 16 ||| b f.dz 17 ||| b f.ov 18 ||| b f.un 19 ||| b f.nx 20
  let en (i : Nat) : Bool := ften.getLsbD i
  let cause := if f.iv && en 0 then some 3 else if f.dz && en 1 then some 4 else if f.ov && en 2 then some 5
    else if f.un && en 3 then some 6 else if f.nx && en 4 then some 7 else none
  (ften', cause)

/-- FRM (03 R60). -/
def frmRm (frm : Word) : Rm := rmOf (frm.toNat % 4)
def frmFtz (frm : Word) : Bool := frm.getLsbD 2

/-- The exact value of a source element, for conversion. -/
def srcVal (t : Tag) (e : Nat) : FV :=
  match fmtOf t with
  | some f => unpack f e
  | none => if t == .kn4x8 then unpackKn e else
      let v := toS (elemW t) e
      if v == 0 then .zero false else .fin (v < 0) v.natAbs 0

/-- Convert one element (21 R314). -/
def convElem (s t : Tag) (rm : Rm) (sat : Bool) (e : Nat) : Nat × Flags :=
  let v := srcVal s e
  if t == .kn4x8 then toKn rm sat v
  else if t.isInt then
    if s.isInt then
      let w := elemW t
      let x := toS (elemW s) e
      let lo : Int := -(2 ^ (w - 1) : Nat)
      let hi : Int := (2 ^ (w - 1) : Nat) - 1
      (ofS w (if sat then (if x < lo then lo else if x > hi then hi else x) else x), {})
    else toInt fp32 (elemW t) rm sat v
  else
    match fmtOf t with
    | none => (0, {})
    | some f =>
      match v with
      | .nan x => (qnan f, { iv := x })
      | .inf sg =>
        if sat then (maxFin f sg, {}) else (infOf f sg, { iv := !f.inf })
      | .zero sg => (signBit f sg, {})
      | .fin sg m x => roundTo f rm false sat sg m x false

/-- A tile product element from its chunk of 16 products (03 R68). -/
def accChunk (acc : Nat) (ps : List (FV × FV)) : Nat :=
  (deliver fp32 .rne false false (addFV .rne (unpack fp32 acc) (sumProducts .rne none ps))).1

/-- AccChunks (03 R68): chunks of 16 in ascending K; `fuel` chunks. -/
def accChunks : Nat → Nat → List (FV × FV) → Nat
  | 0, acc, _ => acc
  | fuel + 1, acc, ps => accChunks fuel (accChunk acc (ps.take 16)) (ps.drop 16)

/-- AccKN4 (03 R69): codes, activations, scale code, super-block scale. -/
def accKn4 (acc : Nat) (codes : List Nat) (acts : List FV) (c s : Nat) : Nat :=
  if c == 0 then acc
  else
    let m (k : Nat) : FV := .fin (k / 8 % 2 == 1) (knLevel (k % 8)) 0
    let d := sumProducts .rne none ((codes.map m).zip acts)
    let p : Nat := match mulFV (mulFV d (.fin false c 0)) (unpack fp32 s) with
      | .nan _ => qnan fp32
      | .inf sg => infOf fp32 sg
      | .zero sg => signBit fp32 sg
      | .fin sg x e =>
        let (q, k, st) := quot x 522240 32
        (roundTo fp32 .rne false false sg q (e + k) st).1
    (fAdd fp32 .rne false acc p).1

/-- Fused product-adds of F64 in ascending K (03 R70). -/
def accF64 (acc : Nat) (ps : List (Nat × Nat)) : Nat :=
  ps.foldl (fun t p => (fFma fp64 .rne false p.1 p.2 t).1) acc

/-- Placed arithmetic's Op (24 R376). -/
def xApply (x : XOp) (t : Tag) (a b d : Nat) : Nat :=
  match x with
  | .add => amoApply .add t a b
  | .sub => if t.isFloat then (packF t (fun g => fSub g .rne false) a b).1 else packI t iSub a b
  | .mul => if t.isFloat then (packF t (fun g => fMul g .rne false) a b).1 else packI t iMul a b
  | .fma => (packF3 t (fun g => fFma g .rne false) a b d).1
  | .min => amoApply .min t a b
  | .max => amoApply .max t a b
  | .fil => a

end Sys2Proof.Machine
end

