-- ==== Sys2Proof/Machine/State.lean ====
section
/-! DEFINITION. The machine's state, plain data, and its value at reset. `Mach` is what programs, drovers and the
scheduler act on; `Sys` is what only the firmware and the management interface act on (20). -/

namespace Sys2Proof.Machine

/-- Bytes at addresses, strictly rising, no byte equal to what an unlisted address reads as (log 1). -/
abbrev Memory := List Host.Cell

/-- A v register: its bits and its format tag (03 R46). -/
structure RV where
  bits : Word
  tag  : Tag
  deriving DecidableEq, Repr

/-- FLT_SUB: a value of up to 128 bits and its tag (03 R51). -/
structure SubVal where
  bits : QWord
  tag  : Tag
  deriving DecidableEq, Repr

/-- Where a word would write: nothing, a predicate, or `vals` values of a tag from register `d` (16 R240, R243). -/
inductive Dst where
  | none
  | pred (k : KIx)
  | regs (d : Nat) (tag : Tag) (vals : Nat)
  deriving DecidableEq, Repr

/-- What handler entry writes (16 R240). -/
structure TrapInfo where
  cause  : Nat
  pc     : DWord
  inst   : Word
  mask   : Word
  addr   : DWord
  exc    : Word
  sub    : SubVal
  dst    : Dst
  resume : DWord
  deriving DecidableEq, Repr

/-- Why and where a lane or command is parked (06 R115): the faulting address, the page as its lowest address and size. -/
structure ParkInfo where
  cause : Nat
  addr  : Nat
  page  : Nat
  bytes : Nat
  deriving DecidableEq, Repr

/-- What a WAITA or HRDW watches (09 R166): bytes of a team's scratchpad, or bytes at the coherence point with their generic
address. -/
inductive Watch where
  | scratch (team off : Nat)
  | line (pa va : Nat)
  deriving DecidableEq, Repr

/-- A sleeping WAITA (09 R165). `woken` is a wake on its way to the lane, or held for a team
that is not resident (R167): true, or false for a poisoned line (R373); `hit` the cycle of the write that sent it. -/
structure WaitA where
  k        : KIx
  watch    : Watch
  width    : Nat
  cond     : Cond
  value    : DWord
  deadline : Option Nat
  foreign  : Bool
  record   : Bool
  woken    : Option Bool
  hit      : Nat := 0
  deriving DecidableEq, Repr

/-- Readiness (02 R24 and 15 R234). `woken`: a lane that WAITA has left with a result, ready from the next regroup (24 R373). `drains`: the
drover commands that must be done with a page, each with the page's lowest address and size (19 R275), and the stamps that must stand.
`walk`: the page, by its number, and the request entries that the lane's access holds meanwhile (06 R113). `halted`: behind a BRK, until
the save of the team (21 R309). -/
inductive Wait where
  | ready
  | held (j : Nat)
  | waita (w : WaitA)
  | woken
  | hrdw (team off gen : Nat) (foreign : Bool)
  | counts (l s d t : Nat)
  | xfen
  | stall (op : Nat)
  | walk (va entries : Nat)
  | phse (cls upto : Nat)
  | loadsDue (cls upto : Nat) (targets : List (Nat × Word))
  | acquire (targets : List (Nat × Word))
  | service (batch : Nat)
  | parked (p : ParkInfo)
  | entering (t : TrapInfo)
  | drains (cmds : List (Nat × Nat × Nat)) (stamps : List (TRef × Nat))
  | halted
  | exited
  deriving DecidableEq, Repr

/-- A load in flight (22 R339, 07 R141). `copy` is the copy of the line that serves it, with its thread's view of it, once that
is decided; `fetch` the fetch of the line that it waits for (10 R175); `data` the bytes once settled; `word` names the word that loads. -/
structure LoadReq where
  pa    : Nat
  va    : Nat
  size  : Nat
  nc    : Bool
  alloc : Bool
  bound : Option Nat
  copy  : Option (List Byte)
  data  : Option (List Byte)
  fetch : Option Nat := none
  since : Nat := 0
  word  : Nat := 0
  deriving DecidableEq, Repr

/-- A leaf entry as a translation holds it (06 R107): the entry's bits, where it stands, and its level. -/
structure Leaf where
  bits  : DWord
  pte   : Nat
  level : Nat
  deriving DecidableEq, Repr

/-- An XSHT under way (06 R123): its stamp's address in the translation it holds, or an offset in the team's scratchpad; the
stamp; the physical page to combine when its old executor was UPDT; the drover commands, tile operations and stamps it
waits for. -/
structure Xsht where
  va     : Nat
  leaf   : Option Leaf
  value  : DWord
  page   : Nat
  bytes  : Nat
  cmds   : List (Nat × Nat × Nat)
  tiles  : List Nat
  stamps : List (TRef × Nat)
  deriving DecidableEq, Repr

/-- A piece of payload waiting to land (11 R197): a generic destination address resolved to a place, and its bytes. -/
inductive Landing where
  | pa (pa : Nat)
  | scratch (team off : Nat)
  | tile (team off : Nat)
  | reg (t : TRef) (v : Nat) (byteOff : Nat)
  deriving DecidableEq, Repr

/-- An atomic that has issued and not yet acted (21 R299): the leaf and generic address of its place, or its place on chip, its tag, its
function (none for ACAS), the value that ACAS expects, the operand, and whether its old value returns. -/
structure AtomicReq where
  leaf : Option Leaf
  va   : Nat
  chip : Landing
  tag  : Tag
  op   : Option AmoOp
  cmp  : Nat
  val  : Nat
  ret  : Bool
  deriving DecidableEq, Repr

/-- What remains of an operation in flight; `atomic` has not acted yet; `tile` is a read of a team's tiles that is made when it returns (05
R101); `va` is its generic address. A launch has the place of its record, a physical address and NC or an offset in the team's scratchpad,
and the bytes read so far. -/
inductive OpKind where
  | load (r : LoadReq)
  | value (regs : List RV)
  | tile (team off n : Nat)
  | plain
  | store (va : Nat)
  | atomic (r : AtomicReq)
  | launch (global : Bool) (at_ va : Nat) (nc : Bool) (got : List Byte)
  | xsht (x : Xsht)
  deriving DecidableEq, Repr

/-- An operation a thread has outstanding, and the WAITC classes it counts in (09 R169). `drop`: the line whose clean copy its
completion invalidates (07 R136). `place`: the physical and the generic address of an access to global memory. `entry`: whether it
holds one of its core's request entries (01 R15). -/
structure Op where
  id     : Nat
  kind   : OpKind
  dst    : Dst
  loads  : Bool
  stores : Bool
  tile   : Bool
  drop   : Option Nat := none
  place  : Option (Nat × Nat) := none
  entry  : Bool := true
  deriving DecidableEq, Repr

/-- A release that has not ended (07 R130): its class (0 Core, 1 Die, 2 Module, 3 Domain); the first name that no operation
issued before its word bears, which is also the word's own; the round regions into which it has written (R139); the lines that
it has written; and whether a round has been counted in each of those regions. -/
structure Release where
  cls     : Nat
  upto    : Nat
  regions : List Nat
  lines   : List Nat
  counted : Bool
  deriving DecidableEq, Repr

/-- TMMA's reuse latch (13 R209). -/
structure Latch where
  a    : Nat
  regs : List RV
  deriving DecidableEq, Repr

/-- The word RTE.sub replaces (16 R243). -/
structure Subst where
  addr : DWord
  dst  : Dst
  sub  : SubVal
  deriving DecidableEq, Repr

/-- A piece; `va` is its generic address when it goes to global memory (19 R275); `fill` that its bytes were not read (11 R187). -/
structure Piece where
  id    : Nat
  dst   : Landing
  bytes : List Byte
  va    : Option Nat := none
  fill  : Bool := false
  deriving DecidableEq, Repr

/-- The latency classes (11 R198). -/
inductive Lat where
  | near | far | peer
  deriving DecidableEq, Repr

/-- An accepted drover command (11 R178, R198): the DCMD word that pushed it and its entries; `next` its first unfinished unit,
`landed` the payload bytes it has credited; `done` that its action has ended; `pages` the translations it holds (19 R275); `peers` the
vectors of a collective's other members by rank, once all have come and agree (R193); `row` the place of the row that a GATH's unfinished
element names, with that element, once its index has been read. -/
structure Cmd where
  id      : Nat
  team    : Nat
  owner   : TRef
  inst    : Word
  seq     : Nat
  entries : List (BitVec 256)
  next    : Nat
  landed  : Nat
  done    : Bool
  status  : Nat
  badAddr : DWord
  pieces  : List Piece
  parked  : Option ParkInfo
  lat     : Lat
  pages   : List (Nat × Leaf)
  peers   : Option (List (Nat × List Byte)) := none
  row     : Option (Nat × Nat) := none
  deriving DecidableEq, Repr

/-- A thread (03 R46, R51; 16 R240). `issued`: the cycle of its last chain; `lastIssue`: that cycle, put later by those in which it was
not ready since (15 R235). `joined`: one more than the cycle in which it last became ready, 0 once it has issued a chain
since (17 R256). -/
structure Thread where
  ref           : TRef
  helper        : Bool
  regs          : List RV
  preds         : BitVec 8
  pc            : DWord
  wait          : Wait
  fltCause      : Word
  fltPc         : DWord
  fltMask       : Word
  fltInst       : Word
  fltAddr       : DWord
  fltSub        : SubVal
  fltExc        : Word
  utvec         : DWord
  ften          : Word
  frm           : Word
  uctl          : Word
  resume        : DWord
  written       : Bool
  handlerActive : Bool
  fltDst        : Dst
  subst         : Option Subst
  ops           : List Op
  drover        : Nat
  release       : Option Release
  latch         : Option Latch
  yielded       : Bool
  lastIssue     : Nat
  inhand        : List (Nat × Option Leaf)
  taken         : Bool
  skid          : Nat
  issued        : Nat := 0
  joined        : Nat := 0
  deriving DecidableEq, Repr

/-- A group (02 R22, R27, R30). `pref`: the part that R29 prefers of a bundle that split in cycle `prefClk`. -/
structure Group where
  team    : Nat
  index   : Nat
  e       : List Word
  p       : List Word
  bundles : List Word
  pref    : Option Word
  prefClk : Nat := 0
  sub     : Nat
  slot    : Nat
  retired : Bool
  deriving DecidableEq, Repr

/-- An imprecise fault met (16 R244): its cause, address and the thread it is attributed to, if any. -/
structure Imprecise where
  cause  : Nat
  addr   : DWord
  thread : Option TRef
  deriving DecidableEq, Repr

/-- The methods of pre-emption (16 R250). -/
inductive Method where
  | flush | drain | save
  deriving DecidableEq, Repr

/-- A pre-emption under way (16 R250-R252): its method, when it began, since when a partly arrived hurdle defers it, and
whether its method stands whatever R250 would choose (20 R287). -/
structure Preempt where
  method : Method
  since  : Nat
  defer  : Option Nat
  forced : Bool
  deriving DecidableEq, Repr

/-- Where a team stands (02 R39, 16 R245, R251): `stopping` after a team fault, until its operations have drained; `gone` once
its share is free, while its version waits for its grid. -/
inductive TeamStatus where
  | running | stopping | retired | saved | flushed | gone
  deriving DecidableEq, Repr

/-- The fields of a fault record (16 R246). -/
structure Record where
  addr   : DWord
  inst   : Word
  taskid : Word
  mask   : Word
  exc    : Word
  cause  : Nat
  kind   : Nat
  core   : Nat
  tslot  : Nat
  group  : Nat
  deriving DecidableEq, Repr

/-- A team (02 R19-R23, 05 R96-R97, 16 R249). `returned`: accepted commands that its save has put back in front of its queue (16 R251).
`latent`: imprecise faults met, `known`: those that its core has learned of (R244). `fault`: the record of a team fault whose operations in
flight have not all completed (R245). `since`: the count of names at its start. `brk`: a breakpoint saved it, so that only the debugger
restores it (20 R287). `lost`: its saved state met an uncorrectable error in the byre (05 R104). -/
structure Team where
  uid      : Nat
  ctx      : Nat
  launch   : Nat
  core     : Nat
  slot     : Nat
  base     : Nat
  fold     : Nat
  index    : Nat
  foldTeams : Nat
  n        : Nat
  regs     : Nat
  scr      : Nat
  tiles    : Nat
  entry    : DWord
  argp     : DWord
  prio     : Nat
  idem     : Bool
  rstr     : Bool
  shepherd : Bool
  scratch  : Memory
  tileMem  : Memory
  tileTags : List TileTag
  qmem     : Memory
  qhead    : Nat
  qtail    : Nat
  qcmds    : List (Nat × TRef × Word)
  returned : List Cmd := []
  taskid   : Word
  nr       : Bool
  fp       : Bool
  defer    : Bool
  restarts : Nat
  latent   : List Imprecise
  known    : List Imprecise
  hurdles  : List Nat
  status   : TeamStatus
  startClk : Nat
  preempt  : Option Preempt
  killed   : Bool
  lost     : Bool
  brk      : Bool := false
  fault    : Option Record := none
  since    : Nat := 0
  deriving DecidableEq, Repr

/-- One unpublished or die-held byte of a task version (07 R127, R132; 16 R247), at a physical address, or at a fold-window key (05 R102).
`seen`: the threads that have observed its store, each with the count of names when it did; `vis`, `coreAt`, `dieAt`: the counts of names
when it reached the L1 and when it was published at Core and at Die class; `heldFor`: the team for which it is die-held, `heldDie` the
die; `l2`: whether it stands in the ways of a slice, moved by an eviction (R102) or stored to an NC page (23 R363); `word`: the name of
the word that stored it. -/
structure VByte where
  pa     : Nat
  byte   : Byte
  ref    : TRef
  core   : Nat
  op     : Nat
  inL1   : Bool
  diePub : Bool
  stack  : Bool
  atomic : Bool
  seen   : List (TRef × Nat)
  vis    : Nat
  coreAt : Nat
  dieAt  : Nat
  heldFor : Nat := 0
  heldDie : Nat := 0
  l2     : Bool := false
  word   : Nat := 0
  deriving DecidableEq, Repr

/-- A store of a thread that took effect at a coherence point (07 R133): its bytes, its core, the count of names when that core
saw it and when every core could. -/
structure Trail where
  pa   : Nat
  n    : Nat
  core : Nat
  vis  : Nat
  time : Nat
  deriving DecidableEq, Repr

/-- A line in an L1 (05 R102): 128 bytes, its copy round, whether the core owns the line, and the count of names when it was
installed (15 R232). Lines of core 0x8C stand in the processor chiplet's caches, those of core 0xFF in a peer's (07 R137). -/
structure L1Line where
  core  : Nat
  line  : Nat
  data  : List Byte
  round : Word
  owned : Bool
  since : Nat
  deriving DecidableEq, Repr

/-- A UPDT partial (09 R161): for each element its offset, function, tag and value; `home` once it left the L1; `module` is
the domain number of the peer module that it came from, if it did (R162). -/
structure Partial where
  core  : Nat
  line  : Nat
  elems : List (Nat × AmoOp × Tag × DWord)
  home  : Bool
  module : Option Nat := none
  deriving DecidableEq, Repr

/-- A fetch of a line that a core has outstanding (10 R175), whether its line is installed in the L1 (04 R80), and whether it is for an NC
page. -/
structure Fetch where
  id    : Nat
  core  : Nat
  line  : Nat
  alloc : Bool
  nc    : Bool := false
  deriving DecidableEq, Repr

/-- A non-idle merge area (13 R215-R218): its twelve 4 KiB pieces in address order, its context, next index and tag, the
chunks buffered for it, and whether a thread stored into it. -/
structure Area where
  pages  : List Nat
  ctx    : Nat
  next   : Nat
  tag    : TileTag
  chunks : List (Nat × List Byte)
  dirty  : Bool
  deriving DecidableEq, Repr

/-- The translation caches (06 R113). -/
inductive Cache where
  | micro (core sub : Nat) | core (n : Nat) | die (d : Nat)
  deriving DecidableEq, Repr

structure Tlb where
  cache : Cache
  ctx   : Nat
  page  : Nat
  bytes : Nat
  leaf  : Leaf
  deriving DecidableEq, Repr

/-- A walk-cache entry: a table entry of a level above the leaf. -/
structure WalkEnt where
  die   : Nat
  ctx   : Nat
  level : Nat
  va    : Nat
  table : Nat
  deriving DecidableEq, Repr

structure Walk where
  die : Nat
  ctx : Nat
  va  : Nat
  deriving DecidableEq, Repr

/-- What a queued tile operation latched at issue (13 R208, R211): its place, its order in the core, its lanes with the registers it took,
its address on chip or as pieces of at most 4 KiB (address, length, NC of a read or EXC STACK of a write) with the range's generic address,
the bytes of B or the chunk number, the B bytes overwritten since, whether its chunk has gone, and the stores a TLD waits for; the cycle in
which it issued (R205); and the accesses that wrote its team's tiles since (05 R101): for each its name, its offset in the tiles, the bytes
before and the bytes written. `fmt`: the format of a TMMA's B (R206); `cutOff`: the peers that have become unreachable for it (19 R274);
`ncs`: the addresses of its pieces on NC pages. -/
structure TileOp where
  core  : Nat
  sub   : Nat
  order : Nat
  op    : Nat
  team  : Nat
  ctx   : Nat
  lanes : List (Nat × TRef × List RV)
  instr : Instr
  addr  : Option Landing
  pas   : List (Nat × Nat × Bool)
  base  : Nat
  num   : Nat
  dirty : List Nat
  sent  : Bool
  before : List (TRef × Nat)
  cycle  : Nat := 0
  crossed : List (Nat × Nat × List Byte × List Byte) := []
  fmt    : BFmt := .e4m3
  cutOff : List Nat := []
  ncs    : List Nat := []
  deriving DecidableEq, Repr

/-- A launch (15 R222-R233). `page0` and `page1`: the pages, as lowest address and size, through which the dependence stamps stand
translated (R386). `rec0` and `rec1`: whether a slice's monitor record watches each dependence stamp (R227), `met0` and `met1` whether it
has caught a value at or above the minimum. `asked`: the teams whose pre-emption its waiting fold requested (R229); `shepherd`: the die it
is for when it is a shepherd's (19 R270). -/
structure Launch where
  uid      : Nat
  ctx      : Nat
  entry    : DWord
  argp     : DWord
  folds    : Nat
  threads  : Nat
  teams    : Nat
  regs     : Nat
  scr      : Nat
  tiles    : Nat
  prio     : Nat
  idem     : Bool
  rstr     : Bool
  dep0     : Option (Nat × DWord)
  dep1     : Option (Nat × DWord)
  dep0pa   : Option Nat
  dep1pa   : Option Nat
  page0    : Option (Nat × Nat) := none
  page1    : Option (Nat × Nat) := none
  csa      : Nat
  csv      : DWord
  eligible : Bool
  next     : Nat
  killed   : Bool
  shepherd : Option Nat
  waitFrom : Option Nat
  asked    : List Nat
  accepted : Nat
  object   : Nat
  rec0     : Bool := false
  rec1     : Bool := false
  met0     : Bool := false
  met1     : Bool := false
  deriving DecidableEq, Repr

/-- A context: its descriptor as firmware wrote it, where that stands in memory, the device's own fields of it, and the scope table (19
R267, 07 R126). FQTAIL is what memory holds at `addr` + 32. `lost`: completion stamps, with the cause, whose record of kind 12 a full ring
did not take (16 R246). -/
structure Ctx where
  desc   : CtxDesc
  addr   : Nat
  fqhead : Word
  fqovf  : Word
  scopes : List (BitVec 128)
  halted : Bool
  lost   : List (Nat × Nat) := []
  deriving DecidableEq, Repr

/-- An executor change that EXECMAP has begun (06 R122, 18 R262): the page, the new executor, the leaf found, whether step 5
has been issued, and the drover commands, tile operations and stamps its present step waits for. -/
structure Change where
  va     : Nat
  exc    : Nat
  leaf   : Leaf
  last   : Bool
  cmds   : List (Nat × Nat × Nat)
  tiles  : List Nat
  stamps : List (TRef × Nat)
  deriving DecidableEq, Repr

/-- A service batch (19 R269): its SVC word with its address and its chain's, the calls not yet served, the executor change
that serves the first of them, the results, whether they are discarded, and whether its shepherd was killed before it was served: then
no later one serves it, and its lanes, those of a saved team at the restore, take 0x41. -/
structure Batch where
  id      : Nat
  team    : Nat
  ctx     : Nat
  die     : Nat
  num     : Nat
  a       : Nat
  inst    : Word
  pc      : DWord
  resume  : DWord
  calls   : List (TRef × List RV)
  change  : Option Change
  results : List (TRef × List RV)
  dropped : Bool
  failed  : Bool := false
  deriving DecidableEq, Repr

/-- A kernel of a loaded object (20 R278, R282). -/
structure Kernel where
  entry   : DWord
  threads : Nat
  teams   : Nat
  regs    : Nat
  scr     : Nat
  idem    : Bool
  rstr    : Bool
  deriving DecidableEq, Repr

/-- A loaded code object (20 R282-R284). `unloadedAt` is set by UNLOADOBJ: the acceptance count then. -/
structure Object where
  uid      : Nat
  ctx      : Nat
  codeBase : Nat
  codeLen  : Nat
  dataBase : Nat
  dataLen  : Nat
  svn      : Nat
  kernels  : List Kernel
  revoked  : Bool
  unloaded : Bool
  deriving DecidableEq, Repr

/-- The issuing chain: its team, group, lanes, first word's address, and raw words (04 R74-R76). -/
structure Cur where
  team  : Nat
  group : Nat
  lanes : List Nat
  pc    : DWord
  words : List Word
  deriving DecidableEq, Repr

/-- What programs, drovers, tile units and the scheduler act on. `memTable`: the address of the memory description (20 R296). `hints`: for a
core and a line, the cache hint of the last word that named it (04 R80). `trace`: records appended to the trace buffer (20 R287). `svcoff`:
an SVCOFF that waits for batches in flight, `lostDies` the dies whose shepherds DIE-OFF has ended, each with that shepherd's entry and
argument (19 R270). `droveway`: whether this module reaches its peers; off in minimal mode (20 R294). `machineChecks`: addresses that RAS
interrupts have passed to the operating system (19 R276). `droverTurn`: the team slot that each core's drover served last (11 R178). -/
structure Mach where
  clk       : Nat
  uid       : Nat
  free      : Nat
  cur       : Cur
  threads   : List Thread
  groups    : List Group
  teams     : List Team
  mem       : Memory
  linemeta  : List (Nat × BitVec 16)
  versions  : List VByte
  l1        : List L1Line
  partials  : List Partial
  fetches   : List Fetch := []
  hints     : List (Nat × Nat × CHint) := []
  trail     : List Trail
  rounds    : List (Nat × Word)
  mirrors   : List (Nat × Nat × Word)
  areas     : List Area
  discarded : List (Nat × Word)
  errors    : List (Place × Nat × Nat)
  tlb       : List Tlb
  walkCache : List WalkEnt
  walks     : List Walk
  cmds      : List Cmd
  tileq     : List TileOp
  droverTurn : List (Nat × Nat) := []
  ctxs      : List Ctx
  launches  : List Launch
  lastSlot  : List (Nat × Nat)
  services  : Bool
  svcoff    : Bool := false
  lostDies  : List (Nat × Nat × DWord) := []
  batches   : List Batch
  mailSeq   : List (Nat × DWord)
  msix      : List Nat
  objects   : List Object
  module    : Nat
  modules   : Nat
  droveway  : Bool := true
  ports     : List Port
  timeBase  : Nat
  wallBase  : Nat
  k2        : Bool
  stackBase : List Nat
  mailBase  : Nat
  memTable  : Option Nat := none
  machineChecks : List Nat := []
  fwBase    : Nat
  trace     : Nat
  diesOff   : List Nat
  noPlace   : List Nat
  noAccept  : Bool
  heldCores : List (Nat × Nat)
  deriving DecidableEq, Repr

/-- Security states (20 R286). -/
inductive Security where
  | openState | sealed | attested
  deriving DecidableEq, Repr

/-- The fuses (20 R285); a thermometer counter is its blown bits. -/
structure Fuses where
  rootHash  : BitVec 384
  ownerHash : BitVec 384
  sealBit   : Bool
  fwsvn     : BitVec 64
  cosvn     : BitVec 128
  idseed    : BitVec 384
  deriving DecidableEq, Repr

/-- An attestation report and its signature (20 R286). -/
structure Attestation where
  image  : BitVec 384
  fwsvn  : Nat
  cosvn  : Nat
  k2     : Bool
  keys   : List (BitVec 384)
  nonce  : BitVec 384
  sig    : BitVec 768
  deriving DecidableEq, Repr

/-- A pending power request (20 R291): state, dies, its deadline. -/
structure PowerReq where
  state    : PowerState
  dies     : List Nat
  deadline : Nat
  deriving DecidableEq, Repr

/-- BOOT_STATUS (20 R293). `full`: a new image has been written, so the next start is a full one (R294). -/
structure BootStatus where
  full    : Bool
  reason  : Nat
  fails   : Nat
  minimal : Bool
  fwsvn   : Nat
  stage   : Nat
  deriving DecidableEq, Repr

/-- What only the firmware and the management interface change. `image` is the digest of the running image; `answer` the status
of the last call or request, `detail` LOADOBJ's count of deprecated words; `startClk` when a start that has not ended began;
`shepherd` the kernel and argument of SVCON. -/
structure Sys where
  fuses    : Fuses
  keys     : List PubKey
  security : Security
  debug    : DebugState
  image    : BitVec 384
  report   : Option Attestation
  verified : List (BitVec 384 × BitVec 384)
  power    : PowerState
  powerReq : Option PowerReq
  powerAns : Option Nat
  cap      : Nat
  boot     : BootStatus
  started  : Bool
  startClk : Option Nat
  withheld : Bool
  removed  : Bool
  answer   : Nat
  detail   : Nat
  shepherd : Option (Nat × DWord)
  deriving DecidableEq, Repr

/-- Who moves next (log 2). -/
inductive Turn where
  | ev (i : Instr)
  | issue (core sub : Nat)
  | advance (cycles : Nat)
  | evict (core line : Nat)
  deriving DecidableEq, Repr

/-- The state. -/
structure State where
  m      : Mach
  sys    : Sys
  agenda : List Turn
  rr     : Nat
  deriving DecidableEq, Repr

/-- Why the machine stops. -/
inductive Fault where
  /-- Raised by CHIPLET_ACCESS, HOST_BAR_ACCESS and DROVEWAY_REQUEST when the agent's address lies in no memory that it can
  reach (19 R265, R271, R273). Safe. -/
  | noSuchMemory
  deriving DecidableEq, Repr

/-- Why a step has no meaning. -/
inductive Refusal where
  /-- Raised by Dispatch for an instruction with no meaning yet. Safe. -/
  | notModelled (mnemonic : String)
  deriving DecidableEq, Repr

/-- The bytes of nothing: no team, no context, memory with nothing listed. -/
def Mach.reset : Mach where
  clk := 0
  uid := 1
  free := 0
  cur := { team := 0, group := 0, lanes := [], pc := 0, words := [] }
  threads := []
  groups := []
  teams := []
  mem := []
  linemeta := []
  versions := []
  l1 := []
  partials := []
  fetches := []
  hints := []
  trail := []
  rounds := []
  mirrors := []
  areas := []
  discarded := []
  errors := []
  tlb := []
  walkCache := []
  walks := []
  cmds := []
  tileq := []
  droverTurn := []
  ctxs := []
  launches := []
  lastSlot := []
  services := false
  svcoff := false
  lostDies := []
  batches := []
  mailSeq := []
  msix := []
  objects := []
  module := 0
  modules := 1
  ports := [.pcie, .pcie, .pcie, .pcie]
  timeBase := 0
  wallBase := 0
  k2 := false
  stackBase := [0, 0x1800000000, 0x3000000000, 0x4800000000, 0x6000000000, 0x7800000000, 0x9000000000, 0xA800000000,
    0xC000000000, 0xD800000000, 0xF000000000, 0x10800000000]
  mailBase := 0x100000000
  memTable := none
  machineChecks := []
  fwBase := 0x200000000
  trace := 0
  diesOff := []
  noPlace := []
  noAccept := false
  heldCores := []

def Sys.reset : Sys where
  fuses := { rootHash := 0, ownerHash := 0, sealBit := false, fwsvn := 0, cosvn := 0, idseed := 0 }
  keys := []
  security := .openState
  debug := .none
  image := 0
  report := none
  verified := []
  power := .idle
  powerReq := none
  powerAns := none
  cap := 3200
  boot := { full := false, reason := 0, fails := 0, minimal := false, fwsvn := 0, stage := 0 }
  started := false
  startClk := none
  withheld := false
  removed := false
  answer := 0
  detail := 0
  shepherd := none

/-- The module right after reset (log 13 names the values the spec does not give). -/
def State.reset : State where
  m := Mach.reset
  sys := Sys.reset
  agenda := []
  rr := 0

end Sys2Proof.Machine
end

