-- ==== Sys2Proof/Machine/Ops.lean ====
section
/-! DEFINITION. The named operations over memory, registers, threads and teams; coherence at the homes (07 R137-R139, R384);
task versions (16 R247-R248); fault records (16 R246); taking an exception and returning from it (16 R240-R243); team
faults (16 R245). -/

namespace Sys2Proof.Machine

/-! ### Memory in canonical form (log 1) -/

/-- What an unlisted address reads as (log 1). -/
def unlisted : Byte := 0

/-- One byte. -/
def Memory.get : Memory → Nat → Byte
  | [], _ => unlisted
  | (k, v) :: rest, a => if a = k then v else if a < k then unlisted else Memory.get rest a

/-- Write one byte, keeping the form. -/
def Memory.set : Memory → Nat → Byte → Memory
  | [], a, b => if b = unlisted then [] else [(a, b)]
  | (k, v) :: rest, a, b =>
    if a < k then (if b = unlisted then (k, v) :: rest else (a, b) :: (k, v) :: rest)
    else if a = k then (if b = unlisted then rest else (k, b) :: rest)
    else (k, v) :: Memory.set rest a b

/-- Every address above `lo`, rising, and no unlisted value. -/
def Memory.wfFrom : Nat → Memory → Bool
  | _, [] => true
  | lo, (k, v) :: rest => decide (lo ≤ k) && v != unlisted && Memory.wfFrom (k + 1) rest

/-- The canonical form. -/
def Memory.wf (m : Memory) : Bool := Memory.wfFrom 0 m

/-- `n` bytes from `a`. -/
def Memory.read (m : Memory) (a : Nat) : Nat → List Byte
  | 0 => []
  | n + 1 => m.get a :: Memory.read m (a + 1) n

/-- Bytes from `a` on. -/
def Memory.write (m : Memory) (a : Nat) : List Byte → Memory
  | [] => m
  | b :: bs => Memory.write (m.set a b) (a + 1) bs

/-- Little-endian value of bytes (00 R4). -/
def leNat : List Byte → Nat
  | [] => 0
  | b :: bs => b.toNat + 256 * leNat bs

/-- The `n` little-endian bytes of a value. -/
def leBytes (v : Nat) : Nat → List Byte
  | 0 => []
  | n + 1 => BitVec.ofNat 8 (v % 256) :: leBytes (v / 256) n

/-! ### Tables -/

def getAssoc {α : Type} (d : α) (k : Nat) : List (Nat × α) → α
  | [] => d
  | (x, v) :: rest => if x = k then v else getAssoc d k rest

def setAssoc {α : Type} (k : Nat) (v : α) : List (Nat × α) → List (Nat × α)
  | [] => [(k, v)]
  | (x, w) :: rest => if x = k then (k, v) :: rest else (x, w) :: setAssoc k v rest

def Mach.thread? (m : Mach) (t : TRef) : Option Thread := m.threads.find? fun x => x.ref == t
def Mach.team? (m : Mach) (u : Nat) : Option Team := m.teams.find? fun x => x.uid == u
def Mach.ctx? (m : Mach) (c : Nat) : Option Ctx := m.ctxs.find? fun x => x.desc.ctxno == c
def Mach.cmd? (m : Mach) (c : Nat) : Option Cmd := m.cmds.find? fun x => x.id == c
def Mach.launch? (m : Mach) (u : Nat) : Option Launch := m.launches.find? fun x => x.uid == u
def Mach.group? (m : Mach) (u g : Nat) : Option Group := m.groups.find? fun x => x.team == u && x.index == g

def Mach.updThread (m : Mach) (t : TRef) (f : Thread → Thread) : Mach :=
  { m with threads := m.threads.map fun x => if x.ref == t then f x else x }
def Mach.updTeam (m : Mach) (u : Nat) (f : Team → Team) : Mach :=
  { m with teams := m.teams.map fun x => if x.uid == u then f x else x }
def Mach.updGroup (m : Mach) (u g : Nat) (f : Group → Group) : Mach :=
  { m with groups := m.groups.map fun x => if x.team == u && x.index == g then f x else x }
def Mach.updCmd (m : Mach) (c : Nat) (f : Cmd → Cmd) : Mach :=
  { m with cmds := m.cmds.map fun x => if x.id == c then f x else x }
def Mach.updLaunch (m : Mach) (u : Nat) (f : Launch → Launch) : Mach :=
  { m with launches := m.launches.map fun x => if x.uid == u then f x else x }
def Mach.updCtx (m : Mach) (c : Nat) (f : Ctx → Ctx) : Mach :=
  { m with ctxs := m.ctxs.map fun x => if x.desc.ctxno == c then f x else x }

/-- A fresh name. -/
def Mach.fresh (m : Mach) : Nat × Mach := (m.uid, { m with uid := m.uid + 1 })

/-- A free choice below `n` (log 7). -/
def Mach.choose (m : Mach) (n : Nat) : Nat × Mach :=
  (if n ≤ 1 then 0 else Config.freeChoice m.free % n, { m with free := m.free + 1 })

/-- A free value (log 5). -/
def Mach.freeVal (m : Mach) : BitVec 64 × Mach := (Config.freeValue m.free, { m with free := m.free + 1 })

/-! ### Registers -/

def rv0 : RV := { bits := 0, tag := .raw }

def Thread.reg (t : Thread) (r : Nat) : RV := t.regs.getD r rv0

def Thread.setReg (t : Thread) (r : Nat) (v : RV) : Thread := { t with regs := t.regs.set r v }

/-- Write consecutive registers. -/
def Thread.setRegs (t : Thread) (r : Nat) : List RV → Thread
  | [] => t
  | v :: vs => (t.setReg r v).setRegs (r + 1) vs

/-- The `k` registers from `r`. -/
def Thread.block (t : Thread) (r k : Nat) : List RV := (List.range k).map fun i => t.reg (r + i)

/-- The bits of consecutive registers, the first lowest (00 R4). -/
def bitsOf (rs : List RV) : Nat := joinW 32 (rs.map fun v => v.bits.toNat)

/-- A value of `k` registers with one tag. -/
def regsOf (tag : Tag) (k v : Nat) : List RV :=
  (List.range k).map fun i => { bits := BitVec.ofNat 32 (v / 2 ^ (32 * i)), tag := tag }

/-- A value of a tag as registers. -/
def valRegs (tag : Tag) (v : Nat) : List RV := regsOf tag tag.regs v

/-- Predicate k; k0 reads true (03 R48). -/
def Thread.pred (t : Thread) (k : KIx) : Bool := k == 0 || t.preds.getLsbD k.toNat

/-- Write a predicate; a write to k0 is discarded (03 R48). -/
def Thread.setPred (t : Thread) (k : KIx) (b : Bool) : Thread :=
  if k == 0 then t
  else { t with preds := (t.preds &&& ~~~(1#8 <<< k.toNat)) ||| (if b then 1#8 <<< k.toNat else 0) }

def Thread.lane (t : Thread) : Nat := t.ref.tidx % 32
def Thread.group (t : Thread) : Nat := t.ref.tidx / 32

/-- Write a destination. -/
def Thread.writeDst (t : Thread) (d : Dst) (rs : List RV) : Thread :=
  match d with
  | .regs r _ _ => t.setRegs r rs
  | .pred k => t.setPred k ((rs.headD rv0).bits.getLsbD 0)
  | .none => t

/-! ### Physical addresses (05 R103, 19 R273, 07 R139) -/

def lineOf (pa : Nat) : Nat := pa / 128 * 128
def regionOf (pa : Nat) : Nat := pa / 2 ^ 21
def spaceOf (pa : Nat) : Nat := pa / 2 ^ 54 % 4

/-- Whether an address lies on a peer. -/
def onPeer (peer pa : Nat) : Bool := spaceOf pa == 2 && pa / 2 ^ 46 % 256 == peer

/-- The stack that holds a local HBM address: the last range whose base is at or below it (log 68). -/
def Mach.stackOf (m : Mach) (pa : Nat) : Nat := ((m.stackBase.filter fun b => b ≤ pa).length - 1) % 12

/-- The CXL port of a pool address (19 R273); port p is die p's (log 68). -/
def portOf (pa : Nat) : Nat := (pa / 2 ^ 44) % 4

/-- The die through which a line's requests go: the die of its stack or of its port; for a peer, the die whose number is the peer's modulo
4 (DESIGN CHOICE, log 68: the spec leaves the route to the firmware's table). -/
def Mach.homeDie (m : Mach) (pa : Nat) : Nat :=
  if spaceOf pa == 0 then m.stackOf pa / 3 else if spaceOf pa == 1 then portOf pa else pa / 2 ^ 46 % 4

/-- The slice within the die (05 R103). -/
def sliceOf (pa : Nat) : Nat := (pa / 2 ^ 7 % 32) ^^^ (pa / 2 ^ 12 % 32) ^^^ (pa / 2 ^ 17 % 32)

def Mach.homeSlice (m : Mach) (pa : Nat) : Nat := 32 * m.homeDie pa + sliceOf pa

def dieOf (core : Nat) : Nat := core / 32

/-! ### Coherence metadata (07 R137) -/

def Mach.meta (m : Mach) (line : Nat) : BitVec 16 := getAssoc 0 line m.linemeta
def Mach.setMeta (m : Mach) (line : Nat) (v : BitVec 16) : Mach :=
  { m with linemeta := if v == 0 then m.linemeta.filter (fun p => p.1 != line) else setAssoc line v m.linemeta }

def stateOf (v : BitVec 16) : Nat := v.toNat / 2 ^ 13
def ownerOf (v : BitVec 16) : Nat := v.toNat / 2 ^ 5 % 256
def mkMeta (state owner sharers rsh : Nat) : BitVec 16 := BitVec.ofNat 16 (state * 2 ^ 13 + owner * 2 ^ 5 + sharers * 2 + rsh)
def sharersOf (v : BitVec 16) : Nat := v.toNat / 2 % 16

/-- A read of the line delivers cause 0x30 (05 R105). -/
def Mach.poisoned (m : Mach) (pa : Nat) : Bool := stateOf (m.meta (lineOf pa)) ≥ 6

/-! ### The shadow tables of pool lines (19 R272) -/

/-- The first address of port p's pool, and the bytes of it that exist. -/
def poolBase (p : Nat) : Nat := 2 ^ 54 + p * 2 ^ 44
def poolBytes (b : Nat) : Nat := min b (2 ^ 44)

/-- Where port p's shadow table lies: at the top of the HBM of the port's die, 2 bytes for each line (log 66). -/
def shadowBase (p b : Nat) : Nat := (p + 1) * (3 * (96 * 2 ^ 30)) - poolBytes b / 64

/-- Whether some bytes lie in a shadow table. -/
def Mach.shadowed (m : Mach) (pa n : Nat) : Bool := (List.range 4).any fun p => match m.ports.getD p .off with
  | .cxl b => decide (pa < shadowBase p b + poolBytes b / 64) && decide (shadowBase p b < pa + n)
  | _ => false

/-- The byte of a shadow table at an address: one of the metadata of a pool line, which its home reads and writes there (R272). -/
def Mach.shadowByte (m : Mach) (pa : Nat) : Option Byte := (List.range 4).findSome? fun p => match m.ports.getD p .off with
  | .cxl b =>
    let base := shadowBase p b
    if base ≤ pa && pa < base + poolBytes b / 64 then
      some (BitVec.ofNat 8 ((m.meta (poolBase p + (pa - base) / 2 * 128)).toNat / 256 ^ ((pa - base) % 2)))
    else none
  | _ => none

/-- Bytes as they stand at their home: those of a shadow table are the metadata of pool lines. -/
def Mach.homeRead (m : Mach) (pa n : Nat) : List Byte :=
  if m.shadowed pa n then (List.range n).map fun i => (m.shadowByte (pa + i)).getD (m.mem.get (pa + i)) else m.mem.read pa n

/-- Drop the clean copies of a line in every core but one. -/
def Mach.dropCopies (m : Mach) (line : Nat) (keep : Nat) : Mach :=
  { m with l1 := m.l1.filter fun c => !(c.line == line && c.core != keep) }

/-- A line's hint (04 R80) goes when the line does: neither a copy nor a byte of it is in the core, and no fetch of it is under way. -/
def Mach.tidyHints (m : Mach) : Mach :=
  { m with hints := m.hints.filter fun h =>
      m.l1.any (fun c => c.core == h.1 && c.line == h.2.1) || m.fetches.any (fun f => f.core == h.1 && f.line == h.2.1)
        || (m.versions.any fun b => b.core == h.1 && lineOf b.pa == h.2.1 && !b.diePub && !b.l2) }

/-- A condition on a watched value (09 R165). -/
def holds (w : WaitA) (v : Nat) : Bool := iCmp w.cond (8 * w.width) v w.value.toNat

/-- Whether a wake still counts: its deadline has not passed (09 R165, R167). -/
def WaitA.inTime (w : WaitA) (clk : Nat) : Bool := match w.deadline with | some d => decide (clk < d) | none => true

/-- A watched dependence stamp has been written (15 R227): its record catches a value at or above the minimum. -/
def Mach.catchStamp (m : Mach) (pa n : Nat) (dep : Option (Nat × DWord)) (at_ : Option Nat) (held met : Bool) : Bool :=
  met || (held && match dep, at_ with
    | some (_, v), some p => decide (p < pa + n) && decide (pa < p + 8) && !m.poisoned p && decide (v.toNat ≤ leNat (m.mem.read p 8))
    | _, _ => false)

/-- Record the wakes of lanes whose watched word was written (09 R166): false where the line stands poisoned (R105, R373). The
records of dependence stamps catch what was written (15 R227). -/
def Mach.noteLine (m : Mach) (pa n : Nat) : Mach :=
  { m with
    threads := m.threads.map fun t =>
      match t.wait with
      | .waita w =>
        match w.watch with
        | .line p _ =>
          if w.record && w.woken.isNone && w.inTime m.clk && p < pa + n && pa < p + w.width
              && (m.poisoned p || holds w (leNat (m.mem.read p w.width)))
          then { t with wait := .waita { w with woken := some (!m.poisoned p), hit := m.clk } } else t
        | _ => t
      | _ => t
    launches := m.launches.map fun (l : Launch) => { l with
      met0 := m.catchStamp pa n l.dep0 l.dep0pa l.rec0 l.met0
      met1 := m.catchStamp pa n l.dep1 l.dep1pa l.rec1 l.met1 } }

/-- Note the stores that take effect at a coherence point, each with the count of names at which its own core saw it: they
matter while some store stands published at Core or Die class only (07 R133). -/
def Mach.leaveTrail (m : Mach) (bs : List (Nat × Nat × Nat × Nat)) : Mach :=
  if m.versions.any fun b => b.coreAt != 0 || b.diePub then { m with
    uid := m.uid + 1
    trail := bs.map (fun (b : Nat × Nat × Nat × Nat) =>
      ({ pa := b.1, n := b.2.1, core := b.2.2.1, vis := b.2.2.2, time := m.uid } : Trail)) ++ m.trail }
  else { m with trail := [] }

/-- The owner of a line in E, O or M (07 R137). -/
def Mach.ownerOf? (m : Mach) (line : Nat) : Option Nat :=
  let v := m.meta line
  if stateOf v == 2 || stateOf v == 3 || stateOf v == 4 then some (ownerOf v) else none

/-- The SHARERS bit of an agent: its die for a core, bit 0 for the chiplet (19 R265). -/
def sharerBit (agent : Nat) : Nat := if agent < 128 then 2 ^ (agent / 32) else 1

/-- The die of a byte: that of its core, or that at whose die point it is held (07 R132). -/
def VByte.die (b : VByte) : Nat := if b.diePub then b.heldDie else dieOf b.core

/-- Whether two bytes are of one store. -/
def sameStore (a b : VByte) : Bool := a.ref == b.ref && a.op == b.op

/-- Whether x is an older store than b of b's own thread, or of a lower lane in b's word (23 R363). -/
def olderStore (b x : VByte) : Bool := decide (x.op < b.op) && (x.ref == b.ref || x.word == b.word)

/-- The bytes of a core's version that a byte supersedes: at its address, those that lie behind it in the list of what reached the L1,
and older stores of its own thread or word that are still on their way there (07 R127). -/
def superseded (vs : List VByte) (b x : VByte) : Bool :=
  x.pa == b.pa && x.core == b.core && x != b
    && (olderStore b x || ((x.inL1 || x.diePub) && (vs.dropWhile (fun y => y != b)).contains x))

/-- Some bytes that atomics wrote leave the versions, with the older bytes that they replaced (07 R384). -/
def Mach.dropOwned (m : Mach) (which : VByte → Bool) : Mach :=
  let take := m.versions.filter fun b => b.atomic && which b
  { m with versions := m.versions.filter fun x => !(take.contains x || take.any fun b => superseded m.versions b x) }

/-- Put bytes of a line into an agent's copy of it. -/
def Mach.copyBytes (m : Mach) (core line : Nat) (bs : List (Nat × Byte)) : Mach :=
  { m with l1 := m.l1.map fun c =>
      if c.core == core && c.line == line then { c with data := bs.foldl (fun d b => d.set (b.1 - line) b.2) c.data } else c }

/-- What a core gives back when its line is recalled (07 R384): the bytes that its atomics wrote, wherever they stand, newest value
last. They leave the version with the older bytes that they replaced. -/
def Mach.recallCore (m : Mach) (line own : Nat) : Mach :=
  let mine (b : VByte) : Bool := b.core == own && lineOf b.pa == line
  let take := m.versions.filter fun b => b.atomic && mine b
  let bs : List (Nat × Byte) := take.reverse.map fun b => (b.pa, b.byte)
  let m := (m.leaveTrail (take.map fun b => (b.pa, 1, b.core, b.vis))).dropOwned mine
  let m := { m with mem := bs.foldl (fun (mm : Memory) (b : Nat × Byte) => mm.set b.1 b.2) m.mem }
  m.copyBytes own line bs

/-- What an agent outside the cores gives back: the line as it holds it. -/
def Mach.recallAgent (m : Mach) (line own : Nat) : Mach :=
  match m.l1.find? fun c => c.core == own && c.line == line with
  | some c => { m with mem := (m.mem.write line c.data) }
  | none => m

/-- Recall an owned line (07 R137, R384): what its owner has written reaches the coherence point, where watches see it (09 R166).
A core or the chiplet keeps a clean copy, so the line
goes to S (10 R174). -/
def Mach.recall (m : Mach) (line : Nat) : Mach :=
  match m.ownerOf? line with
  | none => m
  | some own =>
    let v := m.meta line
    let m := if own < 128 then m.recallCore line own else m.recallAgent line own
    let m := { m with l1 := m.l1.map fun (c : L1Line) => if c.line == line && c.core == own then { c with owned := false } else c }
    (m.setMeta line
      (if 0x80 ≤ own && own < 0x8C then mkMeta (if v.toNat % 32 == 0 then 0 else 1) 0 (sharersOf v) (v.toNat % 2)
        else if own == 0xFF then mkMeta 1 0 (sharersOf v) 1
        else mkMeta 1 0 (sharersOf v ||| sharerBit own) (v.toNat % 2))).noteLine line 128

/-- Fold one partial into memory (09 R162). -/
def foldPartial (line : Nat) (mem : Memory) (p : Partial) : Memory :=
  p.elems.foldl (fun mm (off, f, t, v) =>
    let n := t.width / 8
    mm.write (line + off) (leBytes (amoApply f t (leNat (mm.read (line + off) n)) v.toNat) n)) mem

/-- A partial's place in the order of a combine (09 R162): the module's own cores by number, then the peers by domain number. -/
def Partial.rank (p : Partial) : Nat := match p.module with | some k => 256 + k | none => p.core

/-- Insert by that order, keeping the order of creation. -/
def insPartial (p : Partial) : List Partial → List Partial
  | [] => [p]
  | q :: qs => if p.rank < q.rank then p :: q :: qs else q :: insPartial p qs

/-- Combine the partials of a line in the fixed order (09 R162); its watches are evaluated (R166). Clean copies may still stand at
the dies in SHARERS (07 R137). -/
def Mach.combine (m : Mach) (line : Nat) : Mach :=
  let v := m.meta line
  if stateOf v == 5 then
    let ps := (m.partials.filter fun p => p.line == line).foldl (fun acc p => insPartial p acc) []
    let own := ps.filter fun p => p.module.isNone
    let m := m.leaveTrail ((own.map fun p => p.elems.map fun e => (line + e.1, e.2.2.1.width / 8, p.core, m.uid)).flatten)
    let m := { m with
      mem := ps.foldl (foldPartial line) m.mem
      partials := m.partials.filter fun p => p.line != line }
    (m.setMeta line (mkMeta 1 0 (sharersOf v) (v.toNat % 2))).noteLine line 128
  else m

/-- Bytes at the coherence point, an owned line recalled and a U line combined first; none when poisoned. -/
def Mach.cohPrep (m : Mach) (line : Nat) : Mach := (m.recall line).combine line

def Mach.cohRead (m : Mach) (pa n : Nat) : Mach × Option (List Byte) :=
  let m := m.cohPrep (lineOf pa)
  (m, if m.poisoned pa then none else some (m.homeRead pa n))

/-- Write within one line at the coherence point; poison stays (05 R105). -/
def Mach.cohWrite1 (m : Mach) (pa : Nat) (bs : List Byte) : Mach :=
  let m := m.cohPrep (lineOf pa)
  ({ m with mem := m.mem.write pa bs }).noteLine pa bs.length

/-- A drover's payload within one line: all 128 bytes in one write clear its poison (05 R105). -/
def Mach.payloadWrite (m : Mach) (pa : Nat) (bs : List Byte) : Mach :=
  if bs.length == 128 && m.poisoned pa then (m.setMeta (lineOf pa) 0).cohWrite1 pa bs else m.cohWrite1 pa bs

/-- Cut bytes at line boundaries; `fuel` lines. -/
def cutLines : Nat → Nat → List Byte → List (Nat × List Byte)
  | 0, _, _ => []
  | fuel + 1, pa, bs =>
    if bs.isEmpty then []
    else let k := 128 - pa % 128; (pa, bs.take k) :: cutLines fuel (pa + k) (bs.drop k)

def Mach.cohWrite (m : Mach) (pa : Nat) (bs : List Byte) : Mach :=
  (cutLines (bs.length / 128 + 2) pa bs).foldl (fun m p => m.cohWrite1 p.1 p.2) m

/-! ### Scratchpad (09 R166) -/

/-- Whether a hurdle is partly arrived. -/
def partly (mem : Memory) (off : Nat) : Bool :=
  let a := leNat (mem.read off 2)
  let e := leNat (mem.read (off + 4) 4) % 2048
  decide (0 < a) && decide (a < e)

/-- Bytes at `off` of a team's scratchpad change under a TMMA that has issued and reads them (13 R211). -/
def Mach.noteB (m : Mach) (team off n : Nat) : Mach :=
  { m with tileq := m.tileq.map fun (q : TileOp) =>
      match q.instr, q.addr with
      | .tmma .., some (.scratch u o) =>
        if u == team then
          { q with dirty := q.dirty ++ (List.range n).filterMap fun i =>
              if o ≤ off + i && off + i < o + q.num then some (off + i - o) else none }
        else q
      | _, _ => q }

/-- The comparand of an HRDW whose wake is recorded: no generation equals it (09 R171). -/
def genWoken : Nat := 65536

/-- Put bytes into a team's scratchpad, recording wakes of its watchers (09 R166); a hurdle the core counts is counted
again. -/
def Mach.scratchPut (m : Mach) (team off : Nat) (bs : List Byte) : Mach :=
  let m := m.updTeam team fun t =>
    let s := t.scratch.write off bs
    { t with scratch := s, hurdles := t.hurdles.filter fun h => partly s h }
  match m.team? team with
  | none => m
  | some tm =>
    { m with threads := m.threads.map fun t =>
        match t.wait with
        | .waita w =>
          match w.watch with
          | .scratch u o =>
            if u == team && w.woken.isNone && w.inTime m.clk && o < off + bs.length && off < o + w.width
                && holds w (leNat (tm.scratch.read o w.width))
            then { t with wait := .waita { w with woken := some true, hit := m.clk } } else t
          | _ => t
        | .hrdw u o g f =>
          if u == team && o < off + bs.length && off < o + 4 && leNat (tm.scratch.read (o + 2) 2) != g
          then { t with wait := .hrdw u o genWoken f } else t
        | _ => t }

/-- A write to scratchpad by a store, a payload or a hurdle operation. -/
def Mach.scratchWrite (m : Mach) (team off : Nat) (bs : List Byte) : Mach :=
  (m.noteB team off bs.length).scratchPut team off bs

/-! ### Fold windows (05 R95, R102) -/

/-- The key under which a byte of another team's scratchpad, named through the fold window, stands in an L1: a number above every
physical address (log 58). -/
def foldKey (team off : Nat) : Nat := 2 ^ 64 + team * 2 ^ 32 + off
def isFold (a : Nat) : Bool := decide (2 ^ 64 ≤ a)
def foldTeamOf (a : Nat) : Nat := (a - 2 ^ 64) / 2 ^ 32
def foldOff (a : Nat) : Nat := (a - 2 ^ 64) % 2 ^ 32

/-- A byte at its home: in memory, or in the scratchpad that a fold-window key names. -/
def Mach.homeByte (m : Mach) (pa : Nat) : Byte :=
  if isFold pa then (match m.team? (foldTeamOf pa) with | some t => t.scratch.get (foldOff pa) | none => unlisted)
  else if m.shadowed pa 1 then (m.shadowByte pa).getD (m.mem.get pa) else m.mem.get pa

/-! ### Lines in an L1 (05 R102) -/

def Mach.round (m : Mach) (region : Nat) : Word := getAssoc 0 region m.rounds
def Mach.l1? (m : Mach) (core line : Nat) : Option L1Line := m.l1.find? fun c => c.core == core && c.line == line

/-- The set of an L1 in which a line stands (log 12). -/
def setOf (line : Nat) : Nat := line / 128 % 256

/-- The lines that stand in one set of a core's L1: copies, unpublished bytes and UPDT partials. -/
def Mach.l1Set (m : Mach) (core set : Nat) : List Nat :=
  ((m.l1.filter fun c => c.core == core && setOf c.line == set).map (·.line)
    ++ (m.versions.filter fun b => b.core == core && b.inL1 && !b.diePub && !b.l2 && setOf (lineOf b.pa) == set).map (fun b => lineOf b.pa)
    ++ (m.partials.filter fun p => p.core == core && p.module.isNone && !p.home && setOf p.line == set).map (·.line)).dedup

/-- A line leaves a core's L1: unpublished bytes go to the ways of a slice (R102, 07 R127), a partial to its home. -/
def Mach.evictLine (m : Mach) (core line : Nat) : Mach := { m with
  l1 := m.l1.filter fun c => !(c.core == core && c.line == line)
  versions := m.versions.map fun (b : VByte) =>
    if b.core == core && lineOf b.pa == line && b.inL1 && !b.diePub then { b with l2 := true } else b
  hints := m.hints.filter fun h => !(h.1 == core && h.2.1 == line)
  partials := m.partials.map fun (p : Partial) =>
    if p.core == core && p.line == line && p.module.isNone then { p with home := true } else p }

/-- The hint that the last word to name a line in a core gave (04 R80). -/
def Mach.hintOf (m : Mach) (core line : Nat) : CHint :=
  match m.hints.find? fun h => h.1 == core && h.2.1 == line with | some h => h.2.2 | none => .normal

/-- A word names a line with a hint. -/
def Mach.setHint (m : Mach) (core line : Nat) (h : CHint) : Mach :=
  let others := m.hints.filter fun x => !(x.1 == core && x.2.1 == line)
  { m with hints := if h == .ef || h == .kp then (core, line, h) :: others else others }

/-- The lines of a set among which a victim is chosen: those to evict first, else those not to be kept, else all (04 R80). -/
def Mach.victimsOf (m : Mach) (core : Nat) (here : List Nat) : List Nat :=
  let first := here.filter fun l => m.hintOf core l == .ef
  let usual := here.filter fun l => m.hintOf core l != .kp
  if !first.isEmpty then first else if !usual.isEmpty then usual else here

/-- Room for a line in a core's L1: a full set of 16 ways gives up a line, by the hints, then by a free choice (log 12). -/
def Mach.makeSpace (m : Mach) (core line : Nat) : Mach :=
  let here := m.l1Set core (setOf line)
  if 128 ≤ core || here.contains line || decide (here.length < 16) then m
  else
    let vs := m.victimsOf core here
    let (k, m) := m.choose vs.length
    m.evictLine core (vs.getD k line)

/-- Install a line in an L1. -/
def Mach.install (m : Mach) (core line : Nat) (data : List Byte) (owned : Bool) : Mach :=
  let m := m.makeSpace core line
  { m with l1 := { core := core, line := line, data := data, round := m.round (regionOf line), owned := owned, since := m.uid } ::
      m.l1.filter fun c => !(c.core == core && c.line == line) }

/-! ### Snapshots and versions (07 R127-R133) -/

/-- The team whose version holds a byte: the storing thread's, or the one whose Die-class release holds it (07 R132). -/
def VByte.owner (b : VByte) : Nat := if b.diePub then b.heldFor else b.ref.team

/-- The byte that a die holds at an address, if it holds one. -/
def Mach.heldByte (m : Mach) (die pa : Nat) : Option VByte :=
  m.versions.find? fun b => b.diePub && b.pa == pa && b.heldDie == die

/-- A byte as a die-point read takes it: held bytes of the die before the home's (07 R132). -/
def Mach.dieByte (m : Mach) (die pa : Nat) : Byte := match m.heldByte die pa with | some b => b.byte | none => m.homeByte pa

/-- A line as a die-point read takes it. -/
def Mach.dieLine (m : Mach) (die line : Nat) : List Byte := (List.range 128).map fun i => m.dieByte die (line + i)

/-- The latest store among some bytes: of the highest operation name. -/
def latest : List VByte → Option VByte
  | [] => none
  | b :: bs => match latest bs with
    | some x => if b.op < x.op then some x else some b
    | none => some b

/-- The unpublished byte that a thread's core shows it (07 R127): its own latest store while that is on its way to the L1, else
the byte that stands in the L1. -/
def Mach.ownByte (m : Mach) (core : Nat) (t : TRef) (pa : Nat) : Option VByte :=
  let here := m.versions.filter fun b => b.pa == pa && b.core == core && !b.diePub
  match latest (here.filter fun b => b.ref == t) with
  | some b => if b.inL1 then here.find? (·.inL1) else some b
  | none => here.find? (·.inL1)

/-- Whether a thread's read of some bytes returns a byte of a version: an unpublished one of another thread of its core, or one
held at its die point (07 R133, R132). `since` is the count of names when its core's copy was fetched. -/
def Mach.returns (m : Mach) (core : Nat) (t : TRef) (pa n since : Nat) (b : VByte) : Bool :=
  pa ≤ b.pa && b.pa < pa + n
    && if b.diePub then b.heldDie == dieOf core && (b.core == core || decide (b.dieAt < since)) && (m.ownByte core t b.pa).isNone
      else b.core == core && b.inL1 && b.ref != t

/-- The count of names when the latest store that a read returns became visible to the reading core; 0 for none. -/
def Mach.seenAt (m : Mach) (core : Nat) (t : TRef) (pa n since : Nat) : Nat :=
  let a := (m.versions.filter fun b => m.returns core t pa n since b).map fun b => if b.diePub then b.dieAt else b.vis
  let h := (m.trail.filter fun e => e.pa < pa + n && pa < e.pa + e.n && (e.core == core || decide (e.time < since))).map
    fun e => if e.core == core then e.vis else e.time
  (a ++ h).foldl max 0

/-- The bytes of versions that were published, at whatever scope, before a count of names, and are not the thread's own. -/
def Mach.publishedBefore (m : Mach) (t : TRef) (upto : Nat) : List VByte :=
  m.versions.filter fun b => if b.diePub then decide (b.dieAt < upto) else b.ref != t && b.coreAt != 0 && decide (b.coreAt < upto)

/-- A thread has observed the stores of some bytes, each as a whole (07 R129). -/
def Mach.markSeen (m : Mach) (t : TRef) (hit : List VByte) : Mach :=
  if hit.isEmpty then m
  else { m with versions := m.versions.map fun (b : VByte) =>
      if hit.any (fun x => sameStore x b) && !b.seen.any (fun p => p.1 == t) then { b with seen := (t, m.uid) :: b.seen } else b }

/-- A thread observes the stores of which its read returns a byte (07 R133), and with them every store published before that became
visible. -/
def Mach.observe (m : Mach) (core : Nat) (t : TRef) (pa n since : Nat) : Mach :=
  m.markSeen t ((m.versions.filter fun b => m.returns core t pa n since b) ++ m.publishedBefore t (m.seenAt core t pa n since))

/-- The same for an atomic that acts at the coherence point (07 R135): it returns no byte of a version, so that it observes only what
was published before the stores that stand there. -/
def Mach.observeHome (m : Mach) (core : Nat) (t : TRef) (pa n : Nat) : Mach :=
  m.markSeen t (m.publishedBefore t (({ m with versions := [] } : Mach).seenAt core t pa n m.uid))

/-- Fetch a line for a core: combine, read through the die point, note the sharer (07 R137, R132). A line that another agent owns
is not recalled: its owner answers for it, in O, and clean copies exist beside it (log 9). -/
def Mach.fetchLine (m : Mach) (core line : Nat) : Mach × List Byte :=
  let m := m.combine line
  let v := m.meta line
  let sharers := sharersOf v ||| sharerBit core
  let m := if isFold line then m
    else match m.ownerOf? line with
    | some o => if o == core then m else m.setMeta line (mkMeta 3 o sharers (v.toNat % 2))
    | none => if stateOf v ≤ 1 then m.setMeta line (mkMeta 1 0 sharers (v.toNat % 2)) else m
  (m, m.dieLine (dieOf core) line)

/-- The data that the home sends with ownership (07 R136, R137): its bytes; a core's own stores that its die holds stand in their place
(log 59). -/
def Mach.grantLine (m : Mach) (core line : Nat) : List Byte := (List.range 128).map fun i =>
  match if core < 128 then (m.heldByte (dieOf core) (line + i)).filter fun b => b.core == core else none with
  | some b => b.byte
  | none => m.homeByte (line + i)

/-- Whether the home answers a request for ownership without data (07 R138): the line is in S, the requester's die is in SHARERS, and the
requester holds a copy. -/
def Mach.grantsBare (m : Mach) (core line : Nat) : Bool :=
  let v := m.meta line
  decide (core < 128) && stateOf v == 1 && (sharersOf v).testBit (dieOf core) && (m.l1? core line).isSome

/-- Take ownership of a line, in E or M (07 R137, R138): any other owner gives it back, partials are combined, no other copy is
left. A copy that is granted without data keeps its bytes and its round (10 R174); else the home sends the line. -/
def Mach.takeOwnership (m : Mach) (core line state : Nat) : Mach :=
  let own (m : Mach) : Mach :=
    { m with l1 := m.l1.map fun (x : L1Line) => if x.core == core && x.line == line then { x with owned := true } else x }
  let send (m : Mach) : Mach := m.install core line (m.grantLine core line) true
  if m.ownerOf? line == some core then
    let m := if (m.l1? core line).isNone then send m else m
    (m.dropCopies line core).setMeta line (mkMeta (if state == 4 then 4 else stateOf (m.meta line)) core 0 0)
  else if m.grantsBare core line then (own (m.dropCopies line core)).setMeta line (mkMeta state core 0 0)
  else (send ((m.cohPrep line).dropCopies line core)).setMeta line (mkMeta state core 0 0)

/-- Add a store's bytes to the version (16 R247). -/
def Mach.addStore (m : Mach) (core : Nat) (t : TRef) (op : Nat) (pa : Nat) (bs : List Byte) (inL1 stack atomic : Bool)
    (l2 : Bool := false) (word : Nat := op) : Mach :=
  let new := (List.range bs.length).map fun i =>
    ({ pa := pa + i, byte := bs.getD i 0, ref := t, core := core, op := op, inL1 := inL1, diePub := false, stack := stack,
       atomic := atomic, seen := [], vis := if inL1 then m.uid else 0, coreAt := 0, dieAt := 0, l2 := l2, word := word } : VByte)
  { m with
    uid := m.uid + 1
    versions := new ++ m.versions }

/-- The bytes of global memory that count in a team's version (16 R249): for a team that has restarted, not those that it published at
Die class before (03 R51, log 65). -/
def Mach.versionOf (m : Mach) (team : Nat) : List VByte :=
  let since := match m.team? team with | some t => t.since | none => 0
  m.versions.filter fun b => b.owner == team && !isFold b.pa && !(b.diePub && decide (b.dieAt < since))

/-- Lines that hold bytes of a team's version (16 R249). -/
def Mach.vlines (m : Mach) (team : Nat) : Nat := ((m.versionOf team).map fun b => lineOf b.pa).dedup.length

/-- The newest byte at each address of a line, ascending. -/
def newestOn (line : Nat) (bs : List VByte) : List (Nat × Byte) :=
  (List.range 128).filterMap fun i => (bs.find? fun b => b.pa == line + i).map fun b => (line + i, b.byte)

/-- Ascending bytes as runs of consecutive addresses. -/
def runsOf : List (Nat × Byte) → List (Nat × List Byte)
  | [] => []
  | (a, b) :: rest =>
    match runsOf rest with
    | (x, bs) :: more => if x == a + 1 then (a, b :: bs) :: more else (a, [b]) :: (x, bs) :: more
    | [] => [(a, [b])]

/-- Put bytes of versions on one line at its home, the newest value of each: a core that owns the line is not recalled by its own
publication (07 R137, R384). Each writer's copy takes its own (10 R174). -/
def Mach.homeLine (m : Mach) (line : Nat) (bs : List VByte) : Mach :=
  let new := newestOn line bs
  let m := if isFold line then
      (runsOf new).foldl (fun m r => m.scratchWrite (foldTeamOf r.1) (foldOff r.1) r.2) m
    else
      let m := if bs.all fun b => m.ownerOf? line == some b.core then m else m.cohPrep line
      ({ m with mem := new.foldl (fun (mm : Memory) (p : Nat × Byte) => mm.set p.1 p.2) m.mem }).noteLine line 128
  ((bs.map (·.core)).dedup).foldl (fun m c => m.copyBytes c line (newestOn line (bs.filter fun b => b.core == c))) m

/-- The lines of some bytes. -/
def byteLines (bs : List VByte) : List Nat := (bs.map fun b => lineOf b.pa).dedup

/-- The round regions of some bytes of global memory (07 R139). -/
def regionsOf (bs : List VByte) : List Nat := ((bs.filter fun b => !isFold b.pa).map fun b => regionOf b.pa).dedup

/-- Count one round in each of some regions (07 R139). -/
def Mach.countRounds (m : Mach) (gs : List Nat) : Mach :=
  gs.foldl (fun m g => { m with rounds := setAssoc g (m.round g + 1) m.rounds }) m

/-- Whether a byte of the versions leaves them with some bytes: as one of them, or as an older one of the same core that they supersede. -/
def Mach.leaves (m : Mach) (bs : List VByte) (x : VByte) : Bool :=
  bs.any fun b => (b.pa == x.pa && sameStore b x) || superseded m.versions b x

/-- Publish the bytes of one line at its home (07 R130 Module): they leave the versions, with the older bytes of the same core that
they supersede and what other dies hold of them. -/
def Mach.publishLine (m : Mach) (line : Nat) (bs : List VByte) : Mach :=
  let here := bs.filter fun b => lineOf b.pa == line
  let m1 := (m.leaveTrail (here.map fun b => (b.pa, 1, b.core, b.vis))).homeLine line here
  { m1 with versions := m1.versions.filter fun x => !m.leaves here x }

/-- Publish bytes at their homes, and count one round in each region written (07 R130 Module, R139). -/
def Mach.publish (m : Mach) (bs : List VByte) : Mach :=
  ((byteLines bs).foldl (fun m l => m.publishLine l bs) m).countRounds (regionsOf bs)

/-- Whether a byte x stands held at a die point at the address of some byte that a release of the die places. -/
def heldUnder (die : Nat) (bs : List VByte) (x : VByte) : Bool := x.diePub && x.heldDie == die && bs.any fun b => b.pa == x.pa

/-- Whether a store's byte is at the die point of a die: held there, or for one of another die its value, or a later one of its core's. -/
def Mach.atDiePoint (m : Mach) (die : Nat) (b : VByte) : Bool :=
  if b.die == die then b.diePub
  else m.versions.any fun x => x.diePub && x.heldDie == die && x.pa == b.pa && (sameStore x b || superseded m.versions x b)

/-- Hold bytes of one line at a die point for a team (07 R132): an owner that is not their core is recalled, and bytes held there before at
the same addresses, and those superseded in the L1, are replaced. Bytes of the die's cores leave their versions for it; a byte of another
die, which the release's team has observed (R133), stays where it is, and the die holds its value too. -/
def Mach.holdLine (m : Mach) (die team line : Nat) (bs : List VByte) : Mach :=
  let near (b : VByte) : Bool := b.die == die
  let m := match m.ownerOf? line with
    | some o => if bs.all fun b => near b && b.core == o then m else m.recall line
    | none => m
  let ks := m.versions.filter fun b => bs.contains b
  let mine := ks.filter near
  let first (b : VByte) : Bool := (ks.find? fun x => x.pa == b.pa) == some b
  let gone (x : VByte) : Bool := heldUnder die ks x
    || (!(x.diePub && x.heldDie != die) && mine.any fun b => superseded m.versions b x)
  let held (x : VByte) : VByte := { x with diePub := true, heldFor := team, heldDie := die, dieAt := m.uid }
  let m := ((mine.map (·.core)).dedup).foldl (fun m c => m.copyBytes c line (newestOn line (mine.filter fun b => b.core == c))) m
  { m with
    uid := m.uid + 1
    versions := (m.versions.filter fun x => !gone x).flatMap fun (x : VByte) =>
      if mine.contains x then [held x]
      else if ks.contains x && first x then [x, { held x with atomic := false }]
      else [x] }

/-- Make the bytes of one line visible at the issuing die's die point (07 R132): those homed on the die, not of a STACK page, go
home; the rest are held for the team. -/
def Mach.publishDieLine (m : Mach) (die team line : Nat) (bs : List VByte) : Mach :=
  let atHome (b : VByte) : Bool := isFold line || (m.homeDie line == die && !b.stack && spaceOf line != 2)
  let (hs, ks) := (bs.filter fun b => lineOf b.pa == line).partition atHome
  let m := if hs.isEmpty then m else
    let m := m.publishLine line hs
    { m with versions := m.versions.filter fun x => !heldUnder die hs x }
  if ks.isEmpty then m else m.holdLine die team line ks

/-- Note the bytes a Core-class release publishes. -/
def Mach.publishCore (m : Mach) (bs : List VByte) : Mach :=
  { m with
    uid := m.uid + 1
    versions := m.versions.map fun b => if b.coreAt == 0 && bs.contains b then { b with coreAt := m.uid } else b }

/-- The stores a thread's release covers (07 R130, R133): its own issued before the word, and those it had observed by then. -/
def Mach.pubSet (m : Mach) (t : TRef) (upto : Nat) : List VByte :=
  m.versions.filter fun b =>
    (!b.diePub && b.ref == t && decide (b.op < upto)) || b.seen.any fun p => p.1 == t && decide (p.2 ≤ upto)

/-- Multicast invalidations of the peers' copies (07 R130 Domain, R137). A release covers every store that its lanes have ever made or
observed, most of which stand at their homes since earlier releases, so the model invalidates the copies of every line whose
remote-shared bit is set (log 70, DESIGN CHOICE). -/
def Mach.clearRsh (m : Mach) : Mach :=
  ((m.linemeta.filter fun p => p.2.getLsbD 0).map (·.1)).foldl (fun m l => m.setMeta l (m.meta l &&& 0xFFFE)) m

/-- A forced commit (16 R249). -/
def Mach.forceCommit (m : Mach) (team : Nat) : Mach :=
  (m.publish (m.versions.filter fun b => b.owner == team)).updTeam team fun t => { t with nr := true }

/-- Drop every unpublished byte of a team (16 R248). -/
def Mach.discard (m : Mach) (team : Nat) : Mach :=
  { m with versions := m.versions.filter fun b => b.diePub || b.ref.team != team }

/-- A team's scratchpad goes, or starts anew: lines and bytes of it named through the fold window go too. -/
def Mach.dropFold (m : Mach) (team : Nat) : Mach :=
  let mine (a : Nat) : Bool := isFold a && foldTeamOf a == team
  { m with
    l1 := m.l1.filter fun c => !mine c.line
    versions := m.versions.filter fun b => !mine b.pa
    fetches := m.fetches.filter fun f => !mine f.line }

/-! ### Hurdles (09 R170, R171) -/

/-- Write a hurdle as one indivisible update, and count it if it is partly arrived. -/
def Mach.hurdleWrite (m : Mach) (team off arrived gen expected pending : Nat) : Mach :=
  let m := m.scratchWrite team off (leBytes (arrived + gen * 2 ^ 16 + expected * 2 ^ 32 + pending * 2 ^ 64) 16)
  m.updTeam team fun t =>
    { t with hurdles := if partly t.scratch off then off :: t.hurdles.filter (· != off) else t.hurdles.filter (· != off) }

/-- A hurdle's fields: ARRIVED, GEN, EXPECTED, PENDING (09 R170). -/
def hurdleOf (mem : Memory) (off : Nat) : Nat × Nat × Nat × Nat :=
  let v := leNat (mem.read off 16)
  (v % 2 ^ 16, v / 2 ^ 16 % 2 ^ 16, v / 2 ^ 32 % 2048, v / 2 ^ 64 % 2 ^ 36)

/-- Check (09 R171): complete the generation. -/
def Mach.hurdleCheck (m : Mach) (team off arrived gen expected pending : Nat) : Mach :=
  if arrived == expected && pending == 0 then m.hurdleWrite team off 0 ((gen + 1) % 2 ^ 16) expected 0
  else m.hurdleWrite team off arrived gen expected pending

/-- Land(n) (09 R171). -/
def Mach.land (m : Mach) (team off n : Nat) : Mach :=
  match m.team? team with
  | none => m
  | some t =>
    let (a, g, e, p) := hurdleOf t.scratch off
    m.hurdleCheck team off a g e ((p + 2 ^ 36 - n % 2 ^ 36) % 2 ^ 36)

/-! ### Fault records (16 R246) -/

/-- The bits of a record. -/
def Record.bits (r : Record) (seq : Word) : Nat :=
  r.addr.toNat * 2 ^ 192 + r.inst.toNat * 2 ^ 160 + r.taskid.toNat * 2 ^ 128 + r.mask.toNat * 2 ^ 96 + r.exc.toNat * 2 ^ 64
    + r.cause * 2 ^ 56 + r.kind * 2 ^ 52 + r.core / 32 % 4 * 2 ^ 50 + r.core % 32 * 2 ^ 45 + r.tslot % 32 * 2 ^ 40
    + r.group % 32 * 2 ^ 35 + seq.toNat

/-- The 64 bytes of a context's descriptor (19 R267). -/
def Ctx.bytes (c : Ctx) : List Byte :=
  leBytes c.desc.root 8 ++ leBytes c.desc.keymask.toNat 2
    ++ leBytes (c.desc.kmode.toNat + 2 * c.desc.lright.toNat + 4 * c.desc.policy.toNat + 8 * c.desc.svcok.toNat) 1
    ++ leBytes c.desc.rlimit 1 ++ leBytes c.desc.ctxno 4 ++ leBytes c.desc.fqbase 8 ++ leBytes c.desc.fqsize 4
    ++ leBytes c.fqhead.toNat 4 ++ leBytes c.desc.fqtail.toNat 4 ++ leBytes c.fqovf.toNat 4 ++ List.replicate 24 0

/-- FQTAIL, as software has left it in the descriptor (R267). -/
def Mach.fqTail (m : Mach) (c : Ctx) : Word := BitVec.ofNat 32 (leNat (m.mem.read (c.addr + 32) 4))

/-- Write a record, published at Module class (07 R139), or count it lost when the ring is full (19 R267); FQHEAD or FQOVF in the
descriptor follows. -/
def Mach.writeRecord (m : Mach) (ctx : Nat) (r : Record) : Mach :=
  match m.ctx? ctx with
  | none => m
  | some c =>
    let m := m.cohPrep (lineOf c.addr)
    if (c.fqhead - m.fqTail c).toNat == c.desc.fqsize then
      let n := if c.fqovf == 0xFFFFFFFF#32 then c.fqovf else c.fqovf + 1
      (m.cohWrite1 (c.addr + 36) (leBytes n.toNat 4)).updCtx ctx fun c => { c with fqovf := n }
    else
      let at_ := c.desc.fqbase + 32 * (c.fqhead.toNat % c.desc.fqsize)
      let m := (m.cohWrite1 at_ (leBytes (r.bits c.fqhead) 32)).countRounds [regionOf at_]
      (m.cohWrite1 (c.addr + 28) (leBytes (c.fqhead + 1).toNat 4)).updCtx ctx fun c => { c with fqhead := c.fqhead + 1 }

/-! ### The trace buffer (20 R287) -/

/-- Where the trace buffer lies, and how many records of 16 bytes it holds before the first is overwritten (log 46). -/
def traceBase : Nat := 0x400000000
def traceRecords : Nat := 2 ^ 30

/-- Where the next record goes. -/
def Mach.traceAt (m : Mach) : Nat := traceBase + 16 * (m.trace % traceRecords)

/-- Append a record: a program counter, a lane mask and a cause. -/
def Mach.appendTrace (m : Mach) (r : DWord × Word × Nat) : Mach :=
  { m with
    trace := m.trace + 1
    mem := m.mem.write m.traceAt (leBytes r.1.toNat 8 ++ leBytes r.2.1.toNat 4 ++ leBytes r.2.2 4) }

/-! ### Team faults (16 R245) -/

/-- End the watches held through 0xFE on a team's scratchpad (09 R168). -/
def Mach.endWatches (m : Mach) (team : Nat) : Mach :=
  { m with threads := m.threads.map fun t =>
      match t.wait with
      | .waita w =>
        match w.watch with
        | .scratch u _ => if u == team && w.foreign then { (t.setPred w.k false) with wait := .woken } else t
        | _ => t
      | .hrdw u _ _ f => if u == team && f then { t with wait := .ready } else t
      | _ => t }

/-- Commands still in a team's queue, those that a save has put back among them, become commands that have ended with ABORT; parked
ones end so too, and accepted ones run on (16 R245). -/
def Mach.abortQueue (m : Mach) (team : Nat) : Mach :=
  match m.team? team with
  | none => m
  | some t =>
    let ended (c : Cmd) : Cmd := { c with parked := none, done := true, status := 0x000B, pieces := [] }
    let step (acc : Mach × Nat) (q : Nat × TRef × Word) : Mach × Nat :=
      let es := (List.range q.1).map fun i =>
        BitVec.ofNat 256 (leNat (t.qmem.read (32 * ((acc.2 + i) % 256)) 32))
      let (id, m) := acc.1.fresh
      let c : Cmd := {
        id := id, team := team, owner := q.2.1, inst := q.2.2, seq := acc.2, entries := es, next := 0, landed := 0, done := true
        status := 0x000B, badAddr := 0, pieces := [], parked := none, lat := .near, pages := [] }
      ({ m with cmds := m.cmds ++ [c] }, acc.2 + q.1)
    let (m, h) := t.qcmds.foldl step ({ m with cmds := m.cmds ++ t.returned.map ended }, t.qhead)
    let m := m.updTeam team fun t => { t with qcmds := [], returned := [], qhead := h }
    { m with cmds := m.cmds.map fun c => if c.team == team && c.parked.isSome then ended c else c }

/-- Chunks still in a tile unit, and areas waited for, are given up (13 R218). -/
def Mach.dropMerges (m : Mach) (team : Nat) : Mach :=
  { m with tileq := m.tileq.filter fun q => !(q.team == team && (match q.instr with
      | .tspl .. => true | .tfch .. => true | _ => false)) }

/-- Operations of threads that no tile operation of the queue backs any more leave their counts (09 R169). -/
def Mach.settleTiles (m : Mach) (team : Nat) : Mach :=
  { m with threads := m.threads.map fun (t : Thread) =>
      if t.ref.team == team then
        { t with ops := t.ops.filter fun o => !o.tile || m.tileq.any fun q => q.op == o.id }
      else t }

/-- The results of a team's service calls are discarded (19 R269). -/
def Mach.dropBatches (m : Mach) (team : Nat) : Mach :=
  { m with batches := m.batches.map fun (b : Batch) => if b.team == team then { b with dropped := true } else b }

/-- A team fault begins: its threads stop, what waits at merge areas is given up (13 R218), and the record waits for its operations
in flight (16 R245). TEAM_RETIRE goes on. -/
def Mach.teamFault (m : Mach) (team : Nat) (r : Record) : Mach :=
  match m.team? team with
  | none => m
  | some t =>
    if t.status == .stopping || t.status == .gone then m
    else
      let m := ((m.dropMerges team).settleTiles team).dropBatches team
      m.updTeam team fun t => { t with status := .stopping, fault := some r, fp := false, known := [], latent := [] }

/-- The operations of a faulted team have completed: the version is discarded, the queue ended, the record written, and the
context's policy decides whether the team restarts or is killed (16 R245). -/
def Mach.settleFault (m : Mach) (t : Team) (r : Record) : Mach :=
  let m := ((m.discard t.uid).abortQueue t.uid).writeRecord t.ctx r
  let restart : Bool := match m.ctx? t.ctx with
    | some c => c.desc.policy && t.rstr && !t.nr && decide (t.restarts < c.desc.rlimit) && !t.shepherd
    | none => false
  m.updTeam t.uid fun t => { t with fault := none, killed := !restart, fp := false, known := [], latent := [] }

/-- An imprecise fault is met (16 R244): it waits for the core to learn of it. -/
def Mach.meet (m : Mach) (team : Nat) (i : Imprecise) : Mach := m.updTeam team fun t => { t with latent := t.latent ++ [i] }

/-- Report an imprecise fault (16 R244): a record of kind 7, then the team fault. -/
def Mach.reportFault (m : Mach) (team : Nat) (i : Imprecise) : Mach :=
  match m.team? team with
  | none => m
  | some t => m.teamFault team {
      addr := i.addr, inst := 0, taskid := t.taskid, mask := 0, exc := 0, cause := i.cause, kind := 7
      core := t.core, tslot := t.slot, group := match i.thread with | some x => x.tidx / 32 | none => 0 }

/-- Report the first imprecise fault that the core has learned of. -/
def Mach.report (m : Mach) (team : Nat) : Mach :=
  match m.team? team with
  | some { known := i :: _, .. } => m.reportFault team i
  | _ => m

/-- The core learns of the first imprecise fault that a team has met (16 R244): FP is set and the skid of its thread begins; one
attributed to the team, or whose thread has retired meanwhile, is reported at once. -/
def Mach.detect (m : Mach) (team : Nat) : Mach :=
  match m.team? team with
  | some { latent := i :: rest, known := ks, .. } =>
    let alive : Bool := match i.thread.bind m.thread? with | some x => x.wait != .exited | none => false
    let i := { i with thread := if alive then i.thread else none }
    let m := m.updTeam team fun t => { t with latent := rest, known := ks ++ [i], fp := true }
    match i.thread with
    | none => m.reportFault team i
    | some r => if ks.any fun k => k.thread == some r then m else m.updThread r fun x => { x with skid := 0 }
  | _ => m

/-- The core learns of every imprecise fault that a team has met. -/
def Mach.detectAll (m : Mach) (team : Nat) : Mach :=
  match m.team? team with
  | none => m
  | some t => t.latent.foldl (fun m _ => m.detect team) m

/-! ### Taking an exception (16 R240, R242) -/

/-- Whether a result that handler entry waits for is outstanding. -/
def Thread.resultsDue (t : Thread) : Bool := t.ops.any fun o => o.loads

/-- Enter the handler, or make the cause a team fault when there is none (kind 8) or the lane is in one (kind 9). The spec does not say
which kind a lane gives that is in a handler and whose UTVEC is 0: the model gives 9 (log 72, DESIGN CHOICE). -/
def Mach.enter (m : Mach) (t : TRef) (i : TrapInfo) : Mach :=
  match m.thread? t, m.team? t.team with
  | some th, some tm =>
    let rec_ (k : Nat) : Record := {
      addr := i.addr, inst := i.inst, taskid := tm.taskid, mask := i.mask, exc := i.exc, cause := i.cause, kind := k
      core := tm.core, tslot := tm.slot, group := t.tidx / 32 }
    if th.handlerActive then (m.updThread t fun x => { x with wait := .ready }).teamFault t.team (rec_ 9)
    else if th.utvec == 0 then (m.updThread t fun x => { x with wait := .ready }).teamFault t.team (rec_ 8)
    else m.updThread t fun x => { x with
      fltCause := BitVec.ofNat 32 i.cause, fltPc := i.pc, fltInst := i.inst, fltMask := i.mask, fltAddr := i.addr,
      fltExc := i.exc, fltSub := i.sub, fltDst := i.dst, resume := i.resume, written := false, handlerActive := true,
      subst := none, pc := x.utvec, wait := .ready, joined := m.clk + 1 }
  | _, _ => m

/-- Take an exception: at once when no LD, LDB, AMO or ACAS result of the lane is due, else HANDLER_ENTRY enters. -/
def Mach.takeTrap (m : Mach) (t : TRef) (i : TrapInfo) : Mach :=
  match m.thread? t with
  | none => m
  | some th => if th.resultsDue then m.updThread t fun x => { x with wait := .entering i } else m.enter t i

/-- Return from the handler (16 R243), the checks passed: `pc` becomes FLT_PC when it was written, else Resume. -/
def Mach.returnTrap (m : Mach) (t : TRef) (sub : Bool) : Mach :=
  m.updThread t fun x =>
    if x.written then { x with handlerActive := false, pc := x.fltPc }
    else { x with
      handlerActive := false, pc := x.resume
      subst := if sub then some { addr := x.fltPc, dst := x.fltDst, sub := x.fltSub } else none }

/-- TASKST (16 R249). -/
def Mach.taskst (m : Mach) (t : Team) : Word :=
  BitVec.ofNat 32 (t.nr.toNat * 2 ^ 31 + t.fp.toNat * 2 ^ 30 + t.defer.toNat * 2 ^ 29 + t.restarts % 256 * 2 ^ 19
    + m.vlines t.uid % 2 ^ 19)

end Sys2Proof.Machine
end

