-- ==== Sys2Proof/Machine/Translate.lean ====
section
/-! DEFINITION. Address spaces (05 R93-R100) and translation: page-table entries, the walk, the translation caches and the
checks of 06 R107-R113. -/

namespace Sys2Proof.Machine

/-! ### Leaf entries (06 R107, R108) -/

def pteSz (b : DWord) : Nat := b.toNat / 2 ^ 60
def pteMig (b : DWord) : Bool := b.getLsbD 59
def pteExc (b : DWord) : Nat := b.toNat / 2 ^ 56 % 8
def ptePa (b : DWord) : Nat := b.toNat / 2 ^ 12 % 2 ^ 44 * 4096
def pteKey (b : DWord) : Nat := b.toNat / 2 ^ 8 % 16
def pteNc (b : DWord) : Bool := b.getLsbD 7
def pteD (b : DWord) : Bool := b.getLsbD 6
def pteA (b : DWord) : Bool := b.getLsbD 5
def pteG (b : DWord) : Bool := b.getLsbD 4
def pteU (b : DWord) : Bool := b.getLsbD 3
def pteX (b : DWord) : Bool := b.getLsbD 2
def pteW (b : DWord) : Bool := b.getLsbD 1
def pteV (b : DWord) : Bool := b.getLsbD 0

/-- Page size in bytes by SZ. -/
def pageBytes : Nat → Nat
  | 0 => 2 ^ 12 | 1 => 2 ^ 14 | 2 => 2 ^ 16 | 3 => 2 ^ 18 | 4 => 2 ^ 20 | 5 => 2 ^ 21 | 6 => 2 ^ 23 | 7 => 2 ^ 25
  | 8 => 2 ^ 27 | _ => 2 ^ 30

/-- The level of a leaf by SZ; 5 for a reserved size. -/
def leafLevel (sz : Nat) : Nat := if sz ≤ 4 then 0 else if sz ≤ 8 then 1 else if sz == 9 then 2 else 5

def Leaf.size (l : Leaf) : Nat := pageBytes (pteSz l.bits)
/-- The physical address of a virtual address in the leaf's page. -/
def Leaf.pa (l : Leaf) (va : Nat) : Nat := ptePa l.bits + va % l.size
/-- The lowest virtual address of the page. -/
def Leaf.page (l : Leaf) (va : Nat) : Nat := va / l.size * l.size

/-- Whether a leaf's address names memory: no reserved space, no peer with the module's own number, aligned (19 R273). While the Droveway
is off (20 R294) no peer is there, and the model takes such a leaf as not present (log 85, DESIGN CHOICE). The spec
gives no outcome for a leaf that names local HBM outside every stack's range, or pool space behind a port without the CXL
personality: the model lets accesses act there as on memory (log 60, DESIGN CHOICE). -/
def Mach.leafOk (m : Mach) (level : Nat) (b : DWord) : Bool :=
  let pa := ptePa b
  leafLevel (pteSz b) == level && pa % pageBytes (pteSz b) == 0 && spaceOf pa != 3
    && !(spaceOf pa == 2 && (!m.droveway || pa / 2 ^ 46 % 256 == m.module))

/-- Whether an entry is a table entry with every reserved bit zero. -/
def isTable (b : DWord) : Bool := pteSz b == 15 && b.toNat % 2 ^ 12 == 1 && b.toNat / 2 ^ 56 % 16 == 0

/-! ### The walk (06 R109, R112, R113) -/

/-- Read an entry at the coherence point; none when its line is poisoned. -/
def Mach.readPte (m : Mach) (pa : Nat) : Mach × Option DWord :=
  let (m, bs) := m.cohRead pa 8
  (m, bs.map fun b => BitVec.ofNat 64 (leNat b))

/-- The entries of a die's walk cache (06 R113): a full one gives up an entry of a free choice. -/
def Mach.putTable (m : Mach) (w : WalkEnt) : Mach :=
  let here := m.walkCache.filter fun x => x.die == w.die
  if here.length < 4096 then { m with walkCache := w :: m.walkCache }
  else
    let (k, m) := m.choose here.length
    { m with walkCache := w :: m.walkCache.filter fun x => some x != here[k]? }

/-- How a walk ends: `absent` names the level of the entry that holds no leaf or table. -/
inductive Walked where
  | leaf (l : Leaf)
  | absent (level : Nat)
  | poisoned (pa : Nat)
  deriving DecidableEq, Repr

/-- Walk from level `n - 1` whose table stands at `table`. Table entries go through the walk cache of the die. -/
def Mach.walkFrom (m : Mach) (die ctx va : Nat) : Nat → Nat → Mach × Walked
  | 0, _ => (m, .absent 0)
  | n + 1, table =>
    let pre := va / 2 ^ (12 + 9 * n)
    match m.walkCache.find? fun w => w.die == die && w.ctx == ctx && w.level == n && w.va == pre with
    | some w => m.walkFrom die ctx va n w.table
    | none =>
      let at_ := table + 8 * (pre % 512)
      match m.readPte at_ with
      | (m, none) => (m, .poisoned at_)
      | (m, some b) =>
        if !pteV b then (m, .absent n)
        else if pteSz b == 15 then
          if n == 0 || !isTable b then (m, .absent n)
          else (m.putTable { die := die, ctx := ctx, level := n, va := pre, table := ptePa b }).walkFrom die ctx va n (ptePa b)
        else if m.leafOk n b then (m, .leaf { bits := b, pte := at_, level := n })
        else (m, .absent n)

/-- A whole walk for some teams; `accessed` sets A at the entry's home (06 R112). A poisoned entry gives no leaf, and each of the
teams the imprecise fault 0x30 (05 R105), at the line's physical address (log 16). -/
def Mach.walkFor (m : Mach) (us : List Nat) (die ctx va : Nat) (accessed : Bool) : Mach × Option Leaf :=
  match m.ctx? ctx with
  | none => (m, none)
  | some c =>
    match m.walkFrom die ctx va 5 c.desc.root with
    | (m, .absent _) => (m, none)
    | (m, .poisoned pa) =>
      (us.foldl (fun m u => m.meet u { cause := 0x30, addr := BitVec.ofNat 64 (lineOf pa), thread := none }) m, none)
    | (m, .leaf l) =>
      if accessed && !pteA l.bits then
        let b := l.bits ||| 0x20#64
        (m.cohWrite1 l.pte (leBytes b.toNat 8), some { l with bits := b })
      else (m, some l)

/-- A walk on nobody's behalf. -/
def Mach.walk (m : Mach) (die ctx va : Nat) (accessed : Bool) : Mach × Option Leaf := m.walkFor [] die ctx va accessed

/-- The leaf that the tables give an address, read at the coherence point. -/
def Mach.tableLeaf (m : Mach) (ctx va : Nat) : Option Leaf := (({ m with walkCache := [] } : Mach).walk 0 ctx va false).2

/-- The leaf a cache holds for an address. -/
def Mach.cached (m : Mach) (c : Cache) (ctx va : Nat) : Option Leaf :=
  (m.tlb.find? fun e => e.cache == c && e.ctx == ctx && e.page ≤ va && va < e.page + e.bytes).map (·.leaf)

/-- The three caches in order, for a core and sub-core. -/
def Mach.lookup (m : Mach) (core sub ctx va : Nat) : Option Leaf :=
  match m.cached (.micro core sub) ctx va with
  | some l => some l
  | none => match m.cached (.core core) ctx va with
    | some l => some l
    | none => m.cached (.die (dieOf core)) ctx va

/-- The sets and ways of a translation cache (06 R113). -/
def Cache.shape : Cache → Nat × Nat
  | .micro .. => (1, 64)
  | .core _ => (256, 8)
  | .die _ => (2048, 16)

/-- The set in which an entry stands: by its page number (log 12). -/
def Tlb.set (e : Tlb) : Nat := e.page / e.bytes % e.cache.shape.1

/-- Put an entry in its cache in place of an older one of its page; a full set gives up an entry of a free choice (log 12). -/
def Mach.putTlb (m : Mach) (e : Tlb) : Mach :=
  let others := m.tlb.filter fun x => !(x.cache == e.cache && x.ctx == e.ctx && x.page == e.page)
  let here := others.filter fun x => x.cache == e.cache && x.set == e.set
  if here.length < e.cache.shape.2 then { m with tlb := e :: others }
  else
    let (k, m) := m.choose here.length
    { m with tlb := e :: others.filter fun x => some x != here[k]? }

/-- Install a leaf in a core's three caches, unless its MIG is set (06 R113). -/
def Mach.installLeaf (m : Mach) (core sub ctx va : Nat) (l : Leaf) : Mach :=
  if pteMig l.bits then m
  else ([.die (dieOf core), .core core, .micro core sub] : List Cache).foldl (fun m c =>
    m.putTlb { cache := c, ctx := ctx, page := l.page va, bytes := l.size, leaf := l }) m

/-- The sub-core a thread's group runs on (02 R22). -/
def Mach.subOf (m : Mach) (t : TRef) : Nat := match m.group? t.team (t.tidx / 32) with | some g => g.sub | none => 0

/-- Walks that a die runs at once (06 R113). -/
def Mach.running (m : Mach) (die : Nat) : List Walk := (m.walks.filter fun w => w.die == die).take 64

/-- A walk for a granule ends: each thread of its die and context that waits on its page takes the leaf, or learns that there is none, as
the teams `asks` do that joined it at once. Walks for other granules of the leaf's page were joined to it (R113). A helper causes no
team fault (02 R385). -/
def Mach.finishWalk (m : Mach) (die ctx g : Nat) (asks : List Nat) : Mach × Option Leaf :=
    let onPage (l : Option Leaf) (x : Nat) : Bool := match l with
      | some l => l.page (4096 * x) == l.page (4096 * g)
      | none => x == g
    let waits (l : Option Leaf) (t : Thread) : Bool :=
      (match t.wait with | .walk x _ => onPage l x | _ => false) &&
      (match m.team? t.ref.team with | some tm => tm.ctx == ctx && dieOf tm.core == die | none => false)
    let us := (asks ++ (m.threads.filter fun t => !t.helper && waits none t).map fun t => t.ref.team).dedup
    let (m, l) := m.walkFor us die ctx (g * 4096) true
    let m := { m with walks := m.walks.filter fun x => !(x.die == die && x.ctx == ctx && onPage l x.va) }
    let m := match l with
      | none => m
      | some l => (m.threads.filter (waits (some l))).foldl (fun (m : Mach) (t : Thread) => match m.team? t.ref.team with
          | some tm => m.installLeaf tm.core (m.subOf t.ref) ctx (g * 4096) l
          | none => m) m
    ({ m with threads := m.threads.map fun (t : Thread) =>
        match t.wait with
        | .walk x _ => if waits l t then { t with wait := .ready, inhand := (x, l) :: t.inhand } else t
        | _ => t }, l)

/-- The walk of a page completes, if its die runs it. -/
def Mach.endWalk (m : Mach) (die ctx va : Nat) : Mach :=
  if (m.running die).contains { die := die, ctx := ctx, va := va / 4096 } then (m.finishWalk die ctx (va / 4096) []).1 else m

/-- The walk in flight on a die for the page of an address (06 R113). -/
def Mach.inFlight (m : Mach) (die ctx va : Nat) : Option Walk :=
  m.walks.find? fun w => w.die == die && w.ctx == ctx && (w.va == va / 4096 ||
    match m.tableLeaf ctx va with | some l => l.page (4096 * w.va) == l.page va | none => false)

/-- A walk made at once for some teams: it joins the one for its page that is in flight, which ends, and where the die runs 64 walks its
oldest ends first (06 R113). -/
def Mach.walkIn (m : Mach) (us : List Nat) (core sub ctx va : Nat) (accessed : Bool) : Mach × Option Leaf :=
  let die := dieOf core
  let walked := match m.inFlight die ctx va with
    | some w =>
      let (m, l) := m.finishWalk die ctx w.va us
      -- what another granule's walk has read may be no page of this address, where the replicas of an entry differ
      if w.va == va / 4096 || (l.any fun (x : Leaf) => x.page (4096 * w.va) == x.page va) then (m, l) else m.walkFor us die ctx va accessed
    | none =>
      let m := if (m.running die).length < 64 then m
        else match m.running die with | w :: _ => m.endWalk die w.ctx (4096 * w.va) | [] => m
      m.walkFor us die ctx va accessed
  match walked with
  | (m, some l) => (if accessed || pteA l.bits then m.installLeaf core sub ctx va l else m, some l)
  | (m, none) => (m, none)

/-- A translation made at once: from the caches, else by a walk whose leaf is installed; XQRY's walk, which sets no A, installs
only a leaf that has it set (log 61). -/
def Mach.walkNow (m : Mach) (us : List Nat) (core sub ctx va : Nat) (accessed : Bool) : Mach × Option Leaf :=
  match m.lookup core sub ctx va with
  | some l => (m, some l)
  | none => m.walkIn us core sub ctx va accessed

/-- What translation of an access gives. -/
inductive Trans where
  | ok (l : Leaf) | absent | miss
  deriving DecidableEq, Repr

/-- A thread's translation: what its own completed walk brought, then the caches. -/
def Mach.translate (m : Mach) (tm : Team) (sub : Nat) (t : Thread) (va : Nat) : Trans :=
  match t.inhand.find? fun p => p.1 == va / 4096 with
  | some (_, some l) => .ok l
  | some (_, none) => .absent
  | none => match m.lookup tm.core sub tm.ctx va with
    | some l => .ok l
    | none => .miss

/-- R111 check 3. -/
def Mach.allowed (m : Mach) (ctx : Nat) (l : Leaf) (write exec : Bool) : Bool :=
  match m.ctx? ctx with
  | none => false
  | some c => (pteU l.bits || c.desc.kmode) && c.desc.keymask.getLsbD (pteKey l.bits) && (!write || pteW l.bits)
      && (!exec || pteX l.bits)

/-- Whether a page admits its executor (06 R116): EXC 0-3 and the page's kind. -/
def admits (b : DWord) : Bool :=
  let x := pteExc b
  if spaceOf (ptePa b) == 1 then (if pteNc b then x == 1 else x ≤ 2)
  else if pteNc b then x == 1 || x == 3 else x ≤ 3

/-- The entry a translation came from no longer stands at its home (06 R112): A and D apart. -/
def Mach.stale (m : Mach) (l : Leaf) : Bool :=
  (BitVec.ofNat 64 (leNat ((m.cohPrep (lineOf l.pte)).mem.read l.pte 8))) ||| 0x60#64 != l.bits ||| 0x60#64

/-- Set D at the first write through a translation: an OR at the entry's home (06 R112), and in the caches. -/
def Mach.setDirty (m : Mach) (l : Leaf) : Mach :=
  if pteD l.bits then m
  else
    let m := m.cohPrep (lineOf l.pte)
    let b := leNat (m.mem.read l.pte 8) ||| 0x40
    let m := m.cohWrite1 l.pte (leBytes b 8)
    { m with tlb := m.tlb.map fun (e : Tlb) =>
        if e.leaf.pte == l.pte && e.leaf.bits == l.bits then { e with leaf := { l with bits := l.bits ||| 0x40#64 } } else e }

/-- FLT_EXC (06 R120). -/
def excWord (elem opnd sexc dexc sz : Nat) (mig : Bool) : Word :=
  BitVec.ofNat 32 (elem * 2 ^ 16 + opnd * 2 ^ 14 + sexc * 2 ^ 11 + dexc * 2 ^ 8 + sz * 2 ^ 4 + mig.toNat * 2 ^ 3)

/-- FLT_EXC of a leaf. For a fetch (operand 3), which has no destination page, the destination's EXC is the fetched page's own (log
62, DESIGN CHOICE). -/
def leafExcWord (l : Leaf) (opnd : Nat) : Word :=
  excWord 0 opnd (pteExc l.bits) (pteExc l.bits) (pteSz l.bits) (pteMig l.bits)

/-! ### Spaces (05 R93, R94, R98-R100) -/

/-- Where a generic address lies. -/
inductive Where where
  | global (va : Nat)
  | scratch (team off : Nat)
  | tile (team off : Nat)
  | reg (t : TRef) (v byteOff : Nat)
  | queue (team off : Nat)
  | bad
  deriving DecidableEq, Repr

/-- Whether a team is resident, so that its arrays can be named. -/
def Team.resident (t : Team) : Bool :=
  match t.status with
  | .running | .stopping => true
  | _ => false

/-- Whether a team holds its share of its core (02 R39, R40; 16 R251). -/
def Team.occupies (t : Team) : Bool :=
  match t.status with
  | .running | .stopping | .retired => true
  | _ => false

/-- A team of the fold by its index (09 R168). The spec does not say what an access does that names a team saved to the byre: the
model finds no such team, so the access takes 0x11 (log 63, DESIGN CHOICE). -/
def Mach.foldTeam (m : Mach) (t : Team) (i : Nat) : Option Team :=
  m.teams.find? fun x => x.launch == t.launch && x.fold == t.fold && x.index == i && (x.resident || x.uid == t.uid)

/-- A team by core and team slot, of the issuer's context (05 R100). A slot that a team saved to the byre still keeps has no team here,
so that an access through the map takes 0x11; the spec does not say what it does (log 63, DESIGN CHOICE). -/
def Mach.slotTeam (m : Mach) (ctx core slot : Nat) : Option Team :=
  m.teams.find? fun x => x.core == core && x.slot == slot && x.ctx == ctx && x.resident

def inScratch (t : Team) (off n : Nat) : Where := if off + n ≤ 4096 * t.scr then .scratch t.uid off else .bad

/-- The on-chip physical map (05 R98, R99). -/
def Mach.onChip (m : Mach) (t : Team) (a n : Nat) : Where :=
  let core := a / 2 ^ 49 % 128
  let off := a % 2 ^ 46
  let at_ (w : Nat) (f : Team → Nat → Where) : Where :=
    match m.slotTeam t.ctx core (off / 2 ^ w) with
    | some x => f x (off % 2 ^ w)
    | none => .bad
  match a / 2 ^ 46 % 8 with
  | 0 => at_ 19 fun x o =>
      let ti := o / 512
      let v := o % 512 / 4
      match m.thread? { team := x.uid, tidx := ti } with
      | some _ => if o % 512 + n ≤ 4 * x.regs then .reg { team := x.uid, tidx := ti } v (o % 4) else .bad
      | none => .bad
  | 1 => at_ 22 fun x o => inScratch x o n
  | 2 => at_ 21 fun x o => if o + n ≤ 49152 * x.tiles then .tile x.uid o else .bad
  | 4 => at_ 13 fun x o => if o + n ≤ 8192 then .queue x.uid o else .bad
  | _ => .bad

/-- Resolve `n` bytes at a generic address for a team. -/
def Mach.resolve (m : Mach) (t : Team) (a n : Nat) : Where :=
  let top := a / 2 ^ 56
  if top ≤ 1 then .global (a % 2 ^ 57)
  else if top == 0xFC then (if a / 2 ^ 32 % 2 ^ 24 == 0 then inScratch t (a % 2 ^ 32) n else .bad)
  else if top == 0xFD then
    (if a / 2 ^ 21 % 2 ^ 35 == 0 && a % 2 ^ 21 + n ≤ 49152 * t.tiles then .tile t.uid (a % 2 ^ 21) else .bad)
  else if top == 0xFE then
    (if a / 2 ^ 36 % 2 ^ 20 == 0 then
      match m.foldTeam t (a / 2 ^ 32 % 16) with
      | some x => inScratch x (a % 2 ^ 32) n
      | none => .bad
    else .bad)
  else if top == 0xFF then m.onChip t a n
  else .bad

/-- The 0xFF address equivalent to a non-global place (06 R121). -/
def Mach.mapAddr (m : Mach) (w : Where) : Nat :=
  let base (u : Nat) (array width off : Nat) : Nat :=
    match m.team? u with
    | some x => 0xFF * 2 ^ 56 + x.core * 2 ^ 49 + array * 2 ^ 46 + x.slot * 2 ^ width + off
    | none => 0
  match w with
  | .scratch u o => base u 1 22 o
  | .tile u o => base u 2 21 o
  | .reg t v b => base t.team 0 19 (512 * t.tidx + 4 * v + b)
  | .queue u o => base u 4 13 o
  | _ => 0

/-- Read an on-chip array as it stands. -/
def Mach.readArray (m : Mach) (w : Where) (n : Nat) : List Byte :=
  match w with
  | .scratch u o => match m.team? u with | some x => x.scratch.read o n | none => []
  | .tile u o => match m.team? u with | some x => x.tileMem.read o n | none => []
  | .queue u o => match m.team? u with | some x => x.qmem.read o n | none => []
  | .reg t v b => match m.thread? t with
    | some x => ((leBytes (bitsOf (x.block v 5)) 20).drop b).take n
    | none => []
  | _ => []

/-- Whether an address is an on-chip register write target; registers written so take RAW (03 R58). -/
def Mach.writeReg (m : Mach) (t : TRef) (v b : Nat) (bs : List Byte) : Mach :=
  m.updThread t fun x =>
    let k := (b + bs.length + 3) / 4
    let old := leBytes (bitsOf (x.block v k)) (4 * k)
    let new := old.take b ++ bs ++ old.drop (b + bs.length)
    x.setRegs v (regsOf .raw k (leNat new))

/-- Write bytes of a team's tiles through 0xFD or array 2. The write is unordered with the team's queued tile operations, each of
which notes it (05 R101). -/
def Mach.writeTile (m : Mach) (u o : Nat) (bs : List Byte) : Mach :=
  match m.team? u with
  | none => m
  | some x =>
    let (id, m) := m.fresh
    { (m.updTeam u fun x => { x with tileMem := x.tileMem.write o bs }) with
      tileq := m.tileq.map fun (q : TileOp) =>
        if q.team == u then { q with crossed := q.crossed ++ [(id, o, x.tileMem.read o bs.length, bs)] } else q }

/-- Write an on-chip array (05 R100, R101). -/
def Mach.writeArray (m : Mach) (w : Where) (bs : List Byte) : Mach :=
  match w with
  | .scratch u o => m.scratchWrite u o bs
  | .tile u o => m.writeTile u o bs
  | .reg t v b => m.writeReg t v b bs
  | _ => m

end Sys2Proof.Machine
end

