-- ==== Sys2Proof/Machine/Operands.lean ====
section
/-! DEFINITION. Operand forms: tagged values in registers (03 R46-R57), the registers a word names (04 R78, 21 R297), its
destination (03 R57, 04 R75), and the outcome of one word in one lane (16 R239, 02 R37, R385). -/

namespace Sys2Proof.Machine

/-! ### Tagged operands -/

def Thread.tagAt (t : Thread) (r : Nat) : Tag := (t.reg r).tag

/-- The value at `r` is well formed: every register it occupies carries its tag (03 R56). -/
def Thread.formed (t : Thread) (r : Nat) : Bool :=
  (t.block r (t.tagAt r).regs).all fun v => v.tag == t.tagAt r

/-- The bits of the value at `r`, of the width of its tag. -/
def Thread.valAt (t : Thread) (r : Nat) : Nat := bitsOf (t.block r (t.tagAt r).regs)

/-- An address pair: a well-formed I64 pair (21 R297). -/
def Thread.pairAt (t : Thread) (a : Reg) : Option Nat :=
  if t.tagAt a.toNat == .i64 && t.formed a.toNat then some (t.valAt a.toNat) else none

/-- A 32-bit operand tagged I32. -/
def Thread.i32At (t : Thread) (r : Reg) : Option Nat :=
  if t.tagAt r.toNat == .i32 then some (t.reg r.toNat).bits.toNat else none

/-- The common tag of the sources `srcs`, or the cause: the first source's tag must be accepted; `regs` are the registers
that its width aligns. `alignFirst` says which of misalignment (0x01) and the other tag checks (0x02) decides first (R297,
and the entries' own pseudocode). -/
def mould (acc : Tag → Bool) (alignFirst : Bool) (srcs regs : List Nat) (t : Thread) : Except Nat Tag :=
  let tag := t.tagAt (srcs.headD 0)
  let aligned := regs.all fun r => r % tag.regs == 0
  let same := srcs.all fun r => t.tagAt r == tag && t.formed r
  if !acc tag then .error 2
  else if alignFirst then (if !aligned then .error 1 else if !same then .error 2 else .ok tag)
  else if !same then .error 2 else if !aligned then .error 1 else .ok tag

/-! ### The registers a word names -/

end Sys2Proof.Machine

namespace Sys2Proof

/-- Blocks whose first register and length the word fixes; `n` is the launch's N (04 R78, 21 R297). -/
def Instr.blocks (n : Nat) (i : Instr) : List (Nat × Nat) :=
  let r (x : Reg) : Nat × Nat := (x.toNat, 1)
  let p (x : Reg) : Nat × Nat := (x.toNat, 2)
  match i with
  | .acas d a b => [r d, p a, p b]
  | .amo d a b _ => [r d, p a, r b]
  | .apst a b _ => [p a, r b]
  | .andReg d a b | .bfx d a b | .bfi d a b | .bprm d a b | .dot4 d a b | .fadd d a b | .fsub d a b | .fmul d a b
  | .fmin d a b | .fmax d a b | .fdiv d a b | .ffma d a b | .iaddReg d a b | .isub d a b | .imul d a b
  | .imulh d a b | .imin d a b | .imax d a b | .imad d a b | .orReg d a b | .xorReg d a b | .pack d a b
  | .shfl d a b | .sel d a b _ | .shlReg d a b | .shrReg d a b | .shaReg d a b => [r d, r a, r b]
  | .andImm d a _ | .orImm d a _ | .xorImm d a _ | .clz d a | .cvt d a _ _ _ | .fcls d a | .frcp d a | .frsq d a
  | .fsqrt d a | .fex2 d a | .flg2 d a | .fsin d a | .fcos d a | .gred d a _ | .iaddImm d a _ | .iabs d a
  | .inot d a | .popc d a | .qswp d a _ | .qbrd d a _ | .shlImm d a _ | .shrImm d a _ | .shaImm d a _ => [r d, r a]
  | .br .. | .brk _ | .enrl _ | .park _ | .strk _ | .exit | .nop | .phse _ | .prel _ | .pacq _ | .rte _ | .trap _
  | .waitc .. | .xfen | .yild | .tzro .. | .tcvt .. => []
  | .call .. => [(n - 2, 2)]
  | .brx a | .ret a => [p a]
  | .dcmd c a => [(a.toNat, 8 * c.toNat)]
  | .dqry d => [r d]
  | .fset _ a b _ | .iset _ a b _ => [r a, r b]
  | .gsr d s | .ssr d s => [(d.toNat, s.regs)]
  | .hrdi d a b => [p d, p a, r b]
  | .hrda d a b => [r d, p a, r b]
  | .hrdw a b => [p a, r b]
  | .invt (.page a) => [p a]
  | .invt _ => []
  | .ld d a _ t _ | .ldb d a _ t _ | .st d a _ t _ => [(d.toNat, t.regs), p a]
  | .pfch a _ _ _ => [p a]
  | .lnch d a => [r d, p a]
  | .mov d a s => [(d.toNat, s.regs), (a.toNat, s.regs)]
  | .movh d _ | .movi d _ _ => [r d]
  | .unpk d a => [p d, r a]
  | .vote (.bal d) _ => [r d]
  | .vote _ _ => []
  | .rtag d a t => [(d.toNat, t.regs), (a.toNat, t.regs)]
  | .scpg _ a => [(a.toNat, 4)]
  | .svc _ a => [(a.toNat, 8)]
  | .time d => [p d]
  | .tmma _ a b _ _ => [(a.toNat, 8), p b]
  | .tld _ _ b | .tst _ b => [p b]
  | .trdr _ a _ | .twrr _ a _ => [(a.toNat, 8)]
  | .tscl _ a => [p a]
  | .tred _ a _ => [r a]
  | .tspl _ a b | .tfch _ a b => [r a, p b]
  | .waita _ a b _ _ => [p a, r b]
  | .xadd d a b _ c | .xsub d a b _ c | .xmul d a b _ c | .xfma d a b _ c | .xmin d a b _ c | .xmax d a b _ c =>
    [p d, p a, p b, r c]
  | .xfil d a t c => [p d, (a.toNat, t.regs), r c]
  | .xqry d a => [p d, p a]
  | .xsht d a b => [p d, p a, p b]
  | _ => []

/-- Words an instruction occupies, its extension word among them (04 R84). -/
def Instr.size : Instr → Nat
  | .movi _ _ (some _) | .waita _ _ _ _ (some _) | .tmma _ _ _ _ (some _) | .xadd .. | .xsub .. | .xmul .. | .xfma ..
  | .xmin .. | .xmax .. | .xfil .. => 2
  | _ => 1

/-- Requests a lane's word counts against the core's 8,192 (01 R15). -/
def Instr.requests : Instr → Nat
  | .ld .. | .ldb .. | .st .. | .amo .. | .acas .. | .apst .. | .xadd .. | .xsub .. | .xmul .. | .xfma .. | .xmin .. | .xmax ..
  | .xfil .. | .xsht .. | .lnch .. => 1
  | _ => 0

/-- Words that take values of the other lanes of ACTIVE (22 R330, 23 R354, 24 R372). -/
def Instr.crossLane : Instr → Bool
  | .qswp .. | .qbrd .. | .shfl .. | .vote .. | .gred .. => true
  | _ => false

/-- Tiles a word names (13 R202). -/
def Instr.tiles : Instr → List Nat
  | .tmma t .. | .tzro t _ | .tld t .. | .tst t _ | .trdr t .. | .twrr t .. | .tscl t _ | .tred t .. | .tspl t ..
  | .tfch t .. => [t.toNat]
  | .tcvt t a .. => [t.toNat, a.toNat]
  | _ => []

/-- Whether the word is experimental (13 R217). -/
def Instr.experimental : Instr → Bool
  | .tspl .. | .tfch .. => true
  | _ => false

/-- The data tag of a tile tag. -/
def TileTag.tag : TileTag → Tag
  | .i32 => .i32 | .f32 => .f32 | .f64 => .f64

end Sys2Proof

namespace Sys2Proof.Machine

/-- The tag TWRR gives the tile: that of the lowest lane's block (13 R213). -/
def tileOfTag : Tag → Option TileTag
  | .i32 => some .i32 | .f32 => some .f32 | .f64 => some .f64 | _ => none

/-- The tag a queued tile operation leaves tile `td` with; the outer option says whether it sets it, the inner whether it is
known (24 R365). -/
def TileOp.sets (q : TileOp) (td : Nat) : Option (Option TileTag) :=
  match q.instr with
  | .tzro t g | .tld t g _ | .tcvt t _ g _ => if t.toNat == td then some (some g) else none
  | .twrr t _ _ =>
    if t.toNat == td then
      match q.lanes with
      | (_, _, rs) :: _ => some (tileOfTag (rs.headD rv0).tag)
      | [] => none
    else none
  | .tfch t _ _ => if t.toNat == td then some none else none
  | _ => none

/-- Which of two tile operations of a core applies first (13 R205): by cycle, then sub-core, then the order of the queue. -/
def TileOp.first (a b : TileOp) : Bool :=
  decide (a.cycle < b.cycle) || (a.cycle == b.cycle && (decide (a.sub < b.sub) || (a.sub == b.sub && decide (a.order < b.order))))

/-- The tag a tile will hold when a tile word that a sub-core issues now applies: that of the last of its team's queued tile words before it
to set it (13 R205); none while a TFCH decides it (24 R365). -/
def Mach.tileTag (m : Mach) (tm : Team) (sub td : Nat) : Option TileTag :=
  let before (q : TileOp) : Bool := decide (q.cycle < m.clk) || decide (q.sub ≤ sub)
  match (m.tileq.filter fun q => q.team == tm.uid && before q && (q.sets td).isSome).foldl (fun (acc : Option TileOp) q => match acc with
      | some b => if b.first q then some q else acc
      | none => some q) none with
  | some q => (q.sets td).getD none
  | none => some (tm.tileTags.getD td .f32)

/-! ### Destinations -/

end Sys2Proof.Machine

namespace Sys2Proof

/-- The destination whose width the word fixes (04 R75); none when it follows a tag. -/
def Instr.fixedDst (n : Nat) (i : Instr) : Option Machine.Dst :=
  match i with
  | .bprm d .. | .dqry d | .hrda d _ _ | .lnch d _ | .vote (.bal d) _ => some (.regs d.toNat .i32 1)
  | .dot4 d .. => some (.regs d.toNat .f32 1)
  | .movh d _ => some (.regs d.toNat .i32 1)
  | .movi d _ _ => some (.regs d.toNat .i32 1)
  | .fcls d _ => some (.regs d.toNat .i32 1)
  | .frcp d _ | .frsq d _ | .fsqrt d _ | .fex2 d _ | .flg2 d _ | .fsin d _ | .fcos d _ => some (.regs d.toNat .f32 1)
  | .fset k .. | .iset k .. | .waita k .. | .vote (.all k) _ | .vote (.any k) _ | .vote (.uni k) _ => some (.pred k)
  | .gsr d s => if s == .fltSub then none else some (.regs d.toNat (if s.regs == 2 then .i64 else .i32) 1)
  | .ld d _ _ t _ | .ldb d _ _ t _ | .rtag d _ t => some (.regs d.toNat t 1)
  | .mov d _ s => some (.regs d.toNat .raw s.regs)
  | .time d | .xqry d _ => some (.regs d.toNat .i64 1)
  | .unpk d _ => some (.regs d.toNat .raw 2)
  | .call .. => some (.regs (n - 2) .i64 1)
  | .trdr _ a _ => some (.regs a.toNat .raw 8)
  | _ => none

end Sys2Proof

namespace Sys2Proof.Machine

/-- The lane whose value an exchange takes (23 R354). -/
def sourceLane (t : Thread) : Instr → Option Nat
  | .qswp _ _ x => some (t.lane ^^^ x.toNat)
  | .qbrd _ _ i => some (t.lane / 4 * 4 + i.toNat)
  | .shfl _ _ b => (t.i32At b).map fun v => v % 32
  | _ => none

/-- The thread of that lane, or one's own when the lane stands elsewhere (23 R354). -/
def laneIn (bundle : List Thread) (t : Thread) (src : Nat) : Thread := (bundle.find? fun x => x.lane == src).getD t

/-- The tag that an exchange's value carries: that of A in the source lane (23 R354). -/
def sourceTag (bundle : List Thread) (t : Thread) (i : Instr) (a : Reg) : Tag :=
  (match sourceLane t i with | some s => laneIn bundle t s | none => t).tagAt a.toNat

/-- A tag that UNPK takes (24 R370): that of each of the two registers that it writes. -/
def halfTag : Tag → Option Tag
  | .f32x2 => some .f32
  | .i64 => some .i32
  | .bf16x2 => some .bf16x2 | .f16x2 => some .f16x2 | .e4m3x4 => some .e4m3x4 | .e5m2x4 => some .e5m2x4 | .i8x4 => some .i8x4
  | .kn4x8 => some .kn4x8
  | _ => none

/-- The destination of a word in a lane of a bundle, from its tags: the common tag of R57 unless the entry names another. MOV of one
register and MOVH write one, whatever its tag, and UNPK two. -/
def dstOf (m : Mach) (n : Nat) (bundle : List Thread) (t : Thread) (i : Instr) : Dst :=
  let one (d : Reg) (tag : Tag) : Dst := .regs d.toNat tag 1
  match i with
  | .acas d _ b | .amo d _ b _ => one d (t.tagAt b.toNat)
  | .andReg d a _ | .andImm d a _ | .bfx d a _ | .bfi d a _ | .bprm d a _ | .clz d a | .fadd d a _ | .fsub d a _
  | .fmul d a _ | .fmin d a _ | .fmax d a _ | .fdiv d a _ | .ffma d a _ | .gred d a _ | .iaddReg d a _
  | .iaddImm d a _ | .isub d a _ | .imul d a _ | .imulh d a _ | .imin d a _ | .imax d a _ | .iabs d a | .imad d a _
  | .inot d a | .orReg d a _ | .orImm d a _ | .xorReg d a _ | .xorImm d a _ | .popc d a | .sel d a _ _
  | .shlReg d a _ | .shrReg d a _ | .shaReg d a _ | .shlImm d a _ | .shrImm d a _
  | .shaImm d a _ => one d (t.tagAt a.toNat)
  | .qswp d a _ | .qbrd d a _ | .shfl d a _ => one d (sourceTag bundle t i a)
  | .dot4 d a _ => one d (if t.tagAt a.toNat == .i8x4 then .i32 else .f32)
  | .cvt d a _ _ tgt => .regs d.toNat tgt (max (elemN (t.tagAt a.toNat)) (elemN tgt) / elemN tgt)
  | .pack d a _ => one d (match t.tagAt a.toNat with | .f32 => .f32x2 | .i32 => .i64 | x => x)
  | .unpk d a => .regs d.toNat ((halfTag (t.tagAt a.toNat)).getD .raw) 2
  | .mov d a s => .regs d.toNat (if s.regs == 1 && (t.tagAt a.toNat).regs == 1 then t.tagAt a.toNat else .raw) s.regs
  | .movh d _ => one d (if (t.tagAt d.toNat).regs == 1 then t.tagAt d.toNat else .raw)
  | .gsr d .fltSub => one d t.fltSub.tag
  | .call _ k neg _ => if (t.pred k) != neg then .regs (n - 2) .i64 1 else .none
  | .trdr td a _ =>
    match m.team? t.ref.team with
    | some tm => match m.tileTag tm (m.subOf t.ref) td.toNat with
      | some g => .regs a.toNat g.tag (8 / g.tag.regs)
      | none => .regs a.toNat .raw 8
    | none => .none
  | .tred td a _ =>
    match m.team? t.ref.team with
    | some tm => one a (((m.tileTag tm (m.subOf t.ref) td.toNat).getD .f32).tag)
    | none => .none
  | _ => (i.fixedDst n).getD .none

/-- The registers of a destination. -/
def Dst.span : Dst → Option (Nat × Nat)
  | .regs d t k => some (d, t.regs * k)
  | _ => Option.none

/-- Two destinations share a register or a predicate (04 R75). -/
def Dst.clash (a b : Dst) : Bool :=
  match a, b with
  | .pred j, .pred k => j == k
  | .regs .., .regs .. =>
    match a.span, b.span with
    | some (x, p), some (y, q) => decide (x < y + q) && decide (y < x + p)
    | _, _ => false
  | _, _ => false

/-- The registers a word reads or writes in a lane of a bundle, by its present tags: it waits for those still to be written (02 R25). TMMA
reads two more for KN4 (24 R368), CVT the values of its block (21 R313). -/
def touched (m : Mach) (n : Nat) (bundle : List Thread) (t : Thread) (i : Instr) : List (Nat × Nat) :=
  let grow (b : Nat × Nat) : Nat × Nat := (b.1, max b.2 (t.tagAt b.1).regs)
  let srcs := match i with
    | .tmma _ a b _ _ =>
      let block : Nat × Nat := (a.toNat, if t.tagAt a.toNat == .kn4x8 then 10 else 8)
      match t.latch with
      | some l => if l.a == a.toNat then [(b.toNat, 2)] else [block, (b.toNat, 2)]
      | none => [block, (b.toNat, 2)]
    | .cvt _ a _ _ tgt =>
      let s := t.tagAt a.toNat
      [(a.toNat, max (elemN s) (elemN tgt) / elemN s * s.regs)]
    | .acas _ a b => [(a.toNat, 2), (b.toNat, 2 * (t.tagAt b.toNat).regs)]
    | .ld _ a .. | .ldb _ a .. => [(a.toNat, 2)]
    | .mov _ a s => [(a.toNat, s.regs)]
    | .rtag _ a g => [(a.toNat, g.regs)]
    | .tscl _ a => [(a.toNat, 4)]
    | .trdr .. | .tred .. | .call .. | .time _ | .gsr .. | .movi .. | .dqry _ => []
    | _ => (i.blocks n).map grow
  srcs ++ (dstOf m n bundle t i).span.toList

/-! ### The outcome of one word in one lane -/

/-- What a word does in a lane: an effect, a cause for the handler (16 R240), a parking fault (06 R115), or a walk to wait
for (06 R113). `pre` is what stands even though the lane traps (22 R322); `alt` is the effect in a helper lane (02 R37), none
where R385 sends the helper past the chain. -/
inductive LaneOut where
  | ok (f : Mach → Mach)
  | trap (cause : Nat) (addr : DWord) (exc : Word) (sub : SubVal) (pre : Mach → Mach) (alt : Option (Mach → Mach))
  | park (cause : Nat) (addr : DWord) (exc : Word) (kind page bytes : Nat) (alt : Option (Mach → Mach))
  | miss (va : Nat)

def sub0 : SubVal := { bits := 0, tag := .raw }

/-- Default of a memory cause: 0 with the tag the destination would have received (16 R240). -/
def Dst.memSub : Dst → SubVal
  | .regs _ t _ => { bits := 0, tag := t }
  | _ => sub0

/-- Registers of zero with a tag, filling a destination. -/
def Dst.zeros (d : Dst) (tag : Tag) : List RV :=
  match d.span with
  | some (_, k) => List.replicate k { bits := 0, tag := tag }
  | Option.none => [{ bits := 0, tag := tag }]

/-- An illegal instruction found at issue. -/
def LaneOut.illegal : LaneOut := .trap 1 0 0 sub0 id none

/-- A tag mismatch; a helper's destination takes zero tagged RAW (02 R37). -/
def LaneOut.mismatch (t : TRef) (d : Dst) : LaneOut :=
  .trap 2 0 0 sub0 id (match d with
    | .none => Option.none
    | _ => some fun m => m.updThread t fun x => x.writeDst d (d.zeros .raw))

/-- The cause `mould` found. -/
def LaneOut.ofCause (c : Nat) (t : TRef) (d : Dst) : LaneOut :=
  if c == 1 then .illegal else .mismatch t d

/-- A memory cause that the handler takes. -/
def LaneOut.mem (cause : Nat) (addr : Nat) (exc : Word) (d : Dst) (alt : Option (Mach → Mach)) : LaneOut :=
  .trap cause (BitVec.ofNat 64 addr) exc d.memSub id alt

/-- Write registers of one thread. -/
def writes (t : TRef) (d : Nat) (rs : List RV) (m : Mach) : Mach := m.updThread t fun x => x.setRegs d rs

/-- A completed word that writes one value of a tag. -/
def LaneOut.value (t : TRef) (d : Nat) (tag : Tag) (v : Nat) : LaneOut := .ok (writes t d (valRegs tag v))

/-- A completed word that writes a predicate. -/
def LaneOut.predicate (t : TRef) (k : KIx) (b : Bool) : LaneOut := .ok fun m => m.updThread t fun x => x.setPred k b

/-- A completed float word: flags joined to those that stand when it writes (04 R75), one trap or the destination written (03 R63). -/
def floatOut (t : Thread) (fl : Flags) (sub : SubVal) (write : Mach → Mach) : LaneOut :=
  let r := raise t.ften fl
  let pre := fun m : Mach => m.updThread t.ref fun x => { x with ften := (raise x.ften fl).1 }
  match r.2 with
  | none => .ok fun m => write (pre m)
  | some c => .trap c 0 0 sub pre (some fun m => write (pre m))

end Sys2Proof.Machine
end

