-- ==== Sys2Proof/Machine/Chain.lean ====
section
/-! DEFINITION. Running one chain in the lanes of its bundle (04 R74-R76): decode-time checks, each lane's verdict, the
effects of the lanes that pass, traps (16 R239-R242), parking (06 R115) and what becomes of the bundle (02 R27). -/

namespace Sys2Proof.Machine

/-- One word of a chain, ready to run: `lane` judges and gives its effect in a lane from the state before the chain, `once`
what it does once for the lanes it ran in; `ctl` words take effect after every other word (04 R75). -/
structure WordSem where
  instr : Instr
  off   : Nat
  lane  : Mach → List Thread → Thread → LaneOut
  once  : List Thread → Mach → Mach
  ctl   : Bool

/-- The lanes of the issuing bundle, ascending. -/
def Mach.bundle (m : Mach) : List Thread :=
  m.cur.lanes.filterMap fun l => m.thread? { team := m.cur.team, tidx := 32 * m.cur.group + l }

/-- Word address of a word of the issuing chain. -/
def Mach.wordAddr (m : Mach) (off : Nat) : DWord := m.cur.pc + BitVec.ofNat 64 off

/-- The raw word. -/
def Mach.wordBits (m : Mach) (off : Nat) : Word := m.cur.words.getD off 0

/-- The mask of the real lanes among threads (02 R385). -/
def maskOf (ts : List Thread) : Word :=
  BitVec.ofNat 32 ((ts.filter fun t => !t.helper).foldl (fun a t => a + 2 ^ t.lane) 0)

/-- The set of lanes of threads. -/
def laneSet (ts : List Thread) : Word := BitVec.ofNat 32 (ts.foldl (fun a t => a + 2 ^ t.lane) 0)

/-! ### Checks at decode that depend on the launch (02 R23, 04 R87) -/

def staticBad (m : Mach) (tm : Team) (i : Instr) : Bool :=
  (i.blocks tm.regs).any (fun b => decide (tm.regs < b.1 + b.2)) || i.tiles.any (fun t => decide (tm.tiles ≤ t))
    || (m.k2 && i.experimental)
    || (match i, m.ctx? tm.ctx with
        | .invt _, some c | .xsht .., some c => !c.desc.kmode
        | .lnch .., some c => !(c.desc.lright || c.desc.kmode)
        | _, _ => false)

/-- Whether two words write one register or predicate for every tag their sources may carry (04 R75, 21 R308). -/
def fixedClash (m : Mach) (n : Nat) (t : Thread) (a b : Instr) : Bool :=
  let least (i : Instr) : Dst := match i.fixedDst n with
    | some d => d
    | none => dstOf m n [] { t with regs := [] } i
  match a.fixedDst n, b.fixedDst n with
  | some x, some y => x.clash y
  | _, _ => match a, b with
    | .call .., _ | _, .call .. => (least a).clash (least b)
    | _, _ => false

/-- The lowest word that a decode-time check of the launch strikes. -/
def firstStatic (m : Mach) (tm : Team) (t : Thread) : List Instr → List WordSem → Option WordSem
  | _, [] => none
  | before, w :: rest =>
    if staticBad m tm w.instr || before.any (fun i => fixedClash m tm.regs t i w.instr) then some w
    else firstStatic m tm t (before ++ [w.instr]) rest

/-! ### Verdicts -/

/-- What a chain does in a lane. -/
inductive Verdict where
  | pass (fs : List (Mach → Mach))
  | skip
  | trap (w : WordSem) (cause : Nat) (addr : DWord) (exc : Word) (sub : SubVal) (pre : Mach → Mach)
  | park (w : WordSem) (cause : Nat) (addr : DWord) (exc : Word) (kind page bytes : Nat)
  | miss (va : Nat)

/-- The effect that RTE.sub puts in place of the faulted word (16 R243). -/
def Subst.write (s : Subst) (t : TRef) (m : Mach) : Mach :=
  match s.dst with
  | .none => m
  | .pred k => m.updThread t fun x => x.setPred k (s.sub.bits.getLsbD 0)
  | .regs d _ vals =>
    m.updThread t fun x => x.setRegs d ((List.replicate vals (valRegs s.sub.tag s.sub.bits.toNat)).flatten)

/-- Whether RTE.sub replaces a word in a lane. -/
def Mach.replaced (m : Mach) (t : Thread) (off : Nat) : Bool :=
  match t.subst with
  | some s => s.addr == m.wordAddr off
  | none => false

/-- One word's destination and outcome in a lane. -/
def wordOut (m : Mach) (n : Nat) (bundle : List Thread) (t : Thread) (w : WordSem) : Dst × LaneOut :=
  match t.subst with
  | some s => if s.addr == m.wordAddr w.off then (s.dst, .ok (s.write t.ref)) else (dstOf m n bundle t w.instr, w.lane m bundle t)
  | none => (dstOf m n bundle t w.instr, w.lane m bundle t)

/-- A lane's verdict: the lowest failing word decides (16 R239); `dsts` are the destinations of the words before. -/
def judge (m : Mach) (n : Nat) (bundle : List Thread) (t : Thread) :
    List Dst → List (Mach → Mach) → List WordSem → Verdict
  | _, fs, [] => .pass fs.reverse
  | dsts, fs, w :: rest =>
    let o := wordOut m n bundle t w
    let go (f : Mach → Mach) : Verdict := judge m n bundle t (o.1 :: dsts) (f :: fs) rest
    if dsts.any (fun d => d.clash o.1) then
      if t.helper then .skip else .trap w 1 0 0 sub0 id
    else
      match o.2 with
      | .ok f => go f
      | .trap c a e s p alt =>
        if t.helper then (match alt with | some f => go f | none => .skip) else .trap w c a e s p
      | .park c a e k pg b alt =>
        if t.helper then (match alt with | some f => go f | none => .park w c a e k pg b) else .park w c a e k pg b
      | .miss va => .miss va

/-! ### Effects -/

/-- Move lanes past the chain. -/
def Mach.advance (m : Mach) (ts : List TRef) (after : DWord) : Mach :=
  { m with threads := m.threads.map fun (x : Thread) =>
      if ts.contains x.ref then
        { x with
          pc := after, yielded := false, lastIssue := m.clk, issued := m.clk, subst := none, inhand := [], taken := false
          skid := x.skid + 1, joined := 0 }
      else x }

/-- Apply one word in the lanes that pass, in ascending lane order, then once for those in which RTE.sub has not replaced it, if there are
any (16 R243). -/
def applyWord (m0 : Mach) (passing : List (Thread × List (Mach → Mach))) (w : WordSem) (ix : Nat) (m : Mach) : Mach :=
  let m := passing.foldl (fun m p => (p.2.getD ix id) m) m
  let ts := (passing.filter fun p => !m0.replaced p.1 w.off).map (·.1)
  if ts.isEmpty then m else w.once ts m

/-- Apply a chain: control words last (04 R75). The spec gives no order to the FTEN writes of an SSR and of a floating-point word in one
chain: the model writes in word order, so that a later SSR drops the flags that the earlier word raised and an earlier one keeps the
later word's (log 74, DESIGN CHOICE). -/
def applyChain (m0 : Mach) (ws : List WordSem) (passing : List (Thread × List (Mach → Mach))) (m : Mach) : Mach :=
  let ix := ws.zipIdx
  let m := (ix.filter fun p => !p.1.ctl).foldl (fun m p => applyWord m0 passing p.1 p.2 m) m
  (ix.filter fun p => p.1.ctl).foldl (fun m p => applyWord m0 passing p.1 p.2 m) m

/-- Take the traps of a chain: FLT_MASK holds the lanes that trapped on the same word (16 R240). -/
def takeTraps (m0 : Mach) (n : Nat) (failing : List (Thread × Verdict)) (m : Mach) : Mach :=
  failing.foldl (fun m p =>
    match p.2 with
    | .trap w c a e s pre =>
      let same := failing.filter fun q => match q.2 with | .trap v .. => v.off == w.off | _ => false
      let info : TrapInfo := {
        cause := c, pc := m0.wordAddr w.off, inst := m0.wordBits w.off, mask := maskOf (same.map (·.1)), addr := a
        exc := e, sub := s, dst := dstOf m0 n m0.bundle p.1 w.instr, resume := m0.cur.pc }
      (pre m).takeTrap p.1.ref info
    | _ => m) m

/-- A fault that parks a lane: its word, cause, address, FLT_EXC, access kind, page and page size. -/
structure Park where
  thread : Thread
  off    : Nat
  cause  : Nat
  addr   : DWord
  exc    : Word
  kind   : Nat
  page   : Nat
  bytes  : Nat

/-- Park lanes: one record for each page and cause (06 R115). -/
def parkLanes (m0 : Mach) (tm : Team) (ps : List Park) (m : Mach) : Mach :=
  let keys := (ps.map fun p => (p.page, p.cause)).dedup
  keys.foldl (fun m k =>
    let here := ps.filter fun p => p.page == k.1 && p.cause == k.2
    match here with
    | [] => m
    | q :: _ =>
      let mask := maskOf (here.map (·.thread))
      let m := here.foldl (fun m p => m.updThread p.thread.ref fun x =>
        let x := { x with wait := .parked { cause := p.cause, addr := p.addr.toNat % 2 ^ 57, page := p.page, bytes := p.bytes } }
        if x.helper || x.handlerActive then x
        else { x with
          fltCause := BitVec.ofNat 32 p.cause, fltPc := m0.wordAddr p.off, fltInst := m0.wordBits p.off,
          fltMask := mask, fltAddr := p.addr, fltExc := p.exc }) m
      m.writeRecord tm.ctx {
        addr := q.addr, inst := m0.wordBits q.off, taskid := tm.taskid, mask := mask, exc := q.exc, cause := q.cause
        kind := q.kind, core := tm.core, tslot := tm.slot, group := m0.cur.group }) m

def parksOf (failing : List (Thread × Verdict)) : List Park :=
  failing.filterMap fun p => match p.2 with
    | .park w c a e k pg b => some {
        thread := p.1, off := w.off, cause := c, addr := a, exc := e, kind := k, page := pg, bytes := b }
    | _ => none

/-- Start or join walks for the lanes that miss (06 R113): each holds the request entries that its chain asks for (01 R15). -/
def startWalks (tm : Team) (asked : Nat) (failing : List (Thread × Verdict)) (m : Mach) : Mach :=
  failing.foldl (fun m p =>
    match p.2 with
    | .miss va =>
      let k : Walk := { die := dieOf tm.core, ctx := tm.ctx, va := va / 4096 }
      let m := if m.walks.contains k then m else { m with walks := m.walks ++ [k] }
      m.updThread p.1.ref fun x => { x with wait := .walk (va / 4096) asked }
    | _ => m) m

/-! ### Bundles (02 R27) -/

/-- Lanes by program counter and side of a branch. -/
def partitionPc : List Thread → List ((DWord × Bool) × List Thread)
  | [] => []
  | t :: ts =>
    let rest := partitionPc ts
    let key := (t.pc, t.taken)
    if rest.any (fun p => p.1 == key) then rest.map fun p => if p.1 == key then (p.1, t :: p.2) else p
    else (key, [t]) :: rest

/-- Ready threads among some. -/
def Mach.readyOf (m : Mach) (ts : List TRef) : List Thread :=
  ts.filterMap fun r => match m.thread? r with
    | some t => if t.wait == .ready then some t else none
    | none => none

/-- After a chain the issuing bundle is what became of its lanes: those that went on, by program counter, and those that entered a
handler, which form one bundle at one address (16 R240). A lane that PARK has taken out of the bundle is no longer among `cur.lanes`. -/
def Mach.rebundle (m : Mach) (went trapped : List TRef) : Mach :=
  let stay := went.filter fun r => m.cur.lanes.contains (r.tidx % 32)
  let parts := (partitionPc (m.readyOf stay)).map (fun p => laneSet p.2) ++
    (partitionPc ((m.readyOf trapped).map fun (t : Thread) => { t with taken := false })).map (fun p => laneSet p.2)
  let old := BitVec.ofNat 32 (m.cur.lanes.foldl (fun a l => a + 2 ^ l) 0)
  m.updGroup m.cur.team m.cur.group fun g => { g with bundles := (g.bundles.filter fun b => b &&& old == 0) ++ parts }

/-- A team that has learned of an imprecise fault reports it when the thread it is attributed to has issued 64 chains since
(16 R244). -/
def Mach.skidReport (m : Mach) : Mach :=
  match m.team? m.cur.team with
  | none => m
  | some tm =>
    match tm.known.find? fun i => match i.thread.bind m.thread? with | some x => decide (64 ≤ x.skid) | none => false with
    | some i => m.reportFault tm.uid i
    | none => m

/-! ### The chain -/

/-- A chain has issued in some lanes that it stops (15 R235, 16 R244): one that traps or parks counts like one that goes on. -/
def Mach.countIssue (m : Mach) (ts : List TRef) : Mach :=
  { m with threads := m.threads.map fun (x : Thread) => if ts.contains x.ref then
      { x with yielded := false, lastIssue := m.clk, issued := m.clk, skid := x.skid + 1, joined := 0 } else x }

/-- Every lane of some takes an illegal-instruction trap at one word; helpers go past the chain (02 R385). -/
def bundleTrap (m : Mach) (tm : Team) (bundle : List Thread) (w : WordSem) (after : DWord) : Mach :=
  let failing := (bundle.filter fun t => !t.helper).map fun t => (t, Verdict.trap w 1 0 0 sub0 id)
  let helpers := (bundle.filter fun t => t.helper).map (·.ref)
  let m1 := takeTraps m tm.regs failing ((m.advance helpers after).countIssue (failing.map (·.1.ref)))
  (m1.rebundle helpers (failing.map (·.1.ref))).skidReport

/-- A page that a lane of the group still walks for at this chain, in this issue or an earlier one. -/
def Mach.walking (m : Mach) (vs : List (Thread × Verdict)) : Option Nat :=
  match vs.findSome? fun p => match p.2 with | .miss va => some va | _ => none with
  | some va => some va
  | none => m.threads.findSome? fun t =>
    if t.ref.team == m.cur.team && t.group == m.cur.group && t.pc == m.cur.pc then
      match t.wait with | .walk g _ => some (4096 * g) | _ => none
    else none

/-- The parked faults of one chain are combined (06 R115), so a lane that would park waits for the chain's walks; where a word of the
chain takes values of other lanes, each lane waits, so that the word finds them all in ACTIVE (23 R354). A chain of one such word walks
for no page. -/
def Mach.joinWalks (m : Mach) (ws : List WordSem) (vs : List (Thread × Verdict)) : List (Thread × Verdict) :=
  let together := decide (1 < ws.length) && ws.any fun w => w.instr.crossLane
  match m.walking vs with
  | none => vs
  | some va => vs.map fun p => match p.2 with
    | .park .. => (p.1, .miss va)
    | .pass _ => if together then (p.1, .miss va) else p
    | _ => p

/-- What a chain does in a lane: a word that the launch rules out strikes every lane (04 R87), but one in which RTE.sub has
replaced it; helpers go past the chain (02 R385). `struck` is the word that strikes a lane without a substitute. -/
def verdictOf (m : Mach) (tm : Team) (bundle : List Thread) (ws : List WordSem) (struck : Option WordSem) (t : Thread) : Verdict :=
  match (if t.subst.isNone then struck else firstStatic m tm t [] (ws.filter fun w => !m.replaced t w.off)) with
  | some w => if t.helper then .skip else .trap w 1 0 0 sub0 id
  | none => judge m tm.regs bundle t [] [] ws

/-- A chain's verdicts in its lanes. -/
def verdicts (ws : List WordSem) (m : Mach) : List (Thread × Verdict) :=
  match m.team? m.cur.team with
  | none => []
  | some tm =>
    let struck := match m.bundle with | t0 :: _ => firstStatic m tm t0 [] ws | [] => none
    m.joinWalks ws (m.bundle.map fun t => (t, verdictOf m tm m.bundle ws struck t))

/-- Run a chain of `len` words on the machine. -/
def runChain (ws : List WordSem) (len : Nat) (m : Mach) : Mach :=
  match m.team? m.cur.team with
  | none => m
  | some tm =>
    let vs := verdicts ws m
    let passing := vs.filterMap fun p => match p.2 with | .pass fs => some (p.1, fs) | _ => none
    let skips := vs.filterMap fun p => match p.2 with | .skip => some p.1.ref | _ => none
    let failing := vs.filter fun p => match p.2 with | .pass _ | .skip => false | _ => true
    let went := passing.map (·.1.ref)
    let stopped := (failing.filter fun p => match p.2 with | .miss _ => false | _ => true).map (·.1.ref)
    let m1 := (m.advance (went ++ skips) (m.wordAddr len)).countIssue stopped
    let m2 := if passing.isEmpty then m1 else applyChain m ws passing m1
    let m3 := startWalks tm (ws.map fun w => w.instr.requests).sum failing (parkLanes m tm (parksOf failing) (takeTraps m tm.regs failing m2))
    (m3.rebundle (went ++ skips) (failing.map (·.1.ref))).skidReport

/-- The lanes that a chain takes, but those that still wait for a translation, and the cause in the lowest that fails, 0 when
none does. -/
def traceOf (ws : List WordSem) (m : Mach) : List Thread × Nat :=
  let vs := (verdicts ws m).filter fun p => match p.2 with | .miss _ => false | _ => true
  (vs.map (·.1), (vs.findSome? fun p => match p.2 with
    | .trap _ c .. => some c
    | .park _ c .. => some c
    | _ => none).getD 0)

/-- What marks a return in the record of a chain that RET ends (23 R355; log 46). -/
def returnMark (ws : List WordSem) : Nat := if ws.any fun w => match w.instr with | .ret _ => true | _ => false then 0x100 else 0

/-- Run a chain and, in TRACE, append its record: PC, lane mask and cause, with RET's mark (20 R287); only the PC when the module is
SEALED (R288). -/
def runChainIn (ws : List WordSem) (len : Nat) (s : State) : State :=
  let m := runChain ws len s.m
  if s.sys.debug == .trace then
    let (ts, cause) := traceOf ws s.m
    let r := if s.sys.security == .openState then (s.m.cur.pc, laneSet ts, cause + returnMark ws) else (s.m.cur.pc, 0, 0)
    { s with m := if ts.isEmpty then m else m.appendTrace r }
  else { s with m := m }

/-- Run one word as a chain of its own. -/
def runWord (w : WordSem) (s : State) : Host.Outcome State Fault Refusal :=
  .next (runChainIn [w] w.instr.size s)

/-! ### Making words -/

/-- A word that acts lane by lane. -/
def laneWord (i : Instr) (f : Mach → List Thread → Thread → LaneOut) : WordSem where
  instr := i
  off := 0
  lane := f
  once := fun _ m => m
  ctl := false

/-- A word that transfers control or holds (04 R75). -/
def ctlWord (i : Instr) (f : Mach → List Thread → Thread → LaneOut) (once : List Thread → Mach → Mach) : WordSem where
  instr := i
  off := 0
  lane := f
  once := once
  ctl := true

end Sys2Proof.Machine
end

