-- ==== Sys2Proof/Machine/Rejoin.lean ====
section
/-! DEFINITION. Rejoin masks: ENRL, PARK, STRK (02 R30-R35). -/

namespace Sys2Proof.Machine

/-- Free every parked lane of mask `n` (R32): those of one address are from here on in one bundle (R24). -/
def Mach.releaseMask (m : Mach) (team group n : Nat) : Mach :=
  let m := { m with threads := m.threads.map fun (t : Thread) =>
      if t.ref.team == team && t.group == group && t.wait == Wait.held n then { t with
        wait := .ready
        issued := m.clk } else t }
  m.updGroup team group fun g => { g with e := g.e.set n 0, p := g.p.set n 0 }

/-- ENRL's effect on a group (R32). -/
def Mach.enrol (m : Mach) (team group n : Nat) (lanes : Word) : Mach :=
  m.updGroup team group fun g => { g with e := g.e.set n (g.e.getD n 0 ||| lanes) }

/-- STRK's effect on a group (R32). -/
def Mach.strike (m : Mach) (team group n : Nat) (lanes : Word) : Mach :=
  match m.group? team group with
  | none => m
  | some g =>
    let e := g.e.getD n 0 &&& ~~~lanes
    let p := g.p.getD n 0 &&& ~~~lanes
    let m := m.updGroup team group fun g => { g with e := g.e.set n e, p := g.p.set n p }
    if e != 0 && p == e then m.releaseMask team group n else m

/-- PARK's effect on a group (R32): the lanes it holds leave their bundle, and lanes released together are then ready at one
PC and join one bundle (R24). -/
def Mach.park (m : Mach) (team group n : Nat) (lanes : Word) : Mach :=
  match m.group? team group with
  | none => m
  | some g =>
    let e := g.e.getD n 0
    let w := lanes &&& e
    let p := g.p.getD n 0 ||| w
    let m := m.updGroup team group fun g => { g with
      p := g.p.set n p
      bundles := (g.bundles.map fun b => b &&& ~~~w).filter fun b => b != 0 }
    let m := { m with
      cur := { m.cur with lanes := m.cur.lanes.filter fun l => !w.getLsbD l }
      threads := m.threads.map fun (t : Thread) =>
        if t.ref.team == team && t.group == group && w.getLsbD t.lane then { t with wait := .held n } else t }
    if p == e then m.releaseMask team group n else m

/-- ENRL (R31, R32). -/
def enrlSem (n : JIx) : WordSem :=
  ctlWord (.enrl n) (fun _ _ _ => .ok id) fun ts m => m.enrol m.cur.team m.cur.group n.toNat (laneSet ts)

def execEnrl (n : JIx) (s : State) : Host.Outcome State Fault Refusal :=
  runWord (enrlSem n) s

/-- PARK (R31, R32). -/
def parkSem (n : JIx) : WordSem :=
  ctlWord (.park n) (fun _ _ _ => .ok id) fun ts m => m.park m.cur.team m.cur.group n.toNat (laneSet ts)

def execPark (n : JIx) (s : State) : Host.Outcome State Fault Refusal :=
  runWord (parkSem n) s

/-- STRK (R31, R32). -/
def strkSem (n : JIx) : WordSem :=
  ctlWord (.strk n) (fun _ _ _ => .ok id) fun ts m => m.strike m.cur.team m.cur.group n.toNat (laneSet ts)

def execStrk (n : JIx) (s : State) : Host.Outcome State Fault Refusal :=
  runWord (strkSem n) s

end Sys2Proof.Machine
end

