-- ==== Sys2Proof/Machine/Preempt.lean ====
section
/-! DEFINITION. Retiring threads (02 R34, R38-R40) and beginning to pre-empt a team (16 R250-R252). -/

namespace Sys2Proof.Machine

/-- A thread retires (02 R39): it is struck from every mask of its group (R34). -/
def Mach.retireThread (m : Mach) (t : TRef) : Mach :=
  let lane := 1#32 <<< (t.tidx % 32)
  let m := m.updThread t fun x => { x with wait := .exited }
  (List.range 8).foldl (fun m n => m.strike t.team (t.tidx / 32) n lane) m

/-- Helpers of a quad whose last real thread has exited (02 R38). -/
def Mach.idleHelpers (m : Mach) (team group : Nat) : List TRef :=
  let here := m.threads.filter fun t => t.ref.team == team && t.group == group
  (here.filter fun t => t.helper && t.wait != .exited &&
    !here.any (fun r => !r.helper && r.lane / 4 == t.lane / 4 && r.wait != .exited)).map (·.ref)

/-- A group whose every thread has retired retires: its rejoin masks and its latches go (02 R39, 13 R209). -/
def Mach.retireGroup (m : Mach) (team group : Nat) : Mach :=
  if m.threads.any (fun t => t.ref.team == team && t.group == group && t.wait != .exited) then m
  else
    let m := { m with threads := m.threads.map fun (t : Thread) =>
      if t.ref.team == team && t.group == group then { t with latch := none } else t }
    m.updGroup team group fun g => { g with
      retired := true, bundles := [], e := List.replicate 8 0, p := List.replicate 8 0 }

/-- EXIT of some lanes of a group (02 R34, R38-R40): each is struck, then helpers left alone in their quad retire, then the
group if none is left, then the team when its last group has. -/
def Mach.exitLanes (m : Mach) (team group : Nat) (ts : List TRef) : Mach :=
  let m := ts.foldl (fun m t => m.retireThread t) m
  let m := (m.idleHelpers team group).foldl (fun m t => m.retireThread t) m
  let m := m.retireGroup team group
  if m.groups.all (fun g => g.team != team || g.retired) then
    m.updTeam team fun t => if t.status == .running then { t with status := .retired } else t
  else m

/-- The method R250 chooses: E the time since the team started, G its groups and g those retired. -/
def Mach.methodFor (m : Mach) (t : Team) : Method :=
  let e := m.clk - t.startClk
  let gs := m.groups.filter fun g => g.team == t.uid
  let r := (gs.filter fun g => g.retired).length
  if t.idem && decide (e < Config.usCycles 20) then .flush
  else if decide (1 ≤ r) && decide (e * (gs.length - r) ≤ Config.usCycles 200 * r) then .drain
  else .save

/-- Begin a pre-emption by a method: drain lets the team run on; flush and save wait while a hurdle is partly arrived (R252);
flush ends the queued commands (R251), gives up what waits at merge areas (13 R218) and discards the results of service calls. -/
def Mach.beginPreempt (m : Mach) (u : Nat) (me : Method) (forced : Bool) : Mach :=
  match m.team? u with
  | none => m
  | some t =>
    let put (d : Option Nat) : Mach := m.updTeam u fun t => { t with
      preempt := some { method := me, since := m.clk, defer := d, forced := forced }, defer := d.isSome }
    if t.status != .running then m
    else if me == .drain then put none
    else if !t.hurdles.isEmpty then put (some m.clk)
    else if me == .flush then ((((put none).abortQueue u).dropMerges u).settleTiles u).dropBatches u
    else put none

/-- A request to pre-empt a team (R250): the method is chosen unless one is under way. -/
def Mach.requestPreempt (m : Mach) (u : Nat) : Mach :=
  match m.team? u with
  | none => m
  | some t => if t.preempt.isSome then m else m.beginPreempt u (m.methodFor t) false

/-- Whether a team's threads issue: it runs, and no flush or save has stopped it. -/
def Team.issues (t : Team) : Bool :=
  t.status == .running && (match t.preempt with
    | some { method := .drain, .. } => true
    | some { defer := some _, .. } => true
    | some _ => false
    | none => true)

end Sys2Proof.Machine
end

