-- ==== Sys2Proof/Machine/Control.lean ====
section
/-! DEFINITION. Control words: branches, calls, returns, traps, breakpoints, waits on counts, the end of a thread (02 R27, R29,
R38-R40; 04 R81, R82; 16 R243; 21 R307-R310, R319; 23 R355, R357; 24 R369, R374, R379, R382). -/

namespace Sys2Proof.Machine

/-! ### Branches -/

/-- Where a branch word of the issuing chain goes: 3 (P + disp); none below word address 0 (R81, R307). -/
def branchTarget (m : Mach) (disp : BitVec 19) : Option DWord :=
  let p : Int := (m.cur.pc.toNat / 3 : Nat) + disp.toInt
  if p < 0 then none else some (BitVec.ofNat 64 (3 * p.toNat))

/-- Whether the lane takes the branch. -/
def takes (t : Thread) (k : KIx) (neg : Bool) : Bool := t.pred k != neg

/-- The part R29 prefers of a split into the lanes that take a branch and those that fall through. -/
def preferred (h : BrHint) (taken through : List Thread) : Word :=
  match h with
  | .lk => laneSet taken
  | .un => laneSet through
  | _ =>
    let low (ts : List Thread) : Nat := (ts.map fun t => t.lane).foldl min 32
    if taken.length > through.length then laneSet taken
    else if taken.length < through.length then laneSet through
    else if low taken < low through then laneSet taken else laneSet through

/-- Note the preferred part when the branch splits its bundle (R27, R29). -/
def notePref (h : BrHint) (k : KIx) (neg : Bool) (ts : List Thread) (m : Mach) : Mach :=
  let a := ts.filter fun t => takes t k neg
  let b := ts.filter fun t => !takes t k neg
  if a.isEmpty || b.isEmpty then m
  else m.updGroup m.cur.team m.cur.group fun g => { g with pref := some (preferred h a b), prefClk := m.clk }

/-- BR (R307). -/
def brSem (h : BrHint) (k : KIx) (n : Bool) (disp : BitVec 19) : WordSem :=
  ctlWord (.br h k n disp) (fun m _ t =>
    if !takes t k n then .ok id
    else match branchTarget m disp with
      | none => .mem 0x11 0 0 .none none
      | some pc => .ok fun m => m.updThread t.ref fun x => { x with pc := pc, taken := true }) (notePref h k n)

def execBr (h : BrHint) (k : KIx) (n : Bool) (disp : BitVec 19) (s : State) : Host.Outcome State Fault Refusal :=
  runWord (brSem h k n disp) s

/-- The first register of the link pair (R308). -/
def Thread.link (t : Thread) : Nat := t.regs.length - 2

/-- CALL (R307, R308): the link pair takes slot 0 of the packet after its own. -/
def callSem (h : BrHint) (k : KIx) (n : Bool) (disp : BitVec 19) : WordSem :=
  ctlWord (.call h k n disp) (fun m _ t =>
    if !takes t k n then .ok id
    else match branchTarget m disp with
      | none => .mem 0x11 0 0 (.regs t.link .i64 1) none
      | some pc => .ok fun m => m.updThread t.ref fun x =>
          { (x.setRegs t.link (valRegs .i64 (3 * (m.cur.pc.toNat / 3 + 1)))) with pc := pc, taken := true }) (notePref h k n)

def execCall (h : BrHint) (k : KIx) (n : Bool) (disp : BitVec 19) (s : State) : Host.Outcome State Fault Refusal :=
  runWord (callSem h k n disp) s

/-- A jump to the word address in a pair (R310). -/
def jumpLane (a : Reg) (t : Thread) : LaneOut :=
  match t.pairAt a with
  | none => .mismatch t.ref .none
  | some v =>
    if v % 3 != 0 then .trap 0x20 (BitVec.ofNat 64 v) 0 sub0 id none
    else .ok fun m => m.updThread t.ref fun x => { x with pc := BitVec.ofNat 64 v }

/-- The largest part, then the one with the lowest lane. -/
def largest : List (List Thread) → List Thread
  | [] => []
  | p :: ps =>
    let q := largest ps
    let low (ts : List Thread) : Nat := (ts.map fun t => t.lane).foldl min 32
    if p.length > q.length || (p.length == q.length && decide (low p < low q)) then p else q

/-- Lanes with equal targets form one bundle; the largest is preferred (R310). -/
def noteTargets (ts : List Thread) (m : Mach) : Mach :=
  let parts := (partitionPc (m.readyOf (ts.map (·.ref)))).map (·.2)
  if parts.length ≤ 1 then m
  else m.updGroup m.cur.team m.cur.group fun g => { g with pref := some (laneSet (largest parts)), prefClk := m.clk }

/-- BRX (R310). -/
def brxSem (a : Reg) : WordSem := ctlWord (.brx a) (fun _ _ t => jumpLane a t) noteTargets

def execBrx (a : Reg) (s : State) : Host.Outcome State Fault Refusal :=
  runWord (brxSem a) s

/-- RET (R355): BRX's effect. -/
def retSem (a : Reg) : WordSem := ctlWord (.ret a) (fun _ _ t => jumpLane a t) noteTargets

def execRet (a : Reg) (s : State) : Host.Outcome State Fault Refusal :=
  runWord (retSem a) s

/-! ### Traps and their return -/

/-- TRAP (R369). -/
def trapSem (code : BitVec 7) : WordSem :=
  ctlWord (.trap code) (fun _ _ _ => .trap 0x40 (code.setWidth 64) 0 sub0 id none) fun _ m => m

def execTrap (code : BitVec 7) (s : State) : Host.Outcome State Fault Refusal :=
  runWord (trapSem code) s

/-- Whether FLT_SUB fits one value of the faulted word's destination (R243). -/
def subFits (t : Thread) : Bool :=
  match t.fltDst with
  | .regs _ g _ => t.fltSub.tag.width == g.width
  | _ => true

/-- RTE and RTE.sub (R243, R357). With Written set, the destination takes FLT_SUB before the jump to FLT_PC. A real lane whose
HandlerActive is clear strikes the bundle (log 73), unless RTE.sub has replaced this very word there. -/
def rteSem (sub : Bool) : WordSem :=
  ctlWord (.rte sub) (fun m bundle t =>
    let skips (u : Thread) : Bool := match u.subst with
      | some s => [m.wordBits (s.addr - m.cur.pc).toNat &&& 0x7FFFFFFF#32] == encode (.rte sub)
      | none => false
    if !t.handlerActive || bundle.any fun u => !u.helper && !u.handlerActive && !skips u then .illegal
    else if sub && !subFits t then .trap 2 0 0 sub0 id none
    else if t.written && t.fltPc.toNat % 3 != 0 then .trap 0x20 t.fltPc 0 sub0 id none
    else .ok fun m =>
      let m := if sub && t.written then
          ({ addr := t.fltPc, dst := t.fltDst, sub := t.fltSub } : Subst).write t.ref m
        else m
      m.returnTrap t.ref sub) noteTargets

def execRte (sub : Bool) (s : State) : Host.Outcome State Fault Refusal :=
  runWord (rteSem sub) s

/-- BRK (R309): nothing in NONE; in HALT its lanes stop behind its chain, also while a hurdle defers the save (16 R252), the team is
saved and only the debugger restores it; in TRACE a marker record, with the lanes of ACTIVE (log 46). -/
def brkSem (d : DebugState) (code : BitVec 7) : WordSem :=
  ctlWord (.brk code) (fun _ _ _ => .ok id) fun ts m =>
    match d with
    | .none => m
    | .halt =>
      let m := ts.foldl (fun m t => m.updThread t.ref fun x => { x with wait := .halted }) m
      (m.beginPreempt m.cur.team .save true).updTeam m.cur.team fun t => { t with brk := true }
    | .trace => m.appendTrace (m.cur.pc, laneSet ts, 0x80 + code.toNat)

def execBrk (code : BitVec 7) (s : State) : Host.Outcome State Fault Refusal :=
  runWord (brkSem s.sys.debug code) s

/-! ### Waits on a thread's own operations -/

/-- The counts of WAITC's classes (09 R169): loads, stores, drover commands, tile operations. -/
def Thread.counts (t : Thread) : Nat × Nat × Nat × Nat :=
  ((t.ops.filter fun o => o.loads).length, (t.ops.filter fun o => o.stores).length, t.drover,
    (t.ops.filter fun o => o.tile).length)

/-- Every count is at or below its threshold; 63 accepts any count. -/
def Thread.within (t : Thread) (l s d x : Nat) : Bool :=
  let c := t.counts
  let ok (n k : Nat) : Bool := k == 63 || decide (n ≤ k)
  ok c.1 l && ok c.2.1 s && ok c.2.2.1 d && ok c.2.2.2 x

/-- WAITC (R374). -/
def waitcSem (l s d x : BitVec 6) : WordSem :=
  ctlWord (.waitc l s d x) (fun _ _ t => .ok fun m => m.updThread t.ref fun y =>
    if y.within l.toNat s.toNat d.toNat x.toNat then y
    else { y with wait := .counts l.toNat s.toNat d.toNat x.toNat }) fun _ m => m

def execWaitc (l st d t : BitVec 6) (s : State) : Host.Outcome State Fault Refusal :=
  runWord (waitcSem l st d t) s

/-- What XFEN does in a lane now (R379): it waits for the lane's own operations, then reports a pending imprecise fault,
one that the core had yet to learn of among them. -/
def Mach.fence (m : Mach) (t : TRef) : Mach :=
  match m.thread? t, m.team? t.team with
  | some x, some tm =>
    if !x.within 0 0 0 0 then m.updThread t fun y => { y with wait := .xfen }
    else
      (((m.updThread t fun y => { y with wait := .ready }).detectAll tm.uid).report tm.uid)
  | _, _ => m

/-- XFEN (R243, R379). -/
def xfenSem : WordSem := ctlWord .xfen (fun _ _ t => .ok fun m => m.fence t.ref) fun _ m => m

def execXfen (s : State) : Host.Outcome State Fault Refusal :=
  runWord xfenSem s

/-- YILD (R382). -/
def yildSem : WordSem :=
  ctlWord .yild (fun _ _ t => .ok fun m => m.updThread t.ref fun x => { x with yielded := true }) fun _ m => m

def execYild (s : State) : Host.Outcome State Fault Refusal :=
  runWord yildSem s

/-- EXIT (R319). -/
def exitSem : WordSem :=
  ctlWord .exit (fun _ _ _ => .ok id) fun ts m => m.exitLanes m.cur.team m.cur.group (ts.map (·.ref))

def execExit (s : State) : Host.Outcome State Fault Refusal :=
  runWord exitSem s

end Sys2Proof.Machine
end

