-- ==== Sys2Proof/Machine/Access.lean ====
section
/-! DEFINITION. What memory words share: resolving and checking an access in the order of 16 R239 and 06 R111, operations in
flight, snapshots and bounded reads (07 R127-R143). -/

namespace Sys2Proof.Machine

/-- A checked access: on-chip bytes, bytes of another team's scratchpad through the fold window, or a global address and its
leaf. -/
inductive Acc where
  | array (w : Where)
  | fold (team off : Nat)
  | global (va : Nat) (l : Leaf)

/-- The physical and the generic address of an access to global memory. -/
def Acc.place : Acc → Option (Nat × Nat)
  | .global va l => some (l.pa va, va)
  | _ => none

/-- A replayable fault at a page: not present names a 4 KiB granule, anything else the leaf's page (06 R115). -/
def parkAbsent (a kind opnd elem : Nat) (alt : Option (Mach → Mach)) : LaneOut :=
  .park 0x10 (BitVec.ofNat 64 a) (excWord elem opnd 0 0 0 false) kind (a % 2 ^ 57 / 4096 * 4096) 4096 alt

def parkLeaf (cause a : Nat) (exc : Word) (kind : Nat) (l : Leaf) (alt : Option (Mach → Mach)) : LaneOut :=
  .park cause (BitVec.ofNat 64 a) exc kind (l.page (a % 2 ^ 57)) l.size alt

/-- Translate a global address and make checks 2 and 3 of R111. A first write through a translation whose entry has changed
since it was read walks again (R112). -/
def Mach.checkGlobal (m : Mach) (tm : Team) (t : Thread) (kind : Nat) (write : Bool) (a : Nat) (alt : Option (Mach → Mach)) :
    Except LaneOut Leaf :=
  let va := a % 2 ^ 57
  match m.translate tm (m.subOf t.ref) t va with
  | .miss => .error (.miss va)
  | .absent => .error (parkAbsent a kind 0 0 alt)
  | .ok l =>
    if !m.allowed tm.ctx l write false then .error (parkLeaf 0x11 a (leafExcWord l 0) kind l alt)
    else if write && !pteD l.bits && m.stale l then .error (.miss va)
    else .ok l

/-- Alignment, then space and share rules, then translation (R239, R111 checks 1-3). Array 4 admits no write (05 R100). -/
def Mach.checkAccess (m : Mach) (tm : Team) (t : Thread) (kind : Nat) (write : Bool) (a size : Nat) (d : Dst)
    (alt : Option (Mach → Mach)) : Except LaneOut Acc :=
  if a % size != 0 then .error (.mem 0x20 a 0 d alt)
  else match m.resolve tm a size with
  | .bad => .error (.mem 0x11 a 0 d alt)
  | .queue u o => if write then .error (.mem 0x11 a 0 d alt) else .ok (.array (.queue u o))
  | .scratch u o => .ok (if a / 2 ^ 56 == 0xFE && u != tm.uid then .fold u o else .array (.scratch u o))
  | .global va =>
    match m.checkGlobal tm t kind write a alt with
    | .ok l => .ok (.global va l)
    | .error e => .error e
  | w => .ok (.array w)

/-! ### Operations in flight (09 R169) -/

def Mach.addOp (m : Mach) (t : TRef) (o : Op) : Mach := m.updThread t fun x => { x with ops := x.ops ++ [o] }

def Mach.dropOp (m : Mach) (t : TRef) (id : Nat) : Mach :=
  m.updThread t fun x => { x with ops := x.ops.filter fun o => o.id != id }

/-- An operation that only counts in the stores class, with its generic address. -/
def storeOp (id va : Nat) : Op := { id := id, kind := .store va, dst := .none, loads := false, stores := true, tile := false }

/-- An operation whose result is known and returns later. -/
def valueOp (id : Nat) (rs : List RV) (d : Dst) (stores : Bool) : Op :=
  { id := id, kind := .value rs, dst := d, loads := true, stores := stores, tile := false }

/-- Change one operation of a thread. -/
def Mach.updOp (m : Mach) (t : TRef) (id : Nat) (f : Op → Op) : Mach :=
  m.updThread t fun x => { x with ops := x.ops.map fun o => if o.id == id then f o else o }

/-! ### Snapshots (07 R127, R128, R132, R139-R141) -/

/-- The mirror value of a region on a die, pulled from the home when there is no entry (R140); a full mirror of 4,096 entries
gives up one of a free choice (log 12). -/
def Mach.mirror (m : Mach) (die region : Nat) : Mach × Word :=
  match m.mirrors.find? fun e => e.1 == die && e.2.1 == region with
  | some e => (m, e.2.2)
  | none =>
    let here := m.mirrors.filter fun e => e.1 == die
    let e := (die, region, m.round region)
    if here.length < 4096 then ({ m with mirrors := e :: m.mirrors }, e.2.2)
    else
      let (k, m) := m.choose here.length
      ({ m with mirrors := e :: m.mirrors.filter fun x => some x != here[k]? }, e.2.2)

/-- Whether a copy meets a bound (R141): the difference read as signed. -/
def withinBound (m c : Word) (k : Nat) : Bool := decide ((m - c).toNat ≤ k) || decide (2 ^ 31 ≤ (m - c).toNat)

/-- Fetch a line and install it unless told not to allocate: then a copy that came meanwhile goes, being older (07 R128). -/
def Mach.fetchInstall (m : Mach) (core line : Nat) (alloc : Bool) : Mach × List Byte :=
  let own := m.ownerOf? line == some core
  let (m, bs) := m.fetchLine core line
  (if alloc then m.install core line bs own
    else { m with l1 := m.l1.filter fun c => !(c.core == core && c.line == line && !c.owned) }, bs)

/-- A line with the core's unpublished bytes, as a thread sees them, in place (R127, R141). -/
def Mach.overlay (m : Mach) (core : Nat) (t : TRef) (line : Nat) (base : List Byte) : List Byte :=
  base.zipIdx.map fun p => match m.ownByte core t (line + p.2) with | some b => b.byte | none => p.1

/-- Whether a load on a line is still without its bytes. -/
def LoadReq.open? (r : LoadReq) (line : Nat) : Bool := r.copy.isNone && r.data.isNone && lineOf r.pa == line

/-- The load that an operation is. -/
def Op.load? (o : Op) : Option LoadReq := match o.kind with | .load r => some r | _ => none

/-- Change the loads of every thread. -/
def Mach.mapLoads (m : Mach) (f : Thread → Op → LoadReq → LoadReq) : Mach :=
  { m with threads := m.threads.map fun (t : Thread) => { t with ops := t.ops.map fun (o : Op) =>
      match o.kind with | .load r => { o with kind := .load (f t o r) } | _ => o } }

/-- The loads of every thread. -/
def Mach.loadsOn (m : Mach) : List LoadReq := m.threads.flatMap fun t => t.ops.filterMap Op.load?

/-- The bytes that a fetch brings: an NC page's are taken at the die point and leave no copy. -/
def Mach.fetchBytes (m : Mach) (f : Fetch) (keep : Bool) : Mach × List Byte :=
  if f.nc then let m := m.combine f.line; (m, m.dieLine (dieOf f.core) f.line) else m.fetchInstall f.core f.line (keep && f.alloc)

/-- A fetch of a core ends (10 R175): the loads that wait for it take its bytes, but that a poisoned line gives none, and they find the
poison (05 R105). Earlier loads of their threads on the line first take what the L1 holds, or join (R128). With `keep` the line is
installed as the fetch says. An LDB among those that wait decides against it (R141): it pulls the region's counter where the mirror has no
entry, and bytes just supplied, whose round the mirror cannot exceed (R140), meet every bound. -/
def Mach.fetchDone (m : Mach) (f : Fetch) (keep : Bool) : Mach × List Byte :=
  let waits (r : LoadReq) : Bool := r.fetch == some f.id
  let early (t : Thread) (o : Op) (r : LoadReq) : Bool := r.open? f.line && r.fetch.isNone
    && t.ops.any fun p => decide (o.id < p.id) && (match p.load? with | some q => waits q | none => false)
  let bad := !isFold f.line && m.poisoned f.line
  let m := m.mapLoads fun t o r =>
    if early t o r then
      (match (if !r.nc then (m.l1? f.core f.line).map fun c => (c.data, c.since)
              else if bad then none else some (m.dieLine (dieOf f.core) f.line, m.uid)) with
        | some d => { r with copy := some (m.overlay f.core t.ref f.line d.1), since := d.2 }
        | none => { r with fetch := some f.id })
    else r
  let m := if m.loadsOn.any fun r => waits r && r.bound.isSome then (m.mirror (dieOf f.core) (regionOf f.line)).1 else m
  let (m, bs) := if bad then (m, []) else m.fetchBytes f keep
  let m := { m with fetches := m.fetches.filter fun x => x.id != f.id }
  (m.mapLoads fun t _ r =>
    if !waits r then r
    else if bad then { r with fetch := none }
    else { r with copy := some (m.overlay f.core t.ref f.line bs), fetch := none, since := m.uid }, bs)

/-- Start a fetch of a line. -/
def Mach.startFetch (m : Mach) (core line : Nat) (alloc nc : Bool) : Mach × Nat :=
  let (id, m) := m.fresh
  ({ m with fetches := m.fetches ++ [{ id := id, core := core, line := line, alloc := alloc, nc := nc }] }, id)

/-- The fetch that a core has outstanding for a line. -/
def Mach.fetching (m : Mach) (core line : Nat) : Option Fetch := m.fetches.find? fun f => f.core == core && f.line == line

/-- A word of a page joins a fetch (10 R175): the line is installed if one of those that wait for it wants that. -/
def Mach.joinFetch (m : Mach) (id : Nat) (alloc nc : Bool) : Mach :=
  { m with fetches := m.fetches.map fun (x : Fetch) => if x.id == id then { x with alloc := x.alloc || alloc, nc := x.nc && nc } else x }

/-- The loads of one word on a line, still without their bytes, wait for one fetch (22 R339). -/
def Mach.wordJoins (m : Mach) (word line id : Nat) : Mach :=
  m.mapLoads fun _ _ r => if r.word == word && r.open? line && r.fetch.isNone then { r with fetch := some id } else r

/-- The loads of one word on a line take one copy, but for those whose threads have earlier loads of it (R128). -/
def Mach.wordTakes (m : Mach) (core word line : Nat) (data : List Byte) (since : Nat) : Mach :=
  m.mapLoads fun t o r =>
    if r.word == word && r.open? line && r.fetch.isNone && !r.nc
        && !(t.ops.any fun p => decide (p.id < o.id) && (match p.load? with | some q => q.open? line | none => false))
    then { r with copy := some (m.overlay core t.ref line data), since := since } else r

/-- The line that an open load reads and the count of names when its copy was fetched: the home's for an NC page, the fetch it waits
for, the L1's copy where that meets its bound, or a fetch: the one outstanding (10 R175), else one for the lanes of its word (22 R339). -/
def Mach.baseLine (m : Mach) (core : Nat) (r : LoadReq) : Mach × List Byte × Nat :=
  let line := lineOf r.pa
  let anew (m : Mach) : Mach × List Byte × Nat :=
    let (m, f) := match m.fetching core line with
      | some f => (m.joinFetch f.id r.alloc r.nc, f.id)
      | none => m.startFetch core line r.alloc r.nc
    let m := m.wordJoins r.word line f
    match m.fetches.find? fun x => x.id == f with
    | some x => let (m, bs) := m.fetchDone x true; (m, bs, m.uid)
    | none => (m, [], m.uid)
  match m.fetches.find? fun f => r.fetch == some f.id with
  | some f =>
    let (m, bs) := m.fetchDone f true
    (m, bs, m.uid)
  | none =>
    if r.nc then (m, m.dieLine (dieOf core) line, m.uid)
    else match m.l1? core line, r.bound with
    | some c, none => (m.wordTakes core r.word line c.data c.since, c.data, c.since)
    | some c, some k =>
      let (m, v) := m.mirror (dieOf core) (regionOf line)
      if withinBound v c.round k then (m, c.data, c.since) else anew m
    | none, none => anew m
    | none, some _ => anew (m.mirror (dieOf core) (regionOf line)).1

/-- Settle a load's bytes (R339, R141): a U line is combined first, the core's unpublished bytes stand in their place; none
when the line is poisoned. -/
def Mach.loadBytes (m : Mach) (core : Nat) (t : TRef) (r : LoadReq) : Mach × Option (List Byte) :=
  match r.data with
  | some bs => (m, some bs)
  | none =>
    let line := lineOf r.pa
    let m := m.combine line
    let view (m : Mach) (base : List Byte) (since : Nat) : Mach × Option (List Byte) :=
      (m.observe core t r.pa r.size since, some (((m.overlay core t line base).drop (r.pa - line)).take r.size))
    match r.copy with
    | some c => view m c r.since
    | none =>
      if m.poisoned line then (m, none)
      else
        let (m, base, since) := m.baseLine core r
        view m base since

/-- The imprecise fault of a poisoned line (R105, 16 R244), at the line's generic address. A helper lane causes none (02 R385). -/
def Mach.meetPoison (m : Mach) (t : TRef) (va : Nat) : Mach :=
  match m.thread? t with
  | none => m.meet t.team { cause := 0x30, addr := BitVec.ofNat 64 (lineOf va), thread := none }
  | some x =>
    if x.helper then m
    else m.meet t.team {
      cause := 0x30, addr := BitVec.ofNat 64 (lineOf va), thread := if x.wait == Wait.exited then none else some t }

/-- A load of a thread takes its bytes now, if it reads a line. -/
def Mach.settleLoad (m : Mach) (core : Nat) (t : TRef) (line id : Nat) : Mach :=
  match (m.thread? t).bind fun x => (x.ops.find? fun p => p.id == id).bind Op.load? with
  | some r =>
    if r.data.isNone && lineOf r.pa == line then
      match m.loadBytes core t r with
      | (m, some bs) => m.updOp t id fun p => { p with kind := .load { r with data := some bs } }
      | (m, none) => m
    else m
  | none => m

/-- The next 16 bytes of a launch record in global memory (22 R342), read as a load would, which joins a fetch that is outstanding (10
R175) and comes after the thread's earlier loads of the line (R128); a poisoned line reads as zeros with the imprecise fault. -/
def Mach.recordPiece (m : Mach) (core : Nat) (t : TRef) (id at_ va : Nat) (nc : Bool) : Mach × List Byte :=
  let line := lineOf at_
  let m := match m.fetching core line with | some f => m.joinFetch f.id true nc | none => m
  let before : List Op := match m.thread? t with | some x => x.ops.filter fun o => decide (o.id < id) | none => []
  let m := before.foldl (fun m o => m.settleLoad core t line o.id) m
  match m.loadBytes core t {
      pa := at_, va := va, size := 16, nc := nc, alloc := true, bound := none, copy := none, data := none
      fetch := (m.fetching core line).map (·.id), word := id } with
  | (m, some bs) => (m, bs)
  | (m, none) => (m.meetPoison t va, List.replicate 16 0)

/-- A launch in flight reads its next piece. -/
def Mach.readRecord (m : Mach) (core : Nat) (t : TRef) (id : Nat) : Mach :=
  match m.thread? t with
  | none => m
  | some th =>
    match th.ops.find? fun o => o.id == id with
    | some { kind := .launch true at_ va nc got, .. } =>
      if 128 ≤ got.length then m
      else
        let (m, bs) := m.recordPiece core t id (at_ + got.length) (va + got.length) nc
        m.updOp t id fun o => { o with kind := .launch true at_ va nc (got ++ bs) }
    | _ => m

/-- A launch of a thread reads the rest of its record now, if that reaches into a line. -/
def Mach.settleLaunch (m : Mach) (core : Nat) (t : TRef) (line : Nat) (o : Op) : Mach :=
  match o.kind with
  | .launch true at_ _ _ got =>
    if at_ + got.length < line + 128 && line < at_ + 128 then (List.range 8).foldl (fun m _ => m.readRecord core t o.id) m else m
  | _ => m

/-- The launches of a thread read what a line holds of their records, before a later load of it (R128). -/
def Mach.settleLaunches (m : Mach) (core : Nat) (t : TRef) (line : Nat) : Mach :=
  match m.thread? t with
  | none => m
  | some th => th.ops.foldl (fun m o => m.settleLaunch core t line o) m

/-- Settle the loads of a thread on a line that were issued before operation `upto`, launch records among them (15 R226): loads
of one location keep its coherence order (R128), and a store of the thread comes after them. -/
def Mach.settleLoads (m : Mach) (core : Nat) (t : TRef) (line upto : Nat) : Mach :=
  match m.thread? t with
  | none => m
  | some th =>
    th.ops.foldl (fun m o => if upto ≤ o.id then m else (m.settleLoad core t line o.id).settleLaunch core t line o) m

/-- A line with what a die holds of it in place. -/
def Mach.heldOver (m : Mach) (die line : Nat) (data : List Byte) : List Byte :=
  data.zipIdx.map fun p => match m.heldByte die (line + p.2) with | some b => b.byte | none => p.1

/-- Self-invalidate a core's L1 (07 R130): lines it does not own go; its own unpublished bytes stand in the versions. In a line that it owns
it sees from here on what its die holds (R131, log 59). A fetch in
flight serves the loads that wait for it and installs nothing (23 R350). -/
def Mach.selfInvalidate (m : Mach) (core : Nat) : Mach :=
  let m := (m.fetches.filter fun f => f.core == core).foldl (fun m f => (m.fetchDone f false).1) m
  ({ m with
    l1 := (m.l1.filter fun c => c.core != core || c.owned).map fun (c : L1Line) =>
      if c.core == core then { c with data := m.heldOver (dieOf core) c.line c.data } else c } : Mach).tidyHints

/-- Drop a core's clean copy of a line (R136): one that holds none of its unpublished bytes and that it does not own. -/
def Mach.dropClean (m : Mach) (core line : Nat) : Mach :=
  if m.versions.any (fun b => b.core == core && lineOf b.pa == line && b.inL1 && !b.diePub && !b.l2) then m
  else ({ m with l1 := m.l1.filter fun c => !(c.core == core && c.line == line && !c.owned) } : Mach).tidyHints

/-- Free bytes (log 6). -/
def Mach.freeBytes (m : Mach) (n : Nat) : Mach × List Byte :=
  (({ m with free := m.free + n }), (List.range n).map fun i => (Config.freeValue (m.free + i)).setWidth 8)

/-- An area's elements are unspecified (13 R217). -/
def Mach.spoilArea (m : Mach) (a : Area) : Mach :=
  a.pages.foldl (fun m p => let (m, bs) := m.freeBytes 4096; { m with mem := m.mem.write p bs }) m

/-- Stores into a merge area that is not idle leave its elements unspecified (13 R217). -/
def Mach.touchAreas (m : Mach) (pa n : Nat) : Mach :=
  let hit (a : Area) : Bool := a.pages.any fun p => p < pa + n && pa < p + 4096
  let m := (m.areas.filter hit).foldl (fun m a => m.spoilArea a) m
  { m with areas := m.areas.map fun (a : Area) => if hit a then { a with dirty := true } else a }

/-- Teams resident on a die (16 R249). -/
def Mach.teamsOn (m : Mach) (die : Nat) : Nat :=
  (m.teams.filter fun t => t.resident && dieOf t.core == die).length

/-- Before a store adds lines past the version's limit, the whole version is committed (16 R249). -/
def Mach.makeRoom (m : Mach) (tm : Team) (pa : Nat) : Mach :=
  let held := (m.versionOf tm.uid).any fun b => lineOf b.pa == lineOf pa
  if !held && decide (262144 / max 1 (m.teamsOn (dieOf tm.core)) < m.vlines tm.uid + 1) then m.forceCommit tm.uid else m

/-- A store of a thread to global memory at issue (23 R363): D set, earlier loads of the line settled, room made, the bytes
added to the version. -/
def Mach.storeGlobal (m : Mach) (tm : Team) (t : TRef) (id va : Nat) (l : Leaf) (bs : List Byte) (inL1 atomic : Bool)
    (word : Nat := id) : Mach :=
  let pa := l.pa va
  let m := m.setDirty l
  let m := m.settleLoads tm.core t (lineOf pa) id
  let m := (m.makeRoom tm pa).touchAreas pa bs.length
  m.addStore tm.core t id pa bs inL1 (pteExc l.bits == 3) atomic (pteNc l.bits) word

/-- A store of a thread to another team's scratchpad through the fold window (05 R95, R102): it stands in the L1 like one to
global memory. -/
def Mach.storeFold (m : Mach) (tm : Team) (t : TRef) (id u o : Nat) (bs : List Byte) (word : Nat := id) : Mach :=
  (m.settleLoads tm.core t (lineOf (foldKey u o)) id).addStore tm.core t id (foldKey u o) bs false false false false word

/-- A store's byte reaches the L1 (R127), or the ways of a slice where its page is NC (23 R363): before the bytes that stand there, but
behind a newer one of its own thread, or of a higher lane of its word. -/
def arrive (now : Nat) (vs : List VByte) (b : VByte) : List VByte :=
  let newer (x : VByte) : Bool := x.pa == b.pa && !x.diePub && x.inL1 && olderStore x b
  let here := { b with
    inL1 := true
    vis := now }
  let rest := vs.filter fun x => x != b
  let after := if rest.any newer then (rest.reverse.takeWhile fun x => !newer x).reverse else rest
  rest.take (rest.length - after.length) ++ here :: after

/-- The bytes of an operation reach the L1. 04 R80 has ST with `.nl` allocate nothing on a miss, and 23 R363 has the bytes stand in the L1
whenever NC is clear: the line takes its space whatever the hint (log 12, DESIGN CHOICE). -/
def Mach.arriveOp (m : Mach) (core op : Nat) : Mach :=
  let mine (b : VByte) : Bool := b.op == op && !b.inL1 && !b.diePub
  let m := (byteLines (m.versions.filter fun b => mine b && !b.l2)).foldl (fun m l => m.makeSpace core l) m
  { m with
    uid := m.uid + 1
    versions := (m.versions.filter mine).reverse.foldl (arrive m.uid) m.versions }

end Sys2Proof.Machine
end

