-- ==== Sys2Proof/Machine/Memory.lean ====
section
/-! DEFINITION. Loads, bounded loads, stores and prefetch (04 R80; 07 R141; 22 R339-R341; 23 R352, R363). -/

namespace Sys2Proof.Machine

/-- The effective address (04 R80): pair A plus OFF5 times the size, modulo 2^64. -/
def effective (base : Nat) (off : BitVec 5) (size : Nat) : Nat :=
  (((base : Int) + off.toInt * size) % (2 ^ 64 : Nat)).toNat

/-- Bytes of one value of a tag. -/
def tagBytes (t : Tag) : Nat := t.width / 8

/-- How a load is made: LD with its hint, or LDB with its bound and mode. -/
inductive LoadMode where
  | plain (h : CHint)
  | bounded (k : Nat) (refetch : Bool)
  deriving DecidableEq, Repr

/-- Whether a load installs a line that it fetches: not under the hint NL (04 R80). -/
def LoadMode.alloc : LoadMode → Bool
  | .plain .nl => false
  | _ => true

/-- The hint that a load gives its line: LDB's is a normal one (R341). -/
def LoadMode.hint : LoadMode → CHint
  | .plain h => h
  | .bounded .. => .normal

/-- The bound of an LDB. -/
def LoadMode.bound : LoadMode → Option Nat
  | .bounded k _ => some k
  | .plain _ => none

/-- Whether the copy of a line in the L1 has served a lower lane of the same word (10 R173). -/
def Mach.servedBefore (m : Mach) (line word : Nat) : Bool :=
  m.loadsOn.any fun q => q.word == word && q.copy.isSome && q.bound.isSome && lineOf q.pa == line

/-- Issue a load of a line (R339, R141): it joins a fetch that the core has outstanding (10 R175); else a copy in the L1 serves it,
an LDB only one within its bound, judged once for the lanes of its word on its line against one mirror value (10 R173), which is pulled
where the mirror has none (R140); else a fetch begins. -/
def Mach.issueLoad (m : Mach) (tm : Team) (t : TRef) (r : LoadReq) (d : Dst) (id : Nat) : Mach :=
  let core := tm.core
  let line := lineOf r.pa
  let m := m.settleLaunches core t line
  let put (m : Mach) (r : LoadReq) : Mach :=
    m.addOp t { id := id, kind := .load r, dst := d, loads := true, stores := false, tile := false }
  let start (m : Mach) : Mach :=
    let (m, f) := m.startFetch core line r.alloc r.nc
    put m { r with fetch := some f }
  match m.fetching core line with
  | some f => put (m.joinFetch f.id r.alloc r.nc) { r with fetch := some f.id }
  | none =>
    match (if r.nc then none else m.l1? core line), r.bound with
    | some _, none => put m r
    | some c, some k =>
      let serve (m : Mach) : Mach :=
        put (m.settleLoads core t line id) { r with copy := some (m.overlay core t line c.data), since := c.since }
      if m.servedBefore line r.word then serve m
      else
        let (m, v) := m.mirror (dieOf core) (regionOf line)
        if withinBound v c.round k then serve m else start m
    | none, none => start m
    | none, some _ => start (m.mirror (dieOf core) (regionOf line)).1

/-- The tag a load's destination takes. -/
def Dst.tag : Dst → Tag
  | .regs _ t _ => t
  | _ => .raw

/-- Issue a load of an on-chip array. Its bytes are read now and return later (log 17), but that a load of tiles with tile
operations queued may, by a free choice, be made when it returns (05 R101). -/
def Mach.loadArray (m : Mach) (t : TRef) (id : Nat) (w : Where) (n : Nat) (tag : Tag) (d : Dst) : Mach :=
  let now (m : Mach) : Mach := m.addOp t (valueOp id (valRegs tag (leNat (m.readArray w n))) d false)
  match w with
  | .tile u o =>
    if m.tileq.any fun q => q.team == u then
      let (k, m) := m.choose 2
      if k == 0 then now m
      else m.addOp t { id := id, kind := .tile u o n, dst := d, loads := true, stores := false, tile := false }
    else now m
  | _ => now m

/-- The value of a read of tiles that is made now. -/
def Mach.tileValue (m : Mach) (d : Dst) (u o n : Nat) : List RV := valRegs d.tag (leNat (m.readArray (.tile u o) n))

/-- A thread's reads of tiles that are still to be made come before its store to an array. -/
def Mach.settleTileReads (m : Mach) (t : TRef) : Mach :=
  m.updThread t fun x => { x with ops := x.ops.map fun (o : Op) =>
    match o.kind with
    | .tile u a n => { o with kind := .value (m.tileValue o.dst u a n) }
    | _ => o }

/-- A stalling LDB holds its lane until it returns (R141). -/
def Mach.stallOn (m : Mach) (t : TRef) (mode : LoadMode) (id : Nat) : Mach :=
  match mode with
  | .bounded _ false => m.updThread t fun x => { x with wait := .stall id }
  | _ => m

/-- A load in a lane (R339, R340); a helper discards every fault and takes zero. -/
def loadLane (d a : Reg) (tag : Tag) (off : BitVec 5) (mode : LoadMode) (m : Mach) (t : Thread) : LaneOut :=
  let dst : Dst := .regs d.toNat tag 1
  let zero : Option (Mach → Mach) := some (writes t.ref d.toNat (dst.zeros tag))
  match m.team? t.ref.team, t.pairAt a with
  | some tm, some base =>
    let size := tagBytes tag
    match m.checkAccess tm t 1 false (effective base off size) size dst zero with
    | .error e => e
    | .ok acc =>
      let first := m.uid
      .ok fun m =>
      let (id, m) := m.fresh
      let m := match acc.place with | some p => m.setHint tm.core (lineOf p.1) mode.hint | none => m
      let m := match acc with
        | .array w => m.loadArray t.ref id w size tag dst
        | .fold u o => m.issueLoad tm t.ref {
            pa := foldKey u o, va := effective base off size, size := size, nc := false, alloc := true, bound := none
            copy := none, data := none, word := first } dst id
        | .global va l => m.issueLoad tm t.ref {
            pa := l.pa va, va := va, size := size, nc := pteNc l.bits, alloc := mode.alloc && !pteNc l.bits
            bound := if pteNc l.bits then none else mode.bound, copy := none, data := none, word := first } dst id
      m.stallOn t.ref mode id
  | _, _ => .trap 2 0 0 sub0 id zero

/-- LD (R339). -/
def ldSem (d a : Reg) (h : CHint) (t : Tag) (o : BitVec 5) : WordSem :=
  laneWord (.ld d a h t o) fun m _ x => loadLane d a t o (.plain h) m x

def execLd (d a : Reg) (h : CHint) (t : Tag) (o : BitVec 5) (s : State) : Host.Outcome State Fault Refusal :=
  runWord (ldSem d a h t o) s

/-- LDB (R141, R341): no offset; OFF5 is the bound. -/
def ldbSem (d a : Reg) (refetch : Bool) (t : Tag) (k : BitVec 5) : WordSem :=
  laneWord (.ldb d a refetch t k) fun m _ x => loadLane d a t 0 (.bounded k.toNat refetch) m x

def execLdb (d a : Reg) (refetch : Bool) (t : Tag) (k : BitVec 5) (s : State) : Host.Outcome State Fault Refusal :=
  runWord (ldbSem d a refetch t k) s

/-- The data of a store: registers tagged RAW or TG in any mix (R363). -/
def storeData (d : Reg) (tag : Tag) (t : Thread) : Option (List Byte) :=
  let b := t.block d.toNat tag.regs
  if b.all fun r => r.tag == .raw || r.tag == tag then some (leBytes (bitsOf b) (tagBytes tag)) else none

/-- Write a store's bytes where its access lies (R363); `word` names the word that stores. -/
def Mach.storeAt (m : Mach) (tm : Team) (t : TRef) (acc : Acc) (bs : List Byte) (h : CHint) (word : Nat) : Mach :=
  let (id, m) := m.fresh
  let m := match acc.place with | some p => m.setHint tm.core (lineOf p.1) h | none => m
  let m := match acc with
    | .array w => (m.settleTileReads t).writeArray w bs
    | .fold u o => m.storeFold tm t id u o bs word
    | .global va l => m.storeGlobal tm t id va l bs false false word
  m.addOp t { storeOp id (match acc with | .global va _ => va | _ => 0) with place := acc.place }

/-- A store in a lane (R363); a helper's is suppressed (02 R37). -/
def storeLane (d a : Reg) (h : CHint) (tag : Tag) (off : BitVec 5) (m : Mach) (t : Thread) : LaneOut :=
  if t.helper then .ok id
  else match m.team? t.ref.team, t.pairAt a, storeData d tag t with
  | some tm, some base, some bs =>
    let size := tagBytes tag
    match m.checkAccess tm t 2 true (effective base off size) size .none none with
    | .error e => e
    | .ok acc => let w := m.uid; .ok fun m => m.storeAt tm t.ref acc bs h w
  | _, _, _ => .mismatch t.ref .none

/-- ST (R363). -/
def stSem (d a : Reg) (h : CHint) (t : Tag) (o : BitVec 5) : WordSem :=
  laneWord (.st d a h t o) fun m _ x => storeLane d a h t o m x

def execSt (d a : Reg) (h : CHint) (t : Tag) (o : BitVec 5) (s : State) : Host.Outcome State Fault Refusal :=
  runWord (stSem d a h t o) s

/-- A prefetch of a line: nothing when it is in the L1, or poisoned; a fetch of it that is under way installs it. -/
def Mach.prefetchLine (m : Mach) (core line : Nat) (h : CHint) : Mach :=
  let m := m.setHint core line h
  if (m.l1? core line).isSome || (!isFold line && m.poisoned line) then m
  else match m.fetching core line with
  | some f => m.joinFetch f.id (h != .nl) false
  | none => (m.fetchInstall core line (h != .nl)).1

/-- A prefetch of one address (R352): nothing on any failed check, a poisoned table entry among them, off global memory, or on an NC page.
For the window of another team's scratchpad 05 R95 gives it an effect and R352 none: a free choice says (log 58). -/
def Mach.prefetch (m : Mach) (tm : Team) (t : TRef) (h : CHint) (a size : Nat) : Mach :=
  match (if a % size != 0 then .bad else m.resolve tm a size) with
  | .global va =>
    match m.walkNow [] tm.core (m.subOf t) tm.ctx va true with
    | (m, some l) =>
      if !m.allowed tm.ctx l false false || pteNc l.bits then m else m.prefetchLine tm.core (lineOf (l.pa va)) h
    | (m, none) => m
  | .scratch u o =>
    if a / 2 ^ 56 == 0xFE && u != tm.uid then
      let (k, m) := m.choose 2
      if k == 0 then m else m.prefetchLine tm.core (lineOf (foldKey u o)) .normal
    else m
  | _ => m

/-- PFCH (R352). -/
def pfchSem (a : Reg) (h : CHint) (t : Tag) (o : BitVec 5) : WordSem :=
  laneWord (.pfch a h t o) fun m _ x =>
    match m.team? x.ref.team, x.pairAt a with
    | some tm, some base => .ok fun m => m.prefetch tm x.ref h (effective base o (tagBytes t)) (tagBytes t)
    | _, _ => .mismatch x.ref .none

def execPfch (a : Reg) (h : CHint) (t : Tag) (o : BitVec 5) (s : State) : Host.Outcome State Fault Refusal :=
  runWord (pfchSem a h t o) s

end Sys2Proof.Machine
end

