-- ==== Sys2Proof/Machine/Atomics.lean ====
section
/-! DEFINITION. AMO, ACAS and APST at the executor of their page (09 R157-R164; 06 R116, R117; 07 R135-R138; 21 R299-R303). -/

namespace Sys2Proof.Machine

/-- Checks 4 and 5 of R111 for an operation that uses an executor (R116, R117). -/
def checkExecutor (a kind : Nat) (exc : Word) (l : Leaf) (d : Dst) : Option LaneOut :=
  if !admits l.bits then some (.mem 0x14 a exc d none)
  else if pteMig l.bits then some (parkLeaf 0x13 a exc kind l none)
  else none

/-- The checks of an atomic's address (R160, R301): no tiles, no drover queue; then the executor. -/
def Mach.checkAtomic (m : Mach) (tm : Team) (t : Thread) (a size : Nat) (d : Dst) : Except LaneOut Acc :=
  match m.checkAccess tm t 3 true a size d none with
  | .error e => .error e
  | .ok (.array (.tile _ _)) => .error (.mem 0x11 a 0 d none)
  | .ok (.array w) => .ok (.array w)
  | .ok (.fold u o) => .ok (.array (.scratch u o))
  | .ok (.global va l) =>
    match checkExecutor a 3 (leafExcWord l 0) l d with
    | some e => .error e
    | none => .ok (.global va l)

/-- Bytes of a line that a core owns as they stand in its L1 for a thread (R136): its own unpublished bytes in place. -/
def Mach.coreBytes (m : Mach) (core : Nat) (t : TRef) (pa n : Nat) : List Byte :=
  let line := lineOf pa
  let base := match m.l1? core line with | some c => c.data | none => m.grantLine core line
  ((m.overlay core t line base).drop (pa - line)).take n

/-- An update by its executor: from the old value to the new one, none to write nothing; the old value, none when the line is
poisoned and the update is not applied (R105, R160). `ret`: the old value returns to the thread, which so observes it (07
R133). An AMO on an UPDT page acts at the home after a combine (R161), not in the L1 as 01 R18's small case has it (log 64). -/
def Mach.updateGlobal (m : Mach) (tm : Team) (t : TRef) (id va : Nat) (l : Leaf) (n : Nat) (ret : Bool)
    (f : Nat → Option Nat) : Mach × Option Nat :=
  let pa := l.pa va
  let line := lineOf pa
  let m := (m.setDirty l).settleLoads tm.core t line id
  if m.poisoned pa then (m, none)
  else if pteExc l.bits == 0 then
    let m := m.takeOwnership tm.core line 2
    let old := leNat (m.coreBytes tm.core t pa n)
    let m := if ret then m.observe tm.core t pa n m.uid else m
    match f old with
    | none => (m, some old)
    | some v =>
      let m := (m.makeRoom tm pa).makeSpace tm.core line
      (((m.touchAreas pa n).setMeta line (mkMeta 4 tm.core 0 0)).addStore tm.core t id pa (leBytes v n) true false true, some old)
  else
    match m.cohRead pa n with
    | (m, none) => (m, none)
    | (m, some bs) =>
      let old := leNat bs
      let m := if ret then m.observeHome tm.core t pa n else m
      match f old with
      | none => (m, some old)
      | some v => (((m.touchAreas pa n).leaveTrail [(pa, n, tm.core, m.uid)]).cohWrite1 pa (leBytes v n), some old)

/-- The line whose clean copy the completion of an atomic invalidates (07 R136): none at a CORE page. -/
def Leaf.dropLine (l : Leaf) (va : Nat) : Option Nat := if pteExc l.bits == 0 then none else some (lineOf (l.pa va))

/-- An update on chip, at the owning core (R160). -/
def Mach.updateArray (m : Mach) (w : Where) (n : Nat) (f : Nat → Option Nat) : Mach × Nat :=
  let old := leNat (m.readArray w n)
  match f old with
  | none => (m, old)
  | some v => (m.writeArray w (leBytes v n), old)

/-- Free registers of a tag: the value a poisoned atomic returns is not stated (log 5). -/
def Mach.freeRegs (m : Mach) (tag : Tag) : Mach × List RV :=
  let (a, m) := m.freeVal
  let (b, m) := m.freeVal
  (m, valRegs tag (a.toNat + b.toNat * 2 ^ 64))

/-- The update that a request asks for. -/
def AtomicReq.update (r : AtomicReq) (old : Nat) : Option Nat :=
  match r.op with
  | some f => some (amoApply f r.tag old r.val)
  | none => if old == r.cmp then some r.val else none

/-- A place on chip as a space. -/
def Landing.place : Landing → Where
  | .scratch u o => .scratch u o
  | .tile u o => .tile u o
  | .reg t v b => .reg t v b
  | .pa _ => .bad

/-- Where an access lies on chip: the request names arrays 0 and 1 only (R160). -/
def Acc.landing : Acc → Landing
  | .array (.scratch u o) | .fold u o => .scratch u o
  | .array (.reg t v b) => .reg t v b
  | .array (.tile u o) => .tile u o
  | _ => .pa 0

/-- The request of an atomic at an access. -/
def Acc.request (acc : Acc) (tag : Tag) (op : Option AmoOp) (cmp val : Nat) (ret : Bool) : AtomicReq where
  leaf := match acc with | .global _ l => some l | _ => none
  va := match acc with | .global va _ => va | _ => 0
  chip := acc.landing
  tag := tag
  op := op
  cmp := cmp
  val := val
  ret := ret

/-- Whether APST of this operation enters a partial on an UPDT page (R161). -/
def entersPartial (f : AmoOp) : Bool :=
  match f with
  | .xchg | .inc | .dec => false
  | _ => true

/-- Apply an update to a partial's elements; none when an element it touches records another operation or tag (R161). -/
def partialApply (off : Nat) (f : AmoOp) (tag : Tag) (v : Nat) (es : List (Nat × AmoOp × Tag × DWord)) :
    Option (List (Nat × AmoOp × Tag × DWord)) :=
  let n := tagBytes tag
  let hit := es.filter fun e => e.1 < off + n && off < e.1 + tagBytes e.2.2.1
  let put (old : Nat) : Nat × AmoOp × Tag × DWord := (off, f, tag, BitVec.ofNat 64 (amoApply f tag old v))
  match hit with
  | [] => some (es ++ [put (identity f tag)])
  | e :: _ =>
    if hit.length == 1 && e.1 == off && e.2.1 == f && e.2.2.1 == tag then
      some (es.map fun x => if x.1 == off then put x.2.2.2.toNat else x)
    else none

/-- An APST into the core's partial of a line (R161): a partial that records another operation goes home first. -/
def Mach.intoPartial (m : Mach) (core pa : Nat) (f : AmoOp) (tag : Tag) (v : Nat) : Mach :=
  let line := lineOf pa
  let m := m.recall line
  let md := m.meta line
  let m := m.setMeta line (mkMeta 5 0 (sharersOf md ||| 2 ^ dieOf core) (md.toNat % 2))
  let off := pa - line
  let m := m.makeSpace core line
  let mine (p : Partial) : Bool := p.core == core && p.line == line && p.module.isNone && !p.home
  let new (es : List (Nat × AmoOp × Tag × DWord)) : Partial := { core := core, line := line, elems := es, home := false }
  let first := ((partialApply off f tag v []).getD [])
  match m.partials.find? mine with
  | none => { m with partials := m.partials ++ [new first] }
  | some p =>
    match partialApply off f tag v p.elems with
    | some es => { m with partials := m.partials.map fun (q : Partial) => if mine q then { q with elems := es } else q }
    | none => { m with
        partials := (m.partials.map fun (q : Partial) => if mine q then { q with home := true } else q) ++ [new first] }

/-- An atomic acts: the old value, none when it met a poisoned line. -/
def Mach.act (m : Mach) (tm : Team) (t : TRef) (id : Nat) (r : AtomicReq) : Mach × Option Nat :=
  let n := tagBytes r.tag
  match r.leaf, r.op with
  | none, _ => let (m, old) := m.updateArray r.chip.place n r.update; (m, some old)
  | some l, some f =>
    if !r.ret && pteExc l.bits == 2 && entersPartial f then
      let pa := l.pa r.va
      let m := (m.setDirty l).settleLoads tm.core t (lineOf pa) id
      if m.poisoned pa then (m, none) else ((m.touchAreas pa n).intoPartial tm.core pa f r.tag r.val, some 0)
    else m.updateGlobal tm t id r.va l n r.ret r.update
  | some l, none => m.updateGlobal tm t id r.va l n r.ret r.update

/-- What remains of an atomic that has acted: its old value on the way back (R164), or a store that counts (R303). A poisoned line
gives the imprecise fault, and the value that returns is not stated (log 5). -/
def Mach.acted (m : Mach) (tm : Team) (t : TRef) (id : Nat) (r : AtomicReq) : Mach × OpKind :=
  match m.act tm t id r with
  | (m, some old) => (m, if r.ret then .value (valRegs r.tag old) else .store r.va)
  | (m, none) =>
    let m := m.meetPoison t r.va
    if r.ret then let (m, rs) := m.freeRegs r.tag; (m, .value rs) else (m, .store r.va)

/-- An atomic acts as its word issues, but that one behind a lower lane's at its place acts later, and what others do may come between
(R299). -/
def Mach.issueAtomic (m : Mach) (tm : Team) (t : TRef) (acc : Acc) (d : Dst) (r : AtomicReq) (later : Bool) : Mach :=
  let (id, m) := m.fresh
  let (m, k) := if later then (m, .atomic r) else m.acted tm t id r
  m.addOp t {
    id := id, kind := k, dst := d, loads := r.ret, stores := true, tile := false
    drop := match acc with | .global va l => l.dropLine va | _ => none
    place := acc.place }

/-- Whether two accesses are to one place. -/
def Acc.same : Acc → Acc → Bool
  | .global va l, .global vb k => l.pa va == k.pa vb
  | .global .., _ | _, .global .. => false
  | a, b => a.landing == b.landing

/-- Where a request acts: a physical address, or a place on chip. -/
def AtomicReq.spot (r : AtomicReq) : Option Nat × Landing := (r.leaf.map fun l => l.pa r.va, r.chip)

/-- Whether an atomic of a group with a name below `upto` has still to act at a place. -/
def Mach.unacted (m : Mach) (t : TRef) (upto : Nat) (spot : Option Nat × Landing) : Bool :=
  m.threads.any fun x => x.ref.team == t.team && x.ref.tidx / 32 == t.tidx / 32 && x.ops.any fun o =>
    decide (o.id < upto) && (match o.kind with | .atomic r => r.spot == spot | _ => false)

/-- Whether a lower lane of the bundle updates the place of a lane's access by the same word (R299), or an earlier word's atomic has
still to act there. -/
def Mach.behind (m : Mach) (tm : Team) (bundle : List Thread) (t : Thread) (a b : Reg) (acc : Acc) (d : Dst) : Bool :=
  m.unacted t.ref m.uid (acc.request .i32 none 0 0 true).spot || bundle.any fun u => decide (u.lane < t.lane) && !u.helper && (match u.pairAt a with
    | some x => match m.checkAtomic tm u x (tagBytes (u.tagAt b.toNat)) d with | .ok c => c.same acc | .error _ => false
    | none => false)

/-- Whether the registers that an atomic's tag aligns are misaligned: 0x01 before every tag check (R301, R303). -/
def misaligned (tag : Tag) (rs : List Reg) : Bool := rs.any fun r => r.toNat % tag.regs != 0

/-- An atomic of a thread that has not acted acts, those before it at its place having acted (R299). -/
def Mach.actNow (m : Mach) (t : TRef) (id : Nat) : Mach :=
  match m.thread? t, m.team? t.team with
  | some x, some tm => match x.ops.find? fun o => o.id == id with
    | some { kind := .atomic r, .. } =>
      if m.unacted t id r.spot then m
      else let (m, k) := m.acted tm t id r; m.updOp t id fun o => { o with kind := k }
    | _ => m
  | _, _ => m

/-- The atomics that have still to act through some translations, in the order of their names: they act now. -/
def Mach.actAll (m : Mach) (through : TRef → AtomicReq → Bool) : Mach :=
  let mine (x : Thread) : List (TRef × Nat) :=
    (x.ops.filter fun o => match o.kind with | .atomic r => through x.ref r | _ => false).map fun o => (x.ref, o.id)
  let ids := (m.threads.map mine).flatten.insertionSort fun a b => a.2 ≤ b.2
  ids.foldl (fun m p => m.actNow p.1 p.2) m

/-- AMO (R157-R164, R301). -/
def amoSem (d a b : Reg) (f : AmoOp) : WordSem :=
  laneWord (.amo d a b f) fun m bundle t =>
    let tag := t.tagAt b.toNat
    let dst : Dst := .regs d.toNat tag 1
    if t.helper then .ok (writes t.ref d.toNat (dst.zeros tag))
    else if misaligned tag [d, b] then .illegal
    else match mould (amoAccepts f) true [b.toNat] [] t, m.team? t.ref.team, t.pairAt a with
    | .error c, _, _ => .ofCause c t.ref dst
    | .ok tag, some tm, some x =>
      match m.checkAtomic tm t x (tagBytes tag) dst with
      | .error e => e
      | .ok acc =>
        let later := m.behind tm bundle t a b acc dst
        .ok fun m => m.issueAtomic tm t.ref acc dst (acc.request tag (some f) 0 (t.valAt b.toNat) true) later
    | _, _, _ => .mismatch t.ref dst

def execAmo (d a b : Reg) (f : AmoOp) (s : State) : Host.Outcome State Fault Refusal :=
  runWord (amoSem d a b f) s

/-- ACAS (R163, R300): the expected value, then the new one, in B's block; the comparison is bitwise. -/
def acasSem (d a b : Reg) : WordSem :=
  laneWord (.acas d a b) fun m bundle t =>
    let tag := t.tagAt b.toNat
    let k := tag.regs
    let dst : Dst := .regs d.toNat tag 1
    if t.helper then .ok (writes t.ref d.toNat (dst.zeros tag))
    else if tag == .raw then .mismatch t.ref dst
    else if b.toNat % (2 * k) != 0 || d.toNat % k != 0 then .illegal
    else match m.team? t.ref.team, t.pairAt a with
    | some tm, some x =>
      if t.tagAt (b.toNat + k) != tag || !t.formed b.toNat || !t.formed (b.toNat + k) then .mismatch t.ref dst
      else
        match m.checkAtomic tm t x (tagBytes tag) dst with
        | .error e => e
        | .ok acc =>
          let later := m.behind tm bundle t a b acc dst
          .ok fun m => m.issueAtomic tm t.ref acc dst (acc.request tag none (t.valAt b.toNat) (t.valAt (b.toNat + k)) true) later
    | _, _ => .mismatch t.ref dst

def execAcas (d a b : Reg) (s : State) : Host.Outcome State Fault Refusal :=
  runWord (acasSem d a b) s

/-- APST (R157-R164, R303); a helper's is suppressed. -/
def apstSem (a b : Reg) (f : AmoOp) : WordSem :=
  laneWord (.apst a b f) fun m bundle t =>
    if t.helper then .ok id
    else if misaligned (t.tagAt b.toNat) [b] then .illegal
    else match mould (amoAccepts f) true [b.toNat] [] t, m.team? t.ref.team, t.pairAt a with
    | .error c, _, _ => .ofCause c t.ref .none
    | .ok tag, some tm, some x =>
      match m.checkAtomic tm t x (tagBytes tag) .none with
      | .error e => e
      | .ok acc =>
        let later := m.behind tm bundle t a b acc .none
        .ok fun m => m.issueAtomic tm t.ref acc .none (acc.request tag (some f) 0 (t.valAt b.toNat) false) later
    | _, _, _ => .mismatch t.ref .none

def execApst (a b : Reg) (f : AmoOp) (s : State) : Host.Outcome State Fault Refusal :=
  runWord (apstSem a b f) s

end Sys2Proof.Machine
end

