-- ==== Sys2Proof/Machine/Placed.lean ====
section
/-! DEFINITION. Placed arithmetic (06 R118-R120; 18 R260, R263; 24 R375-R378) and XQRY (06 R121, 24 R380). -/

namespace Sys2Proof.Machine

/-- The operands of a placed operation in a lane: addresses of the destination and the sources, the value of XFIL, the element
tag and the count. -/
structure PlacedArgs where
  x     : XOp
  tag   : Tag
  n     : Nat
  d     : Nat
  srcs  : List Nat
  value : Nat
  deriving DecidableEq, Repr

/-- A page of an operand: the operand (0 destination, 1 and 2 sources), the first element on it, its address, its
translation. -/
structure OpPage where
  opnd : Nat
  elem : Nat
  addr : Nat
  tr   : Trans
  deriving DecidableEq, Repr

/-- The pages of one operand from element `i` on; the first argument bounds their number. -/
def Mach.operandPages (m : Mach) (tm : Team) (t : Thread) (opnd a e n : Nat) : Nat → Nat → List OpPage
  | 0, _ => []
  | fuel + 1, i =>
    if n ≤ i then []
    else
      let at_ := a + i * e
      let va := at_ % 2 ^ 57
      let tr := m.translate tm (m.subOf t.ref) t va
      let size := match tr with | .ok l => l.size | _ => 4096
      { opnd := opnd, elem := i, addr := at_, tr := tr } :: m.operandPages tm t opnd a e n fuel (i + (size - va % size) / e)

/-- Every page the operation touches, the destination's first. -/
def Mach.placedPages (m : Mach) (tm : Team) (t : Thread) (p : PlacedArgs) : List OpPage :=
  let e := tagBytes p.tag
  let n := min p.n 65536
  let fuel := n * e / 4096 + 2
  ((p.d :: p.srcs).zipIdx.map fun q => m.operandPages tm t q.2 q.1 e n fuel 0).flatten

/-- The translation of the page that holds element `i` of an operand. -/
def pageOf (ps : List OpPage) (opnd i : Nat) : Option OpPage :=
  (ps.filter fun p => p.opnd == opnd && p.elem ≤ i).getLast?

/-- FLT_EXC for an element (R120). -/
def placedExc (ps : List OpPage) (opnd i : Nat) : Word :=
  let exc (o : Nat) : Nat := match pageOf ps o i with | some { tr := .ok l, .. } => pteExc l.bits | _ => 0
  match pageOf ps opnd i with
  | some { tr := .ok l, .. } => excWord i opnd (exc opnd) (exc 0) (pteSz l.bits) (pteMig l.bits)
  | _ => excWord i opnd 0 (exc 0) 0 false

/-- A page's first failing check of R111, 2 to 5. -/
def pageCheck (m : Mach) (ctx : Nat) (p : OpPage) : Option Nat :=
  match p.tr with
  | .absent => some 2
  | .miss => none
  | .ok l =>
    if !m.allowed ctx l (p.opnd == 0) false then some 3
    else if !admits l.bits then some 4
    else if pteMig l.bits then some 5
    else none

/-- Rank R119: ascending element, then destination, first source, second source. -/
def firstRank (qs : List (Nat × Nat)) : Option (Nat × Nat) :=
  qs.foldl (fun acc q => match acc with
    | none => some q
    | some b => if q.1 < b.1 || (q.1 == b.1 && decide (q.2 < b.2)) then some q else some b) none

/-- The first element and operand of a split-place offence (R119): a source page whose executor is not the destination's. -/
def splitOffence (ps : List OpPage) : Option (Nat × Nat) :=
  let exc (p : OpPage) : Nat := match p.tr with | .ok l => pteExc l.bits | _ => 0
  let here (o i : Nat) : Option Nat := (pageOf ps o i).map exc
  firstRank ((ps.map fun p => ([1, 2].filter fun o => match here o p.elem, here 0 p.elem with
    | some x, some y => x != y
    | _, _ => false).map fun o => (p.elem, o)).flatten)

/-- The fault of check `c` at an element of an operand (R377). -/
def placedFault (t : Thread) (p : PlacedArgs) (ps : List OpPage) (c : Nat) (at_ : Nat × Nat) : LaneOut :=
  let e := tagBytes p.tag
  let a := (p.d :: p.srcs).getD at_.2 0 + at_.1 * e
  let exc := placedExc ps at_.2 at_.1
  let parked (cause : Nat) : LaneOut :=
    match pageOf ps at_.2 at_.1 with
    | some { tr := .ok l, .. } => parkLeaf cause a exc 4 l none
    | _ => parkAbsent a 4 at_.2 at_.1 none
  match c with
  | 2 => .park 0x10 (BitVec.ofNat 64 a) exc 4 (a % 2 ^ 57 / 4096 * 4096) 4096 none
  | 3 => parked 0x11
  | 4 => .mem 0x14 a exc .none none
  | 5 => parked 0x13
  | _ => if t.uctl.getLsbD 1 then .mem 0x12 a exc .none none else parked 0x12

/-- The checks of a placed operation after its tags (R377); none when it may run. -/
def Mach.placedChecks (m : Mach) (tm : Team) (t : Thread) (p : PlacedArgs) : Option LaneOut :=
  let e := tagBytes p.tag
  let ops := p.d :: p.srcs
  let last := (min p.n 65536 - 1) * e
  if p.n == 0 then none
  else match ops.find? fun a => a % e != 0 with
  | some a => some (.mem 0x20 a 0 .none none)
  | none =>
    let outside := ops.zipIdx.filterMap fun q => if 2 ^ 57 ≤ q.1 + last then some ((2 ^ 57 - q.1) / e, q.2) else none
    match firstRank outside with
    | some (i, o) => some (.mem 0x11 (ops.getD o 0 + i * e) 0 .none none)
    | none =>
      let ps := m.placedPages tm t p
      match ps.find? fun q => match q.tr with
        | .miss => true
        | .ok l => q.opnd == 0 && !pteD l.bits && m.stale l
        | _ => false with
      | some q => some (.miss (q.addr % 2 ^ 57))
      | none =>
        let fails := ps.filterMap fun q => (pageCheck m tm.ctx q).map fun c => (c, q)
        let lowest := fails.foldl (fun a q => min a q.1) 6
        match firstRank ((fails.filter fun q => q.1 == lowest).map fun q => (q.2.elem, q.2.opnd)) with
        | some at_ => some (placedFault t p ps lowest at_)
        | none =>
          match (if t.uctl.getLsbD 0 then none else splitOffence ps) with
          | some at_ => some (placedFault t p ps 6 at_)
          | none => if 65536 < p.n then some .illegal else none

/-! ### Elements (R376) -/

/-- Leaf of an element's address. -/
def Mach.elemLeaf (m : Mach) (tm : Team) (t : Thread) (a : Nat) : Option Leaf :=
  match m.translate tm (m.subOf t.ref) t (a % 2 ^ 57) with
  | .ok l => some l
  | _ => none

/-- Read a source element at its coherence point, but that one at the destination element's own address, `dpa`, is read inside the update;
none when poisoned. -/
def Mach.sourceElem (m : Mach) (tm : Team) (t : Thread) (dpa a e : Nat) : Mach × Option (Nat × Nat) :=
  match m.elemLeaf tm t a with
  | none => (m, none)
  | some l =>
    let pa := l.pa (a % 2 ^ 57)
    if pa == dpa then (m, some (pa, 0))
    else match m.cohRead pa e with
    | (m, some bs) => (m, some (pa, leNat bs))
    | (m, none) => (m.meetPoison t.ref (a % 2 ^ 57), none)

/-- One element's update (R376): a source at the destination element's own address is read inside the update. -/
def Mach.placedElem (m : Mach) (tm : Team) (t : Thread) (p : PlacedArgs) (i : Nat) : Mach :=
  let e := tagBytes p.tag
  let a := p.d + i * e
  match m.elemLeaf tm t a with
  | none => m
  | some l =>
    let dpa := l.pa (a % 2 ^ 57)
    let step (acc : Mach × Option (List (Nat × Nat))) (s : Nat) : Mach × Option (List (Nat × Nat)) :=
      match acc.2 with
      | none => acc
      | some xs =>
        match acc.1.sourceElem tm t dpa (s + i * e) e with
        | (m, some x) => (m, some (xs ++ [x]))
        | (m, none) => (m, none)
    match p.srcs.foldl step (m, some []) with
    | (m, none) => m
    | (m, some xs) =>
      let v (k old : Nat) : Nat := match xs[k]? with
        | some (pa, x) => if pa == dpa then old else x
        | none => p.value
      let (id, m) := m.fresh
      match m.updateGlobal tm t.ref id (a % 2 ^ 57) l e false fun old =>
          some (xApply p.x p.tag (v 0 old) (v 1 old) old) with
      | (m, some _) => m
      | (m, none) => m.meetPoison t.ref (a % 2 ^ 57)

/-- Run elements in a free order (R118, R378): no order binds the elements of one word; the first argument counts them. -/
def Mach.placedRun (m : Mach) (tm : Team) : Nat → List (Thread × PlacedArgs × Nat) → Mach
  | 0, _ => m
  | fuel + 1, es =>
    let (k, m) := m.choose es.length
    match es[k]? with
    | none => m
    | some (t, p, i) => (m.placedElem tm t p i).placedRun tm fuel (es.eraseIdx k)

/-- What a placed word does once for its lanes: every element of every lane. -/
def placedOnce (args : Thread → Option PlacedArgs) (ts : List Thread) (m : Mach) : Mach :=
  match m.team? m.cur.team with
  | none => m
  | some tm =>
    let es := ((ts.filter fun t => !t.helper).map fun t => match args t with
      | some p => (List.range p.n).map fun i => (t, p, i)
      | none => []).flatten
    m.placedRun tm es.length es

/-- A placed word in a lane (R376, R377); a helper's is suppressed. It counts in the stores class, but that of no elements does nothing
more. -/
def placedLane (args : Thread → Option PlacedArgs) (m : Mach) (t : Thread) : LaneOut :=
  if t.helper then .ok id
  else match m.team? t.ref.team, args t with
  | some tm, some p =>
    match m.placedChecks tm t p with
    | some e => e
    | none =>
      let there := (m.placedPages tm t p).findSome? fun q => match q.tr with
        | .ok l => let pa := l.pa (q.addr % 2 ^ 57); if q.opnd == 0 && spaceOf pa == 2 then some (pa, q.addr) else none
        | _ => none
      .ok fun m => if p.n == 0 then m else let (id, m) := m.fresh; m.addOp t.ref { storeOp id 0 with place := there }
  | _, _ => .mismatch t.ref .none

/-- Operands of the two-source form (R260). -/
def placedTwo (x : XOp) (d a b : Reg) (tag : Tag) (n : Reg) (t : Thread) : Option PlacedArgs :=
  match t.pairAt d, t.pairAt a, t.pairAt b, t.i32At n with
  | some pd, some pa, some pb, some k => some { x := x, tag := tag, n := k, d := pd, srcs := [pa, pb], value := 0 }
  | _, _, _, _ => none

/-- Operands of XFIL (R375). -/
def placedFil (d a : Reg) (tag : Tag) (n : Reg) (t : Thread) : Option PlacedArgs :=
  match t.pairAt d, t.i32At n with
  | some pd, some k =>
    if t.tagAt a.toNat == tag && t.formed a.toNat
    then some { x := .fil, tag := tag, n := k, d := pd, srcs := [], value := t.valAt a.toNat } else none
  | _, _ => none

/-- A placed word. -/
def placedWord (i : Instr) (args : Thread → Option PlacedArgs) : WordSem where
  instr := i
  off := 0
  lane := fun m _ t => placedLane args m t
  once := placedOnce args
  ctl := false

/-- XADD (R375). -/
def xaddSem (d a b : Reg) (t : Tag) (n : Reg) : WordSem := placedWord (.xadd d a b t n) (placedTwo .add d a b t n)

def execXadd (d a b : Reg) (t : Tag) (n : Reg) (s : State) : Host.Outcome State Fault Refusal :=
  runWord (xaddSem d a b t n) s

/-- XSUB (R375). -/
def xsubSem (d a b : Reg) (t : Tag) (n : Reg) : WordSem := placedWord (.xsub d a b t n) (placedTwo .sub d a b t n)

def execXsub (d a b : Reg) (t : Tag) (n : Reg) (s : State) : Host.Outcome State Fault Refusal :=
  runWord (xsubSem d a b t n) s

/-- XMUL (R375). -/
def xmulSem (d a b : Reg) (t : Tag) (n : Reg) : WordSem := placedWord (.xmul d a b t n) (placedTwo .mul d a b t n)

def execXmul (d a b : Reg) (t : Tag) (n : Reg) (s : State) : Host.Outcome State Fault Refusal :=
  runWord (xmulSem d a b t n) s

/-- XFMA (R375). -/
def xfmaSem (d a b : Reg) (t : Tag) (n : Reg) : WordSem := placedWord (.xfma d a b t n) (placedTwo .fma d a b t n)

def execXfma (d a b : Reg) (t : Tag) (n : Reg) (s : State) : Host.Outcome State Fault Refusal :=
  runWord (xfmaSem d a b t n) s

/-- XMIN (R375). -/
def xminSem (d a b : Reg) (t : Tag) (n : Reg) : WordSem := placedWord (.xmin d a b t n) (placedTwo .min d a b t n)

def execXmin (d a b : Reg) (t : Tag) (n : Reg) (s : State) : Host.Outcome State Fault Refusal :=
  runWord (xminSem d a b t n) s

/-- XMAX (R375). -/
def xmaxSem (d a b : Reg) (t : Tag) (n : Reg) : WordSem := placedWord (.xmax d a b t n) (placedTwo .max d a b t n)

def execXmax (d a b : Reg) (t : Tag) (n : Reg) (s : State) : Host.Outcome State Fault Refusal :=
  runWord (xmaxSem d a b t n) s

/-- XFIL (R375). -/
def xfilSem (d a : Reg) (t : Tag) (n : Reg) : WordSem := placedWord (.xfil d a t n) (placedFil d a t n)

def execXfil (d a : Reg) (t : Tag) (n : Reg) (s : State) : Host.Outcome State Fault Refusal :=
  runWord (xfilSem d a t n) s

/-! ### XQRY -/

/-- The result for a global page (R380). -/
def Mach.queryWord (m : Mach) (l : Leaf) (va : Nat) : Nat :=
  let pa := l.pa va
  l.bits.toNat / 2 ^ 56 * 2 ^ 56 + m.homeDie pa * 2 ^ 54 + (if spaceOf pa == 0 then m.stackOf pa else 15) * 2 ^ 50
    + sliceOf pa * 2 ^ 45 + pteKey l.bits * 2 ^ 8 + l.bits.toNat % 2 ^ 8

/-- What XQRY reports of a global address (R121), for some teams to which a poisoned table is a fault: a cached leaf or a walk that sets no
A bit, whose leaf the caches take when its A is set already (log 61, DESIGN CHOICE); 0 when there is none or a user-mode context may not see
it. -/
def Mach.query (m : Mach) (us : List Nat) (tm : Team) (t : TRef) (va : Nat) : Mach × Nat :=
  match m.walkNow us tm.core (m.subOf t) tm.ctx va false with
  | (m, none) => (m, 0)
  | (m, some l) =>
    let kmode := match m.ctx? tm.ctx with | some c => c.desc.kmode | none => false
    (m, if pteU l.bits || kmode then m.queryWord l va else 0)

/-- XQRY (R121, R380): it counts in the loads class until its result stands, and holds no request entry (01 R15). A helper's causes no
team fault (02 R385). -/
def xqrySem (d a : Reg) : WordSem :=
  laneWord (.xqry d a) fun m _ t =>
    let dst : Dst := .regs d.toNat .i64 1
    let deliver (v : Nat) (m : Mach) : Mach :=
      let (id, m) := m.fresh
      m.addOp t.ref { valueOp id (valRegs .i64 v) dst false with entry := false }
    match m.team? t.ref.team, t.pairAt a with
    | some tm, some x =>
      match m.resolve tm x 1 with
      | .global va => .ok fun m => let (m, v) := m.query (if t.helper then [] else [tm.uid]) tm t.ref va; deliver v m
      | .bad => .mem 0x11 x 0 dst none
      | w => .ok (deliver (m.mapAddr w))
    | _, _ => .mismatch t.ref dst

def execXqry (d a : Reg) (s : State) : Host.Outcome State Fault Refusal :=
  runWord (xqrySem d a) s

end Sys2Proof.Machine
end

