-- ==== Sys2Proof/Machine/Fences.lean ====
section
/-! DEFINITION. Releases and acquires (07 R125-R134; 23 R349, R350), hurdles (09 R170, R171; 22 R332, R333) and WAITA (09
R165-R168; 24 R373). -/

namespace Sys2Proof.Machine

/-! ### Releases and acquires -/

/-- The cores that a context's scope mask selects: bits of cores that do not run the context select nothing (R126). -/
def Mach.scopeCores (m : Mach) (ctx : Nat) (mask : BitVec 128) : List Nat :=
  (List.range 128).filter fun n => mask.getLsbD n && m.teams.any fun t => t.ctx == ctx && t.core == n && t.occupies

/-- Class of a scope entry for an issuer's core (07 R125): 0 Core, 1 Die, 2 Module, 3 Domain. -/
def Mach.scopeClass (m : Mach) (tm : Team) (s : Nat) : Nat :=
  if s ≤ 3 then s
  else
    let mask := match m.ctx? tm.ctx with | some c => c.scopes.getD (s - 4) 0 | none => 0
    if mask == 0 then 0
    else if (m.scopeCores tm.ctx mask).all fun n => dieOf n == dieOf tm.core then 1
    else 2

/-- Whether every store-class operation of a thread issued before name `upto` has completed. -/
def Thread.storesDone (t : Thread) (upto : Nat) : Bool := t.ops.all fun o => !o.stores || decide (upto ≤ o.id)

/-- Whether every load-class operation of a thread issued before name `upto` has completed. -/
def Thread.loadsDone (t : Thread) (upto : Nat) : Bool := t.ops.all fun o => !o.loads || decide (upto ≤ o.id)

/-- Release(L, s) begins in the lanes of one word (R130): PUBLICATION_COMPLETE carries it on, for all of them together. -/
def Mach.beginRelease (m : Mach) (ts : List TRef) (cls : Nat) : Mach :=
  let (upto, m) := m.fresh
  { m with threads := m.threads.map fun (t : Thread) =>
      if ts.contains t.ref then { t with release := some {
        cls := cls, upto := upto, regions := [], lines := [], counted := false } } else t }

/-- The lanes in which one word's release has not ended. -/
def Mach.releasing (m : Mach) (team : Nat) (r : Release) : List Thread :=
  m.threads.filter fun t => t.ref.team == team && (match t.release with | some q => q.upto == r.upto | none => false)

/-- The die of a team's core. -/
def Mach.teamDie (m : Mach) (team : Nat) : Nat := match m.team? team with | some t => dieOf t.core | none => 0

/-- What a release has still to place (07 R130, R132, R133): the stores that its lanes cover, of Die class those that are not yet at its
die point, another die's in lines that it has not yet placed, and of Module or Domain class every die-held byte of the team. -/
def Mach.toPlace (m : Mach) (team : Nat) (ls : List Thread) (r : Release) : List VByte :=
  let pub := (ls.map fun t => m.pubSet t.ref r.upto).flatten
  m.versions.filter fun b =>
    if r.cls == 1 then
      pub.contains b && !m.atDiePoint (m.teamDie team) b && (b.die == m.teamDie team || !r.lines.contains (lineOf b.pa))
    else pub.contains b && (!b.diePub || decide (2 ≤ r.cls)) || (b.diePub && decide (2 ≤ r.cls) && b.heldFor == team)

/-- Place the bytes of one line by a release's class. -/
def Mach.placeLine (m : Mach) (team line : Nat) (r : Release) (bs : List VByte) : Mach :=
  if r.cls == 1 then m.publishDieLine (m.teamDie team) team line bs else m.publishLine line bs

/-- Write the releases of some lanes. -/
def Mach.setRelease (m : Mach) (ls : List Thread) (r : Option Release) : Mach :=
  { m with threads := m.threads.map fun (t : Thread) => if ls.any (fun x => x.ref == t.ref) then { t with release := r } else t }

/-- A release goes on once the stores it covers have completed (R130). A Core-class one ends. Any other places its bytes line by line,
in a free order; when every line stands, a Module- or Domain-class one counts one round in each region written (R139); then it
ends, a Domain-class one with the peers' copies invalidated. -/
def Mach.stepRelease (m : Mach) (team : Nat) (r : Release) : Mach :=
  let ls := m.releasing team r
  if ls.any (fun t => !t.storesDone r.upto) then m
  else
    let bs := m.toPlace team ls r
    if r.cls == 0 then (m.publishCore bs).setRelease ls none
    else match (if r.counted then [] else byteLines bs) with
    | [] =>
      if 2 ≤ r.cls && !r.counted && !r.regions.isEmpty then
        (m.countRounds r.regions).setRelease ls (some { r with counted := true })
      else (if r.cls == 3 then m.clearRsh else m).setRelease ls none
    | l :: more =>
      let (k, m) := m.choose (more.length + 1)
      let l := (l :: more).getD k l
      (m.placeLine team l r bs).setRelease ls (some { r with
        regions := if isFold l then r.regions else (regionOf l :: r.regions).dedup
        lines := l :: r.lines })

/-- Whether every mirror an acquire waits for has reached its target (R130, R140). -/
def Mach.mirrorsDone (m : Mach) (die : Nat) (ts : List (Nat × Word)) : Bool :=
  ts.all fun p => match m.mirrors.find? fun e => e.1 == die && e.2.1 == p.1 with
    | some e => decide ((e.2.2 - p.2).toNat < 2 ^ 31)
    | none => true

/-- The mirrors of a die that are behind their homes, with the home counters now. -/
def Mach.mirrorTargets (m : Mach) (die : Nat) : List (Nat × Word) :=
  (m.mirrors.filter fun e => e.1 == die && e.2.2 != m.round e.2.1).map fun e => (e.2.1, m.round e.2.1)

/-- Lines that the processor chiplet owns come home: an acquire of Module class or wider orders what it wrote (19 R266, log 40). -/
def Mach.recallChiplet (m : Mach) : Mach :=
  ((m.linemeta.filter fun p => m.ownerOf? p.1 == some 0x8C).map (·.1)).foldl (fun m l => m.recall l) m

/-- Acquire(L, s) in the lanes of one word once their loads are in (R130). -/
def Mach.acquireNow (m : Mach) (tm : Team) (ts : List TRef) (cls : Nat) (targets : List (Nat × Word)) : Mach :=
  let m := if 2 ≤ cls then m.recallChiplet else m
  let m := if cls == 0 then m else m.selfInvalidate tm.core
  { m with threads := m.threads.map fun (t : Thread) =>
      if ts.contains t.ref then { t with wait := if m.mirrorsDone (dieOf tm.core) targets then .ready else .acquire targets } else t }

/-- The lanes of an acquire whose loads are all in go on. -/
def Mach.loadsIn (m : Mach) (tm : Team) (cls upto : Nat) (targets : List (Nat × Word)) : Mach :=
  let ls := m.threads.filter fun t => t.ref.team == tm.uid && t.wait == Wait.loadsDue cls upto targets
  if ls.all (fun t => t.loadsDone upto) then m.acquireNow tm (ls.map (·.ref)) cls targets else m

/-- Acquire(L, s) in the lanes of one word (R130): they wait for their loads issued before it, then for the mirrors to reach the home
counters of its start. -/
def Mach.beginAcquire (m : Mach) (tm : Team) (ts : List TRef) (cls : Nat) : Mach :=
  let (upto, m) := m.fresh
  let targets := if 2 ≤ cls then m.mirrorTargets (dieOf tm.core) else []
  let m := { m with
    threads := m.threads.map fun (t : Thread) => if ts.contains t.ref then { t with wait := .loadsDue cls upto targets } else t }
  m.loadsIn tm cls upto targets

/-- The lanes of a PHSE whose release has ended begin its acquire. -/
def Mach.phseDone (m : Mach) (tm : Team) (cls upto : Nat) : Mach :=
  let ls := m.threads.filter fun t => t.ref.team == tm.uid && t.wait == Wait.phse cls upto
  if ls.any (fun t => t.release.isSome) then m else m.beginAcquire tm (ls.map (·.ref)) cls

/-- What a word does for the issuing team with the class of its scope entry, read at issue (R349). -/
def Mach.withClass (m : Mach) (s : BitVec 5) (f : Mach → Team → Nat → Mach) : Mach :=
  match m.team? m.cur.team with
  | some tm => f m tm (m.scopeClass tm s.toNat)
  | none => m

/-- PREL (R130, R349). -/
def prelSem (s : BitVec 5) : WordSem where
  instr := .prel s
  off := 0
  lane := fun _ _ _ => .ok id
  once := fun ts m => m.withClass s fun m _ cls => m.beginRelease (ts.map (·.ref)) cls
  ctl := false

def execPrel (sc : BitVec 5) (s : State) : Host.Outcome State Fault Refusal :=
  runWord (prelSem sc) s

/-- PACQ (R130, R349). -/
def pacqSem (s : BitVec 5) : WordSem :=
  ctlWord (.pacq s) (fun _ _ _ => .ok id) fun ts m => m.withClass s fun m tm cls => m.beginAcquire tm (ts.map (·.ref)) cls

def execPacq (sc : BitVec 5) (s : State) : Host.Outcome State Fault Refusal :=
  runWord (pacqSem sc) s

/-- PHSE (R130, R349): Release, then Acquire once it has ended. -/
def phseSem (s : BitVec 5) : WordSem :=
  ctlWord (.phse s) (fun _ _ _ => .ok id) fun ts m => m.withClass s fun m _ cls =>
    let upto := m.uid
    let m := m.beginRelease (ts.map (·.ref)) cls
    { m with threads := m.threads.map fun (t : Thread) =>
        if ts.any (fun x => x.ref == t.ref) then { t with wait := .phse cls upto } else t }

def execPhse (sc : BitVec 5) (s : State) : Host.Outcome State Fault Refusal :=
  runWord (phseSem sc) s

/-! ### Hurdles -/

/-- A hurdle's place (R170, R332): aligned to 16 bytes, in the issuer's scratchpad or one of the fold's. -/
def Mach.hurdleAt (m : Mach) (tm : Team) (a : Nat) (d : Dst) (alt : Option (Mach → Mach)) : Except LaneOut (Nat × Nat) :=
  if a % 16 != 0 then .error (.mem 0x20 a 0 d alt)
  else if a / 2 ^ 56 == 0xFC || a / 2 ^ 56 == 0xFE then
    match m.resolve tm a 16 with
    | .scratch u o => .ok (u, o)
    | _ => .error (.mem 0x11 a 0 d alt)
  else .error (.mem 0x11 a 0 d alt)

/-- HRDI's update (R171). -/
def Mach.hurdleInit (m : Mach) (u o expected pending : Nat) : Mach :=
  match m.team? u with
  | none => m
  | some x => m.hurdleWrite u o 0 (((hurdleOf x.scratch o).2.1 + 1) % 2 ^ 16) expected pending

/-- HRDI (R171, R332). -/
def hrdiSem (d a b : Reg) : WordSem :=
  laneWord (.hrdi d a b) fun m _ t =>
    match m.team? t.ref.team, t.pairAt a, t.i32At b, t.pairAt d with
    | some tm, some x, some e, some p =>
      match m.hurdleAt tm x .none none with
      | .error out => out
      | .ok (u, o) =>
        if e == 0 || decide (1024 < e) then .illegal
        else .ok fun m => m.hurdleInit u o e (p % 2 ^ 36)
    | _, _, _, _ => .mismatch t.ref .none

def execHrdi (d a b : Reg) (s : State) : Host.Outcome State Fault Refusal :=
  runWord (hrdiSem d a b) s

/-- HRDA's update (R171): ARRIVED saturates; a helper's arrival is not counted and adds nothing. -/
def Mach.hurdleArrive (m : Mach) (t : TRef) (helper : Bool) (d : Nat) (u o n : Nat) : Mach :=
  match m.team? u with
  | none => m
  | some x =>
    let (a, g, e, p) := hurdleOf x.scratch o
    let m := m.updThread t fun y => y.setRegs d (valRegs .i32 g)
    if helper then m
    else
      let a' := min (a + 1) 0xFFFF
      m.hurdleCheck u o a' g e ((p + n) % 2 ^ 36)

/-- HRDA (R171, R332). A helper's fault is discarded; R37 gives D the GEN that an arrival reads (09 R171), and not what D takes where the
hurdle address is misaligned or outside its space: the model writes zero (log 20, DESIGN CHOICE). -/
def hrdaSem (d a b : Reg) : WordSem :=
  laneWord (.hrda d a b) fun m _ t =>
    let dst : Dst := .regs d.toNat .i32 1
    match m.team? t.ref.team, t.pairAt a, t.i32At b with
    | some tm, some x, some n =>
      match m.hurdleAt tm x dst (some (writes t.ref d.toNat (valRegs .i32 0))) with
      | .error out => out
      | .ok (u, o) => .ok fun m => m.hurdleArrive t.ref t.helper d.toNat u o n
    | _, _, _ => .mismatch t.ref dst

def execHrda (d a b : Reg) (s : State) : Host.Outcome State Fault Refusal :=
  runWord (hrdaSem d a b) s

/-- GEN of a hurdle now. -/
def Mach.genAt (m : Mach) (u o : Nat) : Nat :=
  match m.team? u with | some x => (hurdleOf x.scratch o).2.1 | none => 0

/-- HRDW (R171, R333). A helper whose hurdle address faults goes past the chain with no effect of any word (02 R385). -/
def hrdwSem (a b : Reg) : WordSem :=
  ctlWord (.hrdw a b) (fun m _ t =>
    match m.team? t.ref.team, t.pairAt a, t.i32At b with
    | some tm, some x, some g =>
      match m.hurdleAt tm x .none none with
      | .error out => out
      | .ok (u, o) => .ok fun m =>
        if m.genAt u o != g % 2 ^ 16 then m
        else m.updThread t.ref fun y => { y with wait := .hrdw u o (g % 2 ^ 16) (u != t.ref.team) }
    | _, _, _ => .mismatch t.ref .none) fun _ m => m

def execHrdw (a b : Reg) (s : State) : Host.Outcome State Fault Refusal :=
  runWord (hrdwSem a b) s

/-! ### WAITA -/

/-- What a watch names: its bytes, under whichever generic address. -/
def Watch.place : Watch → Watch
  | .scratch u o => .scratch u o
  | .line pa _ => .line pa 0

/-- Whether two watches are one record: lanes of one group, one address, condition and comparand (R166). -/
def sameRecord (t : TRef) (w : WaitA) (u : TRef) (v : WaitA) : Bool :=
  t.team == u.team && t.tidx / 32 == u.tidx / 32 && w.watch.place == v.watch.place && w.cond == v.cond && w.value == v.value && w.width == v.width

/-- The monitor records a slice holds: one for each group, address, condition and comparand of a watch, and one for each watched
dependence stamp (15 R227). A peer's lines have theirs on the peer (R166). -/
def Mach.sliceRecords (m : Mach) (slice : Nat) : Nat :=
  let here (p : Nat) : Bool := spaceOf p != 2 && m.homeSlice p == slice
  let ws := m.threads.filterMap fun t => match t.wait with
    | .waita w => match w.watch with
      | .line p _ => if w.record && here p then some (t.ref.team, t.ref.tidx / 32, p, w.cond, w.value, w.width) else none
      | _ => none
    | _ => none
  let stamp (held : Bool) (p : Option Nat) : Nat := match p with | some p => (held && here p).toNat | none => 0
  ws.dedup.length + (m.launches.map fun l => stamp l.rec0 l.dep0pa + stamp l.rec1 l.dep1pa).sum

/-- Whether the home of a line has a monitor record free: one of its slice's 512 (R166); a peer's is not known here (log 7). -/
def Mach.recordAt (m : Mach) (p : Nat) : Mach × Bool :=
  if spaceOf p == 2 then let (k, m) := m.choose 2; (m, k == 0) else (m, decide (m.sliceRecords (m.homeSlice p) < 512))

/-- Whether a lane's watch finds a record: one to share, or a free one (R166). -/
def Mach.recordFree (m : Mach) (t : TRef) (w : WaitA) : Mach × Bool :=
  match w.watch with
  | .scratch .. => (m, true)
  | .line p _ =>
    if m.threads.any (fun u => match u.wait with | .waita v => v.record && sameRecord t w u.ref v | _ => false) then (m, true)
    else m.recordAt p

/-- The value a watch sees: the scratchpad, or the coherence point (R166); none when the line is poisoned. -/
def Mach.watched (m : Mach) (w : WaitA) : Mach × Option Nat :=
  match w.watch with
  | .scratch u o => (m, match m.team? u with | some x => some (leNat (x.scratch.read o w.width)) | none => none)
  | .line p _ => match m.cohRead p w.width with
    | (m, some bs) => (m, some (leNat bs))
    | (m, none) => (m, none)

/-- Wake a lane with a result; a write to k0 is discarded (R165). A lane that has slept is ready from the next regroup, another at
once (R373). -/
def Mach.wakeWith (m : Mach) (t : TRef) (k : KIx) (b : Bool) : Mach :=
  m.updThread t fun x => { (x.setPred k b) with wait := match x.wait with | .waita _ => .woken | _ => .ready }

/-- A watch ends: true, or false with cause 0x30 for a poisoned line, but that a helper's fault is discarded (R373). -/
def Mach.endWatch (m : Mach) (t : TRef) (w : WaitA) (b : Bool) : Mach :=
  let m := match w.watch with
    | .line _ va => if b then m else m.meetPoison t va
    | _ => m
  m.wakeWith t w.k b

/-- Evaluate a WAITA (R165): a condition that holds ends it with true; a poisoned line with false and cause 0x30 (R373);
otherwise the lane sleeps. -/
def Mach.watch (m : Mach) (t : TRef) (w : WaitA) : Mach :=
  match m.watched w with
  | (m, some v) =>
    if holds w v then m.endWatch t w true
    else
      let (m, r) := m.recordFree t w
      m.updThread t fun x => { x with wait := .waita { w with record := r } }
  | (m, none) => m.endWatch t w false

/-- WAITA in a lane (R165, R373): helpers' faults are discarded and they wake at once with false. A predicate carries no tag, and 16 R240
names one for FSET's only: FLT_SUB of a memory cause is 0 tagged RAW (log 88, DESIGN CHOICE). -/
def waitaLane (k : KIx) (a b : Reg) (f : Cond) (timeout : Option (BitVec 25)) (m : Mach) (t : Thread) : LaneOut :=
  let no : Option (Mach → Mach) := some fun m => m.wakeWith t.ref k false
  let tag := t.tagAt b.toNat
  if tag == .i64 && b.toNat % 2 != 0 then .trap 1 0 0 sub0 id no
  else match m.team? t.ref.team, t.pairAt a, (tag == .i32 || tag == .i64) && t.formed b.toNat with
  | some tm, some x, true =>
    let n := tagBytes tag
    let deadline := match timeout with
      | some u => if u == 0 then none else some (m.clk + 1024 * u.toNat)
      | none => none
    let go (p : Watch) (foreign : Bool) : LaneOut := .ok fun m => m.watch t.ref {
      k := k, watch := p, width := n, cond := f, value := BitVec.ofNat 64 (t.valAt b.toNat), deadline := deadline
      foreign := foreign, record := false, woken := none }
    if x % n != 0 then .trap 0x20 (BitVec.ofNat 64 x) 0 sub0 id no
    else match m.resolve tm x n with
    | .scratch u o =>
      if x / 2 ^ 56 == 0xFF then .trap 0x11 (BitVec.ofNat 64 x) 0 sub0 id no else go (.scratch u o) (u != t.ref.team)
    | .global va =>
      match m.checkGlobal tm t 1 false x no with
      | .ok l => go (.line (l.pa va) va) false
      | .error e => e
    | _ => .trap 0x11 (BitVec.ofNat 64 x) 0 sub0 id no
  | _, _, _ => .trap 2 0 0 sub0 id no

/-- WAITA (R165, R373). -/
def waitaSem (k : KIx) (a b : Reg) (f : Cond) (timeout : Option (BitVec 25)) : WordSem :=
  ctlWord (.waita k a b f timeout) (fun m _ t => waitaLane k a b f timeout m t) fun _ m => m

def execWaita (k : KIx) (a b : Reg) (f : Cond) (timeout : Option (BitVec 25)) (s : State) : Host.Outcome State Fault Refusal :=
  runWord (waitaSem k a b f timeout) s

end Sys2Proof.Machine
end

