-- ==== Sys2Proof/Machine/Tile.lean ====
section
/-! DEFINITION. Tile words: their checks, what they latch at issue and their place in the tile queue (13 R202-R218; 24
R365-R368). -/

namespace Sys2Proof.Machine

/-- Bytes of a tile (03 R49). -/
def tileBytes : Nat := 49152

/-! ### Entering the queue -/

/-- A tile operation of a chain, before any lane has joined it. -/
def Mach.newTileOp (m : Mach) (tm : Team) (t : TRef) (i : Instr) (order : Nat) : TileOp where
  core := tm.core
  sub := m.subOf t
  order := order
  op := 0
  team := tm.uid
  ctx := tm.ctx
  lanes := []
  instr := i
  addr := none
  pas := []
  base := 0
  num := 0
  dirty := []
  sent := false
  before := []
  cycle := m.clk

/-- A lane joins its chain's tile operation, which its first lane enters in the queue (R205): it counts once in the tile class
for each lane, TST in the stores class too. `q.order` names the chain. -/
def Mach.joinTile (m : Mach) (q : TileOp) (t : TRef) (rs : List RV) (dst : Dst) : Mach :=
  let stores := match q.instr with | .tst .. => true | _ => false
  let bef := match q.instr, m.thread? t with
    | .tld .., some x => (x.ops.filter fun o => o.stores).map fun o => (t, o.id)
    | _, _ => []
  let lane := (t.tidx % 32, t, rs)
  let (op, m) := match m.tileq.find? fun x => x.order == q.order with
    | some x => (x.op, { m with tileq := m.tileq.map fun (y : TileOp) =>
        if y.order == q.order then { y with lanes := y.lanes ++ [lane], before := y.before ++ bef } else y })
    | none =>
      let (id, m) := m.fresh
      (id, { m with tileq := m.tileq ++ [{ q with op := id, lanes := [lane], before := bef }] })
  m.addOp t { id := op, kind := .plain, dst := dst, loads := false, stores := stores, tile := true }

/-- A tile word: `check` is what strikes a lane, given the lowest lane of ACTIVE; a lane that passes joins the operation with
the registers `rs` gives. Nothing is queued when `off` holds of the bundle. -/
def tileWord (i : Instr) (off : List Thread → Bool) (check : Mach → Team → List Thread → Thread → Thread → Option LaneOut)
    (mk : Mach → Team → Thread → TileOp → TileOp) (join : Mach → Team → Thread → Mach → TileOp → Mach) : WordSem :=
  laneWord i fun m bundle t =>
    match bundle.head?, m.team? t.ref.team with
    | some t0, some tm =>
      if off bundle then .ok id
      else match check m tm bundle t0 t with
      | some e => e
      | none =>
        let q := mk m tm t0 (m.newTileOp tm t0.ref i m.uid)
        .ok fun m' => join m tm t m' q
    | _, _ => .illegal

/-- The common way to join: no registers, no destination. -/
def joinPlain (_ : Mach) (_ : Team) (t : Thread) (m : Mach) (q : TileOp) : Mach := m.joinTile q t.ref [] .none

/-- The tag a tile word on this tile meets (R365). -/
def Mach.tagOf (m : Mach) (tm : Team) (td : TIx) : TileTag :=
  (m.tileTag tm (match m.group? m.cur.team m.cur.group with | some g => g.sub | none => 0) td.toNat).getD .f32

/-! ### Addresses (R203, R212, R215) -/

/-- A bundle's mismatch. -/
def LaneOut.badTag (t : Thread) : LaneOut := .mismatch t.ref .none

/-- The pieces of a global range, each within 4 KiB: its address and its translation. -/
def Mach.pieces (m : Mach) (tm : Team) (t : Thread) : Nat → Nat → Nat → List (Nat × Nat × Trans)
  | 0, _, _ => []
  | fuel + 1, a, n =>
    if n == 0 then []
    else
      let k := min n (4096 - a % 4096)
      (a, k, m.translate tm (m.subOf t.ref) t (a % 2 ^ 57)) :: m.pieces tm t fuel (a + k) (n - k)

/-- Checks 2 and 3 of R111 on every page, then, for a merge area, its executor and MIG (R215, R365). -/
def Mach.piecesCheck (m : Mach) (tm : Team) (write area : Bool) (ps : List (Nat × Nat × Trans)) : Option LaneOut :=
  let leaf (p : Nat × Nat × Trans) (f : Leaf → Bool) : Bool := match p.2.2 with | .ok l => f l | _ => false
  let parked (cause : Nat) (p : Nat × Nat × Trans) : LaneOut :=
    match p.2.2 with | .ok l => parkLeaf cause p.1 (leafExcWord l 0) 6 l none | _ => parkAbsent p.1 6 0 0 none
  match ps.find? fun p => p.2.2 == .miss || leaf p (fun l => write && !pteD l.bits && m.stale l) with
  | some p => some (.miss (p.1 % 2 ^ 57))
  | none => match ps.find? fun p => p.2.2 == .absent with
    | some p => some (parked 0x10 p)
    | none => match ps.find? fun p => leaf p fun l => !m.allowed tm.ctx l write false with
      | some p => some (parked 0x11 p)
      | none => if !area then none else match ps.find? fun p => leaf p fun l => pteExc l.bits != 1 with
        | some p => some (.mem 0x14 p.1 (match p.2.2 with | .ok l => leafExcWord l 0 | _ => 0) .none none)
        | none => (ps.find? fun p => leaf p fun l => pteMig l.bits).map (parked 0x13)

/-- The checks of a tile address in the order of R239: alignment, space, pages. `arrays`: scratchpad is allowed (R212). -/
def Mach.tileAddr (m : Mach) (tm : Team) (t : Thread) (a align : Nat) (write arrays : Bool) : Option LaneOut :=
  if a % align != 0 then some (.mem 0x20 a 0 .none none)
  else match m.resolve tm a tileBytes with
  | .scratch .. => if arrays then none else some (.mem 0x11 a 0 .none none)
  | .global _ =>
    if 2 ^ 57 < a + tileBytes then some (.mem 0x11 a 0 .none none)
    else m.piecesCheck tm write (!arrays) (m.pieces tm t 16 a tileBytes)
  | _ => some (.mem 0x11 a 0 .none none)

/-- What a checked address leaves in the operation: on chip, or pieces with NC (a read) or EXC STACK (a write), and where pages are NC. -/
def Mach.latchAddr (m : Mach) (tm : Team) (t : Thread) (a : Nat) (write : Bool) (q : TileOp) : TileOp :=
  match m.resolve tm a tileBytes with
  | .scratch u o => { q with addr := some (.scratch u o) }
  | _ => { q with
    base := a
    ncs := (m.pieces tm t 16 a tileBytes).filterMap fun p => match p.2.2 with
      | .ok l => if pteNc l.bits then some p.1 else none
      | _ => none
    pas := (m.pieces tm t 16 a tileBytes).filterMap fun p => match p.2.2 with
      | .ok l => some (l.pa (p.1 % 2 ^ 57), p.2.1, if write then pteExc l.bits == 3 else pteNc l.bits)
      | _ => none }

/-- A write through a tile address sets D on its pages (06 R112). -/
def Mach.dirtyPages (m : Mach) (tm : Team) (t : Thread) (a : Nat) : Mach → Mach := fun m' =>
  (m.pieces tm t 16 a tileBytes).foldl (fun x p => match p.2.2 with | .ok l => x.setDirty l | _ => x) m'

/-! ### Whole-tile words -/

def neverOff (_ : List Thread) : Bool := false
def allHelpers (ts : List Thread) : Bool := ts.all fun t => t.helper

/-- TZRO (R212). -/
def tzroSem (td : TIx) (g : TileTag) : WordSem :=
  tileWord (.tzro td g) neverOff (fun _ _ _ _ _ => none) (fun _ _ _ q => q) joinPlain

def execTzro (td : TIx) (t : TileTag) (s : State) : Host.Outcome State Fault Refusal :=
  runWord (tzroSem td t) s

/-- TCVT (R212). -/
def tcvtSem (td ta : TIx) (g : TileTag) (rm : Rm) : WordSem :=
  tileWord (.tcvt td ta g rm) neverOff (fun _ _ _ _ _ => none) (fun _ _ _ q => q) joinPlain

def execTcvt (td ta : TIx) (t : TileTag) (rm : Rm) (s : State) : Host.Outcome State Fault Refusal :=
  runWord (tcvtSem td ta t rm) s

/-- TLD (R212, R366). -/
def tldSem (td : TIx) (g : TileTag) (b : Reg) : WordSem :=
  tileWord (.tld td g b) neverOff
    (fun m tm _ t0 t => match t0.pairAt b with
      | none => some (.badTag t)
      | some a => m.tileAddr tm t0 a 128 false true)
    (fun m tm t0 q => m.latchAddr tm t0 ((t0.pairAt b).getD 0) false q) joinPlain

def execTld (td : TIx) (t : TileTag) (b : Reg) (s : State) : Host.Outcome State Fault Refusal :=
  runWord (tldSem td t b) s

/-- TST (R212, R366): suppressed when every lane is a helper. -/
def tstSem (td : TIx) (b : Reg) : WordSem :=
  tileWord (.tst td b) allHelpers
    (fun m tm _ t0 t => match t0.pairAt b with
      | none => some (.badTag t)
      | some a => m.tileAddr tm t0 a 128 true true)
    (fun m tm t0 q => m.latchAddr tm t0 ((t0.pairAt b).getD 0) true q)
    (fun m tm t m' q =>
      let m' := if q.pas.isEmpty then m' else match m.bundle.head? with
        | some t0 => m.dirtyPages tm t0 ((t0.pairAt b).getD 0) m'
        | none => m'
      m'.joinTile q t.ref [] .none)

def execTst (td : TIx) (b : Reg) (s : State) : Host.Outcome State Fault Refusal :=
  runWord (tstSem td b) s

/-- The chunk index or count of the lowest lane, in its range (R216, R217), then the merge area's address. -/
def areaCheck (lo hi : Nat) (write : Bool) (a b : Reg) (m : Mach) (tm : Team) (t0 t : Thread) : Option LaneOut :=
  match t0.pairAt b, t0.i32At a with
  | some p, some x => if x < lo || hi < x then some .illegal else m.tileAddr tm t0 p 4096 write false
  | _, _ => some (.badTag t)

def areaLatch (a b : Reg) (write : Bool) (m : Mach) (tm : Team) (t0 : Thread) (q : TileOp) : TileOp :=
  { m.latchAddr tm t0 ((t0.pairAt b).getD 0) write q with num := (t0.i32At a).getD 0 }

/-- TSPL (R216): suppressed when every lane is a helper. -/
def tsplSem (td : TIx) (a b : Reg) : WordSem :=
  tileWord (.tspl td a b) allHelpers (fun m tm _ t0 t => areaCheck 0 65535 true a b m tm t0 t) (areaLatch a b true)
    (fun m tm t m' q =>
      let m' := match m.bundle.head? with
        | some t0 => m.dirtyPages tm t0 ((t0.pairAt b).getD 0) m'
        | none => m'
      m'.joinTile q t.ref [] .none)

def execTspl (td : TIx) (a b : Reg) (s : State) : Host.Outcome State Fault Refusal :=
  runWord (tsplSem td a b) s

/-- TFCH (R217). -/
def tfchSem (td : TIx) (a b : Reg) : WordSem :=
  tileWord (.tfch td a b) neverOff (fun m tm _ t0 t => areaCheck 1 65536 false a b m tm t0 t) (areaLatch a b false) joinPlain

def execTfch (td : TIx) (a b : Reg) (s : State) : Host.Outcome State Fault Refusal :=
  runWord (tfchSem td a b) s

/-! ### Row words -/

/-- TRDR (R213). -/
def trdrSem (td : TIx) (a : Reg) (g : BitVec 6) : WordSem :=
  tileWord (.trdr td a g) neverOff (fun _ _ _ _ _ => none) (fun _ _ _ q => q)
    (fun m tm t m' q =>
      let tag := (m.tagOf tm td).tag
      m'.joinTile q t.ref [] (.regs a.toNat tag (8 / tag.regs)))

def execTrdr (td : TIx) (a : Reg) (g : BitVec 6) (s : State) : Host.Outcome State Fault Refusal :=
  runWord (trdrSem td a g) s

/-- A block whose registers all carry one tag of a tile, equal to the lowest lane's (R213). -/
def blockFits (a : Reg) (t0 t : Thread) : Bool :=
  (tileOfTag (t.tagAt a.toNat)).isSome && t.tagAt a.toNat == t0.tagAt a.toNat
    && (t.block a.toNat 8).all fun v => v.tag == t.tagAt a.toNat

/-- TWRR (R213). -/
def twrrSem (td : TIx) (a : Reg) (g : BitVec 6) : WordSem :=
  tileWord (.twrr td a g) neverOff
    (fun _ _ _ t0 t => if blockFits a t0 t then none else some (.badTag t)) (fun _ _ _ q => q)
    (fun _ _ t m' q => m'.joinTile q t.ref (t.block a.toNat 8) .none)

def execTwrr (td : TIx) (a : Reg) (g : BitVec 6) (s : State) : Host.Outcome State Fault Refusal :=
  runWord (twrrSem td a g) s

/-- TSCL's checks (R214, R365): an F64 tile takes two pairs from a register divisible by 4. -/
def tsclCheck (td : TIx) (a : Reg) (m : Mach) (tm : Team) (t : Thread) : Option LaneOut :=
  let r := a.toNat
  match m.tagOf tm td with
  | .f64 =>
    if r % 4 != 0 || decide (tm.regs < r + 4) then some .illegal
    else if (t.block r 4).all (fun v => v.tag == .f64) then none else some (.badTag t)
  | .f32 => if (t.block r 2).all (fun v => v.tag == .f32) then none else some (.badTag t)
  | .i32 => some (.badTag t)

/-- TSCL (R214). -/
def tsclSem (td : TIx) (a : Reg) : WordSem :=
  tileWord (.tscl td a) neverOff (fun m tm _ _ t => tsclCheck td a m tm t) (fun _ _ _ q => q)
    (fun _ _ t m' q => m'.joinTile q t.ref (t.block a.toNat 4) .none)

def execTscl (td : TIx) (a : Reg) (s : State) : Host.Outcome State Fault Refusal :=
  runWord (tsclSem td a) s

/-- TRED (R214): an F64 tile needs an even register. -/
def tredSem (td : TIx) (a : Reg) (o : TRedOp) : WordSem :=
  tileWord (.tred td a o) neverOff
    (fun m tm _ _ _ =>
      if m.tagOf tm td == .f64 && (a.toNat % 2 != 0 || decide (tm.regs < a.toNat + 2)) then some .illegal else none)
    (fun _ _ _ q => q)
    (fun m tm t m' q => m'.joinTile q t.ref [] (.regs a.toNat (m.tagOf tm td).tag 1))

def execTred (td : TIx) (a : Reg) (o : TRedOp) (s : State) : Host.Outcome State Fault Refusal :=
  runWord (tredSem td a o) s

/-! ### TMMA (R206-R209, R368) -/

/-- A shape: K, the B formats allowed, the format A's tag gives B (none for KN4), the tile's tag. -/
structure Shape where
  k     : Nat
  fmts  : List BFmt
  own   : Option BFmt
  tile  : TileTag
  deriving DecidableEq, Repr

/-- R206's table. -/
def shapeOf : Tag → Option Shape
  | .e4m3x4 => some { k := 32, fmts := [.e4m3, .e5m2], own := some .e4m3, tile := .f32 }
  | .e5m2x4 => some { k := 32, fmts := [.e4m3, .e5m2], own := some .e5m2, tile := .f32 }
  | .bf16x2 => some { k := 16, fmts := [.bf16], own := some .bf16, tile := .f32 }
  | .f16x2 => some { k := 16, fmts := [.f16], own := some .f16, tile := .f32 }
  | .kn4x8 => some { k := 64, fmts := [.e4m3, .e5m2], own := none, tile := .f32 }
  | .i8x4 => some { k := 32, fmts := [.i8], own := some .i8, tile := .i32 }
  | .f64 => some { k := 4, fmts := [.f64], own := some .f64, tile := .f64 }
  | _ => none

end Sys2Proof.Machine

namespace Sys2Proof

/-- Bytes of a B element (13 R206). -/
def BFmt.size : BFmt → Nat
  | .f64 => 8 | .bf16 => 2 | .f16 => 2 | .e4m3 => 1 | .e5m2 => 1 | .i8 => 1

/-- The tag whose elements have B's format (13 R207). -/
def BFmt.tag : BFmt → Tag
  | .f64 => .f64 | .bf16 => .bf16x2 | .f16 => .f16x2 | .e4m3 => .e4m3x4 | .e5m2 => .e5m2x4 | .i8 => .i8x4

end Sys2Proof

namespace Sys2Proof.Machine

/-- The A block a lane uses: its latch, or the registers read at issue, two more for KN4 (R209). -/
def aBlock (a : Reg) (t : Thread) : List RV :=
  match t.latch with
  | some l => l.regs
  | none => t.block a.toNat 10

/-- The tag of a block whose eight registers agree. -/
def blockTag (rs : List RV) : Option Tag :=
  let g := (rs.headD rv0).tag
  if (rs.take 8).all fun v => v.tag == g then some g else none

/-- The shape a lane's A selects. -/
def laneShape (a : Reg) (t : Thread) : Option Shape :=
  match blockTag (aBlock a t) with | some g => shapeOf g | none => none

/-- The format of B: the extension's, else the lowest lane's A's; none when neither gives one (R368). -/
def bFormat (a : Reg) (ext : Option TmmaExt) (t0 : Thread) : Option BFmt :=
  match (match ext with | some e => e.bfmt | none => none) with
  | some f => some f
  | none => match laneShape a t0 with | some s => s.own | none => none

/-- The shape that every lane's must be (R203, R368): the lowest lane's, or, under a B format of the extension, that of the lowest
lane whose A block selects one that admits it. -/
def tmmaShape (a : Reg) (f : BFmt) (ext : Option TmmaExt) (bundle : List Thread) : Option Shape :=
  match ext with
  | some { bfmt := some _, .. } => bundle.findSome? fun t => (laneShape a t).filter fun s => s.fmts.contains f
  | _ => (bundle.head?.bind (laneShape a)).filter fun s => s.own == some f

/-- A lane of TMMA (R206, R368): its shape, a row of R206's table, must be the bundle's. -/
def tmmaLaneFits (td : TIx) (a : Reg) (f : BFmt) (s0 : Shape) (m : Mach) (tm : Team) (t : Thread) : Bool :=
  match laneShape a t with
  | some s =>
    let rs := aBlock a t
    s.k == s0.k && s.fmts.contains f && s.tile == m.tagOf tm td
      && (s.k != 64 || ((rs.getD 8 rv0).tag == .i32 && (rs.getD 9 rv0).tag == .f32))
  | none => false

/-- Bytes of B: K rows of 384 elements, or 192 for FP64. -/
def bBytes (k : Nat) (f : BFmt) : Nat := k * (if f == .f64 then 192 else 384) * f.size

/-- TMMA's checks (R365, R368), in the order of R239. The spec gives no order between 0x01 of a KN4 lane whose v(A + 9) is at or beyond v(N)
and 0x02 of a lowest lane's pair that is malformed or of a word that chooses no format of B: the model tests 0x02 first (log 29, DESIGN
CHOICE). -/
def tmmaCheck (td : TIx) (a b : Reg) (ext : Option TmmaExt) (m : Mach) (tm : Team) (bundle : List Thread) (t0 t : Thread) :
    Option LaneOut :=
  if bundle.any fun x => match x.latch with | some l => l.a != a.toNat | none => false then some .illegal
  else match t0.pairAt b, bFormat a ext t0 with
  | some p, some f =>
    let kn := blockTag (aBlock a t) == some .kn4x8
    if kn && t.latch.isNone && decide (tm.regs < a.toNat + 10) then some .illegal
    else match tmmaShape a f ext bundle with
    | none => some (.badTag t)
    | some s0 =>
    if !tmmaLaneFits td a f s0 m tm t then some (.badTag t)
    else
      let n := bBytes s0.k f
      if p % 64 != 0 then some (.mem 0x20 p 0 .none none)
      else match m.resolve tm p n with
      | .scratch u _ => if u == tm.uid && p / 2 ^ 56 != 0xFF then none else some (.mem 0x11 p 0 .none none)
      | _ => some (.mem 0x11 p 0 .none none)
  | _, _ => some (.badTag t)

/-- The reuse latch after a TMMA (R209). -/
def latchAfter (ru : Bool) (a : Reg) (t : Thread) : Option Latch :=
  if ru then (match t.latch with
    | some l => some l
    | none => some { a := a.toNat, regs := aBlock a t }) else none

/-- TMMA (R208). -/
def tmmaSem (td : TIx) (a b : Reg) (ru : Bool) (ext : Option TmmaExt) : WordSem :=
  tileWord (.tmma td a b ru ext) neverOff (tmmaCheck td a b ext)
    (fun m tm t0 q => match m.resolve tm ((t0.pairAt b).getD 0) 1 with
      | .scratch u o =>
        let f := (bFormat a ext t0).getD .e4m3
        { q with
          addr := some (.scratch u o)
          fmt := f
          num := match tmmaShape a f ext m.bundle with | some s => bBytes s.k f | none => 0 }
      | _ => q)
    (fun _ _ t m' q =>
      (m'.joinTile q t.ref (aBlock a t) .none).updThread t.ref fun x => { x with latch := latchAfter ru a t })

def execTmma (td : TIx) (a b : Reg) (ru : Bool) (ext : Option TmmaExt) (s : State) : Host.Outcome State Fault Refusal :=
  runWord (tmmaSem td a b ru ext) s

end Sys2Proof.Machine
end

