-- ==== Sys2Proof/Machine/TileUnit.lean ====
section
/-! DEFINITION. Tile units: applying queued tile operations one at a time in the order they issued (13 R205-R220; 24 R366). -/

namespace Sys2Proof.Machine

/-- An event of the machine. -/
def onMach (f : Mach → Mach) (s : State) : Host.Outcome State Fault Refusal := .next { s with m := f s.m }

/-! ### Tiles as rows of elements (03 R49) -/

/-- Columns of a tile: 384, or 192 for F64. -/
def tileCols (g : TileTag) : Nat := if g == .f64 then 192 else 384

/-- Bytes of an element. -/
def tileElem (g : TileTag) : Nat := if g == .f64 then 8 else 4

/-- Values of `w` bytes each. -/
def cutVals (w : Nat) : Nat → List Byte → List Nat
  | 0, _ => []
  | n + 1, bs => leNat (bs.take w) :: cutVals w n (bs.drop w)

/-- Row `i` of a tile under a tag. -/
def tileRow (mem : Memory) (td i : Nat) (g : TileTag) : List Nat :=
  cutVals (tileElem g) (tileCols g) (mem.read (tileBytes * td + 1536 * i) 1536)

/-- Bytes of a row. -/
def rowBytes (g : TileTag) (xs : List Nat) : List Byte := (xs.map fun x => leBytes x (tileElem g)).flatten

/-- Write bytes of a tile. -/
def Mach.putTile (m : Mach) (u td off : Nat) (bs : List Byte) : Mach :=
  m.updTeam u fun t => { t with tileMem := t.tileMem.write (tileBytes * td + off) bs }

def Mach.putRow (m : Mach) (u td i : Nat) (g : TileTag) (xs : List Nat) : Mach := m.putTile u td (1536 * i) (rowBytes g xs)

def Mach.setTileTag (m : Mach) (u td : Nat) (g : TileTag) : Mach :=
  m.updTeam u fun t => { t with tileTags := t.tileTags.set td g }

/-! ### TMMA (R208-R211) -/

/-- Fill constants (R207). -/
def fillConst (f : Fill) (g : TileTag) : Nat :=
  match g, f with
  | _, .zero => 0
  | .i32, .ninf => 0x80000000 | .i32, .pinf => 0x7FFFFFFF
  | .f32, .ninf => 0xFF800000 | .f32, .pinf => 0x7F800000
  | .f64, .ninf => 0xFFF0000000000000 | .f64, .pinf => 0x7FF0000000000000

/-- Masked elements (R210). -/
def masked (ext : Option TmmaExt) (i j : Nat) : Bool :=
  match ext with
  | some e => e.tri && decide ((i : Int) + e.diag.toInt < j)
  | none => false

/-- One element of the product (R208): the A block's registers, K column elements of B. -/
def tmmaElem (rs : List RV) (f : BFmt) (k : Nat) (acc : Nat) (col : List Nat) : Nat :=
  let g := (rs.headD rv0).tag
  let av := (rs.take 8).map fun v => v.bits.toNat
  let all := if g.regs == 1 then (av.map fun v => elems g v).flatten else cutVals 8 4 (leBytes (joinW 32 av) 32)
  match g with
  | .i8x4 => ((all.zip col).foldl (fun s p => s + toS 8 p.1 * toS 8 p.2) (acc : Int) % (2 ^ 32 : Nat)).toNat
  | .f64 => accF64 acc (all.zip col)
  | .kn4x8 => accKn4 acc all (col.map fun b => srcVal f.tag b) ((rs.getD 8 rv0).bits.toNat % 256) (rs.getD 9 rv0).bits.toNat
  | _ => accChunks (k / 16) acc ((all.zip col).map fun p => (srcVal g p.1, srcVal f.tag p.2))

/-- Column `j` of B (R206). -/
def bColumn (bs : List Byte) (f : BFmt) (cols k j : Nat) : List Nat :=
  (List.range k).map fun r => leNat ((bs.drop ((cols * r + j) * f.size)).take f.size)

/-- Whether an overwritten byte of B is used by the products of column `j` in a lane (R211); a KN4 block with scale code 0
forms no product (03 R69). -/
def usesDirty (rs : List RV) (f : BFmt) (cols j : Nat) (dirty : List Nat) : Bool :=
  !((rs.headD rv0).tag == .kn4x8 && (rs.getD 8 rv0).bits.toNat % 256 == 0)
    && dirty.any fun o => o / f.size % cols == j

/-- A row of the product: free values where an overwritten byte is used. -/
def Mach.tmmaRow (m : Mach) (rs : List RV) (f : BFmt) (k : Nat) (g : TileTag) (ext : Option TmmaExt) (bs : List Byte)
    (dirty : List Nat) (i : Nat) (row : List Nat) : Mach × List Nat :=
  let fill := match ext with | some e => fillConst e.fill g | none => 0
  row.zipIdx.foldl (fun (m, out) p =>
    if masked ext i p.2 then (m, out ++ [fill])
    else if usesDirty rs f (tileCols g) p.2 dirty then
      let (v, m) := m.freeVal
      (m, out ++ [v.toNat % 2 ^ (8 * tileElem g)])
    else (m, out ++ [tmmaElem rs f k p.1 (bColumn bs f (tileCols g) k p.2)])) (m, [])

/-- Apply TMMA (R208). -/
def Mach.applyTmma (m : Mach) (q : TileOp) (td : Nat) (ext : Option TmmaExt) : Mach :=
  match q.addr with
  | some (.scratch u o) =>
    let f := q.fmt
    let bs := m.readArray (.scratch u o) q.num
    q.lanes.foldl (fun m p =>
      match m.team? q.team, shapeOf (p.2.2.headD rv0).tag with
      | some tm, some s =>
        let (m, row) := m.tmmaRow p.2.2 f s.k s.tile ext bs q.dirty p.1 (tileRow tm.tileMem td p.1 s.tile)
        m.putRow q.team td p.1 s.tile row
      | _, _ => m) m
  | _ => m

/-! ### Whole tiles (R212) -/

/-- A row converted (R212). -/
def convRow (s g : TileTag) (rm : Rm) (xs : List Nat) : List Nat :=
  if s == g then xs
  else
    let ys := (xs.take 192).map fun x => (convElem s.tag g.tag rm false x).1
    if s == .f64 then ys ++ List.replicate 192 0
    else if g == .f64 then ys
    else xs.map fun x => (convElem s.tag g.tag rm false x).1

/-- Apply TCVT. -/
def Mach.applyTcvt (m : Mach) (q : TileOp) (td ta : Nat) (g : TileTag) (rm : Rm) : Mach :=
  match m.team? q.team with
  | none => m
  | some tm =>
    let s := tm.tileTags.getD ta .f32
    let m := (List.range 32).foldl (fun m i => m.putRow q.team td i g (convRow s g rm (tileRow tm.tileMem ta i s))) m
    m.setTileTag q.team td g

/-- The 128-byte lines of a list of pieces, with each line's offset in the tile and the piece's flag. -/
def linesOf (pas : List (Nat × Nat × Bool)) : List (Nat × Nat × Bool) :=
  (pas.foldl (fun (acc : List (Nat × Nat × Bool) × Nat) p =>
    (acc.1 ++ (List.range (p.2.1 / 128)).map fun i => (p.1 + 128 * i, acc.2 + 128 * i, p.2.2), acc.2 + p.2.1)) ([], 0)).1

/-- A poisoned line met by a tile operation at an offset of its range: a fault of the team (R365), but that helpers alone cause none (02
R385). -/
def Mach.tilePoison (m : Mach) (q : TileOp) (off : Nat) : Mach :=
  if q.lanes.all fun l => match m.thread? l.2.1 with | some t => t.helper | none => false then m
  else m.meet q.team { cause := 0x30, addr := BitVec.ofNat 64 (q.base + off), thread := none }

/-- Apply TLD (R366): lines through the core's snapshot; a poisoned one leaves the tile's bits, as does one of a peer that has become
unreachable (19 R274). -/
def Mach.applyTld (m : Mach) (q : TileOp) (td : Nat) (g : TileTag) : Mach :=
  let m := m.setTileTag q.team td g
  match q.addr, q.lanes with
  | some (.scratch u o), _ => m.putTile q.team td 0 (m.readArray (.scratch u o) tileBytes)
  | _, (_, t, _) :: _ =>
    (linesOf q.pas).foldl (fun m p =>
      if q.cutOff.any fun k => onPeer k p.1 then m else
      let r : LoadReq := {
        pa := p.1, va := q.base + p.2.1, size := 128, nc := p.2.2, alloc := true, bound := none, copy := none, data := none, word := q.op }
      match m.loadBytes q.core t r with
      | (m, some bs) =>
        let since := match m.l1? q.core p.1 with | some c => if p.2.2 then m.uid else c.since | none => m.uid
        (q.lanes.foldl (fun m l => m.observe q.core l.2.1 p.1 128 since) m).putTile q.team td p.2.1 bs
      | (m, none) => m.tilePoison q p.2.1) m
  | _, [] => m

/-- Put the bytes of a TST of some lanes into the version: each behind the bytes that one of the lanes stored later (24 R366,
07 R127). -/
def insertBytes (op : Nat) (refs : List TRef) (vs : List VByte) (new : List VByte) : List VByte :=
  new.foldl (fun vs b =>
    let later (x : VByte) : Bool := x.pa == b.pa && refs.contains x.ref && decide (op < x.op) && !x.diePub
    let k := (vs.zipIdx.filter fun p => later p.1).foldl (fun k p => max k (p.2 + 1)) 0
    vs.take k ++ b :: vs.drop k) vs

/-- The stores of a TST's lanes that were issued before it and are still on their way to a line of the L1 reach it first: the TST's bytes
are those of every lane (R212; 07 R127). -/
def Mach.arriveOlder (m : Mach) (refs : List TRef) (core op line : Nat) : Mach :=
  let mine (b : VByte) : Bool := b.core == core && lineOf b.pa == line && refs.contains b.ref && decide (b.op < op) && !b.inL1 && !b.diePub
  { m with
    uid := m.uid + 1
    versions := (m.versions.filter mine).reverse.foldl (arrive m.uid) m.versions }

/-- Whether a line at an offset of a tile operation's range lies on an NC page. -/
def TileOp.onNc (q : TileOp) (off : Nat) : Bool := q.ncs.any fun a => a / 4096 == (q.base + off) / 4096

/-- A line of a TST enters the version as a store of every lane (R212): it stands in the L1, or, of an NC page, in the ways of a slice (05
R102; 23 R363). -/
def Mach.tstLine (m : Mach) (tm : Team) (q : TileOp) (pa : Nat) (stack nc : Bool) (bs : List Byte) : Mach :=
  match q.lanes with
  | [] => m
  | (_, t, _) :: rest =>
    let m := q.lanes.foldl (fun m l => m.settleLoads tm.core l.2.1 pa q.op) m
    let m := (m.makeRoom tm pa).touchAreas pa 128
    let m := (if nc then m else m.makeSpace tm.core pa).arriveOlder (q.lanes.map fun l => l.2.1) tm.core q.op pa
    let new := (List.range 128).map fun i => ({
      pa := pa + i, byte := bs.getD i 0, ref := t, core := tm.core, op := q.op, inL1 := true, diePub := false
      stack := stack, atomic := false, seen := rest.map fun l => (l.2.1, q.op), vis := m.uid, coreAt := 0, dieAt := 0
      l2 := nc } : VByte)
    { m with
      uid := m.uid + 1
      versions := insertBytes q.op (q.lanes.map fun l => l.2.1) m.versions new }

/-- Apply TST (R212, R366). -/
def Mach.applyTst (m : Mach) (q : TileOp) (td : Nat) : Mach :=
  match m.team? q.team with
  | none => m
  | some tm =>
    let bs := tm.tileMem.read (tileBytes * td) tileBytes
    match q.addr with
    | some (.scratch u o) =>
      match m.team? u with
      | some x => if x.core == q.core then m.scratchPut u o bs else m.scratchWrite u o bs
      | none => m
    | _ => (linesOf q.pas).foldl (fun m p => m.tstLine tm q p.1 p.2.2 (q.onNc p.2.1) ((bs.drop p.2.1).take 128)) m

/-! ### Rows (R213, R214) -/

/-- Registers of a row's column group (R213): eight 32-bit columns under any tag. -/
def Mach.applyTrdr (m : Mach) (q : TileOp) (td a g : Nat) : Mach :=
  match m.team? q.team with
  | none => m
  | some tm =>
    let tag := (tm.tileTags.getD td .f32).tag
    q.lanes.foldl (fun m p =>
      let bs := tm.tileMem.read (tileBytes * td + 1536 * p.1 + 32 * g) 32
      m.updThread p.2.1 fun x => x.setRegs a (regsOf tag 8 (leNat bs))) m

/-- TWRR's row write. -/
def Mach.applyTwrr (m : Mach) (q : TileOp) (td g : Nat) : Mach :=
  let m := q.lanes.foldl (fun m p => m.putTile q.team td (1536 * p.1 + 32 * g) (leBytes (bitsOf p.2.2) 32)) m
  match q.lanes with
  | (_, _, rs) :: _ => match tileOfTag (rs.headD rv0).tag with
    | some t => m.setTileTag q.team td t
    | none => m
  | [] => m

/-- TSCL's row (R214). -/
def Mach.applyTscl (m : Mach) (q : TileOp) (td : Nat) : Mach :=
  match m.team? q.team with
  | none => m
  | some tm =>
    let g := tm.tileTags.getD td .f32
    let fmt := if g == .f64 then fp64 else fp32
    q.lanes.foldl (fun m p =>
      let k := if g == .f64 then 2 else 1
      let s := bitsOf (p.2.2.take k)
      let b := bitsOf ((p.2.2.drop k).take k)
      m.putRow q.team td p.1 g ((tileRow tm.tileMem td p.1 g).map fun x => (fFma fmt .rne false x s b).1)) m

/-- One step of a row reduction (R214). -/
def redStep (o : TRedOp) (g : TileTag) (acc x : Nat) : Nat :=
  match g, o with
  | .i32, .sum => (acc + x) % 2 ^ 32
  | .i32, .sq => (acc + x * x) % 2 ^ 32
  | .i32, .max => iMax 32 acc x
  | .i32, .min => iMin 32 acc x
  | g, o =>
    let fmt := if g == .f64 then fp64 else fp32
    match o with
    | .sum => (fAdd fmt .rne false acc x).1
    | .sq => (fFma fmt .rne false x x acc).1
    | .max => (fMinMax true fmt false acc x).1
    | .min => (fMinMax false fmt false acc x).1

/-- The identity a row reduction starts from (R214, 09 R161). -/
def redStart (o : TRedOp) (g : TileTag) : Nat :=
  match o with
  | .sum | .sq => identity .add g.tag
  | .max => identity .max g.tag
  | .min => identity .min g.tag

/-- Apply TRED. -/
def Mach.applyTred (m : Mach) (q : TileOp) (td a : Nat) (o : TRedOp) : Mach :=
  match m.team? q.team with
  | none => m
  | some tm =>
    let g := tm.tileTags.getD td .f32
    q.lanes.foldl (fun m p =>
      m.updThread p.2.1 fun x =>
        x.setRegs a (valRegs g.tag ((tileRow tm.tileMem td p.1 g).foldl (redStep o g) (redStart o g)))) m

/-! ### Split-K merging (R215-R218) -/

def TileOp.pages (q : TileOp) : List Nat := q.pas.map (·.1)

def Mach.area? (m : Mach) (pages : List Nat) : Option Area := m.areas.find? fun a => a.pages == pages

def Mach.setArea (m : Mach) (a : Area) : Mach :=
  { m with areas := m.areas.map fun (x : Area) => if x.pages == a.pages then a else x }

/-- The die whose slices hold an area. The spec does not say which die's places an area takes whose pages have their homes on several
dies: the model counts it at the die of its first page (log 75, DESIGN CHOICE). -/
def Mach.areaDie (m : Mach) (pages : List Nat) : Nat := m.homeDie (pages.headD 0)

/-- Merge one element (R216). -/
def mergeElem (g : TileTag) (old x : Nat) : Nat := amoApply .add g.tag old x

/-- Merge one chunk of an area at its home slices, line by line (R216): chunk 0 stores, later ones add. -/
def Mach.mergeChunk (m : Mach) (q : TileOp) (a : Area) (chunk : List Byte) : Mach :=
  let m := if a.dirty then m.spoilArea a else m
  let lines := linesOf (a.pages.map fun p => (p, 4096, false))
  let m := lines.foldl (fun m p =>
    let new := (chunk.drop p.2.1).take 128
    if a.next == 0 then m.cohWrite1 p.1 new
    else match m.cohRead p.1 128 with
      | (m, some old) =>
        let w := tileElem a.tag
        let n := 128 / w
        m.cohWrite1 p.1 (rowBytes a.tag ((cutVals w n old).zip (cutVals w n new) |>.map fun e => mergeElem a.tag e.1 e.2))
      | (m, none) => m.tilePoison q p.2.1) m
  m.setArea { a with next := a.next + 1 }

/-- Merge the buffered chunks that follow; at most fifteen stand. -/
def Mach.mergeBuffered (m : Mach) (q : TileOp) (pages : List Nat) : Nat → Mach
  | 0 => m
  | fuel + 1 =>
    match m.area? pages with
    | none => m
    | some a =>
      match a.chunks.find? fun c => c.1 == a.next with
      | none => m
      | some c =>
        (m.mergeChunk q { a with chunks := a.chunks.filter fun x => x.1 != a.next } c.2).mergeBuffered q pages fuel

/-- Whether a queued operation stands in its tile unit: that of a saved team waits with the saved state (R218). -/
def Mach.tileHere (m : Mach) (q : TileOp) : Bool :=
  match m.team? q.team with | some t => t.status != .saved | none => true

/-- The tile operation of a core that applies next (R205). -/
def Mach.oldestTile (m : Mach) (core : Nat) : Option TileOp :=
  (m.tileq.filter fun q => q.core == core && m.tileHere q).foldl (fun acc q => match acc with
    | none => some q
    | some b => if q.first b then some q else some b) none

/-- A chunk reaches its area (R216): merged, buffered or discarded; otherwise it stays at its core. One whose tag differs from the area's
and whose index lies 16 or more ahead fits two rows of the table: the model discards it at once (log 76, DESIGN CHOICE). -/
def Mach.chunkArrival (m : Mach) (core sub : Nat) : Mach :=
  match m.oldestTile core with
  | none => m
  | some q =>
    match q.instr, m.team? q.team with
    | .tspl td _ _, some tm =>
      if q.sub != sub || q.sent || decide (m.clk ≤ q.cycle) then m
      else
        let pages := q.pages
        let g := tm.tileTags.getD td.toNat .f32
        let chunk := tm.tileMem.read (tileBytes * td.toNat) tileBytes
        let go (m : Mach) (a : Area) : Mach :=
          let sent (m : Mach) : Mach := { m with tileq := m.tileq.map fun (x : TileOp) =>
            if x.order == q.order then { x with sent := true } else x }
          if a.tag != g || q.num < a.next || a.chunks.any (fun c => c.1 == q.num) then sent m
          else if a.next + 16 ≤ q.num then m
          else if q.num == a.next then sent ((m.mergeChunk q a chunk).mergeBuffered q pages 16)
          else sent (m.setArea { a with chunks := (q.num, chunk) :: a.chunks })
        match m.area? pages with
        | some a => go m a
        | none =>
          if (m.areas.filter fun a => m.areaDie a.pages == m.areaDie pages).length ≥ 16 then m
          else
            let a : Area := { pages := pages, ctx := q.ctx, next := 0, tag := g, chunks := [], dirty := false }
            if 16 ≤ q.num then m else go { m with areas := m.areas ++ [a] } a
    | _, _ => m

/-- CHUNK_ARRIVAL (R216). -/
def execChunkArrival (core sub : Nat) (s : State) : Host.Outcome State Fault Refusal :=
  onMach (fun m => m.chunkArrival core sub) s

/-- Apply TFCH (R217): copy the area, take its tag, return it to idle. The spec does not say what becomes of chunks from n + 1 on that are
still buffered then: they go with the area (log 76, DESIGN CHOICE). -/
def Mach.applyTfch (m : Mach) (q : TileOp) (td : Nat) : Mach :=
  match m.area? q.pages with
  | none => m
  | some a =>
    let m := if a.dirty then m.spoilArea a else m
    let m := m.setTileTag q.team td a.tag
    let m := (linesOf q.pas).foldl (fun m p =>
      match m.cohRead p.1 128 with
      | (m, some bs) => m.putTile q.team td p.2.1 bs
      | (m, none) => m.tilePoison q p.2.1) m
    { m with areas := m.areas.filter fun x => x.pages != a.pages }

/-! ### Completion -/

/-- Whether an operation can apply now: TLD's stores are in, TSPL's chunk has gone, TFCH's area has reached its count. -/
def Mach.tileReady (m : Mach) (q : TileOp) : Bool :=
  match q.instr with
  | .tld .. => q.before.all fun p => match m.thread? p.1 with
    | some x => x.ops.all fun o => o.id != p.2
    | none => true
  | .tspl .. => q.sent
  | .tfch .. => match m.area? q.pages with | some a => a.next == q.num | none => false
  | _ => true

/-- What a tile operation does when it applies. -/
def Mach.applyTile (m : Mach) (q : TileOp) : Mach :=
  match q.instr with
  | .tmma td _ _ _ ext => m.applyTmma q td.toNat ext
  | .tzro td g =>
    (m.putTile q.team td.toNat 0 (List.replicate tileBytes 0)).setTileTag q.team td.toNat g
  | .tld td g _ => m.applyTld q td.toNat g
  | .tst td _ => m.applyTst q td.toNat
  | .tcvt td ta g rm => m.applyTcvt q td.toNat ta.toNat g rm
  | .trdr td a g => m.applyTrdr q td.toNat a.toNat g.toNat
  | .twrr td _ g => m.applyTwrr q td.toNat g.toNat
  | .tscl td _ => m.applyTscl q td.toNat
  | .tred td a o => m.applyTred q td.toNat a.toNat o
  | .tfch td _ _ => m.applyTfch q td.toNat
  | _ => m

/-- Whether an operation writes a byte of its team's tiles. -/
def TileOp.writes (q : TileOp) (off : Nat) : Bool :=
  let whole (td : TIx) : Bool := off / tileBytes == td.toNat
  let row (td : TIx) : Bool := whole td && q.lanes.any fun l => l.1 == off % tileBytes / 1536
  match q.instr with
  | .tmma td .. | .tscl td _ => row td
  | .twrr td _ g => row td && off % 1536 / 32 == g.toNat
  | .tzro td _ | .tld td .. | .tcvt td .. | .tfch td .. => whole td
  | _ => false

/-- Forget some accesses in every queued operation. -/
def Mach.uncross (m : Mach) (ids : List Nat) : Mach :=
  { m with tileq := m.tileq.map fun (q : TileOp) => { q with crossed := q.crossed.filter fun x => !ids.contains x.1 } }

/-- Put an access after an operation (05 R101): its bytes stand, but for those the operation wrote, where they stand or are lost by a
free choice. Later operations meet the access in their turn. -/
def Mach.crossAfter (m : Mach) (q : TileOp) (x : Nat × Nat × List Byte × List Byte) : Mach :=
  match m.team? q.team with
  | none => m
  | some tm =>
    let now := tm.tileMem.read x.2.1 x.2.2.2.length
    let (k, m) := m.choose 2
    let new := x.2.2.2.zipIdx.map fun p => if k == 1 && q.writes (x.2.1 + p.2) then now.getD p.2 0 else p.1
    { (m.updTeam q.team fun t => { t with tileMem := t.tileMem.write x.2.1 new }) with
      tileq := m.tileq.map fun (y : TileOp) => { y with crossed := y.crossed.map fun z =>
        if z.1 == x.1 then (z.1, z.2.1, now, new) else z } }

/-- Apply an operation. The accesses to its team's tiles made since it issued come before it up to some point, of a free choice, and
after it from there on (05 R101). -/
def Mach.runTile (m : Mach) (q : TileOp) : Mach :=
  if q.crossed.isEmpty then m.applyTile q
  else
    let (k, m) := m.choose (q.crossed.length + 1)
    let late := q.crossed.drop k
    let m := m.uncross ((q.crossed.take k).map (·.1))
    let m := late.reverse.foldl (fun m x => m.updTeam q.team fun t => { t with tileMem := t.tileMem.write x.2.1 x.2.2.1 }) m
    late.foldl (fun m x => m.crossAfter q x) (m.applyTile q)

/-- A tile operation leaves its queue and its lanes' counts (R205, 09 R169). -/
def Mach.endTile (m : Mach) (q : TileOp) : Mach :=
  let m := { m with tileq := m.tileq.filter fun x => x.order != q.order }
  q.lanes.foldl (fun m p => m.dropOp p.2.1 q.op) m

/-- A tile unit finishes its operation, if it is the core's next and the cycle of its issue is over. -/
def Mach.tileComplete (m : Mach) (core sub : Nat) : Mach :=
  match m.oldestTile core with
  | some q => if q.sub == sub && decide (q.cycle < m.clk) && m.tileReady q then (m.runTile q).endTile q else m
  | none => m

/-- TILE_OPERATION_COMPLETE (R205). -/
def execTileOperationComplete (core sub : Nat) (s : State) : Host.Outcome State Fault Refusal :=
  onMach (fun m => m.tileComplete core sub) s

end Sys2Proof.Machine
end

