-- ==== Sys2Proof/Machine/Drover.lean ====
section
/-! DEFINITION. Drovers: queues, acceptance, translations, stamps and crediting (11 R178-R186, R194-R198; 19 R275; 21 R316, R318). -/

namespace Sys2Proof.Machine

/-! ### DCMD and DQRY -/

/-- Free entries of a team's queue (R181). -/
def Team.freeEntries (t : Team) : Nat := 256 - (t.qtail - t.qhead)

/-- The DCMD word of the issuing chain: a chain has one word on the K pipe. -/
def Mach.dcmdWord (m : Mach) : Word := (m.cur.words.find? fun w => w.toNat / 2 ^ 25 % 64 == 0x34).getD 0

/-- Append one lane's entries (R180). -/
def Mach.pushCmd (m : Mach) (t : TRef) (n : Nat) (bs : List Byte) : Mach :=
  let w := m.dcmdWord
  let m := m.updTeam t.team fun x => { x with
    qmem := (List.range n).foldl (fun q e => q.write (32 * ((x.qtail + e) % 256)) ((bs.drop (32 * e)).take 32)) x.qmem
    qtail := x.qtail + n
    qcmds := x.qcmds ++ [(n, t, w)] }
  m.updThread t fun x => { x with drover := x.drover + 1 }

/-- DCMD (R180, R316); a helper pushes nothing. -/
def dcmdSem (n : BitVec 2) (a : Reg) : WordSem :=
  laneWord (.dcmd n a) fun _ _ t =>
    let block := t.block a.toNat (8 * n.toNat)
    if t.helper then .ok id
    else if block.any fun v => v.tag == .raw then .mismatch t.ref .none
    else .ok fun m => m.pushCmd t.ref n.toNat (leBytes (bitsOf block) (32 * n.toNat))

def execDcmd (n : BitVec 2) (a : Reg) (s : State) : Host.Outcome State Fault Refusal :=
  runWord (dcmdSem n a) s

/-- DQRY's value (R181, R318): commands that a save has put back in front of the queue are under way too. -/
def Mach.droverStatus (m : Mach) (t : Team) : Nat :=
  let mine := m.cmds.filter fun c => c.team == t.uid
  (mine.any fun c => c.parked.isSome).toNat * 2 ^ 31 + min (mine.length + t.returned.length) 256 * 2 ^ 9 + t.freeEntries

/-- DQRY (R181, R318): every lane takes the value read at issue. -/
def dqrySem (d : Reg) : WordSem :=
  laneWord (.dqry d) fun m _ t =>
    match m.team? t.ref.team with
    | some tm => .value t.ref d.toNat .i32 (m.droverStatus tm)
    | none => .illegal

def execDqry (d : Reg) (s : State) : Host.Outcome State Fault Refusal :=
  runWord (dqrySem d) s

/-! ### Entries (R182-R184) -/

/-- Word `i` of entry `e`; an entry that was not pushed reads as zero (R197). -/
def Cmd.word (c : Cmd) (e i : Nat) : Nat := (c.entries.getD e 0).toNat / 2 ^ (32 * i) % 2 ^ 32

/-- The 64-bit field at words `i` and `i + 1`. -/
def Cmd.wide (c : Cmd) (e i : Nat) : Nat := c.word e i + 2 ^ 32 * c.word e (i + 1)

/-- A signed word. -/
def Cmd.int (c : Cmd) (e i : Nat) : Int := toS 32 (c.word e i)

def Cmd.kind (c : Cmd) : Nat := c.word 0 0 % 16
def Cmd.count (c : Cmd) : Nat := c.word 0 0 / 16 % 4
def Cmd.elem (c : Cmd) : Nat := c.word 0 0 / 64 % 16
def Cmd.op (c : Cmd) : Nat := c.word 0 0 / 1024 % 16
def Cmd.init (c : Cmd) : Bool := c.word 0 0 / 2 ^ 14 % 2 == 1
def Cmd.crh (c : Cmd) : Bool := c.word 0 0 / 2 ^ 15 % 2 == 1
def Cmd.hurdleOff (c : Cmd) : Nat := 16 * (c.word 0 0 / 2 ^ 16)
def Cmd.fillv (c : Cmd) : Nat := c.word 0 1
def Cmd.staddr (c : Cmd) : Nat := c.wide 0 2
def Cmd.stval (c : Cmd) : Nat := c.wide 0 4
def Cmd.dst (c : Cmd) : Nat := c.wide 0 6
def Cmd.src (c : Cmd) : Nat := c.wide 1 0

/-- The element tag of IDXR and COLL (R182). -/
def Cmd.tag (c : Cmd) : Option Tag :=
  match c.elem with | 1 => some .i32 | 3 => some .f32 | 4 => some .f64 | 5 => some .bf16x2 | _ => none

/-- The reduction operation. -/
def Cmd.redOp (c : Cmd) : AmoOp := match c.op with | 2 => .min | 3 => .max | _ => .add

/-- Element size in bytes, 0 when the fields name none. -/
def Cmd.esize (c : Cmd) : Nat :=
  if c.kind == 5 || c.kind == 8 then (match c.tag with | some t => tagBytes t | none => 0)
  else if c.elem < 4 then 2 ^ c.elem else 0

/-- The payload size that R183 names, from the raw fields, modulo 2^36 (R197). -/
def Cmd.payload (c : Cmd) : Nat :=
  (match c.kind with
  | 0 | 1 | 6 | 7 => c.word 1 2
  | 2 => c.word 1 6 * c.word 1 7 * c.esize
  | 3 => c.word 1 6 * c.word 1 7 * c.word 2 6 * c.esize
  | 4 => c.word 1 4 * c.word 1 5
  | 5 => c.word 1 5
  | 8 => c.word 1 2 * c.esize
  | _ => 0) % 2 ^ 36

/-- The hurdle a command credits: none outside the team's scratchpad (R197). -/
def Cmd.hurdle (c : Cmd) (t : Team) : Option Nat :=
  if c.crh && decide (c.hurdleOff + 16 ≤ 4096 * t.scr) then some c.hurdleOff else none

/-! ### Acceptance (R186) -/

/-- A range a command can touch: its base, the exact offsets of its lowest and highest byte, whether it is written, and
whether it is the stamp. -/
structure Range where
  base  : Nat
  lo    : Int
  hi    : Int
  write : Bool
  stamp : Bool
  deriving DecidableEq, Repr

/-- The sum of the lower, and of the upper, ends of terms that run over `[0, n]` times a stride. -/
def spread : List (Int × Int × Int) → Int × Int
  | [] => (0, 0)
  | (a, b, s) :: rest =>
    let r := spread rest
    (min (a * s) (b * s) + r.1, max (a * s) (b * s) + r.2)

/-- Dimensions of a windowed copy: origin, extent of the window, extent of the tensor, source and destination strides; TEN2
runs with one plane (R184). -/
def Cmd.dims (c : Cmd) : List (Int × Int × Int × Int × Int) :=
  let e : Int := c.esize
  [(c.int 1 4, c.word 1 6, c.word 1 2, e, e), (c.int 1 5, c.word 1 7, c.word 1 3, c.int 2 0, c.int 2 2),
    if c.kind == 3 then (c.int 2 4, c.word 2 6, c.word 2 5, c.int 2 1, c.int 2 3) else (0, 1, 1, 0, 0)]

/-- Ranges of a command (R186 check 4). -/
def Cmd.ranges (c : Cmd) : List Range :=
  let flat (b n : Nat) (w : Bool) : Range := { base := b, lo := 0, hi := (n : Int) - 1, write := w, stamp := false }
  let mine : List Range := match c.kind with
    | 0 | 6 => [flat c.dst (c.word 1 2) true, flat c.src (c.word 1 2) false]
    | 1 | 7 => [flat c.dst (c.word 1 2) true]
    | 2 | 3 =>
      let e : Int := c.esize
      let d := spread (c.dims.map fun x => (0, x.2.1 - 1, x.2.2.2.2))
      let box := c.dims.map fun x => (max 0 x.1, min x.2.2.1 (x.1 + x.2.1) - 1, x.2.2.2.1)
      let s := spread box
      { base := c.dst, lo := d.1, hi := d.2 + e - 1, write := true, stamp := false } ::
        (if box.all fun b => b.1 ≤ b.2.1 then
          [{ base := c.src, lo := s.1, hi := s.2 + e - 1, write := false, stamp := false }] else [])
    | 4 | 5 =>
      let n := c.word 1 4
      let rows := c.word 1 7
      let t := spread [(0, (rows : Int) - 1, c.int 1 6)]
      flat c.dst (if c.kind == 4 then n * c.word 1 5 else c.word 1 5) true ::
        ((if n == 0 then [] else [flat (c.wide 1 2) (4 * n) false]) ++
        (if rows == 0 then [] else
          [{ base := c.src, lo := t.1, hi := t.2 + c.word 1 5 - 1, write := false, stamp := false }]))
    | 8 => [flat c.dst (c.word 1 2 * c.esize) true, flat c.src (c.word 1 2 * c.esize) false, flat (c.wide 1 6) (c.word 1 4) false]
    | _ => []
  mine ++ (if c.staddr == 0 then [] else [{ base := c.staddr, lo := 0, hi := 7, write := true, stamp := true }])

/-- Entries of each kind (R183). -/
def kindCount : Nat → Nat
  | 2 | 3 => 3 | 9 => 1 | _ => 2

/-- Whether every field and limit of R182 and R184 holds. -/
def Cmd.fieldsOk (c : Cmd) : Bool :=
  let k := c.kind
  let w := c.word
  let zero (xs : List (Nat × Nat)) : Bool := xs.all fun x => w x.1 x.2 == 0
  let between (lo hi x : Nat) : Bool := decide (lo ≤ x) && decide (x ≤ hi)
  let tail : List (Nat × Nat) := [(1, 3), (1, 4), (1, 5), (1, 6), (1, 7)]
  let useElem := !(k == 0 || k == 6 || k == 7 || k == 9)
  let useOp := k == 5 || k == 8
  let useFill := k == 2 || k == 3 || k == 4 || k == 5
  let unused := (useElem || c.elem == 0) && (useOp || c.op == 0) && (k == 5 || !c.init) && (useFill || c.fillv == 0)
    && (k != 9 || c.dst == 0)
  let size := !useElem || c.esize != 0
  let ops := !useOp || c.op == 0 || c.op == 2 || c.op == 3 || (k == 8 && c.op == 15)
  let body := match k with
    | 0 | 1 => zero tail && w 1 2 != 0
    | 6 => zero tail && w 1 2 != 0
    | 7 => zero tail && w 1 2 != 0 && c.src == 0
    | 2 | 3 =>
      between 1 65536 (w 1 6) && between 1 65536 (w 1 7) && between 1 (2 ^ 31 - 1) (w 1 2) && between 1 (2 ^ 31 - 1) (w 1 3)
        && (if k == 3 then between 1 65536 (w 2 6) && between 1 (2 ^ 31 - 1) (w 2 5) && w 2 7 == 0
            else zero [(2, 1), (2, 3), (2, 4), (2, 5), (2, 6), (2, 7)])
    | 4 => between 1 65536 (w 1 4) && between 1 65536 (w 1 5)
    | 5 => between 0 65536 (w 1 4) && between 1 65536 (w 1 5)
    | 8 => between 1 (2 ^ 20) (w 1 2) && decide (w 1 3 < 2 ^ 16) && between 1 256 (w 1 4) && decide (w 1 5 < w 1 4)
    | _ => true
  let total := match k with
    | 2 => decide (w 1 6 * w 1 7 * c.esize < 2 ^ 32)
    | 3 => decide (w 1 6 * w 1 7 * w 2 6 * c.esize < 2 ^ 32)
    | 4 => decide (w 1 4 * w 1 5 < 2 ^ 32)
    | _ => true
  unused && size && ops && body && total

/-- Whether the row units of a ROWC lie apart (R191). -/
def Cmd.rowsApart (c : Cmd) : Bool :=
  c.kind != 6 || decide (c.src + c.word 1 2 ≤ c.dst) || decide (c.dst + c.word 1 2 ≤ c.src)

/-- What must be a multiple of what (R185, R191): addresses first, then lengths and strides, each with the address reported. -/
def Cmd.alignments (c : Cmd) : List (Int × Nat × Nat) :=
  let a (x n : Nat) : Int × Nat × Nat := (x, n, x)
  let q (x : Int) (n : Nat) : Int × Nat × Nat := (x, n, c.dst)
  let e := c.esize
  a c.staddr 8 :: match c.kind with
  | 1 => [a c.dst e, q (c.word 1 2) e]
  | 2 | 3 => [a c.dst e, a c.src e] ++ c.dims.map (fun x => q x.2.2.2.1 e) ++ c.dims.map fun x => q x.2.2.2.2 e
  | 4 | 5 => [a c.dst e, a c.src e, a (c.wide 1 2) 4, q (c.word 1 5) e, q (c.int 1 6) e]
  | 8 => [a c.dst e, a c.src e]
  | 6 => [a c.dst 8192, a c.src 8192, q (c.word 1 2) 8192]
  | 7 => [a c.dst 8192, q (c.word 1 2) 8192]
  | _ => []

/-- The first address of a range outside its space (R186 check 4): none when it stays inside. -/
def Range.overflow (r : Range) : Option Nat :=
  let top := r.base / 2 ^ 56
  let at_ (off : Int) (bits : Nat) : Option Nat :=
    if off + r.lo < 0 then some (((r.base : Int) + r.lo) % (2 ^ 64 : Nat)).toNat
    else if ((2 ^ bits : Nat) : Int) ≤ off + r.hi then
      some (((r.base : Int) - off + max ((2 ^ bits : Nat) : Int) (off + r.lo)) % (2 ^ 64 : Nat)).toNat
    else none
  if top ≤ 1 then at_ r.base 57
  else
    let field (bits : Nat) : Option Nat := at_ (r.base % 2 ^ bits : Nat) bits
    if top == 0xFC || top == 0xFE then field 32 else if top == 0xFD then field 21 else if top == 0xFF then field 46 else none

/-- Whether a range's bytes exist for the team and may be used so (R186 check 5, R185). The registers of one thread stand in
512 bytes of the map. -/
def Mach.rangeOk (m : Mach) (t : Team) (global : Bool) (r : Range) : Bool :=
  let a := ((r.base : Int) + r.lo).toNat
  let n := (r.hi - r.lo + 1).toNat
  let isGlobal := decide (r.base / 2 ^ 56 ≤ 1)
  if isGlobal then true
  else if r.stamp then
    match m.resolve t a n with
    | .scratch u _ => u == t.uid && r.base / 2 ^ 56 != 0xFF
    | _ => false
  else if global then false
  else if r.base / 2 ^ 56 == 0xFF && r.base / 2 ^ 46 % 8 == 0 then
    (List.range ((a + n - 1) / 512 + 1 - a / 512)).all fun i =>
      let lo := max a ((a / 512 + i) * 512)
      let hi := min (a + n) ((a / 512 + i + 1) * 512)
      match m.resolve t lo (hi - lo) with | .reg .. => true | _ => false
  else match m.resolve t a n with
    | .bad => false
    | .queue .. => !r.write
    | _ => true

/-- The checks of acceptance in order (R186): status, and the first offending address. -/
def Mach.acceptStatus (m : Mach) (t : Team) (c : Cmd) : Nat × Nat :=
  if 9 < c.kind || c.count != kindCount c.kind || c.entries.length != c.count then (2, c.dst)
  else if !c.fieldsOk then (3, c.dst)
  else match c.alignments.find? fun x => x.1 % (x.2.1 : Int) != 0 with
  | some x => (4, x.2.2)
  | none =>
    if !c.rowsApart then (3, c.dst)
    else match c.ranges.findSome? fun r => r.overflow with
    | some a => (1, a)
    | none =>
      match c.ranges.find? fun r => !m.rangeOk t (5 ≤ c.kind) r with
      | some r => (5, ((r.base : Int) + r.lo).toNat)
      | none => if c.crh && (c.hurdle t).isNone then (5, c.dst) else (0, 0)

/-- Commands that the engine of a class of a core holds, and how many it can hold (R178). -/
def Mach.engineLoad (m : Mach) (core : Nat) (l : Lat) : Nat :=
  (m.cmds.filter fun c => c.lat == l && match m.team? c.team with | some t => t.core == core | none => false).length

def Lat.room (l : Lat) : Nat := if l == .near then 64 else 32

/-- The class of a page, and of two together (R198). -/
def latAt (l : Leaf) : Lat := if spaceOf (ptePa l.bits) == 1 then .far else if spaceOf (ptePa l.bits) == 2 then .peer else .near
def Lat.join (a b : Lat) : Lat := if a == .far || b == .far then .far else if a == .peer || b == .peer then .peer else .near

/-- The class of a page that is not present: the spec classes a command after translation and gives such a page none, so that it is free,
one for each page (log 79, DESIGN CHOICE). -/
def latAbsent (ctx a : Nat) : Lat :=
  match Config.absentTier ctx (a / 4096) % 3 with | 0 => .near | 1 => .far | _ => .peer

/-- The class of the pages over a range as they stand now; the first argument bounds them. -/
def Mach.latOver (m : Mach) (core ctx root : Nat) : Nat → Nat → Nat → Lat
  | 0, _, _ => .near
  | fuel + 1, a, n =>
    if n == 0 then .near
    else
      let step (size : Nat) : Nat := min n (size - a % size)
      let found (l : Leaf) : Lat := (latAt l).join (m.latOver core ctx root fuel (a + step l.size) (n - step l.size))
      let unknown : Lat := (latAbsent ctx a).join (m.latOver core ctx root fuel (a + step 4096) (n - step 4096))
      match m.lookup core 0 ctx a with
      | some l => found l
      | none => match (m.walkFrom (dieOf core) ctx a 5 root).2 with
        | .leaf l => found l
        | .absent _ | .poisoned _ => unknown

/-- The class a command has (R198): by every page of its ranges, and those it holds. -/
def Mach.latOf (m : Mach) (c : Cmd) (t : Team) : Lat :=
  let root := match m.ctx? t.ctx with | some x => x.desc.root | none => 0
  let of_ (r : Range) : Lat :=
    let n := (r.hi - r.lo + 1).toNat
    if r.base / 2 ^ 56 ≤ 1 then m.latOver t.core t.ctx root (n / 4096 + 2) (((r.base : Int) + r.lo).toNat % 2 ^ 57) n else .near
  ((c.ranges.map of_) ++ c.pages.map fun p => latAt p.2).foldl Lat.join .near

/-- The command at the head of a team's queue: one that a save has put back, else the first that was pushed. -/
def Mach.headCmd (m : Mach) (t : Team) : Option Cmd :=
  match t.returned, t.qcmds with
  | c :: _, _ => some { c with lat := m.latOf c t }
  | [], (n, owner, w) :: _ =>
    let es := (List.range n).map fun i => BitVec.ofNat 256 (leNat (t.qmem.read (32 * ((t.qhead + i) % 256)) 32))
    let c : Cmd := {
      id := m.uid, team := t.uid, owner := owner, inst := w, seq := t.qhead, entries := es, next := 0, landed := 0
      done := false, status := 0, badAddr := 0, pieces := [], parked := none, lat := .near, pages := [] }
    some { c with lat := m.latOf c t }
  | [], [] => none

/-- Whether the engine of its class has room for the head of a queue. -/
def Mach.headFits (m : Mach) (t : Team) : Bool :=
  t.occupies && (match m.headCmd t with | some c => decide (m.engineLoad t.core c.lat < c.lat.room) | none => false)

/-- The team whose turn it is in a core's drover (R178): round-robin by team slot over the queues whose head has room. -/
def Mach.droverNext (m : Mach) (core : Nat) : Option Nat :=
  let dist (t : Team) : Nat := (t.slot + 31 - getAssoc 31 core m.droverTurn) % 32
  ((m.teams.filter fun t => t.core == core && m.headFits t).foldl (fun (acc : Option Team) t => match acc with
    | none => some t
    | some b => if dist t < dist b then some t else some b) none).map (·.uid)

/-- The drover takes the next command of a team's queue when it is the team's turn (R178, R186). -/
def Mach.accept (m : Mach) (team : Nat) : Mach :=
  match m.team? team with
  | none => m
  | some t =>
    match m.headCmd t with
    | none => m
    | some c =>
      if m.noAccept || m.droverNext t.core != some team then m
      else
        let m := { m with droverTurn := setAssoc t.core t.slot m.droverTurn }
        match t.returned with
        | _ :: rest => { (m.updTeam team fun x => { x with returned := rest }) with cmds := m.cmds ++ [c] }
        | [] =>
          let st := m.acceptStatus t c
          let m := m.fresh.2.updTeam team fun x => { x with qcmds := x.qcmds.drop 1, qhead := x.qhead + c.entries.length }
          { m with cmds := m.cmds ++ [{ c with done := st.1 != 0, status := st.1, badAddr := BitVec.ofNat 64 st.2 }] }

/-- DROVER_ACCEPT (R186). -/
def execDroverAccept (team : Nat) (s : State) : Host.Outcome State Fault Refusal :=
  onMach (fun m => m.accept team) s

/-! ### Translations of a command (19 R275) -/

/-- Why a command cannot go on: a page not present, or a final status. -/
inductive Stop where
  | park (a : Nat)
  | fail (status a : Nat)
  deriving DecidableEq, Repr

/-- The translation that a command holds for an address. -/
def Mach.heldLeaf (m : Mach) (c : Cmd) (va : Nat) : Option Leaf :=
  match m.cmd? c.id with
  | some x => (x.pages.find? fun p => p.1 ≤ va && decide (va < p.1 + p.2.size)).map (·.2)
  | none => none

/-- The leaf through which a command reads or writes an address: the one it holds, else the caches', else a walk's; at a first write, one
whose entry has changed is walked for anew (19 R275, 06 R112). The spec gives micro caches to sub-cores and none to a drover: a command uses
that of sub-core 0 of its core (log 77, DESIGN CHOICE). -/
def Mach.cmdWalk (m : Mach) (c : Cmd) (t : Team) (va : Nat) (write : Bool) : Mach × Option Leaf :=
  let old (m : Mach) (l : Leaf) : Bool := write && !pteD l.bits && m.stale l
  match (m.heldLeaf c va).filter fun l => !old m l with
  | some l => (m, some l)
  | none => match m.walkNow [t.uid] t.core 0 t.ctx va true with
    | (m, some l) => if old m l then m.walkFor [t.uid] (dieOf t.core) t.ctx va true else (m, some l)
    | (m, none) => (m, none)

/-- A command holds the translation of an address, D set for a write (06 R112). The spec classes commands when they are accepted, and does
not say what becomes of one whose page turns out to lie in another tier, nor of an engine that is full then: the command moves to the class
that all its pages give, whatever its engine holds (log 79, DESIGN CHOICE). -/
def Mach.holdLeaf (m : Mach) (c : Cmd) (va : Nat) (write : Bool) (l : Leaf) : Mach × Leaf :=
  let m := if write then m.setDirty l else m
  let l := if write then { l with bits := l.bits ||| 0x40#64 } else l
  (m.updCmd c.id fun x => { x with
    lat := x.lat.join (latAt l)
    pages := (l.page va, l) :: x.pages.filter fun p => p.1 != l.page va }, l)

/-- A command's translation of an address, which it holds from then on (19 R275), after check 3 of 06 R111. -/
def Mach.cmdLeaf (m : Mach) (c : Cmd) (t : Team) (a : Nat) (write : Bool) : Mach × Except Stop Leaf :=
  let va := a % 2 ^ 57
  match m.cmdWalk c t va write with
  | (m, none) => (m, .error (.park a))
  | (m, some l) =>
    if !m.allowed t.ctx l write false then (m, .error (.fail 0x0006 a))
    else let (m, l) := m.holdLeaf c va write l; (m, .ok l)

/-- Source and destination of a window element; no source outside the tensor (R187). -/
def Cmd.element (c : Cmd) (i : Nat) : Option Nat × Nat :=
  let nx := c.word 1 6
  let ny := c.word 1 7
  let pos : List Int := [(i % nx : Nat), (i / nx % ny : Nat), (i / (nx * ny) : Nat)]
  let xs := c.dims.zip pos
  let inside := xs.all fun p => 0 ≤ p.1.1 + p.2 && p.1.1 + p.2 < p.1.2.2.1
  let src := xs.foldl (fun a p => a + (p.1.1 + p.2) * p.1.2.2.2.1) (c.src : Int)
  let dst := xs.foldl (fun a p => a + p.2 * p.1.2.2.2.2) (c.dst : Int)
  (if inside then some src.toNat else none, dst.toNat)

/-- Elements of a window. -/
def Cmd.window (c : Cmd) : Nat := c.word 1 6 * c.word 1 7 * (if c.kind == 3 then c.word 2 6 else 1)

/-- Bytes from an address. -/
def span (a n : Nat) (write : Bool) : Range := { base := a, lo := 0, hi := (n : Int) - 1, write := write, stamp := false }

/-- What a windowed copy has still to write and to read in one row of its window. -/
def Cmd.rowLeft (c : Cmd) (row : Nat) : List Range :=
  let nx := c.word 1 6
  let first := max c.next (row * nx)
  if (row + 1) * nx ≤ first then []
  else
    let lo := max (first - row * nx : Int) (-c.int 1 4)
    let hi := min ((nx : Int) - 1) ((c.word 1 2 : Int) - c.int 1 4 - 1)
    span (c.element first).2 (((row + 1) * nx - first) * c.esize) true ::
      (if lo ≤ hi then (match (c.element (row * nx + lo.toNat)).1 with
        | some a => [span a ((hi - lo + 1).toNat * c.esize) false]
        | none => []) else [])

/-- The ranges that a command has still to read or write, its stamp apart (19 R275): LIN, FILL, GATH and COLL go upward, TEN2 and TEN3 row
by row, and IDXR reads a column of its table for each element. Of a GATH's table the last row alone is left once its index is known. -/
def Cmd.left (c : Cmd) : List Range :=
  let n := c.word 1 4
  let rb := c.word 1 5
  if c.done then []
  else match c.kind with
  | 0 => [span (c.dst + c.next) (c.word 1 2 - c.next) true, span (c.src + c.next) (c.word 1 2 - c.next) false]
  | 1 => [span (c.dst + c.next) (c.word 1 2 - c.next) true]
  | 2 | 3 => (List.range (c.window / c.word 1 6)).flatMap c.rowLeft
  | 4 =>
    let known := match c.row with | some (j, a) => if j == c.next then some a else none | none => none
    let read := c.next + known.isSome.toNat
    span (c.dst + c.next * rb) ((n - c.next) * rb) true :: span (c.wide 1 2 + 4 * read) (4 * (n - read)) false ::
      (match known with
        | some a => if c.next + 1 == n then [span a rb false] else (c.ranges.filter fun r => !r.stamp).drop 2
        | none => (c.ranges.filter fun r => !r.stamp).drop 2)
  | 5 =>
    let at_ := c.next * c.esize
    span (c.dst + at_) (rb - at_) true :: span (c.wide 1 2) (4 * n) false ::
      (List.range (c.word 1 7)).map fun (i : Nat) => { span ((c.src : Int) + i * c.int 1 6).toNat rb false with lo := at_ }
  | 8 => span (c.dst + c.next) (c.payload - c.next) true :: span (c.src + c.next) (c.payload - c.next) false ::
      (if c.peers.isSome then [] else [span (c.wide 1 6) n false])
  | _ => c.ranges.filter fun r => !r.stamp

/-- Whether a command has reads or payload writes left in a page (R275). -/
def Cmd.uses (c : Cmd) (page bytes : Nat) : Bool :=
  (c.left.any fun r => decide (r.base / 2 ^ 56 ≤ 1) && decide (r.lo ≤ r.hi)
      && decide (((r.base % 2 ^ 57 : Nat) : Int) + r.lo < page + bytes) && decide ((page : Int) ≤ (r.base % 2 ^ 57 : Nat) + r.hi))
    || c.pieces.any fun p => match p.va with | some a => page ≤ a % 2 ^ 57 && decide (a % 2 ^ 57 < page + bytes) | none => false

/-! ### Requests in flight (01 R15) -/

/-- Entries that a command's reads hold until what they read has landed, with `more` bytes read beside. The spec says that drover reads take
entries and not how many: the model takes one for each 128 bytes of payload in flight, none for a fill pattern, which is not read, and none
for IDXR and row commands, whose reads have no payload on its way (log 31, DESIGN CHOICE). -/
def Cmd.entriesFor (c : Cmd) (more : Nat) : Nat :=
  (((c.pieces.filter fun p => !p.fill).map fun p => p.bytes.length).sum + more + 127) / 128

/-- Entries that a command's reads hold now. -/
def Cmd.entriesOut (c : Cmd) : Nat := c.entriesFor 0

/-- Entries of a core in use: operations of its threads, those that its lanes' accesses hold while they walk (06 R113), and its drover's
reads. -/
def Mach.requestsOut (m : Mach) (core : Nat) : Nat :=
  let here (u : Nat) : Bool := match m.team? u with | some y => y.core == core && y.occupies | none => false
  ((m.threads.filter fun x => here x.ref.team).map fun x =>
      (x.ops.filter fun o => !o.tile && o.entry).length + (match x.wait with | .walk _ n => n | _ => 0)).sum
    + ((m.cmds.filter fun c => here c.team).map Cmd.entriesOut).sum

/-! ### Landing and ending -/

/-- Credit `n` bytes of a command to its hurdle (R197). -/
def Mach.creditCmd (m : Mach) (c : Cmd) (n : Nat) : Mach :=
  let m := m.updCmd c.id fun x => { x with landed := x.landed + n }
  match m.team? c.team with
  | some t => match c.hurdle t with
    | some o => if n == 0 then m else m.land c.team o n
    | none => m
  | none => m

/-- Put payload bytes in their place (R135, R197); a whole line clears its poison (05 R105). -/
def Mach.landAt (m : Mach) (d : Landing) (bs : List Byte) : Mach :=
  match d with
  | .pa pa => (cutLines (bs.length / 128 + 2) pa bs).foldl (fun m p => m.payloadWrite p.1 p.2) m
  | .scratch u o => m.scratchWrite u o bs
  | .tile u o => m.writeArray (.tile u o) bs
  | .reg t v b => m.writeReg t v b bs

/-- A piece of payload lands: its bytes, then its credit. -/
def Mach.payloadLand (m : Mach) (cmd piece : Nat) : Mach :=
  match m.cmd? cmd with
  | none => m
  | some c =>
    match c.pieces.find? fun p => p.id == piece with
    | none => m
    | some p =>
      let m := (m.landAt p.dst p.bytes).updCmd cmd fun x => { x with pieces := x.pieces.filter fun q => q.id != piece }
      m.creditCmd c p.bytes.length

/-- PAYLOAD_LAND (R197). -/
def execPayloadLand (cmd piece : Nat) (s : State) : Host.Outcome State Fault Refusal :=
  onMach (fun m => m.payloadLand cmd piece) s

/-- The imprecise fault of a command that failed without a stamp (R196): attributed to the lane, or to the team when the
thread has retired. -/
def Mach.droverFault (m : Mach) (c : Cmd) (addr : DWord) : Mach :=
  let gone := match m.thread? c.owner with | some x => x.wait == Wait.exited | none => true
  m.meet c.team { cause := 0x31, addr := addr, thread := if gone then none else some c.owner }

/-- Write a command's stamp (R194), through the translation that it holds where it holds one; a fault while writing it delivers cause 0x31
(R196). -/
def Mach.stampCmd (m : Mach) (c : Cmd) : Mach :=
  let bs := leBytes (c.stval / 2 ^ 16 * 2 ^ 16 + c.status) 8
  let bad (m : Mach) : Mach := if c.status == 0x000B then m else m.droverFault c (BitVec.ofNat 64 c.staddr)
  match m.team? c.team with
  | none => m
  | some t =>
    if c.staddr % 8 != 0 then bad m
    else match m.resolve t c.staddr 8 with
    | .scratch u o => if u == t.uid && c.staddr / 2 ^ 56 != 0xFF then m.scratchWrite u o bs else bad m
    | .global va =>
      match m.cmdLeaf c t c.staddr true with
      | (m, .ok l) => m.cohWrite (l.pa va) bs
      | (m, .error _) => bad m
    | _ => bad m

/-- A command ends (R194-R197): the bytes not landed are credited, then the stamp is written, or cause 0x31 delivered. -/
def Mach.endCmd (m : Mach) (c : Cmd) : Mach :=
  let m := if c.status == 0 then m else m.creditCmd c (c.payload - min c.landed c.payload)
  let m := if c.staddr != 0 then m.stampCmd c
    else if c.status == 0 || c.status == 0x000B then m else m.droverFault c c.badAddr
  let m := { m with cmds := m.cmds.filter fun x => x.id != c.id }
  m.updThread c.owner fun x => { x with drover := x.drover - 1 }

/-- Whether a command of kind STAMP is the first of its queue that has not ended (R194). -/
def Mach.stampTurn (m : Mach) (c : Cmd) : Bool :=
  c.kind != 9 || m.cmds.all fun x => x.team != c.team || x.id == c.id || decide (c.seq < x.seq)

/-- DROVER_COMMAND_END (R194): the action has ended and every piece has landed; a STAMP that was turned away waits like any other. -/
def execDroverCommandEnd (cmd : Nat) (s : State) : Host.Outcome State Fault Refusal :=
  onMach (fun m => match m.cmd? cmd with
    | some c => if c.done && c.pieces.isEmpty && m.stampTurn c then m.endCmd c else m
    | none => m) s

/-- DROVER_STAMP (R194): a STAMP command ends once every earlier command of its queue has ended. -/
def execDroverStamp (cmd : Nat) (s : State) : Host.Outcome State Fault Refusal :=
  onMach (fun m => match m.cmd? cmd with
    | some c =>
      if c.kind == 9 && !c.done && m.stampTurn c then m.endCmd c else m
    | none => m) s

end Sys2Proof.Machine
end

