-- ==== Sys2Proof/Machine/Engines.lean ====
section
/-! DEFINITION. The drover's engines: copy kinds, gather, indexed reduce, row commands and collectives (11 R187-R193, R198;
07 R132, R135). -/

namespace Sys2Proof.Machine

/-! ### Reads of a command -/

/-- Bytes within an aligned 8: at the die point for the copy kinds, else at the coherence point (R132, R135). A place that is there no
more gives FAULT (R198). -/
def Mach.readPiece (m : Mach) (c : Cmd) (t : Team) (a n : Nat) (home : Bool) : Mach × Except Stop (List Byte) :=
  match m.resolve t a n with
  | .global va =>
    match m.cmdLeaf c t a false with
    | (m, .error e) => (m, .error e)
    | (m, .ok l) =>
      let pa := l.pa va
      let m := m.combine (lineOf pa)
      if m.poisoned pa then (m, .error (.fail 0x0007 a))
      else if home then
        match m.cohRead pa n with
        | (m, some bs) => (m, .ok bs)
        | (m, none) => (m, .error (.fail 0x0007 a))
      else (m, .ok ((List.range n).map fun i => m.dieByte (dieOf t.core) (pa + i)))
  | .bad => (m, .error (.fail 0x0006 a))
  | w => (m, .ok (m.readArray w n))

/-- Bytes of any length, cut at aligned 8; the first argument bounds the pieces. -/
def Mach.readBytes (m : Mach) (c : Cmd) (t : Team) (home : Bool) : Nat → Nat → Nat → Mach × Except Stop (List Byte)
  | 0, _, _ => (m, .ok [])
  | fuel + 1, a, n =>
    if n == 0 then (m, .ok [])
    else
      let k := min n (8 - a % 8)
      match m.readPiece c t a k home with
      | (m, .error e) => (m, .error e)
      | (m, .ok bs) =>
        match m.readBytes c t home fuel (a + k) (n - k) with
        | (m, .ok rest) => (m, .ok (bs ++ rest))
        | (m, .error e) => (m, .error e)

def Mach.cmdRead (m : Mach) (c : Cmd) (t : Team) (home : Bool) (a n : Nat) : Mach × Except Stop (List Byte) :=
  m.readBytes c t home (n / 8 + 2) a n

/-- Where payload bytes within an aligned 8 go. -/
def Mach.landing (m : Mach) (c : Cmd) (t : Team) (a n : Nat) : Mach × Except Stop Landing :=
  match m.resolve t a n with
  | .global va =>
    match m.cmdLeaf c t a true with
    | (m, .ok l) => (m, .ok (.pa (l.pa va)))
    | (m, .error e) => (m, .error e)
  | .scratch u o => (m, .ok (.scratch u o))
  | .tile u o => (m, .ok (.tile u o))
  | .reg r v b => (m, .ok (.reg r v b))
  | _ => (m, .error (.fail 0x0006 a))

/-- Payload on its way: one piece for a whole line of global memory, which clears its poison (05 R105), else for each aligned
8 bytes (07 R129); `fill` that the bytes were not read; the first argument bounds the pieces. -/
def Mach.sendBytes (m : Mach) (c : Cmd) (t : Team) (fill : Bool) : Nat → Nat → List Byte → Mach × Except Stop (List Piece)
  | 0, _, _ => (m, .ok [])
  | fuel + 1, a, bs =>
    if bs.isEmpty then (m, .ok [])
    else
      let whole := a % 128 == 0 && decide (128 ≤ bs.length) && decide (a / 2 ^ 56 ≤ 1)
      let k := if whole then 128 else min bs.length (8 - a % 8)
      match m.landing c t a k with
      | (m, .error e) => (m, .error e)
      | (m, .ok d) =>
        let (id, m) := m.fresh
        match m.sendBytes c t fill fuel (a + k) (bs.drop k) with
        | (m, .ok ps) => (m, .ok ({
            id := id, dst := d, bytes := bs.take k, va := match d with | .pa _ => some a | _ => none
            fill := fill } :: ps))
        | (m, .error e) => (m, .error e)

/-! ### Progress -/

/-- What becomes of a command that cannot go on (R198): parked with a record of kind 5, or ended. -/
def Mach.stopCmd (m : Mach) (c : Cmd) (t : Team) (e : Stop) : Mach :=
  match e with
  | .fail st a => m.updCmd c.id fun x => { x with done := true, status := st, badAddr := BitVec.ofNat 64 a }
  | .park a =>
    let m := m.updCmd c.id fun x => { x with
      parked := some { cause := 0x10, addr := a % 2 ^ 57, page := a % 2 ^ 57 / 4096 * 4096, bytes := 4096 } }
    m.writeRecord t.ctx {
      addr := BitVec.ofNat 64 a, inst := c.inst, taskid := t.taskid, mask := 1#32 <<< (c.owner.tidx % 32), exc := 0
      cause := 0x10, kind := 5, core := t.core, tslot := t.slot, group := c.owner.tidx / 32 }

/-- A part of a payload: its address, its bytes, and whether they are a fill pattern. -/
abbrev Part := Nat × List Byte × Bool

/-- Send the payload of some units and go on behind them; the last one ends the action. -/
def Mach.sendUnit (m : Mach) (c : Cmd) (t : Team) (out : List Part) (next total : Nat) : Mach :=
  let step (acc : Mach × Except Stop (List Piece)) (p : Part) : Mach × Except Stop (List Piece) :=
    match acc.2 with
    | .error _ => acc
    | .ok ps => match acc.1.sendBytes c t p.2.2 (p.2.1.length / 8 + 2) p.1 p.2.1 with
      | (m, .ok qs) => (m, .ok (ps ++ qs))
      | (m, .error e) => (m, .error e)
  match out.foldl step (m, .ok []) with
  | (m, .error e) => m.stopCmd c t e
  | (m, .ok ps) => m.updCmd c.id fun x => { x with pieces := x.pieces ++ ps, next := next, done := decide (total ≤ next) }

/-- Whether a parked command of its queue holds a command back (R198). -/
def Mach.heldBack (m : Mach) (c : Cmd) : Bool :=
  c.lat != .far && m.cmds.any fun x => x.team == c.team && x.parked.isSome && decide (x.seq < c.seq) && x.lat == c.lat



/-! ### Copy kinds (R187, R188) -/

/-- Fill(E) (R187). -/
def Cmd.fill (c : Cmd) : List Byte :=
  (leBytes (if c.esize == 8 then c.fillv * 2 ^ 32 else c.fillv) 8).take c.esize

/-- The table row of index `j` (R188, R189): none outside the table. -/
def Mach.rowOf (m : Mach) (c : Cmd) (t : Team) (home : Bool) (j : Nat) : Mach × Except Stop (Option Nat) :=
  match m.cmdRead c t home (c.wide 1 2 + 4 * j) 4 with
  | (m, .error e) => (m, .error e)
  | (m, .ok bs) =>
    let i := toS 32 (leNat bs)
    if 0 ≤ i && i < c.word 1 7 then (m, .ok (some ((c.src : Int) + i * c.int 1 6).toNat)) else (m, .ok none)

/-- The row of a GATH's next element: the one that it has found before it parked, else the one its index names. -/
def Mach.gathRow (m : Mach) (c : Cmd) (t : Team) : Mach × Except Stop (Option Nat) :=
  match c.row with
  | some (j, a) => if j == c.next then (m, .ok (some a)) else m.rowOf c t false c.next
  | none => m.rowOf c t false c.next

/-- Elements of a windowed copy's next part: up to 256 bytes. -/
def Cmd.tenPart (c : Cmd) : Nat := min (256 / c.esize) (c.window - c.next)

/-- Bytes that the next part of a command reads and sends on. -/
def Mach.readsNext (m : Mach) (c : Cmd) (t : Team) : Nat :=
  match c.kind with
  | 0 => min 256 (c.word 1 2 - c.next)
  | 2 | 3 => ((List.range c.tenPart).filter fun i => (c.element (c.next + i)).1.isSome).length * c.esize
  | 4 => match (m.gathRow c t).2 with | .ok (some _) => c.word 1 5 | _ => 0
  | 8 => if c.peers.isSome then min 256 (c.payload - c.next) else 0
  | _ => 0

/-- Whether the core has entries for the reads of a command's next part (01 R15), if it asks for any. -/
def Mach.readsFit (m : Mach) (c : Cmd) (t : Team) : Bool :=
  let asked := c.entriesFor (m.readsNext c t) - c.entriesOut
  asked == 0 || decide (m.requestsOut t.core + asked ≤ Config.outstanding)

/-- Let the engine do the next part of a command of one kind. -/
def Mach.drive (m : Mach) (cmd kind : Nat) (f : Mach → Cmd → Team → Mach) : Mach :=
  match m.cmd? cmd with
  | none => m
  | some c =>
    match m.team? c.team with
    | none => m
    | some t =>
      if c.kind != kind || c.done || c.parked.isSome || (t.status == .saved && kind != 8) || m.heldBack c || !m.readsFit c t then m
      else f m c t

/-- LIN: the next 256 bytes. -/
def Mach.linStep (m : Mach) (c : Cmd) (t : Team) : Mach :=
  let n := min 256 (c.word 1 2 - c.next)
  match m.cmdRead c t false (c.src + c.next) n with
  | (m, .error e) => m.stopCmd c t e
  | (m, .ok bs) => m.sendUnit c t [(c.dst + c.next, bs, false)] (c.next + n) (c.word 1 2)

/-- LIN (R187). -/
def execLin (cmd : Nat) (s : State) : Host.Outcome State Fault Refusal :=
  onMach (fun m => m.drive cmd 0 fun m c t => m.linStep c t) s

/-- FILL: the next 256 bytes. -/
def Mach.fillStep (m : Mach) (c : Cmd) (t : Team) : Mach :=
  let n := min 256 (c.word 1 2 - c.next)
  let pat := (leBytes c.src 8).take c.esize
  let bs := (List.range n).map fun i => pat.getD (i % c.esize) 0
  m.sendUnit c t [(c.dst + c.next, bs, true)] (c.next + n) (c.word 1 2)

/-- FILL (R187). -/
def execFill (cmd : Nat) (s : State) : Host.Outcome State Fault Refusal :=
  onMach (fun m => m.drive cmd 1 fun m c t => m.fillStep c t) s

/-- TEN2 and TEN3: the next elements, up to 256 bytes. The spec does not say how the payload of a window is cut: each element is a piece of
its own, so that it never clears the poison of a line, also where it covers all of it (log 31, DESIGN CHOICE). -/
def Mach.tenStep (m : Mach) (c : Cmd) (t : Team) : Mach :=
  let n := c.tenPart
  let step (acc : Mach × Except Stop (List Part)) (i : Nat) : Mach × Except Stop (List Part) :=
    match acc.2 with
    | .error _ => acc
    | .ok out =>
      match c.element (c.next + i) with
      | (none, d) => (acc.1, .ok (out ++ [(d, c.fill, true)]))
      | (some a, d) => match acc.1.cmdRead c t false a c.esize with
        | (m, .ok bs) => (m, .ok (out ++ [(d, bs, false)]))
        | (m, .error e) => (m, .error e)
  match (List.range n).foldl step (m, .ok []) with
  | (m, .error e) => m.stopCmd c t e
  | (m, .ok out) => m.sendUnit c t out (c.next + n) c.window

/-- TEN2 (R187). -/
def execTen2 (cmd : Nat) (s : State) : Host.Outcome State Fault Refusal :=
  onMach (fun m => m.drive cmd 2 fun m c t => m.tenStep c t) s

/-- TEN3 (R187). -/
def execTen3 (cmd : Nat) (s : State) : Host.Outcome State Fault Refusal :=
  onMach (fun m => m.drive cmd 3 fun m c t => m.tenStep c t) s

/-- GATH: the next row. -/
def Mach.gathStep (m : Mach) (c : Cmd) (t : Team) : Mach :=
  let rb := c.word 1 5
  let put (m : Mach) (fill : Bool) (bs : List Byte) : Mach := m.sendUnit c t [(c.dst + c.next * rb, bs, fill)] (c.next + 1) (c.word 1 4)
  match m.gathRow c t with
  | (m, .error e) => m.stopCmd c t e
  | (m, .ok none) => put m true ((List.replicate (rb / c.esize) c.fill).flatten)
  | (m, .ok (some a)) => match m.cmdRead c t false a rb with
    | (m, .ok bs) => put m false bs
    | (m, .error e) => (m.updCmd c.id fun x => { x with row := some (c.next, a) }).stopCmd c t e

/-- GATH (R188). -/
def execGath (cmd : Nat) (s : State) : Host.Outcome State Fault Refusal :=
  onMach (fun m => m.drive cmd 4 fun m c t => m.gathStep c t) s

/-! ### IDXR (R189) -/

/-- FillT (R189). -/
def Cmd.fillT (c : Cmd) (tag : Tag) : Nat :=
  match tag with
  | .f64 => c.fillv * 2 ^ 32
  | .bf16x2 => c.fillv % 2 ^ 16 * 0x10001
  | _ => c.fillv

/-- The pages of a range that a command writes, as it would write them (19 R275, 06 R112). -/
def Mach.rangeLeaves (m : Mach) (c : Cmd) (t : Team) : Nat → Nat → Nat → Mach × Except Stop (List (Nat × Leaf))
  | 0, _, _ => (m, .ok [])
  | fuel + 1, a, n =>
    if n == 0 then (m, .ok [])
    else match m.cmdWalk c t (a % 2 ^ 57) true with
    | (m, none) => (m, .error (.park a))
    | (m, some l) =>
      if !m.allowed t.ctx l true false then (m, .error (.fail 0x0006 a))
      else
        let k := min n (l.size - a % l.size)
        match m.rangeLeaves c t fuel (a + k) (n - k) with
        | (m, .ok ls) => (m, .ok ((a, l) :: ls))
        | (m, .error e) => (m, .error e)

/-- The pages of an indexed reduce's destination row (R189). -/
def Mach.rowPages (m : Mach) (c : Cmd) (t : Team) : Mach × Except Stop (List (Nat × Leaf)) :=
  m.rangeLeaves c t (c.word 1 5 / 4096 + 2) c.dst (c.word 1 5)

/-- An indexed reduce holds the translations of its destination row, D set in each: it updates every page of the row through what it has
checked, also one whose entry is changed before its first element there (log 87, DESIGN CHOICE). -/
def Mach.holdPages (m : Mach) (c : Cmd) (ls : List (Nat × Leaf)) : Mach :=
  ls.foldl (fun m p => (m.holdLeaf c (p.1 % 2 ^ 57) true p.2).1) m

/-- An indexed reduce at a STACK page runs in the base die of the stack, which owns the line meanwhile (07 R137). The spec does not say
which of the owned states the line is in: the model leaves the clean copies that the cores and peers hold, so that it is in O where
there may be some, and in M where there is none (log 40, DESIGN CHOICE). -/
def Mach.baseOwns (m : Mach) (l : Leaf) (pa : Nat) : Mach :=
  let line := lineOf pa
  if pteExc l.bits == 3 && spaceOf pa == 0 && !m.poisoned pa then
    let m := m.cohPrep line
    let v := m.meta line
    m.setMeta line (mkMeta (if v.toNat % 32 == 0 then 4 else 3) (0x80 + m.stackOf pa) (sharersOf v) (v.toNat % 2))
  else m

/-- The base dies give their lines back when an indexed reduce ends or parks. -/
def Mach.releaseBases (m : Mach) : Mach :=
  ((m.linemeta.filter fun p => match m.ownerOf? p.1 with | some o => 0x80 ≤ o && decide (o < 0x8C) | none => false).map (·.1)).foldl
    (fun m l => m.recall l) m

/-- One element of an indexed reduce, at its executor. -/
def Mach.idxrElem (m : Mach) (c : Cmd) (t : Team) (tag : Tag) : Mach × Except Stop Unit :=
  let e := tagBytes tag
  let a := c.dst + c.next * e
  match m.cmdLeaf c t a true with
  | (m, .error s) => (m, .error s)
  | (m, .ok l) =>
    let pa := l.pa (a % 2 ^ 57)
    let start := if c.init then (m, .ok (identity c.redOp tag)) else
      match m.cmdRead c t true a e with
      | (m, .ok bs) => (m, .ok (leNat bs))
      | (m, .error s) => (m, .error s)
    let step (acc : Mach × Except Stop Nat) (j : Nat) : Mach × Except Stop Nat :=
      match acc.2 with
      | .error _ => acc
      | .ok v =>
        match acc.1.rowOf c t true j with
        | (m, .error s) => (m, .error s)
        | (m, .ok none) => (m, .ok (amoApply c.redOp tag v (c.fillT tag)))
        | (m, .ok (some r)) => match m.cmdRead c t true (r + c.next * e) e with
          | (m, .ok bs) => (m, .ok (amoApply c.redOp tag v (leNat bs)))
          | (m, .error s) => (m, .error s)
    match (List.range (c.word 1 4)).foldl step start with
    | (m, .error s) => (m, .error s)
    | (m, .ok v) => ((m.cohWrite1 pa (leBytes v e)).baseOwns l pa, .ok ())

/-- IDXR: every page of the row is translated, unless it holds the translation, its executor checked and the translation held (06 R117,
R122); then the next element. It waits while a page has MIG set, and holds none of the row meanwhile. -/
def Mach.idxrStep (m : Mach) (c : Cmd) (t : Team) : Mach :=
  match c.tag with
  | none => m
  | some tag =>
    let go (m : Mach) : Mach :=
      match m.idxrElem c t tag with
      | (m, .error e) => (m.stopCmd c t e).releaseBases
      | (m, .ok ()) =>
        let last := decide (c.word 1 5 ≤ (c.next + 1) * tagBytes tag)
        let m := (m.updCmd c.id fun x => { x with next := x.next + 1, done := last }).creditCmd c (tagBytes tag)
        if last then m.releaseBases else m
    match m.rowPages c t with
    | (m, .error e) => m.stopCmd c t e
    | (m, .ok ls) =>
      let ok (l : Leaf) : Bool := (pteExc l.bits == 1 || pteExc l.bits == 3) && admits l.bits
      match ls.find? fun p => !ok p.2 with
      | some p => m.stopCmd c t (.fail 0x0009 p.1)
      | none => if ls.any fun p => pteMig p.2.bits then m else go (m.holdPages c ls)

/-- IDXR (R189). -/
def execIdxr (cmd : Nat) (s : State) : Host.Outcome State Fault Refusal :=
  onMach (fun m => m.drive cmd 5 fun m c t => m.idxrStep c t) s

/-! ### Row commands (R190-R192) -/

/-- Row units of a range: their virtual addresses. -/
def rowUnits (a n : Nat) : List Nat := (List.range (n / 8192)).map fun i => a + 8192 * i

/-- Translate every row unit before any byte moves (R191): a unit lies within one page of SZ 1 or larger. -/
def Mach.rowLeaves (m : Mach) (c : Cmd) (t : Team) (write : Bool) : List Nat → Mach × Except Stop (List Nat)
  | [] => (m, .ok [])
  | a :: rest =>
    match m.cmdLeaf c t a write with
    | (m, .error e) => (m, .error e)
    | (m, .ok l) =>
      if pteSz l.bits == 0 then (m, .error (.fail 0x0004 a))
      else match m.rowLeaves c t write rest with
      | (m, .ok ps) => (m, .ok (l.pa (a % 2 ^ 57) :: ps))
      | (m, .error e) => (m, .error e)

/-- A row command's write of one line (R192): the home drops every copy, owned data, with the older bytes that it replaced (07 R384), and
partials; the line is I and holds the new bytes. -/
def Mach.rowLine (m : Mach) (pa : Nat) (bs : List Byte) : Mach :=
  let m := m.dropOwned fun b => lineOf b.pa == pa
  let m := { m with
    l1 := m.l1.filter fun x => x.line != pa
    partials := m.partials.filter fun p => p.line != pa
    linemeta := m.linemeta.filter fun p => p.1 != pa
    mem := m.mem.write pa bs }
  m.tidyHints.noteLine pa 128

/-- Lines of a row unit. -/
def unitLines (pa : Nat) : List Nat := (List.range 64).map fun i => pa + 128 * i

/-- Write one row unit with the bytes of another, or with zeros, `after` each line of it: the offset of a poisoned line of the source, if
one stops it. -/
def Mach.rowUnit (m : Mach) (src : Option Nat) (dst : Nat) (after : Mach → Mach) : Mach × Option Nat :=
  (unitLines 0).foldl (fun acc o =>
    match acc.2, src with
    | some _, _ => acc
    | none, none => (after (acc.1.rowLine (dst + o) (List.replicate 128 0)), none)
    | none, some s => match acc.1.cohRead (s + o) 128 with
      | (m, some bs) => (after (m.rowLine (dst + o) bs), none)
      | (m, none) => (m, some o)) (m, none)

/-- Move one row unit of a command; `a` is the generic address of its source. -/
def Mach.rowMove (m : Mach) (c : Cmd) (src : Option Nat) (dst : Nat) (a : Nat) : Mach × Except Stop Unit :=
  match m.rowUnit src dst fun m => m.creditCmd c 128 with
  | (m, none) => (m, .ok ())
  | (m, some o) => (m, .error (.fail 0x0007 (a + o)))

/-- The stack in which a row unit lies, peers' after the module's own: a peer's ranges are taken to be those of this module (log 78,
DESIGN CHOICE); none for the pool. -/
def Mach.rowHome (m : Mach) (pa : Nat) : Option Nat :=
  if spaceOf pa == 0 then some (m.stackOf pa)
  else if spaceOf pa == 2 then some (12 + 12 * (pa / 2 ^ 46 % 256) + m.stackOf (pa % 2 ^ 46))
  else none

/-- Run a row command: SRC of a ROWC, or zeros. -/
def Mach.rowStep (m : Mach) (c : Cmd) (t : Team) (copy : Bool) : Mach :=
  let n := c.word 1 2
  match m.rowLeaves c t true (rowUnits c.dst n) with
  | (m, .error e) => m.stopCmd c t e
  | (m, .ok ds) =>
    match (if copy then m.rowLeaves c t false (rowUnits c.src n) else (m, .ok [])) with
    | (m, .error e) => m.stopCmd c t e
    | (m, .ok ss) =>
      if (ds ++ ss).any (fun p => (m.rowHome p).isNone) || (ds.zip ss).any (fun p => m.rowHome p.1 != m.rowHome p.2) then
        m.stopCmd c t (.fail 0x0008 c.dst)
      else if ss.any fun p => ds.contains p then m.stopCmd c t (.fail 0x0003 c.dst)
      else
        let moves := ds.zipIdx.map fun p => (ss[p.2]?, p.1, c.src + 8192 * p.2)
        match moves.foldl (fun acc p => match acc.2 with
            | .error _ => acc
            | .ok () => acc.1.rowMove c p.1 p.2.1 p.2.2) ((m, .ok ()) : Mach × Except Stop Unit) with
        | (m, .error e) => m.stopCmd c t e
        | (m, .ok ()) => m.updCmd c.id fun x => { x with done := true }

/-- ROWC (R191). -/
def execRowc (cmd : Nat) (s : State) : Host.Outcome State Fault Refusal :=
  onMach (fun m => m.drive cmd 6 fun m c t => m.rowStep c t true) s

/-- ROWZ (R191). -/
def execRowz (cmd : Nat) (s : State) : Host.Outcome State Fault Refusal :=
  onMach (fun m => m.drive cmd 7 fun m c t => m.rowStep c t false) s

/-! ### Collectives (R193) -/

/-- The largest power of two below `n`. -/
def halfPow (n : Nat) : Nat := 2 ^ Nat.log2 (n - 1)

/-- Tree(lo, hi) over ranks (R193); the first argument bounds its depth. -/
def tree (f : List Nat → List Nat → List Nat) (v : Nat → List Nat) : Nat → Nat → Nat → List Nat
  | 0, lo, _ => v lo
  | fuel + 1, lo, hi =>
    if hi - lo ≤ 1 then v lo
    else let mid := lo + halfPow (hi - lo); f (tree f v fuel lo mid) (tree f v fuel mid hi)

/-- `n` elements of the vector of a collective from every rank's (R193). -/
def collResult (c : Cmd) (tag : Tag) (n : Nat) (vs : Nat → List Byte) : List Byte :=
  if c.op == 15 then vs 0
  else
    let e := tagBytes tag
    let v (r : Nat) : List Nat := cutVals e n (vs r)
    let f (x y : List Nat) : List Nat := (x.zip y).map fun p => amoApply c.redOp tag p.1 p.2
    ((tree f v 9 0 (c.word 1 4)).map fun x => leBytes x e).flatten

/-- The next 256 bytes of a collective's result: those of the members' vectors combined. -/
def Mach.collPart (m : Mach) (c : Cmd) (t : Team) (tag : Tag) (peers : List (Nat × List Byte)) : Mach :=
  let n := min 256 (c.payload - c.next)
  match m.cmdRead c t true (c.src + c.next) n with
  | (m, .error e) => m.stopCmd c t e
  | (m, .ok own) =>
    let vec (r : Nat) : List Byte := if r == c.word 1 5 then own
      else match peers.find? fun p => p.1 == r with | some p => (p.2.drop c.next).take n | none => []
    m.sendUnit c t [(c.dst + c.next, collResult c tag (n / tagBytes tag) vec, false)] (c.next + n) c.payload

/-- A collective whose members have all come (R193): `agree` that the peers' commands match, `peers` their vectors by rank; while the
Droveway is off (20 R294) none of them comes. From then on it goes on alone. -/
def Mach.collStep (m : Mach) (c : Cmd) (t : Team) (agree : Bool) (peers : List (Nat × List Byte)) : Mach :=
  let ranks := c.word 1 4
  let mine := c.word 1 5
  match c.tag, c.peers with
  | none, _ => m
  | some tag, some ps => m.collPart c t tag ps
  | some tag, none => match m.cmdRead c t true (c.wide 1 6) ranks with
    | (m, .error e) => m.stopCmd c t e
    | (m, .ok memb) =>
      let ids := memb.map fun b => b.toNat
      let come (r : Nat) : Bool := r == mine || (m.droveway && peers.any fun p => p.1 == r && p.2.length == c.payload)
      if (!agree && m.droveway) || ids.getD mine 256 != m.module || ids.dedup.length != ids.length then m.stopCmd c t (.fail 0x000A c.dst)
      else if (List.range ranks).all come then
        let m := m.updCmd c.id fun x => { x with peers := some peers }
        if m.readsFit { c with peers := some peers } t then m.collPart c t tag peers else m
      else m

/-- COLL (R193). -/
def execColl (cmd : Nat) (agree : Bool) (peers : List (Nat × List Byte)) (s : State) : Host.Outcome State Fault Refusal :=
  onMach (fun m => m.drive cmd 8 fun m c t => m.collStep c t agree peers) s

end Sys2Proof.Machine
end

