-- ==== Sys2Proof/Machine/System.lean ====
section
/-! DEFINITION. SCPG, INVT, XSHT and LNCH (07 R126; 06 R114, R123; 15 R222-R226, R386; 19 R275; 22 R337, R342; 23 R358; 24
R381). -/

namespace Sys2Proof.Machine

/-! ### SCPG -/

/-- SCPG (R126, R358): lanes write in ascending order, so the highest wins. -/
def scpgSem (idx : BitVec 5) (a : Reg) : WordSem :=
  laneWord (.scpg idx a) fun m _ t =>
    match m.team? t.ref.team with
    | some tm =>
      if t.tagAt a.toNat == .b128 && t.formed a.toNat then
        let mask := BitVec.ofNat 128 (t.valAt a.toNat)
        .ok fun m => m.updCtx tm.ctx fun c => { c with scopes := c.scopes.set (idx.toNat - 4) mask }
      else .mismatch t.ref .none
    | none => .illegal

def execScpg (idx : BitVec 5) (a : Reg) (s : State) : Host.Outcome State Fault Refusal :=
  runWord (scpgSem idx a) s

/-! ### Dependence stamps (R386) -/

/-- Translate a stamp's address in a context: its leaf, or the cause. -/
def Mach.stampLeaf (m : Mach) (ctx a : Nat) (write : Bool) : Mach × Except Nat Leaf :=
  match m.walk 0 ctx (a % 2 ^ 57) true with
  | (m, none) => (m, .error 0x10)
  | (m, some l) =>
    if m.allowed ctx l write false then (if write then m.setDirty l else m, .ok l) else (m, .error 0x11)

/-- The record of a stamp that cannot be translated (R386). -/
def Mach.record12 (m : Mach) (ctx a cause : Nat) : Mach :=
  m.writeRecord ctx {
    addr := BitVec.ofNat 64 a, inst := 0, taskid := 0, mask := 0, exc := 0, cause := cause, kind := 12, core := 0, tslot := 0
    group := 0 }

/-- A dependence stamp's translation, its physical address and page; a record when it fails. -/
def Mach.depPa (m : Mach) (ctx : Nat) (dep : Option (Nat × DWord)) : Mach × Option (Nat × Nat × Nat) :=
  match dep with
  | none => (m, none)
  | some (a, _) => match m.stampLeaf ctx a false with
    | (m, .ok l) => (m, some (l.pa (a % 2 ^ 57), l.page (a % 2 ^ 57), l.size))
    | (m, .error c) => (m.record12 ctx a c, none)

/-- Whether a dependence stamp is at or above its minimum, read at the coherence point (R227). -/
def Mach.depMet (m : Mach) (dep : Option (Nat × DWord)) (pa : Option Nat) : Mach × Bool :=
  match dep, pa with
  | none, _ => (m, true)
  | some _, none => (m, false)
  | some (_, v), some p => match m.cohRead p 8 with
    | (m, some bs) => (m, decide (v.toNat ≤ leNat bs))
    | (m, none) => (m, false)

/-- Watch a dependence stamp where it stands (R227): whether a slice's record holds the watch, and whether its minimum is met. -/
def Mach.watchStamp (m : Mach) (dep : Option (Nat × DWord)) (pa : Option Nat) : Mach × Bool × Bool :=
  match pa with
  | none => (m, false, dep.isNone)
  | some p =>
    let (m, r) := m.recordAt p
    let (m, b) := m.depMet dep pa
    (m, r, b)

/-- Translate a launch's dependence stamps, those that `again` names, and watch them where they now stand. -/
def Mach.placeStamps (m : Mach) (l : Launch) (again : Option (Nat × DWord) → Option (Nat × Nat) → Bool) : Mach × Launch :=
  let (m, l) := if again l.dep0 l.page0 then
      let (m, p) := m.depPa l.ctx l.dep0
      let (m, r, b) := m.watchStamp l.dep0 (p.map (·.1))
      (m, { l with dep0pa := p.map (·.1), page0 := p.map (·.2), rec0 := r, met0 := b || (l.met0 && l.dep0pa == p.map (·.1)) })
    else (m, l)
  if again l.dep1 l.page1 then
    let (m, p) := m.depPa l.ctx l.dep1
    let (m, r, b) := m.watchStamp l.dep1 (p.map (·.1))
    (m, { l with dep1pa := p.map (·.1), page1 := p.map (·.2), rec1 := r, met1 := b || (l.met1 && l.dep1pa == p.map (·.1)) })
  else (m, l)

/-! ### Dropping translations (R114, R275) -/

/-- What an invalidation names. -/
inductive Cover where
  | page (va lo bytes : Nat)
  | nonGlobal
  | all
  deriving DecidableEq, Repr

/-- The pages of cached and held leaves of a context that contain an address. -/
def Mach.oldPages (m : Mach) (ctx va : Nat) : List (Nat × Nat) :=
  let mine (u : Nat) : Bool := match m.team? u with | some x => x.ctx == ctx | none => false
  (((m.tlb.filter fun e => e.ctx == ctx).map fun e => (e.page, e.bytes))
    ++ ((m.cmds.filter fun c => mine c.team).map fun c => c.pages.map fun p => (p.1, p.2.size)).flatten
    ++ ((m.launches.filter fun l => l.ctx == ctx).map fun l => l.page0.toList ++ l.page1.toList).flatten).filter
      fun p => p.1 ≤ va && decide (va < p.1 + p.2)

/-- The page of an address: as it stands in the tables now, read anew; where there is none, the largest that a cached or held leaf
still gives it, else its 4 KiB granule. -/
def Mach.coverOf (m : Mach) (ctx va : Nat) : Cover :=
  match m.tableLeaf ctx va with
  | some l => .page va (l.page va) l.size
  | none =>
    let p := (m.oldPages ctx va).foldl (fun (a : Nat × Nat) p => if a.2 < p.2 then p else a) (va / 4096 * 4096, 4096)
    .page va p.1 p.2

/-- Whether a held translation goes: a page that holds the address named, or meets the page named, whatever its size was. -/
def Cover.drops (c : Cover) (page : Nat) (l : Leaf) : Bool :=
  match c with
  | .page va lo n => (page ≤ va && decide (va < page + l.size)) || (page < lo + n && decide (lo < page + l.size))
  | .nonGlobal => !pteG l.bits
  | .all => true

/-- Whether a walk cache's table entry goes: one above the page named, or for a part of it. -/
def Cover.dropsTable (c : Cover) (w : WalkEnt) : Bool :=
  match c with
  | .page _ lo n => decide (w.va * 2 ^ (12 + 9 * w.level) < lo + n) && decide (lo < (w.va + 1) * 2 ^ (12 + 9 * w.level))
  | _ => true

/-- Whether an address lies where the invalidation replays (R114). -/
def Cover.names (c : Cover) (a : Nat) : Bool :=
  match c with
  | .page _ lo n => lo ≤ a && decide (a < lo + n)
  | _ => true

/-- Whether an invalidation covers a dependence stamp: its address, or the page that it stands translated through (R386). -/
def Cover.covers (c : Cover) (dep : Option (Nat × DWord)) (page : Option (Nat × Nat)) : Bool :=
  (match dep with | some (a, _) => c.names (a % 2 ^ 57) | none => false)
    || match c, page with
      | .page va lo n, some p => (p.1 ≤ va && decide (va < p.1 + p.2)) || (p.1 < lo + n && decide (lo < p.1 + p.2))
      | _, _ => false

/-- Whether a context's ring of records is full (16 R246). -/
def Mach.ringFull (m : Mach) (ctx : Nat) : Bool :=
  match m.ctx? ctx with | some x => (x.fqhead - m.fqTail x).toNat == x.desc.fqsize | none => false

/-- A record of kind 12 of a completion stamp, kept for a later INVT when the ring is full (16 R246). -/
def Mach.recordLost (m : Mach) (ctx a cause : Nat) : Mach :=
  let full := m.ringFull ctx
  let m := m.record12 ctx a cause
  if full then m.updCtx ctx fun x => { x with lost := x.lost ++ [(a, cause)] } else m

/-- Write again the records of completion stamps that a full ring lost and that an invalidation covers (16 R246). -/
def Mach.rewriteLost (m : Mach) (ctx : Nat) (c : Cover) : Mach :=
  match m.ctx? ctx with
  | none => m
  | some x =>
    let now := x.lost.filter fun p => c.names (p.1 % 2 ^ 57)
    now.foldl (fun m p => m.recordLost ctx p.1 p.2) (m.updCtx ctx fun y => { y with lost := x.lost.filter fun p => !now.contains p })

/-- Translate again the dependence stamps of a context that an invalidation covers (R386). The spec does not say whether a stamp that
still fails gets a further record of kind 12: the model writes one at each translation that fails (log 80, DESIGN CHOICE). -/
def Mach.retranslate (m : Mach) (ctx : Nat) (c : Cover) : Mach :=
  (m.rewriteLost ctx c).launches.foldl (fun m l =>
    if l.ctx != ctx || decide (l.folds ≤ l.next) || !(c.covers l.dep0 l.page0 || c.covers l.dep1 l.page1) then m
    else
      let (m, l) := m.placeStamps l c.covers
      m.updLaunch l.uid fun x => { l with
        eligible := x.eligible && (l.dep0.isNone || l.dep0pa.isSome) && (l.dep1.isNone || l.dep1pa.isSome) }) (m.rewriteLost ctx c)

/-- Whether parked work replays: at an address within the named page, or parked at the page named (R114, R115). -/
def Cover.replays (c : Cover) (p : ParkInfo) : Bool :=
  c.names p.addr || match c with | .page va _ _ => p.page ≤ va && decide (va < p.page + p.bytes) | _ => true

/-- Drop a context's translations, the table entries above them, and those a lane has in hand. -/
def Mach.dropTranslations (m : Mach) (ctx : Nat) (c : Cover) : Mach :=
  let mine (t : TRef) : Bool := match m.team? t.team with | some x => x.ctx == ctx | none => false
  { m with
    tlb := m.tlb.filter fun e => !(e.ctx == ctx && c.drops e.page e.leaf)
    walkCache := m.walkCache.filter fun w => !(w.ctx == ctx && c.dropsTable w)
    threads := m.threads.map fun (t : Thread) =>
      if mine t.ref then
        { t with inhand := t.inhand.filter fun p => match p.2 with
            | some l => !c.drops (l.page (p.1 * 4096)) l
            | none => !c.names (p.1 * 4096) }
      else t }

/-- Drover commands of a context that hold a dropped translation and have reads or payload writes left through it, each with the page
(R275). -/
def Mach.holders (m : Mach) (ctx : Nat) (c : Cover) : List (Nat × Nat × Nat) :=
  ((m.cmds.filter fun x => match m.team? x.team with | some t => t.ctx == ctx | none => false).map fun x =>
    (x.pages.filter fun p => c.drops p.1 p.2 && x.uses p.1 p.2.size).map fun p => (x.id, p.1, p.2.size)).flatten

/-- XSHTs of a context whose stamp's translation is dropped (R123). -/
def Mach.stampHolders (m : Mach) (ctx : Nat) (c : Cover) : List (TRef × Nat) :=
  (m.threads.map fun t =>
    (t.ops.filter fun o => match o.kind with
      | .xsht x => (match m.team? t.ref.team with | some tm => tm.ctx == ctx | none => false)
          && (match x.leaf with | some l => c.drops (l.page x.va) l | none => false)
      | _ => false).map fun o => (t.ref, o.id)).flatten

/-- The class of a command by its pages as they stand now (11 R198). -/
def Mach.latNow (m : Mach) (c : Cmd) : Lat := match m.team? c.team with | some t => m.latOf c t | none => c.lat

/-- Replay parked lanes and drover commands of a context (R114, R198): a lane translates every page again (18 R263). A command whose class
is another one now moves to that engine, full or not (log 79, DESIGN CHOICE). -/
def Mach.replay (m : Mach) (ctx : Nat) (c : Cover) : Mach :=
  let mine (u : Nat) : Bool := match m.team? u with | some x => x.ctx == ctx | none => false
  { m with
    threads := m.threads.map fun (t : Thread) => match t.wait with
      | .parked p => if mine t.ref.team && c.replays p then { t with wait := .ready, inhand := [] } else t
      | _ => t
    cmds := m.cmds.map fun (x : Cmd) => match x.parked with
      | some p => if mine x.team && c.replays p then { x with parked := none, lat := m.latNow x } else x
      | none => x }

/-- One invalidation: what the issuer must wait for, and the machine after the drop, the replays and the stamps (R114, R386). -/
def Mach.invalidate (m : Mach) (ctx : Nat) (c : Cover) : Mach × List (Nat × Nat × Nat) × List (TRef × Nat) :=
  let cmds := m.holders ctx c
  let stamps := m.stampHolders ctx c
  let m := (m.dropTranslations ctx c).replay ctx c
  (m.retranslate ctx c, cmds, stamps)

/-- Whether what an invalidation waits for has ended (R275, R123). -/
def Mach.drained (m : Mach) (cmds : List (Nat × Nat × Nat)) (stamps : List (TRef × Nat)) : Bool :=
  cmds.all (fun h => match m.cmd? h.1 with | some x => !x.uses h.2.1 h.2.2 | none => true)
    && stamps.all fun p => match m.thread? p.1 with | some t => t.ops.all fun o => o.id != p.2 | none => true

/-- INVT for the lanes that ran it: each lane's page in mode 0; all are held together (R337). -/
def invtOnce (mode : InvtMode) (ts : List Thread) (m : Mach) : Mach :=
  match m.team? m.cur.team with
  | none => m
  | some tm =>
    let covers (m : Mach) : List Cover := match mode with
      | .page a => ts.filterMap fun t => match t.pairAt a with
          | some x => if x / 2 ^ 56 ≤ 1 then some (m.coverOf tm.ctx (x % 2 ^ 57)) else none
          | none => none
      | .nonGlobal => [.nonGlobal]
      | .all => [.all]
    let (m, cmds, stamps) := (covers m).foldl (fun (m, cs, ss) c =>
      let (m, a, b) := m.invalidate tm.ctx c
      (m, cs ++ a, ss ++ b)) (m, [], [])
    if m.drained cmds stamps then m
    else ts.foldl (fun m t => m.updThread t.ref fun x => { x with wait := .drains cmds stamps }) m

/-- INVT (R114, R337). -/
def invtSem (mode : InvtMode) : WordSem :=
  ctlWord (.invt mode) (fun _ _ t => match mode with
    | .page a => if (t.pairAt a).isSome then .ok id else .mismatch t.ref .none
    | _ => .ok id) (invtOnce mode)

def execInvt (m : InvtMode) (s : State) : Host.Outcome State Fault Refusal :=
  runWord (invtSem m) s

/-! ### XSHT (R123, R381) -/

/-- Where an XSHT's stamp goes: the translation of a global address, or the team's own scratchpad. -/
def Mach.xshtStamp (m : Mach) (tm : Team) (t : Thread) (a : Nat) : Except LaneOut (Nat × Option Leaf) :=
  if a % 8 != 0 then .error (.mem 0x20 a 0 .none none)
  else match m.resolve tm a 8 with
  | .scratch u o => if u == tm.uid && a / 2 ^ 56 != 0xFF then .ok (o, none) else .error (.mem 0x11 a 0 .none none)
  | .global va => match m.checkGlobal tm t 2 true a none with
    | .ok l => .ok (va, some l)
    | .error e => .error e
  | _ => .error (.mem 0x11 a 0 .none none)

/-- Tile operations that use the executor of a page and were accepted under its translation (R117, R123). -/
def Mach.tileHolders (m : Mach) (l : Leaf) : List Nat :=
  (m.tileq.filter fun q => (match q.instr with | .tspl .. | .tfch .. => true | _ => false)
    && q.pas.any fun p => ptePa l.bits ≤ p.1 && decide (p.1 < ptePa l.bits + l.size)).map (·.order)

/-- Atomics that a page's translation has admitted and that have yet to act do so before the drop (R123; 21 R299). -/
def Mach.actThrough (m : Mach) (ctx : Nat) (l : Leaf) : Mach :=
  m.actAll fun t r => (match m.team? t.team with | some tm => tm.ctx == ctx | none => false)
    && (match r.leaf with | some x => ptePa x.bits == ptePa l.bits | none => false)

/-- XSHT in one lane: walk, drop, and wait for the drain; XSHT_DRAIN_DONE writes the stamp. The spec says both that XSHT does not hold
its thread and that a drop which removes another XSHT's stamp translation holds its issuer until that stamp stands: the model
delays the XSHT's own stamp until then, and not the thread (log 34, DESIGN CHOICE). -/
def Mach.beginXsht (m : Mach) (tm : Team) (t : TRef) (page : Nat) (value : Nat) (stamp : Nat × Option Leaf) : Mach :=
  let va := page % 2 ^ 57
  let m := match stamp.2 with | some l => m.setDirty l | none => m
  let (m, l) := m.walk (dieOf tm.core) tm.ctx va true
  let base : Xsht := {
    va := stamp.1, leaf := stamp.2, value := BitVec.ofNat 64 (value / 2 ^ 16 * 2 ^ 16), page := 0, bytes := 0
    cmds := [], tiles := [], stamps := [] }
  let (id, m) := m.fresh
  let put (m : Mach) (x : Xsht) : Mach :=
    m.addOp t { id := id, kind := .xsht x, dst := .none, loads := false, stores := true, tile := false }
  match l with
  | none => put m { base with value := base.value + 2 }
  | some l =>
    if !pteMig l.bits then put m { base with value := base.value + 1 }
    else
      let c : Cover := .page va (l.page va) l.size
      let m := m.actThrough tm.ctx l
      let x : Xsht := { base with
        page := ptePa l.bits, bytes := if pteExc l.bits == 0 || pteExc l.bits == 2 then l.size else 0
        cmds := m.holders tm.ctx c, tiles := m.tileHolders l, stamps := m.stampHolders tm.ctx c }
      put (m.dropTranslations tm.ctx c) x

/-- XSHT (R123, R381); a helper's is suppressed. -/
def xshtSem (d a b : Reg) : WordSem :=
  laneWord (.xsht d a b) fun m _ t =>
    if t.helper then .ok id
    else match m.team? t.ref.team, t.pairAt d, t.pairAt a, t.pairAt b with
    | some tm, some v, some p, some x =>
      if x % 8 != 0 then .mem 0x20 x 0 .none none
      else if 1 < p / 2 ^ 56 then .mem 0x11 p 0 .none none
      else match m.xshtStamp tm t x with
      | .error e => e
      | .ok st => .ok fun m => m.beginXsht tm t.ref p v st
    | _, _, _, _ => .mismatch t.ref .none

def execXsht (d a b : Reg) (s : State) : Host.Outcome State Fault Refusal :=
  runWord (xshtSem d a b) s

/-- Bring the results of a physical range's executors to the coherence point (R123): owned lines are recalled, U lines combined. -/
def Mach.combineRange (m : Mach) (pa n : Nat) : Mach :=
  ((m.linemeta.filter fun p => pa ≤ p.1 && decide (p.1 < pa + n)).map (·.1)).foldl (fun m l => m.cohPrep l) m

/-- An XSHT's drain ends: the results of a CORE or UPDT page stand at the coherence point, then the stamp is written through the translation
it holds. -/
def Mach.xshtDone (m : Mach) (t : TRef) (op : Nat) : Mach :=
  match m.thread? t with
  | none => m
  | some th =>
    match th.ops.find? fun o => o.id == op with
    | some { kind := .xsht x, .. } =>
      if !m.drained x.cmds x.stamps || m.tileq.any (fun q => x.tiles.contains q.order) then m
      else
        let m := m.combineRange x.page x.bytes
        let bs := leBytes x.value.toNat 8
        let m := match x.leaf with
          | some l => m.cohWrite (l.pa x.va) bs
          | none => m.scratchWrite t.team x.va bs
        m.dropOp t op
    | _ => m

/-- XSHT_DRAIN_DONE (R123). -/
def execXshtDrainDone (t : TRef) (op : Nat) (s : State) : Host.Outcome State Fault Refusal :=
  onMach (fun m => m.xshtDone t op) s

/-! ### Launch records (R222, R223, R226) -/

/-- A field of a record: `n` bytes at an offset. -/
def field (bs : List Byte) (off n : Nat) : Nat := leNat ((bs.drop off).take n)

/-- The kernel an entry point names in a context (R222, R283, R284). -/
def Mach.kernelAt (m : Mach) (ctx entry : Nat) : Option (Object × Kernel) :=
  (m.objects.filter fun o => o.ctx == ctx && !o.revoked && !o.unloaded).findSome? fun o =>
    (o.kernels.find? fun k => k.entry.toNat == entry).map fun k => (o, k)

/-- A dependence stamp field: none when it is 0. -/
def depOf (bs : List Byte) (off : Nat) : Option (Nat × DWord) :=
  let a := field bs off 8
  if a == 0 then none else some (a, BitVec.ofNat 64 (field bs (off + 8) 8))

/-- A stamp address is 0, or global and aligned. -/
def stampOk (a : Nat) : Bool := a == 0 || (a % 8 == 0 && decide (a / 2 ^ 56 ≤ 1))

/-- The launch a record describes once its fields are resolved against the kernel's descriptor. -/
def launchOf (bs : List Byte) (ctx uid : Nat) (o : Object) (k : Kernel) : Launch :=
  let dft (x d : Nat) : Nat := if x == 0 then d else x
  let ctrl := field bs 27 1
  {
    uid := uid, ctx := ctx, entry := BitVec.ofNat 64 (field bs 0 8), argp := BitVec.ofNat 64 (field bs 8 8)
    folds := field bs 16 4, threads := dft (field bs 20 2) k.threads, teams := dft (field bs 22 1) k.teams
    regs := dft (field bs 23 1) k.regs, scr := dft (field bs 24 2) k.scr, tiles := field bs 26 1, prio := ctrl % 4
    idem := ctrl / 4 % 2 == 1 || k.idem, rstr := ctrl / 8 % 2 == 1 || k.rstr
    dep0 := depOf bs 32, dep1 := depOf bs 48, dep0pa := none, dep1pa := none, csa := field bs 64 8
    csv := BitVec.ofNat 64 (field bs 72 8), eligible := false, next := 0, killed := false, shepherd := none
    waitFrom := none, asked := [], accepted := uid, object := o.uid }

/-- Whether every resolved field lies in its range (R222, R226). -/
def recordOk (bs : List Byte) (l : Launch) (k : Kernel) : Bool :=
  let between (lo hi x : Nat) : Bool := decide (lo ≤ x) && decide (x ≤ hi)
  between 1 (2 ^ 24) l.folds && between 1 1024 l.threads && between 1 16 l.teams && between 8 128 l.regs && l.regs % 8 == 0
    && l.regs == k.regs && decide (k.scr ≤ l.scr) && decide (l.tiles ≤ 32) && decide (field bs 27 1 < 16)
    && ((bs.drop 80).take 48).all (fun b => b == 0)
    && stampOk (field bs 32 8) && stampOk (field bs 48 8) && stampOk (field bs 64 8)

/-- Launches in a queue: those whose last fold is not yet placed (R227). -/
def Mach.queueLen (m : Mach) (ctx prio : Nat) : Nat :=
  (m.launches.filter fun l => l.ctx == ctx && l.prio == prio && l.shepherd.isNone && decide (l.next < l.folds)).length

/-- Resolve a record and append its launch (R226, R386), for an issuer's context in kernel mode or not: the status. -/
def Mach.submitAs (m : Mach) (kernel : Bool) (issuer : Nat) (bs : List Byte) : Mach × Nat :=
  let given := field bs 28 4
  let ctx := if given == 0 then issuer else given
  if (m.ctx? ctx).isNone || (given != 0 && !kernel) then (m, 1)
  else match m.kernelAt ctx (field bs 0 8) with
  | none => (m, 2)
  | some (o, k) =>
    let (uid, m') := m.fresh
    let l := launchOf bs ctx uid o k
    if !recordOk bs l k then (m, 3)
    else if 3145728 - 4096 * l.regs < 4096 * l.scr + 8192 then (m, 4)
    else if Config.queueDepth ≤ m.queueLen ctx l.prio then (m, 5)
    else
      let (m, l) := m'.placeStamps l fun _ _ => true
      ({ m with launches := m.launches ++ [l] }, 0)

/-- Submit a record for a context's thread. -/
def Mach.submit (m : Mach) (issuer : Nat) (bs : List Byte) : Mach × Nat :=
  m.submitAs (match m.ctx? issuer with | some c => c.desc.kmode | none => false) issuer bs

/-! ### LNCH (R224-R226, R342) -/

/-- The checks of a record's address: whether it is global, its place, its generic address and NC. -/
def Mach.launchAt (m : Mach) (tm : Team) (t : Thread) (a : Nat) (d : Dst) : Except LaneOut (Bool × Nat × Nat × Bool) :=
  if a % 128 != 0 then .error (.mem 0x20 a 0 d none)
  else match m.resolve tm a 128 with
  | .scratch u o => if u == tm.uid && a / 2 ^ 56 != 0xFF then .ok (false, o, 0, false) else .error (.mem 0x11 a 0 d none)
  | .global va => match m.checkGlobal tm t 1 false a none with
    | .ok l => .ok (true, l.pa va, va, pteNc l.bits)
    | .error e => .error e
  | _ => .error (.mem 0x11 a 0 d none)

/-- LNCH (R226, R342): the record is read as eight loads; the status stands in D when they are in. A helper submits nothing. -/
def lnchSem (d a : Reg) : WordSem :=
  laneWord (.lnch d a) fun m _ t =>
    let dst : Dst := .regs d.toNat .i32 1
    if t.helper then .ok id
    else match m.team? t.ref.team, t.pairAt a with
    | some tm, some x =>
      match m.launchAt tm t x dst with
      | .error e => e
      | .ok (g, at_, va, nc) => .ok fun m =>
        let (id, m) := m.fresh
        let got := if g then [] else m.readArray (.scratch t.ref.team at_) 128
        m.addOp t.ref { id := id, kind := .launch g at_ va nc got, dst := dst, loads := false, stores := false, tile := false }
    | _, _ => .mismatch t.ref dst

def execLnch (d a : Reg) (s : State) : Host.Outcome State Fault Refusal :=
  runWord (lnchSem d a) s

end Sys2Proof.Machine
end

