-- ==== Sys2Proof/Machine/Services.lean ====
section
/-! DEFINITION. Service calls: SVC, the batches that a shepherd serves, EXECMAP, and mailboxes (15 R236; 18 R261, R262; 19
R268-R270; 23 R364). -/

namespace Sys2Proof.Machine

/-! ### SVC -/

/-- The services there are (R268). -/
def serviceKnown (n : Nat) : Bool := n == 0 || n == 1 || n == 2 || n == 0x21

/-- The running shepherd team of a die (R269). -/
def Mach.shepherd? (m : Mach) (die : Nat) : Option Team :=
  m.teams.find? fun t => t.shepherd && dieOf t.core == die && t.status == .running

/-- Whether a team's call of a service is sent (R269, R270). -/
def Mach.serves (m : Mach) (tm : Team) (num : Nat) : Bool :=
  m.services && (match m.ctx? tm.ctx with | some c => c.desc.svcok | none => false)
    && (m.shepherd? (dieOf tm.core)).isSome && serviceKnown num && !tm.shepherd

/-- The place of the SVC word in the issuing chain: a chain has one word on the K pipe. -/
def Mach.svcOff (m : Mach) : Nat := m.cur.words.findIdx fun w => w.toNat / 2 ^ 25 % 64 == 0 && w.toNat % 16 == 7

/-- Send a batch (R269): the real lanes' blocks in lane order; every lane of ACTIVE waits. Nothing is sent when every lane is a
helper. -/
def Mach.callService (m : Mach) (num a : Nat) (ts : List Thread) : Mach :=
  match m.team? m.cur.team, ts.filter fun t => !t.helper with
  | some tm, real@(_ :: _) =>
    let (id, m) := m.fresh
    let off := m.svcOff
    let b : Batch := {
      id := id, team := tm.uid, ctx := tm.ctx, die := dieOf tm.core, num := num, a := a, inst := m.wordBits off
      pc := m.wordAddr off, resume := m.cur.pc, calls := real.map fun t => (t.ref, t.block a 8), change := none
      results := [], dropped := false }
    ts.foldl (fun m t => m.updThread t.ref fun x => { x with wait := .service id }) { m with batches := m.batches ++ [b] }
  | _, _ => m

/-- SVC (R269, R364); a helper's is suppressed (02 R37). -/
def svcSem (num : BitVec 7) (a : Reg) : WordSem :=
  ctlWord (.svc num a) (fun m _ t => if t.helper then .ok id else match m.team? t.ref.team with
    | some tm => if m.serves tm num.toNat then .ok id else .trap 0x41 0 0 sub0 id none
    | none => .illegal) fun ts m => m.callService num.toNat a.toNat ts

def execSvc (num : BitVec 7) (a : Reg) (s : State) : Host.Outcome State Fault Refusal :=
  runWord (svcSem num a) s

/-! ### Serving a batch -/

def Mach.batch? (m : Mach) (id : Nat) : Option Batch := m.batches.find? fun b => b.id == id

def Mach.updBatch (m : Mach) (id : Nat) (f : Batch → Batch) : Mach :=
  { m with batches := m.batches.map fun (b : Batch) => if b.id == id then f b else b }

/-- Whether a batch is the one that its die's shepherd serves now: one at a time, in order of arrival (R269). -/
def Mach.serving (m : Mach) (b : Batch) : Bool :=
  (m.shepherd? b.die).isSome && (match m.batches.find? fun x => x.die == b.die && !x.calls.isEmpty && !x.failed with
    | some x => x.id == b.id
    | none => false)

/-- The first call of a batch is answered with its out registers. -/
def Mach.answer (m : Mach) (id : Nat) (t : TRef) (out : List RV) : Mach :=
  m.updBatch id fun b => { b with calls := b.calls.drop 1, change := none, results := b.results ++ [(t, out)] }

/-- Serve the next call of a batch of a service. -/
def Mach.serve (m : Mach) (id num : Nat) (f : Mach → Batch → TRef → List RV → Mach) : Mach :=
  match m.batch? id with
  | none => m
  | some b =>
    match b.calls with
    | [] => m
    | (t, rs) :: _ => if b.num == num && m.serving b then f m b t rs else m

/-- NULL (R268). -/
def execNullService (batch : Nat) (s : State) : Host.Outcome State Fault Refusal :=
  onMach (fun m => m.serve batch 0x00 fun m b t _ => m.answer b.id t (valRegs .i32 0)) s

/-- The chiplet's clock (R268): nanoseconds since 1970-01-01 UTC (log 14). -/
def Mach.wallclock (m : Mach) : Nat := m.wallBase + m.clk * 4 / 7

/-- WALLCLOCK (R268). -/
def execWallclock (batch : Nat) (s : State) : Host.Outcome State Fault Refusal :=
  onMach (fun m => m.serve batch 0x01 fun m b t _ => m.answer b.id t (valRegs .i64 m.wallclock)) s

/-- MODULE (R268, R274). -/
def execModuleService (batch : Nat) (s : State) : Host.Outcome State Fault Refusal :=
  onMach (fun m => m.serve batch 0x02 fun m b t _ => m.answer b.id t (valRegs .i32 m.module ++ valRegs .i32 m.modules)) s

/-! ### EXECMAP (R261, R262; 06 R122) -/

/-- Replicas of a leaf by SZ (06 R108). -/
def replicas (sz : Nat) : Nat :=
  if sz ≤ 4 then 4 ^ sz else if sz ≤ 8 then 4 ^ (sz - 5) else 1

/-- Rewrite every replica of a leaf and publish it at scope entry 2 (06 R110, R112, R122): it stands at its home, and its region counts a
round (07 R139). -/
def Mach.rewriteLeaf (m : Mach) (l : Leaf) (f : Nat → Nat) : Mach :=
  let n := replicas (pteSz l.bits)
  let base := l.pte / (8 * n) * (8 * n)
  ((List.range n).foldl (fun m i =>
    let at_ := base + 8 * i
    let m := m.cohPrep (lineOf at_)
    m.cohWrite1 at_ (leBytes (f (leNat (m.mem.read at_ 8))) 8)) m).countRounds [regionOf base]

/-- The fields of an entry that a change writes: EXC in bits 58:56 and MIG in bit 59. -/
def withExec (b exc mig : Nat) : Nat := b / 2 ^ 60 * 2 ^ 60 + mig * 2 ^ 59 + exc * 2 ^ 56 + b % 2 ^ 56

/-- Steps 1 and 2 of R122: MIG set, the page's translations dropped, the holders noted. -/
def Mach.beginChange (m : Mach) (b : Batch) (va exc : Nat) (l : Leaf) : Mach :=
  let m := m.rewriteLeaf l fun x => withExec x (x / 2 ^ 56 % 8) 1
  let c : Cover := .page va (l.page va) l.size
  let m := m.actThrough b.ctx l
  let ch : Change := {
    va := va, exc := exc, leaf := l, last := false, cmds := m.holders b.ctx c, tiles := m.tileHolders l
    stamps := m.stampHolders b.ctx c }
  (m.dropTranslations b.ctx c).updBatch b.id fun x => { x with change := some ch }

/-- A first look at a call: its arguments, then the page, in the order BADARG, NOTOWNED, BADEXC, BUSY, DONE (log 35). -/
def Mach.startChange (m : Mach) (b : Batch) (t : TRef) (rs : List RV) : Mach :=
  let st (m : Mach) (v : Nat) : Mach := m.answer b.id t (valRegs .i32 v)
  let r (i : Nat) : RV := rs.getD i rv0
  if (r 0).tag != .i64 || (r 1).tag != .i64 || (r 2).tag != .i32 then st m 4
  else
    let a := bitsOf (rs.take 2)
    let exc := (r 2).bits.toNat
    if 1 < a / 2 ^ 56 then st m 1
    else match m.walk b.die b.ctx (a % 2 ^ 57) true with
    | (m, none) => st m 1
    | (m, some l) =>
      let key := match m.ctx? b.ctx with | some c => c.desc.keymask.getLsbD (pteKey l.bits) | none => false
      if !(pteU l.bits && pteW l.bits && key) then st m 1
      else if 3 < exc || !admits (BitVec.ofNat 64 (withExec l.bits.toNat exc 0)) then st m 2
      else if pteMig l.bits then st m 3
      else if pteExc l.bits == exc then st m 0
      else m.beginChange b (a % 2 ^ 57) exc l

/-- Steps 4 and 5 of R122 once the drain is done, the results of a CORE or UPDT page at the coherence point (06 R123): the new executor,
then the invalidation with its replays. -/
def Mach.goOnChange (m : Mach) (b : Batch) (t : TRef) (c : Change) : Mach :=
  if !m.drained c.cmds c.stamps || m.tileq.any (fun q => c.tiles.contains q.order) then m
  else if c.last then m.answer b.id t (valRegs .i32 0)
  else
    let m := if pteExc c.leaf.bits == 0 || pteExc c.leaf.bits == 2 then m.combineRange (ptePa c.leaf.bits) c.leaf.size else m
    let m := m.rewriteLeaf c.leaf fun x => withExec x c.exc 0
    let (m, cmds, stamps) := m.invalidate b.ctx (.page c.va (c.leaf.page c.va) c.leaf.size)
    m.updBatch b.id fun x => { x with change := some { c with last := true, cmds := cmds, tiles := [], stamps := stamps } }

/-- EXECMAP's progress on the first call of a batch. -/
def Mach.execmap (m : Mach) (b : Batch) (t : TRef) (rs : List RV) : Mach :=
  match b.change with
  | none => m.startChange b t rs
  | some c => m.goOnChange b t c

/-- EXECMAP (R262). -/
def execExecmap (batch : Nat) (s : State) : Host.Outcome State Fault Refusal :=
  onMach (fun m => m.serve batch 0x21 fun m b t rs => m.execmap b t rs) s

/-! ### Results -/

/-- Free the threads that wait for a batch. -/
def Mach.freeWaiters (m : Mach) (id : Nat) : Mach :=
  { m with threads := m.threads.map fun (t : Thread) => if t.wait == Wait.service id then { t with wait := .ready } else t }

/-- Whether a team is saved. -/
def Mach.isSaved (m : Mach) (u : Nat) : Bool := match m.team? u with | some t => t.status == .saved | none => false

/-- Whether SVCOFF waits for a batch: not for one that has failed, or has been served and is held for a saved team (R269, R270). -/
def Mach.unserved (m : Mach) (b : Batch) : Bool := !b.failed && !(b.calls.isEmpty && m.isSaved b.team)

/-- Once services are off and nothing is in flight, the shepherds end as if every thread had exited, and SVCOFF returns (R270). One that
HALT has saved ends where it stands. -/
def Mach.endShepherds (m : Mach) : Mach :=
  if m.services || m.batches.any m.unserved || m.launches.any (fun l => l.shepherd.isSome && decide (l.next < l.folds)) then m
  else (m.teams.filter fun t => t.shepherd).foldl (fun (m : Mach) (t : Team) =>
    ((m.groups.filter fun g => g.team == t.uid).foldl (fun m g =>
      m.exitLanes t.uid g.index
        ((m.threads.filter fun x => x.ref.team == t.uid && x.group == g.index && x.wait != .exited).map (·.ref))) m).updTeam t.uid
      fun x => if x.status == .saved then { x with status := .retired } else x) { m with svcoff := false }

/-- The last result of a batch has arrived (R269): out registers, then Acquire(L, 2) in every lane that called. A saved team's
results are held until its restore; a team that faulted gets none. -/
def Mach.deliverBatch (m : Mach) (id : Nat) : Mach :=
  match m.batch? id with
  | none => m
  | some b =>
    if !b.calls.isEmpty || b.failed then m
    else if m.isSaved b.team && !b.dropped then m.endShepherds
    else
      let m := { m with batches := m.batches.filter fun x => x.id != id }
      let m := if b.dropped then m else
        let m := b.results.foldl (fun m r => m.updThread r.1 fun x => x.setRegs b.a r.2) (m.freeWaiters id)
        match m.team? b.team with
        | some tm => m.beginAcquire tm (b.results.map (·.1)) 2
        | none => m
      m.endShepherds

/-- SERVICE_RESULT (R269). -/
def execServiceResult (batch : Nat) (s : State) : Host.Outcome State Fault Refusal :=
  onMach (fun m => m.deliverBatch batch) s

/-- A killed shepherd's batches (R269): every lane that waits takes 0x41 at its SVC word, with its registers as they are; those of a
saved team do so at its restore (16 R253). -/
def Mach.abandonBatch (m : Mach) (b : Batch) : Mach :=
  if m.isSaved b.team && !b.dropped then m.updBatch b.id fun x => { x with calls := [], change := none, failed := true }
  else
    let m := { m with batches := m.batches.filter fun x => x.id != b.id }
    if b.dropped then m
    else
      let waiting := m.threads.filter fun t => t.wait == Wait.service b.id
      let m := m.freeWaiters b.id
      waiting.foldl (fun m t =>
        if t.helper then m
        else m.takeTrap t.ref {
          cause := 0x41, pc := b.pc, inst := b.inst, mask := maskOf waiting, addr := 0, exc := 0, sub := sub0, dst := .none
          resume := b.resume }) m

/-- The batches in flight of a die lose their shepherd for good: no later one serves them (R269). -/
def Mach.failBatches (m : Mach) (die : Nat) : Mach :=
  { m with batches := m.batches.map fun (b : Batch) => if b.die == die && m.unserved b then { b with failed := true } else b }

/-- The lanes that wait for a killed shepherd learn of it. -/
def Mach.shepherdKilled (m : Mach) (die : Nat) : Mach :=
  let m := if m.teams.any fun t => t.shepherd && dieOf t.core == die && (t.status == .running || t.status == .saved) then m
    else m.failBatches die
  ((m.batches.filter fun b => b.die == die && b.failed).foldl (fun m b => m.abandonBatch b) m).endShepherds

/-- SHEPHERD_KILLED (R269). -/
def execShepherdKilled (die : Nat) (s : State) : Host.Outcome State Fault Refusal :=
  onMach (fun m => m.shepherdKilled die) s

/-! ### Mailboxes (R236, R271) -/

/-- The shepherd of die h mod 4 serves a request: LNCH of REC, then RES, which counts a round (07 R130, R139); a port's mailbox raises its
MSI-X vector. The spec does not say what a record with CTX 0 yields here: the model launches it in the shepherd's context (log 81,
DESIGN CHOICE). -/
def Mach.mailbox (m : Mach) (box : Nat) : Mach :=
  match m.shepherd? (box % 4) with
  | none => m
  | some sh =>
    let base := m.mailBase + 256 * box
    -- a poisoned line gives the shepherd the imprecise fault 0x30 (05 R105), at its physical address (log 16)
    let bad (m : Mach) : Mach :=
      if sh.latent.isEmpty && !sh.fp then m.meet sh.uid { cause := 0x30, addr := BitVec.ofNat 64 (lineOf base), thread := none } else m
    if !m.services || 51 < box then m
    else match m.cohRead (base + 128) 8 with
    | (m, none) => bad m
    | (m, some sq) =>
      let seq := BitVec.ofNat 64 (leNat sq)
      if seq == getAssoc 0 box m.mailSeq then m
      else match m.cohRead base 128 with
      | (m, none) => bad m
      | (m, some rec_) =>
        let (m, st) := ({ m with mailSeq := setAssoc box seq m.mailSeq } : Mach).submit sh.ctx rec_
        let m := m.cohWrite1 (base + 136) (leBytes (seq.toNat % 2 ^ 48 * 2 ^ 16 + st) 8)
        let m := m.countRounds [regionOf (base + 136)]
        if box < 48 then m else { m with msix := m.msix ++ [box - 48] }

/-- MAILBOX_REQUEST (R236). -/
def execMailboxRequest (box : Nat) (s : State) : Host.Outcome State Fault Refusal :=
  onMach (fun m => m.mailbox box) s

end Sys2Proof.Machine
end

