-- ==== Sys2Proof/Machine/Start.lean ====
section
/-! DEFINITION. Starting teams: team-start state (02 R20, R22, R36; 03 R46, R51; 05 R96, R97; 15 R232), what a core accepts (R230)
and how a fold is placed (R231). -/

namespace Sys2Proof.Machine

/-! ### Team-start state -/

/-- A thread at team start (03 R46, R51; 15 R232). -/
def startThread (t : TRef) (helper : Bool) (n : Nat) (entry : DWord) (clk : Nat) : Thread where
  ref := t
  helper := helper
  regs := List.replicate n rv0
  preds := 1
  pc := entry
  wait := .ready
  fltCause := 0
  fltPc := 0
  fltMask := 0
  fltInst := 0
  fltAddr := 0
  fltSub := sub0
  fltExc := 0
  utvec := 0
  ften := 0
  frm := 0
  uctl := 0
  resume := 0
  written := false
  handlerActive := false
  fltDst := .none
  subst := none
  ops := []
  drover := 0
  release := none
  latch := none
  yielded := false
  lastIssue := clk
  inhand := []
  taken := false
  skid := 0
  issued := clk

/-- The thread indices of a team of `n` threads: real ones, then helpers in the quads of a partial last group that hold a
thread (02 R20, R36). -/
def teamThreads (n : Nat) : List (Nat × Bool) := (List.range ((n + 3) / 4 * 4)).map fun i => (i, decide (n ≤ i))

/-- Groups of a team of `n` threads (R20). -/
def groupCount (n : Nat) : Nat := (n + 31) / 32

/-- The lanes of group `g`, helpers among them. -/
def groupLanes (n g : Nat) : Word :=
  BitVec.ofNat 32 (((teamThreads n).filter fun p => p.1 / 32 == g).foldl (fun a p => a + 2 ^ (p.1 % 32)) 0)

/-- A group at team start: every ready thread stands at ENTRY in one bundle (14 R256). -/
def startGroup (team n g sub slot : Nat) : Group where
  team := team
  index := g
  e := List.replicate 8 0
  p := List.replicate 8 0
  bundles := [groupLanes n g]
  pref := none
  sub := sub
  slot := slot
  retired := false

/-- Drop from a core's L1 every line that it does not own and that it installed before a launch was accepted (R232). -/
def Mach.dropOldLines (m : Mach) (core accepted : Nat) : Mach :=
  { m with l1 := m.l1.filter fun c => !(c.core == core && !c.owned && decide (c.since ≤ accepted)) }

/-- Put a team in team-start state (R232): its arrays as R97 gives them, its threads at ENTRY, its L1 lines dropped. -/
def Mach.startTeam (m : Mach) (u accepted : Nat) : Mach :=
  match m.team? u with
  | none => m
  | some t =>
    let m := m.updTeam u fun t => { t with
      scratch := [], tileMem := [], tileTags := List.replicate t.tiles .f32, qmem := [], qhead := 0, qtail := 0, qcmds := [], returned := []
      taskid := 0, nr := false, fp := false, defer := false, latent := [], known := [], hurdles := [], status := .running
      startClk := m.clk, preempt := none, killed := false, lost := false, brk := false, fault := none, since := m.uid }
    let m := m.dropFold u
    let mine (x : Thread) : Bool := x.ref.team == u
    let m := { m with
      threads := m.threads.filter (fun x => !mine x) ++
        (teamThreads t.n).map fun (p : Nat × Bool) => startThread { team := u, tidx := p.1 } p.2 t.regs t.entry m.clk
      groups := m.groups.map fun (g : Group) => if g.team == u then startGroup u t.n g.index g.sub g.slot else g }
    m.dropOldLines t.core accepted

/-! ### What a core accepts (R230) -/

/-- The teams on a core. -/
def Mach.teamsAt (m : Mach) (core : Nat) : List Team := m.teams.filter fun t => t.core == core && t.occupies

/-- What a team asks of a core: its context, carve (N, S), tiles and threads. -/
structure Need where
  ctx   : Nat
  regs  : Nat
  scr   : Nat
  tiles : Nat
  n     : Nat
  deriving DecidableEq, Repr

def Launch.need (l : Launch) : Need := { ctx := l.ctx, regs := l.regs, scr := l.scr, tiles := l.tiles, n := l.threads }
def Team.need (t : Team) : Need := { ctx := t.ctx, regs := t.regs, scr := t.scr, tiles := t.tiles, n := t.n }

/-- Slots in use on a sub-core: those of groups that have not retired (02 R39). -/
def Mach.slotsUsed (m : Mach) (core sub : Nat) : List Nat :=
  (m.groups.filter fun g => g.sub == sub && !g.retired && (m.teamsAt core).any fun t => t.uid == g.team).map (·.slot)

/-- Groups a team puts on each sub-core from base `b` (02 R22). -/
def groupsOn (n b sub : Nat) : Nat := ((List.range (groupCount n)).filter fun g => (b + g) % 4 == sub).length

/-- The base sub-cores under which every group finds a slot. -/
def Mach.bases (m : Mach) (core n : Nat) : List Nat :=
  (List.range 4).filter fun b => (List.range 4).all fun s => groupsOn n b s + (m.slotsUsed core s).length ≤ 8

/-- Bytes of a team share (05 R96). -/
def shareBytes (scr : Nat) : Nat := 4096 * scr + 8192

/-- The lowest number not in a list. -/
def lowestFree (k : Nat) (used : List Nat) : Option Nat := (List.range k).find? fun i => !used.contains i

/-- The team slots held on a core (05 R97): from a team's start to its retirement, a save apart or not. -/
def Mach.slotsHeld (m : Mach) (core : Nat) : List Nat :=
  (m.teams.filter fun t => t.core == core && (t.resident || t.status == .saved)).map (·.slot)

/-- Whether a core has the carve, bytes, tiles and a team slot for a team. -/
def Mach.shareFits (m : Mach) (core : Nat) (d : Need) : Bool :=
  let ts := m.teamsAt core
  ts.all (fun t => t.ctx == d.ctx && t.regs == d.regs && t.scr == d.scr)
    && decide (4096 * d.regs + (ts.length + 1) * shareBytes d.scr ≤ 3145728)
    && decide ((ts.map (·.tiles)).sum + d.tiles ≤ 32)
    && (lowestFree 32 (m.slotsHeld core)).isSome

/-- A core accepts a team (R230). -/
def Mach.accepts (m : Mach) (core : Nat) (d : Need) : Bool := m.shareFits core d && !(m.bases core d.n).isEmpty

/-! ### Placing -/

/-- Give a team's groups their sub-cores and slots (02 R22). -/
def Mach.seatGroups (m : Mach) (u core n base : Nat) : Mach :=
  (List.range (groupCount n)).foldl (fun m g =>
    let sub := (base + g) % 4
    let slot := (lowestFree 8 (m.slotsUsed core sub)).getD 0
    { m with groups := m.groups ++ [startGroup u n g sub slot] }) m

/-- A team of a launch, before its start state is set. -/
def Launch.team (l : Launch) (uid core slot base fold index : Nat) : Team where
  uid := uid
  ctx := l.ctx
  launch := l.uid
  core := core
  slot := slot
  base := base
  fold := fold
  index := index
  foldTeams := l.teams
  n := l.threads
  regs := l.regs
  scr := l.scr
  tiles := l.tiles
  entry := l.entry
  argp := l.argp
  prio := l.prio
  idem := l.idem
  rstr := l.rstr
  shepherd := l.shepherd.isSome
  scratch := []
  tileMem := []
  tileTags := []
  qmem := []
  qhead := 0
  qtail := 0
  qcmds := []
  taskid := 0
  nr := false
  fp := false
  defer := false
  restarts := 0
  latent := []
  known := []
  hurdles := []
  status := .running
  startClk := 0
  preempt := none
  killed := false
  lost := false

/-- Seat a team on a core: its base sub-core is the scheduler's choice among those that fit (log 7). -/
def Mach.seat (m : Mach) (core : Nat) (d : Need) (mk : Nat → Nat → Team) (accepted : Nat) : Mach :=
  let bs := m.bases core d.n
  let (k, m) := m.choose bs.length
  let base := bs.getD k 0
  let slot := (lowestFree 32 (m.slotsHeld core)).getD 0
  let t := mk slot base
  let m := ({ m with teams := m.teams.filter (fun (x : Team) => x.uid != t.uid) ++ [t] }).seatGroups t.uid core d.n base
  m.startTeam t.uid accepted

/-- Cores of a die on which a fold may be placed: not core 0 while it is a shepherd's or waits for one, not a core held for
another fold (R229, R231; 19 R270). -/
def Mach.coresFor (m : Mach) (die launch : Nat) : List Nat :=
  ((List.range 32).map fun i => 32 * die + i).filter fun c =>
    !(c % 32 == 0 && (m.services || m.launches.any fun l => l.shepherd == some die))
      && !m.heldCores.any fun h => h.1 == c && h.2 != launch

/-- Whether the scheduler places anything on a die (20 R289, R291). -/
def Mach.placeable (m : Mach) (die : Nat) : Bool := decide (die < 4) && !m.diesOff.contains die && !m.noPlace.contains die

/-- Place teams `i`, `i + 1`, … of a fold, each on the lowest-numbered core that accepts it (R231); the first argument counts
them. None when one fits nowhere. -/
def Mach.placeTeams (m : Mach) (l : Launch) (cores : List Nat) : Nat → Nat → Option Mach
  | 0, _ => some m
  | k + 1, i =>
    match cores.find? fun c => m.accepts c l.need with
    | none => none
    | some c =>
      let (uid, m) := m.fresh
      (m.seat c l.need (fun slot base => l.team uid c slot base l.next i) l.accepted).placeTeams l cores k (i + 1)

/-- The next fold of a launch on a die, if all its teams fit at once (02 R43, R231). -/
def Mach.tryFold (m : Mach) (l : Launch) (die : Nat) : Option Mach :=
  if m.placeable die then m.placeTeams l (m.coresFor die l.uid) l.teams 0 else none

/-- The lowest-numbered die on which it fits. -/
def Mach.placeFold (m : Mach) (l : Launch) : Option Mach := [0, 1, 2, 3].findSome? fun d => m.tryFold l d

end Sys2Proof.Machine
end

