-- ==== Sys2Proof/Machine/Completion.lean ====
section
/-! DEFINITION. What ends an operation or a wait: loads, stores, publications, walks, wakes, handler entry, detection of imprecise
faults, and coherence traffic of the homes (02 R24; 05 R102; 06 R113; 07 R130, R137-R140, R384; 09 R165-R169, R172; 16 R240,
R244; 22 R333, R339, R342). -/

namespace Sys2Proof.Machine

/-! ### Bundles -/

/-- Form the bundles of a group anew: its ready threads by program counter (02 R24). Lanes that WAITA has left are ready from here on
(24 R373). -/
def Mach.regroupGroup (m : Mach) (g : Group) : Mach :=
  let mine (t : Thread) : Bool := t.ref.team == g.team && t.group == g.index
  let m := { m with threads := m.threads.map fun (t : Thread) => if mine t then
      { t with
        taken := false
        wait := if t.wait == Wait.woken then .ready else t.wait } else t }
  let parts := partitionPc (m.threads.filter fun t => mine t && t.wait == Wait.ready)
  m.updGroup g.team g.index fun g => { g with bundles := parts.map fun p => laneSet p.2 }

/-- The groups of a sub-core: those of the teams on its core. -/
def Mach.groupsAt (m : Mach) (core sub : Nat) : List Group :=
  m.groups.filter fun g => g.sub == sub && !g.retired && (m.teamsAt core).any fun t => t.uid == g.team

/-- A regroup, at a cycle with CLK mod 4 = 0. -/
def Mach.regroup (m : Mach) (core sub : Nat) : Mach :=
  if m.clk % 4 == 0 then (m.groupsAt core sub).foldl (fun m g => m.regroupGroup g) m else m

/-- REGROUP (R24). -/
def execRegroup (core sub : Nat) (s : State) : Host.Outcome State Fault Refusal :=
  onMach (fun m => m.regroup core sub) s

/-! ### Loads and stores -/

/-- What the completion of an operation does to its core's L1: an atomic's clean copy of the line goes (07 R136). -/
def Mach.dropFor (m : Mach) (t : TRef) (o : Op) : Mach :=
  match o.drop, m.team? t.team with
  | some line, some tm => m.dropClean tm.core line
  | _, _ => m

/-- A result stands in its destination, or is discarded when the thread has exited (02 R40); the operation leaves the counts. -/
def Mach.deliver (m : Mach) (t : TRef) (o : Op) (rs : List RV) : Mach :=
  ((m.updThread t fun x => if x.wait == Wait.exited then x else x.writeDst o.dst rs).dropOp t o.id).dropFor t o

/-- Whether an earlier TST of the thread, still queued, stores to some of the bytes (24 R366, 07 R127). -/
def Mach.tstAhead (m : Mach) (t : TRef) (op pa n : Nat) : Bool :=
  m.tileq.any fun q => (match q.instr with | .tst .. => true | _ => false) && decide (q.op < op)
    && q.lanes.any (fun l => l.2.1 == t) && q.pas.any fun p => decide (p.1 < pa + n) && decide (pa < p.1 + p.2.1)

/-- A load returns (22 R339, R340): a poisoned line gives zero and, but for a helper, the imprecise fault. -/
def Mach.returnLoad (m : Mach) (tm : Team) (th : Thread) (o : Op) (r : LoadReq) : Mach :=
  if m.tstAhead th.ref o.id r.pa r.size then m
  else
    let m := m.settleLoads tm.core th.ref (lineOf r.pa) o.id
    let r := match m.thread? th.ref with
      | some x => ((x.ops.find? fun p => p.id == o.id).bind Op.load?).getD r
      | none => r
    match m.loadBytes tm.core th.ref r with
    | (m, some bs) => m.deliver th.ref o (valRegs o.dst.tag (leNat bs))
    | (m, none) => (m.meetPoison th.ref r.va).deliver th.ref o (o.dst.zeros o.dst.tag)

/-- Whether a launch of an earlier lane or word of the group is still to be submitted (15 R226). -/
def Mach.launchAhead (m : Mach) (t : TRef) (op : Nat) : Bool :=
  m.threads.any fun x => x.ref.team == t.team && x.group == t.tidx / 32 && x.ops.any fun o =>
    decide (o.id < op) && (match o.kind with | .launch .. => true | _ => false)

/-- Whether an earlier launch of the thread has still to read its record: a later one's is read after it (07 R128). -/
def Mach.readAhead (m : Mach) (t : TRef) (op : Nat) : Bool :=
  match m.thread? t with
  | some x => x.ops.any fun o => decide (o.id < op) && (match o.kind with | .launch _ _ _ _ got => decide (got.length < 128) | _ => false)
  | none => false

/-- LNCH goes on (22 R342): the next piece, then, with all eight in, the submission and its status. -/
def Mach.stepLaunch (m : Mach) (tm : Team) (t : TRef) (o : Op) (got : List Byte) : Mach :=
  if got.length < 128 then (if m.readAhead t o.id then m else m.readRecord tm.core t o.id)
  else if m.launchAhead t o.id then m
  else
    let (m, st) := m.submit tm.ctx got
    m.deliver t o (valRegs .i32 st)

/-- The data of an operation arrives; an atomic that has not acted acts first. -/
def Mach.loadReturn (m : Mach) (t : TRef) (op : Nat) : Mach :=
  match m.thread? t, m.team? t.team with
  | some th, some tm =>
    match th.ops.find? fun o => o.id == op with
    | none => m
    | some o =>
      match o.kind with
      | .load r => m.returnLoad tm th o r
      | .value rs => m.deliver t o rs
      | .tile u a n => m.deliver t o (m.tileValue o.dst u a n)
      | .atomic _ => m.actNow t op
      | .launch _ _ _ _ got => m.stepLaunch tm t o got
      | _ => m
  | _, _ => m

/-- LOAD_RETURN (R339). -/
def execLoadReturn (t : TRef) (op : Nat) (s : State) : Host.Outcome State Fault Refusal :=
  onMach (fun m => m.loadReturn t op) s

/-- A store-class operation completes (09 R169): its bytes stand in the L1. A TST completes in its tile unit; an atomic that has not
acted acts first. -/
def Mach.storeComplete (m : Mach) (t : TRef) (op : Nat) : Mach :=
  match m.thread? t, m.team? t.team with
  | some th, some tm =>
    match th.ops.find? fun o => o.id == op with
    | some o => match o.kind with
      | .store _ => ((m.arriveOp tm.core op).dropOp t op).dropFor t o
      | .atomic _ => m.actNow t op
      | _ => m
    | none => m
  | _, _ => m

/-- STORE_COMPLETE (R169). -/
def execStoreComplete (t : TRef) (op : Nat) (s : State) : Host.Outcome State Fault Refusal :=
  onMach (fun m => m.storeComplete t op) s

/-- The release of a thread's word goes on. -/
def Mach.publicationComplete (m : Mach) (t : TRef) : Mach :=
  match m.thread? t with
  | some { release := some r, .. } => m.stepRelease t.team r
  | _ => m

/-- PUBLICATION_COMPLETE (R130). -/
def execPublicationComplete (t : TRef) (s : State) : Host.Outcome State Fault Refusal :=
  onMach (fun m => m.publicationComplete t) s

/-! ### Walks (06 R113) -/

/-- WALK_COMPLETE (R113). -/
def execWalkComplete (die ctx va : Nat) (s : State) : Host.Outcome State Fault Refusal :=
  onMach (fun m => m.endWalk die ctx va) s

/-! ### Wakes (09 R165-R168, R172) -/

/-- Whether a thread's team is on its core. -/
def Mach.here (m : Mach) (t : TRef) : Bool := match m.team? t.team with | some x => x.resident | none => false

/-- Whether two watches watch one line, or one scratchpad. -/
def Watch.near : Watch → Watch → Bool
  | .line p _, .line q _ => lineOf p == lineOf q
  | .scratch u _, .scratch v _ => u == v
  | _, _ => false

/-- A wake reaches its lane, after its deadline to no effect (R165). -/
def Mach.wakeLane (m : Mach) (t : TRef) (w : WaitA) : Mach :=
  match w.woken with
  | some b => if w.inTime m.clk then m.endWatch t w b else m.wakeWith t w.k false
  | none => m

/-- A recorded wake reaches its lane; that of a saved team is held (R167). The wakes that writes to one line, or scratchpad, in one cycle
have sent to the lanes of one group arrive together (log 71; 10 R177). -/
def Mach.waitaWake (m : Mach) (t : TRef) : Mach :=
  match m.thread? t with
  | some { wait := .waita w, .. } =>
    if !m.here t || w.woken.isNone then m
    else m.threads.foldl (fun m x =>
      match x.wait with
      | .waita v => if x.ref.team == t.team && x.ref.tidx / 32 == t.tidx / 32 && v.hit == w.hit && v.watch.near w.watch
          then m.wakeLane x.ref v else m
      | _ => m) m
  | _ => m

/-- WAITA_WAKE (R166). -/
def execWaitaWake (t : TRef) (s : State) : Host.Outcome State Fault Refusal :=
  onMach (fun m => m.waitaWake t) s

/-- A deadline passes. -/
def Mach.waitaTimeout (m : Mach) (t : TRef) : Mach :=
  match m.thread? t with
  | some { wait := .waita w, .. } => if !w.inTime m.clk && m.here t then m.wakeWith t w.k false else m
  | _ => m

/-- WAITA_TIMEOUT (R172). -/
def execWaitaTimeout (t : TRef) (s : State) : Host.Outcome State Fault Refusal :=
  onMach (fun m => m.waitaTimeout t) s

/-- A lane without a record asks the home (R166). The spec does not say whether it then takes a record that has become free: it does, and
WAITA_WAKE wakes it from there on (log 51, DESIGN CHOICE). -/
def Mach.monitorPoll (m : Mach) (t : TRef) : Mach :=
  match m.thread? t with
  | some { wait := .waita w, .. } =>
    match w.watch with
    | .line .. => if !w.record && w.inTime m.clk && m.here t then m.watch t w else m
    | _ => m
  | _ => m

/-- MONITOR_POLL (R166). -/
def execMonitorPoll (t : TRef) (s : State) : Host.Outcome State Fault Refusal :=
  onMach (fun m => m.monitorPoll t) s

/-- A recorded change of GEN reaches its lane (22 R333). -/
def Mach.hrdwWake (m : Mach) (t : TRef) : Mach :=
  match m.thread? t with
  | some { wait := .hrdw _ _ g _, .. } =>
    if g == genWoken && m.here t then m.updThread t fun x => { x with wait := .ready } else m
  | _ => m

/-- HRDW_WAKE (R333). -/
def execHrdwWake (t : TRef) (s : State) : Host.Outcome State Fault Refusal :=
  onMach (fun m => m.hrdwWake t) s

/-! ### Exceptions -/

/-- A lane whose results are in enters its handler (16 R240); one of a saved team waits for its restore (R253). -/
def Mach.handlerEntry (m : Mach) (t : TRef) : Mach :=
  match m.thread? t with
  | some th => match th.wait with
    | .entering i => if th.resultsDue || !m.here t then m else m.enter t i
    | _ => m
  | none => m

/-- HANDLER_ENTRY (R240). -/
def execHandlerEntry (t : TRef) (s : State) : Host.Outcome State Fault Refusal :=
  onMach (fun m => m.handlerEntry t) s

/-- IMPRECISE_FAULT_DETECT (R244): a saved team's fault stays pending. -/
def execImpreciseFaultDetect (team : Nat) (s : State) : Host.Outcome State Fault Refusal :=
  onMach (fun m => match m.team? team with
    | some t => if t.occupies then m.detect team else m
    | none => m) s

/-! ### Coherence traffic -/

/-- An evicted UPDT partial goes to its home slice (05 R102). -/
def Mach.evictPartial (m : Mach) (core line : Nat) : Mach :=
  { m with partials := m.partials.map fun (p : Partial) => if p.core == core && p.line == line then { p with home := true } else p }

/-- UPDT_PARTIAL_EVICT (R102). -/
def execUpdtPartialEvict (core line : Nat) (s : State) : Host.Outcome State Fault Refusal :=
  onMach (fun m => m.evictPartial core line) s

/-- The team on whose behalf a core asks for a line: one of those on the core, of a free choice (log 37). -/
def Mach.requester (m : Mach) (core : Nat) : Mach × Option Nat :=
  let us := (m.teamsAt core).map (·.uid)
  let (k, m) := m.choose us.length
  (m, us[k]?)

/-- The home answers an upgrade (07 R138) from the metadata it finds: the core owns the line, in E; a poisoned line is not granted,
and the requester's team meets the imprecise fault. -/
def Mach.upgrade (m : Mach) (core line : Nat) : Mach :=
  if 128 ≤ core then m
  else if m.poisoned line then
    match m.requester core with
    | (m, some u) => m.meet u { cause := 0x30, addr := BitVec.ofNat 64 (lineOf line), thread := none }
    | (m, none) => m
  else m.takeOwnership core (lineOf line) 2

/-- OWNERSHIP_UPGRADE (R138). -/
def execOwnershipUpgrade (core line : Nat) (s : State) : Host.Outcome State Fault Refusal :=
  onMach (fun m => m.upgrade core line) s

/-- LINE_RECALL (R384). -/
def execLineRecall (line : Nat) (s : State) : Host.Outcome State Fault Refusal :=
  onMach (fun m => m.recall (lineOf line)) s

/-- A push reaches a mirror that holds the region (07 R140). -/
def Mach.mirrorPush (m : Mach) (die region : Nat) : Mach :=
  { m with mirrors := m.mirrors.map fun (e : Nat × Nat × Word) =>
      if e.1 == die && e.2.1 == region then (die, region, m.round region) else e }

/-- MIRROR_PUSH (R140). -/
def execMirrorPush (die region : Nat) (s : State) : Host.Outcome State Fault Refusal :=
  onMach (fun m => m.mirrorPush die region) s

/-- A peer home takes back its line (07 R137): an owned copy is returned, a clean one dropped. -/
def Mach.peerInvalidate (m : Mach) (line : Nat) : Mach :=
  if spaceOf line == 2 then (m.recall (lineOf line)).dropCopies (lineOf line) 128 else m

/-- MULTICAST_INVALIDATION (R137). -/
def execMulticastInvalidation (line : Nat) (s : State) : Host.Outcome State Fault Refusal :=
  onMach (fun m => m.peerInvalidate line) s

end Sys2Proof.Machine
end

