-- ==== Sys2Proof/Machine/Crypto.lean ====
section
/-! DEFINITION. The digest and the signature that rule R279 names: SHA-384, and ECDSA on brainpoolP384r1 (20 R279; log 8). Both are
taken from their own standards, which the spec names without repeating. -/

namespace Sys2Proof.Machine

/-! ### SHA-384 -/

/-- The greatest number whose `k`-th power is at most `n`, from its bits below `b` on: `r` is what the higher bits give. -/
def rootBits (k n : Nat) : Nat → Nat → Nat
  | 0, r => r
  | b + 1, r => rootBits k n b (if (r + 2 ^ b) ^ k ≤ n then r + 2 ^ b else r)

/-- The first 64 bits behind the point of the `k`-th root of a number below 2^10. -/
def rootFraction (k n : Nat) : Nat := rootBits k (n * 2 ^ (64 * k)) 74 0 % 2 ^ 64

/-- The primes in order: 80 of them. -/
def shaPrimes : List Nat := (List.range 410).filter fun p => decide (2 ≤ p) && (List.range 19).all fun d => p ≤ d + 2 || p % (d + 2) != 0

/-- The constants of the 80 rounds: of the cube roots of the first primes. -/
def shaK : List Nat := shaPrimes.map (rootFraction 3)

/-- The chaining value before the first block: of the square roots of the ninth to the sixteenth prime. -/
def shaInit : List Nat := ((shaPrimes.drop 8).take 8).map (rootFraction 2)

def w64 (n : Nat) : Nat := n % 2 ^ 64

/-- Rotate a 64-bit word right. -/
def rotr (n x : Nat) : Nat := x / 2 ^ n + x % 2 ^ n * 2 ^ (64 - n)

/-- The complement of a 64-bit word. -/
def not64 (x : Nat) : Nat := 2 ^ 64 - 1 - x

/-- One round on the eight working words, with the round's constant plus its schedule word. -/
def shaRound (v : List Nat) (kw : Nat) : List Nat :=
  match v with
  | [a, b, c, d, e, f, g, h] =>
    let s1 := rotr 14 e ^^^ rotr 18 e ^^^ rotr 41 e
    let t1 := h + s1 + ((e &&& f) ^^^ (not64 e &&& g)) + kw
    let s0 := rotr 28 a ^^^ rotr 34 a ^^^ rotr 39 a
    [w64 (t1 + s0 + ((a &&& b) ^^^ (a &&& c) ^^^ (b &&& c))), a, b, c, w64 (d + t1), e, f, g]
  | _ => v

/-- The word that follows sixteen words of the schedule. -/
def shaNext (w : List Nat) : Nat :=
  let x := w.getD 1 0
  let y := w.getD 14 0
  w64 ((rotr 19 y ^^^ rotr 61 y ^^^ y / 2 ^ 6) + w.getD 9 0 + (rotr 1 x ^^^ rotr 8 x ^^^ x / 2 ^ 7) + w.getD 0 0)

/-- The rounds of one block: the working words and the next sixteen words of the schedule. -/
def shaRounds (ks : List Nat) (v w : List Nat) : List Nat :=
  (ks.foldl (fun (p : List Nat × List Nat) k =>
    (shaRound p.1 (k + p.2.headD 0), p.2.drop 1 ++ [shaNext p.2])) (v, w)).1

/-- Bytes as one number, the first highest. -/
def beNat (bs : List Byte) : Nat := bs.foldl (fun a b => a * 256 + b.toNat) 0

/-- A number as bytes, the highest first. -/
def beBytes (n v : Nat) : List Byte := (List.range n).map fun i => BitVec.ofNat 8 (v / 2 ^ (8 * (n - 1 - i)))

/-- Blocks of 128 bytes as sixteen words each; `fuel` blocks. -/
def shaBlocks : Nat → List Byte → List (List Nat)
  | 0, _ => []
  | fuel + 1, bs => ((List.range 16).map fun i => beNat ((bs.drop (8 * i)).take 8)) :: shaBlocks fuel (bs.drop 128)

/-- A message padded to whole blocks: one bit, zeros, and its length in bits. -/
def shaPad (bs : List Byte) : List Byte :=
  bs ++ 0x80 :: List.replicate ((239 - bs.length % 128) % 128) 0 ++ beBytes 16 (8 * bs.length)

/-- SHA-384 (R279). -/
def sha384 (bs : List Byte) : BitVec 384 :=
  let v := (shaBlocks (bs.length / 128 + 2) (shaPad bs)).take ((bs.length + 144) / 128)
    |>.foldl (fun v w => (v.zip (shaRounds shaK v w)).map fun p => w64 (p.1 + p.2)) shaInit
  BitVec.ofNat 384 ((v.take 6).foldl (fun a x => a * 2 ^ 64 + x) 0)

/-! ### The curve brainpoolP384r1 -/

def ecP : Nat := 0x8CB91E82A3386D280F5D6F7E50E641DF152F7109ED5456B412B1DA197FB71123ACD3A729901D1A71874700133107EC53
def ecA : Nat := 0x7BC382C63D8C150C3C72080ACE05AFA0C2BEA28E4FB22787139165EFBA91F90F8AA5814A503AD4EB04A8C7DD22CE2826
def ecB : Nat := 0x04A8C7DD22CE28268B39B55416F0447C2FB77DE107DCD2A62E880EA53EEB62D57CB4390295DBC9943AB78696FA504C11
def ecX : Nat := 0x1D1C64F068CF45FFA2A63A81B7C13F6B8847A3E77EF14FE3DB7FCAFE0CBD10E8E826E03436D646AAEF87B2E247D4AF1E
def ecY : Nat := 0x8ABE1D7520F9C2A45CB1EB8E95CFD55262B70B29FEEC5864E19C054FF99129280E4646217791811142820341263C5315

/-- The order of the curve's group. -/
def ecQ : Nat := 0x8CB91E82A3386D280F5D6F7E50E641DF152F7109ED5456B31F166E6CAC0425A7CF3AB6AF6B7FC3103B883202E9046565

/-- A point (x, y) as (x z^2, y z^3, z); z is 0 at infinity. -/
structure EcPoint where
  x : Nat
  y : Nat
  z : Nat
  deriving DecidableEq, Repr

def ecInfinity : EcPoint := { x := 1, y := 1, z := 0 }

def mulP (a b : Nat) : Nat := a * b % ecP
def subP (a b : Nat) : Nat := (a + ecP - b) % ecP

def EcPoint.dbl (p : EcPoint) : EcPoint :=
  let yy := mulP p.y p.y
  let s := mulP 4 (mulP p.x yy)
  let zz := mulP p.z p.z
  let m := (3 * mulP p.x p.x + mulP ecA (mulP zz zz)) % ecP
  let x := subP (mulP m m) (2 * s % ecP)
  { x := x, y := subP (mulP m (subP s x)) (mulP 8 (mulP yy yy)), z := mulP 2 (mulP p.y p.z) }

def EcPoint.add (p q : EcPoint) : EcPoint :=
  if p.z == 0 then q
  else if q.z == 0 then p
  else
    let z1 := mulP p.z p.z
    let z2 := mulP q.z q.z
    let u := mulP p.x z2
    let s := mulP p.y (mulP z2 q.z)
    let h := subP (mulP q.x z1) u
    let r := subP (mulP q.y (mulP z1 p.z)) s
    if h == 0 then (if r == 0 then p.dbl else ecInfinity)
    else
      let hh := mulP h h
      let hhh := mulP hh h
      let v := mulP u hh
      let x := subP (subP (mulP r r) hhh) (2 * v % ecP)
      { x := x, y := subP (mulP r (subP v x)) (mulP s hhh), z := mulP h (mulP p.z q.z) }

/-- The 384 bits of a number, the highest first. -/
def bits384 (n : Nat) : List Bool := (List.range 384).map fun i => n.testBit (383 - i)

/-- A multiple of a point. -/
def EcPoint.times (p : EcPoint) (k : Nat) : EcPoint :=
  (bits384 k).foldl (fun (r : EcPoint) b => if b then r.dbl.add p else r.dbl) ecInfinity

/-- A power modulo a number. -/
def powMod (n b e : Nat) : Nat := (bits384 e).foldl (fun r bit => if bit then r * r % n * b % n else r * r % n) 1

/-- The first coordinate of a point that is not at infinity. -/
def EcPoint.affineX (p : EcPoint) : Nat := mulP p.x (powMod ecP (mulP p.z p.z) (ecP - 2))

/-- Whether a public key is a point of the curve. -/
def keyOnCurve (k : PubKey) : Bool :=
  decide (k.x < ecP) && decide (k.y < ecP) && mulP k.y k.y == (mulP k.x (mulP k.x k.x) + mulP ecA k.x + ecB) % ecP

/-- The digest of a public key: of its two coordinates, 48 bytes each, the highest first (log 8). -/
def keyDigest (k : PubKey) : BitVec 384 := sha384 (beBytes 48 k.x ++ beBytes 48 k.y)

/-- ECDSA (R279): whether a 96-byte signature, r then s, both big-endian, on a digest verifies under a public key. -/
def sigValid (k : PubKey) (digest : BitVec 384) (sig : List Byte) : Bool :=
  let r := beNat (sig.take 48)
  let s := beNat ((sig.drop 48).take 48)
  let w := powMod ecQ s (ecQ - 2)
  let g : EcPoint := { x := ecX, y := ecY, z := 1 }
  let p := (g.times (digest.toNat * w % ecQ)).add (EcPoint.times { x := k.x, y := k.y, z := 1 } (r * w % ecQ))
  keyOnCurve k && decide (0 < r) && decide (r < ecQ) && decide (0 < s) && decide (s < ecQ) && p.z != 0 && p.affineX % ecQ == r

end Sys2Proof.Machine
end

