-- ==== Sys2Proof/Machine/Objects.lean ====
section
/-! DEFINITION. Code objects: their format, the checks of LOADOBJ, mapping and unmapping, revocation (20 R277-R284, R286). -/

namespace Sys2Proof.Machine

/-! ### Page tables written by the firmware (20 R282, R284; 06 R107, R109) -/

/-- Bits of a table entry. -/
def tableEntry (pa : Nat) : Nat := 15 * 2 ^ 60 + pa + 1

/-- Take `n` bytes of firmware-owned memory, whole pages. -/
def Mach.takePages (m : Mach) (n : Nat) : Nat × Mach := (m.fwBase, { m with fwBase := m.fwBase + (n + 4095) / 4096 * 4096 })

/-- Write a 4 KiB leaf for an address, with the tables above it; the first argument counts the levels below `table`. -/
def Mach.mapPage (m : Mach) (va leaf : Nat) : Nat → Nat → Mach
  | 0, _ => m
  | n + 1, table =>
    let at_ := table + 8 * (va / 2 ^ (12 + 9 * n) % 512)
    if n == 0 then (m.cohPrep (lineOf at_)).cohWrite1 at_ (leBytes leaf 8)
    else
      let (m, b) := m.readPte at_
      match b.filter isTable with
      | some b => m.mapPage va leaf n (ptePa b)
      | none =>
        let (t, m) := m.takePages 4096
        (m.cohWrite1 at_ (leBytes (tableEntry t) 8)).mapPage va leaf n t

/-- Map bytes at a base, padded to whole pages of 4 KiB, with the given low bits of their leaves. -/
def Mach.mapBytes (m : Mach) (root va flags : Nat) (bs : List Byte) : Mach :=
  let (pa, m) := m.takePages bs.length
  let m := m.cohWrite pa bs
  (List.range ((bs.length + 4095) / 4096)).foldl (fun m i =>
    m.mapPage (va + 4096 * i) (pa + 4096 * i + flags) 5 root) m

/-- Pages of a range. -/
def pagesOf (va n : Nat) : List Nat := (List.range ((n + 4095) / 4096)).map fun i => va + 4096 * i

/-- Whether no leaf maps any page of a range. -/
def Mach.unmapped (m : Mach) (ctx va n : Nat) : Bool := (pagesOf va n).all fun a => (m.tableLeaf ctx a).isNone

/-- Write V = 0 into the entries of a range and invalidate its pages; whether every holder has ended (R284; 19 R275). -/
def Mach.unmapRange (m : Mach) (ctx va n : Nat) : Mach × Bool :=
  (pagesOf va n).foldl (fun (m, ok) a =>
    let c := m.coverOf ctx a
    let m := match m.tableLeaf ctx a with
      | some l => m.rewriteLeaf l fun x => x / 2 * 2
      | none => m
    let (m, cmds, stamps) := m.invalidate ctx c
    (m, ok && m.drained cmds stamps)) (m, true)

/-- Unmap the unloaded objects that no accepted launch needs any more (R284). -/
def Mach.finishUnloads (m : Mach) : Mach :=
  m.objects.foldl (fun m o =>
    if !o.unloaded || m.launches.any (fun l => l.object == o.uid) then m
    else
      let (m, a) := m.unmapRange o.ctx o.codeBase o.codeLen
      let (m, b) := m.unmapRange o.ctx o.dataBase o.dataLen
      if a && b then { m with objects := m.objects.filter fun x => x.uid != o.uid } else m) m

/-! ### The format (R277-R279) -/

/-- Bytes of memory as the chiplet reads them; none when a line is poisoned. -/
def Mach.readObject (m : Mach) : Nat → Nat → Nat → Mach × Option (List Byte)
  | 0, _, _ => (m, some [])
  | fuel + 1, pa, n =>
    if n == 0 then (m, some [])
    else
      let k := min n (128 - pa % 128)
      match m.cohRead pa k with
      | (m, none) => (m, none)
      | (m, some bs) =>
        match m.readObject fuel (pa + k) (n - k) with
        | (m, some rest) => (m, some (bs ++ rest))
        | (m, none) => (m, none)

/-- A code object's header fields. -/
structure Header where
  magic   : Nat
  fmt     : Nat
  gen     : Nat
  step    : Nat
  svn     : Nat
  nkern   : Nat
  codeOff : Nat
  codeLen : Nat
  dataOff : Nat
  dataLen : Nat
  kdOff   : Nat
  sigOff  : Nat
  signer  : BitVec 384
  deriving DecidableEq, Repr

def headerOf (bs : List Byte) : Header where
  magic := field bs 0 4
  fmt := field bs 4 2
  gen := field bs 6 1
  step := field bs 7 1
  svn := field bs 8 4
  nkern := field bs 12 4
  codeOff := field bs 16 8
  codeLen := field bs 24 8
  dataOff := field bs 32 8
  dataLen := field bs 40 8
  kdOff := field bs 48 8
  sigOff := field bs 56 8
  signer := BitVec.ofNat 384 (beNat ((bs.drop 64).take 48))

/-- A kernel's descriptor in an object loaded at a code base (R278, R282). -/
def kernelOf (bs : List Byte) (h : Header) (codeBase i : Nat) : Kernel :=
  let k := bs.drop (h.kdOff + 64 * i)
  {
    entry := BitVec.ofNat 64 (codeBase / 4 + field k 0 8), threads := field k 8 2, teams := field k 10 1, regs := field k 11 1
    scr := field k 12 2, idem := field k 14 1 % 2 == 1, rstr := field k 14 1 / 2 % 2 == 1 }

/-- Whether a descriptor keeps the limits of R92 and R278. -/
def kernelOk (bs : List Byte) (h : Header) (i : Nat) : Bool :=
  let k := bs.drop (h.kdOff + 64 * i)
  let between (lo hi x : Nat) : Bool := decide (lo ≤ x) && decide (x ≤ hi)
  field k 0 8 % 3 == 0 && decide (4 * field k 0 8 < h.codeLen) && between 1 1024 (field k 8 2) && between 1 16 (field k 10 1)
    && between 8 128 (field k 11 1) && field k 11 1 % 8 == 0 && decide (field k 14 1 < 4) && field k 15 1 == 0
    && ((k.drop 48).take 16).all fun b => b == 0

/-- Whether the header alone is in order, so that the object's length is known. -/
def headerOk (bs : List Byte) (h : Header) : Bool :=
  h.magic == 0x394B4C54 && h.fmt == 1 && decide (1 ≤ h.nkern) && decide (h.nkern ≤ 4096) && h.codeOff % 12 == 0
    && h.codeLen % 12 == 0 && [(h.codeOff, h.codeLen), (h.dataOff, h.dataLen), (h.kdOff, 64 * h.nkern)].all (fun x =>
      decide (256 ≤ x.1) && decide (x.1 + x.2 ≤ h.sigOff)) && ((bs.drop 112).take 144).all fun b => b == 0

/-- Check 1 of R280. -/
def formatOk (bs : List Byte) (h : Header) : Bool := headerOk bs h && (List.range h.nkern).all fun i => kernelOk bs h i

/-- The words of the code section. -/
def codeWords (bs : List Byte) (h : Header) : List Nat :=
  (List.range (h.codeLen / 4)).map fun i => field bs (h.codeOff + 4 * i) 4

/-- TSPL or TFCH, by MAJ and FN (R280 check 5). -/
def isMergeWord (w : Nat) : Bool := w / 2 ^ 25 % 64 == 0x30 && (w % 32 == 9 || w % 32 == 10)

/-- DOT4 or BPRM, the deprecated words that LOADOBJ counts (R280). -/
def isDeprecated (w : Nat) : Bool :=
  match decodeWord (w % 2 ^ 31) none with
  | .ok (.dot4 ..) | .ok (.bprm ..) => true
  | _ => false

/-- Check 5 of R280. -/
def steppingOk (k2 : Bool) (bs : List Byte) (h : Header) : Bool :=
  let merge := (codeWords bs h).any isMergeWord
  (h.step == 0 || h.step == (if k2 then 2 else 1)) && (!merge || (!k2 && h.step == 1))

/-! ### Loading (R280-R282) -/

/-- The code-object fuse counter: the count of blown bits (R285). -/
def Fuses.cosvnCount (f : Fuses) : Nat := ((List.range 128).filter fun i => f.cosvn.getLsbD i).length

/-- Blow the lowest unblown bits until the count reaches `n` (R283, R285). -/
def Fuses.raiseCosvn (f : Fuses) (n : Nat) : Fuses :=
  (List.range 128).foldl (fun f i =>
    if f.cosvnCount < n then { f with cosvn := f.cosvn ||| (1#128 <<< i) } else f) f

/-- Whether check 3 passes without the cache (R286): unsigned only in OPEN, else signed by an enrolled key, the one whose digest SIGNER
gives (R277, R279). -/
def sigOk (y : Sys) (bs : List Byte) (h : Header) (digest : BitVec 384) : Bool :=
  let sig := (bs.drop h.sigOff).take 96
  if h.signer == 0 then y.security == .openState && sig.all fun b => b == 0
  else y.keys.any fun k => keyDigest k == h.signer && sigValid k digest sig

/-- Whether two ranges have a byte in common. -/
def overlaps (a n b k : Nat) : Bool := decide (0 < n) && decide (0 < k) && decide (a < b + k) && decide (b < a + n)

/-- Check 6 of R280: aligned bases, and both ranges free in the context; an empty range is free (R277). -/
def Mach.spaceFree (m : Mach) (ctx codeBase dataBase : Nat) (h : Header) : Bool :=
  let free (a n : Nat) : Bool := decide (a + n ≤ 2 ^ 57) && m.unmapped ctx a n && m.objects.all fun o =>
    o.ctx != ctx || (!overlaps a n o.codeBase o.codeLen && !overlaps a n o.dataBase o.dataLen)
  (m.ctx? ctx).isSome && codeBase % 12 == 0 && codeBase % 4096 == 0 && dataBase % 4096 == 0 && free codeBase h.codeLen
    && free dataBase h.dataLen && !overlaps codeBase h.codeLen dataBase h.dataLen

/-- The status of LOADOBJ by the checks in order. -/
def loadStatus (y : Sys) (m : Mach) (bs : List Byte) (h : Header) (digest : BitVec 384) (ctx codeBase dataBase : Nat) : Nat :=
  if !formatOk bs h then 1
  else if h.svn < y.fuses.cosvnCount then 2
  else if !(y.verified.contains (digest, h.signer) || sigOk y bs h digest) then 3
  else if h.gen != 2 then 4
  else if !steppingOk m.k2 bs h then 5
  else if !m.spaceFree ctx codeBase dataBase h then 6
  else 0

/-- Map an object whose checks passed: code U and X, data U and W (R282). -/
def Mach.mapObject (m : Mach) (bs : List Byte) (h : Header) (ctx codeBase dataBase : Nat) : Mach :=
  match m.ctx? ctx with
  | none => m
  | some c =>
    let m := m.mapBytes c.desc.root codeBase 0xD ((bs.drop h.codeOff).take h.codeLen)
    let m := m.mapBytes c.desc.root dataBase 0xB ((bs.drop h.dataOff).take h.dataLen)
    let (uid, m) := m.fresh
    let o : Object := {
      uid := uid, ctx := ctx, codeBase := codeBase, codeLen := h.codeLen, dataBase := dataBase, dataLen := h.dataLen
      svn := h.svn, kernels := (List.range h.nkern).map fun i => kernelOf bs h codeBase i, revoked := false, unloaded := false }
    { m with objects := m.objects ++ [o] }

/-- What LOADOBJ leaves in the verified-object cache (R281): at most 1,024 entries; a revoked object's is purged. -/
def cacheAfter (y : Sys) (key : BitVec 384 × BitVec 384) (status : Nat) : List (BitVec 384 × BitVec 384) :=
  if status == 2 then y.verified.filter fun k => k != key
  else if status == 1 || status == 3 || y.verified.contains key then y.verified
  else (key :: y.verified).take 1024

/-- No image runs: the power is off, or the start's checks failed, or the recovery loader runs (20 R292, R294, R295). -/
def Sys.silent (y : Sys) : Bool := y.removed || y.boot.stage == 1 || y.boot.stage == 3

/-- A call of the firmware or a request of the management interface: while no image runs nothing takes it (R294). -/
def call (k : State → Host.Outcome State Fault Refusal) (s : State) : Host.Outcome State Fault Refusal :=
  if s.sys.silent then .next s else k s

/-- LOADOBJ (R280-R282): an object the firmware cannot read is BADFORMAT (log 43). -/
def loadobj (pa ctx codeBase dataBase : Nat) (s : State) : Host.Outcome State Fault Refusal :=
  let bad (m : Mach) : Host.Outcome State Fault Refusal := .next { s with m := m, sys := { s.sys with answer := 1, detail := 0 } }
  match s.m.finishUnloads.readObject 4 pa 256 with
  | (m, none) => bad m
  | (m, some hd) =>
    let h := headerOf hd
    if !headerOk hd h then bad m
    else match m.readObject (h.sigOff / 128 + 3) pa (h.sigOff + 96) with
    | (m, none) => bad m
    | (m, some bs) =>
      let digest := sha384 (bs.take h.sigOff)
      let st := loadStatus s.sys m bs h digest ctx codeBase dataBase
      let m := if st == 0 then m.mapObject bs h ctx codeBase dataBase else m
      .next { s with
        m := m
        sys := { s.sys with
          verified := cacheAfter s.sys (digest, h.signer) st, answer := st
          detail := if st == 0 then ((codeWords bs h).filter isDeprecated).length else 0 } }

def execLoadobj (pa ctx codeBase dataBase : Nat) (s : State) : Host.Outcome State Fault Refusal :=
  call (loadobj pa ctx codeBase dataBase) s

/-- UNLOADOBJ (R284). -/
def unloadobj (obj ctx : Nat) (s : State) : Host.Outcome State Fault Refusal :=
  if s.m.objects.any fun o => o.uid == obj && o.ctx == ctx && !o.unloaded then
    let m := { s.m with objects := s.m.objects.map fun (o : Object) => if o.uid == obj then { o with unloaded := true } else o }
    .next { s with m := m.finishUnloads, sys := { s.sys with answer := 0 } }
  else .next { s with sys := { s.sys with answer := 7 } }

def execUnloadobj (obj ctx : Nat) (s : State) : Host.Outcome State Fault Refusal := call (unloadobj obj ctx) s

/-- ADVSVN (R283): the counter never falls; loaded objects below it are revoked. -/
def advsvn (n : Nat) (s : State) : Host.Outcome State Fault Refusal :=
  let f := s.sys.fuses.raiseCosvn n
  .next { s with
    sys := { s.sys with fuses := f, answer := 0 }
    m := { s.m with objects := s.m.objects.map fun (o : Object) =>
      if o.svn < f.cosvnCount then { o with revoked := true } else o } }

def execAdvsvn (n : Nat) (s : State) : Host.Outcome State Fault Refusal := call (advsvn n) s

/-- SUBMIT (19 R387): as LNCH by a kernel-mode issuer; a record without a context is BADCTX. -/
def submitCall (pa : Nat) (s : State) : Host.Outcome State Fault Refusal :=
  match s.m.cohRead pa 128 with
  | (m, none) => .next { s with m := m, sys := { s.sys with answer := 3 } }
  | (m, some bs) =>
    if field bs 28 4 == 0 then .next { s with m := m, sys := { s.sys with answer := 1 } }
    else
      let (m, st) := m.submitAs true 1 bs
      .next { s with m := m, sys := { s.sys with answer := st } }

def execSubmit (pa : Nat) (s : State) : Host.Outcome State Fault Refusal := call (submitCall pa) s

end Sys2Proof.Machine
end

