-- ==== Sys2Proof/Machine/Scheduler.lean ====
section
/-! DEFINITION. The scheduler: eligibility, placing folds, waiting folds, the retirement of teams and grids (02 R39-R43; 15
R227-R233, R386; 16 R245). -/

namespace Sys2Proof.Machine

/-! ### Teams that end (02 R39, R40; 16 R245, R251) -/

/-- Whether every operation of a team's threads and every command of its queue has completed (R40). -/
def Mach.teamDrained (m : Mach) (u : Nat) : Bool :=
  (m.threads.all fun t => t.ref.team != u || (t.ops.isEmpty && t.release.isNone))
    && m.cmds.all (fun c => c.team != u) && m.tileq.all (fun q => q.team != u)
    && (match m.team? u with | some t => t.qcmds.isEmpty && t.returned.isEmpty | none => true)

/-- A team leaves its core: watches on its scratchpad end (09 R168), its share, tiles and slots go; a shepherd serves no batch any more
(19 R269). -/
def Mach.leaveCore (m : Mach) (u : Nat) (st : TeamStatus) : Mach :=
  let m := (m.endWatches u).dropFold u
  let m := match m.team? u with | some t => if t.shepherd then m.failBatches (dieOf t.core) else m | none => m
  let m := { m with
    threads := m.threads.filter fun t => t.ref.team != u
    groups := m.groups.filter fun g => g.team != u }
  m.updTeam u fun t => { t with
    status := st, scratch := [], tileMem := [], tileTags := [], qmem := [], hurdles := [], preempt := none, defer := false
    fp := false, known := [], latent := [], fault := none }

/-- A faulted team starts again on its core (R245), once its groups find slots there: those of its groups that had retired may
be in use. -/
def Mach.restart (m : Mach) (t : Team) : Mach :=
  let m' := { m with groups := m.groups.filter fun g => g.team != t.uid }
  if (List.range 4).all fun s => groupsOn t.n t.base s + (m'.slotsUsed t.core s).length ≤ 8 then
    let acc := match m.launch? t.launch with | some l => l.accepted | none => 0
    let m := (m'.endWatches t.uid).seatGroups t.uid t.core t.n t.base
    (m.updTeam t.uid fun x => { x with restarts := min 255 (x.restarts + 1) }).startTeam t.uid acc
  else m

/-- Whether the operations in flight of a faulted team's threads have completed (R245): an XSHT, whose drain may wait for the team's own
parked command, does not keep the fault back. -/
def Mach.opsDone (m : Mach) (u : Nat) : Bool :=
  m.threads.all fun t => t.ref.team != u || (t.release.isNone && t.ops.all fun o => match o.kind with | .xsht _ => true | _ => false)

/-- What becomes of a team whose operations have drained: a retired or killed one frees its share, a restarted one starts
again, a flushed one waits to be placed again. A fault that an operation met meanwhile is reported first (R40, R244). -/
def Mach.retireTeam (m : Mach) (u : Nat) : Mach :=
  match m.team? u with
  | none => m
  | some t =>
    match t.status, t.fault with
    | .stopping, some r => if m.opsDone u then m.settleFault t r else m
    | st, _ =>
      if !m.teamDrained u then m
      else if st != .stopping && !t.latent.isEmpty then m.detectAll u
      else match st with
      | .retired => m.leaveCore u .gone
      | .stopping =>
        if t.killed then (m.updLaunch t.launch fun l => { l with killed := true }).leaveCore u .gone else m.restart t
      | .running => match t.preempt with
        | some { method := .flush, defer := none, .. } =>
          if t.fp then m.report u else (m.discard u).leaveCore u .flushed
        | _ => m
      | _ => m

/-- TEAM_RETIRE (R40). -/
def execTeamRetire (team : Nat) (s : State) : Host.Outcome State Fault Refusal :=
  onMach (fun m => m.retireTeam team) s

/-! ### Grids that end (02 R41; 15 R233, R386) -/

/-- Some order of a list (log 7); the first argument counts its members. -/
def Mach.shuffle (m : Mach) : Nat → List Nat → List Nat × Mach
  | 0, _ => ([], m)
  | k + 1, xs =>
    let (i, m) := m.choose xs.length
    match xs[i]? with
    | none => ([], m)
    | some x =>
      let (rest, m) := m.shuffle k (xs.eraseIdx i)
      (x :: rest, m)

/-- The bytes that teams hold in their versions, in the order in which they count at their homes (R41): within an aligned 16 bytes the
teams go in a free order, each with its newest store first; an atomic result that a later one of its core has replaced is left out. -/
def Mach.commitOrder (m : Mach) (all : List VByte) : Mach × List VByte :=
  let live (b : VByte) : Bool :=
    !(b.atomic && (all.takeWhile fun x => x != b).any fun x => x.atomic && x.pa == b.pa && x.core == b.core)
  ((all.map fun b => b.pa / 16).dedup).foldl (fun (acc : Mach × List VByte) k =>
    let bs := all.filter fun b => b.pa / 16 == k && live b
    let ts := (bs.map fun b => b.ref.team).dedup
    let (order, m) := acc.1.shuffle ts.length ts
    (m, acc.2 ++ (order.map fun u => bs.filter fun b => b.ref.team == u).flatten)) (m, [])

/-- Make every byte that teams hold in their versions visible at its home, a round counted in each region written (R41, 07 R139). -/
def Mach.commitTeams (m : Mach) (us : List Nat) : Mach :=
  let mine (b : VByte) : Bool := us.contains b.ref.team || us.contains b.owner
  let (m, bs) := m.commitOrder (m.versions.filter mine)
  let m := m.leaveTrail (bs.map fun b => (b.pa, 1, b.core, b.vis))
  let m := (byteLines bs).foldl (fun m l => m.homeLine l (bs.filter fun b => lineOf b.pa == l)) m
  ({ m with versions := m.versions.filter fun x => !mine x && !bs.any fun b => b.pa == x.pa && sameStore b x }).countRounds (regionsOf bs)

/-- Write a launch's completion stamp (R233, R386): none when it names none; a record when it cannot be translated. -/
def Mach.completionStamp (m : Mach) (l : Launch) (status : Nat) : Mach :=
  if l.csa == 0 then m
  else match m.stampLeaf l.ctx l.csa true with
  | (m, .ok lf) => m.cohWrite (lf.pa (l.csa % 2 ^ 57)) (leBytes (l.csv.toNat / 2 ^ 16 * 2 ^ 16 + status) 8)
  | (m, .error c) => m.recordLost l.ctx l.csa c

/-- A launch leaves the scheduler, with the cores held for it. -/
def Mach.dropLaunch (m : Mach) (u : Nat) : Mach :=
  { m with
    launches := m.launches.filter fun l => l.uid != u
    heldCores := m.heldCores.filter fun h => h.2 != u }

/-- A grid completes once its last fold has retired. -/
def Mach.completeGrid (m : Mach) (u : Nat) : Mach :=
  match m.launch? u with
  | none => m
  | some l =>
    let ts := m.teams.filter fun t => t.launch == u
    if l.next < l.folds || ts.any (fun t => t.status != .gone) then m
    else
      let m := (m.commitTeams (ts.map fun t => t.uid)).completionStamp l (if l.killed then 1 else 0)
      ({ m with teams := m.teams.filter fun t => t.launch != u }.dropLaunch u).finishUnloads

/-- GRID_COMPLETE (R41). -/
def execGridComplete (launch : Nat) (s : State) : Host.Outcome State Fault Refusal :=
  onMach (fun m => m.completeGrid launch) s

/-! ### Eligibility (R227) -/

/-- Whether a dependence stamp has met its minimum (R227): its record has caught such a value, or, without a record, the home now
holds one. The spec does not say whether two stamps must hold at one time: each catch stands, also when its stamp has fallen back since
(log 82, DESIGN CHOICE). -/
def Mach.stampMet (m : Mach) (dep : Option (Nat × DWord)) (pa : Option Nat) (held met : Bool) : Mach × Bool :=
  if dep.isNone || (met && pa.isSome) then (m, true)
  else if held then (m, false)
  else m.depMet dep pa

/-- A launch whose stamps hold becomes eligible; its first fold waits from now. -/
def Mach.makeEligible (m : Mach) (u : Nat) : Mach :=
  match m.launch? u with
  | none => m
  | some l =>
    if l.eligible then m
    else
      let (m, a) := m.stampMet l.dep0 l.dep0pa l.rec0 l.met0
      let (m, b) := m.stampMet l.dep1 l.dep1pa l.rec1 l.met1
      if a && b then m.updLaunch u fun l => { l with eligible := true, waitFrom := some m.clk } else m

/-- LAUNCH_ELIGIBLE (R227). -/
def execLaunchEligible (launch : Nat) (s : State) : Host.Outcome State Fault Refusal :=
  onMach (fun m => m.makeEligible launch) s

/-! ### Placing (R228-R232) -/

/-- What waits for a place: the next fold of a launch, or a flushed team that starts again (16 R251). -/
inductive Waiting where
  | fold (l : Launch)
  | again (t : Team) (accepted : Nat)
  deriving DecidableEq, Repr

def Waiting.prio : Waiting → Nat
  | .fold l => l.prio | .again t _ => t.prio

def Waiting.accepted : Waiting → Nat
  | .fold l => l.accepted | .again _ a => a

/-- The order of R228: priority, then module-wide acceptance; a flushed team is of an earlier fold than its launch's next. -/
def Waiting.before (a b : Waiting) : Bool :=
  decide (b.prio < a.prio) || (a.prio == b.prio && (decide (a.accepted < b.accepted) ||
    (a.accepted == b.accepted && match b with | .fold _ => true | .again .. => false)))

def insertWaiting (x : Waiting) : List Waiting → List Waiting
  | [] => [x]
  | y :: ys => if x.before y then x :: y :: ys else y :: insertWaiting x ys

/-- Whether a context may run: it exists and the debugger has not halted it (20 R287). -/
def Mach.runs (m : Mach) (ctx : Nat) : Bool := match m.ctx? ctx with | some c => !c.halted | none => false

/-- Everything that waits for a place, in order. Launches of shepherds have their own path (19 R270). -/
def Mach.waiting (m : Mach) : List Waiting :=
  let folds := (m.launches.filter fun l => l.shepherd.isNone && l.eligible && decide (l.next < l.folds) && m.runs l.ctx).map
    Waiting.fold
  let again := (m.teams.filter fun t => t.status == .flushed && m.runs t.ctx).map fun t =>
    Waiting.again t (match m.launch? t.launch with | some l => l.accepted | none => 0)
  (folds ++ again).foldl (fun acc x => insertWaiting x acc) []

/-- Whether a fold has waited 100 us (R228). -/
def Launch.waited (l : Launch) (clk : Nat) : Bool :=
  match l.waitFrom with | some c => decide (c + Config.usCycles 100 ≤ clk) | none => false

/-- Whether what waits has waited 100 us (R228). The spec speaks of folds, and does not say whether a pre-empted team that waits to be
placed again can hold others off: it never counts as having waited so long (log 83, DESIGN CHOICE). -/
def Waiting.waited (w : Waiting) (clk : Nat) : Bool := match w with | .fold l => l.waited clk | .again .. => false

/-- Whether a fold that has waited 100 us keeps another of equal or lower priority back. The spec does not say whether a launch's own next
fold keeps back a flushed team of its earlier fold: it does here (log 83, DESIGN CHOICE). -/
def heldOff (clk : Nat) (all : List Waiting) (x : Waiting) : Bool :=
  all.any fun w => w != x && w.waited clk && decide (x.prio ≤ w.prio) && (!x.waited clk || w.before x)

/-- Place a flushed team again: on a core of its die, so that it stays with its fold (02 R43). -/
def Mach.placeAgain (m : Mach) (t : Team) (accepted : Nat) : Option Mach :=
  if !m.placeable (dieOf t.core) then none
  else match (m.coresFor (dieOf t.core) t.launch).find? fun c => m.accepts c t.need with
  | none => none
  | some c => some (m.seat c t.need (fun slot base => { t with core := c, slot := slot, base := base }) accepted)

/-- Place one waiting thing. The spec does not say from when the wait of a launch's later folds counts (R228): it counts from the
placement of the fold before, as that of the first from its eligibility (log 83, DESIGN CHOICE). -/
def Mach.placeOne (m : Mach) (w : Waiting) : Option Mach :=
  match w with
  | .again t a => m.placeAgain t a
  | .fold l => (m.placeFold l).map fun m =>
    { (m.updLaunch l.uid fun l => { l with next := l.next + 1, waitFrom := some m.clk, asked := [] }) with
      heldCores := m.heldCores.filter fun h => h.2 != l.uid }

/-- Place a shepherd on an empty core 0 of its die (19 R270); services are enabled once the last has started. -/
def Mach.placeShepherd (m : Mach) (l : Launch) (die : Nat) : Option Mach :=
  if m.placeable die && (m.teamsAt (32 * die)).isEmpty && m.runs l.ctx then
    (m.placeTeams l [32 * die] l.teams 0).map fun m =>
      let m := m.updLaunch l.uid fun l => { l with next := l.next + 1 }
      { m with services := m.services || m.launches.all fun l => l.shepherd.isNone || decide (l.folds ≤ l.next) }
  else none

/-- The next placement the scheduler makes. -/
def Mach.placeNext (m : Mach) : Option Mach :=
  let shepherds := m.launches.filterMap fun l => match l.shepherd with
    | some d => if l.next < l.folds then some (l, d) else none
    | none => none
  match shepherds.findSome? fun p => m.placeShepherd p.1 p.2 with
  | some m => some m
  | none =>
    let all := m.waiting
    all.findSome? fun w => if heldOff m.clk all w then none else m.placeOne w

/-- FOLD_PLACE (R231): the first fold placed in IDLE returns the module to RUN (20 R289). -/
def execFoldPlace (s : State) : Host.Outcome State Fault Refusal :=
  match s.m.placeNext with
  | none => .next s
  | some m => .next { s with
      m := m
      sys := { s.sys with power := if s.sys.power == .idle then .run else s.sys.power } }

/-! ### A priority-3 fold that has waited (R229) -/

/-- Teams of lower priority that hold a share on a die (those that are ending too), by ascending priority, then latest start first. The spec
gives no order to those that started in one cycle: the one with the higher name comes first (log 84, DESIGN CHOICE). -/
def Mach.victims (m : Mach) (die : Nat) : List Team :=
  let before (a b : Team) : Bool := decide (a.prio < b.prio) || (a.prio == b.prio && (decide (b.startClk < a.startClk) ||
    (a.startClk == b.startClk && decide (b.uid < a.uid))))
  let rec insert (x : Team) : List Team → List Team
    | [] => [x]
    | y :: ys => if before x y then x :: y :: ys else y :: insert x ys
  (m.teams.filter fun t => t.occupies && dieOf t.core == die && decide (t.prio < 3) && !t.shepherd).foldl
    (fun acc t => insert t acc) []

/-- The machine without some teams, to see whether a fold would fit. -/
def Mach.without (m : Mach) (us : List Nat) : Mach :=
  { m with teams := m.teams.map fun (t : Team) => if us.contains t.uid then { t with status := .gone } else t }

/-- The shortest prefix of a die's victims whose removal lets the fold be placed there. -/
def Mach.prefixFor (m : Mach) (l : Launch) (die : Nat) : Option (List Nat) :=
  let vs := (m.victims die).map fun t => t.uid
  ((List.range (vs.length + 1)).find? fun k => ((m.without (vs.take k)).tryFold l die).isSome).map fun k => vs.take k

/-- The die whose prefix is shortest, the lowest on a tie. -/
def Mach.choice (m : Mach) (l : Launch) : Option (List Nat) :=
  ([0, 1, 2, 3].filterMap fun d => m.prefixFor l d).foldl (fun acc p => match acc with
    | none => some p
    | some q => if p.length < q.length then some p else some q) none

/-- Request the pre-emption that a waiting priority-3 fold needs, once every earlier request for it has ended. -/
def Mach.askRoom (m : Mach) (u : Nat) : Mach :=
  match m.launch? u with
  | none => m
  | some l =>
    let ended := l.asked.all fun v => match m.team? v with
      | some t => !t.occupies || (t.preempt.isNone && t.status == .running)
      | none => true
    if l.prio != 3 || l.shepherd.isSome || !l.eligible || decide (l.folds ≤ l.next) || !l.waited m.clk || !ended || !m.runs l.ctx then m
    else match m.choice l with
    | none => m
    | some vs =>
      let cores := vs.filterMap fun v => (m.team? v).map fun t => (t.core, u)
      let m := vs.foldl (fun m v => m.requestPreempt v) m
      { (m.updLaunch u fun l => { l with asked := vs }) with heldCores := (m.heldCores ++ cores).dedup }

/-- PRIORITY_WAIT_EXPIRY (R229). -/
def execPriorityWaitExpiry (launch : Nat) (s : State) : Host.Outcome State Fault Refusal :=
  onMach (fun m => m.askRoom launch) s

end Sys2Proof.Machine
end

