-- ==== Sys2Proof/Machine/Saving.lean ====
section
/-! DEFINITION. Pre-empting, saving and restoring teams, and the end of a context (05 R104; 09 R167; 13 R218; 15 R233; 16
R250-R254; 20 R287). -/

namespace Sys2Proof.Machine

/-! ### Requests and limits (R250-R252) -/

/-- PREEMPT_REQUEST (R250): a context switch or time slice; a shepherd team is never asked (19 R270). -/
def execPreemptRequest (team : Nat) (s : State) : Host.Outcome State Fault Refusal :=
  onMach (fun m => match m.team? team with
    | some t => if t.shepherd then m else m.requestPreempt team
    | none => m) s

/-- A drain that has lasted 200 us becomes a save. -/
def Mach.drainTimeout (m : Mach) (u : Nat) : Mach :=
  match m.team? u with
  | some { preempt := some { method := .drain, since := c, forced := f, .. }, .. } =>
    if c + Config.usCycles 200 ≤ m.clk then m.beginPreempt u .save f else m
  | _ => m

/-- DRAIN_TIMEOUT (R251). -/
def execDrainTimeout (team : Nat) (s : State) : Host.Outcome State Fault Refusal :=
  onMach (fun m => m.drainTimeout team) s

/-- A deferral that has lasted 100 us ends with a save, whatever was chosen. -/
def Mach.deferTimeout (m : Mach) (u : Nat) : Mach :=
  match m.team? u with
  | some { preempt := some p, status := .running, .. } =>
    match p.defer with
    | some c =>
      if c + Config.usCycles 100 ≤ m.clk then m.updTeam u fun t => { t with
        preempt := some { p with method := .save, defer := none }, defer := false } else m
    | none => m
  | _ => m

/-- DEFER_TIMEOUT (R252). -/
def execDeferTimeout (team : Nat) (s : State) : Host.Outcome State Fault Refusal :=
  onMach (fun m => m.deferTimeout team) s

/-- No hurdle is partly arrived any more: the method is chosen again, but that of a breakpoint stands (20 R287). -/
def Mach.deferClear (m : Mach) (u : Nat) : Mach :=
  match m.team? u with
  | none => m
  | some t =>
    match t.preempt with
    | some { defer := some _, forced := f, .. } =>
      if t.hurdles.isEmpty then m.beginPreempt u (if f then .save else m.methodFor t) f else m
    | _ => m

/-- DEFER_CLEAR (R252). -/
def execDeferClear (team : Nat) (s : State) : Host.Outcome State Fault Refusal :=
  onMach (fun m => m.deferClear team) s

/-! ### Save (R251, R253) -/

/-- Whether an indexed reduce waits for MIG of its destination row (06 R117). -/
def Mach.migWaits (m : Mach) (c : Cmd) (t : Team) : Bool :=
  c.kind == 5 && (match (m.rowPages c t).2 with
    | .ok ls => ls.any fun p => pteMig p.2.bits
    | .error _ => false)

/-- Whether a command is a collective that still waits for its members: it stays in its engine (R251). -/
def Cmd.awaits (c : Cmd) : Bool := c.kind == 8 && c.peers.isNone && c.parked.isNone

/-- Whether an accepted command can be taken into a save: it is parked, waits on MIG, behind a parked command or for earlier
commands, or is a collective that stays in its engine. -/
def Mach.cmdSavable (m : Mach) (c : Cmd) (t : Team) : Bool :=
  c.pieces.isEmpty && !c.done && (c.parked.isSome || c.awaits || c.kind == 9 || m.heldBack c || m.migWaits c t)

/-- Whether the tile operations of a team that are still queued wait at a merge area, so that they are saved (13 R218): its next one
does. -/
def Mach.tilesSavable (m : Mach) (u : Nat) : Bool :=
  match (m.tileq.filter fun q => q.team == u).foldl (fun acc q => match acc with
      | none => some q
      | some b => if q.first b then some q else some b) none with
  | none => true
  | some q => (match q.instr with | .tspl .. | .tfch .. => true | _ => false) && !m.tileReady q

/-- Whether a team can be saved now: no operation in flight but those that are saved with it. -/
def Mach.canSave (m : Mach) (t : Team) : Bool :=
  t.status == .running && (match t.preempt with | some { method := .save, defer := none, .. } => true | _ => false)
    && m.tilesSavable t.uid
    && (m.threads.all fun x => x.ref.team != t.uid || (x.release.isNone && x.ops.all fun o => o.tile))
    && (m.cmds.all fun c => c.team != t.uid || m.cmdSavable c t)

/-- Commands by their place in the queue. -/
def insertCmd (c : Cmd) : List Cmd → List Cmd
  | [] => [c]
  | d :: ds => if c.seq < d.seq then c :: d :: ds else d :: insertCmd c ds

/-- Save a team: its share and tiles go; its unpublished bytes move to its version in L2, and its commands, but collectives that wait for
their members, go back to the head of its queue. A lane that a breakpoint stopped goes on after the restore (21 R309). -/
def Mach.saveTeam (m : Mach) (u : Nat) : Mach :=
  match m.team? u with
  | none => m
  | some t =>
    if !m.canSave t then m
    else
      let back (c : Cmd) : Bool := c.team == u && !c.awaits
      let cs := (m.cmds.filter back).foldl (fun acc c => insertCmd { c with parked := none, pages := [] } acc) []
      { (m.updTeam u fun t => { t with status := .saved, preempt := none, defer := false, returned := cs ++ t.returned }) with
        cmds := m.cmds.filter fun c => !back c
        threads := m.threads.map fun (x : Thread) =>
          if x.ref.team == u && x.wait == Wait.halted then { x with wait := .ready } else x
        versions := m.versions.map fun (b : VByte) =>
          if b.ref.team == u && b.inL1 && !b.diePub then { b with l2 := true } else b }

/-- TEAM_SAVE (R251). -/
def execTeamSave (team : Nat) (s : State) : Host.Outcome State Fault Refusal :=
  onMach (fun m => m.saveTeam team) s

/-! ### The end of a context (R254; 13 R218; 15 R233) -/

/-- The teams of a context. -/
def Mach.teamsOf (m : Mach) (ctx : Nat) : List Nat := (m.teams.filter fun t => t.ctx == ctx).map fun t => t.uid

/-- The versions of a context's teams end: unpublished bytes are discarded, die-published ones go home. -/
def Mach.endVersions (m : Mach) (ctx : Nat) : Mach :=
  let us := m.teamsOf ctx
  ({ m with versions := m.versions.filter fun b => b.diePub || !us.contains b.ref.team } : Mach).commitTeams us

/-- Everything of a context's teams and launches goes: they retire without running further, and merge areas return to idle. -/
def Mach.wipe (m : Mach) (ctx : Nat) : Mach :=
  let us := m.teamsOf ctx
  let mine (u : Nat) : Bool := us.contains u
  let m := us.foldl (fun m u => m.dropFold u) m
  let m := (m.teams.filter fun t => t.shepherd && mine t.uid).foldl (fun m t => m.failBatches (dieOf t.core)) m
  let ls := (m.launches.filter fun l => l.ctx == ctx).map fun l => l.uid
  let m := { m with
    threads := m.threads.filter fun t => !mine t.ref.team
    groups := m.groups.filter fun g => !mine g.team
    teams := m.teams.filter fun t => !mine t.uid
    cmds := m.cmds.filter fun c => !mine c.team
    tileq := m.tileq.filter fun q => !mine q.team
    batches := m.batches.filter fun b => b.ctx != ctx
    walks := m.walks.filter fun w => w.ctx != ctx
    areas := m.areas.filter fun a => a.ctx != ctx }
  ls.foldl (fun m u => m.dropLaunch u) m

/-- A context killed by a fault of a team's spill or fill (R254): stamps of the grids in progress, then a record of kind 10 with the team's
place. -/
def Mach.saveFault (m : Mach) (t : Team) : Mach :=
  let going := m.launches.filter fun l => l.ctx == t.ctx && decide (0 < l.next)
  let m := going.foldl (fun m l => m.completionStamp l 2) ((m.endVersions t.ctx).wipe t.ctx)
  (m.writeRecord t.ctx {
    addr := 0, inst := 0, taskid := t.taskid, mask := 0, exc := 0, cause := 0, kind := 10, core := t.core, tslot := t.slot
    group := 0 }).finishUnloads

/-- Wakes recorded for a context's lanes are discarded and counted in their slices (09 R167). -/
def Mach.discardWakes (m : Mach) (ctx : Nat) : Mach :=
  m.threads.foldl (fun m t =>
    match t.wait with
    | .waita w =>
      match w.watch with
      | .line p _ =>
        let slice := m.homeSlice p
        if w.woken.isSome && (match m.team? t.ref.team with | some x => x.ctx == ctx | none => false) then
          { m with discarded := setAssoc slice (getAssoc 0 slice m.discarded + 1) m.discarded } else m
      | _ => m
    | _ => m) m

/-- A context is torn down (R233): wakes that its own last writes record are discarded too (09 R167), and objects whose last launches it
discards are unmapped (20 R284). -/
def Mach.teardown (m : Mach) (ctx : Nat) : Mach :=
  let m := (((m.endVersions ctx).discardWakes ctx).wipe ctx).finishUnloads
  { m with
    ctxs := m.ctxs.filter fun c => c.desc.ctxno != ctx
    objects := m.objects.filter fun o => o.ctx != ctx
    tlb := m.tlb.filter fun e => e.ctx != ctx
    walkCache := m.walkCache.filter fun w => w.ctx != ctx }

/-- CONTEXT_TEARDOWN (R233). -/
def execContextTeardown (ctx : Nat) (s : State) : Host.Outcome State Fault Refusal :=
  onMach (fun m => m.teardown ctx) s

/-! ### Restore (R251, R253) -/

/-- Whether a saved team's core can take it back: its carve, bytes and tiles, and its groups' own slots, which are free again once the
groups that took them have retired (02 R22). -/
def Mach.canRestore (m : Mach) (t : Team) : Bool :=
  let gs := m.groups.filter fun g => g.team == t.uid && !g.retired
  let ts := m.teamsAt t.core
  t.status == .saved && !t.brk && m.placeable (dieOf t.core) && m.runs t.ctx
    && (ts.all fun x => x.ctx == t.ctx && x.regs == t.regs && x.scr == t.scr)
    && decide (4096 * t.regs + (ts.length + 1) * shareBytes t.scr ≤ 3145728)
    && decide ((ts.map (·.tiles)).sum + t.tiles ≤ 32)
    && (t.shepherd || (m.coresFor (dieOf t.core) t.launch).contains t.core)
    && gs.all fun g => !(m.slotsUsed t.core g.sub).contains g.slot

/-- A waiting lane at restore (09 R167): a recorded wake gives true; a deadline that has passed false; a scratchpad watch is
evaluated again. -/
def Mach.restoreWait (m : Mach) (t : Thread) : Mach :=
  match t.wait with
  | .waita w =>
    match w.woken with
    | some b => m.endWatch t.ref w b
    | none =>
    if !w.inTime m.clk then m.wakeWith t.ref w.k false
    else match w.watch with
      | .scratch .. => m.watch t.ref w
      | .line .. => m
  | .hrdw u o g _ =>
    if g == genWoken || m.genAt u o != g then m.updThread t.ref fun x => { x with wait := .ready } else m
  | _ => m

/-- What a restored team meets before its first chain: a context lost in the byre (05 R104), or an imprecise fault that was
pending at its save. -/
def Mach.restoreFaults (m : Mach) (t : Team) : Mach :=
  if t.lost then m.teamFault t.uid {
    addr := 0, inst := 0, taskid := t.taskid, mask := 0, exc := 0, cause := 0x30, kind := 11, core := t.core, tslot := t.slot
    group := 0 }
  else (m.detectAll t.uid).report t.uid

/-- Restore a saved team to the core it left. -/
def Mach.restoreTeam (m : Mach) (t : Team) : Mach :=
  let m := m.updTeam t.uid fun x => { x with status := .running }
  let m := (m.threads.filter fun x => x.ref.team == t.uid).foldl (fun m x => m.restoreWait x) m
  let m := (m.batches.filter fun b => b.team == t.uid).foldl (fun m b =>
    if b.failed then m.abandonBatch b else m.deliverBatch b.id) m
  m.restoreFaults t

/-- TEAM_RESTORE (R253): `fillFault` says that the firmware's spill or fill of the team faulted (R254). A team that comes back in IDLE
returns the module to RUN (20 R289). -/
def execTeamRestore (team : Nat) (fillFault : Bool) (s : State) : Host.Outcome State Fault Refusal :=
  match s.m.team? team with
  | none => .next s
  | some t =>
    if t.status != .saved then .next s
    else if fillFault then .next { s with m := s.m.saveFault t }
    else if s.m.canRestore t then .next { s with
      m := s.m.restoreTeam t
      sys := { s.sys with power := if s.sys.power == .idle then .run else s.sys.power } }
    else .next s

end Sys2Proof.Machine
end

