-- ==== Sys2Proof/Machine/Agents.lean ====
section
/-! DEFINITION. Errors of arrays and peers (05 R104-R106; 19 R274, R276) and the accesses of agents outside the cores (19 R265,
R266, R271, R273; 01 R14). -/

namespace Sys2Proof.Machine

/-! ### Error counters (05 R106) -/

/-- The two counters of an array: corrected and uncorrectable errors. -/
def countersOf (p : Place) : List (Place × Nat × Nat) → Nat × Nat
  | [] => (0, 0)
  | (q, c) :: rest => if q == p then c else countersOf p rest

/-- Write an array's counters, saturating; zero counters are not listed. -/
def Mach.setCounters (m : Mach) (p : Place) (c u : Nat) : Mach :=
  let rest := m.errors.filter fun e => e.1 != p
  { m with errors := if c == 0 && u == 0 then rest else (p, min c 0xFFFFFFFF, min u 0xFFFFFFFF) :: rest }

def Mach.countCorrected (m : Mach) (p : Place) : Mach :=
  let n := countersOf p m.errors
  m.setCounters p (n.1 + 1) n.2

def Mach.countUncorrectable (m : Mach) (p : Place) : Mach :=
  let n := countersOf p m.errors
  m.setCounters p n.1 (n.2 + 1)

/-- ERROR_COUNTER_CLEAR (R106). -/
def execErrorCounterClear (at_ : Place) (s : State) : Host.Outcome State Fault Refusal :=
  onMach (fun m => m.setCounters at_ 0 0) s

/-! ### Errors (R104, R105) -/

/-- Poison a line (R105): no copy outside the home, no owner, no sharers. The spec does not say where the poison of a line of the fold
window stands, whose home is a scratchpad without line metadata: the model marks it under the line's key (log 58, DESIGN CHOICE). -/
def Mach.poison (m : Mach) (line : Nat) : Mach :=
  let m := m.dropOwned fun b => !b.diePub && lineOf b.pa == line
  { m with
    l1 := m.l1.filter fun c => c.line != line
    partials := m.partials.filter fun p => p.line != line
    linemeta := setAssoc line (mkMeta 7 0 0 0) m.linemeta }

/-- The unpublished bytes that a dirty line of an L1, or of the ways of a slice, held. -/
def lostBytes (p : Place) (line : Nat) (b : VByte) : Bool :=
  lineOf b.pa == line && (match p with
    | .l1 core => b.core == core && !b.diePub && !b.l2
    | .slice n => (b.diePub || b.l2) && b.die == n / 32 && sliceOf line == n % 32
    | _ => false)

/-- Drop a core's copy of a line that lies clean in its L1. -/
def Mach.refetch (m : Mach) (p : Place) (pa : Nat) : Mach :=
  match p with
  | .l1 core => m.dropClean core (lineOf pa)
  | _ => m

/-- An uncorrectable error is counted in its array; one in the chiplet's caches goes, with its address, to the operating system as a
machine check (19 R276); a pool device has no counter here (R106). -/
def Mach.noteError (m : Mach) (p : Place) (line : Nat) : Mach :=
  match p with
  | .chiplet => { m with machineChecks := m.machineChecks ++ [line] }
  | .pool _ => m
  | _ => m.countUncorrectable p

/-- What an uncorrectable error does (R104, 16 R244): a helper's register causes no fault (02 R385), and a pool line that its device
reports as poisoned stands poisoned, so that reads of it give 0x30 (19 R272). -/
def Mach.arrayError (m : Mach) (p : Place) (w : Struck) : Mach :=
  match w with
  | .register t _ =>
    let m := m.countUncorrectable p
    match m.thread? t with
    | some x => if x.helper then m else
        m.meet t.team { cause := 0x30, addr := 0, thread := if x.wait == Wait.exited then none else some t }
    | none => m.meet t.team { cause := 0x30, addr := 0, thread := none }
  | .team u => (m.countUncorrectable p).meet u { cause := 0x30, addr := 0, thread := none }
  | .cleanLine pa => (m.countCorrected p).refetch p pa
  | .dirtyLine pa =>
    let line := lineOf pa
    let m := m.noteError p line
    ({ m with versions := m.versions.filter fun b => !lostBytes p line b }).poison line
  | .saved u => (m.countUncorrectable p).updTeam u fun t => { t with lost := true }

/-- UNCORRECTABLE_ERROR (R104). -/
def execUncorrectableError (at_ : Place) (what : Struck) (s : State) : Host.Outcome State Fault Refusal :=
  onMach (fun m => m.arrayError at_ what) s

/-- CORRECTABLE_ERROR (R104): counted; a clean line with a parity error is refetched. -/
def execCorrectableError (at_ : Place) (line : Option Nat) (s : State) : Host.Outcome State Fault Refusal :=
  onMach (fun m => match line with
    | some pa => (m.countCorrected at_).refetch at_ pa
    | none => m.countCorrected at_) s

/-! ### An unreachable peer (19 R274) -/

/-- The generic address of an operation that carries its place, when that lies on the peer. -/
def Op.there (o : Op) (peer : Nat) : Option Nat := match o.place with
  | some (pa, va) => if onPeer peer pa then some va else none
  | none => none

/-- The generic address of a thread's operation on the peer, if it is one. -/
def Mach.peerOp (m : Mach) (peer : Nat) (o : Op) : Option Nat :=
  match o.kind with
  | .load r => if onPeer peer r.pa then some r.va else none
  | .launch true at_ va _ _ => if onPeer peer at_ then some va else none
  | .store va => if m.versions.any fun b => b.op == o.id && onPeer peer b.pa then some va else o.there peer
  | .value _ | .atomic _ => o.there peer
  | _ => none

/-- An operation on the peer completes with cause 0x30, but for a helper's, whose fault is discarded (02 R37). -/
def Mach.failOp (m : Mach) (t : TRef) (o : Op) (va : Nat) : Mach :=
  let m := m.meetPoison t va
  match o.kind with
  | .load _ => m.deliver t o (o.dst.zeros o.dst.tag)
  | .value rs => m.deliver t o rs
  | .atomic r => if r.ret then let (m, rs) := m.freeRegs r.tag; m.deliver t o rs else m.dropOp t o.id
  | .launch g at_ va nc got => m.updOp t o.id fun p => { p with kind := .launch g at_ va nc (got ++ List.replicate (128 - got.length) 0) }
  | _ =>
    let core := match m.team? t.team with | some tm => tm.core | none => 0
    (m.arriveOp core o.id).dropOp t o.id

/-- A TLD or TST that is queued and has lines on the peer meets cause 0x30 there; the rest of it goes on. -/
def Mach.failTile (m : Mach) (peer : Nat) (q : TileOp) : Mach :=
  match q.instr, (linesOf q.pas).find? fun p => onPeer peer p.1 with
  | .tld .., some p | .tst .., some p => { m.tilePoison q p.2.1 with tileq := m.tileq.map fun (x : TileOp) =>
      if x.order == q.order then { x with cutOff := peer :: x.cutOff } else x }
  | _, _ => m

/-- Whether a release of Module or Domain class has something outstanding at the peer: bytes still to be placed there, or, of Domain class,
an acknowledgement, for a line of the peer, or for one that peers may hold copies of; the spec keeps no record of which peers do, so there,
once all is placed, a free choice says (log 7). -/
def Mach.awaitsPeer (m : Mach) (peer team : Nat) (r : Release) : Mach × Bool :=
  let ls := m.releasing team r
  let bs := m.toPlace team ls r
  if r.cls < 2 || ls.any fun t => !t.storesDone r.upto then (m, false)
  else if (bs.any fun b => onPeer peer b.pa) || (r.cls == 3 && r.lines.any fun l => onPeer peer l) then (m, true)
  else if r.cls == 3 && bs.isEmpty && m.linemeta.any fun p => p.2.getLsbD 0 then let (k, m) := m.choose 2; (m, k == 0)
  else (m, false)

/-- What a release has outstanding at the peer ends with the imprecise fault 0x30, but for helper lanes alone: its bytes there are lost,
and a Domain-class release with nothing left to place completes, its rounds counted (07 R139); any other goes on with the rest. -/
def Mach.failRelease (m : Mach) (peer : Nat) (t : Thread) : Mach :=
  match (m.thread? t.ref).bind Thread.release with
  | none => m
  | some r =>
    match m.awaitsPeer peer t.ref.team r with
    | (m, false) => m
    | (m, true) =>
      let ls := m.releasing t.ref.team r
      let bs := m.toPlace t.ref.team ls r
      let lost := bs.filter fun b => onPeer peer b.pa
      let m := { m with versions := m.versions.filter fun x => !m.leaves lost x }
      let m :=
        if r.cls == 3 && lost.length == bs.length then (if r.counted then m else m.countRounds r.regions).clearRsh.setRelease ls none
        else m.setRelease ls (some { r with lines := r.lines.filter fun l => !onPeer peer l })
      match ls.find? fun x => !x.helper with
      | some x => m.meet t.ref.team { cause := 0x30, addr := 0, thread := some x.ref }
      | none => m

/-- The first address at which a command meets a peer (11 R196): that of its lowest-named piece on the way there, else where it next reads
or writes a page that lies there, else DST. -/
def Cmd.peerAddr (c : Cmd) (peer : Nat) : Nat :=
  let sent := c.pieces.filterMap fun p => match p.dst with | .pa a => if onPeer peer a then p.va else none | _ => none
  let there := c.pages.filter fun p => onPeer peer (ptePa p.2.bits)
  let met := c.left.findSome? fun r => there.findSome? fun p =>
    let lo := ((r.base % 2 ^ 57 : Nat) : Int) + r.lo
    if decide (r.base / 2 ^ 56 ≤ 1) && decide (r.lo ≤ r.hi) && decide (lo < p.1 + p.2.size)
        && decide ((p.1 : Int) ≤ (r.base % 2 ^ 57 : Nat) + r.hi) then some (max lo p.1).toNat else none
  (sent.head?.or met).getD c.dst

/-- Outstanding accesses to a peer end: operations and releases with cause 0x30, drover commands with POISON. -/
def Mach.peerGone (m : Mach) (peer : Nat) : Mach :=
  let m := m.threads.foldl (fun m t => t.ops.foldl (fun m o => match m.peerOp peer o with
    | some va => m.failOp t.ref o va
    | none => m) m) m
  let m := m.tileq.foldl (fun m q => m.failTile peer q) m
  let m := m.threads.foldl (fun m t => m.failRelease peer t) m
  { m with cmds := m.cmds.map fun (c : Cmd) =>
      let there (p : Piece) : Bool := match p.dst with | .pa a => onPeer peer a | _ => false
      if c.pieces.any there || (!c.done && c.pages.any fun p => onPeer peer (ptePa p.2.bits) && c.uses p.1 p.2.size) then
        { c with
          done := true, status := 0x0007, parked := none, pieces := c.pieces.filter fun p => !there p
          badAddr := BitVec.ofNat 64 (c.peerAddr peer) }
      else c }

/-- PEER_UNREACHABLE (R274). -/
def execPeerUnreachable (peer : Nat) (s : State) : Host.Outcome State Fault Refusal :=
  onMach (fun m => m.peerGone peer) s

/-! ### Accesses of agents -/

end Sys2Proof.Machine

namespace Sys2Proof

/-- The first address and the length of an agent's access. -/
def AgentAccess.span : AgentAccess → Nat × Nat
  | .read pa n => (pa, n)
  | .write pa bs => (pa, bs.length)
  | .atomic pa _ t _ | .own pa _ t _ | .part _ pa _ t _ => (pa, t.width / 8)
  | .payload pa bs => (pa, bs.length)
  | .row dst _ => (dst, 8192)

end Sys2Proof

namespace Sys2Proof.Machine

/-- Bytes in one stack (20 R296; log 13). -/
def stackBytes : Nat := 96 * 2 ^ 30

/-- Whether bytes lie in local HBM. -/
def Mach.inHbm (m : Mach) (pa n : Nat) : Bool := m.stackBase.any fun b => decide (b ≤ pa) && decide (pa + n ≤ b + stackBytes)

/-- Whether bytes lie in the local CXL pool: behind a port in the CXL personality (R272, R273). -/
def Mach.inPool (m : Mach) (pa n : Nat) : Bool := (List.range 4).any fun p => match m.ports.getD p .off with
  | .cxl b => decide (poolBase p ≤ pa) && decide (pa + n ≤ poolBase p + poolBytes b)
  | _ => false

/-- Whether bytes lie in the HBM of another module (R273), which the Droveway reaches unless it is off (20 R294). -/
def Mach.inPeer (m : Mach) (pa n : Nat) : Bool :=
  m.droveway && spaceOf pa == 2 && pa / 2 ^ 46 % 256 != m.module && decide (pa + n ≤ (pa / 2 ^ 46 + 1) * 2 ^ 46)

/-- An atomic at the coherence point (09 R159): nothing when the line is poisoned or the tag is not one the function takes. -/
def Mach.agentAtomic (m : Mach) (pa : Nat) (f : AmoOp) (t : Tag) (v : Nat) : Mach :=
  let n := tagBytes t
  match m.cohRead pa n with
  | (m, some bs) => if amoAccepts f t && pa % n == 0 then m.cohWrite1 pa (leBytes (amoApply f t (leNat bs) v) n) else m
  | (m, none) => m

/-- The lines of a range. -/
def linesIn (pa n : Nat) : List Nat := (List.range ((pa + n - 1) / 128 + 1 - pa / 128)).map fun i => lineOf pa + 128 * i

/-- Mark a line that an agent has read: SHARERS bit 0 for the chiplet, RSH for a peer (R265, 07 R137). -/
def Mach.noteReader (m : Mach) (sharers rsh line : Nat) : Mach :=
  let m := m.cohPrep line
  let v := m.meta line
  if stateOf v ≤ 1 then m.setMeta line (mkMeta 1 0 (sharersOf v ||| sharers) (max (v.toNat % 2) rsh)) else m

/-- Write a part of one line in the copy of an agent outside the cores, which takes the line (07 R137, R138); a poisoned line is not
granted, and the write goes home (05 R105). -/
def Mach.agentWrite (m : Mach) (agent pa : Nat) (bs : List Byte) : Mach :=
  let line := lineOf pa
  let put (m : Mach) : Mach := m.copyBytes agent line ((List.range bs.length).map fun i => (pa + i, bs.getD i 0))
  if m.ownerOf? line == some agent then put m
  else
    let m := m.cohPrep line
    if m.poisoned line then m.cohWrite1 pa bs else put (m.takeOwnership agent line 4)

/-- An atomic in the copy of an agent outside the cores (R265): nothing on a poisoned line. -/
def Mach.agentUpdate (m : Mach) (agent pa : Nat) (f : AmoOp) (t : Tag) (v : Nat) : Mach :=
  let n := tagBytes t
  let line := lineOf pa
  let m := m.agentWrite agent line []
  if m.poisoned line || !amoAccepts f t || pa % n != 0 then m
  else
    let old := match m.l1? agent line with | some c => leNat ((c.data.drop (pa - line)).take n) | none => 0
    m.agentWrite agent pa (leBytes (amoApply f t old v) n)

/-- CHIPLET_ACCESS (R265, R266, R276): a coherence agent's read, store or A-extension atomic; stores and atomics take the line and
stand in the chiplet's caches until it is recalled (log 40). The chiplet has no drover: a payload is a store, and a row unit none of its
accesses. -/
def execChipletAccess (acc : AgentAccess) (s : State) : Host.Outcome State Fault Refusal :=
  let (pa, n) := acc.span
  if !(s.m.inHbm pa n || s.m.inPool pa n || s.m.inPeer pa n) then .fault .noSuchMemory
  else onMach (fun m => match acc with
    | .read pa n => (linesIn pa n).foldl (fun m l => if m.ownerOf? l == some 0x8C then m else m.noteReader 1 0 l) m
    | .write pa bs | .payload pa bs => (cutLines (bs.length / 128 + 2) pa bs).foldl (fun m p => m.agentWrite 0x8C p.1 p.2) m
    | .row .. => m
    | .atomic pa f t v | .own pa f t v | .part _ pa f t v => m.agentUpdate 0x8C pa f t v.toNat) s

/-- Bytes of BAR0 (R271). -/
def bar0Bytes : Nat := 2 ^ 32

/-- HOST_BAR_ACCESS (R271): the pinned region behind BAR0, at the coherence point. A BAR carries reads and writes, so an atomic
changes nothing (log 41); nor does a row unit, and a payload is a write. -/
def execHostBarAccess (port : Nat) (acc : AgentAccess) (s : State) : Host.Outcome State Fault Refusal :=
  let (pa, n) := acc.span
  if s.m.ports.getD port .off != .pcie || pa < s.m.mailBase || s.m.mailBase + bar0Bytes < pa + n then .fault .noSuchMemory
  else onMach (fun m => match acc with
    | .read pa n => (linesIn pa n).foldl (fun m l => m.cohPrep l) m
    | .write pa bs | .payload pa bs => m.cohWrite pa bs
    | .atomic .. | .own .. | .part .. | .row .. => m) s

/-- A peer's update of a line that holds partials (09 R162): it waits at the home, to be combined after the module's own, by domain
number; like APST's it enters a partial only with a function that has an identity. -/
def Mach.peerPartial (m : Mach) (peer pa : Nat) (f : AmoOp) (t : Tag) (v : BitVec 64) : Mach :=
  let line := lineOf pa
  let m := m.recall line
  if m.poisoned line || !amoAccepts f t || pa % tagBytes t != 0 then m
  else if !entersPartial f then m.agentAtomic pa f t v.toNat
  else
    let md := m.meta line
    ({ m with partials := m.partials ++ [{
        core := 0, line := line, elems := (partialApply (pa - line) f t v.toNat []).getD [], home := true, module := some peer }] } : Mach).setMeta
      line (mkMeta 5 0 (sharersOf md) (md.toNat % 2))

/-- A peer's row command on one unit of this module's HBM (11 R191, R192): its rows are aligned and lie in one stack. -/
def Mach.peerRow (m : Mach) (dst : Nat) (src : Option Nat) : Mach :=
  let ok (pa : Nat) : Bool := pa % 8192 == 0 && m.inHbm pa 8192 && m.stackOf pa == m.stackOf dst
  if ok dst && src.all ok && src != some dst then (m.rowUnit src dst id).1 else m

/-- DROVEWAY_REQUEST (01 R14; R273): a peer reaches this module's HBM, never its pool. Its drover's payload clears a whole line's poison
(05 R105), and its row command runs in the stack (11 R191, R192), up to a poisoned line of its source; both rows lie in one stack. In
minimal mode the Droveway is off (20 R294). -/
def execDrovewayRequest (acc : AgentAccess) (s : State) : Host.Outcome State Fault Refusal :=
  let (pa, n) := acc.span
  if s.sys.boot.minimal then .next s
  else if !s.m.inHbm pa n then .fault .noSuchMemory
  else onMach (fun m => match acc with
    | .read pa n => (linesIn pa n).foldl (fun m l => if m.ownerOf? l == some 0xFF then m else m.noteReader 0 1 l) m
    | .write pa bs => m.cohWrite pa bs
    | .atomic pa f t v => m.agentAtomic pa f t v.toNat
    | .own pa f t v => m.agentUpdate 0xFF pa f t v.toNat
    | .payload pa bs => m.landAt (.pa pa) bs
    | .row dst src => m.peerRow dst src
    | .part k pa f t v => m.peerPartial k pa f t v) s

end Sys2Proof.Machine
end

