-- ==== Sys2Proof/Machine/Exchange.lean ====
section
/-! DEFINITION. Exchanges, votes and reductions across the lanes of a bundle (22 R329, R330; 23 R354; 24 R371, R372). -/

namespace Sys2Proof.Machine

/-- The exchange mould (R354): take A of lane `src` of the bundle, or one's own when that lane stands elsewhere. -/
def exchange (d a : Reg) (src : Nat) (bundle : List Thread) (t : Thread) : LaneOut :=
  let from_ := laneIn bundle t src
  let g := from_.tagAt a.toNat
  let k := g.regs
  if g == .raw || !from_.formed a.toNat then .mismatch t.ref (.regs d.toNat g 1)
  else if d.toNat % k != 0 || a.toNat % k != 0 || decide (t.regs.length < d.toNat + k) then .illegal
  else .ok (writes t.ref d.toNat (from_.block a.toNat k))

/-- QSWP (R354): lane XOR X. -/
def qswpSem (d a : Reg) (x : BitVec 2) : WordSem :=
  laneWord (.qswp d a x) fun _ bundle t => exchange d a (t.lane ^^^ x.toNat) bundle t

def execQswp (d a : Reg) (x : BitVec 2) (s : State) : Host.Outcome State Fault Refusal :=
  runWord (qswpSem d a x) s

/-- QBRD (R354): quad lane i. -/
def qbrdSem (d a : Reg) (i : BitVec 2) : WordSem :=
  laneWord (.qbrd d a i) fun _ bundle t => exchange d a (t.lane / 4 * 4 + i.toNat) bundle t

def execQbrd (d a : Reg) (i : BitVec 2) (s : State) : Host.Outcome State Fault Refusal :=
  runWord (qbrdSem d a i) s

/-- SHFL (R354): lane B mod 32. -/
def shflSem (d a b : Reg) : WordSem :=
  laneWord (.shfl d a b) fun _ bundle t =>
    match t.i32At b with
    | none => .mismatch t.ref (.regs d.toNat (t.tagAt a.toNat) 1)
    | some v => exchange d a (v % 32) bundle t

def execShfl (d a b : Reg) (s : State) : Host.Outcome State Fault Refusal :=
  runWord (shflSem d a b) s

/-- The lanes that vote (R372): helpers contribute nothing. -/
def voters (bundle : List Thread) : List Thread := bundle.filter fun t => !t.helper

/-- The mask of the voting lanes whose predicate is true. -/
def voteMask (bundle : List Thread) (k : KIx) : Word := laneSet ((voters bundle).filter fun t => t.pred k)

/-- VOTE (R371, R372). -/
def voteSem (dst : VoteDst) (k : KIx) : WordSem :=
  laneWord (.vote dst k) fun _ bundle t =>
    let m := voteMask bundle k
    let all := laneSet (voters bundle)
    match dst with
    | .all d => .predicate t.ref d (m == all)
    | .any d => .predicate t.ref d (m != 0)
    | .uni d => .predicate t.ref d (m == 0 || m == all)
    | .bal d => .value t.ref d.toNat .i32 m.toNat

def execVote (dst : VoteDst) (k : KIx) (s : State) : Host.Outcome State Fault Refusal :=
  runWord (voteSem dst k) s

/-- GRED's checks in one lane (R330): the tag is that of the lowest lane. -/
def gredCause (d a : Reg) (o : RedOp) (g : Tag) (t : Thread) : Option Nat :=
  if t.tagAt a.toNat != g || !amoAccepts o.amo g || !t.formed a.toNat then some 2
  else if g.regs == 2 && (d.toNat % 2 != 0 || a.toNat % 2 != 0) then some 1
  else none

/-- The reduction over the lanes that did not trap and are no helpers, in ascending lane order. -/
def gredValue (d a : Reg) (o : RedOp) (g : Tag) (bundle : List Thread) : Nat :=
  match (voters bundle).filter fun t => (gredCause d a o g t).isNone with
  | [] => identity o.amo g
  | t :: ts => ts.foldl (fun acc x => amoApply o.amo g acc (x.valAt a.toNat)) (t.valAt a.toNat)

/-- GRED (R329, R330). -/
def gredSem (d a : Reg) (o : RedOp) : WordSem :=
  laneWord (.gred d a o) fun _ bundle t =>
    let g := match bundle with | x :: _ => x.tagAt a.toNat | [] => t.tagAt a.toNat
    match gredCause d a o g t with
    | some c => .ofCause c t.ref (.regs d.toNat (t.tagAt a.toNat) 1)
    | none => .value t.ref d.toNat g (gredValue d a o g bundle)

def execGred (d a : Reg) (o : RedOp) (s : State) : Host.Outcome State Fault Refusal :=
  runWord (gredSem d a o) s

end Sys2Proof.Machine
end

