-- ==== Sys2Proof/Machine/Moves.lean ====
section
/-! DEFINITION. Moves between registers, immediates, PACK and UNPK, and the system registers (03 R51-R57; 22 R331; 23
R343-R348, R356, R361, R362; 24 R367, R370). -/

namespace Sys2Proof.Machine

/-- MOV (R343): registers with their tags as they stand. -/
def movSem (d a : Reg) (sz : MovSize) : WordSem :=
  laneWord (.mov d a sz) fun _ _ t => .ok (writes t.ref d.toNat (t.block a.toNat sz.regs))

def execMov (d a : Reg) (sz : MovSize) (s : State) : Host.Outcome State Fault Refusal :=
  runWord (movSem d a sz) s

/-- MOVH (R344): the upper half, the tag kept. -/
def movhSem (d : Reg) (i : BitVec 16) : WordSem :=
  laneWord (.movh d i) fun _ _ t =>
    let v := t.reg d.toNat
    if v.tag == .raw || v.tag == .b128 then .mismatch t.ref (.regs d.toNat .raw 1)
    else .ok (writes t.ref d.toNat [{ bits := i ++ v.bits.setWidth 16, tag := v.tag }])

def execMovh (d : Reg) (i : BitVec 16) (s : State) : Host.Outcome State Fault Refusal :=
  runWord (movhSem d i) s

/-- MOVI's value (04 R84): IMM18 sign-extended, or under bits 31:18 of the extension. -/
def moviValue (i : BitVec 18) (ext : Option (BitVec 14)) : Word :=
  match ext with
  | none => i.signExtend 32
  | some x => x ++ i

/-- MOVI (R345). -/
def moviSem (d : Reg) (i : BitVec 18) (ext : Option (BitVec 14)) : WordSem :=
  laneWord (.movi d i ext) fun _ _ t => .ok (writes t.ref d.toNat [{ bits := moviValue i ext, tag := .i32 }])

def execMovi (d : Reg) (i : BitVec 18) (ext : Option (BitVec 14)) (s : State) : Host.Outcome State Fault Refusal :=
  runWord (moviSem d i ext) s

/-- RTAG (R356): the bits with a new tag; nothing is checked. -/
def rtagSem (d a : Reg) (g : Tag) : WordSem :=
  laneWord (.rtag d a g) fun _ _ t =>
    .ok (writes t.ref d.toNat ((t.block a.toNat g.regs).map fun v => { bits := v.bits, tag := g }))

def execRtag (d a : Reg) (g : Tag) (s : State) : Host.Outcome State Fault Refusal :=
  runWord (rtagSem d a g) s

/-- NOP (R346). -/
def nopSem : WordSem := laneWord .nop fun _ _ _ => .ok id

def execNop (s : State) : Host.Outcome State Fault Refusal :=
  runWord nopSem s

/-- PACK (R348): the source tag selects the result. -/
def packSem (d a b : Reg) : WordSem :=
  laneWord (.pack d a b) fun _ _ t =>
    let g := t.tagAt a.toNat
    let x := t.reg a.toNat
    let y := t.reg b.toNat
    let halves : Bool := match g with
      | .bf16x2 | .f16x2 | .e4m3x4 | .e5m2x4 | .i8x4 | .kn4x8 => true
      | _ => false
    let dst (tag : Tag) : Dst := .regs d.toNat tag 1
    if !(halves || g == .f32 || g == .i32) then .mismatch t.ref (dst g)
    else if halves then
      if y.tag != g then .mismatch t.ref (dst g)
      else .ok (writes t.ref d.toNat [{ bits := y.bits.setWidth 16 ++ x.bits.setWidth 16, tag := g }])
    else
      let tag : Tag := if g == .f32 then .f32x2 else .i64
      if y.tag != g then .mismatch t.ref (dst tag)
      else if d.toNat % 2 != 0 then .illegal
      else .ok (writes t.ref d.toNat [{ bits := x.bits, tag := tag }, { bits := y.bits, tag := tag }])

def execPack (d a b : Reg) (s : State) : Host.Outcome State Fault Refusal :=
  runWord (packSem d a b) s

/-- UNPK (R370). -/
def unpkSem (d a : Reg) : WordSem :=
  laneWord (.unpk d a) fun _ _ t =>
    let g := t.tagAt a.toNat
    let half := (halfTag g).getD .raw
    match mould (fun g => (halfTag g).isSome) true [a.toNat] [a.toNat] t with
    | .error c => .ofCause c t.ref (.regs d.toNat half 2)
    | .ok _ =>
      let x := (t.reg a.toNat).bits
      let lo : Word := if g.regs == 2 then x else (x.setWidth 16).setWidth 32
      let hi : Word := if g.regs == 2 then (t.reg (a.toNat + 1)).bits else x >>> 16
      .ok (writes t.ref d.toNat [{ bits := lo, tag := half }, { bits := hi, tag := half }])

def execUnpk (d a : Reg) (s : State) : Host.Outcome State Fault Refusal :=
  runWord (unpkSem d a) s

/-! ### System registers -/

/-- The domain time in nanoseconds (R367): from its base at 7/4 cycles to the nanosecond. -/
def Mach.time (m : Mach) : DWord := BitVec.ofNat 64 (m.timeBase + m.clk * 4 / 7)

/-- The value of a system register as registers (R52). -/
def sysValue (m : Mach) (tm : Team) (t : Thread) (n : SysReg) : List RV :=
  let w (v : Word) : List RV := valRegs .i32 v.toNat
  let q (v : DWord) : List RV := valRegs .i64 v.toNat
  match n with
  | .lane => w (BitVec.ofNat 32 t.lane)
  | .group => w (BitVec.ofNat 32 t.group)
  | .team => w (BitVec.ofNat 32 (tm.fold * tm.foldTeams + tm.index))
  | .fold => w (BitVec.ofNat 32 tm.fold)
  | .tidx => w (BitVec.ofNat 32 t.ref.tidx)
  | .argp => q tm.argp
  | .clk => q (BitVec.ofNat 64 m.clk)
  | .fltCause => w t.fltCause
  | .fltPc => q t.fltPc
  | .fltMask => w t.fltMask
  | .fltInst => w t.fltInst
  | .fltAddr => q t.fltAddr
  | .fltSub => valRegs t.fltSub.tag t.fltSub.bits.toNat
  | .fltExc => w t.fltExc
  | .utvec => q t.utvec
  | .ften => w t.ften
  | .frm => w t.frm
  | .uctl => w t.uctl
  | .taskid => w tm.taskid
  | .taskst => w (m.taskst tm)

/-- GSR (R331). -/
def gsrSem (d : Reg) (n : SysReg) : WordSem :=
  laneWord (.gsr d n) fun m _ t =>
    match m.team? t.ref.team with
    | none => .illegal
    | some tm =>
      let v := sysValue m tm t n
      if n == .fltSub && d.toNat % v.length != 0 then .illegal else .ok (writes t.ref d.toNat v)

def execGsr (d : Reg) (n : SysReg) (s : State) : Host.Outcome State Fault Refusal :=
  runWord (gsrSem d n) s

/-- Write a 32-bit per-thread register, reserved bits ignored (R51, R362). -/
def Thread.ssr32 (t : Thread) (n : SysReg) (v : Word) : Thread :=
  match n with
  | .fltCause => { t with fltCause := v &&& 0xFF#32 }
  | .fltMask => { t with fltMask := v }
  | .fltInst => { t with fltInst := v }
  | .fltExc => { t with fltExc := v &&& 0xFFFFFFF8#32 }
  | .ften => { t with ften := v &&& 0x1F001F#32 }
  | .frm => { t with frm := v &&& 0x7#32 }
  | .uctl => { t with uctl := v &&& 0x3#32 }
  | _ => t

/-- Write a 64-bit per-thread register; a write of FLT_PC sets Written (16 R243). -/
def Thread.ssr64 (t : Thread) (n : SysReg) (v : DWord) : Thread :=
  match n with
  | .fltPc => { t with fltPc := v, written := true }
  | .fltAddr => { t with fltAddr := v }
  | .utvec => { t with utvec := v }
  | _ => t

/-- SSR (R361, R362, 03 R52, R53). -/
def ssrSem (d : Reg) (n : SysReg) : WordSem :=
  laneWord (.ssr d n) fun _ _ t =>
    if !n.writable then .illegal
    else match n with
    | .fltSub =>
      let g := t.tagAt d.toNat
      if d.toNat % g.regs != 0 then .illegal
      else if !t.formed d.toNat then .mismatch t.ref .none
      else .ok fun m => m.updThread t.ref fun x =>
        { x with fltSub := { bits := BitVec.ofNat 128 (t.valAt d.toNat), tag := g } }
    | .taskid =>
      let v := t.reg d.toNat
      if v.tag == .i32 || v.tag == .raw then .ok fun m => m.updTeam t.ref.team fun x => { x with taskid := v.bits }
      else .mismatch t.ref .none
    | _ =>
      if n.regs == 2 then
        let b := t.block d.toNat 2
        let v := BitVec.ofNat 64 (bitsOf b)
        if b.all (fun r => r.tag == .i64) || b.all (fun r => r.tag == .raw) then
          if n == .utvec && v.toNat % 3 != 0 then .trap 0x20 v 0 sub0 id none
          else .ok fun m => m.updThread t.ref fun x => x.ssr64 n v
        else .mismatch t.ref .none
      else
        let v := t.reg d.toNat
        if v.tag == .i32 || v.tag == .raw then .ok fun m => m.updThread t.ref fun x => x.ssr32 n v.bits
        else .mismatch t.ref .none

def execSsr (d : Reg) (n : SysReg) (s : State) : Host.Outcome State Fault Refusal :=
  runWord (ssrSem d n) s

/-- TIME (R367). -/
def timeSem (d : Reg) : WordSem :=
  laneWord (.time d) fun m _ t => .value t.ref d.toNat .i64 m.time.toNat

def execTime (d : Reg) (s : State) : Host.Outcome State Fault Refusal :=
  runWord (timeSem d) s

end Sys2Proof.Machine
end

