-- ==== Sys2Proof/Machine/Firmware.lean ====
section
/-! DEFINITION. What the firmware and the management interface do: shepherds, context descriptors, keys and attestation, debug,
power, start-up, fuses (19 R267, R270, R274; 20 R285-R296). A call that a rule turns away answers DENIED (R291) and changes
nothing else (log 44). -/

namespace Sys2Proof.Machine

/-- Answers of a request (R291). -/
def ansDone : Nat := 0
def ansBusy : Nat := 1
def ansDenied : Nat := 2

/-- Answer a request that changes nothing. -/
def reply (n : Nat) (s : State) : Host.Outcome State Fault Refusal := .next { s with sys := { s.sys with answer := n } }

/-! ### Shepherds (19 R270) -/

/-- The launch of a die's shepherd: one fold of one team from the kernel's descriptor. -/
def shepherdLaunch (uid die : Nat) (o : Object) (k : Kernel) (arg : DWord) : Launch where
  uid := uid
  ctx := 1
  entry := k.entry
  argp := arg
  folds := 1
  threads := k.threads
  teams := 1
  regs := k.regs
  scr := k.scr
  tiles := 0
  prio := 3
  idem := k.idem
  rstr := k.rstr
  dep0 := none
  dep1 := none
  dep0pa := none
  dep1pa := none
  csa := 0
  csv := 0
  eligible := true
  next := 0
  killed := false
  shepherd := some die
  waitFrom := none
  asked := []
  accepted := uid
  object := o.uid

/-- Entry and argument of the shepherd that a die has: running, saved, or waiting for its place. -/
def Mach.shepherdOf (m : Mach) (die : Nat) : Option (Nat × DWord) :=
  match m.teams.find? fun t => t.shepherd && dieOf t.core == die && (t.status == .running || t.status == .saved) with
  | some t => some (t.entry.toNat, t.argp)
  | none => (m.launches.find? fun l => l.shepherd == some die && decide (l.next < l.folds)).map fun l => (l.entry.toNat, l.argp)

/-- Whether a die has a shepherd. -/
def Mach.hasShepherd (m : Mach) (die : Nat) : Bool := (m.shepherdOf die).isSome

/-- Launch a shepherd on every powered die of some that lacks one. -/
def Mach.launchShepherds (m : Mach) (dies : List Nat) (o : Object) (k : Kernel) (arg : DWord) : Mach :=
  dies.foldl (fun (m : Mach) (d : Nat) =>
    if m.diesOff.contains d || m.hasShepherd d then m
    else
      let (uid, m) := m.fresh
      { m with
        launches := m.launches ++ [shepherdLaunch uid d o k arg]
        lostDies := m.lostDies.filter fun x => x.1 != d }) m

/-- SVCON: nothing while SVCOFF waits for batches, or for a kernel that is not loaded in context 1. -/
def svcon (entry : Nat) (arg : DWord) (s : State) : Host.Outcome State Fault Refusal :=
  match s.m.kernelAt 1 entry with
  | none => reply ansDenied s
  | some (o, k) =>
    if s.m.svcoff then reply ansBusy s
    else .next { s with
      m := s.m.launchShepherds [0, 1, 2, 3] o k arg
      sys := { s.sys with shepherd := some (entry, arg), answer := ansDone } }

def execSvcon (entry : Nat) (arg : DWord) (s : State) : Host.Outcome State Fault Refusal := call (svcon entry arg) s

/-- SVCOFF: no new batch is sent; when every batch in flight has been served the shepherds end, and the call returns (R270): at once
when there is none, else the SERVICE_RESULT that serves the last clears `svcoff`, and the call, made again, then answers DONE. -/
def svcoff (s : State) : Host.Outcome State Fault Refusal :=
  let m := { s.m with
    services := false
    svcoff := true
    lostDies := []
    launches := s.m.launches.filter fun l => !(l.shepherd.isSome && decide (l.next < l.folds)) }
  let m := m.endShepherds
  .next { s with m := m, sys := { s.sys with shepherd := none, answer := if m.svcoff then ansBusy else ansDone } }

def execSvcoff (s : State) : Host.Outcome State Fault Refusal := call svcoff s

/-- Return to RUN: every die is on again but those that minimal mode leaves off (20 R294); while services are enabled, the shepherds
that dies lost to DIE-OFF start again, each as it was (R270). -/
def State.wake (s : State) : State :=
  let minimal := s.sys.boot.minimal
  let m := { s.m with diesOff := if minimal then [1, 2, 3] else [] }
  let m := if m.services then m.lostDies.foldl (fun (m : Mach) p => match m.kernelAt 1 p.2.1 with
    | some (o, k) => m.launchShepherds [p.1] o k p.2.2
    | none => m) m else m
  { s with m := m, sys := { s.sys with power := if minimal then .dieOff else .run } }

/-- A command of the management interface: it brings the module back from PKG-SLEEP, and is then taken (20 R289). -/
def managed (k : State → Host.Outcome State Fault Refusal) (s : State) : Host.Outcome State Fault Refusal :=
  k (if s.sys.power == .pkgSleep then s.wake else s)

/-! ### Context descriptors (19 R267) -/

/-- Whether a descriptor keeps the rules of R267. -/
def descOk (d : CtxDesc) : Bool :=
  decide (1 ≤ d.ctxno) && decide (d.ctxno < 65536) && d.kmode == (d.ctxno == 1) && d.root % 4096 == 0 && decide (d.root < 2 ^ 56)
    && decide (d.rlimit < 256) && d.fqbase % 4096 == 0 && decide (d.fqbase < 2 ^ 56)
    && ((List.range 10).any fun i => d.fqsize == 2 ^ (7 + i))

/-- Whether a context has a resident team. -/
def Mach.ctxResident (m : Mach) (ctx : Nat) : Bool := m.teams.any fun t => t.ctx == ctx && t.occupies

/-- A new context: its descriptor's place, and a scope table of 28 entries (07 R126; log 13). -/
def newCtx (d : CtxDesc) (addr : Nat) : Ctx :=
  { desc := d, addr := addr, fqhead := 0, fqovf := 0, scopes := List.replicate 28 0, halted := false }

/-- Write a context's descriptor into memory. -/
def Mach.writeDesc (m : Mach) (ctx : Nat) : Mach :=
  match m.ctx? ctx with
  | some c => m.cohWrite1 c.addr c.bytes
  | none => m

/-- CONTEXT_DESCRIPTOR_CHANGE: only FQTAIL, which kernel-mode software writes, while the context has a resident team. -/
def changeDesc (desc : CtxDesc) (s : State) : Host.Outcome State Fault Refusal :=
  if !descOk desc then reply ansDenied s
  else match s.m.ctx? desc.ctxno with
    | none =>
      let (at_, m) := s.m.takePages 64
      .next { s with
        m := ({ m with ctxs := m.ctxs ++ [newCtx desc at_] } : Mach).writeDesc desc.ctxno
        sys := { s.sys with answer := ansDone } }
    | some c =>
      let m := s.m.updCtx desc.ctxno fun x => { x with desc := desc }
      if { c.desc with fqtail := desc.fqtail } == desc then .next { s with
        m := m.cohWrite1 (c.addr + 32) (leBytes desc.fqtail.toNat 4)
        sys := { s.sys with answer := ansDone } }
      else if s.m.ctxResident desc.ctxno then reply ansDenied s
      else .next { s with
        m := m.writeDesc desc.ctxno
        sys := { s.sys with answer := ansDone } }

def execContextDescriptorChange (desc : CtxDesc) (s : State) : Host.Outcome State Fault Refusal := call (changeDesc desc) s

/-! ### Keys and attestation (20 R285, R286) -/

/-- A thermometer counter: the count of blown bits of FWSVN. -/
def Fuses.fwsvnCount (f : Fuses) : Nat := ((List.range 64).filter fun i => f.fwsvn.getLsbD i).length

/-- Whether the security state lets a key be enrolled. -/
def Sys.enrols (y : Sys) (signedByOwner : Bool) : Bool :=
  match y.security with
  | .openState => true
  | .sealed => signedByOwner && y.fuses.ownerHash != 0
  | .attested => false

/-- KEY_ENROLMENT: up to 8 keys. -/
def enrolKey (key : PubKey) (signedByOwner : Bool) (s : State) : Host.Outcome State Fault Refusal :=
  if s.sys.enrols signedByOwner && (s.sys.keys.contains key || decide (s.sys.keys.length < 8)) then
    .next { s with sys := { s.sys with
      keys := if s.sys.keys.contains key then s.sys.keys else s.sys.keys ++ [key]
      answer := ansDone } }
  else reply ansDenied s

def execKeyEnrolment (key : PubKey) (signedByOwner : Bool) (s : State) : Host.Outcome State Fault Refusal :=
  call (enrolKey key signedByOwner) s

/-- The attestation report and its signature. -/
def Sys.attest (y : Sys) (k2 : Bool) (nonce : BitVec 384) : Attestation where
  image := y.image
  fwsvn := y.fuses.fwsvnCount
  cosvn := y.fuses.cosvnCount
  k2 := k2
  keys := y.keys.map keyDigest
  nonce := nonce
  sig := Config.attestSig y.fuses.idseed y.image y.fuses.fwsvnCount y.fuses.cosvnCount k2 (y.keys.map keyDigest) nonce

/-- ENTER_ATTESTED: from SEALED, the debug state being NONE. -/
def attest (nonce : BitVec 384) (s : State) : Host.Outcome State Fault Refusal :=
  if s.sys.security == .sealed && s.sys.debug == .none then
    .next { s with sys := { s.sys with
      security := .attested, report := some (s.sys.attest s.m.k2 nonce), answer := ansDone } }
  else reply ansDenied s

def execEnterAttested (nonce : BitVec 384) (s : State) : Host.Outcome State Fault Refusal := call (attest nonce) s

/-- Set one bit of a fuse array. -/
def blow {n : Nat} (v : BitVec n) (bit : Nat) : BitVec n := v ||| (1#n <<< bit)

/-- Blow one bit of a fuse. -/
def Fuses.blow (f : Fuses) : Fuse → Fuses
  | .rootHash b => { f with rootHash := Machine.blow f.rootHash b }
  | .ownerHash b => { f with ownerHash := Machine.blow f.ownerHash b }
  | .sealBit => { f with sealBit := true }
  | .fwsvn b => { f with fwsvn := Machine.blow f.fwsvn b }
  | .cosvn b => { f with cosvn := Machine.blow f.cosvn b }
  | .idseed b => { f with idseed := Machine.blow f.idseed b }

/-- FUSE_BLOW (R285) by the firmware, so nothing while no image runs (R294): SEAL takes effect at the next start (R286). -/
def execFuseBlow (f : Fuse) (s : State) : Host.Outcome State Fault Refusal :=
  call (fun s => .next { s with sys := { s.sys with fuses := s.sys.fuses.blow f } }) s

/-! ### Debug (20 R287, R288) -/

/-- The combinations that R288 does not mark Refused. -/
def permits (sec : Security) (d : DebugState) : Bool :=
  match sec, d with
  | .openState, _ => true
  | .sealed, .halt => false
  | .sealed, _ => true
  | .attested, .none => true
  | .attested, _ => false

/-- DEBUG_STATE_SET: DENIED for a combination that R288 refuses. -/
def setDebug (d : DebugState) (s : State) : Host.Outcome State Fault Refusal :=
  if permits s.sys.security d then .next { s with sys := { s.sys with debug := d, answer := ansDone } }
  else reply ansDenied s

def execDebugStateSet (d : DebugState) (s : State) : Host.Outcome State Fault Refusal := call (managed (setDebug d)) s

/-- Halt a context: every team is pre-empted; a shepherd is saved (19 R270). -/
def Mach.halt (m : Mach) (ctx : Nat) : Mach :=
  (m.teams.filter fun t => t.ctx == ctx && t.status == .running).foldl (fun m t =>
    if t.shepherd then (if t.preempt.isNone then m.beginPreempt t.uid .save true else m) else m.requestPreempt t.uid)
    (m.updCtx ctx fun c => { c with halted := true })

/-- DEBUG_HALT: in debug state HALT; BUSY in PKG-SLEEP (R288). -/
def debugHalt (ctx : Nat) (s : State) : Host.Outcome State Fault Refusal :=
  if s.sys.power == .pkgSleep then reply ansBusy s
  else if s.sys.debug != .halt then reply ansDenied s
  else .next { s with m := s.m.halt ctx, sys := { s.sys with answer := ansDone } }

def execDebugHalt (ctx : Nat) (s : State) : Host.Outcome State Fault Refusal := call (debugHalt ctx) s

/-- A per-thread system register as the debug interface writes it, reserved bits ignored as by SSR (00 R5, 03 R51); a thread's place (LANE
to TIDX) and the module's CLK are no state of the team. Of FLT_SUB it is the lower half. -/
def Thread.debugSys (t : Thread) (n : SysReg) (v : DWord) : Thread :=
  match n with
  | .fltPc => { t with fltPc := v }
  | .fltAddr => { t with fltAddr := v }
  | .utvec => { t with utvec := v }
  | .fltSub => { t with fltSub := { t.fltSub with bits := t.fltSub.bits.extractLsb' 64 64 ++ v } }
  | .fltCause | .fltMask | .fltInst | .fltExc | .ften | .frm | .uctl => t.ssr32 n (v.setWidth 32)
  | .lane | .group | .team | .fold | .tidx | .argp | .clk | .taskid | .taskst => t

/-- A team's system register as the debug interface writes it (03 R51; 16 R249, R253): ARGP, TASKID, and TASKST but for VLINES, which counts
what the version holds. FP stands for a fault that is pending: clearing it drops that fault, and none appears by setting it. -/
def Team.debugSys (t : Team) (n : SysReg) (v : DWord) : Team :=
  match n with
  | .argp => { t with argp := v }
  | .taskid => { t with taskid := v.setWidth 32 }
  | .taskst => { t with
      nr := v.getLsbD 31, defer := v.getLsbD 29, restarts := v.toNat / 2 ^ 19 % 256
      fp := t.fp && v.getLsbD 30
      known := if v.getLsbD 30 then t.known else []
      latent := if v.getLsbD 30 then t.latent else [] }
  | _ => t

/-- The state in which the debug interface leaves a thread; a watch on another team's scratchpad is a foreign one. -/
def debugWait (team : Nat) : DebugWait → Wait
  | .ready => .ready
  | .held j => .held j
  | .parked c a p n => .parked { cause := c, addr := a, page := p, bytes := n }
  | .hurdle u o g => .hrdw u o g (u != team)
  | .counts l s d t => .counts l s d t
  | .xfen => .xfen
  | .service b => .service b
  | .acquire ts => .acquire ts
  | .drains cs ss => .drains cs ss
  | .scratch k u o n c v d => .waita {
      k := k, watch := .scratch u o, width := n, cond := c, value := v, deadline := d, foreign := u != team, record := false, woken := none }
  | .line k p a n c v d => .waita {
      k := k, watch := .line p a, width := n, cond := c, value := v, deadline := d, foreign := false, record := false, woken := none }

/-- The team whose state an edit writes. -/
def editTeam : DebugEdit → Nat
  | .reg t .. | .preds t _ | .pc t _ | .sys t .. | .handler t .. | .sub t .. | .latch t _ | .wait t _ => t.team
  | .mask u .. | .scratch u .. | .tile u .. | .queue u .. | .tileTag u .. | .pushes u .. => u

/-- One write of the debug interface (R287). -/
def Mach.edit (m : Mach) (e : DebugEdit) : Mach :=
  match e with
  | .reg t r b g => m.updThread t fun x => x.setRegs r.toNat [{ bits := b, tag := g }]
  | .preds t v => m.updThread t fun x => { x with preds := v ||| 1 }
  | .pc t v => m.updThread t fun x => { x with pc := v }
  | .sys t n v => (m.updThread t fun x => x.debugSys n v).updTeam t.team fun x => x.debugSys n v
  | .handler t a w r => m.updThread t fun x => { x with handlerActive := a, written := w, resume := r }
  | .mask u g n k v => m.updGroup u g fun x => if k then { x with p := x.p.set n v } else { x with e := x.e.set n v }
  | .scratch u o v => m.updTeam u fun x => { x with scratch := x.scratch.set o v }
  | .tile u o v => m.updTeam u fun x => { x with tileMem := x.tileMem.set o v }
  | .queue u o v => m.updTeam u fun x => { x with qmem := x.qmem.set o v }
  | .sub t b g => m.updThread t fun x => { x with fltSub := { bits := b, tag := g } }
  | .latch t v => m.updThread t fun x => { x with
      latch := v.map fun l => { a := l.1, regs := l.2.map fun r => { bits := r.1, tag := r.2 } } }
  | .wait t v => m.updThread t fun x => { x with wait := debugWait t.team v }
  | .tileTag u n g => m.updTeam u fun x => { x with tileTags := x.tileTags.set n g }
  | .pushes u h l v => m.updTeam u fun x => { x with qhead := h, qtail := l, qcmds := v }

/-- The writes of the debug interface, to saved teams of a context, in HALT. -/
def Mach.edits (m : Mach) (ctx : Nat) (es : List DebugEdit) : Mach :=
  es.foldl (fun m e => match m.team? (editTeam e) with
    | some t => if t.ctx == ctx && t.status == .saved then m.edit e else m
    | none => m) m

/-- DEBUG_RESUME: what the debugger wrote while the teams were saved stands, and TEAM_RESTORE and FOLD_PLACE act on the context's teams
again. -/
def debugResume (r : DebugResume) (s : State) : Host.Outcome State Fault Refusal :=
  if s.sys.power == .pkgSleep then reply ansBusy s
  else
    let m := if s.sys.debug == .halt then s.m.edits r.ctx r.edits else s.m
    let m := m.updCtx r.ctx fun c => { c with halted := false }
    .next { s with
      m := { m with teams := m.teams.map fun (t : Team) => if t.ctx == r.ctx then { t with brk := false } else t }
      sys := { s.sys with answer := ansDone } }

def execDebugResume (r : DebugResume) (s : State) : Host.Outcome State Fault Refusal :=
  call (debugResume r) s

/-! ### Power (20 R289-R291) -/

/-- Dies a request concerns. -/
def requestDies (st : PowerState) (dies : List Nat) : List Nat := if st == .dieOff then dies else [0, 1, 2, 3]

/-- Whether a drover command is in flight: one that a saved team has taken with it is not. -/
def Mach.cmdInFlight (m : Mach) (c : Cmd) : Bool :=
  match m.team? c.team with
  | some t => !(t.status == .saved && c.kind != 8)
  | none => false

/-- The entry condition of a state (R289). A shepherd of a die that goes off does not keep it on (19 R270). -/
def Mach.mayEnter (m : Mach) (st : PowerState) (dies : List Nat) : Bool :=
  match st with
  | .run => true
  | .idle => m.teams.all fun t => !t.occupies
  | .dieOff => m.teams.all fun t => !(t.occupies && dies.contains (dieOf t.core) && !t.shepherd)
  | .pkgSleep => m.teams.all (fun t => !t.occupies) && m.cmds.all fun c => !m.cmdInFlight c

/-- The shepherd of a die that goes off ends; it starts again when the die returns. -/
def Mach.loseShepherd (m : Mach) (die : Nat) : Mach :=
  let us := (m.teams.filter fun t => t.shepherd && dieOf t.core == die && t.status != .gone).map (·.uid)
  let m := { m with
    cmds := m.cmds.filter fun c => !us.contains c.team
    tileq := m.tileq.filter fun q => !us.contains q.team
    lostDies := match m.shepherdOf die with | some p => (die, p) :: m.lostDies | none => m.lostDies
    launches := m.launches.filter fun l => !(l.shepherd == some die && decide (l.next < l.folds)) }
  (us.foldl (fun m u => m.leaveCore u .gone) m).shepherdKilled die

/-- Cores' L1 arrays are written back (R290): partials go home, owned lines are recalled, the bytes of teams that have gone move
out of the L1, clean lines are dropped; translations held in the cores go (log 45). -/
def Mach.coresOff (m : Mach) (dies : List Nat) : Mach :=
  let off (core : Nat) : Bool := dies.contains (dieOf core)
  let gone (u : Nat) : Bool := match m.team? u with | some t => t.status == .gone | none => true
  let m := (m.l1.filter fun c => c.owned && off c.core).foldl (fun m c => m.recall c.line) m
  { m with
    partials := m.partials.map fun (p : Partial) => if off p.core then { p with home := true } else p
    versions := m.versions.map fun (b : VByte) =>
      if off b.core && !b.diePub && gone b.ref.team then { b with l2 := true } else b
    l1 := m.l1.filter fun c => !off c.core
    tlb := m.tlb.filter fun e => match e.cache with
      | .micro c _ => !off c
      | .core c => !off c
      | .die _ => true }

/-- Slices off (R290): lines in U are combined, mirrors emptied. -/
def Mach.slicesOff (m : Mach) : Mach :=
  { (m.linemeta.foldl (fun m p => m.combine p.1) m) with mirrors := [], tlb := [], walkCache := [] }

/-- Services are enabled once no shepherd still waits for its place. -/
def Mach.enableServices (m : Mach) (wanted : Bool) : Mach :=
  { m with services := m.services || (wanted && (m.launches.all fun l => l.shepherd.isNone || decide (l.folds ≤ l.next))
      && m.teams.any fun t => t.shepherd && t.status == .running) }

/-- A request is answered; placement and acceptance resume. -/
def State.endRequest (s : State) (ans : Nat) (m : Mach) (p : PowerState) : State :=
  { s with
    m := { m with noPlace := [], noAccept := false }
    sys := { s.sys with power := p, powerReq := none, powerAns := some ans, answer := ans } }

/-- Enter a power state whose condition holds. PKG-SLEEP is left by way of a wake, which any management command gives (R289). -/
def State.enterPower (s0 : State) (st : PowerState) (dies : List Nat) : State :=
  let s := if s0.sys.power == .pkgSleep && st != .pkgSleep then s0.wake else s0
  match st with
  | .run => s.wake.endRequest ansDone s.wake.m s.wake.sys.power
  | .idle => s.endRequest ansDone s.m (if s.m.diesOff.isEmpty then .idle else .dieOff)
  | .dieOff =>
    let m := (dies.foldl (fun m d => m.loseShepherd d) s.m).coresOff dies
    let m := { m with diesOff := s.m.diesOff ++ dies.filter fun d => !s.m.diesOff.contains d }
    s.endRequest ansDone (m.enableServices s.sys.shepherd.isSome) .dieOff
  | .pkgSleep =>
    let m := (s.m.coresOff [0, 1, 2, 3]).slicesOff
    s.endRequest ansDone { m with diesOff := [0, 1, 2, 3] } .pkgSleep

/-- Whether a request names dies there are. -/
def powerWellFormed (st : PowerState) (dies : List Nat) : Bool :=
  st != .dieOff || (!dies.isEmpty && dies.all fun d => decide (d < 4))

/-- What a request that waits comes to (R291): DONE while its condition holds in time, BUSY once its time has passed. -/
def State.settleRequest (s : State) (r : PowerReq) : State :=
  if r.deadline ≤ s.m.clk then s.endRequest ansBusy s.m s.sys.power
  else if s.m.mayEnter r.state r.dies then s.enterPower r.state r.dies
  else s

/-- POWER_STATE_REQUEST (R291): it completes at once or waits for its condition, at most 1 s; `wait` is in microseconds. The
same event completes a request that waits. -/
def powerRequest (state : PowerState) (dies : List Nat) (wait : Nat) (s : State) : Host.Outcome State Fault Refusal :=
  match s.sys.powerReq with
  | some r => if r.state == state && r.dies == dies then .next (s.settleRequest r) else reply ansBusy s
  | none =>
    if !powerWellFormed state dies || !permits s.sys.security s.sys.debug then reply ansDenied s
    else if s.m.mayEnter state dies then .next (s.enterPower state dies)
    else .next { s with
      m := { s.m with noPlace := requestDies state dies, noAccept := state == .pkgSleep }
      sys := { s.sys with
        powerReq := some {
          state := state, dies := dies, deadline := s.m.clk + Config.usCycles (min wait 1000000) }
        powerAns := none } }

def execPowerStateRequest (state : PowerState) (dies : List Nat) (wait : Nat) (s : State) : Host.Outcome State Fault Refusal :=
  call (powerRequest state dies wait) s

/-- POWER_REQUEST_TIMEOUT (R291): once the time has passed the answer is BUSY, and the power state is unchanged. -/
def execPowerRequestTimeout (s : State) : Host.Outcome State Fault Refusal :=
  match s.sys.powerReq with
  | none => .next s
  | some r => .next (if r.deadline ≤ s.m.clk then s.settleRequest r else s)

/-- WAKE_TO_RUN (R289). -/
def wakeToRun (s : State) : Host.Outcome State Fault Refusal := .next (if s.sys.power == .run then s else s.wake)

def execWakeToRun (s : State) : Host.Outcome State Fault Refusal := call wakeToRun s

/-- POWER_CAP_SET (R289): 1,200 W to 3,200 W. -/
def setCap (watts : Nat) (s : State) : Host.Outcome State Fault Refusal :=
  if 1200 ≤ watts && watts ≤ 3200 then .next { s with sys := { s.sys with cap := watts, answer := ansDone } }
  else reply ansDenied s

def execPowerCapSet (watts : Nat) (s : State) : Host.Outcome State Fault Refusal := call (managed (setCap watts)) s

/-- THERMAL_LIMIT (R295). -/
def execThermalLimit (above : Bool) (s : State) : Host.Outcome State Fault Refusal :=
  .next { s with sys := { s.sys with withheld := above } }

/-! ### Start-up (20 R292-R294) -/

/-- The machine with nothing in it: what power that comes or goes leaves, with the stepping it was made as. -/
def Mach.bare (m : Mach) : Mach :=
  { Mach.reset with
    k2 := m.k2, wallBase := m.wallclock, diesOff := [0, 1, 2, 3], ports := List.replicate 4 .off }

/-- COOLANT_POWER_REMOVAL (R295): what survives are the fuses and BOOT_STATUS's FAILS and REASON; its other fields take their reset
values, SEC with the security state OPEN among them (R293). -/
def execCoolantPowerRemoval (s : State) : Host.Outcome State Fault Refusal :=
  .next { s with
    m := s.m.bare
    sys := { s.sys with
      removed := true, started := false, startClk := none, keys := [], verified := [], report := none, debug := .none
      security := .openState
      powerReq := none, shepherd := none, withheld := false, power := .idle
      boot := { s.sys.boot with minimal := false, fwsvn := 0, stage := 0 } } }

/-- Whether the image's signature verifies under ROOTHASH's key (R285, R292). -/
def imageSigned (f : Fuses) (r : StartReport) : Bool := keyDigest r.key == f.rootHash && sigValid r.key r.image r.sig

/-- The reason for which a start fails, 0 for none: the image's format, its SVN, its signature, then what the image itself checks (R292,
R293). -/
def startReason (f : Fuses) (r : StartReport) : Nat :=
  if !r.formatOk then 3
  else if r.svn < f.fwsvnCount then 2
  else if !imageSigned f r then 1
  else if 4 ≤ r.check && r.check ≤ 7 then r.check
  else 0

/-- What a start leaves in Sys whatever it finds: security by SEAL (R286), debug NONE. -/
def Sys.atStart (y : Sys) : Sys :=
  { y with
    keys := [], verified := [], report := none, debug := .none, power := .idle, powerReq := none, powerAns := none
    security := if y.fuses.sealBit then .sealed else .openState
    started := false, startClk := none, withheld := false, removed := false, shepherd := none }

/-- BOOT_STATUS as software reads it (R293). -/
def Sys.bootStatus (y : Sys) : Word :=
  let sec := match y.security with | .openState => 0 | .sealed => 1 | .attested => 2
  BitVec.ofNat 32 (y.boot.reason % 256 * 2 ^ 24 + y.boot.fails % 4 * 2 ^ 22 + y.boot.minimal.toNat * 2 ^ 21 + sec * 2 ^ 19
    + y.boot.fwsvn % 256 * 2 ^ 8 + y.boot.stage % 256)

/-- The step of R292 at which a check with a reason stands. -/
def stageOf (reason : Nat) : Nat := if reason ≤ 3 then 1 else 3

/-- One 32-byte entry of the memory description (R296): type, number, base, size (log 66). -/
def descEntry (ty num base size : Nat) : List Byte := leBytes ty 4 ++ leBytes num 4 ++ leBytes base 8 ++ leBytes size 8 ++ List.replicate 8 0

/-- Bytes of the firmware-owned region after the mailboxes' (log 66): descriptors, tables, trace buffers. -/
def fwBytes : Nat := 0x600000000

/-- The memory description (R296): stacks, pools, shadow tables, the mailbox and firmware regions, and an entry of type 0. -/
def Mach.description (m : Mach) : List Byte :=
  (m.stackBase.zipIdx.map fun p => descEntry 1 p.2 p.1 stackBytes).flatten
    ++ ((List.range 4).map fun p => match m.ports.getD p .off with
      | .cxl b => descEntry 2 p (poolBase p) (poolBytes b) ++ descEntry 3 p (shadowBase p b) (poolBytes b / 64)
      | _ => []).flatten
    ++ descEntry 4 0 m.mailBase bar0Bytes ++ descEntry 5 0 m.fwBase fwBytes ++ descEntry 0 0 0 0

/-- The firmware writes the memory description into its region and passes its address on (R292, R296). -/
def Mach.describe (m : Mach) : Mach :=
  let d := m.description
  let (at_, m) := m.takePages d.length
  { m with mem := m.mem.write at_ d, memTable := some at_ }

/-- The machine a start brings up: the whole module, or the chiplet and die 0 with stacks 0 to 2 (R294); a module of no domain is
number 0 of one (19 R274). -/
def Mach.started (m : Mach) (minimal : Bool) (r : StartReport) : Mach :=
  ({ m.bare with
    module := if r.modules ≤ 1 then 0 else r.module, modules := max r.modules 1, droveway := !minimal
    ports := if minimal then List.replicate 4 .off else r.ports
    timeBase := if r.modules ≤ 1 then 0 else r.time
    stackBase := if minimal then Mach.reset.stackBase.take 3 else Mach.reset.stackBase
    diesOff := if minimal then [1, 2, 3] else [] } : Mach).describe

/-- A start. -/
def State.powerOn (s : State) (r : StartReport) : State :=
  let y := s.sys.atStart
  let b := y.boot
  let minimal := b.fails == 3 && !b.full
  if minimal && 1 ≤ b.reason && b.reason ≤ 3 then
    { s with
      m := s.m.bare
      sys := { y with boot := { b with full := false, minimal := true, stage := 1, fwsvn := 0 } } }
  else
    let why := startReason y.fuses r
    if why != 0 then
      { s with
        m := s.m.bare
        sys := { y with boot := {
          full := false, reason := why, fails := min 3 (b.fails + 1), minimal := minimal, fwsvn := 0, stage := stageOf why } } }
    else
      { s with
        m := s.m.started minimal r
        sys := { y with
          image := r.image, startClk := some 0, power := if minimal then .dieOff else .idle
          boot := { b with full := false, minimal := minimal, fwsvn := r.svn % 256, stage := 5 } } }

/-- POWER_ON (R292-R294). -/
def execPowerOn (report : StartReport) (s : State) : Host.Outcome State Fault Refusal :=
  .next (s.powerOn report)

/-- A start that has not completed 10 s after power-on fails (R292, R293). -/
def State.startExpired (s : State) : State :=
  match s.sys.startClk with
  | none => s
  | some c =>
    if s.m.clk < c + Config.usCycles 10000000 then s
    else { s with
      m := s.m.bare
      sys := { s.sys with
        startClk := none
        boot := { s.sys.boot with reason := 8, fails := min 3 (s.sys.boot.fails + 1) } } }

/-- START_TIMEOUT (R292). -/
def execStartTimeout (s : State) : Host.Outcome State Fault Refusal := .next s.startExpired

/-- START_COMPLETE (R292, R293): the operating system reports itself running, unless the start has failed by then. -/
def execStartComplete (s : State) : Host.Outcome State Fault Refusal :=
  let s := s.startExpired
  match s.sys.startClk with
  | none => .next s
  | some _ => .next { s with sys := { s.sys with started := true, startClk := none, boot := { s.sys.boot with fails := 0 } } }

/-- CLEAR_FAILS (R294), a management command. -/
def execClearFails (s : State) : Host.Outcome State Fault Refusal :=
  managed (fun s => .next { s with sys := { s.sys with boot := { s.sys.boot with fails := 0 } } }) s

/-- RECOVERY_IMAGE_WRITE (R294): the recovery loader takes a new image; the next start is a full one. -/
def execRecoveryImageWrite (s : State) : Host.Outcome State Fault Refusal :=
  let b := s.sys.boot
  if b.minimal && 1 ≤ b.reason && b.reason ≤ 3 then .next { s with sys := { s.sys with boot := { b with full := true } } }
  else .next s

end Sys2Proof.Machine
end

