-- ==== Sys2Proof/Machine/FloatOps.lean ====
section
/-! DEFINITION. Float words of the I pipe: arithmetic, special functions, compare, classify, DOT4 and CVT (21 R312-R317; 22
R320-R328). -/

namespace Sys2Proof.Machine

/-- A float result of one value: R63 over its flags. -/
def floatValue (t : Thread) (d : Reg) (tag : Tag) (r : Nat × Flags) : LaneOut :=
  floatOut t r.2 { bits := BitVec.ofNat 128 r.1, tag := tag } (writes t.ref d.toNat (valRegs tag r.1))

/-- The float mould (R320): each element exact, rounded once in FRM.RM, subnormals flushed under FRM.FTZ. -/
def float2 (op : Fmt → Rm → Bool → Nat → Nat → Nat × Flags) (d a b : Reg) (t : Thread) : LaneOut :=
  match mould Tag.isFloat true [a.toNat, b.toNat] [d.toNat, a.toNat, b.toNat] t with
  | .error c => .ofCause c t.ref (.regs d.toNat (t.tagAt a.toNat) 1)
  | .ok tag => floatValue t d tag
      (packF tag (fun f => op f (frmRm t.frm) (frmFtz t.frm)) (t.valAt a.toNat) (t.valAt b.toNat))

/-- The special-function mould (R324): F32 only. -/
def floatSpecial (k : Special) (d a : Reg) (t : Thread) : LaneOut :=
  if t.tagAt a.toNat == .f32 then
    floatValue t d .f32 (special k (frmRm t.frm) (frmFtz t.frm) (t.reg a.toNat).bits.toNat)
  else .mismatch t.ref (.regs d.toNat .f32 1)

/-- FCLS's result (R323): bit 16i + class of each element. -/
def classBits (tag : Tag) (v : Nat) : Nat :=
  match fmtOf tag with
  | some f => joinW 16 ((elems tag v).map fun e => 2 ^ fClass f e)
  | none => 0

/-- DOT4 over floats (R317): the exact sum rounded once. -/
def dot4Float (tag : Tag) (rm : Rm) (ftz : Bool) (d a b : Nat) : Nat × Flags :=
  match fmtOf tag with
  | some f =>
    deliver fp32 rm ftz false
      (sumProducts rm (some (unpack fp32 (flushIn ftz fp32 d))) (((elems tag a).map (unpack f)).zip ((elems tag b).map (unpack f))))
  | none => (0, {})

/-- DOT4 over integers (R317). -/
def dot4Int (d a b : Nat) : Nat :=
  ofS 32 ((d : Int) + (((elems .i8x4 a).zip (elems .i8x4 b)).map fun p => toS 8 p.1 * toS 8 p.2).sum)

/-- The values of `k` consecutive values of a tag. -/
def Thread.valuesAt (t : Thread) (r : Nat) (tag : Tag) (k : Nat) : List Nat :=
  (List.range k).map fun i => bitsOf (t.block (r + i * tag.regs) tag.regs)

/-- Cut a list into runs of `n`; `fuel` runs. -/
def runs {α : Type} (n : Nat) : Nat → List α → List (List α)
  | 0, _ => []
  | fuel + 1, xs => if xs.isEmpty then [] else xs.take n :: runs n fuel (xs.drop n)

/-! ### Arithmetic (R320, R321) -/

/-- FADD (R320). -/
def faddSem (d a b : Reg) : WordSem :=
  laneWord (.fadd d a b) fun _ _ t =>
    float2 fAdd d a b t

def execFadd (d a b : Reg) (s : State) : Host.Outcome State Fault Refusal :=
  runWord (faddSem d a b) s

/-- FSUB (R320). -/
def fsubSem (d a b : Reg) : WordSem :=
  laneWord (.fsub d a b) fun _ _ t =>
    float2 fSub d a b t

def execFsub (d a b : Reg) (s : State) : Host.Outcome State Fault Refusal :=
  runWord (fsubSem d a b) s

/-- FMUL (R320). -/
def fmulSem (d a b : Reg) : WordSem :=
  laneWord (.fmul d a b) fun _ _ t =>
    float2 fMul d a b t

def execFmul (d a b : Reg) (s : State) : Host.Outcome State Fault Refusal :=
  runWord (fmulSem d a b) s

/-- FDIV (R320). -/
def fdivSem (d a b : Reg) : WordSem :=
  laneWord (.fdiv d a b) fun _ _ t =>
    float2 fDiv d a b t

def execFdiv (d a b : Reg) (s : State) : Host.Outcome State Fault Refusal :=
  runWord (fdivSem d a b) s

/-- FMIN (R321). -/
def fminSem (d a b : Reg) : WordSem :=
  laneWord (.fmin d a b) fun _ _ t =>
    float2 (fun f _ ftz => fMinMax false f ftz) d a b t

def execFmin (d a b : Reg) (s : State) : Host.Outcome State Fault Refusal :=
  runWord (fminSem d a b) s

/-- FMAX (R321). -/
def fmaxSem (d a b : Reg) : WordSem :=
  laneWord (.fmax d a b) fun _ _ t =>
    float2 (fun f _ ftz => fMinMax true f ftz) d a b t

def execFmax (d a b : Reg) (s : State) : Host.Outcome State Fault Refusal :=
  runWord (fmaxSem d a b) s

/-- FFMA (R327): D is a source. -/
def ffmaSem (d a b : Reg) : WordSem :=
  laneWord (.ffma d a b) fun _ _ t =>
    match mould Tag.isFloat true [a.toNat, b.toNat, d.toNat] [d.toNat, a.toNat, b.toNat] t with
    | .error c => .ofCause c t.ref (.regs d.toNat (t.tagAt a.toNat) 1)
    | .ok tag => floatValue t d tag
        (packF3 tag (fun f => fFma f (frmRm t.frm) (frmFtz t.frm)) (t.valAt a.toNat) (t.valAt b.toNat) (t.valAt d.toNat))

def execFfma (d a b : Reg) (s : State) : Host.Outcome State Fault Refusal :=
  runWord (ffmaSem d a b) s

/-! ### Special functions (R324-R326) -/

/-- FRCP (R324-R326). -/
def frcpSem (d a : Reg) : WordSem :=
  laneWord (.frcp d a) fun _ _ t =>
    floatSpecial .rcp d a t

def execFrcp (d a : Reg) (s : State) : Host.Outcome State Fault Refusal :=
  runWord (frcpSem d a) s

/-- FRSQ (R324-R326). -/
def frsqSem (d a : Reg) : WordSem :=
  laneWord (.frsq d a) fun _ _ t =>
    floatSpecial .rsq d a t

def execFrsq (d a : Reg) (s : State) : Host.Outcome State Fault Refusal :=
  runWord (frsqSem d a) s

/-- FSQRT (R324-R326). -/
def fsqrtSem (d a : Reg) : WordSem :=
  laneWord (.fsqrt d a) fun _ _ t =>
    floatSpecial .sqrt d a t

def execFsqrt (d a : Reg) (s : State) : Host.Outcome State Fault Refusal :=
  runWord (fsqrtSem d a) s

/-- FEX2 (R324-R326). -/
def fex2Sem (d a : Reg) : WordSem :=
  laneWord (.fex2 d a) fun _ _ t =>
    floatSpecial .ex2 d a t

def execFex2 (d a : Reg) (s : State) : Host.Outcome State Fault Refusal :=
  runWord (fex2Sem d a) s

/-- FLG2 (R324-R326). -/
def flg2Sem (d a : Reg) : WordSem :=
  laneWord (.flg2 d a) fun _ _ t =>
    floatSpecial .lg2 d a t

def execFlg2 (d a : Reg) (s : State) : Host.Outcome State Fault Refusal :=
  runWord (flg2Sem d a) s

/-- FSIN (R324-R326). -/
def fsinSem (d a : Reg) : WordSem :=
  laneWord (.fsin d a) fun _ _ t =>
    floatSpecial .sin d a t

def execFsin (d a : Reg) (s : State) : Host.Outcome State Fault Refusal :=
  runWord (fsinSem d a) s

/-- FCOS (R324-R326). -/
def fcosSem (d a : Reg) : WordSem :=
  laneWord (.fcos d a) fun _ _ t =>
    floatSpecial .cos d a t

def execFcos (d a : Reg) (s : State) : Host.Outcome State Fault Refusal :=
  runWord (fcosSem d a) s

/-! ### Compare, classify, dot product, convert -/

/-- FSET (R328). -/
def fsetSem (k : KIx) (a b : Reg) (f : FCond) : WordSem :=
  laneWord (.fset k a b f) fun _ _ t =>
    match mould Tag.isFloat true [a.toNat, b.toNat] [a.toNat, b.toNat] t with
    | .error c => .ofCause c t.ref (.pred k)
    | .ok tag =>
      match fmtOf tag with
      | none => .mismatch t.ref (.pred k)
      | some g =>
        let rs := (elems tag (t.valAt a.toNat)).zipWith (fCmp f g (frmFtz t.frm)) (elems tag (t.valAt b.toNat))
        let res := rs.all (·.1)
        floatOut t { iv := rs.any (·.2) } { bits := if res then 1 else 0, tag := .i32 }
          fun m => m.updThread t.ref fun x => x.setPred k res

def execFset (k : KIx) (a b : Reg) (f : FCond) (s : State) : Host.Outcome State Fault Refusal :=
  runWord (fsetSem k a b f) s

/-- FCLS (R323): no flag, FTZ ignored. -/
def fclsSem (d a : Reg) : WordSem :=
  laneWord (.fcls d a) fun _ _ t =>
    match mould Tag.isFloat true [a.toNat] [a.toNat] t with
    | .error c => .ofCause c t.ref (.regs d.toNat .i32 1)
    | .ok tag => .value t.ref d.toNat .i32 (classBits tag (t.valAt a.toNat))

def execFcls (d a : Reg) (s : State) : Host.Outcome State Fault Refusal :=
  runWord (fclsSem d a) s

/-- DOT4 (R317): D is a source. -/
def dot4Sem (d a b : Reg) : WordSem :=
  laneWord (.dot4 d a b) fun _ _ t =>
    let ta := t.tagAt a.toNat
    let td := t.tagAt d.toNat
    let x := (t.reg a.toNat).bits.toNat
    let y := (t.reg b.toNat).bits.toNat
    let z := (t.reg d.toNat).bits.toNat
    if t.tagAt b.toNat != ta then .mismatch t.ref (.regs d.toNat .f32 1)
    else if (ta == .e4m3x4 || ta == .e5m2x4) && td == .f32 then
      floatValue t d .f32 (dot4Float ta (frmRm t.frm) (frmFtz t.frm) z x y)
    else if ta == .i8x4 && td == .i32 then .value t.ref d.toNat .i32 (dot4Int z x y)
    else .mismatch t.ref (.regs d.toNat .f32 1)

def execDot4 (d a b : Reg) (s : State) : Host.Outcome State Fault Refusal :=
  runWord (dot4Sem d a b) s

/-- CVT (R312-R315): blocks of n = max of the two element counts. -/
def cvtSem (d a : Reg) (sat : Bool) (rm : Rm) (tgt : Tag) : WordSem :=
  laneWord (.cvt d a sat rm tgt) fun _ _ t =>
    let s := t.tagAt a.toNat
    let n := max (elemN s) (elemN tgt)
    let vs := n / elemN s
    let vd := n / elemN tgt
    let ks := vs * s.regs
    let kd := vd * tgt.regs
    let dst : Dst := .regs d.toNat tgt vd
    let cap := t.regs.length
    if !s.isData || (List.range ks).any (fun i => decide (a.toNat + i < cap) && t.tagAt (a.toNat + i) != s) then
      .mismatch t.ref dst
    else if a.toNat % ks != 0 || d.toNat % kd != 0 || decide (cap < a.toNat + ks) || decide (cap < d.toNat + kd) then .illegal
    else
      let es := ((t.valuesAt a.toNat s vs).map (elems s)).flatten
      let rs := es.map (convElem s tgt rm sat)
      let vals := (runs (elemN tgt) vd (rs.map (·.1))).map (join tgt)
      floatOut t (rs.foldl (fun acc r => acc.union r.2) {}) { bits := BitVec.ofNat 128 (vals.headD 0), tag := tgt }
        (writes t.ref d.toNat ((vals.map (valRegs tgt)).flatten))

def execCvt (d a : Reg) (sat : Bool) (rm : Rm) (tgt : Tag) (s : State) : Host.Outcome State Fault Refusal :=
  runWord (cvtSem d a sat rm tgt) s

end Sys2Proof.Machine
end

