-- ==== Sys2Proof/Machine/Integer.lean ====
section
/-! DEFINITION. Integer words of the I pipe: arithmetic, bitwise, shifts, bit fields, compare and select (21 R302-R306, R311;
22 R334-R336, R338; 23 R347, R353, R359, R360). -/

namespace Sys2Proof.Machine

/-- The mould of two sources under one tag (R334, R302). -/
def alu2 (acc : Tag → Bool) (op : Tag → Nat → Nat → Nat) (d a b : Reg) (t : Thread) : LaneOut :=
  match mould acc true [a.toNat, b.toNat] [d.toNat, a.toNat, b.toNat] t with
  | .error c => .ofCause c t.ref (.regs d.toNat (t.tagAt a.toNat) 1)
  | .ok tag => .value t.ref d.toNat tag (op tag (t.valAt a.toNat) (t.valAt b.toNat))

/-- The mould of one source. -/
def alu1 (acc : Tag → Bool) (op : Tag → Nat → Nat) (d a : Reg) (t : Thread) : LaneOut :=
  match mould acc true [a.toNat] [d.toNat, a.toNat] t with
  | .error c => .ofCause c t.ref (.regs d.toNat (t.tagAt a.toNat) 1)
  | .ok tag => .value t.ref d.toNat tag (op tag (t.valAt a.toNat))

/-- The shift mould (R360): the tag checks, the amount's among them, come before the alignment. -/
def shift (op : Nat → Nat → Nat → Nat) (d a : Reg) (n : Option Nat) (t : Thread) : LaneOut :=
  match n with
  | none => .mismatch t.ref (.regs d.toNat (t.tagAt a.toNat) 1)
  | some k =>
    match mould Tag.isInt false [a.toNat] [d.toNat, a.toNat] t with
    | .error c => .ofCause c t.ref (.regs d.toNat (t.tagAt a.toNat) 1)
    | .ok tag => .value t.ref d.toNat tag (packI1 tag (op k) (t.valAt a.toNat))

/-- The immediate of IADD under a tag (R335): sign-extended, or bits 7:0 in each element of I8x4. -/
def iaddImmValue (tag : Tag) (i : BitVec 11) : Nat :=
  match tag with
  | .i8x4 => join .i8x4 (List.replicate 4 (i.toNat % 256))
  | g => ofS g.width i.toInt

/-- BFX (R305): the field of `x`, bits at or above `w` reading zero. -/
def bitField (w x pos len : Nat) (sx : Bool) : Nat :=
  let f := x / 2 ^ pos % 2 ^ len
  if sx && decide (0 < len) && f / 2 ^ (len - 1) % 2 == 1 then f + (2 ^ w - 2 ^ len) else f

/-- BFI (R305): the low bits of `x` into the field of `d`, never at or above `w`. -/
def bitInsert (w d x pos len : Nat) : Nat :=
  let n := min len (w - pos)
  d % 2 ^ pos + x % 2 ^ n * 2 ^ pos + d / 2 ^ (pos + n) * 2 ^ (pos + n)

/-- Control operand of BFX and BFI (R304): POS, LEN, SX. -/
def fieldPos (b : Nat) : Nat := b % 128
def fieldLen (b w : Nat) : Nat := min (b / 2 ^ 8 % 128) w
def fieldSx (b : Nat) : Bool := b / 2 ^ 16 % 2 == 1

/-- Byte permute (R306). -/
def bytePermute (sel a b : Nat) : Nat :=
  let c := b * 2 ^ 32 + a
  joinW 8 ((List.range 4).map fun i =>
    let s := sel / 2 ^ (4 * i) % 16
    let x := c / 2 ^ (8 * (s % 8)) % 256
    if s / 8 == 1 then (if 128 ≤ x then 255 else 0) else x)

/-! ### The integer mould (R334) -/

/-- IADD (R334). -/
def iaddRegSem (d a b : Reg) : WordSem :=
  laneWord (.iaddReg d a b) fun _ _ t =>
    alu2 Tag.isInt (fun g => packI g iAdd) d a b t

def execIaddReg (d a b : Reg) (s : State) : Host.Outcome State Fault Refusal :=
  runWord (iaddRegSem d a b) s

/-- ISUB (R334). -/
def isubSem (d a b : Reg) : WordSem :=
  laneWord (.isub d a b) fun _ _ t =>
    alu2 Tag.isInt (fun g => packI g iSub) d a b t

def execIsub (d a b : Reg) (s : State) : Host.Outcome State Fault Refusal :=
  runWord (isubSem d a b) s

/-- IMUL (R334). -/
def imulSem (d a b : Reg) : WordSem :=
  laneWord (.imul d a b) fun _ _ t =>
    alu2 Tag.isInt (fun g => packI g iMul) d a b t

def execImul (d a b : Reg) (s : State) : Host.Outcome State Fault Refusal :=
  runWord (imulSem d a b) s

/-- IMULH (R334). -/
def imulhSem (d a b : Reg) : WordSem :=
  laneWord (.imulh d a b) fun _ _ t =>
    alu2 Tag.isInt (fun g => packI g iMulh) d a b t

def execImulh (d a b : Reg) (s : State) : Host.Outcome State Fault Refusal :=
  runWord (imulhSem d a b) s

/-- IMIN (R334). -/
def iminSem (d a b : Reg) : WordSem :=
  laneWord (.imin d a b) fun _ _ t =>
    alu2 Tag.isInt (fun g => packI g iMin) d a b t

def execImin (d a b : Reg) (s : State) : Host.Outcome State Fault Refusal :=
  runWord (iminSem d a b) s

/-- IMAX (R334). -/
def imaxSem (d a b : Reg) : WordSem :=
  laneWord (.imax d a b) fun _ _ t =>
    alu2 Tag.isInt (fun g => packI g iMax) d a b t

def execImax (d a b : Reg) (s : State) : Host.Outcome State Fault Refusal :=
  runWord (imaxSem d a b) s

/-- IABS (R334). -/
def iabsSem (d a : Reg) : WordSem :=
  laneWord (.iabs d a) fun _ _ t =>
    alu1 Tag.isInt (fun g => packI1 g iAbs) d a t

def execIabs (d a : Reg) (s : State) : Host.Outcome State Fault Refusal :=
  runWord (iabsSem d a) s

/-- IADD with an immediate (R335). -/
def iaddImmSem (d a : Reg) (i : BitVec 11) : WordSem :=
  laneWord (.iaddImm d a i) fun _ _ t =>
    alu1 Tag.isInt (fun g x => packI g iAdd x (iaddImmValue g i)) d a t

def execIaddImm (d a : Reg) (i : BitVec 11) (s : State) : Host.Outcome State Fault Refusal :=
  runWord (iaddImmSem d a i) s

/-- IMAD (R336): D is a source. -/
def imadSem (d a b : Reg) : WordSem :=
  laneWord (.imad d a b) fun _ _ t =>
    match mould Tag.isInt true [a.toNat, b.toNat, d.toNat] [d.toNat, a.toNat, b.toNat] t with
    | .error c => .ofCause c t.ref (.regs d.toNat (t.tagAt a.toNat) 1)
    | .ok tag => .value t.ref d.toNat tag
        (packI tag iAdd (packI tag iMul (t.valAt a.toNat) (t.valAt b.toNat)) (t.valAt d.toNat))

def execImad (d a b : Reg) (s : State) : Host.Outcome State Fault Refusal :=
  runWord (imadSem d a b) s

/-! ### Bitwise (R302, R347) -/

/-- AND (R302). -/
def andRegSem (d a b : Reg) : WordSem :=
  laneWord (.andReg d a b) fun _ _ t =>
    alu2 Tag.isData (fun _ x y => x &&& y) d a b t

def execAndReg (d a b : Reg) (s : State) : Host.Outcome State Fault Refusal :=
  runWord (andRegSem d a b) s

/-- OR (R302). -/
def orRegSem (d a b : Reg) : WordSem :=
  laneWord (.orReg d a b) fun _ _ t =>
    alu2 Tag.isData (fun _ x y => x ||| y) d a b t

def execOrReg (d a b : Reg) (s : State) : Host.Outcome State Fault Refusal :=
  runWord (orRegSem d a b) s

/-- XOR (R302). -/
def xorRegSem (d a b : Reg) : WordSem :=
  laneWord (.xorReg d a b) fun _ _ t =>
    alu2 Tag.isData (fun _ x y => x ^^^ y) d a b t

def execXorReg (d a b : Reg) (s : State) : Host.Outcome State Fault Refusal :=
  runWord (xorRegSem d a b) s

/-- AND with an immediate (R302). -/
def andImmSem (d a : Reg) (i : BitVec 9) : WordSem :=
  laneWord (.andImm d a i) fun _ _ t =>
    alu1 Tag.isData (fun _ x => x &&& i.toNat) d a t

def execAndImm (d a : Reg) (i : BitVec 9) (s : State) : Host.Outcome State Fault Refusal :=
  runWord (andImmSem d a i) s

/-- OR with an immediate (R302). -/
def orImmSem (d a : Reg) (i : BitVec 9) : WordSem :=
  laneWord (.orImm d a i) fun _ _ t =>
    alu1 Tag.isData (fun _ x => x ||| i.toNat) d a t

def execOrImm (d a : Reg) (i : BitVec 9) (s : State) : Host.Outcome State Fault Refusal :=
  runWord (orImmSem d a i) s

/-- XOR with an immediate (R302). -/
def xorImmSem (d a : Reg) (i : BitVec 9) : WordSem :=
  laneWord (.xorImm d a i) fun _ _ t =>
    alu1 Tag.isData (fun _ x => x ^^^ i.toNat) d a t

def execXorImm (d a : Reg) (i : BitVec 9) (s : State) : Host.Outcome State Fault Refusal :=
  runWord (xorImmSem d a i) s

/-- NOT (R347). -/
def inotSem (d a : Reg) : WordSem :=
  laneWord (.inot d a) fun _ _ t =>
    alu1 Tag.isData (fun g x => 2 ^ g.width - 1 - x) d a t

def execInot (d a : Reg) (s : State) : Host.Outcome State Fault Refusal :=
  runWord (inotSem d a) s

/-! ### Shifts (R360) -/

/-- SHL by a register (R360). -/
def shlRegSem (d a b : Reg) : WordSem :=
  laneWord (.shlReg d a b) fun _ _ t =>
    shift iShl d a (t.i32At b) t

def execShlReg (d a b : Reg) (s : State) : Host.Outcome State Fault Refusal :=
  runWord (shlRegSem d a b) s

/-- SHL by an immediate (R360). -/
def shlImmSem (d a : Reg) (n : BitVec 6) : WordSem :=
  laneWord (.shlImm d a n) fun _ _ t =>
    shift iShl d a (some n.toNat) t

def execShlImm (d a : Reg) (n : BitVec 6) (s : State) : Host.Outcome State Fault Refusal :=
  runWord (shlImmSem d a n) s

/-- SHR by a register (R360). -/
def shrRegSem (d a b : Reg) : WordSem :=
  laneWord (.shrReg d a b) fun _ _ t =>
    shift iShr d a (t.i32At b) t

def execShrReg (d a b : Reg) (s : State) : Host.Outcome State Fault Refusal :=
  runWord (shrRegSem d a b) s

/-- SHR by an immediate (R360). -/
def shrImmSem (d a : Reg) (n : BitVec 6) : WordSem :=
  laneWord (.shrImm d a n) fun _ _ t =>
    shift iShr d a (some n.toNat) t

def execShrImm (d a : Reg) (n : BitVec 6) (s : State) : Host.Outcome State Fault Refusal :=
  runWord (shrImmSem d a n) s

/-- SHA by a register (R360). -/
def shaRegSem (d a b : Reg) : WordSem :=
  laneWord (.shaReg d a b) fun _ _ t =>
    shift iSha d a (t.i32At b) t

def execShaReg (d a b : Reg) (s : State) : Host.Outcome State Fault Refusal :=
  runWord (shaRegSem d a b) s

/-- SHA by an immediate (R360). -/
def shaImmSem (d a : Reg) (n : BitVec 6) : WordSem :=
  laneWord (.shaImm d a n) fun _ _ t =>
    shift iSha d a (some n.toNat) t

def execShaImm (d a : Reg) (n : BitVec 6) (s : State) : Host.Outcome State Fault Refusal :=
  runWord (shaImmSem d a n) s

/-! ### Bits (R304-R306, R311, R353) -/

/-- CLZ (R311). -/
def clzSem (d a : Reg) : WordSem :=
  laneWord (.clz d a) fun _ _ t =>
    alu1 Tag.isInt (fun g => packI1 g iClz) d a t

def execClz (d a : Reg) (s : State) : Host.Outcome State Fault Refusal :=
  runWord (clzSem d a) s

/-- POPC (R353). -/
def popcSem (d a : Reg) : WordSem :=
  laneWord (.popc d a) fun _ _ t =>
    alu1 Tag.isInt (fun g => packI1 g iPop) d a t

def execPopc (d a : Reg) (s : State) : Host.Outcome State Fault Refusal :=
  runWord (popcSem d a) s

/-- BFX (R304, R305). -/
def bfxSem (d a b : Reg) : WordSem :=
  laneWord (.bfx d a b) fun _ _ t =>
    let dst : Dst := .regs d.toNat (t.tagAt a.toNat) 1
    match mould Tag.isData true [a.toNat] [d.toNat, a.toNat] t with
    | .error c => .ofCause c t.ref dst
    | .ok tag =>
      match t.i32At b with
      | none => .mismatch t.ref dst
      | some k => .value t.ref d.toNat tag
          (bitField tag.width (t.valAt a.toNat) (fieldPos k) (fieldLen k tag.width) (fieldSx k))

def execBfx (d a b : Reg) (s : State) : Host.Outcome State Fault Refusal :=
  runWord (bfxSem d a b) s

/-- BFI (R304, R305): D is a source. -/
def bfiSem (d a b : Reg) : WordSem :=
  laneWord (.bfi d a b) fun _ _ t =>
    let dst : Dst := .regs d.toNat (t.tagAt a.toNat) 1
    match mould Tag.isData true [a.toNat, d.toNat] [d.toNat, a.toNat] t with
    | .error c => .ofCause c t.ref dst
    | .ok tag =>
      match t.i32At b with
      | none => .mismatch t.ref dst
      | some k => .value t.ref d.toNat tag
          (bitInsert tag.width (t.valAt d.toNat) (t.valAt a.toNat) (fieldPos k) (fieldLen k tag.width))

def execBfi (d a b : Reg) (s : State) : Host.Outcome State Fault Refusal :=
  runWord (bfiSem d a b) s

/-- BPRM (R306): D holds the selector, tagged I32. -/
def bprmSem (d a b : Reg) : WordSem :=
  laneWord (.bprm d a b) fun _ _ t =>
    let tag := t.tagAt a.toNat
    if tag.isData && tag.regs == 1 && t.tagAt b.toNat == tag && t.tagAt d.toNat == .i32 then
      .value t.ref d.toNat tag
        (bytePermute (t.reg d.toNat).bits.toNat (t.reg a.toNat).bits.toNat (t.reg b.toNat).bits.toNat)
    else .mismatch t.ref (.regs d.toNat .i32 1)

def execBprm (d a b : Reg) (s : State) : Host.Outcome State Fault Refusal :=
  runWord (bprmSem d a b) s

/-! ### Compare and select (R338, R359) -/

/-- ISET (R338): every element must meet the condition. -/
def isetSem (k : KIx) (a b : Reg) (f : Cond) : WordSem :=
  laneWord (.iset k a b f) fun _ _ t =>
    match mould Tag.isInt true [a.toNat, b.toNat] [a.toNat, b.toNat] t with
    | .error c => .ofCause c t.ref (.pred k)
    | .ok tag => .predicate t.ref k
        (((elems tag (t.valAt a.toNat)).zip (elems tag (t.valAt b.toNat))).all fun p => iCmp f (elemW tag) p.1 p.2)

def execIset (k : KIx) (a b : Reg) (f : Cond) (s : State) : Host.Outcome State Fault Refusal :=
  runWord (isetSem k a b f) s

/-- SEL (R359): the tag checks come before the alignment. -/
def selSem (d a b : Reg) (k : KIx) : WordSem :=
  laneWord (.sel d a b k) fun _ _ t =>
    match mould Tag.isData false [a.toNat, b.toNat] [d.toNat, a.toNat, b.toNat] t with
    | .error c => .ofCause c t.ref (.regs d.toNat (t.tagAt a.toNat) 1)
    | .ok tag => .value t.ref d.toNat tag (if t.pred k then t.valAt a.toNat else t.valAt b.toNat)

def execSel (d a b : Reg) (k : KIx) (s : State) : Host.Outcome State Fault Refusal :=
  runWord (selSem d a b k) s

end Sys2Proof.Machine
end

