-- ==== Sys2Proof/Machine/Dispatch.lean ====
section
/-! DEFINITION. One arm for every constructor of Instr: the call of its meaning. -/

namespace Sys2Proof.Machine

def exec (i : Instr) (s : State) : Host.Outcome State Fault Refusal :=
  match i with
  | .acas d a b => Sys2Proof.Machine.execAcas d a b s
  | .amo d a b f => Sys2Proof.Machine.execAmo d a b f s
  | .andReg d a b => Sys2Proof.Machine.execAndReg d a b s
  | .andImm d a imm => Sys2Proof.Machine.execAndImm d a imm s
  | .apst a b f => Sys2Proof.Machine.execApst a b f s
  | .bfx d a b => Sys2Proof.Machine.execBfx d a b s
  | .bfi d a b => Sys2Proof.Machine.execBfi d a b s
  | .bprm d a b => Sys2Proof.Machine.execBprm d a b s
  | .br h k n disp => Sys2Proof.Machine.execBr h k n disp s
  | .call h k n disp => Sys2Proof.Machine.execCall h k n disp s
  | .brk code => Sys2Proof.Machine.execBrk code s
  | .brx a => Sys2Proof.Machine.execBrx a s
  | .clz d a => Sys2Proof.Machine.execClz d a s
  | .cvt d a sat rm tgt => Sys2Proof.Machine.execCvt d a sat rm tgt s
  | .dcmd n a => Sys2Proof.Machine.execDcmd n a s
  | .dot4 d a b => Sys2Proof.Machine.execDot4 d a b s
  | .dqry d => Sys2Proof.Machine.execDqry d s
  | .enrl n => Sys2Proof.Machine.execEnrl n s
  | .park n => Sys2Proof.Machine.execPark n s
  | .strk n => Sys2Proof.Machine.execStrk n s
  | .exit => Sys2Proof.Machine.execExit s
  | .fadd d a b => Sys2Proof.Machine.execFadd d a b s
  | .fsub d a b => Sys2Proof.Machine.execFsub d a b s
  | .fmul d a b => Sys2Proof.Machine.execFmul d a b s
  | .fmin d a b => Sys2Proof.Machine.execFmin d a b s
  | .fmax d a b => Sys2Proof.Machine.execFmax d a b s
  | .fdiv d a b => Sys2Proof.Machine.execFdiv d a b s
  | .fcls d a => Sys2Proof.Machine.execFcls d a s
  | .ffma d a b => Sys2Proof.Machine.execFfma d a b s
  | .frcp d a => Sys2Proof.Machine.execFrcp d a s
  | .frsq d a => Sys2Proof.Machine.execFrsq d a s
  | .fsqrt d a => Sys2Proof.Machine.execFsqrt d a s
  | .fex2 d a => Sys2Proof.Machine.execFex2 d a s
  | .flg2 d a => Sys2Proof.Machine.execFlg2 d a s
  | .fsin d a => Sys2Proof.Machine.execFsin d a s
  | .fcos d a => Sys2Proof.Machine.execFcos d a s
  | .fset k a b f => Sys2Proof.Machine.execFset k a b f s
  | .gred d a o => Sys2Proof.Machine.execGred d a o s
  | .gsr d n => Sys2Proof.Machine.execGsr d n s
  | .hrdi d a b => Sys2Proof.Machine.execHrdi d a b s
  | .hrda d a b => Sys2Proof.Machine.execHrda d a b s
  | .hrdw a b => Sys2Proof.Machine.execHrdw a b s
  | .iaddReg d a b => Sys2Proof.Machine.execIaddReg d a b s
  | .iaddImm d a imm => Sys2Proof.Machine.execIaddImm d a imm s
  | .isub d a b => Sys2Proof.Machine.execIsub d a b s
  | .imul d a b => Sys2Proof.Machine.execImul d a b s
  | .imulh d a b => Sys2Proof.Machine.execImulh d a b s
  | .imin d a b => Sys2Proof.Machine.execImin d a b s
  | .imax d a b => Sys2Proof.Machine.execImax d a b s
  | .iabs d a => Sys2Proof.Machine.execIabs d a s
  | .imad d a b => Sys2Proof.Machine.execImad d a b s
  | .invt m => Sys2Proof.Machine.execInvt m s
  | .iset k a b f => Sys2Proof.Machine.execIset k a b f s
  | .ld d a h t o => Sys2Proof.Machine.execLd d a h t o s
  | .ldb d a refetch t k => Sys2Proof.Machine.execLdb d a refetch t k s
  | .lnch d a => Sys2Proof.Machine.execLnch d a s
  | .mov d a st => Sys2Proof.Machine.execMov d a st s
  | .movh d imm => Sys2Proof.Machine.execMovh d imm s
  | .movi d imm ext => Sys2Proof.Machine.execMovi d imm ext s
  | .nop => Sys2Proof.Machine.execNop s
  | .inot d a => Sys2Proof.Machine.execInot d a s
  | .orReg d a b => Sys2Proof.Machine.execOrReg d a b s
  | .orImm d a imm => Sys2Proof.Machine.execOrImm d a imm s
  | .xorReg d a b => Sys2Proof.Machine.execXorReg d a b s
  | .xorImm d a imm => Sys2Proof.Machine.execXorImm d a imm s
  | .pack d a b => Sys2Proof.Machine.execPack d a b s
  | .unpk d a => Sys2Proof.Machine.execUnpk d a s
  | .phse st => Sys2Proof.Machine.execPhse st s
  | .prel st => Sys2Proof.Machine.execPrel st s
  | .pacq st => Sys2Proof.Machine.execPacq st s
  | .pfch a h t o => Sys2Proof.Machine.execPfch a h t o s
  | .popc d a => Sys2Proof.Machine.execPopc d a s
  | .qswp d a x => Sys2Proof.Machine.execQswp d a x s
  | .qbrd d a imm => Sys2Proof.Machine.execQbrd d a imm s
  | .shfl d a b => Sys2Proof.Machine.execShfl d a b s
  | .vote dst k => Sys2Proof.Machine.execVote dst k s
  | .ret a => Sys2Proof.Machine.execRet a s
  | .rtag d a t => Sys2Proof.Machine.execRtag d a t s
  | .rte sub => Sys2Proof.Machine.execRte sub s
  | .scpg idx a => Sys2Proof.Machine.execScpg idx a s
  | .sel d a b k => Sys2Proof.Machine.execSel d a b k s
  | .shlReg d a b => Sys2Proof.Machine.execShlReg d a b s
  | .shrReg d a b => Sys2Proof.Machine.execShrReg d a b s
  | .shaReg d a b => Sys2Proof.Machine.execShaReg d a b s
  | .shlImm d a n => Sys2Proof.Machine.execShlImm d a n s
  | .shrImm d a n => Sys2Proof.Machine.execShrImm d a n s
  | .shaImm d a n => Sys2Proof.Machine.execShaImm d a n s
  | .ssr d n => Sys2Proof.Machine.execSsr d n s
  | .st d a h t o => Sys2Proof.Machine.execSt d a h t o s
  | .svc num a => Sys2Proof.Machine.execSvc num a s
  | .time d => Sys2Proof.Machine.execTime d s
  | .trap code => Sys2Proof.Machine.execTrap code s
  | .tmma td a b ru ext => Sys2Proof.Machine.execTmma td a b ru ext s
  | .tzro td t => Sys2Proof.Machine.execTzro td t s
  | .tld td t b => Sys2Proof.Machine.execTld td t b s
  | .tst td b => Sys2Proof.Machine.execTst td b s
  | .tcvt td ta t rm => Sys2Proof.Machine.execTcvt td ta t rm s
  | .trdr td a g => Sys2Proof.Machine.execTrdr td a g s
  | .twrr td a g => Sys2Proof.Machine.execTwrr td a g s
  | .tscl td a => Sys2Proof.Machine.execTscl td a s
  | .tred td a o => Sys2Proof.Machine.execTred td a o s
  | .tspl td a b => Sys2Proof.Machine.execTspl td a b s
  | .tfch td a b => Sys2Proof.Machine.execTfch td a b s
  | .waita k a b f timeout => Sys2Proof.Machine.execWaita k a b f timeout s
  | .waitc l st d t => Sys2Proof.Machine.execWaitc l st d t s
  | .xadd d a b t n => Sys2Proof.Machine.execXadd d a b t n s
  | .xsub d a b t n => Sys2Proof.Machine.execXsub d a b t n s
  | .xmul d a b t n => Sys2Proof.Machine.execXmul d a b t n s
  | .xfma d a b t n => Sys2Proof.Machine.execXfma d a b t n s
  | .xmin d a b t n => Sys2Proof.Machine.execXmin d a b t n s
  | .xmax d a b t n => Sys2Proof.Machine.execXmax d a b t n s
  | .xfil d a t n => Sys2Proof.Machine.execXfil d a t n s
  | .xfen => Sys2Proof.Machine.execXfen s
  | .xqry d a => Sys2Proof.Machine.execXqry d a s
  | .xsht d a b => Sys2Proof.Machine.execXsht d a b s
  | .yild => Sys2Proof.Machine.execYild s
  | .regroup core sub => Sys2Proof.Machine.execRegroup core sub s
  | .loadReturn t op => Sys2Proof.Machine.execLoadReturn t op s
  | .storeComplete t op => Sys2Proof.Machine.execStoreComplete t op s
  | .updtPartialEvict core line => Sys2Proof.Machine.execUpdtPartialEvict core line s
  | .ownershipUpgrade core line => Sys2Proof.Machine.execOwnershipUpgrade core line s
  | .lineRecall line => Sys2Proof.Machine.execLineRecall line s
  | .mirrorPush die region => Sys2Proof.Machine.execMirrorPush die region s
  | .waitaWake t => Sys2Proof.Machine.execWaitaWake t s
  | .waitaTimeout t => Sys2Proof.Machine.execWaitaTimeout t s
  | .monitorPoll t => Sys2Proof.Machine.execMonitorPoll t s
  | .hrdwWake t => Sys2Proof.Machine.execHrdwWake t s
  | .droverAccept team => Sys2Proof.Machine.execDroverAccept team s
  | .lin cmd => Sys2Proof.Machine.execLin cmd s
  | .fill cmd => Sys2Proof.Machine.execFill cmd s
  | .ten2 cmd => Sys2Proof.Machine.execTen2 cmd s
  | .ten3 cmd => Sys2Proof.Machine.execTen3 cmd s
  | .gath cmd => Sys2Proof.Machine.execGath cmd s
  | .idxr cmd => Sys2Proof.Machine.execIdxr cmd s
  | .rowc cmd => Sys2Proof.Machine.execRowc cmd s
  | .rowz cmd => Sys2Proof.Machine.execRowz cmd s
  | .coll cmd agree peers => Sys2Proof.Machine.execColl cmd agree peers s
  | .droverStamp cmd => Sys2Proof.Machine.execDroverStamp cmd s
  | .payloadLand cmd piece => Sys2Proof.Machine.execPayloadLand cmd piece s
  | .droverCommandEnd cmd => Sys2Proof.Machine.execDroverCommandEnd cmd s
  | .chunkArrival core sub => Sys2Proof.Machine.execChunkArrival core sub s
  | .xshtDrainDone t op => Sys2Proof.Machine.execXshtDrainDone t op s
  | .handlerEntry t => Sys2Proof.Machine.execHandlerEntry t s
  | .impreciseFaultDetect team => Sys2Proof.Machine.execImpreciseFaultDetect team s
  | .teamRetire team => Sys2Proof.Machine.execTeamRetire team s
  | .gridComplete launch => Sys2Proof.Machine.execGridComplete launch s
  | .launchEligible launch => Sys2Proof.Machine.execLaunchEligible launch s
  | .foldPlace => Sys2Proof.Machine.execFoldPlace s
  | .priorityWaitExpiry launch => Sys2Proof.Machine.execPriorityWaitExpiry launch s
  | .preemptRequest team => Sys2Proof.Machine.execPreemptRequest team s
  | .drainTimeout team => Sys2Proof.Machine.execDrainTimeout team s
  | .deferTimeout team => Sys2Proof.Machine.execDeferTimeout team s
  | .deferClear team => Sys2Proof.Machine.execDeferClear team s
  | .teamSave team => Sys2Proof.Machine.execTeamSave team s
  | .teamRestore team fillFault => Sys2Proof.Machine.execTeamRestore team fillFault s
  | .contextTeardown ctx => Sys2Proof.Machine.execContextTeardown ctx s
  | .uncorrectableError at_ what => Sys2Proof.Machine.execUncorrectableError at_ what s
  | .correctableError at_ line => Sys2Proof.Machine.execCorrectableError at_ line s
  | .peerUnreachable peer => Sys2Proof.Machine.execPeerUnreachable peer s
  | .serviceResult batch => Sys2Proof.Machine.execServiceResult batch s
  | .nullService batch => Sys2Proof.Machine.execNullService batch s
  | .wallclock batch => Sys2Proof.Machine.execWallclock batch s
  | .moduleService batch => Sys2Proof.Machine.execModuleService batch s
  | .execmap batch => Sys2Proof.Machine.execExecmap batch s
  | .shepherdKilled die => Sys2Proof.Machine.execShepherdKilled die s
  | .mailboxRequest box => Sys2Proof.Machine.execMailboxRequest box s
  | .chipletAccess acc => Sys2Proof.Machine.execChipletAccess acc s
  | .hostBarAccess port acc => Sys2Proof.Machine.execHostBarAccess port acc s
  | .svcon entry arg => Sys2Proof.Machine.execSvcon entry arg s
  | .svcoff => Sys2Proof.Machine.execSvcoff s
  | .submit pa => Sys2Proof.Machine.execSubmit pa s
  | .loadobj pa ctx codeBase dataBase => Sys2Proof.Machine.execLoadobj pa ctx codeBase dataBase s
  | .unloadobj obj ctx => Sys2Proof.Machine.execUnloadobj obj ctx s
  | .advsvn n => Sys2Proof.Machine.execAdvsvn n s
  | .keyEnrolment key signedByOwner => Sys2Proof.Machine.execKeyEnrolment key signedByOwner s
  | .enterAttested nonce => Sys2Proof.Machine.execEnterAttested nonce s
  | .contextDescriptorChange desc => Sys2Proof.Machine.execContextDescriptorChange desc s
  | .debugStateSet d => Sys2Proof.Machine.execDebugStateSet d s
  | .debugHalt ctx => Sys2Proof.Machine.execDebugHalt ctx s
  | .debugResume r => Sys2Proof.Machine.execDebugResume r s
  | .powerStateRequest state dies wait => Sys2Proof.Machine.execPowerStateRequest state dies wait s
  | .powerRequestTimeout => Sys2Proof.Machine.execPowerRequestTimeout s
  | .wakeToRun => Sys2Proof.Machine.execWakeToRun s
  | .powerCapSet watts => Sys2Proof.Machine.execPowerCapSet watts s
  | .powerOn report => Sys2Proof.Machine.execPowerOn report s
  | .startTimeout => Sys2Proof.Machine.execStartTimeout s
  | .clearFails => Sys2Proof.Machine.execClearFails s
  | .recoveryImageWrite => Sys2Proof.Machine.execRecoveryImageWrite s
  | .thermalLimit above => Sys2Proof.Machine.execThermalLimit above s
  | .coolantPowerRemoval => Sys2Proof.Machine.execCoolantPowerRemoval s
  | .errorCounterClear at_ => Sys2Proof.Machine.execErrorCounterClear at_ s
  | .tileOperationComplete core sub => Sys2Proof.Machine.execTileOperationComplete core sub s
  | .walkComplete die ctx va => Sys2Proof.Machine.execWalkComplete die ctx va s
  | .publicationComplete t => Sys2Proof.Machine.execPublicationComplete t s
  | .startComplete => Sys2Proof.Machine.execStartComplete s
  | .drovewayRequest acc => Sys2Proof.Machine.execDrovewayRequest acc s
  | .multicastInvalidation line => Sys2Proof.Machine.execMulticastInvalidation line s
  | .fuseBlow f => Sys2Proof.Machine.execFuseBlow f s

end Sys2Proof.Machine
end

