-- ==== Sys2Proof/Machine/Sem.lean ====
section
/-! DEFINITION. The word that an instruction is in a chain, whatever stands beside it (04 R75). -/

namespace Sys2Proof

/-- Whether an operation is no instruction word: it is an event of the part. -/
def Instr.isEvent (i : Instr) : Bool := (encode i).isEmpty

end Sys2Proof

namespace Sys2Proof.Machine

/-- The meaning of an instruction word under a debug state; an event is no word and does nothing in a chain. -/
def semOf (d : DebugState) (i : Instr) : WordSem :=
  match i with
  | .acas d a b => acasSem d a b
  | .amo d a b f => amoSem d a b f
  | .andReg d a b => andRegSem d a b
  | .andImm d a i => andImmSem d a i
  | .apst a b f => apstSem a b f
  | .bfx d a b => bfxSem d a b
  | .bfi d a b => bfiSem d a b
  | .bprm d a b => bprmSem d a b
  | .br h k n disp => brSem h k n disp
  | .call h k n disp => callSem h k n disp
  | .brk code => brkSem d code
  | .brx a => brxSem a
  | .clz d a => clzSem d a
  | .cvt d a sat rm tgt => cvtSem d a sat rm tgt
  | .dcmd n a => dcmdSem n a
  | .dot4 d a b => dot4Sem d a b
  | .dqry d => dqrySem d
  | .enrl n => enrlSem n
  | .park n => parkSem n
  | .strk n => strkSem n
  | .exit => exitSem
  | .fadd d a b => faddSem d a b
  | .fsub d a b => fsubSem d a b
  | .fmul d a b => fmulSem d a b
  | .fmin d a b => fminSem d a b
  | .fmax d a b => fmaxSem d a b
  | .fdiv d a b => fdivSem d a b
  | .fcls d a => fclsSem d a
  | .ffma d a b => ffmaSem d a b
  | .frcp d a => frcpSem d a
  | .frsq d a => frsqSem d a
  | .fsqrt d a => fsqrtSem d a
  | .fex2 d a => fex2Sem d a
  | .flg2 d a => flg2Sem d a
  | .fsin d a => fsinSem d a
  | .fcos d a => fcosSem d a
  | .fset k a b f => fsetSem k a b f
  | .gred d a o => gredSem d a o
  | .gsr d n => gsrSem d n
  | .hrdi d a b => hrdiSem d a b
  | .hrda d a b => hrdaSem d a b
  | .hrdw a b => hrdwSem a b
  | .iaddReg d a b => iaddRegSem d a b
  | .iaddImm d a i => iaddImmSem d a i
  | .isub d a b => isubSem d a b
  | .imul d a b => imulSem d a b
  | .imulh d a b => imulhSem d a b
  | .imin d a b => iminSem d a b
  | .imax d a b => imaxSem d a b
  | .iabs d a => iabsSem d a
  | .imad d a b => imadSem d a b
  | .invt m => invtSem m
  | .iset k a b f => isetSem k a b f
  | .ld d a h t o => ldSem d a h t o
  | .ldb d a refetch t k => ldbSem d a refetch t k
  | .lnch d a => lnchSem d a
  | .mov d a st => movSem d a st
  | .movh d i => movhSem d i
  | .movi d i ext => moviSem d i ext
  | .nop => nopSem
  | .inot d a => inotSem d a
  | .orReg d a b => orRegSem d a b
  | .orImm d a i => orImmSem d a i
  | .xorReg d a b => xorRegSem d a b
  | .xorImm d a i => xorImmSem d a i
  | .pack d a b => packSem d a b
  | .unpk d a => unpkSem d a
  | .phse st => phseSem st
  | .prel st => prelSem st
  | .pacq st => pacqSem st
  | .pfch a h t o => pfchSem a h t o
  | .popc d a => popcSem d a
  | .qswp d a x => qswpSem d a x
  | .qbrd d a i => qbrdSem d a i
  | .shfl d a b => shflSem d a b
  | .vote dst k => voteSem dst k
  | .ret a => retSem a
  | .rtag d a t => rtagSem d a t
  | .rte sub => rteSem sub
  | .scpg idx a => scpgSem idx a
  | .sel d a b k => selSem d a b k
  | .shlReg d a b => shlRegSem d a b
  | .shrReg d a b => shrRegSem d a b
  | .shaReg d a b => shaRegSem d a b
  | .shlImm d a n => shlImmSem d a n
  | .shrImm d a n => shrImmSem d a n
  | .shaImm d a n => shaImmSem d a n
  | .ssr d n => ssrSem d n
  | .st d a h t o => stSem d a h t o
  | .svc num a => svcSem num a
  | .time d => timeSem d
  | .trap code => trapSem code
  | .tmma td a b ru ext => tmmaSem td a b ru ext
  | .tzro td t => tzroSem td t
  | .tld td t b => tldSem td t b
  | .tst td b => tstSem td b
  | .tcvt td ta t rm => tcvtSem td ta t rm
  | .trdr td a g => trdrSem td a g
  | .twrr td a g => twrrSem td a g
  | .tscl td a => tsclSem td a
  | .tred td a o => tredSem td a o
  | .tspl td a b => tsplSem td a b
  | .tfch td a b => tfchSem td a b
  | .waita k a b f timeout => waitaSem k a b f timeout
  | .waitc l st d t => waitcSem l st d t
  | .xadd d a b t n => xaddSem d a b t n
  | .xsub d a b t n => xsubSem d a b t n
  | .xmul d a b t n => xmulSem d a b t n
  | .xfma d a b t n => xfmaSem d a b t n
  | .xmin d a b t n => xminSem d a b t n
  | .xmax d a b t n => xmaxSem d a b t n
  | .xfil d a t n => xfilSem d a t n
  | .xfen => xfenSem
  | .xqry d a => xqrySem d a
  | .xsht d a b => xshtSem d a b
  | .yild => yildSem
  | i => laneWord i fun _ _ _ => .ok id

/-- A decoded word of a chain in its place. -/
def semAt (d : DebugState) (p : Placed) : WordSem := { semOf d p.instr with off := p.off }

end Sys2Proof.Machine
end

