-- ==== Sys2Proof/Machine/Issue.lean ====
section
/-! DEFINITION. One issue turn of a sub-core: waits that end, hazards at issue, bundles, the picker, instruction fetch and the
chain (02 R24-R28; 04 R73-R76; 06 R111, R115; 15 R234, R235; 16 R244). -/

namespace Sys2Proof.Machine

/-! ### Waits that end (R24) -/

/-- Whether a stalling LDB has returned in every lane that issued it with a thread: they wait as on its destination (R141), hence together
(log 67). -/
def Mach.stallOver (m : Mach) (t : Thread) : Bool :=
  m.threads.all fun x => !(x.ref.team == t.ref.team && x.group == t.group && x.pc == t.pc && x.issued == t.issued)
    || match x.wait with
      | .stall op => x.ops.all fun o => o.id != op
      | _ => true

/-- Free a thread whose wait has ended; XFEN, PHSE and an acquire go on to what they do next (07 R130; 24 R379). -/
def Mach.settleWait (m : Mach) (tm : Team) (t : Thread) : Mach :=
  let free (b : Bool) : Mach := if b then m.updThread t.ref fun x => { x with wait := .ready } else m
  match t.wait with
  | .counts l s d x => free (t.within l s d x)
  | .xfen => if t.within 0 0 0 0 then m.fence t.ref else m
  | .stall _ => free (m.stallOver t)
  | .phse cls upto => m.phseDone tm cls upto
  | .loadsDue cls upto ts => m.loadsIn tm cls upto ts
  | .acquire ts => free (m.mirrorsDone (dieOf tm.core) ts)
  | .drains cs ss => free (m.drained cs ss)
  | _ => m

/-- The groups of a sub-core whose teams issue. -/
def Mach.issuing (m : Mach) (core sub : Nat) : List Group :=
  (m.groupsAt core sub).filter fun g => match m.team? g.team with | some t => t.issues | none => false

/-- The threads of a group. -/
def Mach.members (m : Mach) (g : Group) : List Thread := m.threads.filter fun t => t.ref.team == g.team && t.group == g.index

/-- End the waits of a sub-core's threads that are over. -/
def Mach.settle (m : Mach) (core sub : Nat) : Mach :=
  (m.issuing core sub).foldl (fun m g => match m.team? g.team with
    | some tm => (m.members g).foldl (fun m t => m.settleWait tm t) m
    | none => m) m

/-! ### Fetch (04 R73; 06 R111-R115) -/

/-- What stops a fetch; `space`: a word address outside the space. -/
inductive FetchStop where
  | space (pc : DWord)
  | absent (va : Nat)
  | denied (va : Nat) (l : Leaf)
  | poisoned (va : Nat)
  deriving DecidableEq, Repr

/-- The word address at which a fetch stopped. -/
def FetchStop.word : FetchStop → Nat
  | .space pc => pc.toNat
  | .absent va | .denied va _ | .poisoned va => va / 4

/-- A fetch's translation: the caches, then a walk, which joins one in flight for its page (06 R113). A bundle of helpers causes no team
fault (02 R385). -/
def Mach.fetchLeaf (m : Mach) (tm : Team) (sub va : Nat) : Mach × Option Leaf :=
  m.walkNow (if m.bundle.all fun t => t.helper then [] else [tm.uid]) tm.core sub tm.ctx va true

/-- Fetch one word: its bytes as they stand at the home (log 11). -/
def Mach.fetchWord (m : Mach) (tm : Team) (sub : Nat) (pc : DWord) : Mach × Except FetchStop Word :=
  let va := 4 * pc.toNat
  if 2 ^ 57 ≤ va then (m, .error (.space pc))
  else match m.fetchLeaf tm sub va with
  | (m, none) => (m, .error (.absent va))
  | (m, some l) =>
    if !m.allowed tm.ctx l false true then (m, .error (.denied va l))
    else
      match m.cohRead (l.pa va) 4 with
      | (m, none) => (m, .error (.poisoned va))
      | (m, some bs) => (m, .ok (BitVec.ofNat 32 (leNat bs)))

/-- Fetch a chain: words to the first with C clear, at most `n`, those left in the packet (04 R74). -/
def Mach.fetchChain (m : Mach) (tm : Team) (sub : Nat) (pc : DWord) : Nat → Mach × Except FetchStop (List Word)
  | 0 => (m, .ok [])
  | n + 1 =>
    match m.fetchWord tm sub pc with
    | (m, .error e) => (m, .error e)
    | (m, .ok w) =>
      if w.getLsbD 31 then
        match m.fetchChain tm sub (pc + 1) n with
        | (m, .ok ws) => (m, .ok (w :: ws))
        | (m, .error e) => (m, .error e)
      else (m, .ok [w])

/-- The packet slot of a word address. -/
def slotOf (pc : DWord) : Nat := pc.toNat % 3

/-- The offset in a chain of the word that RTE.sub has replaced in a lane. -/
def Thread.past (t : Thread) (pc : DWord) : Option Nat := t.subst.map fun s => (s.addr - pc).toNat

/-- The chain a thread at some address issues next, past a replaced word; none when its fetch or its decoding fails. -/
def Mach.peek (m : Mach) (tm : Team) (sub : Nat) (pc : DWord) (past : Option Nat) : Option (List Placed) :=
  match (m.fetchChain tm sub pc (3 - slotOf pc)).2 with
  | .error _ => none
  | .ok ws => match decodeChainPast (slotOf pc) past ws with
    | .ok ps _ => some ps
    | .bad .. => none

/-! ### Waits at issue (R234) -/

end Sys2Proof.Machine

namespace Sys2Proof

/-- Store-class words and those that begin a release or a request: they wait while the lane's release has not ended (07 R130),
but for plain words. -/
def Instr.afterRelease : Instr → Bool
  | .st .. | .tst .. | .amo .. | .acas .. | .apst .. | .xadd .. | .xsub .. | .xmul .. | .xfma .. | .xmin .. | .xmax .. | .xfil ..
  | .xsht .. | .hrdi .. | .hrda .. | .dcmd .. | .lnch .. | .svc .. | .tspl .. | .prel .. | .phse .. => true
  | _ => false

/-- Words that wait for the lane's earlier stores to complete (11 R180; 15 R226; 19 R269). -/
def Instr.afterStores : Instr → Bool
  | .dcmd .. | .lnch .. | .svc .. => true
  | _ => false

/-- Escaping words whose operands do not matter (16 R244). -/
def Instr.escapes : Instr → Bool
  | .amo .. | .acas .. | .apst .. | .xadd .. | .xsub .. | .xmul .. | .xfma .. | .xmin .. | .xmax .. | .xfil .. | .prel ..
  | .phse .. | .dcmd .. | .lnch .. | .svc .. | .xsht .. | .scpg .. | .tspl .. | .exit => true
  | _ => false

/-- The tile whose tag a word's checks need (24 R365). -/
def Instr.needsTag : Instr → Option Nat
  | .tmma td .. | .tscl td _ | .tred td .. | .trdr td .. => some td.toNat
  | _ => none

end Sys2Proof

namespace Sys2Proof.Machine

/-- Whether an address lies in another team's scratchpad through 0xFE, or in 0xFF. -/
def Team.foreign (tm : Team) (a : Nat) : Bool :=
  a / 2 ^ 56 == 0xFF || (a / 2 ^ 56 == 0xFE && a / 2 ^ 32 % 16 != tm.index)

/-- Whether a word is escaping in a lane of a bundle (R244): ST by its effective address (04 R80), TST by that of the lowest lane (13
R203). -/
def escaping (tm : Team) (bundle : List Thread) (t : Thread) (i : Instr) : Bool :=
  match i with
  | .st _ a _ g off => match t.pairAt a with | some x => tm.foreign (effective x off (tagBytes g)) | none => false
  | .tst _ a => match (bundle.headD t).pairAt a with | some x => tm.foreign x | none => false
  | i => i.escapes

/-- Whether registers a word touches are still to be written by an operation of the lane (02 R25). -/
def waitsReg (m : Mach) (tm : Team) (bundle : List Thread) (t : Thread) (i : Instr) : Bool :=
  (touched m tm.regs bundle t i).any fun b => t.ops.any fun o => match o.dst.span with
    | some (d, n) => decide (b.1 < d + n) && decide (d < b.1 + b.2)
    | none => false

/-- Tile operations queued at a sub-core. -/
def Mach.tileLoad (m : Mach) (core sub : Nat) : Nat :=
  (m.tileq.filter fun q => q.core == core && q.sub == sub && m.tileHere q).length

/-- Whether a word waits at issue in a lane for something other than a reported fault. -/
def holdsUp (m : Mach) (tm : Team) (sub : Nat) (bundle : List Thread) (t : Thread) (i : Instr) : Bool :=
  waitsReg m tm bundle t i || (t.release.isSome && i.afterRelease) || (i.afterStores && !t.storesDone m.uid)
    || (!i.tiles.isEmpty && decide (4 ≤ m.tileLoad tm.core sub))
    || (match i.needsTag with | some td => (m.tileTag tm sub td).isNone | none => false)

/-- Whether a lane's next chain can issue. -/
def clear (m : Mach) (tm : Team) (sub : Nat) (bundle : List Thread) (t : Thread) (ps : List Placed) : Bool :=
  ps.all fun p => !holdsUp m tm sub bundle t p.instr && !(tm.fp && escaping tm bundle t p.instr)

/-- Lanes by program counter and by the chain they issued last: those of one cell were in one bundle. -/
def cells : List Thread → List (List Thread)
  | [] => []
  | t :: ts =>
    let rest := cells ts
    let here (c : List Thread) : Bool := match c with | x :: _ => x.pc == t.pc && x.issued == t.issued | [] => false
    if rest.any here then rest.map fun c => if here c then t :: c else c else [t] :: rest

/-- Whether no lane of a cell waits at issue: they wait together, so that a bundle's lanes take the results of one word, or an entry
in a queue, as one (log 67; 11 R180, 18 R264, 19 R269). -/
def Mach.cellClear (m : Mach) (tm : Team) (g : Group) (ts : List Thread) : Bool :=
  match ts with
  | [] => true
  | x :: _ =>
    let all := m.peek tm g.sub x.pc none
    ts.all fun t => match (if t.subst.isSome then m.peek tm g.sub x.pc (t.past x.pc) else all) with
      | none => true
      | some ps => clear m tm g.sub ts t ps

/-- The ready lanes of a group whose next chain can issue. -/
def Mach.issuable (m : Mach) (tm : Team) (g : Group) : List Thread :=
  let here := ((m.members g).filter fun t => t.wait == Wait.ready).map fun (t : Thread) => { t with taken := false }
  ((cells here).filter fun c => m.cellClear tm g c).flatten

/-! ### Reports of imprecise faults (R244) -/

/-- The ready lanes of a thread's group that stand at its word, ascending: those that issue it with the thread. -/
def Mach.beside (m : Mach) (t : Thread) : List Thread :=
  m.threads.filter fun x => x.ref.team == t.ref.team && x.group == t.group && x.wait == Wait.ready && x.pc == t.pc && x.issued == t.issued

/-- Whether the thread a fault is attributed to has reached an escaping word. -/
def Mach.atEscape (m : Mach) (tm : Team) (t : Thread) : Bool :=
  t.wait == Wait.ready && (match m.peek tm (m.subOf t.ref) t.pc (t.past t.pc) with
    | some ps => (ps.all fun p => !holdsUp m tm (m.subOf t.ref) (m.beside t) t p.instr)
        && ps.any fun p => escaping tm (m.beside t) t p.instr
    | none => false)

/-! ### Bundles (02 R24, R27) -/

/-- Lanes that can issue by program counter alone. -/
def newBundles (ts : List Thread) : List Word := (partitionPc ts).map fun p => laneSet p.2

/-- The lanes of a mask, ascending. -/
def lanesOf (b : Word) : List Nat := (List.range 32).filter fun i => b.getLsbD i

/-- The threads of a bundle. -/
def Mach.inBundle (m : Mach) (g : Group) (b : Word) : List Thread := (m.members g).filter fun t => b.getLsbD t.lane

/-- Whether a bundle's next chain finds the drover queue entries of its real lanes and its outstanding-request entries (11 R180, 01
R15). -/
def Mach.roomFor (m : Mach) (tm : Team) (g : Group) (ts : List Thread) : Bool :=
  match ts with
  | [] => false
  | t :: _ =>
    match m.peek tm g.sub t.pc (t.past t.pc) with
    | none => true
    | some ps =>
      let entries := (ps.map fun p => match p.instr with
        | .dcmd n _ => n.toNat * (ts.filter fun x => !x.helper).length
        | _ => 0).sum
      let asked := ts.length * (ps.map fun p => p.instr.requests).sum
      decide (entries ≤ tm.freeEntries) && (asked == 0 || decide (m.requestsOut tm.core + asked ≤ Config.outstanding))

/-- The lanes of some bundles. -/
def lanesIn (bs : List Word) : Word := bs.foldl (fun a b => a ||| b) 0

/-- The bundles of a group now: lanes that stopped being ready, or wait for a resource, have left (15 R234), and lanes that became ready
form bundles of their own, one for those of one cycle at one program counter (17 R256). -/
def Mach.bundlesNow (m : Mach) (tm : Team) (g : Group) : List Word :=
  let ok := m.issuable tm g
  let late := laneSet (ok.filter fun t => t.joined == m.clk + 1)
  let kept := (g.bundles.map fun b => b &&& laneSet ok &&& ~~~late).filter fun b => b != 0
  (kept ++ newBundles (ok.filter fun t => !(lanesIn kept).getLsbD t.lane)).filter fun b => m.roomFor tm g (m.inBundle g b)

/-- Bring a group's bundles up to date: lanes that stood in none have become ready in this cycle. -/
def Mach.formBundles (m : Mach) (g : Group) : Mach :=
  match m.team? g.team, m.group? g.team g.index with
  | some tm, some x =>
    let bs := m.bundlesNow tm x
    let came := lanesIn bs &&& ~~~(lanesIn x.bundles)
    let m := m.updGroup g.team g.index fun y => { y with bundles := bs }
    if came == 0 then m
    else { m with threads := m.threads.map fun (t : Thread) =>
      if t.ref.team == g.team && t.group == g.index && came.getLsbD t.lane then { t with joined := m.clk + 1 } else t }
  | _, _ => m

/-- Whether every thread of a team waits, sleeps or is parked (R244): none stands in a bundle. -/
def Mach.allWait (m : Mach) (tm : Team) : Bool :=
  (m.groups.filter fun g => g.team == tm.uid && !g.retired).all fun g => (m.bundlesNow tm g).isEmpty

/-- Report a known fault whose thread has reached an escaping word, or the first when every thread waits. -/
def Mach.reportDue (m : Mach) (u : Nat) : Mach :=
  match m.team? u with
  | none => m
  | some tm =>
    if !tm.fp || !tm.issues then m
    else match tm.known.find? fun i => match i.thread.bind m.thread? with | some t => m.atEscape tm t | none => false with
    | some i => m.reportFault u i
    | none => if m.allWait tm then m.report u else m

/-- Everything before the picker: waits end, due faults are reported, bundles stand. -/
def Mach.beforeIssue (m : Mach) (core sub : Nat) : Mach :=
  let m := m.settle core sub
  let m := (((m.issuing core sub).map fun g => g.team).dedup).foldl (fun m u => m.reportDue u) m
  let m := m.regroup core sub
  (m.issuing core sub).foldl (fun m g => m.formBundles g) m

/-! ### The picker (R235) -/

/-- A candidate of the picker: its group, its lanes and its rank, the lowest first. -/
structure Candidate where
  group : Group
  mask  : Word
  rank  : Nat
  deriving DecidableEq, Repr

/-- The rank of a bundle by R235: its class; for class 0 its age; its slot or its turn; its lanes; its lowest lane. The part of a split
that R29 prefers leads, with lanes that a regroup has merged into it, on the cycle after the split. A bundle whose every lane has yielded
comes last; by 24 R382 one with some such lane does, also as the part of a split: which holds, the model leaves open (log 86). -/
def rankOf (clk last : Nat) (g : Group) (b : Word) (ts : List Thread) : Nat :=
  let age := ts.foldl (fun a t => max a (clk - t.lastIssue)) 0
  let lead := match g.pref with | some p => b &&& p != 0 && decide (clk ≤ g.prefClk + 1) | none => false
  let turn := (g.slot + 7 - last) % 8
  let low := (lanesOf b).headD 0
  let put (cls a s : Nat) : Nat := (((cls * 2 ^ 32 + a) * 8 + s) * 64 + (32 - ts.length)) * 32 + low
  if 1024 ≤ age then put 0 (2 ^ 32 - 1 - min age (2 ^ 32 - 1)) g.slot
  else if (!lead && ts.all fun t => t.yielded) || ((ts.any fun t => t.yielded) && Config.someYield) then put 3 0 turn
  else if lead then put 1 0 turn
  else put 2 0 turn

/-- The candidates of a sub-core. -/
def Mach.candidates (m : Mach) (core sub : Nat) : List Candidate :=
  let last := getAssoc 7 (4 * core + sub) m.lastSlot
  ((m.issuing core sub).map fun g => match m.team? g.team with
    | none => []
    | some _ => g.bundles.filterMap fun b =>
      let ts := m.inBundle g b
      if ts.isEmpty then none else some ({ group := g, mask := b, rank := rankOf m.clk last g b ts } : Candidate)).flatten

/-- The bundle that issues. -/
def Mach.pick (m : Mach) (core sub : Nat) : Option Candidate :=
  (m.candidates core sub).foldl (fun acc c => match acc with
    | none => some c
    | some d => if c.rank < d.rank then some c else some d) none

/-! ### Issue -/

/-- The chosen bundle is the issuing one, its slot the last that issued, and a split's preference is spent. -/
def Mach.atIssue (m : Mach) (core sub : Nat) (c : Candidate) : Mach :=
  let ts := m.inBundle c.group c.mask
  let pc := match ts with | t :: _ => t.pc | [] => 0
  { m with
    lastSlot := setAssoc (4 * core + sub) c.group.slot m.lastSlot
    groups := m.groups.map fun (g : Group) =>
      if g.sub == sub && (m.teamsAt core).any fun t => t.uid == g.team then { g with pref := none } else g
    cur := { team := c.group.team, group := c.group.index, lanes := lanesOf c.mask, pc := pc, words := [] } }

/-- The issuing chain with only some of its lanes. -/
def Mach.only (m : Mach) (ts : List Thread) : Mach := { m with cur := { m.cur with lanes := ts.map fun t => t.lane } }

/-- Put words in the issuing chain. -/
def Mach.withWords (m : Mach) (ws : List Word) : Mach := { m with cur := { m.cur with words := ws } }

/-- The bundle stops at a word that was not fetched: helpers go past it (02 R385). -/
def Mach.passHelpers (m : Mach) : Mach :=
  let helpers := (m.bundle.filter fun t => t.helper).map (·.ref)
  (m.advance helpers (m.wordAddr 1)).rebundle helpers []

/-- A fetch that stops: parked lanes with a record of kind 0, a trap at an address outside the space, or the team's 0x30, which a bundle
of helpers alone does not cause. The word was not fetched, so FLT_INST and a record's INST hold 0 (log 15, DESIGN CHOICE). -/
def Mach.stopFetch (m : Mach) (tm : Team) (e : FetchStop) : Mach :=
  let bundle := m.bundle
  let off := e.word - m.cur.pc.toNat
  let parked (cause va : Nat) (exc : Word) (page bytes : Nat) : Mach :=
    (parkLanes m tm (bundle.map fun t => {
      thread := t, off := off, cause := cause, addr := BitVec.ofNat 64 va, exc := exc, kind := 0
      page := page, bytes := bytes }) m).rebundle [] (bundle.map (·.ref))
  let m := m.withWords []
  match e with
  | .space pc =>
    let failing := (bundle.filter fun t => !t.helper).map fun t =>
      (t, Verdict.trap { nopSem with off := off } 0x11 (BitVec.ofNat 64 (4 * pc.toNat)) 0 sub0 id)
    let helpers := (bundle.filter fun t => t.helper).map (·.ref)
    (takeTraps m tm.regs failing (m.advance helpers (m.wordAddr 1))).rebundle helpers (failing.map (·.1.ref))
  | .absent va => parked 0x10 va (excWord 0 3 0 0 0 false) (va / 4096 * 4096) 4096
  | .denied va l => parked 0x11 va (leafExcWord l 3) (l.page va) l.size
  | .poisoned va =>
    if bundle.all fun t => t.helper then m.passHelpers
    else
      let i : Imprecise := { cause := 0x30, addr := BitVec.ofNat 64 (lineOf va), thread := none }
      if tm.latent.contains i then m else m.meet tm.uid i

/-- A chain that does not decode (04 R74, R87): its lowest offending word strikes every lane. -/
def Mach.badChain (m : Mach) (tm : Team) (off : Nat) : Mach :=
  bundleTrap m tm m.bundle { nopSem with off := off } (m.wordAddr m.cur.words.length)

/-- Append a trace record in TRACE (20 R287, R288). -/
def State.trace (s : State) (cause : Nat) (m : Mach) : State :=
  if s.sys.debug == .trace then
    let r := if s.sys.security == .openState then (s.m.cur.pc, laneSet s.m.bundle, cause) else (s.m.cur.pc, 0, 0)
    { s with m := m.appendTrace r }
  else { s with m := m }

/-- The lowest word that breaks a chain in a lane (04 R73, R76, R87), past the word that RTE.sub has replaced there (16 R243): one that does
not decode, or an earlier one that a decode-time check of the launch strikes; none when the chain can run. With `cut` the words are those
that were fetched before one whose fetch stopped: the last of them may want that one as its extension word. -/
def State.brokenAt (s : State) (tm : Team) (ws : List Word) (cut : Bool) (t : Thread) : Option Nat :=
  let slot := slotOf s.m.cur.pc
  let past := t.past s.m.cur.pc
  let broken (xs : List Word) : Option Nat :=
    match decodeChainPast slot past xs with | .bad o _ => if o < ws.length then some o else none | .ok .. => none
  let bad := if cut then (broken ws).filter fun _ => (broken (ws ++ [BitVec.ofNat 32 (0x3F * 2 ^ 25 + extPlain)])).isSome else broken ws
  let before := (decodeBefore slot (bad.getD ws.length) (pastWords slot past ws)).filter fun p => !s.m.replaced t p.off
  match if cut || bad.isSome then firstStatic s.m tm t [] (before.map (semAt s.sys.debug)) else none with
  | some w => some w.off
  | none => bad

/-- Issue the words of the chosen bundle's chain: a lane that the chain strikes traps at the lowest word that breaks it there; the others
run the chain, or, with a word that could not be fetched, stop as a unit before any of it (04 R73, R76). -/
def State.issueWords (s : State) (tm : Team) (ws : List Word) (stop : Option FetchStop) : State :=
  let at_ := s.m.bundle.map fun t => (t, s.brokenAt tm ws stop.isSome t)
  let trap (s1 : State) (o : Nat) : State :=
    let m := s1.m.only ((at_.filter fun p => p.2 == some o).map (·.1))
    ({ s1 with m := m } : State).trace 1 (m.badChain tm o)
  let go (s1 : State) (rest : List Thread) : State :=
    match rest, stop with
    | [], _ => s1
    | _ :: _, some e => { s1 with m := s1.m.stopFetch tm e }
    | t :: _, none => match decodeChainPast (slotOf s.m.cur.pc) (t.past s.m.cur.pc) ws with
      | .ok ps len => runChainIn (ps.map (semAt s.sys.debug)) len s1
      | .bad .. => s1
  match (at_.filterMap (·.2)).dedup with
  | [] => go s s.m.bundle
  | os =>
    let rest := (at_.filter fun p => p.2.isNone).map (·.1)
    let s1 := os.foldl trap s
    go { s1 with m := s1.m.only rest } rest

/-- Issue the chosen bundle's chain. -/
def State.issueBundle (s : State) (c : Candidate) : State :=
  match s.m.team? c.group.team with
  | none => s
  | some tm =>
    match s.m.fetchChain tm c.group.sub s.m.cur.pc (3 - slotOf s.m.cur.pc) with
    | (m, .ok ws) => ({ s with m := m.withWords ws } : State).issueWords tm ws none
    | (m, .error e) =>
      match m.fetchChain tm c.group.sub m.cur.pc (e.word - m.cur.pc.toNat) with
      | (_, .ok ws) => ({ s with m := m.withWords ws } : State).issueWords tm ws (some e)
      | (_, .error _) => { s with m := m.stopFetch tm e }

/-- Whether a core issues: its die is on and no cycle is withheld (20 R289, R295). -/
def State.powered (s : State) (core : Nat) : Bool :=
  !s.sys.withheld && !s.sys.removed && !s.m.diesOff.contains (dieOf core)

/-- One issue turn of a sub-core. -/
def State.issueTurn (s : State) (core sub : Nat) : State :=
  if s.powered core then
    let m := s.m.beforeIssue core sub
    match m.pick core sub with
    | none => { s with m := m }
    | some c => ({ s with m := m.atIssue core sub c } : State).issueBundle c
  else s

end Sys2Proof.Machine
end

