-- ==== Sys2Proof/Machine/Internal.lean ====
section
/-! DEFINITION. The part's own events: which of them could happen now, and what moves when no turn is laid down (log 2). -/

namespace Sys2Proof.Machine

/-- Events of a thread. -/
def threadEvents (t : Thread) : List Instr :=
  (match t.wait with
    | .entering _ => [.handlerEntry t.ref]
    | .waita _ => [.waitaWake t.ref, .waitaTimeout t.ref, .monitorPoll t.ref]
    | .hrdw .. => [.hrdwWake t.ref]
    | _ => [])
  ++ (if t.release.isSome then [.publicationComplete t.ref] else [])
  ++ (t.ops.map fun o => match o.kind with
    | .load _ | .value _ | .tile .. | .launch .. | .atomic _ => [Instr.loadReturn t.ref o.id]
    | .xsht _ => [Instr.xshtDrainDone t.ref o.id]
    | .store _ => [Instr.storeComplete t.ref o.id]
    | .plain => []).flatten

/-- Events of a team. -/
def teamEvents (t : Team) : List Instr :=
  (if t.qcmds.isEmpty && t.returned.isEmpty then [] else [.droverAccept t.uid])
  ++ (if t.latent.isEmpty then [] else [.impreciseFaultDetect t.uid])
  ++ [.teamRetire t.uid]
  ++ (if t.preempt.isSome then [.deferClear t.uid, .deferTimeout t.uid, .drainTimeout t.uid, .teamSave t.uid] else [])
  ++ (if t.status == .saved then [.teamRestore t.uid false] else [])

/-- Events of a drover command. A collective's partners are outside the module, so COLL comes from the agenda, but for a
collective of one rank. -/
def cmdEvents (c : Cmd) : List Instr :=
  (if c.done then [] else match c.kind with
    | 0 => [.lin c.id] | 1 => [.fill c.id] | 2 => [.ten2 c.id] | 3 => [.ten3 c.id] | 4 => [.gath c.id] | 5 => [.idxr c.id]
    | 6 => [.rowc c.id] | 7 => [.rowz c.id] | 8 => if c.word 1 4 == 1 then [.coll c.id true []] else [] | 9 => [.droverStamp c.id] | _ => [])
  ++ (c.pieces.map fun p => Instr.payloadLand c.id p.id)
  ++ [.droverCommandEnd c.id]

/-- Events of a tile unit. -/
def tileEvents (q : TileOp) : List Instr := [.chunkArrival q.core q.sub, .tileOperationComplete q.core q.sub]

/-- Events of a launch. -/
def launchEvents (l : Launch) : List Instr := [.launchEligible l.uid, .gridComplete l.uid, .priorityWaitExpiry l.uid]

/-- Events of a service batch. -/
def batchEvents (b : Batch) : List Instr :=
  (match b.num with
    | 0 => [.nullService b.id] | 1 => [.wallclock b.id] | 2 => [.moduleService b.id] | _ => [.execmap b.id])
  ++ [.serviceResult b.id, .shepherdKilled b.die]

/-- Events that could happen: those that change nothing now are passed over. -/
def State.events (s : State) : List Instr :=
  let m := s.m
  (m.threads.map threadEvents).flatten ++ (m.walks.map fun w => Instr.walkComplete w.die w.ctx (4096 * w.va))
    ++ (m.tileq.map tileEvents).flatten ++ (m.cmds.map cmdEvents).flatten ++ (m.teams.map teamEvents).flatten
    ++ ((m.mirrors.filter fun e => e.2.2 != m.round e.2.1).map fun e => Instr.mirrorPush e.1 e.2.1)
    ++ ((m.linemeta.filter fun p => m.ownerOf? p.1 == some 0x8C).map fun p => Instr.lineRecall p.1)
    ++ (m.batches.map batchEvents).flatten ++ (m.launches.map launchEvents).flatten
    ++ (if m.services then (List.range 52).map Instr.mailboxRequest else [])
    ++ (match s.sys.powerReq with | some r => [.powerStateRequest r.state r.dies 0, .powerRequestTimeout] | none => [])
    ++ (if s.sys.startClk.isSome then [.startTimeout] else []) ++ [.foldPlace]

/-- Whether an event changes the machine, answers apart. -/
def State.changes (s : State) (i : Instr) : Bool :=
  match exec i s with
  | .next t => { t with sys := { t.sys with answer := s.sys.answer } } != s
  | _ => false

/-- The first event that changes something. -/
def State.nextEvent (s : State) : Option Instr := s.events.find? fun i => s.changes i

/-- Every group's waits that are over end, and its bundles stand as they now are (15 R234). -/
def Mach.upToDate (m : Mach) : Mach :=
  let gs := m.groups.filter fun g => !g.retired && (match m.team? g.team with | some t => t.issues | none => false)
  let m := gs.foldl (fun m g => match m.team? g.team with
    | some tm => (m.members g).foldl (fun m t => m.settleWait tm t) m
    | none => m) m
  gs.foldl (fun m g => m.formBundles g) m

/-- The lanes that stand in no bundle of their group are not ready: time that passes does not age them (15 R234, R235). -/
def Mach.passTime (m : Mach) (n : Nat) : Mach :=
  let inB (t : Thread) : Bool := match m.group? t.ref.team t.group with
    | some g => g.bundles.any fun b => b.getLsbD t.lane
    | none => false
  { m with
    clk := m.clk + n
    threads := m.threads.map fun (t : Thread) => if inB t then t else { t with lastIssue := min (m.clk + n) (t.lastIssue + n) } }

/-- Every group whose team issues forms its bundles anew (02 R24). -/
def Mach.regroupAll (m : Mach) : Mach :=
  (m.groups.filter fun g => !g.retired && (match m.team? g.team with | some t => t.issues | none => false)).foldl
    (fun m g => (m.regroupGroup g).formBundles g) m

/-- Move the clock, a power request whose condition holds being done first (20 R291), and lanes that have begun to wait having left their
bundles (15 R237); the cycles with CLK mod 4 = 0 that pass regroup (02 R24). A start that has not completed in time fails (20 R292). -/
def State.elapse (s0 : State) (n : Nat) : State :=
  let s := match s0.sys.powerReq with | some r => s0.settleRequest r | none => s0
  let m := s.m.upToDate.passTime n
  ({ s with m := if m.clk / 4 == s.m.clk / 4 then m else m.regroupAll } : State).startExpired

/-- The next sub-core's issue turn; after the last one the cycle is over. -/
def State.tick (s : State) : State :=
  let t := s.issueTurn (s.rr / 4) (s.rr % 4)
  if s.rr + 1 < 512 then { t with rr := s.rr + 1 } else { t.elapse 1 with rr := 0 }

/-- A turn of the agenda: an event of the part, a sub-core's issue, time, or an L1 that gives up a line (05 R102). An
instruction word is no event. -/
def State.take (s : State) (t : Turn) : Host.Outcome State Fault Refusal :=
  match t with
  | .ev i => if i.isEvent then exec i s else .next s
  | .issue core sub => .next (s.issueTurn core sub)
  | .advance n => .next (s.elapse n)
  | .evict core line => .next { s with m := s.m.evictLine core (lineOf line) }

/-- What moves when no turn is laid down. -/
def State.moves (s : State) : Host.Outcome State Fault Refusal :=
  match s.nextEvent with
  | some i => exec i s
  | none => .next s.tick

end Sys2Proof.Machine
end

