-- ==== Sys2Proof/Machine/Loader.lean ====
section
/-! DEFINITION. Placing one instruction where the next step fetches: what a load of a code object, a launch and its placement
leave (20 R282; 15 R226, R231, R232), for a team of one thread in the kernel context (log 4). -/

namespace Sys2Proof.Machine

/-- The kernel context with its table at physical 0x1000 and every right. -/
def benchCtx : Ctx where
  desc := {
    ctxno := 1, root := 0x1000, keymask := 0xFFFF, kmode := true, lright := true, policy := false, svcok := true, rlimit := 0
    fqbase := 0x4000, fqsize := 128, fqtail := 0 }
  addr := 0x5000
  fqhead := 0
  fqovf := 0
  scopes := List.replicate 28 0
  halted := false

/-- Tables that map the first GiB onto itself, V, W, X, U, A and D set (06 R107-R109), the context's descriptor, and code bytes at address
0. -/
def benchMem (mem : Memory) (code : List Byte) : Memory :=
  let entry (m : Memory) (at_ v : Nat) : Memory := m.write at_ (leBytes v 8)
  (entry (entry (entry (mem.write 0 code) 0x1000 (15 * 2 ^ 60 + 0x2001)) 0x2000 (15 * 2 ^ 60 + 0x3001)) 0x3000
    (9 * 2 ^ 60 + 0x6F)).write benchCtx.addr benchCtx.bytes

/-- The launch of the team: one thread, N = 128, 16 KiB of scratchpad, 32 tiles. -/
def benchLaunch (uid : Nat) : Launch where
  uid := uid
  ctx := 1
  entry := 0
  argp := 0
  folds := 1
  threads := 1
  teams := 1
  regs := 128
  scr := 4
  tiles := 32
  prio := 0
  idem := false
  rstr := false
  dep0 := none
  dep1 := none
  dep0pa := none
  dep1pa := none
  csa := 0
  csv := 0
  eligible := true
  next := 1
  killed := false
  shepherd := none
  waitFrom := none
  asked := []
  accepted := uid
  object := 0

/-- The lowest core that no team holds. -/
def Mach.freeCore (m : Mach) : Nat :=
  ((List.range 128).find? fun c => (m.teamsAt c).isEmpty && !m.diesOff.contains (dieOf c)).getD 0

/-- The team stands on a core, its groups seated and its threads at ENTRY. -/
def Mach.benchTeam (m : Mach) (core : Nat) : Mach :=
  let (lu, m) := m.fresh
  let (tu, m) := m.fresh
  let l := benchLaunch lu
  let m := { m with launches := m.launches ++ [l], teams := m.teams ++ [l.team tu core 0 0 0 0] }
  (m.seatGroups tu core 1 0).startTeam tu lu

/-- Code at address 0 of the kernel context, and a team about to run it. -/
def Mach.bench (m : Mach) (core : Nat) (code : List Byte) : Mach :=
  ({ m with
    mem := benchMem m.mem code
    ctxs := benchCtx :: m.ctxs.filter fun c => c.desc.ctxno != 1 } : Mach).benchTeam core

end Sys2Proof.Machine
end

