-- ==== Sys2Proof/Machine/Step.lean ====
section
/-! DEFINITION. One step, and the state about to fetch a given instruction. -/

namespace Sys2Proof.Machine

/-- One step: the first turn of the agenda, else what moves by itself (log 2). -/
def step (s : State) : Host.Outcome State Fault Refusal :=
  match s.agenda with
  | t :: rest => ({ s with agenda := rest } : State).take t
  | [] => s.moves

/-- `s` with an instruction at address 0 of the kernel context, a team of one thread there, and its sub-core's issue as the
next turn (log 4). The packet holds the instruction's bits, low word first, and zeros above. -/
def State.withFetchWord (s : State) (nbits w : Nat) : State :=
  let v := if nbits == 0 then w else w % 2 ^ nbits
  let core := s.m.freeCore
  { s with m := s.m.bench core (leBytes v 12), agenda := [.issue core 0] }

end Sys2Proof.Machine
end

