-- ==== Sys2Proof/Safety.lean ====
section
/-! DEFINITION. The terms that statements use: a chain of one word about to issue in the lanes of its bundle, what its lanes
become, and what it leaves alone. -/

namespace Sys2Proof.Machine

/-- A chain is about to issue: its bundle holds at least one lane, no two the same, each below 32, ready, and the thread that
bears its name; no substitute of RTE.sub waits in a lane, and no imprecise fault of the team is pending. -/
structure Issues (s : State) (tm : Team) : Prop where
  team  : s.m.team? s.m.cur.team = some tm
  lanes : s.m.bundle ≠ []
  named : ∀ th ∈ s.m.bundle, s.m.thread? th.ref = some th
  apart : (s.m.bundle.map fun th => th.ref).Nodup
  whole : ∀ th ∈ s.m.bundle, th.subst = none
  ready : ∀ th ∈ s.m.bundle, th.wait = .ready
  narrow : ∀ l ∈ s.m.cur.lanes, l < 32
  quiet : tm.known = []

/-- The bundle is one real lane, `th`. -/
structure Lone (s : State) (tm : Team) (th : Thread) : Prop where
  issues : Issues s tm
  bundle : s.m.bundle = [th]
  real   : th.helper = false

/-- The operands of a word in a lane: the sources carry well-formed values of one tag that the word takes, and the registers that
the tag's width aligns are aligned (03 R55-R57, 21 R297). -/
structure Thread.Fits (t : Thread) (accepts : Tag → Bool) (srcs regs : List Nat) (g : Tag) : Prop where
  accepted : accepts g = true
  same     : ∀ r ∈ srcs, t.tagAt r = g ∧ t.formed r = true
  aligned  : ∀ r ∈ regs, r % g.regs = 0

/-- A thread that goes on past a chain of `size` words that has issued. -/
def Thread.onward (t : Thread) (m : Mach) (size : Nat) : Thread := { t with
  pc := m.wordAddr size, yielded := false, lastIssue := m.clk, issued := m.clk, subst := none, inhand := [], taken := false
  skid := t.skid + 1, joined := 0 }

/-- A lane that a chain has issued in and stopped (15 R235, 16 R244). -/
def Thread.stopped (t : Thread) (m : Mach) : Thread := { t with
  yielded := false, lastIssue := m.clk, issued := m.clk, skid := t.skid + 1, joined := 0 }

/-- A group without its bundles and the part of a split bundle that it prefers. -/
def Group.bare (g : Group) : Group := { g with bundles := [], pref := none, prefClk := 0 }

/-- The groups, the issuing group's bundles and preference left out. -/
def State.seats (s t : State) : List Group :=
  t.m.groups.map fun g => if g.team == s.m.cur.team && g.index == s.m.cur.group then g.bare else g

/-- The machine after a chain's trace record, if it has one. -/
def Mach.log (m : Mach) (r : Option (DWord × Word × Nat)) : Mach := match r with | none => m | some r => m.appendTrace r

/-- Whether the chain's trace record, in TRACE, could lie at an address. -/
def State.mayTrace (s : State) (a : Nat) : Prop :=
  s.sys.debug = .trace ∧ (s.m.mem.wf = true → s.m.traceAt ≤ a ∧ a < s.m.traceAt + 16)

/-- Every byte of memory stands, but those of a trace record. -/
def State.Keeps (s t : State) : Prop := ∀ a, ¬ s.mayTrace a → t.m.mem.get a = s.m.mem.get a

/-- `bs` stands at `at_`, and every other byte of memory as before, but those of a trace record. -/
def State.Puts (s t : State) (at_ : Nat) (bs : List Byte) : Prop :=
  ∀ x, ¬ s.mayTrace x → t.m.mem.get x = if at_ ≤ x ∧ x < at_ + bs.length then bs.getD (x - at_) 0 else s.m.mem.get x

/-- `t` follows `s` with nothing changed but the threads of the issuing bundle, how its group's lanes stand in bundles, and, in
TRACE, a record in the trace buffer: every other thread, every team, every other byte of memory and the rest of the machine stand. -/
structure OnlyLanes (s t : State) : Prop where
  rest   : t = { s with m := { s.m with threads := t.m.threads, groups := t.m.groups, trace := t.m.trace, mem := t.m.mem } }
  others : ∀ u, (∀ th ∈ s.m.bundle, th.ref ≠ u) → t.m.thread? u = s.m.thread? u
  groups : s.seats t = s.seats s
  trace  : s.sys.debug ≠ .trace → t.m.trace = s.m.trace
  mem    : s.Keeps t

/-- The word completes in every lane of the bundle: the lane's thread `th` becomes `f th`, and nothing else changes. -/
def Becomes (i : Instr) (s : State) (f : Thread → Thread) : Prop :=
  ∃ t, exec i s = .next t ∧ OnlyLanes s t ∧ ∀ th ∈ s.m.bundle, t.m.thread? th.ref = some (f th)

/-- A lane that goes on with a value of a tag written to its registers from `d` on. -/
def Thread.put (t : Thread) (m : Mach) (size d : Nat) (g : Tag) (v : Nat) : Thread := (t.onward m size).setRegs d (valRegs g v)

/-- A lane that enters its handler (16 R240): `i` faulted with a cause, an address, FLT_EXC and the default of FLT_SUB, in the
lanes of the bundle that `mask` gives. -/
def Thread.entered (t : Thread) (s : State) (tm : Team) (i : Instr) (cause : Nat) (addr : DWord) (exc : Word) (sub : SubVal) :
    Thread := { t with
  fltCause := BitVec.ofNat 32 cause, fltPc := s.m.cur.pc, fltInst := s.m.wordBits 0, fltMask := maskOf s.m.bundle
  fltAddr := addr, fltExc := exc, fltSub := sub, fltDst := dstOf s.m tm.regs s.m.bundle t i, resume := s.m.cur.pc, written := false
  handlerActive := true, subst := none, pc := t.utvec, wait := .ready, yielded := false, lastIssue := s.m.clk, issued := s.m.clk
  skid := t.skid + 1, joined := s.m.clk + 1 }

/-- A lane that can enter its handler at once: it is real, it has a handler and is in none, and no result of it is due. -/
def Thread.canEnter (t : Thread) : Prop :=
  t.helper = false ∧ t.utvec ≠ 0 ∧ t.handlerActive = false ∧ t.resultsDue = false

/-- A float word by its lanes' flags `fl` (03 R62, R63): with no enabled exception each lane sets its flags and goes on as `wr`
says; with one, each lane that can enters its handler with the exception's cause, its flags set and `sub` in FLT_SUB. -/
def Floats (i : Instr) (s : State) (tm : Team) (fl : Thread → Flags) (sub : Thread → SubVal) (wr : Thread → Thread → Thread) :
    Prop :=
  ((∀ th ∈ s.m.bundle, (raise th.ften (fl th)).2 = none) →
    Becomes i s fun th => wr th { th.onward s.m 1 with ften := (raise th.ften (fl th)).1 }) ∧
  ∀ c, (∀ th ∈ s.m.bundle, th.canEnter ∧ (raise th.ften (fl th)).2 = some c) →
    Becomes i s fun th => Thread.entered { th with ften := (raise th.ften (fl th)).1 } s tm i c 0 0 (sub th)

/-- The names of some threads. -/
def refs (ts : List Thread) : List TRef := ts.map fun t => t.ref

/-- The word completes with `effect` on the machine whose lanes have gone on, and the lanes then stand in bundles again; in TRACE
a record of the chain is appended to the trace buffer. -/
def Acts (i : Instr) (s : State) (effect : Mach → Mach) : Prop :=
  ∃ tr, (s.sys.debug ≠ .trace → tr = none) ∧ exec i s = .next { s with
    m := (((effect (s.m.advance (refs s.m.bundle) (s.m.wordAddr i.size))).rebundle (refs s.m.bundle) []).skidReport).log tr }

/-! ### Memory words -/

/-- The pair at `a` holds the address `x` (21 R297). -/
def Thread.pairIs (t : Thread) (a : Reg) (x : Nat) : Prop :=
  t.tagAt a.toNat = .i64 ∧ t.formed a.toNat = true ∧ t.valAt a.toNat = x

/-- `n` aligned bytes at `off` of the team's own scratchpad, at their generic address `x` (05 R94). -/
def Team.own (tm : Team) (x n off : Nat) : Prop :=
  x = 0xFC * 2 ^ 56 + off ∧ x % n = 0 ∧ off < 2 ^ 32 ∧ off + n ≤ 4096 * tm.scr

/-- `n` aligned bytes at a global address that a lane's translation reaches through the leaf `l` with no fault of 06 R111 and, for a
write, with D set. -/
structure Mach.Reaches (m : Mach) (tm : Team) (th : Thread) (x n : Nat) (write : Bool) (l : Leaf) : Prop where
  aligned : x % n = 0
  global  : x < 2 ^ 57
  page    : m.translate tm (m.subOf th.ref) th x = .ok l
  allowed : m.allowed tm.ctx l write false = true
  dirty   : write = true → pteD l.bits = true

/-- The line of an address stands at its home: no core owns it, no partial waits for it, it is not poisoned (07 R137); and it is no part
of a pool's shadow table (19 R272). -/
def Mach.atHome (m : Mach) (pa : Nat) : Prop := stateOf (m.meta (lineOf pa)) ≤ 1 ∧ m.shadowed (lineOf pa) 128 = false

/-- No store of any thread is unpublished, and no merge area is in use. -/
def Mach.settled (m : Mach) : Prop := m.versions = [] ∧ m.areas = []

/-- Every thread but one changes in nothing but what it waits for. -/
def State.OthersWait (s t : State) (u : TRef) : Prop :=
  ∀ v x, v ≠ u → s.m.thread? v = some x → ∃ w, t.m.thread? v = some { x with wait := w }

/-- Memory `a` becomes `b`: `bs` stands at `at_`, and every other byte as before. -/
def Memory.Stored (a b : Memory) (at_ : Nat) (bs : List Byte) : Prop :=
  ∀ x, b.get x = if at_ ≤ x ∧ x < at_ + bs.length then bs.getD (x - at_) 0 else a.get x

/-! ### Counts and team faults -/

/-- The lane's counts of WAITC's classes (09 R169: loads, stores, drover commands, tile operations) are within thresholds, 63
accepting any count (04 R83). -/
def Thread.countsWithin (t : Thread) (ks : List (BitVec 6)) : Prop :=
  ∀ p ∈ [(t.ops.filter fun o => o.loads).length, (t.ops.filter fun o => o.stores).length, t.drover,
    (t.ops.filter fun o => o.tile).length].zip ks, p.2 = 63 ∨ p.1 ≤ p.2.toNat

/-- Where the next fault record of a context goes (19 R267). -/
def Ctx.ringAt (c : Ctx) : Nat := c.desc.fqbase + 32 * (c.fqhead.toNat % c.desc.fqsize)

/-- The word of a lone lane is a team fault (16 R242, R245): the team stops with a record of the kind, cause and address to be written
when its operations in flight have completed; the lane keeps its program counter and registers, and no byte of memory changes. -/
def TeamStops (i : Instr) (s : State) (tm : Team) (th : Thread) (kind cause : Nat) (addr : DWord) : Prop :=
  let r : Record := {
    addr := addr, inst := s.m.wordBits 0, taskid := tm.taskid, mask := maskOf [th], exc := 0, cause := cause, kind := kind
    core := tm.core, tslot := tm.slot, group := th.ref.tidx / 32 }
  ∃ s' tm' x, exec i s = .next s' ∧ s'.m.team? tm.uid = some tm' ∧ tm'.status = .stopping ∧ tm'.fault = some r ∧
    s'.m.thread? th.ref = some x ∧ x.pc = th.pc ∧ x.regs = th.regs ∧ x.preds = th.preds ∧ x.handlerActive = th.handlerActive ∧
    s.Keeps s'

/-- A faulted team whose operations have completed, in a context with room in its ring, no line of the ring's place or of the descriptor
being anywhere but at home (16 R245, 19 R267). -/
structure State.Records (s : State) (t : Team) (c : Ctx) (r : Record) : Prop where
  fault   : t.fault = some r
  ctx     : s.m.ctx? t.ctx = some c
  room    : (c.fqhead - s.m.fqTail c).toNat ≠ c.desc.fqsize
  ring    : c.desc.fqbase % 4096 = 0
  desc    : c.addr % 64 = 0 ∧ (c.addr + 64 ≤ c.ringAt ∨ c.ringAt + 32 ≤ c.addr)
  wf      : s.m.mem.wf = true
  home    : s.m.atHome c.ringAt ∧ s.m.atHome c.addr

/-- A context whose ring has room for a record, no line of the ring's place or of the descriptor being anywhere but at home (19 R267). -/
structure State.RingReady (s : State) (ctx : Nat) (c : Ctx) : Prop where
  ctx     : s.m.ctx? ctx = some c
  room    : (c.fqhead - s.m.fqTail c).toNat ≠ c.desc.fqsize
  ring    : c.desc.fqbase % 4096 = 0
  desc    : c.addr % 64 = 0 ∧ (c.addr + 64 ≤ c.ringAt ∨ c.ringAt + 32 ≤ c.addr)
  wf      : s.m.mem.wf = true
  home    : s.m.atHome c.ringAt ∧ s.m.atHome c.addr

/-- A record stands in a context's ring, FQHEAD has moved on, in the descriptor too, and no other byte of memory has changed. -/
def State.Queued (s t : State) (ctx : Nat) (c : Ctx) (r : Record) : Prop :=
  t.m.ctx? ctx = some { c with fqhead := c.fqhead + 1 } ∧ ∀ y, ¬ s.mayTrace y → t.m.mem.get y =
    if c.ringAt ≤ y ∧ y < c.ringAt + 32 then (leBytes (r.bits c.fqhead) 32).getD (y - c.ringAt) 0
    else if c.addr + 28 ≤ y ∧ y < c.addr + 32 then (leBytes (c.fqhead + 1).toNat 4).getD (y - (c.addr + 28)) 0
    else s.m.mem.get y

/-- The word of a lone lane outside a handler parks it (06 R115): the lane keeps its PC and its registers, what struck it stands in
FLT_CAUSE to FLT_EXC, and a record of the access kind goes to its context's ring. -/
def Parks (i : Instr) (s : State) (tm : Team) (th : Thread) (kind cause addr : Nat) (exc : Word) (page bytes : Nat) : Prop :=
  ∀ c : Ctx, s.RingReady tm.ctx c → ∃ t, exec i s = .next t ∧ t.m.teams = s.m.teams ∧
    s.Queued t tm.ctx c {
      addr := BitVec.ofNat 64 addr, inst := s.m.wordBits 0, taskid := tm.taskid, mask := maskOf [th], exc := exc, cause := cause
      kind := kind, core := tm.core, tslot := tm.slot, group := s.m.cur.group } ∧
    t.m.thread? th.ref = some { th.stopped s.m with
      wait := .parked { cause := cause, addr := addr, page := page, bytes := bytes }, fltCause := BitVec.ofNat 32 cause
      fltPc := s.m.cur.pc, fltInst := s.m.wordBits 0, fltMask := maskOf [th], fltAddr := BitVec.ofNat 64 addr, fltExc := exc }

/-! ### The whole machine -/

/-- The fuses that stand blown in `a` stand blown in `b`. -/
def Fuses.within (a b : Fuses) : Prop :=
  (∀ i, a.rootHash.getLsbD i = true → b.rootHash.getLsbD i = true) ∧
  (∀ i, a.ownerHash.getLsbD i = true → b.ownerHash.getLsbD i = true) ∧ (a.sealBit = true → b.sealBit = true) ∧
  (∀ i, a.fwsvn.getLsbD i = true → b.fwsvn.getLsbD i = true) ∧ (∀ i, a.cosvn.getLsbD i = true → b.cosvn.getLsbD i = true) ∧
  ∀ i, a.idseed.getLsbD i = true → b.idseed.getLsbD i = true

end Sys2Proof.Machine
end

