-- ==== Sys2Proof/Certificates/Slice0/Obligations.lean ====
section
/-! DEFINITION. The statements: what each instruction word and each event of the part does, by the rules of spec/. A chain of one
word issues in the lanes of a bundle (`Issues`) or in one real lane (`Lone`); `Becomes` says what each lane becomes and that
nothing else changes. `staticBad` is false where the launch and the stepping admit the word (02 R23, 04 R87, 13 R217). -/

open Sys2Proof Sys2Proof.Machine

/-! ### Integer words -/

/-- 22 R334, R336: the integer mould, element by element, in every lane by the lane's own tag; IMAD takes D as a source under the
same tag. -/
def Obligations.IntegerArithmetic : Prop :=
  ∀ (s : State) (tm : Team) (d a b : Reg), Issues s tm →
    ((∀ th ∈ s.m.bundle, ∃ g, th.Fits Tag.isInt [a.toNat, b.toNat] [d.toNat, a.toNat, b.toNat] g) →
      ∀ p ∈ ([(.iaddReg d a b, fun w x y => (x + y) % 2 ^ w), (.isub d a b, fun w x y => (x + 2 ^ w - y % 2 ^ w) % 2 ^ w),
          (.imul d a b, fun w x y => x * y % 2 ^ w), (.imulh d a b, fun w x y => ofS w (toS w x * toS w y / (2 ^ w : Nat))),
          (.imin d a b, fun w x y => if toS w x ≤ toS w y then x else y),
          (.imax d a b, fun w x y => if toS w x ≤ toS w y then y else x)] : List (Instr × (Nat → Nat → Nat → Nat))),
        staticBad s.m tm p.1 = false →
        Becomes p.1 s fun th => th.put s.m 1 d.toNat (th.tagAt a.toNat)
          (packI (th.tagAt a.toNat) p.2 (th.valAt a.toNat) (th.valAt b.toNat))) ∧
    ((∀ th ∈ s.m.bundle, ∃ g, th.Fits Tag.isInt [a.toNat, b.toNat, d.toNat] [d.toNat, a.toNat, b.toNat] g) →
      staticBad s.m tm (.imad d a b) = false →
      Becomes (.imad d a b) s fun th => th.put s.m 1 d.toNat (th.tagAt a.toNat)
        (join (th.tagAt a.toNat) (((elems (th.tagAt a.toNat) (th.valAt a.toNat)).zip
          (elems (th.tagAt a.toNat) (th.valAt b.toNat))).zipWith
            (fun p z => (p.1 * p.2 + z) % 2 ^ elemW (th.tagAt a.toNat)) (elems (th.tagAt a.toNat) (th.valAt d.toNat)))))

/-- 21 R311, 22 R334, R335, 23 R353: one integer source, element by element: |x| modulo 2^w, the leading zeros, the set bits, and
IADD's immediate, sign-extended or, under I8x4, its low byte in each element. -/
def Obligations.IntegerUnary : Prop :=
  ∀ (s : State) (tm : Team) (d a : Reg) (i : BitVec 11), Issues s tm →
    (∀ th ∈ s.m.bundle, ∃ g, th.Fits Tag.isInt [a.toNat] [d.toNat, a.toNat] g) →
    ∀ p ∈ ([(.iabs d a, fun g x => packI1 g (fun w x => ofS w (toS w x).natAbs) x),
        (.clz d a, fun g x => packI1 g (fun w x => if x = 0 then w else w - 1 - Nat.log2 x) x),
        (.popc d a, fun g x => packI1 g (fun w x => ((List.range w).filter fun j => x.testBit j).length) x),
        (.iaddImm d a i, fun g x => packI g (fun w x y => (x + y) % 2 ^ w) x
          (if g = .i8x4 then join .i8x4 (List.replicate 4 (i.toNat % 256)) else ofS g.width i.toInt))]
        : List (Instr × (Tag → Nat → Nat))),
      staticBad s.m tm p.1 = false →
      Becomes p.1 s fun th => th.put s.m 1 d.toNat (th.tagAt a.toNat) (p.2 (th.tagAt a.toNat) (th.valAt a.toNat))

/-- 21 R302, 23 R347: AND, OR, XOR and NOT over the bits of a value, the immediate zero-extended. -/
def Obligations.Bitwise : Prop :=
  ∀ (s : State) (tm : Team) (d a b : Reg) (i : BitVec 9), Issues s tm →
    ((∀ th ∈ s.m.bundle, ∃ g, th.Fits Tag.isData [a.toNat, b.toNat] [d.toNat, a.toNat, b.toNat] g) →
      ∀ p ∈ ([(.andReg d a b, (· &&& ·)), (.orReg d a b, (· ||| ·)), (.xorReg d a b, (· ^^^ ·))]
          : List (Instr × (Nat → Nat → Nat))),
        staticBad s.m tm p.1 = false →
        Becomes p.1 s fun th => th.put s.m 1 d.toNat (th.tagAt a.toNat) (p.2 (th.valAt a.toNat) (th.valAt b.toNat))) ∧
    ((∀ th ∈ s.m.bundle, ∃ g, th.Fits Tag.isData [a.toNat] [d.toNat, a.toNat] g) →
      ∀ p ∈ ([(.andImm d a i, fun _ x => x &&& i.toNat), (.orImm d a i, fun _ x => x ||| i.toNat),
          (.xorImm d a i, fun _ x => x ^^^ i.toNat), (.inot d a, fun w x => 2 ^ w - 1 - x)] : List (Instr × (Nat → Nat → Nat))),
        staticBad s.m tm p.1 = false →
        Becomes p.1 s fun th => th.put s.m 1 d.toNat (th.tagAt a.toNat) (p.2 (th.tagAt a.toNat).width (th.valAt a.toNat)))

/-- 23 R360: shifts by a register tagged I32 or by an immediate; an amount of the element width or more gives zeros, or copies of
the sign under SHA. -/
def Obligations.Shifts : Prop :=
  ∀ (s : State) (tm : Team) (d a b : Reg) (n : BitVec 6), Issues s tm →
    (∀ th ∈ s.m.bundle, ∃ g, th.Fits Tag.isInt [a.toNat] [d.toNat, a.toNat] g) →
    ∀ p ∈ ([(.shlReg d a b, .shlImm d a n, fun k w x => if k < w then x * 2 ^ k % 2 ^ w else 0),
        (.shrReg d a b, .shrImm d a n, fun k w x => if k < w then x / 2 ^ k else 0),
        (.shaReg d a b, .shaImm d a n, fun k w x =>
          if k < w then ofS w (toS w x / (2 ^ k : Nat)) else if toS w x < 0 then 2 ^ w - 1 else 0)]
        : List (Instr × Instr × (Nat → Nat → Nat → Nat))),
      ((∀ th ∈ s.m.bundle, th.tagAt b.toNat = .i32) → staticBad s.m tm p.1 = false →
        Becomes p.1 s fun th => th.put s.m 1 d.toNat (th.tagAt a.toNat)
          (packI1 (th.tagAt a.toNat) (p.2.2 (th.reg b.toNat).bits.toNat) (th.valAt a.toNat))) ∧
      (staticBad s.m tm p.2.1 = false →
        Becomes p.2.1 s fun th => th.put s.m 1 d.toNat (th.tagAt a.toNat)
          (packI1 (th.tagAt a.toNat) (p.2.2 n.toNat) (th.valAt a.toNat)))

/-- 21 R304-R306: BFX extracts and BFI inserts a field that the I32 in B gives (POS in bits 6:0, LEN in bits 14:8, at most w; SX
in bit 16), and BPRM chooses each byte of its result among the eight of B and A by a nibble of the selector in D. -/
def Obligations.BitFields : Prop :=
  ∀ (s : State) (tm : Team) (d a b : Reg), Issues s tm →
    ((∀ th ∈ s.m.bundle, th.tagAt b.toNat = .i32 ∧ ∃ g, th.Fits Tag.isData [a.toNat] [d.toNat, a.toNat] g) →
      staticBad s.m tm (.bfx d a b) = false →
      Becomes (.bfx d a b) s fun th =>
        let w := (th.tagAt a.toNat).width
        let k := (th.reg b.toNat).bits.toNat
        th.put s.m 1 d.toNat (th.tagAt a.toNat)
          (bitField w (th.valAt a.toNat) (k % 128) (min (k / 2 ^ 8 % 128) w) (k.testBit 16))) ∧
    ((∀ th ∈ s.m.bundle, th.tagAt b.toNat = .i32 ∧ ∃ g, th.Fits Tag.isData [a.toNat, d.toNat] [d.toNat, a.toNat] g) →
      staticBad s.m tm (.bfi d a b) = false →
      Becomes (.bfi d a b) s fun th =>
        let w := (th.tagAt a.toNat).width
        let k := (th.reg b.toNat).bits.toNat
        th.put s.m 1 d.toNat (th.tagAt a.toNat)
          (bitInsert w (th.valAt d.toNat) (th.valAt a.toNat) (k % 128) (min (k / 2 ^ 8 % 128) w))) ∧
    ((∀ th ∈ s.m.bundle, (th.tagAt a.toNat).isData = true ∧ (th.tagAt a.toNat).regs = 1 ∧ th.tagAt b.toNat = th.tagAt a.toNat ∧
        th.tagAt d.toNat = .i32) →
      staticBad s.m tm (.bprm d a b) = false →
      Becomes (.bprm d a b) s fun th => th.put s.m 1 d.toNat (th.tagAt a.toNat)
        (bytePermute (th.reg d.toNat).bits.toNat (th.reg a.toNat).bits.toNat (th.reg b.toNat).bits.toNat))

/-- 22 R338, 23 R359, 03 R48: ISET's predicate holds where the condition holds of every element; SEL takes A where the predicate
holds and B elsewhere. -/
def Obligations.CompareSelect : Prop :=
  ∀ (s : State) (tm : Team) (d a b : Reg) (k : KIx) (f : Cond), Issues s tm →
    ((∀ th ∈ s.m.bundle, ∃ g, th.Fits Tag.isInt [a.toNat, b.toNat] [a.toNat, b.toNat] g) →
      staticBad s.m tm (.iset k a b f) = false →
      Becomes (.iset k a b f) s fun th => (th.onward s.m 1).setPred k
        (((elems (th.tagAt a.toNat) (th.valAt a.toNat)).zip (elems (th.tagAt a.toNat) (th.valAt b.toNat))).all fun p =>
          iCmp f (elemW (th.tagAt a.toNat)) p.1 p.2)) ∧
    ((∀ th ∈ s.m.bundle, ∃ g, th.Fits Tag.isData [a.toNat, b.toNat] [d.toNat, a.toNat, b.toNat] g) →
      staticBad s.m tm (.sel d a b k) = false →
      Becomes (.sel d a b k) s fun th => th.put s.m 1 d.toNat (th.tagAt a.toNat)
        (if th.pred k then th.valAt a.toNat else th.valAt b.toNat))

/-! ### Moves and system registers -/

/-- 23 R343-R346, R348, R356, 24 R370: moves between registers with their tags as they stand, immediates, retagging, and NOP,
which changes nothing but that its lanes go on. PACK joins the low halves of two registers of one packed tag, or two F32 or I32
registers into a pair; UNPK takes them apart. -/
def Obligations.Moves : Prop :=
  ∀ (s : State) (tm : Team) (d a b : Reg) (z : MovSize) (h : BitVec 16) (i : BitVec 18) (x : BitVec 14) (g : Tag), Issues s tm →
    (staticBad s.m tm (.mov d a z) = false →
      Becomes (.mov d a z) s fun th => (th.onward s.m 1).setRegs d.toNat (th.block a.toNat z.regs)) ∧
    ((∀ th ∈ s.m.bundle, (th.tagAt d.toNat).isData = true) → staticBad s.m tm (.movh d h) = false →
      Becomes (.movh d h) s fun th => (th.onward s.m 1).setRegs d.toNat
        [{ bits := h ++ (th.reg d.toNat).bits.extractLsb' 0 16, tag := th.tagAt d.toNat }]) ∧
    (staticBad s.m tm (.movi d i none) = false →
      Becomes (.movi d i none) s fun th => (th.onward s.m 1).setRegs d.toNat [{ bits := i.signExtend 32, tag := .i32 }]) ∧
    (staticBad s.m tm (.movi d i (some x)) = false →
      Becomes (.movi d i (some x)) s fun th => (th.onward s.m 2).setRegs d.toNat [{ bits := x ++ i, tag := .i32 }]) ∧
    (staticBad s.m tm (.rtag d a g) = false →
      Becomes (.rtag d a g) s fun th => (th.onward s.m 1).setRegs d.toNat
        ((th.block a.toNat g.regs).map fun v => { bits := v.bits, tag := g })) ∧
    Becomes .nop s (fun th => th.onward s.m 1) ∧
    let halves (g : Tag) : Prop := g ∈ [Tag.bf16x2, .f16x2, .e4m3x4, .e5m2x4, .i8x4, .kn4x8]
    (staticBad s.m tm (.pack d a b) = false →
      ((∀ th ∈ s.m.bundle, halves (th.tagAt a.toNat) ∧ th.tagAt b.toNat = th.tagAt a.toNat) →
        Becomes (.pack d a b) s fun th => (th.onward s.m 1).setRegs d.toNat
          [{ bits := (th.reg b.toNat).bits.extractLsb' 0 16 ++ (th.reg a.toNat).bits.extractLsb' 0 16, tag := th.tagAt a.toNat }]) ∧
      (∀ g g2, (g, g2) ∈ [(Tag.f32, Tag.f32x2), (.i32, .i64)] → d.toNat % 2 = 0 →
        (∀ th ∈ s.m.bundle, th.tagAt a.toNat = g ∧ th.tagAt b.toNat = g) →
        Becomes (.pack d a b) s fun th => (th.onward s.m 1).setRegs d.toNat
          [{ bits := (th.reg a.toNat).bits, tag := g2 }, { bits := (th.reg b.toNat).bits, tag := g2 }])) ∧
    (staticBad s.m tm (.unpk d a) = false →
      ((∀ th ∈ s.m.bundle, halves (th.tagAt a.toNat)) →
        Becomes (.unpk d a) s fun th => (th.onward s.m 1).setRegs d.toNat
          [{ bits := ((th.reg a.toNat).bits.extractLsb' 0 16).setWidth 32, tag := th.tagAt a.toNat },
           { bits := (th.reg a.toNat).bits >>> 16, tag := th.tagAt a.toNat }]) ∧
      (∀ g g2, (g, g2) ∈ [(Tag.f32, Tag.f32x2), (.i32, .i64)] → a.toNat % 2 = 0 →
        (∀ th ∈ s.m.bundle, th.tagAt a.toNat = g2 ∧ th.tagAt (a.toNat + 1) = g2) →
        Becomes (.unpk d a) s fun th => (th.onward s.m 1).setRegs d.toNat
          [{ bits := (th.reg a.toNat).bits, tag := g }, { bits := (th.reg (a.toNat + 1)).bits, tag := g }]))

/-- 03 R51, R52, 22 R331, 24 R367: GSR of each system register and TIME, with their tags and widths. -/
def Obligations.SystemReads : Prop :=
  ∀ (s : State) (tm : Team) (d : Reg), Issues s tm →
    (∀ p ∈ ([(.lane, fun th => BitVec.ofNat 32 th.lane), (.group, fun th => BitVec.ofNat 32 th.group),
        (.team, fun _ => BitVec.ofNat 32 (tm.fold * tm.foldTeams + tm.index)), (.fold, fun _ => BitVec.ofNat 32 tm.fold),
        (.tidx, fun th => BitVec.ofNat 32 th.ref.tidx), (.fltCause, fun th => th.fltCause), (.fltMask, fun th => th.fltMask),
        (.fltInst, fun th => th.fltInst), (.fltExc, fun th => th.fltExc), (.ften, fun th => th.ften), (.frm, fun th => th.frm),
        (.uctl, fun th => th.uctl), (.taskid, fun _ => tm.taskid), (.taskst, fun _ => s.m.taskst tm)]
        : List (SysReg × (Thread → Word))),
      staticBad s.m tm (.gsr d p.1) = false →
      Becomes (.gsr d p.1) s fun th => (th.onward s.m 1).setRegs d.toNat [{ bits := p.2 th, tag := .i32 }]) ∧
    (∀ p ∈ ([(.argp, fun _ => tm.argp), (.clk, fun _ => BitVec.ofNat 64 s.m.clk), (.fltPc, fun th => th.fltPc),
        (.fltAddr, fun th => th.fltAddr), (.utvec, fun th => th.utvec)] : List (SysReg × (Thread → DWord))),
      staticBad s.m tm (.gsr d p.1) = false →
      Becomes (.gsr d p.1) s fun th => (th.onward s.m 1).setRegs d.toNat
        [{ bits := (p.2 th).extractLsb' 0 32, tag := .i64 }, { bits := (p.2 th).extractLsb' 32 32, tag := .i64 }]) ∧
    ((∀ th ∈ s.m.bundle, d.toNat % th.fltSub.tag.regs = 0) → staticBad s.m tm (.gsr d .fltSub) = false →
      Becomes (.gsr d .fltSub) s fun th => (th.onward s.m 1).setRegs d.toNat (valRegs th.fltSub.tag th.fltSub.bits.toNat)) ∧
    (staticBad s.m tm (.time d) = false →
      Becomes (.time d) s fun th => (th.onward s.m 1).setRegs d.toNat
        [{ bits := s.m.time.extractLsb' 0 32, tag := .i64 }, { bits := s.m.time.extractLsb' 32 32, tag := .i64 }])

/-- 03 R51-R53, 23 R361, R362: SSR of each register that it may write: the bits that exist are written, FLT_PC sets Written,
UTVEC takes a packet address; TASKID is the team's. -/
def Obligations.SystemWrites : Prop :=
  ∀ (s : State) (tm : Team) (d : Reg), Issues s tm →
    (∀ p ∈ ([(.fltCause, fun v x => { x with fltCause := v &&& 0xFF#32 }), (.fltMask, fun v x => { x with fltMask := v }),
        (.fltInst, fun v x => { x with fltInst := v }), (.fltExc, fun v x => { x with fltExc := v &&& 0xFFFFFFF8#32 }),
        (.ften, fun v x => { x with ften := v &&& 0x001F001F#32 }), (.frm, fun v x => { x with frm := v &&& 7#32 }),
        (.uctl, fun v x => { x with uctl := v &&& 3#32 })] : List (SysReg × (Word → Thread → Thread))),
      (∀ th ∈ s.m.bundle, th.tagAt d.toNat = .i32 ∨ th.tagAt d.toNat = .raw) → staticBad s.m tm (.ssr d p.1) = false →
      Becomes (.ssr d p.1) s fun th => p.2 (th.reg d.toNat).bits (th.onward s.m 1)) ∧
    (∀ p ∈ ([(.fltPc, fun v x => { x with fltPc := v, written := true }), (.fltAddr, fun v x => { x with fltAddr := v }),
        (.utvec, fun v x => { x with utvec := v })] : List (SysReg × (DWord → Thread → Thread))),
      (∀ th ∈ s.m.bundle, ∃ g ∈ [Tag.i64, .raw], th.tagAt d.toNat = g ∧ th.tagAt (d.toNat + 1) = g) →
      (p.1 = .utvec → ∀ th ∈ s.m.bundle, ((th.reg (d.toNat + 1)).bits ++ (th.reg d.toNat).bits).toNat % 3 = 0) →
      staticBad s.m tm (.ssr d p.1) = false →
      Becomes (.ssr d p.1) s fun th => p.2 ((th.reg (d.toNat + 1)).bits ++ (th.reg d.toNat).bits) (th.onward s.m 1)) ∧
    ((∀ th ∈ s.m.bundle, d.toNat % (th.tagAt d.toNat).regs = 0 ∧ th.formed d.toNat = true) →
      staticBad s.m tm (.ssr d .fltSub) = false →
      Becomes (.ssr d .fltSub) s fun th => { th.onward s.m 1 with
        fltSub := { bits := BitVec.ofNat 128 (th.valAt d.toNat), tag := th.tagAt d.toNat } }) ∧
    ((∀ th ∈ s.m.bundle, th.tagAt d.toNat = .i32 ∨ th.tagAt d.toNat = .raw) → staticBad s.m tm (.ssr d .taskid) = false →
      Acts (.ssr d .taskid) s fun m => s.m.bundle.foldl (fun m th =>
        m.updTeam tm.uid fun x => { x with taskid := (th.reg d.toNat).bits }) m)

/-! ### Float words -/

/-- 03 R62, R63: an exception that occurs sets its sticky flag in FTEN bits 20:16; the enabled one of highest priority (IV, DZ,
OV, UN, NX) gives the cause, 0x03 to 0x07. -/
def Obligations.FloatFlags : Prop :=
  ∀ (ften : Word) (f : Flags),
    let es := [f.iv, f.dz, f.ov, f.un, f.nx].zipIdx
    (∀ j, (raise ften f).1.getLsbD j = (ften.getLsbD j || es.any fun e => e.1 && j == 16 + e.2)) ∧
    (raise ften f).2 = (es.find? fun e => e.1 && ften.getLsbD e.2).map fun e => e.2 + 3

/-- 22 R320-R322, R327: the float mould, element by element in FRM's rounding and flushing, by each lane's own tag. -/
def Obligations.FloatArithmetic : Prop :=
  ∀ (s : State) (tm : Team) (d a b : Reg), Issues s tm →
    ((∀ th ∈ s.m.bundle, ∃ g, th.Fits Tag.isFloat [a.toNat, b.toNat] [d.toNat, a.toNat, b.toNat] g) →
      ∀ p ∈ ([(.fadd d a b, fAdd), (.fsub d a b, fSub), (.fmul d a b, fMul), (.fdiv d a b, fDiv),
          (.fmin d a b, fun f _ z => fMinMax false f z), (.fmax d a b, fun f _ z => fMinMax true f z)]
          : List (Instr × (Fmt → Rm → Bool → Nat → Nat → Nat × Flags))),
        staticBad s.m tm p.1 = false →
        let g (th : Thread) := th.tagAt a.toNat
        let r (th : Thread) := packF (g th) (fun f => p.2 f (frmRm th.frm) (frmFtz th.frm)) (th.valAt a.toNat) (th.valAt b.toNat)
        Floats p.1 s tm (fun th => (r th).2) (fun th => { bits := BitVec.ofNat 128 (r th).1, tag := g th })
          fun th x => x.setRegs d.toNat (valRegs (g th) (r th).1)) ∧
    ((∀ th ∈ s.m.bundle, ∃ g, th.Fits Tag.isFloat [a.toNat, b.toNat, d.toNat] [d.toNat, a.toNat, b.toNat] g) →
      staticBad s.m tm (.ffma d a b) = false →
      let g (th : Thread) := th.tagAt a.toNat
      let r (th : Thread) := packF3 (g th) (fun f => fFma f (frmRm th.frm) (frmFtz th.frm)) (th.valAt a.toNat)
        (th.valAt b.toNat) (th.valAt d.toNat)
      Floats (.ffma d a b) s tm (fun th => (r th).2) (fun th => { bits := BitVec.ofNat 128 (r th).1, tag := g th })
        fun th x => x.setRegs d.toNat (valRegs (g th) (r th).1))

/-- 22 R324-R326: the special functions on F32, within the tables of 22 (`special`). -/
def Obligations.FloatSpecial : Prop :=
  ∀ (s : State) (tm : Team) (d a : Reg), Issues s tm → (∀ th ∈ s.m.bundle, th.tagAt a.toNat = .f32) →
    ∀ p ∈ ([(.frcp d a, .rcp), (.frsq d a, .rsq), (.fsqrt d a, .sqrt), (.fex2 d a, .ex2), (.flg2 d a, .lg2), (.fsin d a, .sin),
        (.fcos d a, .cos)] : List (Instr × Special)),
      staticBad s.m tm p.1 = false →
      let r (th : Thread) := special p.2 (frmRm th.frm) (frmFtz th.frm) (th.reg a.toNat).bits.toNat
      Floats p.1 s tm (fun th => (r th).2) (fun th => { bits := BitVec.ofNat 128 (r th).1, tag := .f32 })
        fun th x => x.setRegs d.toNat (valRegs .f32 (r th).1)

/-- 21 R317, 22 R323, R328: DOT4 over floats (one rounding) and over signed bytes, FCLS's class bits, and FSET, whose predicate
holds where the condition holds of every element. -/
def Obligations.DotClassCompare : Prop :=
  ∀ (s : State) (tm : Team) (d a b : Reg) (k : KIx) (c : FCond), Issues s tm →
    ((∀ th ∈ s.m.bundle, th.tagAt a.toNat ∈ [Tag.e4m3x4, .e5m2x4] ∧ th.tagAt b.toNat = th.tagAt a.toNat ∧
        th.tagAt d.toNat = .f32) → staticBad s.m tm (.dot4 d a b) = false →
      let r (th : Thread) := dot4Float (th.tagAt a.toNat) (frmRm th.frm) (frmFtz th.frm) (th.reg d.toNat).bits.toNat
        (th.reg a.toNat).bits.toNat (th.reg b.toNat).bits.toNat
      Floats (.dot4 d a b) s tm (fun th => (r th).2) (fun th => { bits := BitVec.ofNat 128 (r th).1, tag := .f32 })
        fun th x => x.setRegs d.toNat (valRegs .f32 (r th).1)) ∧
    ((∀ th ∈ s.m.bundle, th.tagAt a.toNat = .i8x4 ∧ th.tagAt b.toNat = .i8x4 ∧ th.tagAt d.toNat = .i32) →
      staticBad s.m tm (.dot4 d a b) = false →
      Becomes (.dot4 d a b) s fun th => th.put s.m 1 d.toNat .i32 (ofS 32 (((th.reg d.toNat).bits.toNat : Int) +
        (((elems .i8x4 (th.reg a.toNat).bits.toNat).zip (elems .i8x4 (th.reg b.toNat).bits.toNat)).map fun p =>
          toS 8 p.1 * toS 8 p.2).sum))) ∧
    ((∀ th ∈ s.m.bundle, ∃ g, th.Fits Tag.isFloat [a.toNat] [a.toNat] g) → staticBad s.m tm (.fcls d a) = false →
      Becomes (.fcls d a) s fun th => th.put s.m 1 d.toNat .i32
        (joinW 16 ((elems (th.tagAt a.toNat) (th.valAt a.toNat)).map fun e =>
          2 ^ fClass ((fmtOf (th.tagAt a.toNat)).getD fp32) e))) ∧
    ((∀ th ∈ s.m.bundle, ∃ g, th.Fits Tag.isFloat [a.toNat, b.toNat] [a.toNat, b.toNat] g) →
      staticBad s.m tm (.fset k a b c) = false →
      let r (th : Thread) := (elems (th.tagAt a.toNat) (th.valAt a.toNat)).zipWith
        (fCmp c ((fmtOf (th.tagAt a.toNat)).getD fp32) (frmFtz th.frm)) (elems (th.tagAt a.toNat) (th.valAt b.toNat))
      Floats (.fset k a b c) s tm (fun th => { iv := (r th).any (·.2) })
        (fun th => { bits := if (r th).all (·.1) then 1 else 0, tag := .i32 }) fun th x => x.setPred k ((r th).all (·.1)))

/-- 21 R312-R314: CVT converts a block of as many elements as the wider of the two value sizes holds, each element by itself,
from consecutive values of the source's tag into consecutive values of the target's. -/
def Obligations.Conversions : Prop :=
  ∀ (s : State) (tm : Team) (d a : Reg) (sat : Bool) (rm : Rm) (tgt : Tag), Issues s tm →
    staticBad s.m tm (.cvt d a sat rm tgt) = false →
    let g (th : Thread) := th.tagAt a.toNat
    let n (th : Thread) := max (elemN (g th)) (elemN tgt)
    let ks (th : Thread) := n th / elemN (g th) * (g th).regs
    let kd (th : Thread) := n th / elemN tgt * tgt.regs
    (∀ th ∈ s.m.bundle, (g th).isData = true ∧ (∀ j < ks th, th.tagAt (a.toNat + j) = g th) ∧ a.toNat % ks th = 0 ∧
      d.toNat % kd th = 0 ∧ a.toNat + ks th ≤ th.regs.length ∧ d.toNat + kd th ≤ th.regs.length) →
    let r (th : Thread) := (((List.range (n th / elemN (g th))).map fun j =>
      elems (g th) (bitsOf (th.block (a.toNat + j * (g th).regs) (g th).regs))).flatten).map (convElem (g th) tgt rm sat)
    let v (th : Thread) := (runs (elemN tgt) (n th / elemN tgt) ((r th).map (·.1))).map (join tgt)
    Floats (.cvt d a sat rm tgt) s tm (fun th => (r th).foldl (fun acc x => acc.union x.2) {})
      (fun th => { bits := BitVec.ofNat 128 ((v th).headD 0), tag := tgt })
      fun th x => x.setRegs d.toNat (((v th).map (valRegs tgt)).flatten)

/-! ### Words across the lanes of a bundle -/

/-- 23 R354: QSWP, QBRD and SHFL take A of another lane of the bundle, or a lane's own where that lane stands elsewhere. -/
def Obligations.Exchanges : Prop :=
  ∀ (s : State) (tm : Team) (d a b : Reg) (x : BitVec 2), Issues s tm →
    ∀ p ∈ ([(.qswp d a x, fun th => th.lane ^^^ x.toNat), (.qbrd d a x, fun th => th.lane / 4 * 4 + x.toNat),
        (.shfl d a b, fun th => (th.reg b.toNat).bits.toNat % 32)] : List (Instr × (Thread → Nat))),
      staticBad s.m tm p.1 = false → (p.1 = .shfl d a b → ∀ th ∈ s.m.bundle, th.tagAt b.toNat = .i32) →
      let src (th : Thread) : Thread := (s.m.bundle.find? fun u => u.lane == p.2 th).getD th
      let k (th : Thread) := ((src th).tagAt a.toNat).regs
      (∀ th ∈ s.m.bundle, (src th).tagAt a.toNat ≠ .raw ∧ (src th).formed a.toNat = true ∧ d.toNat % k th = 0 ∧
        a.toNat % k th = 0 ∧ d.toNat + k th ≤ th.regs.length) →
      Becomes p.1 s fun th => (th.onward s.m 1).setRegs d.toNat ((src th).block a.toNat (k th))

/-- 22 R329, R330, 24 R371, R372: VOTE over the real lanes of the bundle: all, any, all or none, and the mask, whose bit is set
for each real lane whose predicate is true. GRED reduces A over the real lanes in ascending order, and gives every lane the
result; over no real lane it is the identity. -/
def Obligations.VotesReductions : Prop :=
  (∀ (s : State) (tm : Team) (j k : KIx) (d : Reg), Issues s tm →
      let real := s.m.bundle.filter fun th => !th.helper
      Becomes (.vote (.all j) k) s (fun th => (th.onward s.m 1).setPred j (real.all fun u => u.pred k)) ∧
      Becomes (.vote (.any j) k) s (fun th => (th.onward s.m 1).setPred j (real.any fun u => u.pred k)) ∧
      Becomes (.vote (.uni j) k) s
        (fun th => (th.onward s.m 1).setPred j ((real.all fun u => u.pred k) || !real.any fun u => u.pred k)) ∧
      (d.toNat < tm.regs → ∃ v : Word, (∀ l < 32, v.getLsbD l = real.any fun u => u.lane == l && u.pred k) ∧
        Becomes (.vote (.bal d) k) s fun th => (th.onward s.m 1).setRegs d.toNat [{ bits := v, tag := .i32 }])) ∧
  ∀ (s : State) (tm : Team) (d a : Reg) (o : RedOp) (g : Tag), Issues s tm → staticBad s.m tm (.gred d a o) = false →
    amoAccepts o.amo g = true → (∀ th ∈ s.m.bundle, th.tagAt a.toNat = g ∧ th.formed a.toNat = true) →
    (g.regs = 2 → d.toNat % 2 = 0 ∧ a.toNat % 2 = 0) →
    let vs := (s.m.bundle.filter fun th => !th.helper).map fun th => th.valAt a.toNat
    Becomes (.gred d a o) s fun th => th.put s.m 1 d.toNat g
      (match vs with | [] => identity o.amo g | v :: vs => vs.foldl (amoApply o.amo g) v)

/-! ### Control -/

/-- 04 R81, 21 R307, R308: a lane takes BR or CALL where its predicate differs from N, and goes to slot 0 of its packet's index
plus the displacement; CALL leaves slot 0 of the next packet in the link pair. Below packet 0 every lane that takes either enters
its handler with cause 0x11, and the lanes that do not take it go on. -/
def Obligations.Branches : Prop :=
  ∀ (s : State) (tm : Team) (h : BrHint) (k : KIx) (n : Bool) (disp : BitVec 19), Issues s tm →
    let p : Int := (s.m.cur.pc.toNat / 3 : Nat) + disp.toInt
    (0 ≤ p →
      Becomes (.br h k n disp) s (fun th =>
        if th.pred k ≠ n then { th.onward s.m 1 with pc := BitVec.ofNat 64 (3 * p.toNat), taken := true } else th.onward s.m 1) ∧
      (2 ≤ tm.regs → Becomes (.call h k n disp) s fun th =>
        if th.pred k ≠ n then { (th.onward s.m 1).setRegs (th.regs.length - 2)
            (valRegs .i64 (3 * (s.m.cur.pc.toNat / 3 + 1))) with pc := BitVec.ofNat 64 (3 * p.toNat), taken := true }
        else th.onward s.m 1)) ∧
    (p < 0 → (∀ th ∈ s.m.bundle, th.pred k ≠ n → th.canEnter) →
      ∀ i ∈ [Instr.br h k n disp, .call h k n disp], staticBad s.m tm i = false →
        Becomes i s fun th => if th.pred k ≠ n then { th.entered s tm i 0x11 0 0 sub0 with
          fltMask := maskOf (s.m.bundle.filter fun u => u.pred k != n) } else th.onward s.m 1)

/-- 04 R82: BRX and RET take their target from a pair, RTE from FLT_PC once that was written. A target that is not a multiple of
3 raises cause 0x20, precisely, with the program counter unchanged: for RTE a team fault of kind 9 (16 R242). FLT_ADDR holding
the target, and RTE's as a team fault, are the model's reading (log 19). -/
def Obligations.Jumps : Prop :=
  ∀ (s : State) (tm : Team), Issues s tm →
    (∀ a : Reg, (∀ th ∈ s.m.bundle, th.tagAt a.toNat = .i64 ∧ th.formed a.toNat = true) →
      ∀ i ∈ [Instr.brx a, .ret a], staticBad s.m tm i = false →
        ((∀ th ∈ s.m.bundle, th.valAt a.toNat % 3 = 0) →
          Becomes i s fun th => { th.onward s.m 1 with pc := BitVec.ofNat 64 (th.valAt a.toNat) }) ∧
        ((∀ th ∈ s.m.bundle, th.canEnter ∧ th.valAt a.toNat % 3 ≠ 0) →
          Becomes i s fun th => th.entered s tm i 0x20 (BitVec.ofNat 64 (th.valAt a.toNat)) 0 sub0)) ∧
    ((∀ th ∈ s.m.bundle, th.handlerActive = true ∧ th.written = true ∧ th.fltPc.toNat % 3 = 0) →
      Becomes (.rte false) s fun th => { th.onward s.m 1 with handlerActive := false, pc := th.fltPc }) ∧
    ∀ (th : Thread) (sub : Bool), Lone s tm th → tm.status = .running → th.ops = [] → th.handlerActive = true →
      th.written = true → th.fltPc.toNat % 3 ≠ 0 →
      (sub = true → ∀ d g n, th.fltDst = .regs d g n → th.fltSub.tag.width = g.width) →
      TeamStops (.rte sub) s tm th 9 0x20 th.fltPc

/-- 16 R240, R242, R243, 23 R357, 24 R369: TRAP enters the handler with cause 0x40 and its code; with no handler, or in one, it
is a team fault of kind 8 or 9. RTE returns to Resume; RTE.sub leaves FLT_SUB in place of the faulted word, where its width fits,
or, once FLT_PC was written, puts it in the word's destination and goes there; out of a handler RTE is illegal. A word in whose
place it stands, whichever it is, writes FLT_SUB to the destination of the word that faulted and does nothing else, whatever its
operands, and its lane goes on past it. What RTE.sub does with Written set, and the width and destination as they stood at entry,
are the model's reading (log 18). -/
def Obligations.TrapsAndReturns : Prop :=
  (∀ (s : State) (tm : Team) (code : BitVec 7), Issues s tm →
    ((∀ th ∈ s.m.bundle, th.canEnter) →
      Becomes (.trap code) s fun th => th.entered s tm (.trap code) 0x40 (code.setWidth 64) 0 sub0) ∧
    (∀ (th : Thread), Lone s tm th → tm.status = .running → th.ops = [] →
      (th.handlerActive = true → TeamStops (.trap code) s tm th 9 0x40 (code.setWidth 64)) ∧
      (th.handlerActive = false → th.utvec = 0 → TeamStops (.trap code) s tm th 8 0x40 (code.setWidth 64))) ∧
    ((∀ th ∈ s.m.bundle, th.handlerActive = true ∧ th.written = false) →
      Becomes (.rte false) s fun th => { th.onward s.m 1 with handlerActive := false, pc := th.resume }) ∧
    ((∀ th ∈ s.m.bundle, th.handlerActive = true ∧ ∀ d g n, th.fltDst = .regs d g n → th.fltSub.tag.width = g.width) →
      ((∀ th ∈ s.m.bundle, th.written = false) →
        Becomes (.rte true) s fun th => { th.onward s.m 1 with
          handlerActive := false, pc := th.resume, subst := some { addr := th.fltPc, dst := th.fltDst, sub := th.fltSub } }) ∧
      ((∀ th ∈ s.m.bundle, th.written = true ∧ th.fltPc.toNat % 3 = 0) →
        Becomes (.rte true) s fun th =>
          let y : Thread := match th.fltDst with
            | .none => th.onward s.m 1
            | .pred k => (th.onward s.m 1).setPred k (th.fltSub.bits.getLsbD 0)
            | .regs r _ n => (th.onward s.m 1).setRegs r ((List.replicate n (valRegs th.fltSub.tag th.fltSub.bits.toNat)).flatten)
          { y with handlerActive := false, pc := th.fltPc })) ∧
    ((∀ th ∈ s.m.bundle, th.canEnter) → ∀ sub, Becomes (.rte sub) s fun th => th.entered s tm (.rte sub) 1 0 0 sub0)) ∧
  ∀ (s : State) (tm : Team) (th : Thread) (sb : Subst) (i : Instr), i.isEvent = false →
    s.m.team? s.m.cur.team = some tm → tm.known = [] → s.m.bundle = [th] → s.m.thread? th.ref = some th → th.wait = .ready →
    th.subst = some sb → sb.addr = s.m.cur.pc →
      Becomes i s fun th => match sb.dst with
        | .none => th.onward s.m i.size
        | .pred k => (th.onward s.m i.size).setPred k (sb.sub.bits.getLsbD 0)
        | .regs r _ n => (th.onward s.m i.size).setRegs r ((List.replicate n (valRegs sb.sub.tag sb.sub.bits.toNat)).flatten)

/-- 03 R55-R57, 16 R240, 21 R297, 04 R80: what a word leaves in the exception registers of the lanes that trap on an operand, in
each family of integer, move and memory words: a tag that the word does not take is cause 0x02, a register that the tag's width
does not align 0x01, each with FLT_ADDR and FLT_EXC 0 and FLT_SUB 0 tagged RAW; a misaligned address is 0x20, with the address
and, in FLT_SUB, 0 tagged as the destination would have been. Nothing else of the lane changes. The memory words are stated for
lanes that are no helpers (02 R37). -/
def Obligations.OperandTraps : Prop :=
  ∀ (s : State) (tm : Team) (d a b : Reg) (i : Instr), Issues s tm → (∀ th ∈ s.m.bundle, th.canEnter) → staticBad s.m tm i = false →
    let all (p : Thread → Prop) : Prop := ∀ th ∈ s.m.bundle, p th
    let takes (c : Nat) : Prop := Becomes i s fun th => th.entered s tm i c 0 0 sub0
    let ours (p : Thread → Prop) : Prop := all fun th => th.helper = false ∧ p th
    (∀ (n : BitVec 11) (n9 : BitVec 9) (m : BitVec 16) (n6 : BitVec 6) (k : KIx) (f : Cond), all (fun th => th.tagAt a.toNat = .raw) →
      i ∈ [.iaddReg d a b, .iaddImm d a n, .isub d a b, .imul d a b, .imulh d a b, .imin d a b, .imax d a b, .iabs d a, .imad d a b,
        .dot4 d a b, .andReg d a b, .andImm d a n9, .orReg d a b, .orImm d a n9, .xorReg d a b, .xorImm d a n9, .inot d a,
        .shlReg d a b, .shrReg d a b, .shaReg d a b, .shlImm d a n6, .shrImm d a n6, .shaImm d a n6, .clz d a, .popc d a,
        .bfx d a b, .bfi d a b, .bprm d a b, .iset k a b f, .sel d a b k, .pack d a b, .unpk d a, .movh a m] →
      takes 2) ∧
    (∀ (n : BitVec 5) (h : CHint) (g : Tag) (r : Bool), ours (fun th => th.tagAt a.toNat = .raw) →
      i ∈ [.ld d a h g n, .ldb d a r g n, .st d a h g n, .pfch a h g n] → takes 2) ∧
    (∀ f : AmoOp, ours (fun th => th.tagAt a.toNat = .raw ∧ th.tagAt b.toNat = .i32) → amoAccepts f .i32 = true → b.toNat % 2 = 0 →
      i ∈ [.amo d a b f, .apst a b f, .acas d a b] → takes 2) ∧
    (∀ (n : BitVec 11) (n9 : BitVec 9) (n6 : BitVec 6) (k : KIx) (f : Cond), all (fun th => th.tagAt a.toNat = .i64 ∧ th.formed a.toNat = true) →
      a.toNat % 2 = 1 → i ∈ [.iaddReg d a b, .iaddImm d a n, .isub d a b, .imul d a b, .imin d a b, .imax d a b, .iabs d a, .imad d a b,
        .andReg d a b, .andImm d a n9, .orReg d a b, .orImm d a n9, .xorReg d a b, .xorImm d a n9, .inot d a,
        .shlImm d a n6, .shrImm d a n6, .shaImm d a n6, .clz d a, .popc d a, .bfx d a b, .bfi d a b, .iset k a b f, .unpk d a] →
      takes 1) ∧
    (all (fun th => th.tagAt a.toNat = .i32 ∧ th.tagAt b.toNat = .i32) → d.toNat % 2 = 1 → i = .pack d a b → takes 1) ∧
    (∀ f : AmoOp, ours (fun th => th.tagAt b.toNat = .i64) → b.toNat % 2 = 1 → i ∈ [.amo d a b f, .apst a b f, .acas d a b] → takes 1) ∧
    ∀ (h : CHint) (g : Tag) (o k : BitVec 5) (r : Bool) (x : Thread → Nat) (at_ : Thread → Nat),
      ours (fun th => th.pairIs a (x th) ∧ at_ th % (g.width / 8) ≠ 0) →
      let far : Prop := all fun th => at_ th = (((x th : Int) + o.toInt * (g.width / 8 : Nat)) % 2 ^ 64).toNat
      let strikes (t : Tag) : Prop := Becomes i s fun th => th.entered s tm i 0x20 (BitVec.ofNat 64 (at_ th)) 0 { bits := 0, tag := t }
      (i = .ld d a h g o → far → strikes g) ∧ (i = .ldb d a r g k → all (fun th => at_ th = x th) → strikes g) ∧
      (i = .st d a h g o → far → all (fun th => ∀ j < g.regs, th.tagAt (d.toNat + j) = .raw ∨ th.tagAt (d.toNat + j) = g) → strikes .raw)

/-- 02 R31, R32: ENRL adds its lanes to E; PARK holds those of its lanes that are enrolled and releases the mask once every
enrolled lane is parked; STRK takes its lanes out of both, and releases the mask if those left are all parked. -/
def Obligations.RejoinMasks : Prop :=
  ∀ (s : State) (tm : Team) (g : Group) (n : JIx), Issues s tm → s.m.group? s.m.cur.team s.m.cur.group = some g →
    g.e.length = 8 → g.p.length = 8 →
    let l := laneSet s.m.bundle
    let e := g.e.getD n.toNat 0
    let p := g.p.getD n.toNat 0
    let leaves (t : State) (e' p' : Word) : Prop := s.Keeps t ∧ t.m.teams = s.m.teams ∧
      ∃ g', t.m.group? s.m.cur.team s.m.cur.group = some g' ∧ g'.e = g.e.set n.toNat e' ∧ g'.p = g.p.set n.toNat p'
    let frees (t : State) : Prop := leaves t 0 0 ∧ ∀ u x, s.m.thread? u = some x → u.team = s.m.cur.team →
      u.tidx / 32 = s.m.cur.group → x.wait = .held n.toNat → t.m.thread? u = some { x with wait := .ready, issued := s.m.clk }
    (∃ t, exec (.enrl n) s = .next t ∧ leaves t (e ||| l) p ∧
      ∀ th ∈ s.m.bundle, t.m.thread? th.ref = some (th.onward s.m 1)) ∧
    (∃ t, exec (.park n) s = .next t ∧
      if p ||| (l &&& e) = e then frees t ∧ ∀ th ∈ s.m.bundle, t.m.thread? th.ref = some (th.onward s.m 1)
      else leaves t e (p ||| (l &&& e)) ∧ ∀ th ∈ s.m.bundle, t.m.thread? th.ref = some
        (if e.getLsbD th.lane then { th.onward s.m 1 with wait := .held n.toNat } else th.onward s.m 1)) ∧
    (∃ t, exec (.strk n) s = .next t ∧
      (if e &&& ~~~l ≠ 0 ∧ p &&& ~~~l = e &&& ~~~l then frees t else leaves t (e &&& ~~~l) (p &&& ~~~l)) ∧
      ∀ th ∈ s.m.bundle, t.m.thread? th.ref = some (th.onward s.m 1))

/-- 02 R34, R38-R40, 21 R319: EXIT ends its lanes, which keep their registers. Each is struck from every mask of its group as
STRK would strike it, which can release the threads held there (stated for lanes that no mask holds, in a group that does not
retire and with no helper retiring along); a team whose last group has retired retires. -/
def Obligations.Exits : Prop :=
  ∀ (s : State) (tm : Team) (g : Group), Issues s tm → s.m.group? s.m.cur.team s.m.cur.group = some g → g.e.length = 8 →
    g.p.length = 8 →
    let here (u : TRef) : Prop := u.team = s.m.cur.team ∧ u.tidx / 32 = s.m.cur.group
    let leaves (u : TRef) : Prop := ∃ th ∈ s.m.bundle, th.ref = u
    let stays (x : Thread) : Prop := here x.ref ∧ ¬ leaves x.ref ∧ x.wait ≠ .exited
    let l := laneSet s.m.bundle
    ∃ t, exec .exit s = .next t ∧ s.Keeps t ∧
      (∀ th ∈ s.m.bundle, ∃ x, t.m.thread? th.ref = some x ∧ x.wait = .exited ∧ x.regs = th.regs ∧ x.preds = th.preds) ∧
      (∃ g', t.m.group? s.m.cur.team s.m.cur.group = some g' ∧
        (∀ th ∈ s.m.bundle, ∀ n < 8, (g'.e.getD n 0).getLsbD th.lane = false ∧ (g'.p.getD n 0).getLsbD th.lane = false) ∧
        ((∃ x ∈ s.m.threads, stays x) →
          (∀ x ∈ s.m.threads, stays x → x.helper = true →
            ∃ r ∈ s.m.threads, stays r ∧ r.helper = false ∧ r.lane / 4 = x.lane / 4) →
          ∀ n < 8, g.p.getD n 0 &&& l = 0 →
            let e := g.e.getD n 0 &&& ~~~l
            let p := g.p.getD n 0
            let frees : Bool := e != 0 && p == e
            (g'.e.getD n 0, g'.p.getD n 0) = (if frees then (0, 0) else (e, p)) ∧
            ∀ u x, s.m.thread? u = some x → here u → x.wait = .held n →
              t.m.thread? u = some (if frees then { x with wait := .ready, issued := s.m.clk } else x))) ∧
      ∃ tm', t.m.team? s.m.cur.team = some tm' ∧ (tm.status = .running →
        ((∀ x ∈ t.m.groups, x.team = s.m.cur.team → x.retired = true) ↔ tm'.status = .retired))

/-- 04 R83, 09 R169, 16 R243, R244, 20 R287, 21 R309, 24 R379, R382: WAITC's form gives four 6-bit thresholds with bit 0
reserved; a lane goes on when its counts of loads, stores, drover commands and tile operations are within them, 63 accepting any
count, and is held otherwise. XFEN holds a lane while any of its own operations is outstanding, and then reports an imprecise
fault that its team has met; YILD yields; BRK does nothing in NONE, in HALT stops its lanes behind its chain and asks for a save
that only the debugger undoes, and in TRACE leaves a marker of its code and lanes. The layout of a trace record is the model's
choice (log 46). -/
def Obligations.Waits : Prop :=
  (∀ l st d t : BitVec 6,
    decodeTableWord 32 (0b0101101#7 ++ l ++ st ++ d ++ t ++ 0#1).toNat = some (.waitc l st d t) ∧
    decodeTableWord 32 (0b0101101#7 ++ l ++ st ++ d ++ t ++ 1#1).toNat = none) ∧
  (∀ (s : State) (tm : Team) (l st d t : BitVec 6) (f : Thread → Thread), Issues s tm →
    (∀ th, (th.countsWithin [l, st, d, t] → f th = th.onward s.m 1) ∧
      (¬ th.countsWithin [l, st, d, t] →
        f th = { th.onward s.m 1 with wait := .counts l.toNat st.toNat d.toNat t.toNat })) →
    Becomes (.waitc l st d t) s f) ∧
  ∀ (s : State) (tm : Team) (code : BitVec 7), Issues s tm →
    (tm.latent = [] → ∀ f : Thread → Thread, (∀ th, (th.countsWithin [0, 0, 0, 0] → f th = th.onward s.m 1) ∧
        (¬ th.countsWithin [0, 0, 0, 0] → f th = { th.onward s.m 1 with wait := .xfen })) →
      Becomes .xfen s f) ∧
    (∀ (th : Thread) (i : Imprecise), Lone s tm th → tm.status = .running → tm.latent = [i] → th.ops = [] → th.drover = 0 →
      i.thread = some th.ref → ∃ t tm', exec .xfen s = .next t ∧ t.m.team? tm.uid = some tm' ∧ tm'.status = .stopping ∧
        s.Keeps t ∧ ∃ r, tm'.fault = some r ∧ r.kind = 7 ∧ r.cause = i.cause ∧ r.addr = i.addr) ∧
    Becomes .yild s (fun th => { th.onward s.m 1 with yielded := true }) ∧
    (s.sys.debug = .none → Becomes (.brk code) s fun th => th.onward s.m 1) ∧
    (s.sys.debug = .halt → tm.status = .running → tm.hurdles = [] → ∃ t, exec (.brk code) s = .next t ∧ s.Keeps t ∧
      t.m.team? tm.uid = some { tm with
        brk := true, preempt := some { method := .save, since := s.m.clk, defer := none, forced := true }, defer := false } ∧
      ∀ th ∈ s.m.bundle, t.m.thread? th.ref = some { th.onward s.m 1 with wait := .halted }) ∧
    (s.sys.debug = .trace → Acts (.brk code) s fun m => m.appendTrace (s.m.cur.pc, laneSet s.m.bundle, 0x80 + code.toNat))


/-! ### Memory words of one real lane -/

/-- 04 R80, 09 R169, 22 R339: LD and LDB of the lane's own scratchpad put the bytes read on their way to D, in the loads class; a
stalling LDB holds its lane until they return. -/
def Obligations.LoadsOnChip : Prop :=
  ∀ (s : State) (tm : Team) (th : Thread) (d a : Reg) (h : CHint) (t : Tag) (o k : BitVec 5) (x off : Nat), Lone s tm th →
    th.pairIs a x →
    let n := t.width / 8
    let op (m : Mach) : Op := { id := m.uid, kind := .value (valRegs t (leNat (tm.scratch.read off n))), dst := .regs d.toNat t 1
                                loads := true, stores := false, tile := false }
    let issued (m : Mach) : Mach := ({ m with uid := m.uid + 1 } : Mach).updThread th.ref fun y => { y with ops := y.ops ++ [op m] }
    (staticBad s.m tm (.ld d a h t o) = false → tm.own (((x : Int) + o.toInt * n) % 2 ^ 64).toNat n off →
      Acts (.ld d a h t o) s issued) ∧
    (staticBad s.m tm (.ldb d a true t k) = false → x < 2 ^ 64 → tm.own x n off → Acts (.ldb d a true t k) s issued) ∧
    (staticBad s.m tm (.ldb d a false t k) = false → x < 2 ^ 64 → tm.own x n off → Acts (.ldb d a false t k) s fun m =>
      (issued m).updThread th.ref fun y => { y with wait := .stall m.uid })

/-- 04 R80, 07 R140, R141, 10 R175, 22 R339, R341, 23 R352: LD and LDB of global memory put a load of its line on its way: it
joins the core's outstanding fetch of the line; else, but on an NC page, the copy in the L1 serves it, an LDB only one within its
bound of the mirror, which is pulled first where there is none, with the core's own bytes in place; else a fetch begins. A
stalling LDB holds its lane until the load returns. LD notes its hint, LDB makes the line a normal one. PFCH of a reachable line
brings it into the L1. LD and PFCH act at the effective address, LDB at A. That a fetch is an event of its own is the model's
step (log 25). -/
def Obligations.LoadsAndPrefetch : Prop :=
  ∀ (s : State) (tm : Team) (th : Thread) (d a : Reg) (h : CHint) (t : Tag) (o k : BitVec 5) (x y : Nat) (l : Leaf), Lone s tm th →
    th.pairIs a x → s.m.Reaches tm th y (t.width / 8) false l → (∀ o ∈ th.ops, ∀ p v n g, o.kind ≠ .launch true p v n g) →
    (∀ q ∈ s.m.loadsOn, q.word ≠ s.m.uid) →
    let here := y = (((x : Int) + o.toInt * (t.width / 8 : Nat)) % 2 ^ 64).toNat
    let line := lineOf (l.pa y)
    let nc := pteNc l.bits
    let hinted (c : CHint) (f : Mach → Mach) (m : Mach) : Mach := f (m.setHint tm.core line c)
    let put (m : Mach) (alloc : Bool) (bound : Option Nat) (copy : Option (List Byte)) (since : Nat) (f : Option Nat) : Mach :=
      m.updThread th.ref fun z => { z with ops := z.ops ++ [{
        id := m.uid, dst := .regs d.toNat t 1, loads := true, stores := false, tile := false
        kind := .load { pa := l.pa y, va := y, size := t.width / 8, nc := nc, alloc := alloc, bound := bound, copy := copy
                        data := none, fetch := f, since := since, word := s.m.uid } }] }
    let plain (alloc : Bool) (bound : Option Nat) (copy : Option (List Byte)) (since : Nat) (m : Mach) : Mach :=
      { put m alloc bound copy since none with uid := m.uid + 1 }
    let joins (alloc : Bool) (bound : Option Nat) (f : Fetch) (m : Mach) : Mach :=
      { put m alloc bound none 0 (some f.id) with
        uid := m.uid + 1
        fetches := m.fetches.map fun (z : Fetch) =>
          if z.id == f.id then { z with alloc := z.alloc || alloc, nc := z.nc && nc } else z }
    let fetches (alloc : Bool) (bound : Option Nat) (m : Mach) : Mach :=
      { put m alloc bound none 0 (some (m.uid + 1)) with
        uid := m.uid + 2
        fetches := m.fetches ++ [{ id := m.uid + 1, core := tm.core, line := line, alloc := alloc, nc := nc }] }
    (here → staticBad s.m tm (.ld d a h t o) = false →
      let keep : Bool := h != .nl && !nc
      (∀ f, s.m.fetching tm.core line = some f → Acts (.ld d a h t o) s (hinted h (joins keep none f))) ∧
      (s.m.fetching tm.core line = none →
        (nc = false → (s.m.l1? tm.core line).isSome = true → Acts (.ld d a h t o) s (hinted h (plain keep none none 0))) ∧
        (nc = true ∨ s.m.l1? tm.core line = none → Acts (.ld d a h t o) s (hinted h (fetches keep none))))) ∧
    (∀ refetch : Bool, y = x → staticBad s.m tm (.ldb d a refetch t k) = false →
      let runs (f : Mach → Mach) : Prop := Acts (.ldb d a refetch t k) s fun m =>
        if refetch then hinted .normal f m else (hinted .normal f m).updThread th.ref fun z => { z with wait := .stall s.m.uid }
      (nc = true → (∀ f, s.m.fetching tm.core line = some f → runs (joins false none f)) ∧
        (s.m.fetching tm.core line = none → runs (fetches false none))) ∧
      (nc = false →
        (∀ f, s.m.fetching tm.core line = some f → runs (joins true (some k.toNat) f)) ∧
        (s.m.fetching tm.core line = none →
          let entry := s.m.mirrors.find? fun e => e.1 == dieOf tm.core && e.2.1 == regionOf line
          let v := match entry with | some e => e.2.2 | none => s.m.round (regionOf line)
          let pulled (m : Mach) : Mach :=
            if entry.isSome then m else { m with mirrors := (dieOf tm.core, regionOf line, v) :: m.mirrors }
          let fresh (c : L1Line) : Prop := (v - c.round).toNat ≤ k.toNat ∨ 2 ^ 31 ≤ (v - c.round).toNat
          entry.isSome = true ∨ (s.m.mirrors.filter fun e => e.1 == dieOf tm.core).length < 4096 →
          (∀ c, s.m.l1? tm.core line = some c → fresh c → th.ops = [] → runs fun m => plain true (some k.toNat)
            (some (s.m.overlay tm.core th.ref line c.data)) c.since (pulled m)) ∧
          ((∀ c, s.m.l1? tm.core line = some c → ¬ fresh c) → runs fun m => fetches true (some k.toNat) (pulled m))))) ∧
    (here → staticBad s.m tm (.pfch a h t o) = false → s.m.lookup tm.core (s.m.subOf th.ref) tm.ctx y = some l → nc = false →
      s.m.atHome (l.pa y) → s.m.l1? tm.core line = none → s.m.fetching tm.core line = none →
      (s.m.l1Set tm.core (setOf line)).length < 16 →
      ∃ s', exec (.pfch a h t o) s = .next s' ∧ s'.m.thread? th.ref = some (th.onward s.m 1) ∧ s.Keeps s' ∧
        s'.m.versions = s.m.versions ∧ s'.m.teams = s.m.teams ∧
        (h ≠ .nl → ∃ c, s'.m.l1? tm.core line = some c ∧ c.data = (List.range 128).map fun j =>
          s.m.dieByte (dieOf tm.core) (line + j)))

/-- 23 R363, 07 R127, 09 R169: ST to the lane's own scratchpad writes it at issue; ST to global memory adds its bytes to the task
version, leaving memory as it stands until they are published. It counts in the stores class. -/
def Obligations.Stores : Prop :=
  ∀ (s : State) (tm : Team) (th : Thread) (d a : Reg) (h : CHint) (t : Tag) (o : BitVec 5) (x off : Nat) (l : Leaf),
    Lone s tm th → th.pairIs a x → staticBad s.m tm (.st d a h t o) = false →
    (∀ j < t.regs, th.tagAt (d.toNat + j) = .raw ∨ th.tagAt (d.toNat + j) = t) →
    let n := t.width / 8
    let ea := (((x : Int) + o.toInt * n) % 2 ^ 64).toNat
    let bs := leBytes (bitsOf (th.block d.toNat t.regs)) n
    let op (id va : Nat) (p : Option (Nat × Nat)) : Op :=
      { id := id, kind := .store va, dst := .none, loads := false, stores := true, tile := false, place := p }
    (tm.scratch.wf = true → (∀ o ∈ th.ops, ∀ u y k, o.kind ≠ .tile u y k) → tm.own ea n off → ∃ s' tm', exec (.st d a h t o) s = .next s' ∧
      s'.m.thread? th.ref = some { th.onward s.m 1 with ops := th.ops ++ [op s.m.uid 0 none] } ∧
      s.OthersWait s' th.ref ∧ s'.m.team? tm.uid = some tm' ∧ tm.scratch.Stored tm'.scratch off bs ∧ s.Keeps s' ∧ s'.m.versions = s.m.versions) ∧
    (th.ops = [] → s.m.areas = [] → s.m.vlines tm.uid + 1 ≤ 262144 / max 1 (s.m.teamsOn (dieOf tm.core)) →
      s.m.Reaches tm th ea n true l → ∃ s', exec (.st d a h t o) s = .next s' ∧
        s'.m.thread? th.ref = some { th.onward s.m 1 with ops := [op s.m.uid ea (some (l.pa ea, ea))] } ∧
        s.OthersWait s' th.ref ∧ s.Keeps s' ∧ s'.m.teams = s.m.teams ∧ ∃ new, s'.m.versions = new ++ s.m.versions ∧ new.length = n ∧
          ∀ j < n, ∃ b, new[j]? = some b ∧ b.pa = l.pa ea + j ∧ b.byte = bs.getD j 0 ∧ b.ref = th.ref ∧ b.core = tm.core ∧
            b.op = s.m.uid ∧ b.inL1 = false ∧ b.diePub = false)

/-- 09 R157-R164, 07 R136, 21 R300, R301, R303: AMO, ACAS and APST update their own scratchpad, or the home of a page whose
executor is not its core, as one step: the old value returns in both classes (AMO, ACAS) or nothing does (APST), and every other
byte stands. On a CORE page the core owns the line then, with no other copy, memory stands, and the new value is an unpublished
store in its L1, from the line as a copy that is granted bare stands there. An APST on an UPDT page leaves memory as it stands
and enters the core's partial of the line, whose first element holds the operation applied to its identity. That it acts as the
word issues is the model's step (log 24). -/
def Obligations.Atomics : Prop :=
  (∀ (s : State) (tm : Team) (th : Thread) (d a b : Reg) (f : AmoOp) (x off : Nat) (l : Leaf), Lone s tm th → th.pairIs a x →
    (∀ y ∈ s.m.threads, ∀ o ∈ y.ops, ∀ r, o.kind ≠ .atomic r) →
    let g := th.tagAt b.toNat
    let n := g.width / 8
    let back (id : Nat) (old : Nat) : Op :=
      { id := id, kind := .value (valRegs g old), dst := .regs d.toNat g 1, loads := true, stores := true, tile := false }
    let gone (id va : Nat) : Op := { id := id, kind := .store va, dst := .none, loads := false, stores := true, tile := false }
    let there (o : Op) : Op := { o with drop := some (lineOf (l.pa x)), place := some (l.pa x, x) }
    let arg := th.valAt b.toNat
    ∀ p ∈ ([(.amo d a b f, fun id _ old => back id old, fun old => some (amoApply f g old arg)),
        (.apst a b f, fun id va _ => gone id va, fun old => some (amoApply f g old arg)),
        (.acas d a b, fun id _ old => back id old, fun old => if old = arg then some (th.valAt (b.toNat + g.regs)) else none)]
        : List (Instr × (Nat → Nat → Nat → Op) × (Nat → Option Nat))),
      staticBad s.m tm p.1 = false → th.formed b.toNat = true → (p.1 ≠ .apst a b f → d.toNat % g.regs = 0) →
      (if p.1 = .acas d a b then g ≠ .raw ∧ b.toNat % (2 * g.regs) = 0 ∧ th.tagAt (b.toNat + g.regs) = g ∧
          th.formed (b.toNat + g.regs) = true
        else amoAccepts f g = true ∧ b.toNat % g.regs = 0) →
      (tm.scratch.wf = true → tm.own x n off → ∃ s' tm', exec p.1 s = .next s' ∧
        let old := leNat (tm.scratch.read off n)
        s'.m.thread? th.ref = some { th.onward s.m 1 with ops := th.ops ++ [p.2.1 s.m.uid 0 old] } ∧ s.OthersWait s' th.ref ∧
        s'.m.team? tm.uid = some tm' ∧ s.Keeps s' ∧
        match p.2.2 old with
        | some v => tm.scratch.Stored tm'.scratch off (leBytes v n)
        | none => tm'.scratch = tm.scratch) ∧
      (s.m.mem.wf = true → s.m.Reaches tm th x n true l → admits l.bits = true → pteMig l.bits = false →
        pteExc l.bits ≠ 0 → (p.1 = .apst a b f → pteExc l.bits ≠ 2) → th.ops = [] → s.m.settled → s.m.atHome (l.pa x) →
        ∃ s', exec p.1 s = .next s' ∧
        let old := leNat (s.m.mem.read (l.pa x) n)
        s'.m.thread? th.ref = some { th.onward s.m 1 with ops := [there (p.2.1 s.m.uid x old)] } ∧ s.OthersWait s' th.ref ∧
        s'.m.teams = s.m.teams ∧
        match p.2.2 old with
        | some v => s.Puts s' (l.pa x) (leBytes v n)
        | none => s.Keeps s') ∧
      (s.m.Reaches tm th x n true l → admits l.bits = true → pteMig l.bits = false → pteExc l.bits = 0 → th.ops = [] →
        s.m.settled → s.m.atHome (l.pa x) → tm.core < 128 → (s.m.l1Set tm.core (setOf (lineOf (l.pa x)))).length < 16 →
        1 ≤ 262144 / max 1 (s.m.teamsOn (dieOf tm.core)) → ∃ s', exec p.1 s = .next s' ∧
        let line := lineOf (l.pa x)
        let old := match (s.m.l1? tm.core line).filter fun _ => s.m.grantsBare tm.core line with
          | some c => leNat ((c.data.drop (l.pa x - line)).take n)
          | none => leNat (s.m.mem.read (l.pa x) n)
        s'.m.thread? th.ref = some { th.onward s.m 1 with ops := [{ p.2.1 s.m.uid x old with place := some (l.pa x, x) }] } ∧
        s.OthersWait s' th.ref ∧ s'.m.teams = s.m.teams ∧ s.Keeps s' ∧ ownerOf (s'.m.meta line) = tm.core ∧
        (∃ c, s'.m.l1? tm.core line = some c ∧ c.owned = true) ∧ (∀ y ∈ s'.m.l1, y.line = line → y.core = tm.core) ∧
        match p.2.2 old with
        | some v => stateOf (s'.m.meta line) = 4 ∧ s'.m.versions.length = n ∧ ∀ j < n, ∃ b, s'.m.versions[j]? = some b ∧
            b.pa = l.pa x + j ∧ b.byte = (leBytes v n).getD j 0 ∧ b.ref = th.ref ∧ b.core = tm.core ∧ b.inL1 = true ∧
            b.atomic = true ∧ b.diePub = false
        | none => stateOf (s'.m.meta line) = 2 ∧ s'.m.versions = [])) ∧
  ∀ (s : State) (tm : Team) (th : Thread) (a b : Reg) (f : AmoOp) (x : Nat) (l : Leaf), Lone s tm th → th.pairIs a x →
    (∀ y ∈ s.m.threads, ∀ o ∈ y.ops, ∀ r, o.kind ≠ .atomic r) →
    let g := th.tagAt b.toNat
    staticBad s.m tm (.apst a b f) = false → amoAccepts f g = true → f ∉ [.xchg, .inc, .dec] → th.formed b.toNat = true →
    b.toNat % g.regs = 0 → s.m.Reaches tm th x (g.width / 8) true l → admits l.bits = true → pteMig l.bits = false →
    pteExc l.bits = 2 → tm.core < 128 → th.ops = [] → s.m.settled → s.m.atHome (l.pa x) → s.m.partials = [] →
    (s.m.l1Set tm.core (setOf (lineOf (l.pa x)))).length < 16 →
    ∃ s', exec (.apst a b f) s = .next s' ∧ s.Keeps s' ∧ s'.m.teams = s.m.teams ∧
      stateOf (s'.m.meta (lineOf (l.pa x))) = 5 ∧
      s'.m.thread? th.ref = some { th.onward s.m 1 with ops :=
        [{ id := s.m.uid, kind := .store x, dst := .none, loads := false, stores := true, tile := false
           drop := some (lineOf (l.pa x)), place := some (l.pa x, x) }] } ∧
      s'.m.partials = [{ core := tm.core, line := lineOf (l.pa x), home := false
                         elems := [(l.pa x - lineOf (l.pa x), f, g,
                           BitVec.ofNat 64 (amoApply f g (identity f g) (th.valAt b.toNat)))] }]

/-- 06 R111, R115, R120, R122, 16 R246, 19 R267, 11 R198: a translation fault parks its lane: a page with no leaf with cause
0x10, one whose leaf denies the access with 0x11, and an atomic's page with MIG set with 0x13. The lane keeps its registers and
its PC, FLT_CAUSE to FLT_EXC say what struck it, and a record of the access kind goes to its context's ring: 1 a load, 2 a store,
3 an atomic, 4 a placed operation, 6 a tile operation, 0 an instruction fetch, 5 a drover command, which is parked itself. That a
fetch's FLT_INST and INST are 0 is the model's choice (log 15). -/
def Obligations.ParkedLanes : Prop :=
  (∀ (s : State) (tm : Team) (th : Thread) (d a b n : Reg) (h : CHint) (t : Tag) (o k : BitVec 5) (x y : Nat), Lone s tm th →
    th.handlerActive = false → y < 2 ^ 57 →
    let page (q : Trans) : Prop := s.m.translate tm (s.m.subOf th.ref) th y = q
    let denied (w : Bool) (l : Leaf) : Prop := page (.ok l) ∧ s.m.allowed tm.ctx l w false = false
    let parks (i : Instr) (kind : Nat) (w : Bool) : Prop := staticBad s.m tm i = false →
      (page .absent → Parks i s tm th kind 0x10 y (excWord 0 0 0 0 0 false) (y / 4096 * 4096) 4096) ∧
      ∀ l, denied w l → Parks i s tm th kind 0x11 y (leafExcWord l 0) (l.page y) l.size
    (th.pairIs a x → y % (t.width / 8) = 0 → (y = (((x : Int) + o.toInt * (t.width / 8 : Nat)) % 2 ^ 64).toNat →
        parks (.ld d a h t o) 1 false ∧
        ((∀ j < t.regs, th.tagAt (d.toNat + j) = .raw ∨ th.tagAt (d.toNat + j) = t) → parks (.st d a h t o) 2 true)) ∧
      (y = x → ∀ refetch, parks (.ldb d a refetch t k) 1 false)) ∧
    (∀ f, th.pairIs a y → th.tagAt b.toNat = .i32 → amoAccepts f .i32 = true → y % 4 = 0 →
      ∀ i ∈ [Instr.amo d a b f, .apst a b f, .acas d a b], (i = .acas d a b → b.toNat % 2 = 0 ∧ th.tagAt (b.toNat + 1) = .i32) →
        parks i 3 true ∧ ∀ l, staticBad s.m tm i = false → page (.ok l) → s.m.allowed tm.ctx l true false = true →
          pteD l.bits = true → admits l.bits = true → pteMig l.bits = true →
          Parks i s tm th 3 0x13 y (leafExcWord l 0) (l.page y) l.size) ∧
    (th.pairIs d y → th.tagAt n.toNat = .i32 → th.valAt n.toNat = 1 → th.tagAt a.toNat = .i32 → t = .i32 → y % 4 = 0 → page .absent →
      staticBad s.m tm (.xfil d a t n) = false →
      Parks (.xfil d a t n) s tm th 4 0x10 y (excWord 0 0 0 0 0 false) (y / 4096 * 4096) 4096) ∧
    ∀ td g, th.pairIs b y → y % 128 = 0 → y + 49152 ≤ 2 ^ 57 → page .absent →
      (∀ p ∈ s.m.pieces tm th 16 y 49152, p.2.2 ≠ .miss) → staticBad s.m tm (.tld td g b) = false →
      Parks (.tld td g b) s tm th 6 0x10 y (excWord 0 0 0 0 0 false) (y / 4096 * 4096) 4096) ∧
  (∀ (s : State) (tm : Team) (th : Thread) (cand : Candidate) (c : Ctx), Lone s tm th → th.handlerActive = false →
    cand.group.team = s.m.cur.team → s.RingReady tm.ctx c →
    let va := 4 * s.m.cur.pc.toNat
    s.m.fetchChain tm cand.group.sub s.m.cur.pc (3 - s.m.cur.pc.toNat % 3) = (s.m, .error (.absent va)) →
    let exc := excWord 0 3 0 0 0 false
    s.Queued (s.issueBundle cand) tm.ctx c {
      addr := BitVec.ofNat 64 va, inst := 0, taskid := tm.taskid, mask := maskOf [th], exc := exc, cause := 0x10, kind := 0
      core := tm.core, tslot := tm.slot, group := s.m.cur.group } ∧
    (s.issueBundle cand).m.thread? th.ref = some { th with
      wait := .parked { cause := 0x10, addr := va % 2 ^ 57, page := va / 4096 * 4096, bytes := 4096 }
      fltCause := 0x10, fltPc := s.m.cur.pc, fltInst := 0, fltMask := maskOf [th], fltAddr := BitVec.ofNat 64 va, fltExc := exc }) ∧
  ∀ (s : State) (tm : Team) (c : Ctx) (q : Cmd), s.m.team? q.team = some tm → tm.status = .running → s.m.cmds = [q] → q.kind = 0 →
    q.done = false → q.parked = none → q.pages = [] → s.m.readsFit q tm = true → q.next < q.word 1 2 → s.RingReady tm.ctx c →
    let va := q.src + q.next
    va + 256 ≤ 2 ^ 57 → s.m.walkNow [tm.uid] tm.core 0 tm.ctx va true = (s.m, none) →
    ∃ t, exec (.lin q.id) s = .next t ∧ s.Queued t tm.ctx c {
        addr := BitVec.ofNat 64 va, inst := q.inst, taskid := tm.taskid, mask := 1#32 <<< (q.owner.tidx % 32), exc := 0, cause := 0x10
        kind := 5, core := tm.core, tslot := tm.slot, group := q.owner.tidx / 32 } ∧
      t.m.cmds = [{ q with parked := some { cause := 0x10, addr := va, page := va / 4096 * 4096, bytes := 4096 } }]

/-- 24 R375, R376: a placed word of no elements changes nothing but that its lane goes on; one of one element counts in the
stores class and applies its operation at the destination's home, to sources that stand elsewhere or at the destination itself,
and every other byte of memory stands. That its parts act as the word issues is the model's step (logs 7, 23). -/
def Obligations.PlacedArithmetic : Prop :=
  ∀ (s : State) (tm : Team) (th : Thread) (d a b n : Reg) (t : Tag) (xd xa xb : Nat) (ld la lb : Leaf), Lone s tm th →
    th.pairIs d xd → th.tagAt n.toNat = .i32 →
    let goes (i : Instr) (os : List Op) (s' : State) : Prop := exec i s = .next s' ∧
      s'.m.thread? th.ref = some { th.onward s.m i.size with ops := th.ops ++ os } ∧ s.OthersWait s' th.ref ∧ s'.m.teams = s.m.teams
    let e := t.width / 8
    let counted : List Op := [{
      id := s.m.uid, kind := .store 0, dst := .none, loads := false, stores := true, tile := false
      place := if spaceOf (ld.pa xd) = 2 then some (ld.pa xd, xd) else none }]
    let here (m : Mach) (x : Nat) (w : Bool) (l : Leaf) : Prop := m.Reaches tm th x e w l ∧ x + e ≤ 2 ^ 57 ∧ admits l.bits = true ∧
      pteMig l.bits = false ∧ pteExc l.bits = pteExc ld.bits ∧ m.atHome (l.pa x)
    let old := leNat (s.m.mem.read (ld.pa xd) e)
    let alone : Prop := s.m.mem.wf = true ∧ th.ops = [] ∧ s.m.settled ∧ pteExc ld.bits ≠ 0 ∧ here s.m xd true ld
    (∀ p ∈ ([(.xadd d a b t n, .add), (.xsub d a b t n, .sub), (.xmul d a b t n, .mul), (.xfma d a b t n, .fma),
        (.xmin d a b t n, .min), (.xmax d a b t n, .max)] : List (Instr × XOp)),
      staticBad s.m tm p.1 = false → th.pairIs a xa → th.pairIs b xb →
      ((th.reg n.toNat).bits = 0 → ∃ s', goes p.1 [] s' ∧ s.Keeps s') ∧
      ((th.reg n.toNat).bits = 1 → alone → here s.m xa false la → here s.m xb false lb →
        ∃ s', goes p.1 counted s' ∧ s.Puts s' (ld.pa xd) (leBytes (xApply p.2 t
          (leNat (s.m.mem.read (la.pa xa) e)) (leNat (s.m.mem.read (lb.pa xb) e)) old) e))) ∧
    (staticBad s.m tm (.xfil d a t n) = false → th.tagAt a.toNat = t → th.formed a.toNat = true →
      ((th.reg n.toNat).bits = 0 → ∃ s', goes (.xfil d a t n) [] s' ∧ s.Keeps s') ∧
      ((th.reg n.toNat).bits = 1 → alone → ∃ s', goes (.xfil d a t n) counted s' ∧
        s.Puts s' (ld.pa xd) (leBytes (th.valAt a.toNat) e)))

/-- 06 R121, 24 R380: XQRY of the lane's own scratchpad reports its 0xFF address; of a cached global page that it may see, its
entry's bits and its place. The result is on its way to D in the loads class. -/
def Obligations.Queries : Prop :=
  ∀ (s : State) (tm : Team) (th : Thread) (d a : Reg) (x off : Nat) (l : Leaf), Lone s tm th → th.pairIs a x →
    staticBad s.m tm (.xqry d a) = false →
    let issued (v : Nat) (m : Mach) : Mach := ({ m with uid := m.uid + 1 } : Mach).updThread th.ref fun y => { y with
      ops := y.ops ++ [{ id := m.uid, kind := .value (valRegs .i64 v), dst := .regs d.toNat .i64 1, loads := true
                         stores := false, tile := false, entry := false }] }
    (tm.own x 1 off → Acts (.xqry d a) s
      (issued (0xFF * 2 ^ 56 + tm.core * 2 ^ 49 + 2 ^ 46 + tm.slot * 2 ^ 22 + off))) ∧
    (x < 2 ^ 57 → s.m.lookup tm.core (s.m.subOf th.ref) tm.ctx x = some l → pteU l.bits = true →
      Acts (.xqry d a) s (issued (l.bits.toNat / 2 ^ 56 * 2 ^ 56 + s.m.homeDie (l.pa x) * 2 ^ 54 +
        (if spaceOf (l.pa x) = 0 then s.m.stackOf (l.pa x) else 15) * 2 ^ 50 + sliceOf (l.pa x) * 2 ^ 45 +
        pteKey l.bits * 2 ^ 8 + l.bits.toNat % 2 ^ 8)))

/-! ### Releases, acquires, hurdles and watches -/

/-- 07 R125, R126, R130, 23 R349: PREL begins one release for the lanes of its bundle, of the class its scope names, which covers
what they issued before it; PHSE begins the same and holds its lanes until it has ended. PACQ, the lanes' loads being in, drops
the core's copies it does not own, but at Core class, and waits from Module class on for the mirrors that are behind their homes.
How a release goes on, and what an acquire does of lines the chiplet owns, are the model's (logs 25, 40). The steps inside a
release, and an acquire as one event of its bundle, are the model's (logs 25, 67). -/
def Obligations.ReleasesAcquires : Prop :=
  ∀ (s : State) (tm : Team) (sc : BitVec 5), Issues s tm →
    let c := s.m.scopeClass tm sc.toNat
    let behind := if c < 2 then [] else
      (s.m.mirrors.filter fun e => e.1 == dieOf tm.core && e.2.2 != s.m.round e.2.1).map fun e => (e.2.1, s.m.round e.2.1)
    let lanes (f : Thread → Thread) (m : Mach) : Mach := { m with
      uid := m.uid + 1
      threads := m.threads.map fun (x : Thread) => if x.ref ∈ refs s.m.bundle then f x else x }
    let releasing (x : Thread) : Thread := { x with release := some {
      cls := c, upto := s.m.uid, regions := [], lines := [], counted := false } }
    Acts (.prel sc) s (lanes releasing) ∧
    Acts (.phse sc) s (lanes fun x => { releasing x with wait := .phse c s.m.uid }) ∧
    ((∀ th ∈ s.m.bundle, ∀ o ∈ th.ops, o.loads = false) → (∀ f ∈ s.m.fetches, f.core ≠ tm.core) →
      (∀ p ∈ s.m.linemeta, s.m.ownerOf? p.1 ≠ some 0x8C) → (∀ y ∈ s.m.threads, ∀ k g, y.wait ≠ .loadsDue k s.m.uid g) →
      Acts (.pacq sc) s fun m => lanes (fun x => { x with
        wait := if s.m.mirrorsDone (dieOf tm.core) behind then .ready else .acquire behind })
        { m with l1 := if c = 0 then m.l1 else m.l1.filter fun x => x.core != tm.core || x.owned })

/-- 09 R170, R171, 22 R332, R333: HRDI sets a hurdle of the lane's own scratchpad and counts its generation; HRDA returns the
generation, counts an arrival and adds pending bytes, and completes the generation when every lane has arrived and no byte is
pending; HRDW goes on when the generation is no longer the one it holds, and waits otherwise. -/
def Obligations.Hurdles : Prop :=
  ∀ (s : State) (tm : Team) (th : Thread) (d a b : Reg) (x off v p : Nat), Lone s tm th → th.pairIs a x → tm.own x 16 off →
    th.tagAt b.toNat = .i32 → (th.reg b.toNat).bits.toNat = v → tm.scratch.wf = true →
    let (arr, gen, exp, pend) := hurdleOf tm.scratch off
    let sets (s' : State) (a' g' e' p' : Nat) : Prop := s.Keeps s' ∧ s.OthersWait s' th.ref ∧
      ∃ tm', s'.m.team? tm.uid = some tm' ∧ hurdleOf tm'.scratch off = (a', g', e', p') ∧
        ∀ y, y < off ∨ off + 16 ≤ y → tm'.scratch.get y = tm.scratch.get y
    (staticBad s.m tm (.hrdi d a b) = false → th.pairIs d p → 1 ≤ v → v ≤ 1024 → ∃ s', exec (.hrdi d a b) s = .next s' ∧
      s'.m.thread? th.ref = some (th.onward s.m 1) ∧ sets s' 0 ((gen + 1) % 2 ^ 16) v (p % 2 ^ 36)) ∧
    (staticBad s.m tm (.hrda d a b) = false → ∃ s', exec (.hrda d a b) s = .next s' ∧
      s'.m.thread? th.ref = some (th.put s.m 1 d.toNat .i32 gen) ∧
      let arr' := min (arr + 1) 0xFFFF
      let pend' := (pend + v) % 2 ^ 36
      if arr' = exp ∧ pend' = 0 then sets s' 0 ((gen + 1) % 2 ^ 16) exp 0 else sets s' arr' gen exp pend') ∧
    (staticBad s.m tm (.hrdw a b) = false → Becomes (.hrdw a b) s fun y => if gen ≠ v % 2 ^ 16 then y.onward s.m 1
      else { y.onward s.m 1 with wait := .hrdw tm.uid off (v % 2 ^ 16) false })

/-- 09 R165, R166, 24 R373: WAITA of a word of the lane's own scratchpad, or of a line at its home, whose condition holds goes on
with its predicate true; of a scratchpad word whose condition does not hold, it sleeps until a write makes it hold or its timeout
of 1,024 cycles a unit passes. That a line's watch is looked at as the word issues is the model's step (log 2). -/
def Obligations.Watches : Prop :=
  ∀ (s : State) (tm : Team) (th : Thread) (k : KIx) (a b : Reg) (f : Cond) (u : Option (BitVec 25)) (x off : Nat) (l : Leaf),
    Lone s tm th → th.pairIs a x → staticBad s.m tm (.waita k a b f u) = false → th.tagAt b.toNat ∈ [Tag.i32, .i64] →
    th.formed b.toNat = true → (th.tagAt b.toNat = .i64 → b.toNat % 2 = 0) →
    let n := (th.tagAt b.toNat).width / 8
    let size := if u = none then 1 else 2
    (tm.own x n off →
      Becomes (.waita k a b f u) s fun y =>
        if iCmp f (8 * n) (leNat (tm.scratch.read off n)) (th.valAt b.toNat) then (y.onward s.m size).setPred k true
        else { y.onward s.m size with wait := .waita {
          k := k, watch := .scratch tm.uid off, width := n, cond := f, value := BitVec.ofNat 64 (th.valAt b.toNat)
          deadline := u.bind fun t => if t = 0 then none else some (s.m.clk + 1024 * t.toNat)
          foreign := false, record := true, woken := none } }) ∧
    (s.m.Reaches tm th x n false l → s.m.atHome (l.pa x) →
      iCmp f (8 * n) (leNat (s.m.mem.read (l.pa x) n)) (th.valAt b.toNat) = true →
      Becomes (.waita k a b f u) s fun y => (y.onward s.m size).setPred k true)

/-! ### Drover, service and system words -/

/-- 11 R180, R181, 21 R316, R318: DCMD appends its entries to the team's queue and counts one command of the lane; DQRY reads the
free entries, the commands not yet ended and whether one is parked. -/
def Obligations.DroverWords : Prop :=
  ∀ (s : State) (tm : Team),
    (∀ (th : Thread) (n : BitVec 2) (a : Reg), Lone s tm th → staticBad s.m tm (.dcmd n a) = false → tm.qmem.wf = true →
      (∀ j < 8 * n.toNat, th.tagAt (a.toNat + j) ≠ .raw) → ∃ s' tm', exec (.dcmd n a) s = .next s' ∧ s.Keeps s' ∧
        s'.m.thread? th.ref = some { th.onward s.m 1 with drover := th.drover + 1 } ∧ s.OthersWait s' th.ref ∧
        s'.m.team? tm.uid = some tm' ∧ tm' = { tm with
          qmem := tm'.qmem, qtail := tm.qtail + n.toNat, qcmds := tm.qcmds ++ [(n.toNat, th.ref, s.m.dcmdWord)] } ∧
        ∀ e < n.toNat, tm'.qmem.read (32 * ((tm.qtail + e) % 256)) 32 =
          ((leBytes (bitsOf (th.block a.toNat (8 * n.toNat))) (32 * n.toNat)).drop (32 * e)).take 32) ∧
    (∀ d : Reg, Issues s tm → staticBad s.m tm (.dqry d) = false →
      let mine := s.m.cmds.filter fun c => c.team == tm.uid
      Becomes (.dqry d) s fun th => th.put s.m 1 d.toNat .i32 ((mine.any fun c => c.parked.isSome).toNat * 2 ^ 31 +
        min mine.length 256 * 2 ^ 9 + (256 - (tm.qtail - tm.qhead))))

/-- 07 R126, 06 R114, 23 R358, 22 R337: SCPG writes a scope entry of the context, the highest lane last. INVT of a page, of the
non-global translations or of all drops exactly those of its context from every cache (of a page: those that hold its address or
meet the page that the tables give it now), and wakes the lanes parked there; with nothing to drain its lane goes on at once.
What INVT waits for and replays beyond the rule's words is the model's (log 34). -/
def Obligations.ScopesInvalidations : Prop :=
  ∀ (s : State) (tm : Team),
    (∀ (idx : BitVec 5) (a : Reg), Issues s tm → staticBad s.m tm (.scpg idx a) = false →
      (∀ th ∈ s.m.bundle, th.tagAt a.toNat = .b128 ∧ th.formed a.toNat = true) →
      Acts (.scpg idx a) s fun m => s.m.bundle.foldl (fun m th => m.updCtx tm.ctx fun c =>
        { c with scopes := c.scopes.set (idx.toNat - 4) (BitVec.ofNat 128 (th.valAt a.toNat)) }) m) ∧
    (∀ (th : Thread) (a : Reg) (x : Nat), Lone s tm th → th.pairIs a x → x < 2 ^ 57 → s.m.cmds = [] → s.m.launches = [] →
      (∀ y ∈ s.m.threads, ∀ o ∈ y.ops, ∀ z, o.kind ≠ .xsht z) → (∀ c ∈ s.m.ctxs, c.lost = []) →
      ∀ p ∈ ([(.page a, fun e => (s.m.coverOf tm.ctx x).drops e.page e.leaf = true), (.nonGlobal, fun e => pteG e.leaf.bits = false),
          (.all, fun _ => True)] : List (InvtMode × (Tlb → Prop))),
        staticBad s.m tm (.invt p.1) = false → ∃ s', exec (.invt p.1) s = .next s' ∧ s.Keeps s' ∧
          s'.m.thread? th.ref = some (th.onward s.m 1) ∧
          (∀ e, e ∈ s'.m.tlb ↔ e ∈ s.m.tlb ∧ ¬ (e.ctx = tm.ctx ∧ p.2 e)) ∧
          ∀ v y i, v ≠ th.ref → s.m.thread? v = some y → y.wait = .parked i → v.team = tm.uid →
            i.page ≤ x → x < i.page + i.bytes → ∃ z, s'.m.thread? v = some z ∧ z.wait = .ready)

/-- 15 R224-R226, 06 R123, 22 R342, 24 R381: LNCH reads its record from the lane's own scratchpad at once, or puts its read from
global memory on its way. XSHT walks its page and adds an operation of the stores class with its stamp, in the own scratchpad or
in global memory: bits 63:16 of D with status 2 where the walk finds no page, 1 where MIG is clear, and 0 with MIG set. Only then
are the context's translations that hold the address or meet the page dropped from every cache and from what lanes have in hand,
and the operation waits for the commands that still use one, the merge operations on the page and the stamps that go through one,
and combines a CORE or UPDT page. That a record is read in pieces, and the walk of XSHT, are the model's (logs 34, 36). -/
def Obligations.LaunchShootdownWords : Prop :=
  ∀ (s : State) (tm : Team) (th : Thread) (d a b : Reg) (x y off v : Nat) (l : Leaf), Lone s tm th → th.pairIs a x →
    let issued (k : OpKind) (m : Mach) : Mach := ({ m with uid := m.uid + 1 } : Mach).updThread th.ref fun t => { t with
      ops := t.ops ++ [{ id := m.uid, kind := k, dst := .regs d.toNat .i32 1, loads := false, stores := false, tile := false }] }
    (staticBad s.m tm (.lnch d a) = false →
      (tm.own x 128 off → Acts (.lnch d a) s (issued (.launch false off 0 false (tm.scratch.read off 128)))) ∧
      (s.m.Reaches tm th x 128 false l → Acts (.lnch d a) s (issued (.launch true (l.pa x) x (pteNc l.bits) [])))) ∧
    (staticBad s.m tm (.xsht d a b) = false → x < 2 ^ 57 → th.pairIs d v → th.pairIs b y →
      ∀ at_, (tm.own y 8 off ∧ at_ = (off, none)) ∨ (s.m.Reaches tm th y 8 true l ∧ at_ = (y, some l)) →
      let waits (z : Xsht) (m : Mach) : Mach := ({ m with uid := m.uid + 1 } : Mach).updThread th.ref fun t => { t with
        ops := t.ops ++ [{ id := m.uid, kind := .xsht z, dst := .none, loads := false, stores := true, tile := false }] }
      let stamp (status : Nat) : Xsht := {
        va := at_.1, leaf := at_.2, value := BitVec.ofNat 64 (v / 2 ^ 16 * 2 ^ 16 + status), page := 0, bytes := 0, cmds := []
        tiles := [], stamps := [] }
      ∀ (w : Mach) (r : Option Leaf),
        (s.m.advance (refs s.m.bundle) (s.m.wordAddr 1)).walk (dieOf tm.core) tm.ctx x true = (w, r) →
        (r = none → Acts (.xsht d a b) s fun _ => waits (stamp 2) w) ∧
        ∀ e, r = some e →
          (pteMig e.bits = false → Acts (.xsht d a b) s fun _ => waits (stamp 1) w) ∧
          (pteMig e.bits = true → (∀ t ∈ w.threads, ∀ o ∈ t.ops, ∀ z f, o.kind = .atomic z → z.leaf = some f →
              ptePa f.bits ≠ ptePa e.bits) →
            let mine (u : Nat) : Prop := ∃ tu, w.team? u = some tu ∧ tu.ctx = tm.ctx
            let meets (lo n : Nat) : Prop := (lo ≤ x ∧ x < lo + n) ∨ (lo < e.page x + e.size ∧ e.page x < lo + n)
            ∃ m z, Acts (.xsht d a b) s (fun _ => waits z m) ∧
              m = { w with tlb := m.tlb, walkCache := m.walkCache, threads := m.threads } ∧
              z = { stamp 0 with
                page := ptePa e.bits, bytes := if pteExc e.bits = 0 ∨ pteExc e.bits = 2 then e.size else 0, cmds := z.cmds
                tiles := z.tiles, stamps := z.stamps } ∧
              (∀ c, c ∈ m.tlb ↔ c ∈ w.tlb ∧ ¬ (c.ctx = tm.ctx ∧ meets c.page c.leaf.size)) ∧
              (∀ c, c ∈ m.walkCache ↔ c ∈ w.walkCache ∧ ¬ (c.ctx = tm.ctx ∧
                c.va * 2 ^ (12 + 9 * c.level) < e.page x + e.size ∧ e.page x < (c.va + 1) * 2 ^ (12 + 9 * c.level))) ∧
              (∀ u t, w.thread? u = some t → ∃ hs, m.thread? u = some { t with inhand := hs } ∧ ∀ p, p ∈ hs ↔ p ∈ t.inhand ∧
                ¬ (mine u.team ∧ match p.2 with
                  | some f => meets (f.page (p.1 * 4096)) f.size
                  | none => e.page x ≤ p.1 * 4096 ∧ p.1 * 4096 < e.page x + e.size)) ∧
              (∀ c p n, (c, p, n) ∈ z.cmds ↔ ∃ k ∈ w.cmds, ∃ f, mine k.team ∧ (p, f) ∈ k.pages ∧ meets p f.size ∧
                k.uses p f.size = true ∧ c = k.id ∧ n = f.size) ∧
              (∀ n, n ∈ z.tiles ↔ ∃ q ∈ w.tileq, n = q.order ∧
                (∃ td g h, q.instr = .tspl td g h ∨ q.instr = .tfch td g h) ∧
                ∃ p ∈ q.pas, ptePa e.bits ≤ p.1 ∧ p.1 < ptePa e.bits + e.size) ∧
              (∀ u n, (u, n) ∈ z.stamps ↔ ∃ t ∈ w.threads, u = t.ref ∧ mine u.team ∧ ∃ o ∈ t.ops, ∃ k f, n = o.id ∧
                o.kind = .xsht k ∧ k.leaf = some f ∧ meets (f.page k.va) f.size)))

/-- 19 R269, 24 R364: SVC of a service that the die's shepherd serves sends one batch, a block for each real lane in order, and
holds every lane for it; with no service there its lanes trap with cause 0x41. -/
def Obligations.ServiceCalls : Prop :=
  ∀ (s : State) (tm sh : Team) (c : Ctx) (num : BitVec 7) (a : Reg), Issues s tm → staticBad s.m tm (.svc num a) = false →
    (s.m.services = true → s.m.ctx? tm.ctx = some c → c.desc.svcok = true → num.toNat ∈ [0, 1, 2, 0x21] → tm.shepherd = false →
      s.m.shepherd? (dieOf tm.core) = some sh → (∃ th ∈ s.m.bundle, th.helper = false) →
      let b : Batch := {
        id := s.m.uid, team := tm.uid, ctx := tm.ctx, die := dieOf tm.core, num := num.toNat, a := a.toNat
        inst := s.m.wordBits s.m.svcOff, pc := s.m.wordAddr s.m.svcOff, resume := s.m.cur.pc
        calls := (s.m.bundle.filter fun th => !th.helper).map fun th => (th.ref, th.block a.toNat 8), change := none
        results := [], dropped := false }
      Acts (.svc num a) s fun m => s.m.bundle.foldl (fun m th => m.updThread th.ref fun y => { y with wait := .service s.m.uid })
        { m with uid := m.uid + 1, batches := m.batches ++ [b] }) ∧
    (s.m.services = false → (∀ th ∈ s.m.bundle, th.canEnter) →
      Becomes (.svc num a) s fun th => th.entered s tm (.svc num a) 0x41 0 0 sub0)

/-! ### Tile words -/

/-- 13 R205, R208, R212-R218, 24 R365-R368: a tile word whose checks pass enters the queue of its core's tile unit as one
operation of the lanes of its bundle, with the registers it takes, and counts once in each lane; memory, tiles and registers
stand until the unit reaches it. TMMA keeps its A block in the lane's latch under RU and clears the latch otherwise. The order of
checks is no part of it (log 29). -/
def Obligations.TileWords : Prop :=
  ∀ (s : State) (tm : Team) (t0 : Thread), Issues s tm → s.m.bundle.head? = some t0 → (∀ q ∈ s.m.tileq, q.order ≠ s.m.uid) →
    let queued (i : Instr) (rs : Thread → List RV) (dst : Dst) (bef : Thread → List (TRef × Nat)) (stores : Bool)
        (f : TileOp → TileOp) (g : Thread → Thread) : Prop := staticBad s.m tm i = false →
      ∃ s', exec i s = .next s' ∧ s.Keeps s' ∧ s'.m.teams = s.m.teams ∧ s'.m.versions = s.m.versions ∧
        s'.m.tileq = s.m.tileq ++ [{ f (s.m.newTileOp tm t0.ref i s.m.uid) with
          op := s.m.uid, lanes := s.m.bundle.map fun th => (th.lane, th.ref, rs th), before := (s.m.bundle.map bef).flatten }] ∧
        ∀ th ∈ s.m.bundle, s'.m.thread? th.ref = some (g { th.onward s.m i.size with
          ops := th.ops ++ [{ id := s.m.uid, kind := .plain, dst := dst, loads := false, stores := stores, tile := true }] })
    let plain (i : Instr) : Prop := queued i (fun _ => []) .none (fun _ => []) false id id
    let stored (th : Thread) : List (TRef × Nat) := (th.ops.filter fun o => o.stores).map fun o => (th.ref, o.id)
    let clean (p : Nat) : Prop := ∀ q ∈ s.m.pieces tm t0 16 p 49152, ∀ l, q.2.2 = .ok l → pteD l.bits = true
    ∀ (td ta : TIx) (a b : Reg) (g : TileTag) (r : Rm) (n : BitVec 6) (o : TRedOp) (ru : Bool) (ext : Option TmmaExt) (p v : Nat),
      plain (.tzro td g) ∧ plain (.tcvt td ta g r) ∧
      queued (.trdr td a n) (fun _ => []) (.regs a.toNat (s.m.tagOf tm td).tag (8 / (s.m.tagOf tm td).tag.regs)) (fun _ => [])
        false id id ∧
      ((∀ th ∈ s.m.bundle, ∃ w ∈ [Tag.i32, .f32, .f64], t0.tagAt a.toNat = w ∧ ∀ j < 8, th.tagAt (a.toNat + j) = w) →
        queued (.twrr td a n) (fun th => th.block a.toNat 8) .none (fun _ => []) false id id) ∧
      (((s.m.tagOf tm td = .f32 ∧ ∀ th ∈ s.m.bundle, ∀ j < 2, th.tagAt (a.toNat + j) = .f32) ∨
          (s.m.tagOf tm td = .f64 ∧ a.toNat % 4 = 0 ∧ a.toNat + 4 ≤ tm.regs ∧
            ∀ th ∈ s.m.bundle, ∀ j < 4, th.tagAt (a.toNat + j) = .f64)) →
        queued (.tscl td a) (fun th => th.block a.toNat 4) .none (fun _ => []) false id id) ∧
      ((s.m.tagOf tm td = .f64 → a.toNat % 2 = 0 ∧ a.toNat + 2 ≤ tm.regs) →
        queued (.tred td a o) (fun _ => []) (.regs a.toNat (s.m.tagOf tm td).tag 1) (fun _ => []) false id id) ∧
      (t0.pairIs b p →
        (s.m.tileAddr tm t0 p 128 false true = none →
          queued (.tld td g b) (fun _ => []) .none stored false (s.m.latchAddr tm t0 p false) id) ∧
        (s.m.tileAddr tm t0 p 128 true true = none → clean p → (∃ th ∈ s.m.bundle, th.helper = false) →
          queued (.tst td b) (fun _ => []) .none (fun _ => []) true (s.m.latchAddr tm t0 p true) id) ∧
        (t0.tagAt a.toNat = .i32 → (t0.reg a.toNat).bits.toNat = v →
          (v ≤ 65535 → s.m.tileAddr tm t0 p 4096 true false = none → clean p → (∃ th ∈ s.m.bundle, th.helper = false) →
            queued (.tspl td a b) (fun _ => []) .none (fun _ => []) false
              (fun q => { s.m.latchAddr tm t0 p true q with num := v }) id) ∧
          (1 ≤ v → v ≤ 65536 → s.m.tileAddr tm t0 p 4096 false false = none →
            queued (.tfch td a b) (fun _ => []) .none (fun _ => []) false
              (fun q => { s.m.latchAddr tm t0 p false q with num := v }) id)) ∧
        (∀ (h : Shape) (f : BFmt) (off : Nat), (∀ th ∈ s.m.bundle, (∀ l, th.latch = some l → l.a = a.toNat) ∧
            (∃ g, laneShape a th = some g ∧ g.k = h.k ∧ f ∈ g.fmts ∧ g.tile = h.tile) ∧
            (h.k = 64 → ((aBlock a th).getD 8 rv0).tag = .i32 ∧ ((aBlock a th).getD 9 rv0).tag = .f32)) → laneShape a t0 = some h →
          (h.k = 64 → a.toNat + 10 ≤ tm.regs) → bFormat a ext t0 = some f → f ∈ h.fmts →
          ((∃ e, ext = some e ∧ e.bfmt = some f) ∨ h.own = some f) → h.tile = s.m.tagOf tm td → p % 64 = 0 →
          tm.own p 1 off → off + bBytes h.k f ≤ 4096 * tm.scr →
          queued (.tmma td a b ru ext) (aBlock a) .none (fun _ => []) false
            (fun q => { q with addr := some (.scratch tm.uid off), num := bBytes h.k f, fmt := f })
            fun th => { th with latch := if ru then some (th.latch.getD { a := a.toNat, regs := th.block a.toNat 10 }) else none }))

/-! ### Events of threads and of memory -/

/-- 02 R24, 09 R165-R172, 16 R240, 22 R333: REGROUP, once in four cycles, forms a group's bundles anew from its ready lanes by
program counter, those that a WAITA has left being ready from then on; a lane whose results are in enters its handler; a recorded
wake, a deadline or a poll ends a WAITA with its predicate true, or false at or past its deadline or on a poisoned line, which
the team's fault reports; the wakes of one cycle and line reach the lanes of a group together (log 71); a changed generation ends
an HRDW. That a poisoned line ends a WAITA with false is the model's reading (log 51). -/
def Obligations.ThreadEvents : Prop :=
  ∀ (s : State) (t : TRef) (x : Thread) (tm : Team), s.m.thread? t = some x → s.m.team? t.team = some tm →
    let upd (f : Thread → Thread) : Host.Outcome State Fault Refusal := .next { s with m := s.m.updThread t f }
    let here : Prop := tm.status = .running ∨ tm.status = .stopping
    let grouped (y : Thread) : Thread := { y with taken := false, wait := if y.wait = .woken then .ready else y.wait }
    (∀ core sub, (s.m.clk % 4 ≠ 0 → exec (.regroup core sub) s = .next s) ∧
      (s.m.clk % 4 = 0 → ∃ m, exec (.regroup core sub) s = .next { s with m := m } ∧ m.mem = s.m.mem ∧ m.teams = s.m.teams ∧
        ∀ g ∈ s.m.groupsAt core sub, ∃ g', m.group? g.team g.index = some g' ∧
          g'.bundles = newBundles (((s.m.members g).map grouped).filter fun y => y.wait == .ready) ∧
          ∀ y ∈ s.m.members g, s.m.thread? y.ref = some y → m.thread? y.ref = some (grouped y))) ∧
    (∀ i, x.wait = .entering i → here → x.resultsDue = false → x.handlerActive = false → x.utvec ≠ 0 →
      exec (.handlerEntry t) s = upd fun y => { y with
        fltCause := BitVec.ofNat 32 i.cause, fltPc := i.pc, fltInst := i.inst, fltMask := i.mask, fltAddr := i.addr
        fltExc := i.exc, fltSub := i.sub, fltDst := i.dst, resume := i.resume, written := false, handlerActive := true
        subst := none, pc := y.utvec, wait := .ready }) ∧
    (∀ w, x.wait = .waita w → here →
      let near (y : Thread) (v : WaitA) : Prop := y.wait = .waita v ∧ y.ref.team = t.team ∧ y.ref.tidx / 32 = t.tidx / 32 ∧
        v.hit = w.hit ∧ v.woken ≠ none ∧ match v.watch, w.watch with
          | .line p _, .line q _ => p / 128 = q / 128
          | .scratch u _, .scratch z _ => u = z
          | _, _ => False
      (w.woken = none → exec (.waitaWake t) s = .next s) ∧
      (w.woken ≠ none → (refs s.m.threads).Nodup →
        ((∀ y ∈ s.m.threads, ∀ v, near y v → v.woken = some true ∨ v.inTime s.m.clk = false) →
          ∃ m, exec (.waitaWake t) s = .next { s with m := m } ∧ m.mem = s.m.mem ∧ m.teams = s.m.teams ∧
            ∀ y ∈ s.m.threads, (∀ v, near y v →
                m.thread? y.ref = some { y.setPred v.k (v.inTime s.m.clk) with wait := .woken }) ∧
              ((∀ v, ¬ near y v) → m.thread? y.ref = some y)) ∧
        (∀ pa va, w.woken = some false → w.inTime s.m.clk = true → w.watch = .line pa va →
          (∀ y ∈ s.m.threads, ∀ v, near y v → y.ref = t) →
          ∃ s' tm', exec (.waitaWake t) s = .next s' ∧ s'.m.mem = s.m.mem ∧
            s'.m.thread? t = some { x.setPred w.k false with wait := .woken } ∧ s'.m.team? t.team = some tm' ∧
            tm'.latent = tm.latent ++ if x.helper then [] else
              [{ cause := 0x30, addr := BitVec.ofNat 64 (va / 128 * 128), thread := some t }])) ∧
      (∀ d, w.deadline = some d → d ≤ s.m.clk →
        exec (.waitaTimeout t) s = upd fun y => { y.setPred w.k false with wait := .woken }) ∧
      (∀ pa va, w.watch = .line pa va → w.record = false → w.inTime s.m.clk = true → s.m.atHome pa →
        iCmp w.cond (8 * w.width) (leNat (s.m.mem.read pa w.width)) w.value.toNat = true →
        exec (.monitorPoll t) s = upd fun y => { y.setPred w.k true with wait := .woken })) ∧
    (∀ u off f, x.wait = .hrdw u off genWoken f → here →
      exec (.hrdwWake t) s = upd fun y => { y with wait := .ready })

/-- 22 R339, R340, 09 R169, 07 R127, R139, R141, 10 R175, 06 R113: a result that returns stands in its destination and its
operation leaves the counts; a load of a line at its home gives what memory holds, alone or with the fetch it waits for or finds
outstanding, whose line the L1 takes unless told otherwise, and of an NC page never; an atomic that acts after its word acts now,
and then its old value returns (21 R299; log 24); a store that completes stands in the L1; a walk that ends frees its lanes with
what it found. -/
def Obligations.Completions : Prop :=
  ∀ (s : State) (t : TRef) (x : Thread) (tm : Team), s.m.thread? t = some x → s.m.team? t.team = some tm → x.wait ≠ .exited →
    let goes (i : Instr) (m : Mach) : Prop := exec i s = .next { s with m := m } ∧ m.mem = s.m.mem ∧ m.teams = s.m.teams
    (∀ o rs, x.ops.find? (fun p => p.id == o.id) = some o → o.kind = .value rs →
      ∃ m, goes (.loadReturn t o.id) m ∧
        m.thread? t = some { x.writeDst o.dst rs with ops := x.ops.filter fun p => p.id != o.id }) ∧
    (∀ o r d g, x.ops = [o] → o.kind = .load r → o.dst = .regs d g 1 → r.data = none → r.copy = none →
      s.m.versions = [] → s.m.tileq = [] → s.m.atHome r.pa → r.pa % 128 + r.size ≤ 128 → isFold r.pa = false →
      let line := lineOf r.pa
      let returned (m : Mach) : Prop := goes (.loadReturn t o.id) m ∧
        m.thread? t = some { x.setRegs d (valRegs g (leNat (s.m.mem.read r.pa r.size))) with ops := [] }
      (r.nc = true → r.fetch = none → ∃ m, returned m ∧ m.l1 = s.m.l1) ∧
      (r.nc = false → r.fetch = none → s.m.l1? tm.core line = none → s.m.fetches = [] → ∃ m, returned m) ∧
      (∀ f, s.m.fetches = [f] → f.core = tm.core → f.line = line →
        r.fetch = some f.id ∨ (r.fetch = none ∧ r.nc = false ∧ f.nc = false ∧ s.m.l1? tm.core line = none) →
        (f.nc = true → ∃ m, returned m ∧ m.fetches = [] ∧ m.l1 = s.m.l1) ∧
        (f.nc = false → (s.m.l1Set tm.core (setOf line)).length < 16 → tm.core < 128 →
          let keep : Bool := f.alloc || (r.fetch.isNone && r.alloc)
          ∃ m, returned m ∧ m.fetches = [] ∧
            (keep = true → ∃ c, m.l1? tm.core line = some c ∧ c.data = s.m.mem.read line 128) ∧
            (keep = false → m.l1 = s.m.l1.filter fun c => !(c.core == tm.core && c.line == line && !c.owned))))) ∧
    (∀ o (r : AtomicReq) l f, x.ops = [o] → o.kind = .atomic r → r.leaf = some l → r.op = some f → pteExc l.bits = 1 →
      pteD l.bits = true → s.m.settled → s.m.mem.wf = true → s.m.atHome (l.pa r.va) →
      l.pa r.va % (r.tag.width / 8) = 0 → (∀ y ∈ s.m.threads, y ≠ x → y.ops = []) →
      let old := leNat (s.m.mem.read (l.pa r.va) (r.tag.width / 8))
      ∀ i ∈ [Instr.loadReturn t o.id, .storeComplete t o.id], ∃ m y, exec i s = .next { s with m := m } ∧ m.teams = s.m.teams ∧
        s.m.mem.Stored m.mem (l.pa r.va) (leBytes (amoApply f r.tag old r.val) (r.tag.width / 8)) ∧ m.thread? t = some y ∧
        y.regs = x.regs ∧ y.ops = [{ o with kind := if r.ret then .value (valRegs r.tag old) else .store r.va }]) ∧
    (∀ o va b, x.ops = [o] → o.kind = .store va → s.m.versions = [b] → b.op = o.id → b.inL1 = false → b.diePub = false →
      ∃ m, goes (.storeComplete t o.id) m ∧ m.thread? t = some { x with ops := [] } ∧
        m.versions = [{ b with inL1 := true, vis := s.m.uid }]) ∧
    (∀ va w e c, w = va / 4096 → x.wait = .walk w e → { die := dieOf tm.core, ctx := tm.ctx, va := w } ∈ s.m.running (dieOf tm.core) →
      s.m.ctx? tm.ctx = some c →
      (∀ l, s.m.walk (dieOf tm.core) tm.ctx (w * 4096) true = (s.m, some l) → ∃ m, goes (.walkComplete (dieOf tm.core) tm.ctx va) m ∧
        m.walks = s.m.walks.filter (fun y =>
          !(y.die == dieOf tm.core && y.ctx == tm.ctx && l.page (y.va * 4096) == l.page (w * 4096))) ∧
        m.thread? t = some { x with wait := .ready, inhand := (w, some l) :: x.inhand }) ∧
      (∀ n, s.m.walkFrom (dieOf tm.core) tm.ctx (w * 4096) 5 c.desc.root = (s.m, .absent n) →
        ∃ m, goes (.walkComplete (dieOf tm.core) tm.ctx va) m ∧
          m.walks = s.m.walks.filter (fun y => y != { die := dieOf tm.core, ctx := tm.ctx, va := w }) ∧
          m.thread? t = some { x with wait := .ready, inhand := (w, none) :: x.inhand }))

/-- 07 R130, R132, R139, 16 R247: what a release does once the stores that its lanes issued before it have completed. Of Core
class, or with no byte left to place and its rounds counted, it ends in all its lanes; with its bytes placed, a Module or Domain
class one counts one round in each region it wrote, and a Domain class one ends with no line's remote-shared bit set (log 70); it
places a byte of a line at its home from Module class on, or at Die class where the line is homed on the issuing die and of no
STACK page, and holds it for the team at that die's point otherwise: another die's byte as a second one. That it places a line an
event is the model's step (log 25). -/
def Obligations.Releases : Prop :=
  ∀ (s : State) (t : TRef) (x : Thread) (r : Release), s.m.thread? t = some x → x.release = some r →
    let lane (y : Thread) : Bool := y.ref.team == t.team && (match y.release with | some q => q.upto == r.upto | none => false)
    (∀ y ∈ s.m.threads, lane y = true → y.storesDone r.upto = true) →
    let sets (m : Mach) (q : Option Release) : Prop := exec (.publicationComplete t) s = .next { s with m := m } ∧
      m.teams = s.m.teams ∧ m.threads = s.m.threads.map fun y => if lane y then { y with release := q } else y
    (r.cls = 0 → ∃ m, sets m none ∧ m.mem = s.m.mem ∧ m.l1 = s.m.l1 ∧ m.rounds = s.m.rounds ∧
      m.versions.map (fun b => (b.pa, b.byte)) = s.m.versions.map fun b => (b.pa, b.byte)) ∧
    (1 ≤ r.cls → s.m.versions = [] →
      (r.cls = 1 ∨ r.counted = true ∨ r.regions = [] → ∃ m, sets m none ∧ m.mem = s.m.mem ∧ m.rounds = s.m.rounds ∧
        ∀ a, m.meta a = if r.cls = 3 then s.m.meta a &&& 0xFFFE#16 else s.m.meta a) ∧
      (2 ≤ r.cls → r.counted = false → r.regions ≠ [] → r.regions.Nodup → ∃ m, sets m (some { r with counted := true }) ∧
        m.mem = s.m.mem ∧ ∀ g, m.round g = if g ∈ r.regions then s.m.round g + 1 else s.m.round g)) ∧
    ∀ b : VByte, 1 ≤ r.cls → r.counted = false → s.m.versions = [b] → b.ref = t → b.op < r.upto → b.diePub = false →
      s.m.atHome b.pa → isFold b.pa = false → s.m.mem.wf = true →
      let placed : Release := { r with regions := (regionOf b.pa :: r.regions).dedup, lines := lineOf b.pa :: r.lines }
      let die := s.m.teamDie t.team
      let homed : Prop := s.m.homeDie (lineOf b.pa) = die ∧ b.stack = false ∧ spaceOf (lineOf b.pa) ≠ 2
      let held : VByte := { b with diePub := true, heldFor := t.team, heldDie := die, dieAt := s.m.uid }
      (r.cls ≠ 1 ∨ (homed ∧ (dieOf b.core = die ∨ lineOf b.pa ∉ r.lines)) →
        ∃ m, exec (.publicationComplete t) s = .next { s with m := m } ∧ s.m.mem.Stored m.mem b.pa [b.byte] ∧
        m.versions = [] ∧ m.teams = s.m.teams ∧ ∃ y, m.thread? t = some y ∧ y.release = some placed) ∧
      (r.cls = 1 → ¬ homed → dieOf b.core = die ∨ lineOf b.pa ∉ r.lines → ∃ m, sets m (some placed) ∧ m.mem = s.m.mem ∧
        m.versions = if dieOf b.core = die then [held] else [b, { held with atomic := false }])

/-- 05 R102, 07 R137-R140, R384: an evicted partial is at its home; an ownership upgrade leaves the line owned by the core, in E,
with no other copy, and with the home's data there, but for a copy that is granted without data, which keeps its bytes and its
round, and of a poisoned line is the requester's imprecise fault; a recall of an owned line puts the owner's atomic bytes in
memory and leaves the line shared, with the owner's copy clean; a push brings a mirror level with its home; a peer's invalidation
drops every copy of its line. That a core may own any line, and which team asks, are the model's choice (log 37). -/
def Obligations.CoherenceEvents : Prop :=
  ∀ (s : State) (core line die region : Nat), line % 128 = 0 →
    let goes (i : Instr) (m : Mach) : Prop := exec i s = .next { s with m := m }
    goes (.updtPartialEvict core line) { s.m with partials := s.m.partials.map fun p =>
      { p with home := p.home || (p.core == core && p.line == line) } } ∧
    (core < 128 → s.m.atHome line → s.m.l1? core line = none → (s.m.l1Set core (setOf line)).length < 16 →
      ∃ m c, goes (.ownershipUpgrade core line) m ∧ m.mem = s.m.mem ∧ m.versions = s.m.versions ∧
        stateOf (m.meta line) = 2 ∧ ownerOf (m.meta line) = core ∧ m.l1? core line = some c ∧ c.owned = true ∧
        c.data = s.m.grantLine core line ∧ ∀ y ∈ m.l1, y.line = line → y.core = core) ∧
    (∀ c, core < 128 → stateOf (s.m.meta line) = 1 → (sharersOf (s.m.meta line)).testBit (dieOf core) = true →
      s.m.l1? core line = some c → ∃ m, goes (.ownershipUpgrade core line) m ∧ m.mem = s.m.mem ∧ m.versions = s.m.versions ∧
        stateOf (m.meta line) = 2 ∧ ownerOf (m.meta line) = core ∧ m.l1? core line = some { c with owned := true } ∧
        ∀ y ∈ m.l1, y.line = line → y.core = core) ∧
    (∀ tm : Team, core < 128 → s.m.poisoned line = true → s.m.teamsAt core = [tm] → s.m.team? tm.uid = some tm →
      ∃ m, goes (.ownershipUpgrade core line) m ∧ m.mem = s.m.mem ∧ m.l1 = s.m.l1 ∧ m.linemeta = s.m.linemeta ∧
        m.team? tm.uid = some { tm with
          latent := tm.latent ++ [{ cause := 0x30, addr := BitVec.ofNat 64 line, thread := none }] }) ∧
    (∀ b : VByte, s.m.mem.wf = true → stateOf (s.m.meta line) ∈ [2, 3, 4] → s.m.versions = [b] → b.atomic = true →
      b.core = ownerOf (s.m.meta line) → b.core < 128 → lineOf b.pa = line →
      ∃ m, goes (.lineRecall line) m ∧ s.m.mem.Stored m.mem b.pa [b.byte] ∧ m.versions = [] ∧ m.teams = s.m.teams ∧
        stateOf (m.meta line) = 1 ∧ (sharersOf (m.meta line)).testBit (dieOf b.core) = true ∧
        ∀ y ∈ m.l1, y.core = b.core → y.line = line → y.owned = false) ∧
    goes (.mirrorPush die region) { s.m with mirrors := s.m.mirrors.map fun e =>
      if e.1 = die ∧ e.2.1 = region then (die, region, s.m.round region) else e } ∧
    (spaceOf line = 2 → s.m.atHome line → ∃ m, goes (.multicastInvalidation line) m ∧
      m.mem = s.m.mem ∧ ∀ y, y ∈ m.l1 ↔ y ∈ s.m.l1 ∧ ¬ (y.line = line ∧ y.core ≠ 128))


/-! ### Events of tile units and drovers -/

/-- 13 R205-R217, 06 R123: the tile unit applies its core's oldest operation and takes it out of its lanes' counts: TZRO zeroes
its tile and sets its tag; TLD loads a tile from a scratchpad or from global memory, and TST stores one there, as stores of its
lanes; TCVT converts a tile row by row; TRDR reads and TWRR writes a column group of each lane's row; TSCL scales a row and TRED
reduces one; TMMA forms its lane's row element by element and leaves every other byte. A chunk waits, is discarded, is buffered,
or is merged at its area with the chunks buffered behind it: the first stores, a later one adds; TFCH waits for its count, copies
the area and frees it. A drained XSHT writes its stamp, and one whose drain has not ended waits. That an operation applies in a
later cycle than its issue, and the strict order of a core's operations, are the model's (log 28); so are the die at which an
area counts (log 75) and a chunk that fits two rows (log 76). -/
def Obligations.TileUnitEvents : Prop :=
  ∀ (s : State) (q : TileOp) (tm : Team) (l : Nat) (t : TRef) (x : Thread) (rs : List RV), s.m.tileq = [q] →
    s.m.team? q.team = some tm → tm.status ≠ .saved → tm.tileMem.wf = true → q.lanes = [(l, t, rs)] → l < 32 →
    q.crossed = [] → q.cycle < s.m.clk → s.m.thread? t = some x →
    let runs (m : Mach) : Prop := exec (.tileOperationComplete q.core q.sub) s = .next { s with m := m }
    let rest (m : Mach) (f : Thread → Thread) : Prop := m.mem = s.m.mem ∧ m.tileq = [] ∧
      m.thread? t = some { f x with ops := x.ops.filter fun o => o.id != q.op }
    let fills (tags : List TileTag) (at_ : Nat) (bs : List Byte) : Prop := ∃ m tm', runs m ∧ rest m id ∧
      m.team? q.team = some tm' ∧ tm'.tileTags = tags ∧ tm.tileMem.Stored tm'.tileMem at_ bs
    let rows (td : TIx) (tags : List TileTag) (ls : List Nat) (g : TileTag) (f : Nat → List Nat) : Prop := ∃ m tm', runs m ∧
      rest m id ∧ m.team? q.team = some tm' ∧ tm'.tileTags = tags ∧
      (∀ y, (∀ i ∈ ls, y < 49152 * td.toNat + 1536 * i ∨ 49152 * td.toNat + 1536 * (i + 1) ≤ y) →
        tm'.tileMem.get y = tm.tileMem.get y) ∧
      ∀ i ∈ ls, tileRow tm'.tileMem td.toNat i g = (f i).map (· % 2 ^ (8 * tileElem g))
    let whole (td : TIx) : List Byte := tm.tileMem.read (49152 * td.toNat) 49152
    let tagOf (td : TIx) : TileTag := tm.tileTags.getD td.toNat .f32
    let global (ps : List Nat) (flag : Bool) : Prop := q.pas = ps.map (fun p => (p, 4096, flag)) ∧ ps.length = 12 ∧
      (∀ p ∈ ps, p % 4096 = 0 ∧ p < 2 ^ 56) ∧ ps.Nodup ∧ ∀ p ∈ ps, ∀ o < 4096, s.m.atHome (p + o)
    (∀ td g, q.instr = .tzro td g → fills (tm.tileTags.set td.toNat g) (49152 * td.toNat) (List.replicate 49152 0)) ∧
    (∀ td g a, q.instr = .tld td g a → q.before = [] →
      (∀ u off tu, q.addr = some (.scratch u off) → s.m.team? u = some tu →
        fills (tm.tileTags.set td.toNat g) (49152 * td.toNat) (tu.scratch.read off 49152)) ∧
      ∀ ps nc, q.addr = none → global ps nc → q.cutOff = [] → s.m.versions = [] → s.m.fetches = [] →
        (∀ c ∈ s.m.l1, c.core ≠ q.core) →
        fills (tm.tileTags.set td.toNat g) (49152 * td.toNat) ((ps.map fun p => s.m.mem.read p 4096).flatten)) ∧
    (∀ td a, q.instr = .tst td a →
      (∀ u off tu, q.addr = some (.scratch u off) → s.m.team? u = some tu → tu.scratch.wf = true → ∃ m tu' w, runs m ∧
        m.mem = s.m.mem ∧ m.tileq = [] ∧ m.team? u = some tu' ∧ tu.scratch.Stored tu'.scratch off (whole td) ∧
        tu'.tileMem = tu.tileMem ∧ tu'.tileTags = tu.tileTags ∧
        m.thread? t = some { x with wait := w, ops := x.ops.filter fun o => o.id != q.op }) ∧
      ∀ ps stack, q.addr = none → global ps stack → s.m.versions = [] → s.m.areas = [] → (∀ o ∈ x.ops, o.load? = none) →
        384 ≤ 262144 / max 1 (s.m.teamsOn (dieOf tm.core)) → ∃ m, runs m ∧ rest m id ∧ m.teams = s.m.teams ∧
          (∀ b ∈ m.versions, b.ref = t ∧ b.core = tm.core ∧ b.op = q.op ∧ b.inL1 = true ∧ b.diePub = false ∧ b.stack = stack ∧
            (q.ncs = [] → b.l2 = false) ∧ ∃ p ∈ ps, p ≤ b.pa ∧ b.pa < p + 4096) ∧
          ∀ j < 12, ∀ o < 4096, (m.ownByte tm.core t (ps.getD j 0 + o)).map (·.byte) =
            some (tm.tileMem.get (49152 * td.toNat + 4096 * j + o))) ∧
    (∀ td ta g rm, q.instr = .tcvt td ta g rm → rows td (tm.tileTags.set td.toNat g) (List.range 32) g fun i =>
      let src := tagOf ta
      let old := tileRow tm.tileMem ta.toNat i src
      let conv (y : Nat) : Nat := (convElem src.tag g.tag rm false y).1
      if src = g then old else if src = .f64 then old.map conv ++ List.replicate 192 0
      else if g = .f64 then (old.take 192).map conv else old.map conv) ∧
    (∀ td a g, q.instr = .trdr td a g → ∃ m, runs m ∧ m.teams = s.m.teams ∧ rest m fun y => y.setRegs a.toNat
      (regsOf (tagOf td).tag 8 (leNat (tm.tileMem.read (49152 * td.toNat + 1536 * l + 32 * g.toNat) 32)))) ∧
    (∀ td a g h, q.instr = .twrr td a g → tileOfTag (rs.headD rv0).tag = some h →
      fills (tm.tileTags.set td.toNat h) (49152 * td.toNat + 1536 * l + 32 * g.toNat) (leBytes (bitsOf rs) 32)) ∧
    (∀ td a, q.instr = .tscl td a → tagOf td ≠ .i32 → rows td tm.tileTags [l] (tagOf td) fun i =>
      let k := if tagOf td = .f64 then 2 else 1
      (tileRow tm.tileMem td.toNat i (tagOf td)).map fun y =>
        (fFma (if tagOf td = .f64 then fp64 else fp32) .rne false y (bitsOf (rs.take k)) (bitsOf ((rs.drop k).take k))).1) ∧
    (∀ td a o, q.instr = .tred td a o → ∃ m, runs m ∧ m.teams = s.m.teams ∧ rest m fun y =>
      let g := tagOf td
      let fmt := if g = .f64 then fp64 else fp32
      let step (acc e : Nat) : Nat := match o with
        | .sum => if g = .i32 then (acc + e) % 2 ^ 32 else (fAdd fmt .rne false acc e).1
        | .sq => if g = .i32 then (acc + e * e) % 2 ^ 32 else (fFma fmt .rne false e e acc).1
        | .max => if g = .i32 then iMax 32 acc e else (fMinMax true fmt false acc e).1
        | .min => if g = .i32 then iMin 32 acc e else (fMinMax false fmt false acc e).1
      let start := identity (match o with | .sum | .sq => .add | .max => .max | .min => .min) g.tag
      y.setRegs a.toNat (valRegs g.tag ((tileRow tm.tileMem td.toNat l g).foldl step start))) ∧
    (∀ td a b ru ext u off h, q.instr = .tmma td a b ru ext → q.addr = some (.scratch u off) → s.m.team? u = some tm →
      shapeOf (rs.headD rv0).tag = some h → q.dirty = [] → rows td tm.tileTags [l] h.tile fun i =>
        (tileRow tm.tileMem td.toNat i h.tile).zipIdx.map fun p =>
          if masked ext i p.2 then (match ext with | some e => fillConst e.fill h.tile | none => 0)
          else tmmaElem rs q.fmt h.k p.1 (bColumn (tm.scratch.read off q.num) q.fmt (tileCols h.tile) h.k p.2)) ∧
    (∀ td a b (ps : List Nat), q.instr = .tspl td a b → q.sent = false → global ps false → s.m.mem.wf = true →
      let arrives (m : Mach) : Prop := exec (.chunkArrival q.core q.sub) s = .next { s with m := m } ∧ m.teams = s.m.teams
      let gone (m : Mach) : Prop := arrives m ∧ m.mem = s.m.mem ∧ m.tileq = [{ q with sent := true }]
      let frame (m : Mach) : Prop := ∀ y, (∀ p ∈ ps, y < p ∨ p + 4096 ≤ y) → m.mem.get y = s.m.mem.get y
      (s.m.areas = [] →
        let area (n : Nat) (cs : List (Nat × List Byte)) : Area := {
          pages := ps, ctx := q.ctx, next := n, tag := tagOf td, chunks := cs, dirty := false }
        (q.num = 0 → ∃ m, arrives m ∧ m.tileq = [{ q with sent := true }] ∧ m.areas = [area 1 []] ∧ frame m ∧
          ∀ j < 12, ∀ o < 4096, m.mem.get (ps.getD j 0 + o) = tm.tileMem.get (49152 * td.toNat + 4096 * j + o)) ∧
        (0 < q.num → q.num < 16 → ∃ m, gone m ∧ m.areas = [area 0 [(q.num, whole td)]]) ∧
        (16 ≤ q.num → exec (.chunkArrival q.core q.sub) s = .next s)) ∧
      (s.m.area? ps = none → 16 ≤ (s.m.areas.filter fun a => s.m.areaDie a.pages == s.m.areaDie ps).length →
        exec (.chunkArrival q.core q.sub) s = .next s) ∧
      ∀ a : Area, s.m.areas = [a] → a.pages = ps →
        (a.tag ≠ tagOf td ∨ q.num < a.next ∨ (∃ c ∈ a.chunks, c.1 = q.num) → ∃ m, gone m ∧ m.areas = [a]) ∧
        (a.tag = tagOf td → a.next < q.num → (∀ c ∈ a.chunks, c.1 ≠ q.num) →
          (q.num < a.next + 16 → ∃ m, gone m ∧ m.areas = [{ a with chunks := (q.num, whole td) :: a.chunks }]) ∧
          (a.next + 16 ≤ q.num → exec (.chunkArrival q.core q.sub) s = .next s)) ∧
        ∀ cs : List (List Byte), a.tag = tagOf td → a.next = q.num → 0 < q.num → a.dirty = false → cs.length < 16 →
          (∀ c ∈ cs, c.length = 49152) → a.chunks = cs.zipIdx.map (fun p => (q.num + 1 + p.2, p.1)) →
          ∃ m, arrives m ∧ m.tileq = [{ q with sent := true }] ∧
            m.areas = [{ a with next := q.num + 1 + cs.length, chunks := [] }] ∧ frame m ∧
            let w := tileElem a.tag
            ∀ j < 12, ∀ k < 4096 / w, leNat (m.mem.read (ps.getD j 0 + w * k) w) = (whole td :: cs).foldl (fun acc c =>
              amoApply .add a.tag.tag acc (leNat ((c.drop (4096 * j + w * k)).take w)) % 2 ^ (8 * w))
                (leNat (s.m.mem.read (ps.getD j 0 + w * k) w))) ∧
    (∀ td a b ps ar, q.instr = .tfch td a b → global ps false → s.m.areas = [ar] → ar.pages = ps → ar.dirty = false →
      (ar.next ≠ q.num → exec (.tileOperationComplete q.core q.sub) s = .next s) ∧
      (ar.next = q.num → fills (tm.tileTags.set td.toNat ar.tag) (49152 * td.toNat) ((ps.map fun p => s.m.mem.read p 4096).flatten) ∧
        ∃ m, runs m ∧ m.areas = [])) ∧
    (∀ o y, x.ops = [o] → o.kind = .xsht y →
      (s.m.drained y.cmds y.stamps = false ∨ q.order ∈ y.tiles → exec (.xshtDrainDone t o.id) s = .next s) ∧
      (y.cmds = [] → y.stamps = [] → y.tiles = [] → y.bytes = 0 →
        (y.leaf = none → t.team = q.team → tm.scratch.wf = true → ∃ m tm', exec (.xshtDrainDone t o.id) s = .next { s with m := m } ∧
          m.mem = s.m.mem ∧ m.team? t.team = some tm' ∧ tm.scratch.Stored tm'.scratch y.va (leBytes y.value.toNat 8) ∧
          ∃ z, m.thread? t = some z ∧ z.ops = [] ∧ z.regs = x.regs) ∧
        (∀ f, y.leaf = some f → s.m.mem.wf = true → s.m.atHome (f.pa y.va) → f.pa y.va % 8 = 0 →
          ∃ m, exec (.xshtDrainDone t o.id) s = .next { s with m := m } ∧ m.teams = s.m.teams ∧
          s.m.mem.Stored m.mem (f.pa y.va) (leBytes y.value.toNat 8) ∧
          ∃ z, m.thread? t = some z ∧ z.ops = [] ∧ z.regs = x.regs)))

/-- 11 R178, R186, R194-R197: a core's drover serves the queues whose heads have room round-robin by team slot; it takes the
command at a queue's head, one of an unknown kind with status 2; a piece of payload lands and is credited; a command that has
ended with no stamp leaves its owner's count, with cause 0x31 when it failed; a STAMP command writes its value with the status in
its low bits. The first offending address of an unknown kind, and an event for each piece, are the model's reading (logs 31, 32).
-/
def Obligations.DroverQueues : Prop :=
  ∀ (s : State) (t : Team) (owner : TRef) (x : Thread), s.m.team? t.uid = some t → s.m.thread? owner = some x →
    (s.m.droverNext t.core ≠ some t.uid → exec (.droverAccept t.uid) s = .next s) ∧
    (∀ core u, s.m.droverNext core = some u →
      let dist (y : Team) : Nat := (y.slot + 31 - getAssoc 31 core s.m.droverTurn) % 32
      ∃ y ∈ s.m.teams, y.uid = u ∧ y.core = core ∧ s.m.headFits y = true ∧
        ∀ z ∈ s.m.teams, z.core = core → s.m.headFits z = true → dist y ≤ dist z) ∧
    (∀ n w rest, t.qcmds = (n, owner, w) :: rest → t.returned = [] → s.m.cmds = [] → s.m.noAccept = false → t.status = .running →
      (∀ u ∈ s.m.teams, u.core = t.core → u.uid = t.uid ∨ (u.qcmds = [] ∧ u.returned = [])) →
      ∃ m c t', exec (.droverAccept t.uid) s = .next { s with m := m } ∧ m.mem = s.m.mem ∧ m.threads = s.m.threads ∧
        m.team? t.uid = some t' ∧ t' = { t with qcmds := rest, qhead := t.qhead + n } ∧ m.cmds = [c] ∧ c.team = t.uid ∧
        c.owner = owner ∧ c.inst = w ∧ c.seq = t.qhead ∧ c.next = 0 ∧ c.landed = 0 ∧ c.pieces = [] ∧
        (c.done = true ↔ c.status ≠ 0) ∧
        c.entries = (List.range n).map (fun j => BitVec.ofNat 256 (leNat (t.qmem.read (32 * ((t.qhead + j) % 256)) 32))) ∧
        (9 < c.kind ∨ c.count ≠ n ∨ c.count ≠ kindCount c.kind → c.status = 2 ∧ c.badAddr = BitVec.ofNat 64 c.dst)) ∧
    (∀ c : Cmd, s.m.cmds = [c] → c.team = t.uid → c.owner = owner →
      (∀ p off, c.pieces = [p] → p.dst = .scratch t.uid off → c.crh = false → t.scratch.wf = true →
        ∃ m t', exec (.payloadLand c.id p.id) s = .next { s with m := m } ∧ m.mem = s.m.mem ∧
          m.cmds = [{ c with pieces := [], landed := c.landed + p.bytes.length }] ∧ m.team? t.uid = some t' ∧
          t.scratch.Stored t'.scratch off p.bytes) ∧
      (c.done = true → c.pieces = [] → c.staddr = 0 → c.crh = false → x.wait ≠ .exited →
        ∃ m t', exec (.droverCommandEnd c.id) s = .next { s with m := m } ∧ m.mem = s.m.mem ∧ m.cmds = [] ∧
          m.thread? owner = some { x with drover := x.drover - 1 } ∧ m.team? t.uid = some t' ∧
          t'.latent = t.latent ++ (if c.status = 0 ∨ c.status = 0x000B then [] else
            [{ cause := 0x31, addr := c.badAddr, thread := some owner }])) ∧
      (∀ off, c.kind = 9 → c.done = false → c.status = 0 → t.own c.staddr 8 off → t.scratch.wf = true → x.wait = .ready →
        ∃ m t', exec (.droverStamp c.id) s = .next { s with m := m } ∧ m.mem = s.m.mem ∧ m.cmds = [] ∧
          m.thread? owner = some { x with drover := x.drover - 1 } ∧ m.team? t.uid = some t' ∧
          t.scratch.Stored t'.scratch off (leBytes (c.stval / 2 ^ 16 * 2 ^ 16) 8)))

/-- 11 R187, R188: the copy kinds within the team's own scratchpad. LIN and FILL put their next 256 bytes on their way, TEN2 and
TEN3 their next elements, those outside the tensor as the fill value, GATH its next row, one whose index is outside the table as
fill values. The unit in which a command proceeds is the model's (log 31). -/
def Obligations.DroverCopies : Prop :=
  ∀ (s : State) (t : Team) (c : Cmd), s.m.team? c.team = some t → t.status = .running → s.m.cmds = [c] → c.done = false →
    c.parked = none → s.m.readsFit c t = true →
    let has (a n off : Nat) : Prop := t.own a 1 off ∧ off + n ≤ 4096 * t.scr ∧ off + n ≤ 2 ^ 32
    let sent (i : Instr) (ps : List Piece) (next total : Nat) : Prop := ∃ m, exec i s = .next { s with m := m } ∧ m.mem = s.m.mem ∧
      m.teams = s.m.teams ∧ m.threads = s.m.threads ∧
      m.cmds = [{ c with pieces := c.pieces ++ ps, next := next, done := decide (total ≤ next) }]
    let carries (ps : List Piece) (off : Nat) (bs : List Byte) : Prop := (ps.map fun p => p.bytes).flatten = bs ∧
      ∀ (j : Nat) (p : Piece), ps[j]? = some p → p.dst = .scratch t.uid (off + ((ps.take j).map fun q => q.bytes.length).sum)
    let n := min 256 (c.word 1 2 - c.next)
    (∀ so d, c.kind = 0 → has (c.src + c.next) n so → has (c.dst + c.next) n d →
      ∃ ps, sent (.lin c.id) ps (c.next + n) (c.word 1 2) ∧ carries ps d (t.scratch.read so n)) ∧
    (∀ d, c.kind = 1 → has (c.dst + c.next) n d →
      ∃ ps, sent (.fill c.id) ps (c.next + n) (c.word 1 2) ∧
        carries ps d ((List.range n).map fun j => ((leBytes c.src 8).take c.esize).getD (j % c.esize) 0)) ∧
    (∀ (k : Nat) (so d : Nat → Nat), k = min (256 / c.esize) (c.window - c.next) → c.esize ∈ [1, 2, 4, 8] →
      (∀ j < k, (c.element (c.next + j)).2 % c.esize = 0 ∧ has (c.element (c.next + j)).2 c.esize (d j) ∧
        ∀ a, (c.element (c.next + j)).1 = some a → a % c.esize = 0 ∧ has a c.esize (so j)) →
      ∀ p ∈ [(2, Instr.ten2 c.id), (3, .ten3 c.id)], c.kind = p.1 → sent p.2 ((List.range k).map fun j => {
        id := s.m.uid + j, dst := .scratch t.uid (d j)
        bytes := if (c.element (c.next + j)).1.isSome then t.scratch.read (so j) c.esize else c.fill
        fill := (c.element (c.next + j)).1.isNone }) (c.next + k) c.window) ∧
    (∀ io so d, c.kind = 4 → c.row = none → has (c.wide 1 2 + 4 * c.next) 4 io → has (c.dst + c.next * c.word 1 5) (c.word 1 5) d →
      let i := toS 32 (leNat (t.scratch.read io 4))
      (0 ≤ i → i < c.word 1 7 → has ((c.src : Int) + i * c.int 1 6).toNat (c.word 1 5) so →
        ∃ ps, sent (.gath c.id) ps (c.next + 1) (c.word 1 4) ∧ carries ps d (t.scratch.read so (c.word 1 5))) ∧
      (i < 0 ∨ c.word 1 7 ≤ i → c.fill.length = c.esize → c.word 1 5 % c.esize = 0 →
        ∃ ps, sent (.gath c.id) ps (c.next + 1) (c.word 1 4) ∧
          carries ps d (List.replicate (c.word 1 5 / c.esize) c.fill).flatten))

/-- 11 R189-R193: the kinds that work at homes, through translations they hold. IDXR of one row element and one index stores the
operation on its start value and the table's element; ROWZ zeroes a row unit and ROWC copies one within its stack, the module's
own or a peer's (log 78), every other byte standing; a collective of one rank sends its own vector. The unit in which a command
proceeds, and the machine taking the event of a collective of one rank, are the model's (logs 31, 33). -/
def Obligations.DroverHomeKinds : Prop :=
  ∀ (s : State) (t : Team) (c : Cmd), s.m.team? c.team = some t → t.status = .running → s.m.cmds = [c] → c.done = false →
    c.parked = none → s.m.readsFit c t = true → c.next = 0 → c.crh = false → s.m.mem.wf = true → s.m.settled →
    (∀ p ∈ s.m.linemeta, ∀ o, s.m.ownerOf? p.1 = some o → o < 128) →
    let held (a : Nat) (w : Bool) (l : Leaf) : Prop := a < 2 ^ 57 ∧ (∃ p, c.pages.find? (fun p => p.1 ≤ a && a < p.1 + p.2.size) =
      some (p, l)) ∧ s.m.allowed t.ctx l w false = true ∧ (w = true → pteD l.bits = true)
    let ended (i : Instr) (m : Mach) (n : Nat) : Prop := exec i s = .next { s with m := m } ∧ m.teams = s.m.teams ∧
      ∃ c', m.cmds = [c'] ∧ c'.done = true ∧ c'.status = c.status ∧ c'.landed = c.landed + n ∧ c'.pieces = c.pieces
    (∀ g l li lr, c.kind = 5 → c.tag = some g → c.word 1 4 = 1 → c.word 1 5 = g.width / 8 → c.dst % 8 = 0 → held c.dst true l →
      pteExc l.bits = 1 → admits l.bits = true → pteMig l.bits = false →
      c.wide 1 2 % 4 = 0 → held (c.wide 1 2) false li →
      let e := g.width / 8
      let i := toS 32 (leNat (s.m.mem.read (li.pa (c.wide 1 2)) 4))
      let r := ((c.src : Int) + i * c.int 1 6).toNat
      0 ≤ i → i < c.word 1 7 → r % 8 = 0 → held r false lr → s.m.atHome (l.pa c.dst) → s.m.atHome (li.pa (c.wide 1 2)) →
      s.m.atHome (lr.pa r) → ∃ m, ended (.idxr c.id) m e ∧ s.m.mem.Stored m.mem (l.pa c.dst) (leBytes (amoApply c.redOp g
        (if c.init then identity c.redOp g else leNat (s.m.mem.read (l.pa c.dst) e)) (leNat (s.m.mem.read (lr.pa r) e))) e)) ∧
    (∀ l ls, c.word 1 2 = 8192 → c.dst % 8192 = 0 → held c.dst true l → pteSz l.bits ≠ 0 →
      spaceOf (l.pa c.dst) = 0 ∨ spaceOf (l.pa c.dst) = 2 → l.pa c.dst % 8192 = 0 →
      (c.kind = 7 → ∃ m, ended (.rowz c.id) m 8192 ∧ s.m.mem.Stored m.mem (l.pa c.dst) (List.replicate 8192 0)) ∧
      (c.kind = 6 → c.src % 8192 = 0 → held c.src false ls → pteSz ls.bits ≠ 0 → spaceOf (ls.pa c.src) = spaceOf (l.pa c.dst) →
        ls.pa c.src % 8192 = 0 → ls.pa c.src ≠ l.pa c.dst →
        (spaceOf (l.pa c.dst) = 0 ∧ s.m.stackOf (ls.pa c.src) = s.m.stackOf (l.pa c.dst)) ∨
          (spaceOf (l.pa c.dst) = 2 ∧ ls.pa c.src / 2 ^ 46 % 256 = l.pa c.dst / 2 ^ 46 % 256 ∧
            s.m.stackOf (ls.pa c.src % 2 ^ 46) = s.m.stackOf (l.pa c.dst % 2 ^ 46)) →
        (∀ o < 8192, s.m.atHome (ls.pa c.src + o)) →
        ∃ m, ended (.rowc c.id) m 8192 ∧ s.m.mem.Stored m.mem (l.pa c.dst) (s.m.mem.read (ls.pa c.src) 8192))) ∧
    (∀ g l lm ls n peers, c.kind = 8 → c.peers = none → c.tag = some g → c.word 1 4 = 1 → c.word 1 5 = 0 → n = c.word 1 2 * (g.width / 8) →
      s.m.readsFit { c with peers := some peers } t = true →
      n < 2 ^ 36 → 0 < n → n ≤ 8 - c.src % 8 → n ≤ 8 - c.dst % 8 → held (c.wide 1 6) false lm → held c.src false ls →
      held c.dst true l → s.m.atHome (lm.pa (c.wide 1 6)) → s.m.atHome (ls.pa c.src) →
      (s.m.mem.get (lm.pa (c.wide 1 6))).toNat = s.m.module →
      ∃ m c', exec (.coll c.id true peers) s = .next { s with m := m } ∧ m.mem = s.m.mem ∧ m.teams = s.m.teams ∧ m.cmds = [c'] ∧
        c'.done = true ∧ c'.status = c.status ∧ c'.pieces = c.pieces ++
          [{ id := s.m.uid, dst := .pa (l.pa c.dst), bytes := s.m.mem.read (ls.pa c.src) n
             va := some c.dst }])

/-! ### Events of teams, grids and launches -/

/-- 16 R244-R246, R232, 19 R267: a core that learns of an imprecise fault sets FP and begins its thread's skid; one of the team
is reported at once, a team fault of kind 7. A faulted team whose operations in flight have completed discards its unpublished
bytes, writes its record to its context's ring, moves FQHEAD on, and is killed unless its context's policy and the launch let it
restart; a drained team that restarts is in team-start state. That a team fault waits for its operations as an event is the
model's step (log 52). -/
def Obligations.TeamFaults : Prop :=
  ∀ (s : State) (t : Team), s.m.team? t.uid = some t →
    (∀ i : Imprecise, t.status = .running → t.latent = [i] → t.known = [] →
      (∀ r x, i.thread = some r → s.m.thread? r = some x → x.wait ≠ .exited → exec (.impreciseFaultDetect t.uid) s = .next { s with
        m := (s.m.updTeam t.uid fun y => { y with latent := [], known := [i], fp := true }).updThread r fun y => { y with skid := 0 } }) ∧
      (i.thread = none → ∃ m t', exec (.impreciseFaultDetect t.uid) s = .next { s with m := m } ∧ m.mem = s.m.mem ∧
        m.team? t.uid = some t' ∧ t'.status = .stopping ∧ t'.fault = some {
          addr := i.addr, inst := 0, taskid := t.taskid, mask := 0, exc := 0, cause := i.cause, kind := 7, core := t.core
          tslot := t.slot, group := 0 })) ∧
    (∀ c r, t.status = .stopping → s.Records t c r → (∀ x ∈ s.m.threads, x.ref.team = t.uid → x.ops = [] ∧ x.release = none) →
      let at_ := c.ringAt
      let mayRestart : Prop := c.desc.policy = true ∧ t.rstr = true ∧ t.nr = false ∧ t.restarts < c.desc.rlimit ∧ t.shepherd = false
      ∃ m t', exec (.teamRetire t.uid) s = .next { s with m := m } ∧
        (∀ y, m.mem.get y = if at_ ≤ y ∧ y < at_ + 32 then (leBytes (r.bits c.fqhead) 32).getD (y - at_) 0
          else if c.addr + 28 ≤ y ∧ y < c.addr + 32 then (leBytes (c.fqhead + 1).toNat 4).getD (y - (c.addr + 28)) 0
          else s.m.mem.get y) ∧
        m.ctx? t.ctx = some { c with fqhead := c.fqhead + 1 } ∧ m.round (regionOf at_) = s.m.round (regionOf at_) + 1 ∧
        m.versions = s.m.versions.filter (fun b => b.diePub || b.ref.team != t.uid) ∧
        m.team? t.uid = some t' ∧ t'.status = .stopping ∧ t'.fault = none ∧ (t'.killed = true ↔ ¬ mayRestart)) ∧
    (t.status = .stopping → t.fault = none → t.killed = false → t.n ≤ 1024 → s.m.teamDrained t.uid = true →
      (∀ g ∈ s.m.groups, g.team = t.uid) → ∃ m t', exec (.teamRetire t.uid) s = .next { s with m := m } ∧ m.mem = s.m.mem ∧
        m.team? t.uid = some t' ∧ t' = { t with
          status := .running, restarts := min 255 (t.restarts + 1), scratch := [], tileMem := [], tileTags := List.replicate t.tiles .f32
          qmem := [], qhead := 0, qtail := 0, qcmds := [], returned := [], taskid := 0, nr := false, fp := false, defer := false
          latent := [], known := [], hurdles := [], startClk := s.m.clk, preempt := none, lost := false, brk := false
          since := s.m.uid } ∧
        m.threads.filter (fun x => x.ref.team == t.uid) = (teamThreads t.n).map fun p =>
          startThread { team := t.uid, tidx := p.1 } p.2 t.regs t.entry s.m.clk)

/-- 02 R39-R41, 15 R227, R231-R233, 16 R251: a team whose operations have drained leaves its core, a flushed one with its
unpublished bytes gone; a grid whose every team has gone makes its bytes visible at their homes, or writes its completion stamp;
a launch is eligible once its stamp's value is met, which a slice's record catches; a fold goes to the lowest-numbered core, in
team-start state, and IDLE becomes RUN. The order of placing, and a fold to the lowest-numbered core, are the model's choice (log
39). -/
def Obligations.TeamEvents : Prop :=
  (∀ (s : State) (t : Team), s.m.team? t.uid = some t → s.m.teamDrained t.uid = true →
    let leaves (st : TeamStatus) (vs : List VByte) : Prop := ∃ m t', exec (.teamRetire t.uid) s = .next { s with m := m } ∧
      m.mem = s.m.mem ∧ m.versions = vs.filter (fun b => !(isFold b.pa && foldTeamOf b.pa == t.uid)) ∧
      (∀ x ∈ m.threads, x.ref.team ≠ t.uid) ∧ (∀ g ∈ m.groups, g.team ≠ t.uid) ∧
      m.team? t.uid = some t' ∧ t'.status = st ∧ ∀ u, u ≠ t.uid → m.team? u = s.m.team? u
    (t.status = .retired → t.latent = [] → leaves .gone s.m.versions) ∧
    (t.status = .stopping → t.fault = none → t.killed = true → leaves .gone s.m.versions) ∧
    (∀ c f, t.status = .running → t.fp = false → t.latent = [] →
      t.preempt = some { method := .flush, since := c, defer := none, forced := f } →
      leaves .flushed (s.m.versions.filter fun b => b.diePub || b.ref.team != t.uid))) ∧
  (∀ (s : State) (l : Launch), s.m.launch? l.uid = some l → l.folds ≤ l.next → s.m.objects = [] → s.m.mem.wf = true →
    (∀ t ∈ s.m.teams, t.launch = l.uid → t.status = .gone) →
    let ends (at_ : Nat) (bs : List Byte) : Prop := ∃ m, exec (.gridComplete l.uid) s = .next { s with m := m } ∧
      s.m.mem.Stored m.mem at_ bs ∧ m.versions = [] ∧ (m.teams = s.m.teams.filter fun t => t.launch != l.uid) ∧
      m.launches.map (·.uid) = (s.m.launches.filter fun y => y.uid != l.uid).map (·.uid)
    (∀ b : VByte, l.csa = 0 → s.m.versions = [b] → b.atomic = false → isFold b.pa = false → s.m.atHome b.pa →
      (∃ t ∈ s.m.teams, t.launch = l.uid ∧ t.uid = b.ref.team) → ends b.pa [b.byte]) ∧
    (∀ lf, l.csa ≠ 0 → s.m.versions = [] → s.m.stampLeaf l.ctx l.csa true = (s.m, .ok lf) →
      let pa := lf.pa (l.csa % 2 ^ 57)
      s.m.atHome pa → pa % 8 = 0 → ends pa (leBytes (l.csv.toNat / 2 ^ 16 * 2 ^ 16 + l.killed.toNat) 8))) ∧
  (∀ (s : State) (l : Launch) (a pa : Nat) (v : DWord), s.m.launch? l.uid = some l → l.eligible = false →
    l.dep0 = some (a, v) → l.dep0pa = some pa → l.dep1 = none → s.m.atHome pa →
    exec (.launchEligible l.uid) s = .next (if l.met0 = true ∨ (l.rec0 = false ∧ v.toNat ≤ leNat (s.m.mem.read pa 8)) then
      { s with m := s.m.updLaunch l.uid fun y => { y with eligible := true, waitFrom := some s.m.clk } } else s)) ∧
  ∀ (s : State) (l : Launch), s.m.launches = [l] → l.shepherd = none → l.eligible = true → l.next < l.folds →
    s.m.runs l.ctx = true → s.m.teams = [] → s.m.groups = [] → s.m.threads = [] → s.m.heldCores = [] → s.m.services = false →
    s.m.placeable 0 = true → l.teams = 1 → 4096 * l.regs + shareBytes l.scr ≤ 3145728 → l.tiles ≤ 32 → l.threads ≤ 1024 →
    ∃ m base, base < 4 ∧ exec .foldPlace s = .next { s with
        m := m, sys := { s.sys with power := if s.sys.power = .idle then .run else s.sys.power } } ∧
      m.mem = s.m.mem ∧ m.launches = [{ l with next := l.next + 1, waitFrom := some s.m.clk, asked := [] }] ∧
      m.teams = [{ l.team s.m.uid 0 0 base l.next 0 with
        tileTags := List.replicate l.tiles .f32, startClk := s.m.clk, since := s.m.uid + 1 }] ∧
      m.threads = (teamThreads l.threads).map (fun p =>
        startThread { team := s.m.uid, tidx := p.1 } p.2 l.regs l.entry s.m.clk) ∧
      m.groups.length = groupCount l.threads ∧ ∀ g ∈ m.groups, g.team = s.m.uid ∧ g.sub = (base + g.index) % 4 ∧ g.slot < 8

/-- 15 R229, 16 R250-R254, 15 R233: a waiting priority-3 fold asks for its victim's pre-emption and holds its core; R250 chooses
flush, drain or save; a flush or save waits while a hurdle is partly arrived, and R250 chooses again when that clears; a drain of
200 us and a deferral of 100 us end in a save; a saved team stands aside, its unpublished bytes in a slice and its parked command
back in its queue, while a collective that awaits its members stays, and runs again as it was, one that a breakpoint saved only
for the debugger; a context torn down, or killed by a fault of its fill, has no team left, and the fault writes each grid's stamp
with status 2 and a record of kind 10. When a team can be saved, and that SAVEFAULT ends every team at once, are the model's
reading (log 42). -/
def Obligations.Preemption : Prop :=
  ∀ (s : State) (t : Team), s.m.team? t.uid = some t →
    let gives (i : Instr) (m : Mach) : Prop := exec i s = .next { s with m := m }
    let put (me : Method) (d : Option Nat) (f : Bool) : Mach := s.m.updTeam t.uid fun y => { y with
      preempt := some { method := me, since := s.m.clk, defer := d, forced := f }, defer := d.isSome }
    let gs := s.m.groups.filter fun g => g.team == t.uid
    let r := (gs.filter fun g => g.retired).length
    let e := s.m.clk - t.startClk
    let wiped (m : Mach) : Prop :=
      ∀ y, y ∈ m.teams ↔ y ∈ s.m.teams ∧ ∀ z ∈ s.m.teams, z.ctx = t.ctx → z.uid ≠ y.uid
    (t.status = .running → t.preempt = none → t.shepherd = false →
      (t.idem = true → e < 35000 → t.hurdles = [] → t.qcmds = [] → t.returned = [] →
        ∃ m, gives (.preemptRequest t.uid) m ∧ m.mem = s.m.mem ∧ m.team? t.uid = some { t with
          preempt := some { method := .flush, since := s.m.clk, defer := none, forced := false }, defer := false }) ∧
      (t.idem = true → e < 35000 → t.hurdles ≠ [] → gives (.preemptRequest t.uid) (put .flush (some s.m.clk) false)) ∧
      ((t.idem = true → 35000 ≤ e) → 1 ≤ r → e * (gs.length - r) ≤ 350000 * r →
        gives (.preemptRequest t.uid) (put .drain none false)) ∧
      ((t.idem = true → 35000 ≤ e) → (r = 0 ∨ 350000 * r < e * (gs.length - r)) → gives (.preemptRequest t.uid)
        (put .save (if t.hurdles = [] then none else some s.m.clk) false)) ∧
      (∀ l : Launch, s.m.launch? l.uid = some l → l.prio = 3 → l.shepherd = none → l.eligible = true → l.next < l.folds →
        l.waited s.m.clk = true → l.asked = [] → s.m.runs l.ctx = true → s.m.choice l = some [t.uid] → t.idem = false → r = 0 →
        t.hurdles = [] → gives (.priorityWaitExpiry l.uid) {
          (put .save none false).updLaunch l.uid (fun y => { y with asked := [t.uid] }) with
          heldCores := (s.m.heldCores ++ [(t.core, l.uid)]).dedup })) ∧
    (∀ p : Preempt, t.status = .running → t.preempt = some p →
      (p.method = .drain → t.hurdles = [] → p.since + 350000 ≤ s.m.clk →
        gives (.drainTimeout t.uid) (put .save none p.forced)) ∧
      (∀ c, p.defer = some c → c + 175000 ≤ s.m.clk → gives (.deferTimeout t.uid)
        (s.m.updTeam t.uid fun y => { y with preempt := some { p with method := .save, defer := none }, defer := false })) ∧
      (∀ c, p.defer = some c → t.hurdles = [] → p.forced = true ∨ s.m.methodFor t = .save →
        gives (.deferClear t.uid) (put .save none p.forced)) ∧
      (∀ c, p.defer = some c → t.hurdles = [] → p.forced = false →
        ((t.idem = true → 35000 ≤ e) → 1 ≤ r → e * (gs.length - r) ≤ 350000 * r → gives (.deferClear t.uid) (put .drain none false)) ∧
        (t.idem = true → e < 35000 → t.qcmds = [] → t.returned = [] → ∃ m, gives (.deferClear t.uid) m ∧ m.mem = s.m.mem ∧
          m.team? t.uid = some { t with
            preempt := some { method := .flush, since := s.m.clk, defer := none, forced := false }, defer := false })) ∧
      (∀ c, p.defer = some c → t.hurdles ≠ [] → exec (.deferClear t.uid) s = .next s) ∧
      (p.method = .save → p.defer = none → s.m.tileq = [] →
        (∀ x ∈ s.m.threads, x.ref.team = t.uid → x.ops = [] ∧ x.release = none) →
        let saved (cs stay : List Cmd) : Mach := { (s.m.updTeam t.uid fun y => { y with
            status := .saved, preempt := none, defer := false, returned := cs ++ y.returned }) with
          cmds := stay
          threads := s.m.threads.map fun x => if x.ref.team = t.uid ∧ x.wait = .halted then { x with wait := .ready } else x
          versions := s.m.versions.map fun b =>
            if b.ref.team = t.uid ∧ b.inL1 = true ∧ b.diePub = false then { b with l2 := true } else b }
        (s.m.cmds = [] → gives (.teamSave t.uid) (saved [] [])) ∧
        ∀ c : Cmd, s.m.cmds = [c] → c.team = t.uid → c.pieces = [] → c.done = false →
          (c.parked ≠ none → gives (.teamSave t.uid) (saved [{ c with parked := none, pages := [] }] [])) ∧
          (c.kind = 8 → c.peers = none → c.parked = none → gives (.teamSave t.uid) (saved [] [c])))) ∧
    (t.status = .saved →
      (t.brk = true → exec (.teamRestore t.uid false) s = .next s) ∧
      (s.m.canRestore t = true → s.m.batches = [] → t.latent = [] → t.known = [] → t.lost = false →
        (∀ x ∈ s.m.threads, x.ref.team = t.uid → x.wait = .ready) → ∃ m, exec (.teamRestore t.uid false) s = .next { s with
            m := m, sys := { s.sys with power := if s.sys.power = .idle then .run else s.sys.power } } ∧
          m.mem = s.m.mem ∧ m.threads = s.m.threads ∧ m.team? t.uid = some { t with status := .running }) ∧
      (∀ c, s.m.ctx? t.ctx = some c → c.desc.fqbase % 4096 = 0 → c.addr % 64 = 0 →
        (c.addr + 64 ≤ c.ringAt ∨ c.ringAt + 32 ≤ c.addr) → s.m.versions = [] → s.m.objects = [] →
        let quiet (w : Mach) : Prop :=
          (c.fqhead - w.fqTail c).toNat ≠ c.desc.fqsize ∧ w.mem.wf = true ∧ w.atHome c.ringAt ∧ w.atHome c.addr
        let rec10 : Record := {
          addr := 0, inst := 0, taskid := t.taskid, mask := 0, exc := 0, cause := 0, kind := 10, core := t.core, tslot := t.slot
          group := 0 }
        let ends (m : Mach) : Prop := gives (.teamRestore t.uid true) m ∧ wiped m ∧
          m.ctx? t.ctx = some { c with fqhead := c.fqhead + 1 } ∧ m.mem.read c.ringAt 32 = leBytes (rec10.bits c.fqhead) 32 ∧
          ∀ l ∈ m.launches, l.ctx ≠ t.ctx
        ((∀ l ∈ s.m.launches, l.ctx = t.ctx → 0 < l.next → l.csa = 0) → quiet s.m → ∃ m, ends m) ∧
        ∀ (l : Launch) (w : Mach) (f : Leaf), s.m.launches.filter (fun k => k.ctx == t.ctx && decide (0 < k.next)) = [l] →
          l.csa ≠ 0 → ((s.m.endVersions t.ctx).wipe t.ctx).stampLeaf t.ctx l.csa true = (w, .ok f) →
          let p := f.pa (l.csa % 2 ^ 57)
          p % 8 = 0 → quiet w → w.atHome p → (p + 8 ≤ c.ringAt ∨ c.ringAt + 32 ≤ p) → (p + 8 ≤ c.addr ∨ c.addr + 64 ≤ p) →
          ∃ m, ends m ∧ m.mem.read p 8 = leBytes (l.csv.toNat / 2 ^ 16 * 2 ^ 16 + 2) 8)) ∧
    (s.m.versions = [] → (∀ o ∈ s.m.objects, o.unloaded = false) → ∃ m, gives (.contextTeardown t.ctx) m ∧ m.mem = s.m.mem ∧
      wiped m ∧ (m.ctxs = s.m.ctxs.filter fun c => c.desc.ctxno != t.ctx) ∧
      (m.objects = s.m.objects.filter fun o => o.ctx != t.ctx) ∧ (m.tlb = s.m.tlb.filter fun x => x.ctx != t.ctx) ∧
      ∀ l ∈ m.launches, l.ctx ≠ t.ctx)

/-! ### Errors, agents and services -/

/-- 05 R104-R106, 19 R274, 16 R244: an error is counted in its array alone, saturating; one in a register or array is an
imprecise fault of the team, one in a clean line has it fetched again, one in a dirty line poisons it, one in the byre loses the
saved team; one of a helper's register is no fault; one of the chiplet's caches goes to the operating system, one of a pool
device poisons its line. A load from a peer that is out of reach completes with zeros and the imprecise fault, an atomic with
what it read, and a queued TLD or TST leaves the peer's lines out; a Module- or Domain-class release loses what it has still to
place there, with the imprecise fault, and a Domain-class one with nothing else to place ends. The address 0 for a register or
array, and the bytes a dirty line loses, are the model's reading (log 49); so is address 0 for a peer's release (log 54). -/
def Obligations.Errors : Prop :=
  ∀ (s : State) (p : Place),
    let gives (i : Instr) (m : Mach) : Prop := exec i s = .next { s with m := m } ∧ m.mem = s.m.mem
    let counted (m : Mach) (c u : Nat) : Prop :=
      countersOf p m.errors = (min ((countersOf p s.m.errors).1 + c) 0xFFFFFFFF, min ((countersOf p s.m.errors).2 + u) 0xFFFFFFFF) ∧
      ∀ q, q ≠ p → countersOf q m.errors = countersOf q s.m.errors
    (∀ t v x tm, s.m.thread? t = some x → x.wait ≠ .exited → s.m.team? t.team = some tm →
      ∃ m, gives (.uncorrectableError p (.register t v)) m ∧ counted m 0 1 ∧ m.threads = s.m.threads ∧
        m.team? t.team = some { tm with latent := tm.latent ++
          if x.helper then [] else [{ cause := 0x30, addr := 0, thread := some t }] }) ∧
    (∀ u tm, s.m.team? u = some tm → ∃ m, gives (.uncorrectableError p (.team u)) m ∧ counted m 0 1 ∧
        m.team? u = some { tm with latent := tm.latent ++ [{ cause := 0x30, addr := 0, thread := none }] }) ∧
    (∀ core pa, p = .l1 core →
      (s.m.versions = [] → ∀ i ∈ [Instr.uncorrectableError p (.cleanLine pa), .correctableError p (some pa)],
        ∃ m, gives i m ∧ counted m 1 0 ∧ ∀ y, y ∈ m.l1 ↔ y ∈ s.m.l1 ∧ ¬ (y.core = core ∧ y.line = lineOf pa ∧ y.owned = false)) ∧
      ∃ m, gives (.uncorrectableError p (.dirtyLine pa)) m ∧ counted m 0 1 ∧ m.poisoned pa = true ∧
        (∀ y ∈ m.l1, y.line ≠ lineOf pa) ∧ ∀ b ∈ m.versions, ¬ (lineOf b.pa = lineOf pa ∧ b.core = core ∧ b.diePub = false ∧ b.l2 = false)) ∧
    (∀ pa, (p = .chiplet ∨ ∃ n, p = .pool n) → ∃ m, gives (.uncorrectableError p (.dirtyLine pa)) m ∧ m.errors = s.m.errors ∧
      m.poisoned pa = true ∧ m.machineChecks = s.m.machineChecks ++ if p = .chiplet then [lineOf pa] else []) ∧
    (∀ u tm, s.m.team? u = some tm → ∃ m, gives (.uncorrectableError p (.saved u)) m ∧ counted m 0 1 ∧
        m.team? u = some { tm with lost := true }) ∧
    (∃ m, gives (.correctableError p none) m ∧ counted m 1 0 ∧ m = { s.m with errors := m.errors }) ∧
    (∃ m, gives (.errorCounterClear p) m ∧ countersOf p m.errors = (0, 0) ∧ m = { s.m with errors := m.errors } ∧
      ∀ q, q ≠ p → countersOf q m.errors = countersOf q s.m.errors) ∧
    (∀ (peer : Nat) (x : Thread) (tm : Team) (o : Op), s.m.threads = [x] → s.m.team? x.ref.team = some tm → x.ops = [o] →
      x.release = none → s.m.cmds = [] → x.wait ≠ .exited → x.helper = false → (s.m.tileq = [] →
      let ends (va : Nat) (rs : List RV) : Prop := ∃ m, gives (.peerUnreachable peer) m ∧
        m.threads = [{ x.writeDst o.dst rs with ops := [] }] ∧ m.team? x.ref.team = some { tm with
          latent := tm.latent ++ [{ cause := 0x30, addr := BitVec.ofNat 64 (lineOf va), thread := some x.ref }] }
      (∀ r : LoadReq, o.kind = .load r → onPeer peer r.pa = true → ends r.va (o.dst.zeros o.dst.tag)) ∧
      ∀ rs pa va, o.kind = .value rs → o.place = some (pa, va) → onPeer peer pa = true → ends va rs) ∧
      ∀ q l rs pa n c rest, s.m.tileq = [q] → q.lanes = [(l, x.ref, rs)] → q.team = x.ref.team → o.kind = .plain →
        ((∃ td g a, q.instr = .tld td g a) ∨ ∃ td a, q.instr = .tst td a) → q.pas = (pa, n, c) :: rest → 128 ≤ n →
        onPeer peer pa = true → ∃ m, gives (.peerUnreachable peer) m ∧ m.threads = [x] ∧
          m.tileq = [{ q with cutOff := peer :: q.cutOff }] ∧ m.team? x.ref.team = some { tm with
            latent := tm.latent ++ [{ cause := 0x30, addr := BitVec.ofNat 64 q.base, thread := none }] }) ∧
    ∀ (peer : Nat) (x : Thread) (tm : Team) (r : Release) (b : VByte), s.m.threads = [x] → s.m.team? x.ref.team = some tm →
      x.ops = [] → x.release = some r → 2 ≤ r.cls → s.m.cmds = [] → s.m.tileq = [] → x.helper = false → s.m.versions = [b] →
      b.ref = x.ref → b.op < r.upto → b.diePub = false → onPeer peer b.pa = true →
      ∃ m, gives (.peerUnreachable peer) m ∧ m.versions = [] ∧ m.team? x.ref.team = some { tm with
          latent := tm.latent ++ [{ cause := 0x30, addr := 0, thread := some x.ref }] } ∧
        m.threads = [{ x with release :=
          if r.cls = 3 then none else some { r with lines := r.lines.filter fun l => !onPeer peer l } }]

/-- 19 R265, R271, R273, 20 R294, 07 R137, 09 R159, R162: a store or an atomic of the chiplet takes the line, in M with OWNER
0x8C and no other copy, and stands in its caches; the line's recall brings it home. A peer's write or atomic stands at its home,
and so do its drover's payload and its row command, which leaves no copy of the row in any L1; one that the peer does in its own
L1 takes the line with OWNER 0xFF, and one that it combines becomes a partial of its module. A chiplet's read notes it as a
sharer, a peer's the remote-shared bit; the BARs reach the pinned region; an address in no memory that the agent reaches stops
the machine; in minimal mode the Droveway is off. When an agent owns a line is the model's choice (log 40), and memory is as laid
out in log 13. -/
def Obligations.AgentAccesses : Prop :=
  ∀ (s : State) (pa : Nat), s.m.mem.wf = true → s.m.atHome pa →
    let line := lineOf pa
    let there (n : Nat) : Bool := s.m.inHbm pa n || s.m.inPool pa n || s.m.inPeer pa n
    let far (n : Nat) : Prop := s.sys.boot.minimal = false ∧ s.m.inHbm pa n = true
    let bar (port n : Nat) : Prop := s.m.ports.getD port .off = .pcie ∧ s.m.mailBase ≤ pa ∧ pa + n ≤ s.m.mailBase + 2 ^ 32
    let puts (i : Instr) (bs : List Byte) : Prop := ∃ m, exec i s = .next { s with m := m } ∧ s.m.mem.Stored m.mem pa bs ∧
      m.teams = s.m.teams ∧ m.versions = s.m.versions
    let owns (agent : Nat) (i : Instr) (bs : List Byte) : Prop := ∃ m c m', exec i s = .next { s with m := m } ∧ m.mem = s.m.mem ∧
      m.teams = s.m.teams ∧ m.versions = s.m.versions ∧ stateOf (m.meta line) = 4 ∧ ownerOf (m.meta line) = agent ∧
      m.l1? agent line = some c ∧ (∀ y ∈ m.l1, y.line = line → y.core = agent) ∧
      (∀ j < 128, c.data[j]? = some (if pa ≤ line + j ∧ line + j < pa + bs.length then bs.getD (line + j - pa) 0
        else s.m.mem.get (line + j))) ∧
      exec (.lineRecall pa) { s with m := m } = .next { s with m := m' } ∧ s.m.mem.Stored m'.mem pa bs ∧ stateOf (m'.meta line) = 1
    (∀ bs : List Byte, bs ≠ [] → pa % 128 + bs.length ≤ 128 →
      (there bs.length = true → owns 0x8C (.chipletAccess (.write pa bs)) bs) ∧
      (far bs.length → puts (.drovewayRequest (.write pa bs)) bs ∧ puts (.drovewayRequest (.payload pa bs)) bs) ∧
      (∀ port, bar port bs.length → puts (.hostBarAccess port (.write pa bs)) bs)) ∧
    (∀ f g v, amoAccepts f g = true → pa % (g.width / 8) = 0 →
      let n := g.width / 8
      let bs := leBytes (amoApply f g (leNat (s.m.mem.read pa n)) v.toNat) n
      (there n = true → owns 0x8C (.chipletAccess (.atomic pa f g v)) bs) ∧
      (far n → puts (.drovewayRequest (.atomic pa f g v)) bs ∧ owns 0xFF (.drovewayRequest (.own pa f g v)) bs ∧
        ∀ k, f ∉ [.xchg, .inc, .dec] → ∃ m, exec (.drovewayRequest (.part k pa f g v)) s = .next { s with m := m } ∧
          m.mem = s.m.mem ∧ stateOf (m.meta line) = 5 ∧ m.partials = s.m.partials ++ [{
            core := 0, line := line, home := true, module := some k
            elems := [(pa - line, f, g, BitVec.ofNat 64 (amoApply f g (identity f g) v.toNat))] }])) ∧
    (∀ n, 0 < n → pa % 128 + n ≤ 128 →
      let reads (i : Instr) (ok : BitVec 16 → Prop) : Prop := ∃ m, exec i s = .next { s with m := m } ∧ m.mem = s.m.mem ∧
        m.teams = s.m.teams ∧ m.threads = s.m.threads ∧ stateOf (m.meta line) = 1 ∧ ok (m.meta line)
      (there n = true → reads (.chipletAccess (.read pa n)) fun v => sharersOf v % 2 = 1) ∧
      (far n → reads (.drovewayRequest (.read pa n)) fun v => v.toNat % 2 = 1) ∧
      ∀ port, bar port n → exec (.hostBarAccess port (.read pa n)) s = .next s) ∧
    (far 8192 → pa % 8192 = 0 → s.m.settled → (∀ p ∈ s.m.linemeta, ∀ o, s.m.ownerOf? p.1 = some o → o < 128) →
      let rows (src : Option Nat) (bs : List Byte) : Prop := ∃ m, exec (.drovewayRequest (.row pa src)) s = .next { s with m := m } ∧
        s.m.mem.Stored m.mem pa bs ∧ m.teams = s.m.teams ∧ m.versions = [] ∧ ∀ y ∈ m.l1, y.line < pa ∨ pa + 8192 ≤ y.line
      rows none (List.replicate 8192 0) ∧
      ∀ src, src % 8192 = 0 → src ≠ pa → s.m.inHbm src 8192 = true → s.m.stackOf src = s.m.stackOf pa →
        (∀ o < 8192, s.m.atHome (src + o)) → rows (some src) (s.m.mem.read src 8192)) ∧
    ∀ acc : AgentAccess, acc.span.1 = pa →
      (there acc.span.2 = false → exec (.chipletAccess acc) s = .fault .noSuchMemory) ∧
      (s.sys.boot.minimal = false → s.m.inHbm pa acc.span.2 = false → exec (.drovewayRequest acc) s = .fault .noSuchMemory) ∧
      (s.sys.boot.minimal = true → exec (.drovewayRequest acc) s = .next s) ∧
      ∀ port, ¬ bar port acc.span.2 → exec (.hostBarAccess port acc) s = .fault .noSuchMemory

/-- 19 R268-R270, 18 R262, 06 R122, 15 R236: the shepherd answers the calls of a batch; EXECMAP answers a page that is not the
caller's, an executor it does not admit, a change under way, or the executor it has, and else sets MIG, drops the page's
translations, and, once its holders are done, writes the new executor, each time with a round counted; results stand in the out
registers as the lane goes on; a killed shepherd's lanes take 0x41; a mailbox's record is submitted and answered. The order of
EXECMAP's statuses is the model's reading (log 35). -/
def Obligations.Services : Prop :=
  (∀ (s : State) (b : Batch) (t : TRef) (rs : List RV) (rest : List (TRef × List RV)), s.m.batch? b.id = some b →
    b.calls = (t, rs) :: rest → s.m.serving b = true → s.m.mem.wf = true →
    let answers (i : Instr) (out : List RV) : Prop := exec i s = .next { s with m := s.m.updBatch b.id fun y => { y with
      calls := y.calls.drop 1, change := none, results := y.results ++ [(t, out)] } }
    let rewrites (l : Leaf) (exc mig : Nat) (c : Change) : Prop := ∃ m, exec (.execmap b.id) s = .next { s with m := m } ∧
      s.m.mem.Stored m.mem l.pte (leBytes (withExec (leNat (s.m.mem.read l.pte 8)) exc mig) 8) ∧
      m.batch? b.id = some { b with change := some c } ∧ m.round (regionOf l.pte) = s.m.round (regionOf l.pte) + 1 ∧
      ∀ y ∈ m.tlb, y.ctx = b.ctx → ¬ (y.page ≤ c.va ∧ c.va < y.page + y.leaf.size)
    (b.num = 0 → answers (.nullService b.id) (valRegs .i32 0)) ∧
    (b.num = 1 → answers (.wallclock b.id) (valRegs .i64 (s.m.wallBase + s.m.clk * 4 / 7))) ∧
    (b.num = 2 → answers (.moduleService b.id) (valRegs .i32 s.m.module ++ valRegs .i32 s.m.modules)) ∧
    (b.num = 0x21 → b.change = none → ((rs.getD 0 rv0).tag ≠ .i64 ∨ (rs.getD 1 rv0).tag ≠ .i64 ∨ (rs.getD 2 rv0).tag ≠ .i32) →
      answers (.execmap b.id) (valRegs .i32 4)) ∧
    (∀ l c, b.num = 0x21 → b.change = none → (rs.getD 0 rv0).tag = .i64 → (rs.getD 1 rv0).tag = .i64 →
      (rs.getD 2 rv0).tag = .i32 → bitsOf (rs.take 2) < 2 ^ 57 → s.m.walk b.die b.ctx (bitsOf (rs.take 2)) true = (s.m, some l) →
      s.m.ctx? b.ctx = some c →
      let exc := (rs.getD 2 rv0).bits.toNat
      let mine : Bool := pteU l.bits && pteW l.bits && c.desc.keymask.getLsbD (pteKey l.bits)
      let fits : Bool := decide (exc ≤ 3) && admits (BitVec.ofNat 64 (withExec l.bits.toNat exc 0))
      (mine = false → answers (.execmap b.id) (valRegs .i32 1)) ∧
      (mine = true → fits = false → answers (.execmap b.id) (valRegs .i32 2)) ∧
      (mine = true → fits = true → pteMig l.bits = true → answers (.execmap b.id) (valRegs .i32 3)) ∧
      (mine = true → fits = true → pteMig l.bits = false →
        (pteExc l.bits = exc → answers (.execmap b.id) (valRegs .i32 0)) ∧
        (pteExc l.bits ≠ exc → pteSz l.bits = 0 → l.pte % 8 = 0 → s.m.atHome l.pte →
          (∀ y ∈ s.m.threads, ∀ o ∈ y.ops, ∀ z f, o.kind = .atomic z → z.leaf = some f → ptePa f.bits ≠ ptePa l.bits) → ∃ ch, ch.va = bitsOf (rs.take 2) ∧
          ch.exc = exc ∧ ch.leaf = l ∧ ch.last = false ∧
          rewrites l (leNat (s.m.mem.read l.pte 8) / 2 ^ 56 % 8) 1 ch))) ∧
    (∀ c : Change, b.num = 0x21 → b.change = some c → s.m.drained c.cmds c.stamps = true → s.m.tileq = [] →
      (c.last = true → answers (.execmap b.id) (valRegs .i32 0)) ∧
      (c.last = false → (pteExc c.leaf.bits = 0 ∨ pteExc c.leaf.bits = 2 → ∀ p ∈ s.m.linemeta, ptePa c.leaf.bits ≤ p.1 →
          p.1 < ptePa c.leaf.bits + c.leaf.size → stateOf (s.m.meta p.1) ≤ 1) →
        pteSz c.leaf.bits = 0 → c.leaf.pte % 8 = 0 → s.m.atHome c.leaf.pte → (∀ x ∈ s.m.ctxs, x.lost = []) →
        s.m.launches = [] → ∃ ch, ch.va = c.va ∧ ch.last = true ∧ rewrites c.leaf c.exc 0 ch))) ∧
  (∀ (s : State) (b : Batch) (t : TRef) (x : Thread) (tm : Team) (out : List RV), s.m.batch? b.id = some b → b.calls = [] →
    b.dropped = false → b.results = [(t, out)] → b.team = t.team → s.m.thread? t = some x → x.wait = .service b.id → x.ops = [] →
    s.m.team? t.team = some tm → tm.status = .running → b.failed = false → s.m.services = true → s.m.mirrors = [] →
    (∀ f ∈ s.m.fetches, f.core ≠ tm.core) → (∀ p ∈ s.m.linemeta, s.m.ownerOf? p.1 ≠ some 0x8C) →
    (∀ y ∈ s.m.threads, ∀ c g, y.wait ≠ .loadsDue c s.m.uid g) →
    ∃ m, exec (.serviceResult b.id) s = .next { s with m := m } ∧ m.mem = s.m.mem ∧
      m.thread? t = some { x.setRegs b.a out with wait := .ready } ∧ (m.batches = s.m.batches.filter fun y => y.id != b.id) ∧
      ∀ y ∈ m.l1, y.core = tm.core → y.owned = true) ∧
  (∀ (s : State) (b : Batch) (x : Thread) (tm : Team), s.m.batches = [b] → b.dropped = false → s.m.threads = [x] →
    x.wait = .service b.id → x.canEnter → b.team = x.ref.team → s.m.team? x.ref.team = some tm → tm.status ≠ .saved →
    s.m.services = true →
    (∀ y ∈ s.m.teams, y.shepherd = false) →
    ∃ m, exec (.shepherdKilled b.die) s = .next { s with m := m } ∧ m.mem = s.m.mem ∧ m.batches = [] ∧ m.threads = [{ x with
      fltCause := 0x41, fltPc := b.pc, fltInst := b.inst, fltMask := maskOf [x], fltAddr := 0, fltExc := 0, fltSub := sub0
      fltDst := .none, resume := b.resume, written := false, handlerActive := true, subst := none, pc := x.utvec
      wait := .ready, joined := s.m.clk + 1 }]) ∧
  ∀ (s : State) (box st : Nat) (sh : Team) (m1 : Mach), box ≤ 51 → s.m.shepherd? (box % 4) = some sh → s.m.services = true →
    let base := s.m.mailBase + 256 * box
    let seq := BitVec.ofNat 64 (leNat (s.m.mem.read (base + 128) 8))
    s.m.atHome base → s.m.atHome (base + 128) → seq ≠ getAssoc 0 box s.m.mailSeq →
    ({ s.m with mailSeq := setAssoc box seq s.m.mailSeq } : Mach).submit sh.ctx (s.m.mem.read base 128) = (m1, st) →
    m1.atHome (base + 136) → m1.mem.wf = true →
    ∃ m, exec (.mailboxRequest box) s = .next { s with m := m } ∧ m.launches.map (·.uid) = m1.launches.map (·.uid) ∧
      m1.mem.Stored m.mem (base + 136) (leBytes (seq.toNat % 2 ^ 48 * 2 ^ 16 + st) 8) ∧
      m.round (regionOf (base + 136)) = m1.round (regionOf (base + 136)) + 1 ∧
      m.mailSeq = setAssoc box seq s.m.mailSeq ∧ m.msix = s.m.msix ++ if box < 48 then [] else [box - 48]

/-! ### Firmware, power and start-up -/

/-- 15 R222-R227; 19 R267, R270, R387; 20 R280-R287: what each firmware call answers and changes while an image runs: SUBMIT's
checks in order, and the launch that an accepted record describes; code and data of a loaded object on their pages, U and X or U
and W, where a section has one page and its tables stand; the descriptor of a context in memory; what the debugger writes of
saved teams' state. Answers 0, 1, 2 are DONE, BUSY, DENIED; that a call no rule answers otherwise is DENIED and changes nothing,
and that SVCOFF answers BUSY while batches are in flight, are the model's (log 44), and so are BADFORMAT for an object that
cannot be read (log 43) and where a descriptor stands (log 66). -/
def Obligations.FirmwareCalls : Prop :=
  ∀ s : State, s.sys.silent = false →
    let replies (i : Instr) (n : Nat) : Prop := exec i s = .next { s with sys := { s.sys with answer := n } }
    let gives (i : Instr) (m : Mach) (y : Sys) : Prop := exec i s = .next { s with m := m, sys := y }
    (∀ entry arg, (s.m.kernelAt 1 entry = none → replies (.svcon entry arg) 2) ∧
      ∀ o k, s.m.kernelAt 1 entry = some (o, k) →
        (s.m.svcoff = true → replies (.svcon entry arg) 1) ∧
        (s.m.svcoff = false → s.m.lostDies = [] → s.m.teams = [] → s.m.launches = [] → s.m.diesOff = [] → gives (.svcon entry arg)
          { s.m with uid := s.m.uid + 4, launches := [0, 1, 2, 3].map fun d => shepherdLaunch (s.m.uid + d) d o k arg }
          { s.sys with shepherd := some (entry, arg), answer := 0 })) ∧
    let off : Mach := { s.m with
      services := false, lostDies := []
      launches := s.m.launches.filter fun l => !(l.shepherd.isSome && decide (l.next < l.folds)) }
    let held (b : Batch) : Prop := b.calls = [] ∧ ∃ t, s.m.team? b.team = some t ∧ t.status = .saved
    ((∃ b ∈ s.m.batches, b.failed = false ∧ ¬ held b) →
      gives .svcoff { off with svcoff := true } { s.sys with shepherd := none, answer := 1 }) ∧
    ((∀ b ∈ s.m.batches, b.failed = true ∨ held b) → (∀ t ∈ s.m.teams, t.shepherd = false) →
      gives .svcoff { off with svcoff := false } { s.sys with shepherd := none, answer := 0 }) ∧
    (∀ t g x, s.m.batches = [] → s.m.launches = [] → s.m.teams = [t] → t.shepherd = true → t.status = .running →
      s.m.groups = [g] → g.team = t.uid → s.m.threads = [x] → x.ref.team = t.uid → x.group = g.index → x.wait ≠ .exited →
      x.helper = false → ∃ m, gives .svcoff m { s.sys with shepherd := none, answer := 0 } ∧ m.mem = s.m.mem ∧
        m.services = false ∧ m.svcoff = false ∧ m.teams = [{ t with status := .retired }] ∧ ∀ y ∈ m.threads, y.wait = .exited) ∧
    (∀ pa, s.m.atHome pa → pa % 128 = 0 →
      let f (o n : Nat) : Nat := leNat (s.m.mem.read (pa + o) n)
      let ctx := f 28 4
      (ctx = 0 ∨ s.m.ctx? ctx = none → replies (.submit pa) 1) ∧
      (ctx ≠ 0 → s.m.ctx? ctx ≠ none → (s.m.kernelAt ctx (f 0 8) = none → replies (.submit pa) 2) ∧
        ∀ o k, s.m.kernelAt ctx (f 0 8) = some (o, k) →
          let or (x d : Nat) : Nat := if x = 0 then d else x
          let (threads, teams, regs, scr) := (or (f 20 2) k.threads, or (f 22 1) k.teams, or (f 23 1) k.regs, or (f 24 2) k.scr)
          let stamp (o : Nat) : Prop := f o 8 % 8 = 0 ∧ f o 8 < 2 ^ 57
          let ok : Prop := 1 ≤ f 16 4 ∧ f 16 4 ≤ 2 ^ 24 ∧ 1 ≤ threads ∧ threads ≤ 1024 ∧ 1 ≤ teams ∧ teams ≤ 16 ∧ regs % 8 = 0 ∧
            8 ≤ regs ∧ regs ≤ 128 ∧ regs = k.regs ∧ k.scr ≤ scr ∧ f 26 1 ≤ 32 ∧ f 27 1 < 16 ∧ stamp 32 ∧ stamp 48 ∧ stamp 64 ∧
            f 80 48 = 0
          let fits : Prop := 4096 * scr + 8192 ≤ 3145728 - 4096 * regs
          let queued := s.m.launches.filter fun l => l.ctx == ctx && l.prio == f 27 1 % 4 && l.shepherd.isNone && decide (l.next < l.folds)
          (¬ ok → replies (.submit pa) 3) ∧ (ok → ¬ fits → replies (.submit pa) 4) ∧
          (ok → fits → 1024 ≤ queued.length → replies (.submit pa) 5) ∧
          (ok → fits → queued.length < 1024 → ∃ m l, gives (.submit pa) m { s.sys with answer := 0 } ∧
            m.launches.getLast? = some l ∧ m.launches.length = s.m.launches.length + 1 ∧
            (f 32 8 = 0 → f 48 8 = 0 → m = { s.m with uid := s.m.uid + 1, launches := s.m.launches ++ [l] }) ∧
            l.ctx = ctx ∧ l.entry.toNat = f 0 8 ∧ l.argp.toNat = f 8 8 ∧ l.folds = f 16 4 ∧ l.threads = threads ∧ l.teams = teams ∧
            l.regs = regs ∧ l.scr = scr ∧ l.tiles = f 26 1 ∧ l.prio = f 27 1 % 4 ∧ l.idem = ((f 27 1).testBit 2 || k.idem) ∧
            l.rstr = ((f 27 1).testBit 3 || k.rstr) ∧ l.csa = f 64 8 ∧ l.csv.toNat = f 72 8 ∧ l.object = o.uid ∧
            (∀ p ∈ [(l.dep0, 32), (l.dep1, 48)], p.1 = if f p.2 8 = 0 then none else some (f p.2 8, BitVec.ofNat 64 (f (p.2 + 8) 8))) ∧
            l.accepted = s.m.uid ∧ l.next = 0 ∧ l.eligible = false ∧ l.killed = false ∧ l.shepherd = none))) ∧
    (∀ pa ctx cb db m1 hd, s.m.finishUnloads.readObject 4 pa 256 = (m1, some hd) →
      let h := headerOf hd
      (headerOk hd h = false → gives (.loadobj pa ctx cb db) m1 { s.sys with answer := 1, detail := 0 }) ∧
      ∀ m2 bs, headerOk hd h = true → m1.readObject (h.sigOff / 128 + 3) pa (h.sigOff + 96) = (m2, some bs) →
        let digest := sha384 (bs.take h.sigOff)
        let fails (n : Nat) (y : Sys) : Prop := gives (.loadobj pa ctx cb db) m2 { y with answer := n, detail := 0 }
        (formatOk bs h = false → fails 1 s.sys) ∧
        (formatOk bs h = true → h.svn < s.sys.fuses.cosvnCount →
          fails 2 { s.sys with verified := s.sys.verified.filter fun e => e != (digest, h.signer) }) ∧
        (formatOk bs h = true → s.sys.fuses.cosvnCount ≤ h.svn → (digest, h.signer) ∉ s.sys.verified →
          sigOk s.sys bs h digest = false → fails 3 s.sys) ∧
        let known : Bool := s.sys.verified.contains (digest, h.signer)
        let y : Sys := if known then s.sys else { s.sys with verified := ((digest, h.signer) :: s.sys.verified).take 1024 }
        (formatOk bs h = true → s.sys.fuses.cosvnCount ≤ h.svn → (known || sigOk s.sys bs h digest) = true →
          (h.gen ≠ 2 → fails 4 y) ∧
          (h.gen = 2 → steppingOk m2.k2 bs h = false → fails 5 y) ∧
          (h.gen = 2 → steppingOk m2.k2 bs h = true → m2.spaceFree ctx cb db h = false → fails 6 y) ∧
          (h.gen = 2 → steppingOk m2.k2 bs h = true → m2.spaceFree ctx cb db h = true → ∃ m3 o, gives (.loadobj pa ctx cb db) m3
              { y with answer := 0, detail := ((codeWords bs h).filter isDeprecated).length } ∧
            m3.objects = m2.objects ++ [o] ∧ o.ctx = ctx ∧ o.codeBase = cb ∧ o.dataBase = db ∧ o.svn = h.svn ∧
            o.kernels = (List.range h.nkern).map (fun i => kernelOf bs h cb i) ∧ o.revoked = false ∧ o.unloaded = false ∧
            ∀ c t1 t2 t3 t4, m2.ctx? ctx = some c → m2.mem.wf = true → (∀ a, m2.atHome a) → 0 < h.codeLen → h.codeLen ≤ 4096 →
              0 < h.dataLen → h.dataLen ≤ 4096 → m2.fwBase % 4096 = 0 → m2.fwBase + 8192 ≤ 2 ^ 56 →
              (∀ t ∈ [c.desc.root, t1, t2, t3, t4], t % 4096 = 0 ∧ t + 4096 ≤ m2.fwBase) → t4 ∉ [c.desc.root, t1, t2, t3] →
              cb / 4096 % 512 ≠ db / 4096 % 512 →
              let word (m : Mach) (t va n : Nat) : Nat := leNat (m.mem.read (t + 8 * (va / 2 ^ (12 + 9 * n) % 512)) 8)
              let table (t : Nat) : Nat := 15 * 2 ^ 60 + t + 1
              (∀ va ∈ [cb, db], word m2 c.desc.root va 4 = table t1 ∧ word m2 t1 va 3 = table t2 ∧ word m2 t2 va 2 = table t3 ∧
                word m2 t3 va 1 = table t4) →
              word m3 t4 cb 0 = m2.fwBase + 0b1101 ∧ word m3 t4 db 0 = m2.fwBase + 4096 + 0b1011 ∧
              m3.mem.read m2.fwBase h.codeLen = (bs.drop h.codeOff).take h.codeLen ∧
              m3.mem.read (m2.fwBase + 4096) h.dataLen = (bs.drop h.dataOff).take h.dataLen))) ∧
    (∀ o : Object, ∀ ctx, ((∀ x ∈ s.m.objects, x.uid = o.uid → x.ctx = ctx → x.unloaded = true) → replies (.unloadobj o.uid ctx) 7) ∧
      (s.m.objects = [o] → o.ctx = ctx → o.unloaded = false → (∃ l ∈ s.m.launches, l.object = o.uid) →
        gives (.unloadobj o.uid ctx) { s.m with objects := [{ o with unloaded := true }] } { s.sys with answer := 0 })) ∧
    (∀ n ≤ 128, ∃ f : Fuses, gives (.advsvn n)
        { s.m with objects := s.m.objects.map fun o => if o.svn < f.cosvnCount then { o with revoked := true } else o }
        { s.sys with fuses := f, answer := 0 } ∧ f.cosvnCount = max s.sys.fuses.cosvnCount n ∧
      f = { s.sys.fuses with cosvn := f.cosvn } ∧ ∀ i, s.sys.fuses.cosvn.getLsbD i = true → f.cosvn.getLsbD i = true) ∧
    (∀ (key : PubKey) signed,
      let may : Prop := s.sys.security = .openState ∨ (s.sys.security = .sealed ∧ signed = true ∧ s.sys.fuses.ownerHash ≠ 0)
      (may → key ∉ s.sys.keys → s.sys.keys.length < 8 →
        gives (.keyEnrolment key signed) s.m { s.sys with keys := s.sys.keys ++ [key], answer := 0 }) ∧
      (may → key ∈ s.sys.keys → replies (.keyEnrolment key signed) 0) ∧
      (¬ may ∨ (key ∉ s.sys.keys ∧ 8 ≤ s.sys.keys.length) → replies (.keyEnrolment key signed) 2)) ∧
    (∀ nonce, (s.sys.security = .sealed → s.sys.debug = .none → gives (.enterAttested nonce) s.m { s.sys with
        security := .attested, report := some (s.sys.attest s.m.k2 nonce), answer := 0 }) ∧
      (s.sys.security ≠ .sealed ∨ s.sys.debug ≠ .none → replies (.enterAttested nonce) 2)) ∧
    (∀ d : CtxDesc, (descOk d = false → replies (.contextDescriptorChange d) 2) ∧ (descOk d = true →
      let base := s.m.fwBase
      (s.m.ctx? d.ctxno = none → s.m.mem.wf = true → s.m.atHome base → ∃ m, gives (.contextDescriptorChange d) m
          { s.sys with answer := 0 } ∧ m.ctxs = s.m.ctxs ++ [{
            desc := d, addr := base, fqhead := 0, fqovf := 0, scopes := List.replicate 28 0, halted := false }] ∧
        let at_ (o n : Nat) : Nat := leNat (m.mem.read (base + o) n)
        at_ 0 8 = d.root ∧ at_ 8 2 = d.keymask.toNat ∧
        at_ 10 1 = d.kmode.toNat + 2 * d.lright.toNat + 4 * d.policy.toNat + 8 * d.svcok.toNat ∧ at_ 11 1 = d.rlimit ∧
        at_ 12 4 = d.ctxno ∧ at_ 16 8 = d.fqbase ∧ at_ 24 4 = d.fqsize ∧ at_ 28 4 = 0 ∧ at_ 32 4 = d.fqtail.toNat ∧ at_ 36 4 = 0 ∧
        ∀ y, y < base ∨ base + 64 ≤ y → m.mem.get y = s.m.mem.get y) ∧
      ∀ c, s.m.ctx? d.ctxno = some c →
        let live : Prop := ∃ t ∈ s.m.teams, t.ctx = d.ctxno ∧ (t.status = .running ∨ t.status = .stopping ∨ t.status = .retired)
        let takes (a : Nat) (bs : List Byte) : Prop := s.m.mem.wf = true → s.m.atHome a → ∃ m, gives (.contextDescriptorChange d) m
          { s.sys with answer := 0 } ∧ m.ctxs = (s.m.updCtx d.ctxno fun x => { x with desc := d }).ctxs ∧ s.m.mem.Stored m.mem a bs
        (live → d ≠ { c.desc with fqtail := d.fqtail } → replies (.contextDescriptorChange d) 2) ∧
        (d = { c.desc with fqtail := d.fqtail } → takes (c.addr + 32) (leBytes d.fqtail.toNat 4)) ∧
        (¬ live → d ≠ { c.desc with fqtail := d.fqtail } → takes c.addr ({ c with desc := d } : Ctx).bytes))) ∧
    (∀ f bit, (f = Fuse.sealBit → gives (.fuseBlow f) s.m { s.sys with fuses := { s.sys.fuses with sealBit := true } }) ∧
      (f = .cosvn bit → gives (.fuseBlow f) s.m { s.sys with fuses := { s.sys.fuses with
        cosvn := s.sys.fuses.cosvn ||| (1#128 <<< bit) } })) ∧
    (∀ d, (s.sys.power ≠ .pkgSleep → permits s.sys.security d = false → replies (.debugStateSet d) 2) ∧
      (permits s.sys.security d = true →
        (s.sys.power ≠ .pkgSleep → gives (.debugStateSet d) s.m { s.sys with debug := d, answer := 0 }) ∧
        (s.sys.power = .pkgSleep → s.sys.boot.minimal = false → s.m.lostDies = [] →
          gives (.debugStateSet d) { s.m with diesOff := [] } { s.sys with power := .run, debug := d, answer := 0 }))) ∧
    ∀ ctx,
      (s.sys.power = .pkgSleep → replies (.debugHalt ctx) 1 ∧ ∀ es, replies (.debugResume ⟨ctx, es⟩) 1) ∧
      (s.sys.power ≠ .pkgSleep → s.sys.debug ≠ .halt → replies (.debugHalt ctx) 2) ∧
      (s.sys.power ≠ .pkgSleep → ∀ es, es = [] ∨ s.sys.debug ≠ .halt → gives (.debugResume ⟨ctx, es⟩)
        { (s.m.updCtx ctx fun c => { c with halted := false }) with
          teams := s.m.teams.map fun t => if t.ctx = ctx then { t with brk := false } else t } { s.sys with answer := 0 }) ∧
      (∀ u x t, s.sys.power ≠ .pkgSleep → s.sys.debug = .halt → s.m.thread? u = some x → s.m.team? u.team = some t → t.ctx = ctx →
        t.status = .saved →
        (∀ (r : Reg) b g k v, ∀ p ∈ [(DebugEdit.reg u r b g, x.setRegs r.toNat [{ bits := b, tag := g }]),
            (.preds u k, { x with preds := k ||| 1 }), (.pc u v, { x with pc := v }), (.sys u .fltPc v, { x with fltPc := v }),
            (.sys u .frm v, { x with frm := v.setWidth 32 &&& 7 }), (.sub u (v ++ v) g, { x with fltSub := { bits := v ++ v, tag := g } }),
            (.latch u (some (r.toNat, [(b, g)])), { x with latch := some { a := r.toNat, regs := [{ bits := b, tag := g }] } }),
            (.wait u .ready, { x with wait := .ready }), (.wait u (.held 7), { x with wait := .held 7 }),
            (.wait u .xfen, { x with wait := .xfen }), (.wait u (.counts 1 2 3 4), { x with wait := .counts 1 2 3 4 }),
            (.wait u (.service k.toNat), { x with wait := .service k.toNat }),
            (.handler u true false v, { x with handlerActive := true, written := false, resume := v })],
          ∃ m, gives (.debugResume ⟨ctx, [p.1]⟩) m { s.sys with answer := 0 } ∧ m.mem = s.m.mem ∧ m.thread? u = some p.2) ∧
        (∀ g y n w, s.m.group? t.uid g = some y →
          ∀ p ∈ [(false, { y with e := y.e.set n w }), (true, { y with p := y.p.set n w })],
            ∃ m, gives (.debugResume ⟨ctx, [.mask t.uid g n p.1 w]⟩) m { s.sys with answer := 0 } ∧ m.group? t.uid g = some p.2) ∧
        ∀ o b v, ∀ p ∈ [(DebugEdit.scratch t.uid o b, { t with scratch := t.scratch.set o b, brk := false }),
            (.tile t.uid o b, { t with tileMem := t.tileMem.set o b, brk := false }),
            (.queue t.uid o b, { t with qmem := t.qmem.set o b, brk := false }),
            (.tileTag t.uid o .i32, { t with tileTags := t.tileTags.set o .i32, brk := false }),
            (.sys { team := t.uid, tidx := o } .argp v, { t with argp := v, brk := false }),
            (.sys { team := t.uid, tidx := o } .taskid v, { t with taskid := v.setWidth 32, brk := false }),
            (.sys { team := t.uid, tidx := o } .taskst (1 <<< 31), { t with
              nr := true, fp := false, defer := false, restarts := 0, known := [], latent := [], brk := false }),
            (.pushes t.uid o o [], { t with qhead := o, qtail := o, qcmds := [], brk := false })],
          ∃ m, gives (.debugResume ⟨ctx, [p.1]⟩) m { s.sys with answer := 0 } ∧ m.team? t.uid = some p.2) ∧
      ∀ t, s.sys.power ≠ .pkgSleep → s.sys.debug = .halt → s.m.teams = [t] → t.ctx = ctx → t.status = .running →
        t.preempt = none → (t.shepherd = true ∨ s.m.methodFor t = .save) → ∃ m, gives (.debugHalt ctx) m { s.sys with answer := 0 } ∧
          m.ctxs = (s.m.updCtx ctx fun c => { c with halted := true }).ctxs ∧ m.teams = [{ t with
            preempt := some { method := .save, since := s.m.clk, defer := if t.hurdles = [] then none else some s.m.clk
                              forced := t.shepherd }
            defer := !t.hurdles.isEmpty }]

/-- 20 R281: the verified-object cache, by an object's digest and SIGNER. A load whose key is present skips check 3, the
signature; check 2, the security version, comes first at every load, and an object that fails it is rejected and its entry
purged; an object that passes check 3 enters, and no more than 1,024 entries stand. -/
def Obligations.VerifiedObjects : Prop :=
  ∀ (s : State) (pa ctx cb db : Nat) (m1 m2 : Mach) (hd bs : List Byte), s.sys.silent = false → s.m.finishUnloads.readObject 4 pa 256 = (m1, some hd) →
    let h := headerOf hd
    let key := (sha384 (bs.take h.sigOff), h.signer)
    headerOk hd h = true → m1.readObject (h.sigOff / 128 + 3) pa (h.sigOff + 96) = (m2, some bs) → formatOk bs h = true →
    ∃ t, exec (.loadobj pa ctx cb db) s = .next t ∧ (s.sys.verified.length ≤ 1024 → t.sys.verified.length ≤ 1024) ∧
      (h.svn < s.sys.fuses.cosvnCount → t.sys.answer = 2 ∧ ∀ k, k ∈ t.sys.verified ↔ k ∈ s.sys.verified ∧ k ≠ key) ∧
      (s.sys.fuses.cosvnCount ≤ h.svn →
        (key ∈ s.sys.verified → t.sys.answer ≠ 3 ∧ t.sys.verified = s.sys.verified) ∧
        (key ∉ s.sys.verified →
          (sigOk s.sys bs h key.1 = false → t.sys.answer = 3 ∧ t.sys.verified = s.sys.verified) ∧
          (sigOk s.sys bs h key.1 = true → t.sys.answer ≠ 3 ∧ key ∈ t.sys.verified)))

/-- 20 R289-R295: a power request whose condition holds completes at once and else waits, with placement stopped, until it holds
or its time has passed; waking, the cap, and withheld cycles; a start by what it finds, in minimal mode after three failures; its
end, its 10 s, FAILS cleared, a new image, and the loss of power, which the fuses and BOOT_STATUS outlive. BUSY to a second
request, what power-on and the loss of power clear, DENIED where no rule answers, and the layout of the memory description are
the model's (logs 44, 47, 66). -/
def Obligations.PowerAndStart : Prop :=
  ∀ s : State,
    let replies (i : Instr) (n : Nat) : Prop := exec i s = .next { s with sys := { s.sys with answer := n } }
    let idle : Prop := ∀ t ∈ s.m.teams, t.status ≠ .running ∧ t.status ≠ .stopping ∧ t.status ≠ .retired
    let ended (m : Mach) (p : PowerState) (n : Nat) : State := { s with
      m := { m with noPlace := [], noAccept := false }
      sys := { s.sys with power := p, powerReq := none, powerAns := some n, answer := n } }
    let live : Prop := s.sys.silent = false
    let woken : State := { s with m := { s.m with diesOff := [] }, sys := { s.sys with power := .run } }
    let wakes : Prop := s.sys.boot.minimal = false ∧ (s.m.services = false ∨ s.m.lostDies = [])
    (s.sys.silent = true → ∀ st ds w f, ∀ i ∈ [Instr.powerStateRequest st ds w, .wakeToRun, .powerCapSet w, .fuseBlow f],
      exec i s = .next s) ∧
    (∀ st ds w, live → (s.sys.powerReq = none → permits s.sys.security s.sys.debug = false → replies (.powerStateRequest st ds w) 2) ∧
      (s.sys.powerReq = none → s.sys.power ≠ .pkgSleep → permits s.sys.security s.sys.debug = true →
        (st = .idle → idle → s.m.diesOff = [] → exec (.powerStateRequest st ds w) s = .next (ended s.m .idle 0)) ∧
        (st = .dieOff → ds = [0] → idle → s.m.l1 = [] → s.m.batches = [] → s.m.launches = [] → s.sys.shepherd = none →
          (∀ t ∈ s.m.teams, t.shepherd = false) → ∃ m, exec (.powerStateRequest st ds w) s = .next (ended m .dieOff 0) ∧
            m.mem = s.m.mem ∧ m.teams = s.m.teams ∧ m.diesOff = s.m.diesOff ++ (if 0 ∈ s.m.diesOff then [] else [0]) ∧
            (∀ p ∈ m.partials, p.core < 32 → p.home = true)) ∧
        (st = .pkgSleep → idle → s.m.cmds = [] → s.m.l1 = [] → s.m.linemeta = [] → ∃ m,
          exec (.powerStateRequest st ds w) s = .next (ended m .pkgSleep 0) ∧ m.mem = s.m.mem ∧ m.teams = s.m.teams ∧
            m.diesOff = [0, 1, 2, 3] ∧ m.mirrors = [] ∧ m.tlb = []) ∧
        (st = .idle → ¬ idle → exec (.powerStateRequest st ds w) s = .next { s with
          m := { s.m with noPlace := [0, 1, 2, 3], noAccept := false }
          sys := { s.sys with powerAns := none, powerReq := some {
            state := .idle, dies := ds, deadline := s.m.clk + 1750 * min w 1000000 } } })) ∧
      (∀ r, s.sys.powerReq = some r → (r.state ≠ st ∨ r.dies ≠ ds → replies (.powerStateRequest st ds w) 1) ∧
        (r.state = st → r.dies = ds →
          (r.deadline ≤ s.m.clk → exec (.powerStateRequest st ds w) s = .next (ended s.m s.sys.power 1)) ∧
          (s.m.clk < r.deadline → st = .idle → idle → s.m.diesOff = [] → s.sys.power ≠ .pkgSleep →
            exec (.powerStateRequest st ds w) s = .next (ended s.m .idle 0))))) ∧
    (∀ r, s.sys.powerReq = some r →
      (s.m.clk < r.deadline → exec .powerRequestTimeout s = .next s) ∧
      (r.deadline ≤ s.m.clk → exec .powerRequestTimeout s = .next (ended s.m s.sys.power 1))) ∧
    (s.sys.power = .run → exec .wakeToRun s = .next s) ∧
    (live → s.sys.power ≠ .run → wakes → exec .wakeToRun s = .next woken) ∧
    (∀ d entry arg o k, live → s.sys.power = .dieOff → s.sys.boot.minimal = false → s.m.services = true → s.m.lostDies = [(d, entry, arg)] →
      d < 4 → s.m.kernelAt 1 entry = some (o, k) → (∀ t ∈ s.m.teams, t.shepherd = true → dieOf t.core ≠ d) →
      (∀ l ∈ s.m.launches, l.shepherd ≠ some d) → exec .wakeToRun s = .next { woken with m := { woken.m with
        uid := s.m.uid + 1, lostDies := [], launches := s.m.launches ++ [shepherdLaunch s.m.uid d o k arg] } }) ∧
    (∀ w, live → s.sys.power ≠ .pkgSleep ∨ wakes →
      let s' : State := if s.sys.power = .pkgSleep then woken else s
      (1200 ≤ w → w ≤ 3200 → exec (.powerCapSet w) s = .next { s' with sys := { s'.sys with cap := w, answer := 0 } }) ∧
      (w < 1200 ∨ 3200 < w → exec (.powerCapSet w) s = .next { s' with sys := { s'.sys with answer := 2 } })) ∧
    (s.sys.power ≠ .pkgSleep ∨ wakes →
      let s' : State := if s.sys.power = .pkgSleep then woken else s
      exec .clearFails s = .next { s' with sys := { s'.sys with boot := { s.sys.boot with fails := 0 } } }) ∧
    (∀ b, exec (.thermalLimit b) s = .next { s with sys := { s.sys with withheld := b } }) ∧
    (∃ t, exec .coolantPowerRemoval s = .next t ∧ t.sys.removed = true ∧ t.sys.started = false ∧ t.m.teams = [] ∧ t.m.mem = [] ∧
      t.m.diesOff = [0, 1, 2, 3] ∧ t.sys.fuses = s.sys.fuses ∧ t.sys.security = .openState ∧ t.sys.boot = { s.sys.boot with minimal := false, fwsvn := 0, stage := 0 }) ∧
    (∀ r : StartReport, ∃ t, exec (.powerOn r) s = .next t ∧ t.sys.fuses = s.sys.fuses ∧ t.sys.debug = .none ∧
      t.sys.security = (if s.sys.fuses.sealBit then .sealed else .openState) ∧ t.m.teams = [] ∧ t.sys.started = false ∧
      let b := s.sys.boot
      let minimal : Bool := b.fails == 3 && !b.full
      let why := if r.formatOk = false then 3 else if r.svn < s.sys.fuses.fwsvnCount then 2
        else if ¬ (keyDigest r.key = s.sys.fuses.rootHash ∧ sigValid r.key r.image r.sig = true) then 1
        else if 4 ≤ r.check ∧ r.check ≤ 7 then r.check else 0
      let loader : Prop := minimal = true ∧ 1 ≤ b.reason ∧ b.reason ≤ 3
      t.sys.boot.minimal = minimal ∧
      (loader → t.sys.startClk = none ∧ t.sys.boot.reason = b.reason ∧ t.sys.boot.fails = b.fails ∧ t.sys.boot.stage = 1) ∧
      (¬ loader → why ≠ 0 → t.sys.startClk = none ∧ t.sys.boot.reason = why ∧ t.sys.boot.fails = min 3 (b.fails + 1) ∧ t.sys.boot.stage = (if why ≤ 3 then 1 else 3)) ∧
      (¬ loader → why = 0 → t.sys.startClk = some 0 ∧ t.m.clk = 0 ∧ t.sys.boot.fails = b.fails ∧ t.sys.image = r.image ∧
        t.sys.boot.fwsvn = r.svn % 256 ∧ t.sys.boot.stage = 5 ∧ t.m.module = (if r.modules ≤ 1 then 0 else r.module) ∧
        t.m.droveway = !minimal ∧ t.m.ports = (if minimal then List.replicate 4 .off else r.ports) ∧ t.m.diesOff = (if minimal then [1, 2, 3] else []) ∧
        ∃ a k, t.m.memTable = some a ∧
          let entry (j ty num base size : Nat) : Prop := leNat (t.m.mem.read (a + 32 * j) 4) = ty ∧
            leNat (t.m.mem.read (a + 32 * j + 4) 4) = num ∧ leNat (t.m.mem.read (a + 32 * j + 8) 8) = base ∧
            leNat (t.m.mem.read (a + 32 * j + 16) 8) = size
          (∀ n < (if minimal then 3 else 12), entry n 1 n (t.m.stackBase.getD n 0) (96 * 2 ^ 30)) ∧
          (∀ p c, p < 4 → t.m.ports.getD p .off = .cxl c → ∃ j < k, entry j 2 p (2 ^ 54 + p * 2 ^ 44) (min c (2 ^ 44)) ∧
            entry (j + 1) 3 p (shadowBase p c) (min c (2 ^ 44) / 64)) ∧ entry k 0 0 0 0)) ∧
    (s.sys.boot.reason < 256 → s.sys.boot.fails < 4 → s.sys.boot.fwsvn < 256 → s.sys.boot.stage < 256 →
      let v := s.sys.bootStatus.toNat
      v / 2 ^ 24 = s.sys.boot.reason ∧ v / 2 ^ 22 % 4 = s.sys.boot.fails ∧ v / 2 ^ 21 % 2 = s.sys.boot.minimal.toNat ∧
      v / 2 ^ 19 % 4 = (match s.sys.security with | .openState => 0 | .sealed => 1 | .attested => 2) ∧
      v / 2 ^ 8 % 256 = s.sys.boot.fwsvn ∧ v % 256 = s.sys.boot.stage) ∧
    (∀ c, s.sys.startClk = some c →
      (s.m.clk < c + 17500000000 → exec .startTimeout s = .next s) ∧
      (c + 17500000000 ≤ s.m.clk → ∃ t, (∀ i ∈ [Instr.startTimeout, .startComplete], exec i s = .next t) ∧
        t.sys.startClk = none ∧ t.sys.started = s.sys.started ∧ t.m.teams = [] ∧
        t.sys.boot = { s.sys.boot with reason := 8, fails := min 3 (s.sys.boot.fails + 1) }) ∧
      (s.m.clk < c + 17500000000 → exec .startComplete s = .next { s with sys := { s.sys with
        started := true, startClk := none, boot := { s.sys.boot with fails := 0 } } })) ∧
    exec .recoveryImageWrite s = .next (if s.sys.boot.minimal = true ∧ 1 ≤ s.sys.boot.reason ∧ s.sys.boot.reason ≤ 3 then
      { s with sys := { s.sys with boot := { s.sys.boot with full := true } } } else s)

/-! ### The machine as a whole -/

/-- 04 R77-R84, 24 R375: words written out from the spec's encodings decode to the instructions they stand for, one a family. -/
def Obligations.SpecWordsDecode : Prop :=
  decodeTableWord 32 0b0_000100_0000011_0000001_0000010_0000 = some (.iaddReg 3 1 2) ∧
  decodeTableWord 32 0b0_010000_0000100_0000101_0000110_0101 = some (.fdiv 4 5 6) ∧
  decodeTableWord 32 0b0_000001_10_011_1_1111111111111111101 = some (.br .un 3 true 0x7FFFD) ∧
  decodeTableWord 32 0b0_100000_0001000_0000010_11_0010_11111 = some (.ld 8 2 .nl .i64 31) ∧
  decodeTableWord 32 0b0_100100_0000111_0000010_0000011_0000 = some (.amo 7 2 3 .add) ∧
  decodeTableWord 32 0b0_101101_111111_000001_000000_000000_0 = some (.waitc 63 1 0 0) ∧
  decodeTableWord 32 0b0_110000_00011_0001000_0000100_0_00000 = some (.tmma 3 8 4 false none) ∧
  decodeTableWord 32 0b0_110100_0000010_0010000_0000000_0000 = some (.dcmd 2 16) ∧
  decodeTableWord 32 0b0_000000_0000001_0000000_0000000_0011 = some (.rte true) ∧
  decodeTableWord 32 0b0_111000_0000001_0000000_0000000_0010 = some (.invt .nonGlobal) ∧
  decodeTableWord 64 (0b0_111111_00000000000000_0011_0001001 * 2 ^ 32 + 0b1_101000_0000010_0000100_0000110_0011) =
    some (.xfma 2 4 6 .f32 9) ∧
  decodeTableWord 32 0b0_111111_0000000000000000000000000 = none ∧
  decodeTableWord 32 0b0_000100_0000011_0000001_0000010_0110 = none

/-- 04 R73-R76, 15 R235: a turn in which a sub-core issues runs the chain that its chosen bundle fetches, each decoded word in
its place; when the chain is one word, the step is exec of that instruction; a turn that is an event of the part is exec of the
event. That one sub-core's chain or one event is a step is the model's (log 2). -/
def Obligations.StepRunsDecoded : Prop :=
  ∀ (s : State) (rest : List Turn),
    (∀ (core sub : Nat) (c : Candidate) (tm : Team) (m : Mach) (ws : List Word), s.agenda = .issue core sub :: rest →
      s.powered core = true →
      let m1 := (s.m.beforeIssue core sub).atIssue core sub c
      (s.m.beforeIssue core sub).pick core sub = some c → m1.team? c.group.team = some tm →
      m1.fetchChain tm c.group.sub m1.cur.pc (3 - slotOf m1.cur.pc) = (m, .ok ws) →
      let u : State := { s with agenda := rest, m := m.withWords ws }
      (∀ ps len, decodeChain (slotOf m1.cur.pc) ws = .ok ps len →
        step s = .next (runChainIn (ps.map (semAt s.sys.debug)) len u)) ∧
      ∀ i : Instr, i.isEvent = false → decodeChain (slotOf m1.cur.pc) ws = .ok [{ instr := i, off := 0, size := i.size }] i.size →
        step s = exec i u) ∧
    ∀ i : Instr, i.isEvent = true → s.agenda = .ev i :: rest → step s = exec i { s with agenda := rest }

/-- 04 R77-R84: decoding the words of a well-formed instruction gives the instruction back, every operand with every value; and a
word, or a word with its extension, that decodes is the encoding of what it decodes to, which is well-formed. -/
def Obligations.RoundTrip : Prop :=
  (∀ i : Instr, i.wf = true → i.isEvent = false →
    decodeChain 0 (encode i) = .ok [{ instr := i, off := 0, size := i.size }] i.size) ∧
  (∀ (w : Word) (i : Instr), w.getLsbD 31 = false → decodeChain 0 [w] = .ok [{ instr := i, off := 0, size := 1 }] 1 →
    encode i = [w] ∧ i.wf = true) ∧
  ∀ (w x : Word) (i : Instr), x.getLsbD 31 = false → decodeChain 0 [w, x] = .ok [{ instr := i, off := 0, size := 2 }] 2 →
    encode i = [w, x] ∧ i.wf = true

/-- 20 R285, R286, R288: whatever a step does, no fuse is cleared, no combination of security and debug state that R288 marks
Refused arises, SEALED is never left for OPEN, nor ATTESTED for another state, but at a start or when the coolant or power goes,
which leaves nothing but the fuses and REASON and FAILS (the model's choice, log 47), and an instruction word changes nothing of
what the firmware and the management interface hold. That only the firmware's events touch this state is how the model is built
(log 2). -/
def Obligations.SecurityInvariant : Prop :=
  (∀ s t : State, step s = .next t → s.sys.fuses.within t.sys.fuses ∧
    (permits s.sys.security s.sys.debug = true → permits t.sys.security t.sys.debug = true)) ∧
  (∀ (s t : State) (i : Instr), exec i s = .next t → (∀ r, i ≠ .powerOn r) → i ≠ .coolantPowerRemoval →
    (s.sys.security = .sealed → t.sys.security ≠ .openState) ∧ (s.sys.security = .attested → t.sys.security = .attested)) ∧
  ∀ (s t : State) (i : Instr), i.isEvent = false → exec i s = .next t → t.sys = s.sys

/-- 20 R286, 05 R106, 07 R139, 01 R7: right after reset the fuses are intact and the module is OPEN, which R288 permits; memory
is in canonical form; every error counter, round counter and CLK are 0; no team runs. That SEAL is intact, memory empty and no
team present are the model's choice (logs 1, 13). -/
def Obligations.ResetState : Prop :=
  State.reset.sys.fuses.sealBit = false ∧ State.reset.sys.security = .openState ∧
  permits State.reset.sys.security State.reset.sys.debug = true ∧ State.reset.m.mem.wf = true ∧
  (∀ p, countersOf p State.reset.m.errors = (0, 0)) ∧ (∀ g, State.reset.m.round g = 0) ∧ State.reset.m.clk = 0 ∧
  State.reset.m.teams = [] ∧ State.reset.m.threads = []
end

