-- ==== Sys2Proof/Laws/Exec.lean ====
section
/-! SUPPORT. exec of an instruction word is its meaning run as a chain of its own; what a chain leaves of the state; what a turn of
the agenda does. -/

namespace Sys2Proof.Machine

/-- An instruction word runs as a chain of its own. -/
theorem exec_word (i : Instr) (s : State) (h : i.isEvent = false) : exec i s = runWord (semOf s.sys.debug i) s := by
  cases i <;> first | exact absurd (show true = false from h) (by decide) | rfl

/-- A decoded word alone in its chain is the word. -/
theorem semAt_first (d : DebugState) (i : Instr) (n : Nat) (h : i.isEvent = false) :
    semAt d { instr := i, off := 0, size := n } = semOf d i := by
  cases i <;> first | exact absurd (show true = false from h) (by decide) | rfl

theorem semOf_instr (d : DebugState) (i : Instr) : (semOf d i).instr = i := by cases i <;> rfl

/-- A chain changes nothing but what programs act on. -/
theorem runChainIn_rest (ws : List WordSem) (len : Nat) (s : State) :
    ∃ m, runChainIn ws len s = { s with m := m } := by
  unfold runChainIn
  split
  · exact ⟨_, rfl⟩
  · exact ⟨_, rfl⟩

theorem runWord_rest (w : WordSem) (s : State) : ∃ m, runWord w s = .next { s with m := m } := by
  obtain ⟨m, h⟩ := runChainIn_rest [w] w.instr.size s
  exact ⟨m, by rw [runWord, h]⟩

/-- An instruction word always completes, and leaves what the firmware and the management interface hold. -/
theorem exec_word_rest (i : Instr) (s : State) (h : i.isEvent = false) : ∃ m, exec i s = .next { s with m := m } := by
  rw [exec_word i s h]; exact runWord_rest _ s

theorem onMach_next (f : Mach → Mach) (s : State) : onMach f s = .next { s with m := f s.m } := rfl

/-- A turn that is an event of the part. -/
theorem step_event {s : State} {i : Instr} {rest : List Turn} (h : s.agenda = .ev i :: rest) (hi : i.isEvent = true) :
    step s = exec i { s with agenda := rest } := by
  simp [step, h, State.take, hi]

/-- A turn of a sub-core. -/
theorem step_issue {s : State} {core sub : Nat} {rest : List Turn} (h : s.agenda = .issue core sub :: rest) :
    step s = .next (({ s with agenda := rest } : State).issueTurn core sub) := by
  simp [step, h, State.take]

/-- A turn of time. -/
theorem step_advance {s : State} {n : Nat} {rest : List Turn} (h : s.agenda = .advance n :: rest) :
    step s = .next (({ s with agenda := rest } : State).elapse n) := by
  simp [step, h, State.take]

end Sys2Proof.Machine
end

