-- ==== Sys2Proof/Laws/Memory.lean ====
section
/-! SUPPORT. Memory: a byte read after a write, and the canonical form kept by every write (log 1). -/

namespace Sys2Proof.Machine

/-! ### The canonical form -/

theorem Memory.wfFrom_mono {m : Memory} {lo hi : Nat} (h : lo ≤ hi) (hm : Memory.wfFrom hi m = true) :
    Memory.wfFrom lo m = true := by
  cases m with
  | nil => rfl
  | cons c rest =>
    obtain ⟨k, v⟩ := c
    simp only [Memory.wfFrom, Bool.and_eq_true, decide_eq_true_eq] at hm ⊢
    exact ⟨⟨le_trans h hm.1.1, hm.1.2⟩, hm.2⟩

theorem Memory.set_wfFrom {m : Memory} {lo a : Nat} (b : Byte) (h : lo ≤ a) (hm : Memory.wfFrom lo m = true) :
    Memory.wfFrom lo (m.set a b) = true := by
  induction m generalizing lo with
  | nil =>
    unfold Memory.set
    split <;> simp_all [Memory.wfFrom]
  | cons c rest ih =>
    obtain ⟨k, v⟩ := c
    simp only [Memory.wfFrom, Bool.and_eq_true, decide_eq_true_eq] at hm
    obtain ⟨⟨hk, hv⟩, hr⟩ := hm
    unfold Memory.set
    split
    · rename_i hlt
      split
      · simp [Memory.wfFrom, hk, hr, hv]
      · simp_all [Memory.wfFrom]
    · split
      · rename_i heq
        split
        · exact Memory.wfFrom_mono (by omega) hr
        · simp_all [Memory.wfFrom]
      · simp only [Memory.wfFrom, Bool.and_eq_true, decide_eq_true_eq]
        exact ⟨⟨hk, hv⟩, ih (by omega) hr⟩

/-- Writing a byte keeps the canonical form. -/
theorem Memory.set_wf {m : Memory} (a : Nat) (b : Byte) (h : m.wf = true) : (m.set a b).wf = true :=
  Memory.set_wfFrom b (Nat.zero_le a) h

/-- Writing bytes keeps the canonical form. -/
theorem Memory.write_wf {m : Memory} (a : Nat) (bs : List Byte) (h : m.wf = true) : (m.write a bs).wf = true := by
  induction bs generalizing m a with
  | nil => exact h
  | cons b bs ih => exact ih (a + 1) (Memory.set_wf a b h)

/-- Writing bytes one by one keeps the canonical form. -/
theorem Memory.sets_wf {α : Type} (f : α → Nat) (g : α → Byte) (xs : List α) {m : Memory} (h : m.wf = true) :
    (xs.foldl (fun mm x => mm.set (f x) (g x)) m).wf = true := by
  induction xs generalizing m with
  | nil => exact h
  | cons x xs ih => exact ih (Memory.set_wf _ _ h)

/-- Folding a partial into memory keeps the canonical form. -/
theorem foldPartial_wf (line : Nat) (p : Partial) {m : Memory} (h : m.wf = true) : (foldPartial line m p).wf = true := by
  unfold foldPartial
  generalize p.elems = es
  induction es generalizing m with
  | nil => exact h
  | cons e es ih => exact ih (Memory.write_wf _ _ h)

theorem foldPartials_wf (line : Nat) (ps : List Partial) {m : Memory} (h : m.wf = true) :
    (ps.foldl (foldPartial line) m).wf = true := by
  induction ps generalizing m with
  | nil => exact h
  | cons p ps ih => exact ih (foldPartial_wf line p h)

/-- At reset memory has the canonical form. -/
theorem reset_wf : State.reset.m.mem.wf = true := rfl

/-! ### A byte read after a write -/

theorem Memory.get_below {m : Memory} {lo a : Nat} (h : a < lo) (hm : Memory.wfFrom lo m = true) : m.get a = unlisted := by
  cases m with
  | nil => rfl
  | cons c rest =>
    obtain ⟨k, v⟩ := c
    simp only [Memory.wfFrom, Bool.and_eq_true, decide_eq_true_eq] at hm
    have h1 : ¬ a = k := by omega
    have h2 : a < k := by omega
    simp [Memory.get, h1, h2]

theorem Memory.get_set_from {m : Memory} {lo : Nat} (a x : Nat) (b : Byte) (hm : Memory.wfFrom lo m = true) :
    (m.set a b).get x = if x = a then b else m.get x := by
  induction m generalizing lo with
  | nil =>
    unfold Memory.set
    by_cases hb : b = unlisted <;> by_cases hx : x = a <;> simp [hb, hx, Memory.get]
  | cons c rest ih =>
    obtain ⟨k, v⟩ := c
    simp only [Memory.wfFrom, Bool.and_eq_true, decide_eq_true_eq] at hm
    obtain ⟨⟨hk, hv⟩, hr⟩ := hm
    unfold Memory.set
    by_cases h1 : a < k
    · by_cases hb : b = unlisted
      · by_cases hx : x = a
        · subst hx
          have h2 : ¬ x = k := by omega
          simp [h1, hb, Memory.get, h2]
        · simp [h1, hb, hx]
      · by_cases hx : x = a
        · simp [h1, hb, hx, Memory.get]
        · by_cases hxa : x < a
          · have h2 : ¬ x = k := by omega
            have h3 : x < k := by omega
            simp [h1, hb, hx, hxa, Memory.get, h2, h3]
          · simp [h1, hb, hx, hxa, Memory.get]
    · by_cases h2 : a = k
      · subst h2
        by_cases hb : b = unlisted
        · by_cases hx : x = a
          · subst hx
            simp [hb, Memory.get_below (Nat.lt_succ_self x) hr]
          · by_cases hxa : x < a
            · simp [hb, hx, Memory.get, hxa, Memory.get_below (show x < a + 1 by omega) hr]
            · simp [hb, hx, Memory.get, hxa]
        · by_cases hx : x = a
          · simp [hb, hx, Memory.get]
          · simp [hb, hx, Memory.get]
      · simp only [h1, h2, if_false, Memory.get]
        by_cases hxk : x = k
        · have h3 : ¬ x = a := by omega
          subst hxk
          simp [h3]
        · by_cases hlt : x < k
          · have h3 : ¬ x = a := by omega
            simp [hxk, hlt, h3]
          · simp only [hxk, hlt, if_false]
            exact ih hr

/-- A byte reads as the last write to its address left it. -/
theorem Memory.get_set {m : Memory} (a x : Nat) (b : Byte) (h : m.wf = true) :
    (m.set a b).get x = if x = a then b else m.get x := Memory.get_set_from a x b h

/-- A byte outside those written reads as before; one of them reads as written. -/
theorem Memory.get_write {m : Memory} (a x : Nat) (bs : List Byte) (h : m.wf = true) :
    (m.write a bs).get x = if a ≤ x ∧ x < a + bs.length then bs.getD (x - a) 0 else m.get x := by
  induction bs generalizing m a with
  | nil =>
    have h1 : ¬ (a ≤ x ∧ x < a) := by omega
    simp [Memory.write, h1]
  | cons b bs ih =>
    rw [Memory.write, ih (a + 1) (Memory.set_wf a b h), Memory.get_set a x b h]
    by_cases hx : x = a
    · subst hx
      simp
    · by_cases h2 : a ≤ x ∧ x < a + (bs.length + 1)
      · have h3 : a + 1 ≤ x ∧ x < a + 1 + bs.length := by omega
        have h4 : x - a = (x - (a + 1)) + 1 := by omega
        simp [h2, h3, h4]
      · have h3 : ¬ (a + 1 ≤ x ∧ x < a + 1 + bs.length) := by omega
        rw [if_neg h3, if_neg hx, if_neg (by simpa using h2)]

/-- A read is its bytes one by one. -/
theorem Memory.read_getElem? {m : Memory} (a n i : Nat) : (m.read a n)[i]? = if i < n then some (m.get (a + i)) else none := by
  induction n generalizing a i with
  | zero => simp [Memory.read]
  | succ n ih =>
    cases i with
    | zero => simp [Memory.read]
    | succ i => simp [Memory.read, ih, Nat.add_comm, Nat.add_left_comm]

theorem Memory.read_length {m : Memory} (a n : Nat) : (m.read a n).length = n := by
  induction n generalizing a with
  | zero => rfl
  | succ n ih => simp [Memory.read, ih]

/-- Reading the bytes just written gives them back. -/
theorem Memory.read_write {m : Memory} (a : Nat) (bs : List Byte) (h : m.wf = true) : (m.write a bs).read a bs.length = bs := by
  refine List.ext_getElem? fun i => ?_
  rw [Memory.read_getElem?, Memory.get_write _ _ _ h]
  by_cases hi : i < bs.length
  · simp [hi]
  · simp [hi]

end Sys2Proof.Machine
end

