-- ==== Sys2Proof/Laws/Homes.lean ====
section
/-! SUPPORT. What the operations at a line's home do where the line stands there: nothing is recalled or combined, a read gives what
memory holds, a write stores its bytes; and that they keep memory's canonical form whatever stands there. -/

namespace Sys2Proof.Machine

theorem lineOf_lineOf (pa : Nat) : lineOf (lineOf pa) = lineOf pa := by simp [lineOf]

theorem Mach.ownerOf?_home {m : Mach} {line : Nat} (h : stateOf (m.meta line) ≤ 1) : m.ownerOf? line = none := by
  have h2 : ¬ stateOf (m.meta line) = 2 := by omega
  have h3 : ¬ stateOf (m.meta line) = 3 := by omega
  have h4 : ¬ stateOf (m.meta line) = 4 := by omega
  simp [Mach.ownerOf?, h2, h3, h4]

theorem Mach.recall_home {m : Mach} {line : Nat} (h : stateOf (m.meta line) ≤ 1) : m.recall line = m := by
  simp only [Mach.recall, Mach.ownerOf?_home h]

theorem Mach.combine_home {m : Mach} {line : Nat} (h : stateOf (m.meta line) ≤ 1) : m.combine line = m := by
  have h5 : (stateOf (m.meta line) == 5) = false := by simp; omega
  simp [Mach.combine, h5]

/-- A line at its home needs no preparation. -/
theorem Mach.cohPrep_home {m : Mach} {pa : Nat} (h : m.atHome pa) : m.cohPrep (lineOf pa) = m := by
  rw [Mach.cohPrep, Mach.recall_home h.1, Mach.combine_home h.1]

theorem Mach.poisoned_home {m : Mach} {pa : Nat} (h : m.atHome pa) : m.poisoned pa = false := by
  have := h.1
  simp only [Mach.poisoned, decide_eq_false_iff_not]
  omega

/-- Bytes of a line that is no part of a shadow table are what memory holds. -/
theorem Mach.homeRead_home {m : Mach} {pa : Nat} (n : Nat) (h : m.atHome pa) (hn : pa + n ≤ lineOf pa + 128) :
    m.homeRead pa n = m.mem.read pa n := by
  have hl : lineOf pa ≤ pa := by simp only [lineOf]; omega
  have hs : m.shadowed pa n = false := by
    have := h.2
    simp only [Mach.shadowed, List.any_eq_false] at this ⊢
    intro p hp
    have := this p hp
    split at this
    · simp_all; omega
    · simp
  simp [Mach.homeRead, hs]

/-- A read of a line at its home. -/
theorem Mach.cohRead_home {m : Mach} {pa : Nat} (n : Nat) (h : m.atHome pa) (hn : pa + n ≤ lineOf pa + 128) :
    m.cohRead pa n = (m, some (m.mem.read pa n)) := by
  rw [Mach.cohRead, Mach.cohPrep_home h]
  simp [Mach.poisoned_home h, Mach.homeRead_home n h hn]

/-- A write of a line at its home changes memory, and records the wakes of lanes that watch it. -/
theorem Mach.cohWrite1_home {m : Mach} {pa : Nat} (bs : List Byte) (h : m.atHome pa) :
    m.cohWrite1 pa bs = ({ m with mem := m.mem.write pa bs } : Mach).noteLine pa bs.length := by
  simp only [Mach.cohWrite1, Mach.cohPrep_home h]

/-- Recording wakes changes only what threads wait for and what the records of dependence stamps have caught. -/
theorem Mach.noteLine_rest (m : Mach) (pa n : Nat) :
    m.noteLine pa n = { m with threads := (m.noteLine pa n).threads, launches := (m.noteLine pa n).launches } := rfl

theorem Mach.cohWrite1_stored {m : Mach} {pa : Nat} (bs : List Byte) (h : m.atHome pa) (hw : m.mem.wf = true) :
    m.mem.Stored (m.cohWrite1 pa bs).mem pa bs := by
  rw [Mach.cohWrite1_home bs h]
  intro x
  rw [Mach.noteLine_rest]
  exact Memory.get_write pa x bs hw

/-! ### The canonical form -/

theorem Mach.noteLine_mem (m : Mach) (pa n : Nat) : (m.noteLine pa n).mem = m.mem := rfl

theorem foldl_mem {α : Type} (f : Mach → α → Mach) (hf : ∀ m a, (f m a).mem = m.mem) (xs : List α) (m : Mach) :
    (xs.foldl f m).mem = m.mem := by
  induction xs generalizing m with
  | nil => rfl
  | cons x xs ih => rw [List.foldl_cons, ih, hf]

theorem foldl_mem_wf {α : Type} (f : Mach → α → Mach) (hf : ∀ m a, m.mem.wf = true → (f m a).mem.wf = true) (xs : List α)
    {m : Mach} (h : m.mem.wf = true) : (xs.foldl f m).mem.wf = true := by
  induction xs generalizing m with
  | nil => exact h
  | cons x xs ih => exact ih (hf m x h)

theorem Mach.leaveTrail_mem (m : Mach) (bs : List (Nat × Nat × Nat × Nat)) : (m.leaveTrail bs).mem = m.mem := by
  unfold Mach.leaveTrail; split <;> rfl

theorem Mach.dropOwned_mem (m : Mach) (p : VByte → Bool) : (m.dropOwned p).mem = m.mem := rfl

theorem Mach.setMeta_mem (m : Mach) (line : Nat) (v : BitVec 16) : (m.setMeta line v).mem = m.mem := rfl

theorem Mach.recallCore_wf {m : Mach} (line own : Nat) (h : m.mem.wf = true) : (m.recallCore line own).mem.wf = true :=
  Memory.sets_wf (fun b : Nat × Byte => b.1) (fun b => b.2) _ (by rw [Mach.dropOwned_mem, Mach.leaveTrail_mem]; exact h)

theorem Mach.recallAgent_wf {m : Mach} (line own : Nat) (h : m.mem.wf = true) : (m.recallAgent line own).mem.wf = true := by
  unfold Mach.recallAgent
  split
  · exact Memory.write_wf _ _ h
  · exact h

theorem Mach.recall_wf {m : Mach} (line : Nat) (h : m.mem.wf = true) : (m.recall line).mem.wf = true := by
  unfold Mach.recall
  split
  · exact h
  · rw [Mach.noteLine_mem, Mach.setMeta_mem]
    dsimp only
    split
    · exact Mach.recallCore_wf _ _ h
    · exact Mach.recallAgent_wf _ _ h

theorem Mach.combine_wf {m : Mach} (line : Nat) (h : m.mem.wf = true) : (m.combine line).mem.wf = true := by
  unfold Mach.combine
  dsimp only
  split
  · rw [Mach.noteLine_mem, Mach.setMeta_mem]
    exact foldPartials_wf line _ (by rw [Mach.leaveTrail_mem]; exact h)
  · exact h

theorem Mach.cohPrep_wf {m : Mach} (line : Nat) (h : m.mem.wf = true) : (m.cohPrep line).mem.wf = true :=
  Mach.combine_wf line (Mach.recall_wf line h)

theorem Mach.cohWrite1_wf {m : Mach} (pa : Nat) (bs : List Byte) (h : m.mem.wf = true) : (m.cohWrite1 pa bs).mem.wf = true := by
  unfold Mach.cohWrite1
  rw [Mach.noteLine_mem]
  exact Memory.write_wf pa bs (Mach.cohPrep_wf _ h)

theorem Mach.payloadWrite_wf {m : Mach} (pa : Nat) (bs : List Byte) (h : m.mem.wf = true) : (m.payloadWrite pa bs).mem.wf = true := by
  unfold Mach.payloadWrite
  split
  · exact Mach.cohWrite1_wf (m := m.setMeta (lineOf pa) 0) pa bs h
  · exact Mach.cohWrite1_wf pa bs h

theorem Mach.cohWrite_wf {m : Mach} (pa : Nat) (bs : List Byte) (h : m.mem.wf = true) : (m.cohWrite pa bs).mem.wf = true :=
  foldl_mem_wf (fun (m : Mach) (p : Nat × List Byte) => m.cohWrite1 p.1 p.2) (fun _ p hm => Mach.cohWrite1_wf p.1 p.2 hm) _ h

theorem Mach.countRounds_mem (m : Mach) (gs : List Nat) : (m.countRounds gs).mem = m.mem :=
  foldl_mem (fun (m : Mach) (g : Nat) => { m with rounds := setAssoc g (m.round g + 1) m.rounds }) (fun _ _ => rfl) _ m

theorem Mach.scratchWrite_mem (m : Mach) (team off : Nat) (bs : List Byte) : (m.scratchWrite team off bs).mem = m.mem := by
  unfold Mach.scratchWrite Mach.scratchPut
  dsimp only
  split <;> rfl

theorem Mach.homeLine_wf {m : Mach} (line : Nat) (bs : List VByte) (h : m.mem.wf = true) : (m.homeLine line bs).mem.wf = true := by
  unfold Mach.homeLine
  dsimp only
  rw [foldl_mem (fun (m : Mach) (c : Nat) => m.copyBytes c line (newestOn line (bs.filter fun b => b.core == c))) fun _ _ => rfl]
  split
  · rw [foldl_mem (fun (m : Mach) (r : Nat × List Byte) => m.scratchWrite (foldTeamOf r.1) (foldOff r.1) r.2) fun m r =>
      Mach.scratchWrite_mem m _ _ _]
    exact h
  · rw [Mach.noteLine_mem]
    refine Memory.sets_wf (fun p : Nat × Byte => p.1) (fun p => p.2) _ ?_
    split
    · exact h
    · exact Mach.cohPrep_wf _ h

theorem Mach.publish_wf {m : Mach} (bs : List VByte) (h : m.mem.wf = true) : (m.publish bs).mem.wf = true := by
  unfold Mach.publish
  rw [Mach.countRounds_mem]
  refine foldl_mem_wf (fun (m : Mach) l => m.publishLine l bs) (fun m l hm => ?_) _ h
  exact Mach.homeLine_wf _ _ (by rw [Mach.leaveTrail_mem]; exact hm)

end Sys2Proof.Machine
end

