-- ==== Sys2Proof/Laws/State.lean ====
section
/-! SUPPORT. What each update of the state leaves alone: one law for each field. -/

namespace Sys2Proof.Machine

@[simp] theorem Mach.updThread_clk (m : Mach) (t : TRef) (f : Thread → Thread) : (m.updThread t f).clk = m.clk := rfl
@[simp] theorem Mach.updThread_uid (m : Mach) (t : TRef) (f : Thread → Thread) : (m.updThread t f).uid = m.uid := rfl
@[simp] theorem Mach.updThread_free (m : Mach) (t : TRef) (f : Thread → Thread) : (m.updThread t f).free = m.free := rfl
@[simp] theorem Mach.updThread_cur (m : Mach) (t : TRef) (f : Thread → Thread) : (m.updThread t f).cur = m.cur := rfl
@[simp] theorem Mach.updThread_groups (m : Mach) (t : TRef) (f : Thread → Thread) : (m.updThread t f).groups = m.groups := rfl
@[simp] theorem Mach.updThread_teams (m : Mach) (t : TRef) (f : Thread → Thread) : (m.updThread t f).teams = m.teams := rfl
@[simp] theorem Mach.updThread_mem (m : Mach) (t : TRef) (f : Thread → Thread) : (m.updThread t f).mem = m.mem := rfl
@[simp] theorem Mach.updThread_linemeta (m : Mach) (t : TRef) (f : Thread → Thread) : (m.updThread t f).linemeta = m.linemeta := rfl
@[simp] theorem Mach.updThread_versions (m : Mach) (t : TRef) (f : Thread → Thread) : (m.updThread t f).versions = m.versions := rfl
@[simp] theorem Mach.updThread_l1 (m : Mach) (t : TRef) (f : Thread → Thread) : (m.updThread t f).l1 = m.l1 := rfl
@[simp] theorem Mach.updThread_partials (m : Mach) (t : TRef) (f : Thread → Thread) : (m.updThread t f).partials = m.partials := rfl
@[simp] theorem Mach.updThread_fetches (m : Mach) (t : TRef) (f : Thread → Thread) : (m.updThread t f).fetches = m.fetches := rfl
@[simp] theorem Mach.updThread_hints (m : Mach) (t : TRef) (f : Thread → Thread) : (m.updThread t f).hints = m.hints := rfl
@[simp] theorem Mach.updThread_trail (m : Mach) (t : TRef) (f : Thread → Thread) : (m.updThread t f).trail = m.trail := rfl
@[simp] theorem Mach.updThread_rounds (m : Mach) (t : TRef) (f : Thread → Thread) : (m.updThread t f).rounds = m.rounds := rfl
@[simp] theorem Mach.updThread_mirrors (m : Mach) (t : TRef) (f : Thread → Thread) : (m.updThread t f).mirrors = m.mirrors := rfl
@[simp] theorem Mach.updThread_areas (m : Mach) (t : TRef) (f : Thread → Thread) : (m.updThread t f).areas = m.areas := rfl
@[simp] theorem Mach.updThread_discarded (m : Mach) (t : TRef) (f : Thread → Thread) : (m.updThread t f).discarded = m.discarded := rfl
@[simp] theorem Mach.updThread_errors (m : Mach) (t : TRef) (f : Thread → Thread) : (m.updThread t f).errors = m.errors := rfl
@[simp] theorem Mach.updThread_tlb (m : Mach) (t : TRef) (f : Thread → Thread) : (m.updThread t f).tlb = m.tlb := rfl
@[simp] theorem Mach.updThread_walkCache (m : Mach) (t : TRef) (f : Thread → Thread) : (m.updThread t f).walkCache = m.walkCache := rfl
@[simp] theorem Mach.updThread_walks (m : Mach) (t : TRef) (f : Thread → Thread) : (m.updThread t f).walks = m.walks := rfl
@[simp] theorem Mach.updThread_cmds (m : Mach) (t : TRef) (f : Thread → Thread) : (m.updThread t f).cmds = m.cmds := rfl
@[simp] theorem Mach.updThread_tileq (m : Mach) (t : TRef) (f : Thread → Thread) : (m.updThread t f).tileq = m.tileq := rfl
@[simp] theorem Mach.updThread_droverTurn (m : Mach) (t : TRef) (f : Thread → Thread) : (m.updThread t f).droverTurn = m.droverTurn := rfl
@[simp] theorem Mach.updThread_ctxs (m : Mach) (t : TRef) (f : Thread → Thread) : (m.updThread t f).ctxs = m.ctxs := rfl
@[simp] theorem Mach.updThread_launches (m : Mach) (t : TRef) (f : Thread → Thread) : (m.updThread t f).launches = m.launches := rfl
@[simp] theorem Mach.updThread_lastSlot (m : Mach) (t : TRef) (f : Thread → Thread) : (m.updThread t f).lastSlot = m.lastSlot := rfl
@[simp] theorem Mach.updThread_services (m : Mach) (t : TRef) (f : Thread → Thread) : (m.updThread t f).services = m.services := rfl
@[simp] theorem Mach.updThread_svcoff (m : Mach) (t : TRef) (f : Thread → Thread) : (m.updThread t f).svcoff = m.svcoff := rfl
@[simp] theorem Mach.updThread_lostDies (m : Mach) (t : TRef) (f : Thread → Thread) : (m.updThread t f).lostDies = m.lostDies := rfl
@[simp] theorem Mach.updThread_batches (m : Mach) (t : TRef) (f : Thread → Thread) : (m.updThread t f).batches = m.batches := rfl
@[simp] theorem Mach.updThread_mailSeq (m : Mach) (t : TRef) (f : Thread → Thread) : (m.updThread t f).mailSeq = m.mailSeq := rfl
@[simp] theorem Mach.updThread_msix (m : Mach) (t : TRef) (f : Thread → Thread) : (m.updThread t f).msix = m.msix := rfl
@[simp] theorem Mach.updThread_objects (m : Mach) (t : TRef) (f : Thread → Thread) : (m.updThread t f).objects = m.objects := rfl
@[simp] theorem Mach.updThread_module (m : Mach) (t : TRef) (f : Thread → Thread) : (m.updThread t f).module = m.module := rfl
@[simp] theorem Mach.updThread_modules (m : Mach) (t : TRef) (f : Thread → Thread) : (m.updThread t f).modules = m.modules := rfl
@[simp] theorem Mach.updThread_droveway (m : Mach) (t : TRef) (f : Thread → Thread) : (m.updThread t f).droveway = m.droveway := rfl
@[simp] theorem Mach.updThread_ports (m : Mach) (t : TRef) (f : Thread → Thread) : (m.updThread t f).ports = m.ports := rfl
@[simp] theorem Mach.updThread_timeBase (m : Mach) (t : TRef) (f : Thread → Thread) : (m.updThread t f).timeBase = m.timeBase := rfl
@[simp] theorem Mach.updThread_wallBase (m : Mach) (t : TRef) (f : Thread → Thread) : (m.updThread t f).wallBase = m.wallBase := rfl
@[simp] theorem Mach.updThread_k2 (m : Mach) (t : TRef) (f : Thread → Thread) : (m.updThread t f).k2 = m.k2 := rfl
@[simp] theorem Mach.updThread_stackBase (m : Mach) (t : TRef) (f : Thread → Thread) : (m.updThread t f).stackBase = m.stackBase := rfl
@[simp] theorem Mach.updThread_mailBase (m : Mach) (t : TRef) (f : Thread → Thread) : (m.updThread t f).mailBase = m.mailBase := rfl
@[simp] theorem Mach.updThread_memTable (m : Mach) (t : TRef) (f : Thread → Thread) : (m.updThread t f).memTable = m.memTable := rfl
@[simp] theorem Mach.updThread_machineChecks (m : Mach) (t : TRef) (f : Thread → Thread) : (m.updThread t f).machineChecks = m.machineChecks := rfl
@[simp] theorem Mach.updThread_fwBase (m : Mach) (t : TRef) (f : Thread → Thread) : (m.updThread t f).fwBase = m.fwBase := rfl
@[simp] theorem Mach.updThread_trace (m : Mach) (t : TRef) (f : Thread → Thread) : (m.updThread t f).trace = m.trace := rfl
@[simp] theorem Mach.updThread_diesOff (m : Mach) (t : TRef) (f : Thread → Thread) : (m.updThread t f).diesOff = m.diesOff := rfl
@[simp] theorem Mach.updThread_noPlace (m : Mach) (t : TRef) (f : Thread → Thread) : (m.updThread t f).noPlace = m.noPlace := rfl
@[simp] theorem Mach.updThread_noAccept (m : Mach) (t : TRef) (f : Thread → Thread) : (m.updThread t f).noAccept = m.noAccept := rfl
@[simp] theorem Mach.updThread_heldCores (m : Mach) (t : TRef) (f : Thread → Thread) : (m.updThread t f).heldCores = m.heldCores := rfl
@[simp] theorem Mach.updTeam_clk (m : Mach) (u : Nat) (f : Team → Team) : (m.updTeam u f).clk = m.clk := rfl
@[simp] theorem Mach.updTeam_uid (m : Mach) (u : Nat) (f : Team → Team) : (m.updTeam u f).uid = m.uid := rfl
@[simp] theorem Mach.updTeam_free (m : Mach) (u : Nat) (f : Team → Team) : (m.updTeam u f).free = m.free := rfl
@[simp] theorem Mach.updTeam_cur (m : Mach) (u : Nat) (f : Team → Team) : (m.updTeam u f).cur = m.cur := rfl
@[simp] theorem Mach.updTeam_threads (m : Mach) (u : Nat) (f : Team → Team) : (m.updTeam u f).threads = m.threads := rfl
@[simp] theorem Mach.updTeam_groups (m : Mach) (u : Nat) (f : Team → Team) : (m.updTeam u f).groups = m.groups := rfl
@[simp] theorem Mach.updTeam_mem (m : Mach) (u : Nat) (f : Team → Team) : (m.updTeam u f).mem = m.mem := rfl
@[simp] theorem Mach.updTeam_linemeta (m : Mach) (u : Nat) (f : Team → Team) : (m.updTeam u f).linemeta = m.linemeta := rfl
@[simp] theorem Mach.updTeam_versions (m : Mach) (u : Nat) (f : Team → Team) : (m.updTeam u f).versions = m.versions := rfl
@[simp] theorem Mach.updTeam_l1 (m : Mach) (u : Nat) (f : Team → Team) : (m.updTeam u f).l1 = m.l1 := rfl
@[simp] theorem Mach.updTeam_partials (m : Mach) (u : Nat) (f : Team → Team) : (m.updTeam u f).partials = m.partials := rfl
@[simp] theorem Mach.updTeam_fetches (m : Mach) (u : Nat) (f : Team → Team) : (m.updTeam u f).fetches = m.fetches := rfl
@[simp] theorem Mach.updTeam_hints (m : Mach) (u : Nat) (f : Team → Team) : (m.updTeam u f).hints = m.hints := rfl
@[simp] theorem Mach.updTeam_trail (m : Mach) (u : Nat) (f : Team → Team) : (m.updTeam u f).trail = m.trail := rfl
@[simp] theorem Mach.updTeam_rounds (m : Mach) (u : Nat) (f : Team → Team) : (m.updTeam u f).rounds = m.rounds := rfl
@[simp] theorem Mach.updTeam_mirrors (m : Mach) (u : Nat) (f : Team → Team) : (m.updTeam u f).mirrors = m.mirrors := rfl
@[simp] theorem Mach.updTeam_areas (m : Mach) (u : Nat) (f : Team → Team) : (m.updTeam u f).areas = m.areas := rfl
@[simp] theorem Mach.updTeam_discarded (m : Mach) (u : Nat) (f : Team → Team) : (m.updTeam u f).discarded = m.discarded := rfl
@[simp] theorem Mach.updTeam_errors (m : Mach) (u : Nat) (f : Team → Team) : (m.updTeam u f).errors = m.errors := rfl
@[simp] theorem Mach.updTeam_tlb (m : Mach) (u : Nat) (f : Team → Team) : (m.updTeam u f).tlb = m.tlb := rfl
@[simp] theorem Mach.updTeam_walkCache (m : Mach) (u : Nat) (f : Team → Team) : (m.updTeam u f).walkCache = m.walkCache := rfl
@[simp] theorem Mach.updTeam_walks (m : Mach) (u : Nat) (f : Team → Team) : (m.updTeam u f).walks = m.walks := rfl
@[simp] theorem Mach.updTeam_cmds (m : Mach) (u : Nat) (f : Team → Team) : (m.updTeam u f).cmds = m.cmds := rfl
@[simp] theorem Mach.updTeam_tileq (m : Mach) (u : Nat) (f : Team → Team) : (m.updTeam u f).tileq = m.tileq := rfl
@[simp] theorem Mach.updTeam_droverTurn (m : Mach) (u : Nat) (f : Team → Team) : (m.updTeam u f).droverTurn = m.droverTurn := rfl
@[simp] theorem Mach.updTeam_ctxs (m : Mach) (u : Nat) (f : Team → Team) : (m.updTeam u f).ctxs = m.ctxs := rfl
@[simp] theorem Mach.updTeam_launches (m : Mach) (u : Nat) (f : Team → Team) : (m.updTeam u f).launches = m.launches := rfl
@[simp] theorem Mach.updTeam_lastSlot (m : Mach) (u : Nat) (f : Team → Team) : (m.updTeam u f).lastSlot = m.lastSlot := rfl
@[simp] theorem Mach.updTeam_services (m : Mach) (u : Nat) (f : Team → Team) : (m.updTeam u f).services = m.services := rfl
@[simp] theorem Mach.updTeam_svcoff (m : Mach) (u : Nat) (f : Team → Team) : (m.updTeam u f).svcoff = m.svcoff := rfl
@[simp] theorem Mach.updTeam_lostDies (m : Mach) (u : Nat) (f : Team → Team) : (m.updTeam u f).lostDies = m.lostDies := rfl
@[simp] theorem Mach.updTeam_batches (m : Mach) (u : Nat) (f : Team → Team) : (m.updTeam u f).batches = m.batches := rfl
@[simp] theorem Mach.updTeam_mailSeq (m : Mach) (u : Nat) (f : Team → Team) : (m.updTeam u f).mailSeq = m.mailSeq := rfl
@[simp] theorem Mach.updTeam_msix (m : Mach) (u : Nat) (f : Team → Team) : (m.updTeam u f).msix = m.msix := rfl
@[simp] theorem Mach.updTeam_objects (m : Mach) (u : Nat) (f : Team → Team) : (m.updTeam u f).objects = m.objects := rfl
@[simp] theorem Mach.updTeam_module (m : Mach) (u : Nat) (f : Team → Team) : (m.updTeam u f).module = m.module := rfl
@[simp] theorem Mach.updTeam_modules (m : Mach) (u : Nat) (f : Team → Team) : (m.updTeam u f).modules = m.modules := rfl
@[simp] theorem Mach.updTeam_droveway (m : Mach) (u : Nat) (f : Team → Team) : (m.updTeam u f).droveway = m.droveway := rfl
@[simp] theorem Mach.updTeam_ports (m : Mach) (u : Nat) (f : Team → Team) : (m.updTeam u f).ports = m.ports := rfl
@[simp] theorem Mach.updTeam_timeBase (m : Mach) (u : Nat) (f : Team → Team) : (m.updTeam u f).timeBase = m.timeBase := rfl
@[simp] theorem Mach.updTeam_wallBase (m : Mach) (u : Nat) (f : Team → Team) : (m.updTeam u f).wallBase = m.wallBase := rfl
@[simp] theorem Mach.updTeam_k2 (m : Mach) (u : Nat) (f : Team → Team) : (m.updTeam u f).k2 = m.k2 := rfl
@[simp] theorem Mach.updTeam_stackBase (m : Mach) (u : Nat) (f : Team → Team) : (m.updTeam u f).stackBase = m.stackBase := rfl
@[simp] theorem Mach.updTeam_mailBase (m : Mach) (u : Nat) (f : Team → Team) : (m.updTeam u f).mailBase = m.mailBase := rfl
@[simp] theorem Mach.updTeam_memTable (m : Mach) (u : Nat) (f : Team → Team) : (m.updTeam u f).memTable = m.memTable := rfl
@[simp] theorem Mach.updTeam_machineChecks (m : Mach) (u : Nat) (f : Team → Team) : (m.updTeam u f).machineChecks = m.machineChecks := rfl
@[simp] theorem Mach.updTeam_fwBase (m : Mach) (u : Nat) (f : Team → Team) : (m.updTeam u f).fwBase = m.fwBase := rfl
@[simp] theorem Mach.updTeam_trace (m : Mach) (u : Nat) (f : Team → Team) : (m.updTeam u f).trace = m.trace := rfl
@[simp] theorem Mach.updTeam_diesOff (m : Mach) (u : Nat) (f : Team → Team) : (m.updTeam u f).diesOff = m.diesOff := rfl
@[simp] theorem Mach.updTeam_noPlace (m : Mach) (u : Nat) (f : Team → Team) : (m.updTeam u f).noPlace = m.noPlace := rfl
@[simp] theorem Mach.updTeam_noAccept (m : Mach) (u : Nat) (f : Team → Team) : (m.updTeam u f).noAccept = m.noAccept := rfl
@[simp] theorem Mach.updTeam_heldCores (m : Mach) (u : Nat) (f : Team → Team) : (m.updTeam u f).heldCores = m.heldCores := rfl
@[simp] theorem Mach.updGroup_clk (m : Mach) (u g : Nat) (f : Group → Group) : (m.updGroup u g f).clk = m.clk := rfl
@[simp] theorem Mach.updGroup_uid (m : Mach) (u g : Nat) (f : Group → Group) : (m.updGroup u g f).uid = m.uid := rfl
@[simp] theorem Mach.updGroup_free (m : Mach) (u g : Nat) (f : Group → Group) : (m.updGroup u g f).free = m.free := rfl
@[simp] theorem Mach.updGroup_cur (m : Mach) (u g : Nat) (f : Group → Group) : (m.updGroup u g f).cur = m.cur := rfl
@[simp] theorem Mach.updGroup_threads (m : Mach) (u g : Nat) (f : Group → Group) : (m.updGroup u g f).threads = m.threads := rfl
@[simp] theorem Mach.updGroup_teams (m : Mach) (u g : Nat) (f : Group → Group) : (m.updGroup u g f).teams = m.teams := rfl
@[simp] theorem Mach.updGroup_mem (m : Mach) (u g : Nat) (f : Group → Group) : (m.updGroup u g f).mem = m.mem := rfl
@[simp] theorem Mach.updGroup_linemeta (m : Mach) (u g : Nat) (f : Group → Group) : (m.updGroup u g f).linemeta = m.linemeta := rfl
@[simp] theorem Mach.updGroup_versions (m : Mach) (u g : Nat) (f : Group → Group) : (m.updGroup u g f).versions = m.versions := rfl
@[simp] theorem Mach.updGroup_l1 (m : Mach) (u g : Nat) (f : Group → Group) : (m.updGroup u g f).l1 = m.l1 := rfl
@[simp] theorem Mach.updGroup_partials (m : Mach) (u g : Nat) (f : Group → Group) : (m.updGroup u g f).partials = m.partials := rfl
@[simp] theorem Mach.updGroup_fetches (m : Mach) (u g : Nat) (f : Group → Group) : (m.updGroup u g f).fetches = m.fetches := rfl
@[simp] theorem Mach.updGroup_hints (m : Mach) (u g : Nat) (f : Group → Group) : (m.updGroup u g f).hints = m.hints := rfl
@[simp] theorem Mach.updGroup_trail (m : Mach) (u g : Nat) (f : Group → Group) : (m.updGroup u g f).trail = m.trail := rfl
@[simp] theorem Mach.updGroup_rounds (m : Mach) (u g : Nat) (f : Group → Group) : (m.updGroup u g f).rounds = m.rounds := rfl
@[simp] theorem Mach.updGroup_mirrors (m : Mach) (u g : Nat) (f : Group → Group) : (m.updGroup u g f).mirrors = m.mirrors := rfl
@[simp] theorem Mach.updGroup_areas (m : Mach) (u g : Nat) (f : Group → Group) : (m.updGroup u g f).areas = m.areas := rfl
@[simp] theorem Mach.updGroup_discarded (m : Mach) (u g : Nat) (f : Group → Group) : (m.updGroup u g f).discarded = m.discarded := rfl
@[simp] theorem Mach.updGroup_errors (m : Mach) (u g : Nat) (f : Group → Group) : (m.updGroup u g f).errors = m.errors := rfl
@[simp] theorem Mach.updGroup_tlb (m : Mach) (u g : Nat) (f : Group → Group) : (m.updGroup u g f).tlb = m.tlb := rfl
@[simp] theorem Mach.updGroup_walkCache (m : Mach) (u g : Nat) (f : Group → Group) : (m.updGroup u g f).walkCache = m.walkCache := rfl
@[simp] theorem Mach.updGroup_walks (m : Mach) (u g : Nat) (f : Group → Group) : (m.updGroup u g f).walks = m.walks := rfl
@[simp] theorem Mach.updGroup_cmds (m : Mach) (u g : Nat) (f : Group → Group) : (m.updGroup u g f).cmds = m.cmds := rfl
@[simp] theorem Mach.updGroup_tileq (m : Mach) (u g : Nat) (f : Group → Group) : (m.updGroup u g f).tileq = m.tileq := rfl
@[simp] theorem Mach.updGroup_droverTurn (m : Mach) (u g : Nat) (f : Group → Group) : (m.updGroup u g f).droverTurn = m.droverTurn := rfl
@[simp] theorem Mach.updGroup_ctxs (m : Mach) (u g : Nat) (f : Group → Group) : (m.updGroup u g f).ctxs = m.ctxs := rfl
@[simp] theorem Mach.updGroup_launches (m : Mach) (u g : Nat) (f : Group → Group) : (m.updGroup u g f).launches = m.launches := rfl
@[simp] theorem Mach.updGroup_lastSlot (m : Mach) (u g : Nat) (f : Group → Group) : (m.updGroup u g f).lastSlot = m.lastSlot := rfl
@[simp] theorem Mach.updGroup_services (m : Mach) (u g : Nat) (f : Group → Group) : (m.updGroup u g f).services = m.services := rfl
@[simp] theorem Mach.updGroup_svcoff (m : Mach) (u g : Nat) (f : Group → Group) : (m.updGroup u g f).svcoff = m.svcoff := rfl
@[simp] theorem Mach.updGroup_lostDies (m : Mach) (u g : Nat) (f : Group → Group) : (m.updGroup u g f).lostDies = m.lostDies := rfl
@[simp] theorem Mach.updGroup_batches (m : Mach) (u g : Nat) (f : Group → Group) : (m.updGroup u g f).batches = m.batches := rfl
@[simp] theorem Mach.updGroup_mailSeq (m : Mach) (u g : Nat) (f : Group → Group) : (m.updGroup u g f).mailSeq = m.mailSeq := rfl
@[simp] theorem Mach.updGroup_msix (m : Mach) (u g : Nat) (f : Group → Group) : (m.updGroup u g f).msix = m.msix := rfl
@[simp] theorem Mach.updGroup_objects (m : Mach) (u g : Nat) (f : Group → Group) : (m.updGroup u g f).objects = m.objects := rfl
@[simp] theorem Mach.updGroup_module (m : Mach) (u g : Nat) (f : Group → Group) : (m.updGroup u g f).module = m.module := rfl
@[simp] theorem Mach.updGroup_modules (m : Mach) (u g : Nat) (f : Group → Group) : (m.updGroup u g f).modules = m.modules := rfl
@[simp] theorem Mach.updGroup_droveway (m : Mach) (u g : Nat) (f : Group → Group) : (m.updGroup u g f).droveway = m.droveway := rfl
@[simp] theorem Mach.updGroup_ports (m : Mach) (u g : Nat) (f : Group → Group) : (m.updGroup u g f).ports = m.ports := rfl
@[simp] theorem Mach.updGroup_timeBase (m : Mach) (u g : Nat) (f : Group → Group) : (m.updGroup u g f).timeBase = m.timeBase := rfl
@[simp] theorem Mach.updGroup_wallBase (m : Mach) (u g : Nat) (f : Group → Group) : (m.updGroup u g f).wallBase = m.wallBase := rfl
@[simp] theorem Mach.updGroup_k2 (m : Mach) (u g : Nat) (f : Group → Group) : (m.updGroup u g f).k2 = m.k2 := rfl
@[simp] theorem Mach.updGroup_stackBase (m : Mach) (u g : Nat) (f : Group → Group) : (m.updGroup u g f).stackBase = m.stackBase := rfl
@[simp] theorem Mach.updGroup_mailBase (m : Mach) (u g : Nat) (f : Group → Group) : (m.updGroup u g f).mailBase = m.mailBase := rfl
@[simp] theorem Mach.updGroup_memTable (m : Mach) (u g : Nat) (f : Group → Group) : (m.updGroup u g f).memTable = m.memTable := rfl
@[simp] theorem Mach.updGroup_machineChecks (m : Mach) (u g : Nat) (f : Group → Group) : (m.updGroup u g f).machineChecks = m.machineChecks := rfl
@[simp] theorem Mach.updGroup_fwBase (m : Mach) (u g : Nat) (f : Group → Group) : (m.updGroup u g f).fwBase = m.fwBase := rfl
@[simp] theorem Mach.updGroup_trace (m : Mach) (u g : Nat) (f : Group → Group) : (m.updGroup u g f).trace = m.trace := rfl
@[simp] theorem Mach.updGroup_diesOff (m : Mach) (u g : Nat) (f : Group → Group) : (m.updGroup u g f).diesOff = m.diesOff := rfl
@[simp] theorem Mach.updGroup_noPlace (m : Mach) (u g : Nat) (f : Group → Group) : (m.updGroup u g f).noPlace = m.noPlace := rfl
@[simp] theorem Mach.updGroup_noAccept (m : Mach) (u g : Nat) (f : Group → Group) : (m.updGroup u g f).noAccept = m.noAccept := rfl
@[simp] theorem Mach.updGroup_heldCores (m : Mach) (u g : Nat) (f : Group → Group) : (m.updGroup u g f).heldCores = m.heldCores := rfl
@[simp] theorem Mach.updCmd_clk (m : Mach) (c : Nat) (f : Cmd → Cmd) : (m.updCmd c f).clk = m.clk := rfl
@[simp] theorem Mach.updCmd_uid (m : Mach) (c : Nat) (f : Cmd → Cmd) : (m.updCmd c f).uid = m.uid := rfl
@[simp] theorem Mach.updCmd_free (m : Mach) (c : Nat) (f : Cmd → Cmd) : (m.updCmd c f).free = m.free := rfl
@[simp] theorem Mach.updCmd_cur (m : Mach) (c : Nat) (f : Cmd → Cmd) : (m.updCmd c f).cur = m.cur := rfl
@[simp] theorem Mach.updCmd_threads (m : Mach) (c : Nat) (f : Cmd → Cmd) : (m.updCmd c f).threads = m.threads := rfl
@[simp] theorem Mach.updCmd_groups (m : Mach) (c : Nat) (f : Cmd → Cmd) : (m.updCmd c f).groups = m.groups := rfl
@[simp] theorem Mach.updCmd_teams (m : Mach) (c : Nat) (f : Cmd → Cmd) : (m.updCmd c f).teams = m.teams := rfl
@[simp] theorem Mach.updCmd_mem (m : Mach) (c : Nat) (f : Cmd → Cmd) : (m.updCmd c f).mem = m.mem := rfl
@[simp] theorem Mach.updCmd_linemeta (m : Mach) (c : Nat) (f : Cmd → Cmd) : (m.updCmd c f).linemeta = m.linemeta := rfl
@[simp] theorem Mach.updCmd_versions (m : Mach) (c : Nat) (f : Cmd → Cmd) : (m.updCmd c f).versions = m.versions := rfl
@[simp] theorem Mach.updCmd_l1 (m : Mach) (c : Nat) (f : Cmd → Cmd) : (m.updCmd c f).l1 = m.l1 := rfl
@[simp] theorem Mach.updCmd_partials (m : Mach) (c : Nat) (f : Cmd → Cmd) : (m.updCmd c f).partials = m.partials := rfl
@[simp] theorem Mach.updCmd_fetches (m : Mach) (c : Nat) (f : Cmd → Cmd) : (m.updCmd c f).fetches = m.fetches := rfl
@[simp] theorem Mach.updCmd_hints (m : Mach) (c : Nat) (f : Cmd → Cmd) : (m.updCmd c f).hints = m.hints := rfl
@[simp] theorem Mach.updCmd_trail (m : Mach) (c : Nat) (f : Cmd → Cmd) : (m.updCmd c f).trail = m.trail := rfl
@[simp] theorem Mach.updCmd_rounds (m : Mach) (c : Nat) (f : Cmd → Cmd) : (m.updCmd c f).rounds = m.rounds := rfl
@[simp] theorem Mach.updCmd_mirrors (m : Mach) (c : Nat) (f : Cmd → Cmd) : (m.updCmd c f).mirrors = m.mirrors := rfl
@[simp] theorem Mach.updCmd_areas (m : Mach) (c : Nat) (f : Cmd → Cmd) : (m.updCmd c f).areas = m.areas := rfl
@[simp] theorem Mach.updCmd_discarded (m : Mach) (c : Nat) (f : Cmd → Cmd) : (m.updCmd c f).discarded = m.discarded := rfl
@[simp] theorem Mach.updCmd_errors (m : Mach) (c : Nat) (f : Cmd → Cmd) : (m.updCmd c f).errors = m.errors := rfl
@[simp] theorem Mach.updCmd_tlb (m : Mach) (c : Nat) (f : Cmd → Cmd) : (m.updCmd c f).tlb = m.tlb := rfl
@[simp] theorem Mach.updCmd_walkCache (m : Mach) (c : Nat) (f : Cmd → Cmd) : (m.updCmd c f).walkCache = m.walkCache := rfl
@[simp] theorem Mach.updCmd_walks (m : Mach) (c : Nat) (f : Cmd → Cmd) : (m.updCmd c f).walks = m.walks := rfl
@[simp] theorem Mach.updCmd_tileq (m : Mach) (c : Nat) (f : Cmd → Cmd) : (m.updCmd c f).tileq = m.tileq := rfl
@[simp] theorem Mach.updCmd_droverTurn (m : Mach) (c : Nat) (f : Cmd → Cmd) : (m.updCmd c f).droverTurn = m.droverTurn := rfl
@[simp] theorem Mach.updCmd_ctxs (m : Mach) (c : Nat) (f : Cmd → Cmd) : (m.updCmd c f).ctxs = m.ctxs := rfl
@[simp] theorem Mach.updCmd_launches (m : Mach) (c : Nat) (f : Cmd → Cmd) : (m.updCmd c f).launches = m.launches := rfl
@[simp] theorem Mach.updCmd_lastSlot (m : Mach) (c : Nat) (f : Cmd → Cmd) : (m.updCmd c f).lastSlot = m.lastSlot := rfl
@[simp] theorem Mach.updCmd_services (m : Mach) (c : Nat) (f : Cmd → Cmd) : (m.updCmd c f).services = m.services := rfl
@[simp] theorem Mach.updCmd_svcoff (m : Mach) (c : Nat) (f : Cmd → Cmd) : (m.updCmd c f).svcoff = m.svcoff := rfl
@[simp] theorem Mach.updCmd_lostDies (m : Mach) (c : Nat) (f : Cmd → Cmd) : (m.updCmd c f).lostDies = m.lostDies := rfl
@[simp] theorem Mach.updCmd_batches (m : Mach) (c : Nat) (f : Cmd → Cmd) : (m.updCmd c f).batches = m.batches := rfl
@[simp] theorem Mach.updCmd_mailSeq (m : Mach) (c : Nat) (f : Cmd → Cmd) : (m.updCmd c f).mailSeq = m.mailSeq := rfl
@[simp] theorem Mach.updCmd_msix (m : Mach) (c : Nat) (f : Cmd → Cmd) : (m.updCmd c f).msix = m.msix := rfl
@[simp] theorem Mach.updCmd_objects (m : Mach) (c : Nat) (f : Cmd → Cmd) : (m.updCmd c f).objects = m.objects := rfl
@[simp] theorem Mach.updCmd_module (m : Mach) (c : Nat) (f : Cmd → Cmd) : (m.updCmd c f).module = m.module := rfl
@[simp] theorem Mach.updCmd_modules (m : Mach) (c : Nat) (f : Cmd → Cmd) : (m.updCmd c f).modules = m.modules := rfl
@[simp] theorem Mach.updCmd_droveway (m : Mach) (c : Nat) (f : Cmd → Cmd) : (m.updCmd c f).droveway = m.droveway := rfl
@[simp] theorem Mach.updCmd_ports (m : Mach) (c : Nat) (f : Cmd → Cmd) : (m.updCmd c f).ports = m.ports := rfl
@[simp] theorem Mach.updCmd_timeBase (m : Mach) (c : Nat) (f : Cmd → Cmd) : (m.updCmd c f).timeBase = m.timeBase := rfl
@[simp] theorem Mach.updCmd_wallBase (m : Mach) (c : Nat) (f : Cmd → Cmd) : (m.updCmd c f).wallBase = m.wallBase := rfl
@[simp] theorem Mach.updCmd_k2 (m : Mach) (c : Nat) (f : Cmd → Cmd) : (m.updCmd c f).k2 = m.k2 := rfl
@[simp] theorem Mach.updCmd_stackBase (m : Mach) (c : Nat) (f : Cmd → Cmd) : (m.updCmd c f).stackBase = m.stackBase := rfl
@[simp] theorem Mach.updCmd_mailBase (m : Mach) (c : Nat) (f : Cmd → Cmd) : (m.updCmd c f).mailBase = m.mailBase := rfl
@[simp] theorem Mach.updCmd_memTable (m : Mach) (c : Nat) (f : Cmd → Cmd) : (m.updCmd c f).memTable = m.memTable := rfl
@[simp] theorem Mach.updCmd_machineChecks (m : Mach) (c : Nat) (f : Cmd → Cmd) : (m.updCmd c f).machineChecks = m.machineChecks := rfl
@[simp] theorem Mach.updCmd_fwBase (m : Mach) (c : Nat) (f : Cmd → Cmd) : (m.updCmd c f).fwBase = m.fwBase := rfl
@[simp] theorem Mach.updCmd_trace (m : Mach) (c : Nat) (f : Cmd → Cmd) : (m.updCmd c f).trace = m.trace := rfl
@[simp] theorem Mach.updCmd_diesOff (m : Mach) (c : Nat) (f : Cmd → Cmd) : (m.updCmd c f).diesOff = m.diesOff := rfl
@[simp] theorem Mach.updCmd_noPlace (m : Mach) (c : Nat) (f : Cmd → Cmd) : (m.updCmd c f).noPlace = m.noPlace := rfl
@[simp] theorem Mach.updCmd_noAccept (m : Mach) (c : Nat) (f : Cmd → Cmd) : (m.updCmd c f).noAccept = m.noAccept := rfl
@[simp] theorem Mach.updCmd_heldCores (m : Mach) (c : Nat) (f : Cmd → Cmd) : (m.updCmd c f).heldCores = m.heldCores := rfl
@[simp] theorem Mach.updLaunch_clk (m : Mach) (u : Nat) (f : Launch → Launch) : (m.updLaunch u f).clk = m.clk := rfl
@[simp] theorem Mach.updLaunch_uid (m : Mach) (u : Nat) (f : Launch → Launch) : (m.updLaunch u f).uid = m.uid := rfl
@[simp] theorem Mach.updLaunch_free (m : Mach) (u : Nat) (f : Launch → Launch) : (m.updLaunch u f).free = m.free := rfl
@[simp] theorem Mach.updLaunch_cur (m : Mach) (u : Nat) (f : Launch → Launch) : (m.updLaunch u f).cur = m.cur := rfl
@[simp] theorem Mach.updLaunch_threads (m : Mach) (u : Nat) (f : Launch → Launch) : (m.updLaunch u f).threads = m.threads := rfl
@[simp] theorem Mach.updLaunch_groups (m : Mach) (u : Nat) (f : Launch → Launch) : (m.updLaunch u f).groups = m.groups := rfl
@[simp] theorem Mach.updLaunch_teams (m : Mach) (u : Nat) (f : Launch → Launch) : (m.updLaunch u f).teams = m.teams := rfl
@[simp] theorem Mach.updLaunch_mem (m : Mach) (u : Nat) (f : Launch → Launch) : (m.updLaunch u f).mem = m.mem := rfl
@[simp] theorem Mach.updLaunch_linemeta (m : Mach) (u : Nat) (f : Launch → Launch) : (m.updLaunch u f).linemeta = m.linemeta := rfl
@[simp] theorem Mach.updLaunch_versions (m : Mach) (u : Nat) (f : Launch → Launch) : (m.updLaunch u f).versions = m.versions := rfl
@[simp] theorem Mach.updLaunch_l1 (m : Mach) (u : Nat) (f : Launch → Launch) : (m.updLaunch u f).l1 = m.l1 := rfl
@[simp] theorem Mach.updLaunch_partials (m : Mach) (u : Nat) (f : Launch → Launch) : (m.updLaunch u f).partials = m.partials := rfl
@[simp] theorem Mach.updLaunch_fetches (m : Mach) (u : Nat) (f : Launch → Launch) : (m.updLaunch u f).fetches = m.fetches := rfl
@[simp] theorem Mach.updLaunch_hints (m : Mach) (u : Nat) (f : Launch → Launch) : (m.updLaunch u f).hints = m.hints := rfl
@[simp] theorem Mach.updLaunch_trail (m : Mach) (u : Nat) (f : Launch → Launch) : (m.updLaunch u f).trail = m.trail := rfl
@[simp] theorem Mach.updLaunch_rounds (m : Mach) (u : Nat) (f : Launch → Launch) : (m.updLaunch u f).rounds = m.rounds := rfl
@[simp] theorem Mach.updLaunch_mirrors (m : Mach) (u : Nat) (f : Launch → Launch) : (m.updLaunch u f).mirrors = m.mirrors := rfl
@[simp] theorem Mach.updLaunch_areas (m : Mach) (u : Nat) (f : Launch → Launch) : (m.updLaunch u f).areas = m.areas := rfl
@[simp] theorem Mach.updLaunch_discarded (m : Mach) (u : Nat) (f : Launch → Launch) : (m.updLaunch u f).discarded = m.discarded := rfl
@[simp] theorem Mach.updLaunch_errors (m : Mach) (u : Nat) (f : Launch → Launch) : (m.updLaunch u f).errors = m.errors := rfl
@[simp] theorem Mach.updLaunch_tlb (m : Mach) (u : Nat) (f : Launch → Launch) : (m.updLaunch u f).tlb = m.tlb := rfl
@[simp] theorem Mach.updLaunch_walkCache (m : Mach) (u : Nat) (f : Launch → Launch) : (m.updLaunch u f).walkCache = m.walkCache := rfl
@[simp] theorem Mach.updLaunch_walks (m : Mach) (u : Nat) (f : Launch → Launch) : (m.updLaunch u f).walks = m.walks := rfl
@[simp] theorem Mach.updLaunch_cmds (m : Mach) (u : Nat) (f : Launch → Launch) : (m.updLaunch u f).cmds = m.cmds := rfl
@[simp] theorem Mach.updLaunch_tileq (m : Mach) (u : Nat) (f : Launch → Launch) : (m.updLaunch u f).tileq = m.tileq := rfl
@[simp] theorem Mach.updLaunch_droverTurn (m : Mach) (u : Nat) (f : Launch → Launch) : (m.updLaunch u f).droverTurn = m.droverTurn := rfl
@[simp] theorem Mach.updLaunch_ctxs (m : Mach) (u : Nat) (f : Launch → Launch) : (m.updLaunch u f).ctxs = m.ctxs := rfl
@[simp] theorem Mach.updLaunch_lastSlot (m : Mach) (u : Nat) (f : Launch → Launch) : (m.updLaunch u f).lastSlot = m.lastSlot := rfl
@[simp] theorem Mach.updLaunch_services (m : Mach) (u : Nat) (f : Launch → Launch) : (m.updLaunch u f).services = m.services := rfl
@[simp] theorem Mach.updLaunch_svcoff (m : Mach) (u : Nat) (f : Launch → Launch) : (m.updLaunch u f).svcoff = m.svcoff := rfl
@[simp] theorem Mach.updLaunch_lostDies (m : Mach) (u : Nat) (f : Launch → Launch) : (m.updLaunch u f).lostDies = m.lostDies := rfl
@[simp] theorem Mach.updLaunch_batches (m : Mach) (u : Nat) (f : Launch → Launch) : (m.updLaunch u f).batches = m.batches := rfl
@[simp] theorem Mach.updLaunch_mailSeq (m : Mach) (u : Nat) (f : Launch → Launch) : (m.updLaunch u f).mailSeq = m.mailSeq := rfl
@[simp] theorem Mach.updLaunch_msix (m : Mach) (u : Nat) (f : Launch → Launch) : (m.updLaunch u f).msix = m.msix := rfl
@[simp] theorem Mach.updLaunch_objects (m : Mach) (u : Nat) (f : Launch → Launch) : (m.updLaunch u f).objects = m.objects := rfl
@[simp] theorem Mach.updLaunch_module (m : Mach) (u : Nat) (f : Launch → Launch) : (m.updLaunch u f).module = m.module := rfl
@[simp] theorem Mach.updLaunch_modules (m : Mach) (u : Nat) (f : Launch → Launch) : (m.updLaunch u f).modules = m.modules := rfl
@[simp] theorem Mach.updLaunch_droveway (m : Mach) (u : Nat) (f : Launch → Launch) : (m.updLaunch u f).droveway = m.droveway := rfl
@[simp] theorem Mach.updLaunch_ports (m : Mach) (u : Nat) (f : Launch → Launch) : (m.updLaunch u f).ports = m.ports := rfl
@[simp] theorem Mach.updLaunch_timeBase (m : Mach) (u : Nat) (f : Launch → Launch) : (m.updLaunch u f).timeBase = m.timeBase := rfl
@[simp] theorem Mach.updLaunch_wallBase (m : Mach) (u : Nat) (f : Launch → Launch) : (m.updLaunch u f).wallBase = m.wallBase := rfl
@[simp] theorem Mach.updLaunch_k2 (m : Mach) (u : Nat) (f : Launch → Launch) : (m.updLaunch u f).k2 = m.k2 := rfl
@[simp] theorem Mach.updLaunch_stackBase (m : Mach) (u : Nat) (f : Launch → Launch) : (m.updLaunch u f).stackBase = m.stackBase := rfl
@[simp] theorem Mach.updLaunch_mailBase (m : Mach) (u : Nat) (f : Launch → Launch) : (m.updLaunch u f).mailBase = m.mailBase := rfl
@[simp] theorem Mach.updLaunch_memTable (m : Mach) (u : Nat) (f : Launch → Launch) : (m.updLaunch u f).memTable = m.memTable := rfl
@[simp] theorem Mach.updLaunch_machineChecks (m : Mach) (u : Nat) (f : Launch → Launch) : (m.updLaunch u f).machineChecks = m.machineChecks := rfl
@[simp] theorem Mach.updLaunch_fwBase (m : Mach) (u : Nat) (f : Launch → Launch) : (m.updLaunch u f).fwBase = m.fwBase := rfl
@[simp] theorem Mach.updLaunch_trace (m : Mach) (u : Nat) (f : Launch → Launch) : (m.updLaunch u f).trace = m.trace := rfl
@[simp] theorem Mach.updLaunch_diesOff (m : Mach) (u : Nat) (f : Launch → Launch) : (m.updLaunch u f).diesOff = m.diesOff := rfl
@[simp] theorem Mach.updLaunch_noPlace (m : Mach) (u : Nat) (f : Launch → Launch) : (m.updLaunch u f).noPlace = m.noPlace := rfl
@[simp] theorem Mach.updLaunch_noAccept (m : Mach) (u : Nat) (f : Launch → Launch) : (m.updLaunch u f).noAccept = m.noAccept := rfl
@[simp] theorem Mach.updLaunch_heldCores (m : Mach) (u : Nat) (f : Launch → Launch) : (m.updLaunch u f).heldCores = m.heldCores := rfl
@[simp] theorem Mach.updCtx_clk (m : Mach) (c : Nat) (f : Ctx → Ctx) : (m.updCtx c f).clk = m.clk := rfl
@[simp] theorem Mach.updCtx_uid (m : Mach) (c : Nat) (f : Ctx → Ctx) : (m.updCtx c f).uid = m.uid := rfl
@[simp] theorem Mach.updCtx_free (m : Mach) (c : Nat) (f : Ctx → Ctx) : (m.updCtx c f).free = m.free := rfl
@[simp] theorem Mach.updCtx_cur (m : Mach) (c : Nat) (f : Ctx → Ctx) : (m.updCtx c f).cur = m.cur := rfl
@[simp] theorem Mach.updCtx_threads (m : Mach) (c : Nat) (f : Ctx → Ctx) : (m.updCtx c f).threads = m.threads := rfl
@[simp] theorem Mach.updCtx_groups (m : Mach) (c : Nat) (f : Ctx → Ctx) : (m.updCtx c f).groups = m.groups := rfl
@[simp] theorem Mach.updCtx_teams (m : Mach) (c : Nat) (f : Ctx → Ctx) : (m.updCtx c f).teams = m.teams := rfl
@[simp] theorem Mach.updCtx_mem (m : Mach) (c : Nat) (f : Ctx → Ctx) : (m.updCtx c f).mem = m.mem := rfl
@[simp] theorem Mach.updCtx_linemeta (m : Mach) (c : Nat) (f : Ctx → Ctx) : (m.updCtx c f).linemeta = m.linemeta := rfl
@[simp] theorem Mach.updCtx_versions (m : Mach) (c : Nat) (f : Ctx → Ctx) : (m.updCtx c f).versions = m.versions := rfl
@[simp] theorem Mach.updCtx_l1 (m : Mach) (c : Nat) (f : Ctx → Ctx) : (m.updCtx c f).l1 = m.l1 := rfl
@[simp] theorem Mach.updCtx_partials (m : Mach) (c : Nat) (f : Ctx → Ctx) : (m.updCtx c f).partials = m.partials := rfl
@[simp] theorem Mach.updCtx_fetches (m : Mach) (c : Nat) (f : Ctx → Ctx) : (m.updCtx c f).fetches = m.fetches := rfl
@[simp] theorem Mach.updCtx_hints (m : Mach) (c : Nat) (f : Ctx → Ctx) : (m.updCtx c f).hints = m.hints := rfl
@[simp] theorem Mach.updCtx_trail (m : Mach) (c : Nat) (f : Ctx → Ctx) : (m.updCtx c f).trail = m.trail := rfl
@[simp] theorem Mach.updCtx_rounds (m : Mach) (c : Nat) (f : Ctx → Ctx) : (m.updCtx c f).rounds = m.rounds := rfl
@[simp] theorem Mach.updCtx_mirrors (m : Mach) (c : Nat) (f : Ctx → Ctx) : (m.updCtx c f).mirrors = m.mirrors := rfl
@[simp] theorem Mach.updCtx_areas (m : Mach) (c : Nat) (f : Ctx → Ctx) : (m.updCtx c f).areas = m.areas := rfl
@[simp] theorem Mach.updCtx_discarded (m : Mach) (c : Nat) (f : Ctx → Ctx) : (m.updCtx c f).discarded = m.discarded := rfl
@[simp] theorem Mach.updCtx_errors (m : Mach) (c : Nat) (f : Ctx → Ctx) : (m.updCtx c f).errors = m.errors := rfl
@[simp] theorem Mach.updCtx_tlb (m : Mach) (c : Nat) (f : Ctx → Ctx) : (m.updCtx c f).tlb = m.tlb := rfl
@[simp] theorem Mach.updCtx_walkCache (m : Mach) (c : Nat) (f : Ctx → Ctx) : (m.updCtx c f).walkCache = m.walkCache := rfl
@[simp] theorem Mach.updCtx_walks (m : Mach) (c : Nat) (f : Ctx → Ctx) : (m.updCtx c f).walks = m.walks := rfl
@[simp] theorem Mach.updCtx_cmds (m : Mach) (c : Nat) (f : Ctx → Ctx) : (m.updCtx c f).cmds = m.cmds := rfl
@[simp] theorem Mach.updCtx_tileq (m : Mach) (c : Nat) (f : Ctx → Ctx) : (m.updCtx c f).tileq = m.tileq := rfl
@[simp] theorem Mach.updCtx_droverTurn (m : Mach) (c : Nat) (f : Ctx → Ctx) : (m.updCtx c f).droverTurn = m.droverTurn := rfl
@[simp] theorem Mach.updCtx_launches (m : Mach) (c : Nat) (f : Ctx → Ctx) : (m.updCtx c f).launches = m.launches := rfl
@[simp] theorem Mach.updCtx_lastSlot (m : Mach) (c : Nat) (f : Ctx → Ctx) : (m.updCtx c f).lastSlot = m.lastSlot := rfl
@[simp] theorem Mach.updCtx_services (m : Mach) (c : Nat) (f : Ctx → Ctx) : (m.updCtx c f).services = m.services := rfl
@[simp] theorem Mach.updCtx_svcoff (m : Mach) (c : Nat) (f : Ctx → Ctx) : (m.updCtx c f).svcoff = m.svcoff := rfl
@[simp] theorem Mach.updCtx_lostDies (m : Mach) (c : Nat) (f : Ctx → Ctx) : (m.updCtx c f).lostDies = m.lostDies := rfl
@[simp] theorem Mach.updCtx_batches (m : Mach) (c : Nat) (f : Ctx → Ctx) : (m.updCtx c f).batches = m.batches := rfl
@[simp] theorem Mach.updCtx_mailSeq (m : Mach) (c : Nat) (f : Ctx → Ctx) : (m.updCtx c f).mailSeq = m.mailSeq := rfl
@[simp] theorem Mach.updCtx_msix (m : Mach) (c : Nat) (f : Ctx → Ctx) : (m.updCtx c f).msix = m.msix := rfl
@[simp] theorem Mach.updCtx_objects (m : Mach) (c : Nat) (f : Ctx → Ctx) : (m.updCtx c f).objects = m.objects := rfl
@[simp] theorem Mach.updCtx_module (m : Mach) (c : Nat) (f : Ctx → Ctx) : (m.updCtx c f).module = m.module := rfl
@[simp] theorem Mach.updCtx_modules (m : Mach) (c : Nat) (f : Ctx → Ctx) : (m.updCtx c f).modules = m.modules := rfl
@[simp] theorem Mach.updCtx_droveway (m : Mach) (c : Nat) (f : Ctx → Ctx) : (m.updCtx c f).droveway = m.droveway := rfl
@[simp] theorem Mach.updCtx_ports (m : Mach) (c : Nat) (f : Ctx → Ctx) : (m.updCtx c f).ports = m.ports := rfl
@[simp] theorem Mach.updCtx_timeBase (m : Mach) (c : Nat) (f : Ctx → Ctx) : (m.updCtx c f).timeBase = m.timeBase := rfl
@[simp] theorem Mach.updCtx_wallBase (m : Mach) (c : Nat) (f : Ctx → Ctx) : (m.updCtx c f).wallBase = m.wallBase := rfl
@[simp] theorem Mach.updCtx_k2 (m : Mach) (c : Nat) (f : Ctx → Ctx) : (m.updCtx c f).k2 = m.k2 := rfl
@[simp] theorem Mach.updCtx_stackBase (m : Mach) (c : Nat) (f : Ctx → Ctx) : (m.updCtx c f).stackBase = m.stackBase := rfl
@[simp] theorem Mach.updCtx_mailBase (m : Mach) (c : Nat) (f : Ctx → Ctx) : (m.updCtx c f).mailBase = m.mailBase := rfl
@[simp] theorem Mach.updCtx_memTable (m : Mach) (c : Nat) (f : Ctx → Ctx) : (m.updCtx c f).memTable = m.memTable := rfl
@[simp] theorem Mach.updCtx_machineChecks (m : Mach) (c : Nat) (f : Ctx → Ctx) : (m.updCtx c f).machineChecks = m.machineChecks := rfl
@[simp] theorem Mach.updCtx_fwBase (m : Mach) (c : Nat) (f : Ctx → Ctx) : (m.updCtx c f).fwBase = m.fwBase := rfl
@[simp] theorem Mach.updCtx_trace (m : Mach) (c : Nat) (f : Ctx → Ctx) : (m.updCtx c f).trace = m.trace := rfl
@[simp] theorem Mach.updCtx_diesOff (m : Mach) (c : Nat) (f : Ctx → Ctx) : (m.updCtx c f).diesOff = m.diesOff := rfl
@[simp] theorem Mach.updCtx_noPlace (m : Mach) (c : Nat) (f : Ctx → Ctx) : (m.updCtx c f).noPlace = m.noPlace := rfl
@[simp] theorem Mach.updCtx_noAccept (m : Mach) (c : Nat) (f : Ctx → Ctx) : (m.updCtx c f).noAccept = m.noAccept := rfl
@[simp] theorem Mach.updCtx_heldCores (m : Mach) (c : Nat) (f : Ctx → Ctx) : (m.updCtx c f).heldCores = m.heldCores := rfl
@[simp] theorem Mach.advance_clk (m : Mach) (ts : List TRef) (after : DWord) : (m.advance ts after).clk = m.clk := rfl
@[simp] theorem Mach.advance_uid (m : Mach) (ts : List TRef) (after : DWord) : (m.advance ts after).uid = m.uid := rfl
@[simp] theorem Mach.advance_free (m : Mach) (ts : List TRef) (after : DWord) : (m.advance ts after).free = m.free := rfl
@[simp] theorem Mach.advance_cur (m : Mach) (ts : List TRef) (after : DWord) : (m.advance ts after).cur = m.cur := rfl
@[simp] theorem Mach.advance_groups (m : Mach) (ts : List TRef) (after : DWord) : (m.advance ts after).groups = m.groups := rfl
@[simp] theorem Mach.advance_teams (m : Mach) (ts : List TRef) (after : DWord) : (m.advance ts after).teams = m.teams := rfl
@[simp] theorem Mach.advance_mem (m : Mach) (ts : List TRef) (after : DWord) : (m.advance ts after).mem = m.mem := rfl
@[simp] theorem Mach.advance_linemeta (m : Mach) (ts : List TRef) (after : DWord) : (m.advance ts after).linemeta = m.linemeta := rfl
@[simp] theorem Mach.advance_versions (m : Mach) (ts : List TRef) (after : DWord) : (m.advance ts after).versions = m.versions := rfl
@[simp] theorem Mach.advance_l1 (m : Mach) (ts : List TRef) (after : DWord) : (m.advance ts after).l1 = m.l1 := rfl
@[simp] theorem Mach.advance_partials (m : Mach) (ts : List TRef) (after : DWord) : (m.advance ts after).partials = m.partials := rfl
@[simp] theorem Mach.advance_fetches (m : Mach) (ts : List TRef) (after : DWord) : (m.advance ts after).fetches = m.fetches := rfl
@[simp] theorem Mach.advance_hints (m : Mach) (ts : List TRef) (after : DWord) : (m.advance ts after).hints = m.hints := rfl
@[simp] theorem Mach.advance_trail (m : Mach) (ts : List TRef) (after : DWord) : (m.advance ts after).trail = m.trail := rfl
@[simp] theorem Mach.advance_rounds (m : Mach) (ts : List TRef) (after : DWord) : (m.advance ts after).rounds = m.rounds := rfl
@[simp] theorem Mach.advance_mirrors (m : Mach) (ts : List TRef) (after : DWord) : (m.advance ts after).mirrors = m.mirrors := rfl
@[simp] theorem Mach.advance_areas (m : Mach) (ts : List TRef) (after : DWord) : (m.advance ts after).areas = m.areas := rfl
@[simp] theorem Mach.advance_discarded (m : Mach) (ts : List TRef) (after : DWord) : (m.advance ts after).discarded = m.discarded := rfl
@[simp] theorem Mach.advance_errors (m : Mach) (ts : List TRef) (after : DWord) : (m.advance ts after).errors = m.errors := rfl
@[simp] theorem Mach.advance_tlb (m : Mach) (ts : List TRef) (after : DWord) : (m.advance ts after).tlb = m.tlb := rfl
@[simp] theorem Mach.advance_walkCache (m : Mach) (ts : List TRef) (after : DWord) : (m.advance ts after).walkCache = m.walkCache := rfl
@[simp] theorem Mach.advance_walks (m : Mach) (ts : List TRef) (after : DWord) : (m.advance ts after).walks = m.walks := rfl
@[simp] theorem Mach.advance_cmds (m : Mach) (ts : List TRef) (after : DWord) : (m.advance ts after).cmds = m.cmds := rfl
@[simp] theorem Mach.advance_tileq (m : Mach) (ts : List TRef) (after : DWord) : (m.advance ts after).tileq = m.tileq := rfl
@[simp] theorem Mach.advance_droverTurn (m : Mach) (ts : List TRef) (after : DWord) : (m.advance ts after).droverTurn = m.droverTurn := rfl
@[simp] theorem Mach.advance_ctxs (m : Mach) (ts : List TRef) (after : DWord) : (m.advance ts after).ctxs = m.ctxs := rfl
@[simp] theorem Mach.advance_launches (m : Mach) (ts : List TRef) (after : DWord) : (m.advance ts after).launches = m.launches := rfl
@[simp] theorem Mach.advance_lastSlot (m : Mach) (ts : List TRef) (after : DWord) : (m.advance ts after).lastSlot = m.lastSlot := rfl
@[simp] theorem Mach.advance_services (m : Mach) (ts : List TRef) (after : DWord) : (m.advance ts after).services = m.services := rfl
@[simp] theorem Mach.advance_svcoff (m : Mach) (ts : List TRef) (after : DWord) : (m.advance ts after).svcoff = m.svcoff := rfl
@[simp] theorem Mach.advance_lostDies (m : Mach) (ts : List TRef) (after : DWord) : (m.advance ts after).lostDies = m.lostDies := rfl
@[simp] theorem Mach.advance_batches (m : Mach) (ts : List TRef) (after : DWord) : (m.advance ts after).batches = m.batches := rfl
@[simp] theorem Mach.advance_mailSeq (m : Mach) (ts : List TRef) (after : DWord) : (m.advance ts after).mailSeq = m.mailSeq := rfl
@[simp] theorem Mach.advance_msix (m : Mach) (ts : List TRef) (after : DWord) : (m.advance ts after).msix = m.msix := rfl
@[simp] theorem Mach.advance_objects (m : Mach) (ts : List TRef) (after : DWord) : (m.advance ts after).objects = m.objects := rfl
@[simp] theorem Mach.advance_module (m : Mach) (ts : List TRef) (after : DWord) : (m.advance ts after).module = m.module := rfl
@[simp] theorem Mach.advance_modules (m : Mach) (ts : List TRef) (after : DWord) : (m.advance ts after).modules = m.modules := rfl
@[simp] theorem Mach.advance_droveway (m : Mach) (ts : List TRef) (after : DWord) : (m.advance ts after).droveway = m.droveway := rfl
@[simp] theorem Mach.advance_ports (m : Mach) (ts : List TRef) (after : DWord) : (m.advance ts after).ports = m.ports := rfl
@[simp] theorem Mach.advance_timeBase (m : Mach) (ts : List TRef) (after : DWord) : (m.advance ts after).timeBase = m.timeBase := rfl
@[simp] theorem Mach.advance_wallBase (m : Mach) (ts : List TRef) (after : DWord) : (m.advance ts after).wallBase = m.wallBase := rfl
@[simp] theorem Mach.advance_k2 (m : Mach) (ts : List TRef) (after : DWord) : (m.advance ts after).k2 = m.k2 := rfl
@[simp] theorem Mach.advance_stackBase (m : Mach) (ts : List TRef) (after : DWord) : (m.advance ts after).stackBase = m.stackBase := rfl
@[simp] theorem Mach.advance_mailBase (m : Mach) (ts : List TRef) (after : DWord) : (m.advance ts after).mailBase = m.mailBase := rfl
@[simp] theorem Mach.advance_memTable (m : Mach) (ts : List TRef) (after : DWord) : (m.advance ts after).memTable = m.memTable := rfl
@[simp] theorem Mach.advance_machineChecks (m : Mach) (ts : List TRef) (after : DWord) : (m.advance ts after).machineChecks = m.machineChecks := rfl
@[simp] theorem Mach.advance_fwBase (m : Mach) (ts : List TRef) (after : DWord) : (m.advance ts after).fwBase = m.fwBase := rfl
@[simp] theorem Mach.advance_trace (m : Mach) (ts : List TRef) (after : DWord) : (m.advance ts after).trace = m.trace := rfl
@[simp] theorem Mach.advance_diesOff (m : Mach) (ts : List TRef) (after : DWord) : (m.advance ts after).diesOff = m.diesOff := rfl
@[simp] theorem Mach.advance_noPlace (m : Mach) (ts : List TRef) (after : DWord) : (m.advance ts after).noPlace = m.noPlace := rfl
@[simp] theorem Mach.advance_noAccept (m : Mach) (ts : List TRef) (after : DWord) : (m.advance ts after).noAccept = m.noAccept := rfl
@[simp] theorem Mach.advance_heldCores (m : Mach) (ts : List TRef) (after : DWord) : (m.advance ts after).heldCores = m.heldCores := rfl
@[simp] theorem Thread.setReg_ref (t : Thread) (r : Nat) (v : RV) : (t.setReg r v).ref = t.ref := rfl
@[simp] theorem Thread.setReg_helper (t : Thread) (r : Nat) (v : RV) : (t.setReg r v).helper = t.helper := rfl
@[simp] theorem Thread.setReg_preds (t : Thread) (r : Nat) (v : RV) : (t.setReg r v).preds = t.preds := rfl
@[simp] theorem Thread.setReg_pc (t : Thread) (r : Nat) (v : RV) : (t.setReg r v).pc = t.pc := rfl
@[simp] theorem Thread.setReg_wait (t : Thread) (r : Nat) (v : RV) : (t.setReg r v).wait = t.wait := rfl
@[simp] theorem Thread.setReg_fltCause (t : Thread) (r : Nat) (v : RV) : (t.setReg r v).fltCause = t.fltCause := rfl
@[simp] theorem Thread.setReg_fltPc (t : Thread) (r : Nat) (v : RV) : (t.setReg r v).fltPc = t.fltPc := rfl
@[simp] theorem Thread.setReg_fltMask (t : Thread) (r : Nat) (v : RV) : (t.setReg r v).fltMask = t.fltMask := rfl
@[simp] theorem Thread.setReg_fltInst (t : Thread) (r : Nat) (v : RV) : (t.setReg r v).fltInst = t.fltInst := rfl
@[simp] theorem Thread.setReg_fltAddr (t : Thread) (r : Nat) (v : RV) : (t.setReg r v).fltAddr = t.fltAddr := rfl
@[simp] theorem Thread.setReg_fltSub (t : Thread) (r : Nat) (v : RV) : (t.setReg r v).fltSub = t.fltSub := rfl
@[simp] theorem Thread.setReg_fltExc (t : Thread) (r : Nat) (v : RV) : (t.setReg r v).fltExc = t.fltExc := rfl
@[simp] theorem Thread.setReg_utvec (t : Thread) (r : Nat) (v : RV) : (t.setReg r v).utvec = t.utvec := rfl
@[simp] theorem Thread.setReg_ften (t : Thread) (r : Nat) (v : RV) : (t.setReg r v).ften = t.ften := rfl
@[simp] theorem Thread.setReg_frm (t : Thread) (r : Nat) (v : RV) : (t.setReg r v).frm = t.frm := rfl
@[simp] theorem Thread.setReg_uctl (t : Thread) (r : Nat) (v : RV) : (t.setReg r v).uctl = t.uctl := rfl
@[simp] theorem Thread.setReg_resume (t : Thread) (r : Nat) (v : RV) : (t.setReg r v).resume = t.resume := rfl
@[simp] theorem Thread.setReg_written (t : Thread) (r : Nat) (v : RV) : (t.setReg r v).written = t.written := rfl
@[simp] theorem Thread.setReg_handlerActive (t : Thread) (r : Nat) (v : RV) : (t.setReg r v).handlerActive = t.handlerActive := rfl
@[simp] theorem Thread.setReg_fltDst (t : Thread) (r : Nat) (v : RV) : (t.setReg r v).fltDst = t.fltDst := rfl
@[simp] theorem Thread.setReg_subst (t : Thread) (r : Nat) (v : RV) : (t.setReg r v).subst = t.subst := rfl
@[simp] theorem Thread.setReg_ops (t : Thread) (r : Nat) (v : RV) : (t.setReg r v).ops = t.ops := rfl
@[simp] theorem Thread.setReg_drover (t : Thread) (r : Nat) (v : RV) : (t.setReg r v).drover = t.drover := rfl
@[simp] theorem Thread.setReg_release (t : Thread) (r : Nat) (v : RV) : (t.setReg r v).release = t.release := rfl
@[simp] theorem Thread.setReg_latch (t : Thread) (r : Nat) (v : RV) : (t.setReg r v).latch = t.latch := rfl
@[simp] theorem Thread.setReg_yielded (t : Thread) (r : Nat) (v : RV) : (t.setReg r v).yielded = t.yielded := rfl
@[simp] theorem Thread.setReg_lastIssue (t : Thread) (r : Nat) (v : RV) : (t.setReg r v).lastIssue = t.lastIssue := rfl
@[simp] theorem Thread.setReg_inhand (t : Thread) (r : Nat) (v : RV) : (t.setReg r v).inhand = t.inhand := rfl
@[simp] theorem Thread.setReg_taken (t : Thread) (r : Nat) (v : RV) : (t.setReg r v).taken = t.taken := rfl
@[simp] theorem Thread.setReg_skid (t : Thread) (r : Nat) (v : RV) : (t.setReg r v).skid = t.skid := rfl
@[simp] theorem Thread.setReg_issued (t : Thread) (r : Nat) (v : RV) : (t.setReg r v).issued = t.issued := rfl
@[simp] theorem Thread.setReg_joined (t : Thread) (r : Nat) (v : RV) : (t.setReg r v).joined = t.joined := rfl

theorem Thread.setRegs_frame (rs : List RV) (t : Thread) (r : Nat) : t.setRegs r rs = { t with regs := (t.setRegs r rs).regs } := by
  induction rs generalizing t r with
  | nil => rfl
  | cons v vs ih => simp only [Thread.setRegs]; rw [ih]; rfl

@[simp] theorem Thread.setRegs_ref (t : Thread) (r : Nat) (rs : List RV) : (t.setRegs r rs).ref = t.ref := by
  rw [Thread.setRegs_frame]
@[simp] theorem Thread.setRegs_helper (t : Thread) (r : Nat) (rs : List RV) : (t.setRegs r rs).helper = t.helper := by
  rw [Thread.setRegs_frame]
@[simp] theorem Thread.setRegs_preds (t : Thread) (r : Nat) (rs : List RV) : (t.setRegs r rs).preds = t.preds := by
  rw [Thread.setRegs_frame]
@[simp] theorem Thread.setRegs_pc (t : Thread) (r : Nat) (rs : List RV) : (t.setRegs r rs).pc = t.pc := by
  rw [Thread.setRegs_frame]
@[simp] theorem Thread.setRegs_wait (t : Thread) (r : Nat) (rs : List RV) : (t.setRegs r rs).wait = t.wait := by
  rw [Thread.setRegs_frame]
@[simp] theorem Thread.setRegs_fltCause (t : Thread) (r : Nat) (rs : List RV) : (t.setRegs r rs).fltCause = t.fltCause := by
  rw [Thread.setRegs_frame]
@[simp] theorem Thread.setRegs_fltPc (t : Thread) (r : Nat) (rs : List RV) : (t.setRegs r rs).fltPc = t.fltPc := by
  rw [Thread.setRegs_frame]
@[simp] theorem Thread.setRegs_fltMask (t : Thread) (r : Nat) (rs : List RV) : (t.setRegs r rs).fltMask = t.fltMask := by
  rw [Thread.setRegs_frame]
@[simp] theorem Thread.setRegs_fltInst (t : Thread) (r : Nat) (rs : List RV) : (t.setRegs r rs).fltInst = t.fltInst := by
  rw [Thread.setRegs_frame]
@[simp] theorem Thread.setRegs_fltAddr (t : Thread) (r : Nat) (rs : List RV) : (t.setRegs r rs).fltAddr = t.fltAddr := by
  rw [Thread.setRegs_frame]
@[simp] theorem Thread.setRegs_fltSub (t : Thread) (r : Nat) (rs : List RV) : (t.setRegs r rs).fltSub = t.fltSub := by
  rw [Thread.setRegs_frame]
@[simp] theorem Thread.setRegs_fltExc (t : Thread) (r : Nat) (rs : List RV) : (t.setRegs r rs).fltExc = t.fltExc := by
  rw [Thread.setRegs_frame]
@[simp] theorem Thread.setRegs_utvec (t : Thread) (r : Nat) (rs : List RV) : (t.setRegs r rs).utvec = t.utvec := by
  rw [Thread.setRegs_frame]
@[simp] theorem Thread.setRegs_ften (t : Thread) (r : Nat) (rs : List RV) : (t.setRegs r rs).ften = t.ften := by
  rw [Thread.setRegs_frame]
@[simp] theorem Thread.setRegs_frm (t : Thread) (r : Nat) (rs : List RV) : (t.setRegs r rs).frm = t.frm := by
  rw [Thread.setRegs_frame]
@[simp] theorem Thread.setRegs_uctl (t : Thread) (r : Nat) (rs : List RV) : (t.setRegs r rs).uctl = t.uctl := by
  rw [Thread.setRegs_frame]
@[simp] theorem Thread.setRegs_resume (t : Thread) (r : Nat) (rs : List RV) : (t.setRegs r rs).resume = t.resume := by
  rw [Thread.setRegs_frame]
@[simp] theorem Thread.setRegs_written (t : Thread) (r : Nat) (rs : List RV) : (t.setRegs r rs).written = t.written := by
  rw [Thread.setRegs_frame]
@[simp] theorem Thread.setRegs_handlerActive (t : Thread) (r : Nat) (rs : List RV) : (t.setRegs r rs).handlerActive = t.handlerActive := by
  rw [Thread.setRegs_frame]
@[simp] theorem Thread.setRegs_fltDst (t : Thread) (r : Nat) (rs : List RV) : (t.setRegs r rs).fltDst = t.fltDst := by
  rw [Thread.setRegs_frame]
@[simp] theorem Thread.setRegs_subst (t : Thread) (r : Nat) (rs : List RV) : (t.setRegs r rs).subst = t.subst := by
  rw [Thread.setRegs_frame]
@[simp] theorem Thread.setRegs_ops (t : Thread) (r : Nat) (rs : List RV) : (t.setRegs r rs).ops = t.ops := by
  rw [Thread.setRegs_frame]
@[simp] theorem Thread.setRegs_drover (t : Thread) (r : Nat) (rs : List RV) : (t.setRegs r rs).drover = t.drover := by
  rw [Thread.setRegs_frame]
@[simp] theorem Thread.setRegs_release (t : Thread) (r : Nat) (rs : List RV) : (t.setRegs r rs).release = t.release := by
  rw [Thread.setRegs_frame]
@[simp] theorem Thread.setRegs_latch (t : Thread) (r : Nat) (rs : List RV) : (t.setRegs r rs).latch = t.latch := by
  rw [Thread.setRegs_frame]
@[simp] theorem Thread.setRegs_yielded (t : Thread) (r : Nat) (rs : List RV) : (t.setRegs r rs).yielded = t.yielded := by
  rw [Thread.setRegs_frame]
@[simp] theorem Thread.setRegs_lastIssue (t : Thread) (r : Nat) (rs : List RV) : (t.setRegs r rs).lastIssue = t.lastIssue := by
  rw [Thread.setRegs_frame]
@[simp] theorem Thread.setRegs_inhand (t : Thread) (r : Nat) (rs : List RV) : (t.setRegs r rs).inhand = t.inhand := by
  rw [Thread.setRegs_frame]
@[simp] theorem Thread.setRegs_taken (t : Thread) (r : Nat) (rs : List RV) : (t.setRegs r rs).taken = t.taken := by
  rw [Thread.setRegs_frame]
@[simp] theorem Thread.setRegs_skid (t : Thread) (r : Nat) (rs : List RV) : (t.setRegs r rs).skid = t.skid := by
  rw [Thread.setRegs_frame]
@[simp] theorem Thread.setRegs_issued (t : Thread) (r : Nat) (rs : List RV) : (t.setRegs r rs).issued = t.issued := by
  rw [Thread.setRegs_frame]
@[simp] theorem Thread.setRegs_joined (t : Thread) (r : Nat) (rs : List RV) : (t.setRegs r rs).joined = t.joined := by
  rw [Thread.setRegs_frame]

theorem Thread.setPred_frame (t : Thread) (k : KIx) (b : Bool) : t.setPred k b = { t with preds := (t.setPred k b).preds } := by
  unfold Thread.setPred; split <;> rfl

@[simp] theorem Thread.setPred_ref (t : Thread) (k : KIx) (b : Bool) : (t.setPred k b).ref = t.ref := by
  rw [Thread.setPred_frame]
@[simp] theorem Thread.setPred_helper (t : Thread) (k : KIx) (b : Bool) : (t.setPred k b).helper = t.helper := by
  rw [Thread.setPred_frame]
@[simp] theorem Thread.setPred_regs (t : Thread) (k : KIx) (b : Bool) : (t.setPred k b).regs = t.regs := by
  rw [Thread.setPred_frame]
@[simp] theorem Thread.setPred_pc (t : Thread) (k : KIx) (b : Bool) : (t.setPred k b).pc = t.pc := by
  rw [Thread.setPred_frame]
@[simp] theorem Thread.setPred_wait (t : Thread) (k : KIx) (b : Bool) : (t.setPred k b).wait = t.wait := by
  rw [Thread.setPred_frame]
@[simp] theorem Thread.setPred_fltCause (t : Thread) (k : KIx) (b : Bool) : (t.setPred k b).fltCause = t.fltCause := by
  rw [Thread.setPred_frame]
@[simp] theorem Thread.setPred_fltPc (t : Thread) (k : KIx) (b : Bool) : (t.setPred k b).fltPc = t.fltPc := by
  rw [Thread.setPred_frame]
@[simp] theorem Thread.setPred_fltMask (t : Thread) (k : KIx) (b : Bool) : (t.setPred k b).fltMask = t.fltMask := by
  rw [Thread.setPred_frame]
@[simp] theorem Thread.setPred_fltInst (t : Thread) (k : KIx) (b : Bool) : (t.setPred k b).fltInst = t.fltInst := by
  rw [Thread.setPred_frame]
@[simp] theorem Thread.setPred_fltAddr (t : Thread) (k : KIx) (b : Bool) : (t.setPred k b).fltAddr = t.fltAddr := by
  rw [Thread.setPred_frame]
@[simp] theorem Thread.setPred_fltSub (t : Thread) (k : KIx) (b : Bool) : (t.setPred k b).fltSub = t.fltSub := by
  rw [Thread.setPred_frame]
@[simp] theorem Thread.setPred_fltExc (t : Thread) (k : KIx) (b : Bool) : (t.setPred k b).fltExc = t.fltExc := by
  rw [Thread.setPred_frame]
@[simp] theorem Thread.setPred_utvec (t : Thread) (k : KIx) (b : Bool) : (t.setPred k b).utvec = t.utvec := by
  rw [Thread.setPred_frame]
@[simp] theorem Thread.setPred_ften (t : Thread) (k : KIx) (b : Bool) : (t.setPred k b).ften = t.ften := by
  rw [Thread.setPred_frame]
@[simp] theorem Thread.setPred_frm (t : Thread) (k : KIx) (b : Bool) : (t.setPred k b).frm = t.frm := by
  rw [Thread.setPred_frame]
@[simp] theorem Thread.setPred_uctl (t : Thread) (k : KIx) (b : Bool) : (t.setPred k b).uctl = t.uctl := by
  rw [Thread.setPred_frame]
@[simp] theorem Thread.setPred_resume (t : Thread) (k : KIx) (b : Bool) : (t.setPred k b).resume = t.resume := by
  rw [Thread.setPred_frame]
@[simp] theorem Thread.setPred_written (t : Thread) (k : KIx) (b : Bool) : (t.setPred k b).written = t.written := by
  rw [Thread.setPred_frame]
@[simp] theorem Thread.setPred_handlerActive (t : Thread) (k : KIx) (b : Bool) : (t.setPred k b).handlerActive = t.handlerActive := by
  rw [Thread.setPred_frame]
@[simp] theorem Thread.setPred_fltDst (t : Thread) (k : KIx) (b : Bool) : (t.setPred k b).fltDst = t.fltDst := by
  rw [Thread.setPred_frame]
@[simp] theorem Thread.setPred_subst (t : Thread) (k : KIx) (b : Bool) : (t.setPred k b).subst = t.subst := by
  rw [Thread.setPred_frame]
@[simp] theorem Thread.setPred_ops (t : Thread) (k : KIx) (b : Bool) : (t.setPred k b).ops = t.ops := by
  rw [Thread.setPred_frame]
@[simp] theorem Thread.setPred_drover (t : Thread) (k : KIx) (b : Bool) : (t.setPred k b).drover = t.drover := by
  rw [Thread.setPred_frame]
@[simp] theorem Thread.setPred_release (t : Thread) (k : KIx) (b : Bool) : (t.setPred k b).release = t.release := by
  rw [Thread.setPred_frame]
@[simp] theorem Thread.setPred_latch (t : Thread) (k : KIx) (b : Bool) : (t.setPred k b).latch = t.latch := by
  rw [Thread.setPred_frame]
@[simp] theorem Thread.setPred_yielded (t : Thread) (k : KIx) (b : Bool) : (t.setPred k b).yielded = t.yielded := by
  rw [Thread.setPred_frame]
@[simp] theorem Thread.setPred_lastIssue (t : Thread) (k : KIx) (b : Bool) : (t.setPred k b).lastIssue = t.lastIssue := by
  rw [Thread.setPred_frame]
@[simp] theorem Thread.setPred_inhand (t : Thread) (k : KIx) (b : Bool) : (t.setPred k b).inhand = t.inhand := by
  rw [Thread.setPred_frame]
@[simp] theorem Thread.setPred_taken (t : Thread) (k : KIx) (b : Bool) : (t.setPred k b).taken = t.taken := by
  rw [Thread.setPred_frame]
@[simp] theorem Thread.setPred_skid (t : Thread) (k : KIx) (b : Bool) : (t.setPred k b).skid = t.skid := by
  rw [Thread.setPred_frame]
@[simp] theorem Thread.setPred_issued (t : Thread) (k : KIx) (b : Bool) : (t.setPred k b).issued = t.issued := by
  rw [Thread.setPred_frame]
@[simp] theorem Thread.setPred_joined (t : Thread) (k : KIx) (b : Bool) : (t.setPred k b).joined = t.joined := by
  rw [Thread.setPred_frame]

end Sys2Proof.Machine
end

