-- ==== Sys2Proof/Laws/Values.lean ====
section
/-! SUPPORT. Values as elements and as registers (03 R46, R55, 00 R4). -/

namespace Sys2Proof.Machine

theorem elemW_pos (g : Tag) : 0 < elemW g := by cases g <;> decide

/-- An element of joined elements. -/
theorem joinW_elem (w : Nat) (xs : List Nat) (i : Nat) : joinW w xs / 2 ^ (w * i) % 2 ^ w = xs.getD i 0 % 2 ^ w := by
  induction xs generalizing i with
  | nil => simp [joinW]
  | cons x xs ih =>
    have hp : 0 < 2 ^ w := by positivity
    cases i with
    | zero => simp [joinW, Nat.add_mul_mod_self_left]
    | succ i =>
      have h1 : (x % 2 ^ w + 2 ^ w * joinW w xs) / 2 ^ w = joinW w xs := by
        rw [Nat.add_mul_div_left _ _ hp, Nat.div_eq_of_lt (Nat.mod_lt _ hp), Nat.zero_add]
      rw [joinW, show w * (i + 1) = w + w * i by ring, Nat.pow_add, ← Nat.div_div_eq_div_mul, h1, ih]
      simp

/-- The elements of a value joined from `elemN` elements. -/
theorem elems_join (g : Tag) (xs : List Nat) (h : xs.length = elemN g) :
    elems g (join g xs) = xs.map fun x => x % 2 ^ elemW g := by
  refine List.ext_getElem? fun i => ?_
  unfold elems join
  by_cases hi : i < elemN g
  · have hx : i < xs.length := by omega
    simp [hi, hx, joinW_elem]
  · have hx : ¬ i < xs.length := by omega
    simp [hi, hx]

theorem elems_length (g : Tag) (v : Nat) : (elems g v).length = elemN g := by simp [elems]

/-- The elements of a packed operation's result. -/
theorem elems_packI (g : Tag) (op : Nat → Nat → Nat → Nat) (x y : Nat) :
    elems g (packI g op x y) = (elems g x).zipWith (fun a b => op (elemW g) a b % 2 ^ elemW g) (elems g y) := by
  rw [packI, elems_join _ _ (by simp [elems_length]), List.map_zipWith]

theorem elems_packI1 (g : Tag) (op : Nat → Nat → Nat) (x : Nat) :
    elems g (packI1 g op x) = (elems g x).map fun a => op (elemW g) a % 2 ^ elemW g := by
  rw [packI1, elems_join _ _ (by simp [elems_length]), List.map_map]; rfl

/-- Elements count only modulo their width. -/
theorem join_mod (g : Tag) (xs : List Nat) : join g (xs.map fun x => x % 2 ^ elemW g) = join g xs := by
  unfold join
  induction xs with
  | nil => rfl
  | cons x xs ih => simp [joinW, ih]

/-! ### Registers -/

theorem Thread.reg_setReg (t : Thread) (r x : Nat) (v : RV) :
    (t.setReg r v).reg x = if x = r ∧ r < t.regs.length then v else t.reg x := by
  unfold Thread.reg Thread.setReg
  by_cases h : x = r <;> by_cases hr : r < t.regs.length <;> simp [h, hr, List.getD, List.getElem?_set] <;> grind

@[simp] theorem Thread.setReg_length (t : Thread) (r : Nat) (v : RV) : (t.setReg r v).regs.length = t.regs.length := by
  simp [Thread.setReg]

@[simp] theorem Thread.setRegs_length (t : Thread) (r : Nat) (vs : List RV) : (t.setRegs r vs).regs.length = t.regs.length := by
  induction vs generalizing t r with
  | nil => rfl
  | cons v vs ih => simp [Thread.setRegs, ih]

/-- A register after consecutive ones were written; those past the last do not exist. -/
theorem Thread.reg_setRegs (t : Thread) (r x : Nat) (vs : List RV) :
    (t.setRegs r vs).reg x = if r ≤ x ∧ x < r + vs.length ∧ x < t.regs.length then vs.getD (x - r) rv0 else t.reg x := by
  induction vs generalizing t r with
  | nil =>
    have : ¬ (r ≤ x ∧ x < r) := by omega
    simp [Thread.setRegs]; omega
  | cons v vs ih =>
    rw [Thread.setRegs, ih, Thread.reg_setReg]
    simp only [Thread.setReg_length, List.length_cons]
    by_cases h1 : x = r
    · subst h1
      by_cases h2 : x < t.regs.length <;> simp [h2]
    · by_cases h2 : r + 1 ≤ x
      · have h3 : x - r = (x - (r + 1)) + 1 := by omega
        have h4 : r ≤ x := by omega
        simp only [h1, h2, h4, h3, List.getD_cons_succ]
        congr 1
        simp
        omega
      · have h4 : ¬ r ≤ x := by omega
        simp [h1, h2, h4]

/-- Writing registers changes nothing of a thread but its registers. -/
theorem Thread.setRegs_rest (t : Thread) (r : Nat) (vs : List RV) : t.setRegs r vs = { t with regs := (t.setRegs r vs).regs } := by
  induction vs generalizing t r with
  | nil => rfl
  | cons v vs ih => rw [Thread.setRegs, ih]; rfl

end Sys2Proof.Machine
end

