-- ==== Sys2Proof/Laws/Word.lean ====
section
/-! SUPPORT. What a chain of one word does in one lane, once for every word (04 R74-R76). -/

namespace Sys2Proof.Machine

@[simp] theorem Mach.log_none (m : Mach) : m.log none = m := rfl

/-- A trace record changes nothing but the buffer and the count of records. -/
theorem Mach.log_rest (m : Mach) (r : Option (DWord × Word × Nat)) :
    m.log r = { m with trace := (m.log r).trace, mem := (m.log r).mem } := by cases r <;> rfl

theorem Mach.log_mem {m : Mach} (r : Option (DWord × Word × Nat)) (hw : m.mem.wf = true) {a : Nat}
    (ha : ¬ (m.traceAt ≤ a ∧ a < m.traceAt + 16)) : (m.log r).mem.get a = m.mem.get a := by
  cases r with
  | none => rfl
  | some r =>
    show (m.mem.write _ _).get a = _
    rw [Memory.get_write _ _ _ hw, if_neg]
    simpa [leBytes] using ha

theorem find_map_of_ref (ts : List Thread) (f : Thread → Thread) (hf : ∀ x, (f x).ref = x.ref) (u : TRef) :
    (ts.map f).find? (fun x => x.ref == u) = (ts.find? fun x => x.ref == u).map f := by
  induction ts with
  | nil => rfl
  | cons x xs ih =>
    simp only [List.map_cons, List.find?_cons, hf]
    cases h : x.ref == u <;> simp [ih]

/-- Reading a thread after an update of one. -/
theorem Mach.thread?_updThread (m : Mach) (r u : TRef) (f : Thread → Thread) (hf : ∀ x, (f x).ref = x.ref) :
    (m.updThread r f).thread? u = if u = r then (m.thread? u).map f else m.thread? u := by
  unfold Mach.thread? Mach.updThread
  simp only
  rw [find_map_of_ref _ _ (by intro x; split <;> simp [hf])]
  cases h : m.threads.find? fun x => x.ref == u with
  | none => simp
  | some x =>
    have hx : x.ref = u := by simpa using List.find?_some h
    by_cases hu : u = r
    · simp [hu, hx]
    · simp [hu, hx]

/-- Reading a thread after lanes have gone on. -/
theorem Mach.thread?_advance (m : Mach) (r u : TRef) (size : Nat) :
    (m.advance [r] (m.wordAddr size)).thread? u = if u = r then (m.thread? u).map fun x => x.onward m size else m.thread? u := by
  unfold Mach.thread? Mach.advance
  simp only
  rw [find_map_of_ref _ _ (by intro x; split <;> simp)]
  cases h : m.threads.find? fun x => x.ref == u with
  | none => simp
  | some x =>
    have hx : x.ref = u := by simpa using List.find?_some h
    by_cases hu : u = r
    · simp [hu, hx, Thread.onward]
    · simp [hu, hx]

/-- A chain's bundle changes nothing but its group's bundles. -/
theorem Mach.rebundle_frame (m : Mach) (a b : List TRef) : m.rebundle a b = { m with groups := (m.rebundle a b).groups } := rfl

theorem Mach.rebundle_groups (m : Mach) (a b : List TRef) :
    ((m.rebundle a b).groups.map fun g => { g with bundles := [] }) = m.groups.map fun g => { g with bundles := [] } := by
  simp only [Mach.rebundle, Mach.updGroup, List.map_map]
  refine List.map_congr_left fun g _ => ?_
  simp only [Function.comp]
  split <;> rfl

theorem Mach.countIssue_nil (m : Mach) : m.countIssue [] = m := by simp [Mach.countIssue]

/-- A chain that has issued and stopped in some lanes, read in one thread. -/
theorem Mach.thread?_countIssue (m : Mach) (rs : List TRef) (u : TRef) :
    (m.countIssue rs).thread? u
      = if rs.contains u then (m.thread? u).map fun x => x.stopped m else m.thread? u := by
  unfold Mach.thread? Mach.countIssue
  simp only
  rw [find_map_of_ref _ _ (by intro x; split <;> simp)]
  cases h : m.threads.find? fun x => x.ref == u with
  | none => simp
  | some x =>
    have hx : x.ref = u := by simpa using List.find?_some h
    by_cases hu : u ∈ rs <;> simp [hu, hx, Thread.stopped]

/-- No report falls due in a team without a pending fault. -/
theorem Mach.skidReport_quiet {m : Mach} {tm : Team} (h : m.team? m.cur.team = some tm) (hq : tm.known = []) :
    m.skidReport = m := by
  simp [Mach.skidReport, h, hq]

theorem Mach.joinWalks_pass (m : Mach) (w : WordSem) (vs : List (Thread × Verdict)) (h : ∀ p ∈ vs, ∃ fs, p.2 = .pass fs) :
    m.joinWalks [w] vs = vs := by
  unfold Mach.joinWalks
  split
  · rfl
  · conv => rhs; rw [← List.map_id vs]
    refine List.map_congr_left fun p hp => ?_
    obtain ⟨fs, hfs⟩ := h p hp
    simp [hfs]

/-- The verdicts of a chain of one word that passes in every lane. -/
theorem verdicts_pass {s : State} {tm : Team} (h : Issues s tm) {w : WordSem} {f : Thread → Mach → Mach}
    (hb : staticBad s.m tm w.instr = false) (hf : ∀ th ∈ s.m.bundle, w.lane s.m s.m.bundle th = .ok (f th)) :
    verdicts [w] s.m = s.m.bundle.map fun th => (th, .pass [f th]) := by
  have hs : ∀ t0, firstStatic s.m tm t0 [] [w] = none := by simp [firstStatic, hb]
  have hv : ∀ th ∈ s.m.bundle, verdictOf s.m tm s.m.bundle [w] none th = .pass [f th] := by
    intro th hth
    simp [verdictOf, h.whole th hth, judge, wordOut, hf th hth]
  have hm : (s.m.bundle.map fun t => (t, verdictOf s.m tm s.m.bundle [w] none t))
      = s.m.bundle.map fun th => (th, Verdict.pass [f th]) :=
    List.map_congr_left fun th hth => by rw [hv th hth]
  have hst : (match s.m.bundle with | t0 :: _ => firstStatic s.m tm t0 [] [w] | [] => none) = none := by
    split <;> simp [hs]
  unfold verdicts
  simp only [h.team]
  refine (congrArg (s.m.joinWalks [w]) (Eq.trans ?_ hm)).trans (Mach.joinWalks_pass _ _ _ ?_)
  · exact congrArg (fun o => s.m.bundle.map fun t => (t, verdictOf s.m tm s.m.bundle [w] o t)) hst
  · intro p hp
    obtain ⟨th, _, rfl⟩ := List.mem_map.1 hp
    exact ⟨_, rfl⟩

/-- A chain of one word answers a next state; in TRACE its record is appended. -/
theorem runWord_trace (w : WordSem) (s : State) : ∃ tr, (s.sys.debug ≠ .trace → tr = none) ∧
    runWord w s = .next { s with m := (runChain [w] w.instr.size s.m).log tr } := by
  by_cases ht : s.sys.debug = .trace
  · unfold runWord runChainIn
    simp only [ht, beq_self_eq_true, if_true]
    by_cases he : (traceOf [w] s.m).1.isEmpty = true
    · exact ⟨none, fun _ => rfl, by simp [he]⟩
    · exact ⟨some _, fun h => absurd rfl h, by simp only [he]; rfl⟩
  · refine ⟨none, fun _ => rfl, ?_⟩
    unfold runWord runChainIn
    simp [ht]

/-- A word that passes in every lane: its effects in the advanced lanes, in order, then what it does once, then the bundle. -/
theorem runWord_pass {s : State} {tm : Team} (h : Issues s tm) {w : WordSem} {f : Thread → Mach → Mach}
    (hb : staticBad s.m tm w.instr = false) (hf : ∀ th ∈ s.m.bundle, w.lane s.m s.m.bundle th = .ok (f th)) :
    ∃ tr, (s.sys.debug ≠ .trace → tr = none) ∧ runWord w s = .next { s with
      m := (((w.once s.m.bundle (s.m.bundle.foldl (fun m th => f th m)
            (s.m.advance (refs s.m.bundle) (s.m.wordAddr w.instr.size)))).rebundle (refs s.m.bundle) []).skidReport).log tr } := by
  have hv := verdicts_pass h hb hf
  have hnot : ∀ t ∈ s.m.bundle, s.m.replaced t w.off = false := fun t ht => by simp [Mach.replaced, h.whole t ht]
  have hrep : s.m.bundle.filter (fun t => !s.m.replaced t w.off) = s.m.bundle :=
    List.filter_eq_self.2 fun t ht => by simp [hnot t ht]
  have hsome : ¬ ∀ t ∈ s.m.bundle, s.m.replaced t w.off = true := fun ha => by
    obtain ⟨t, ht⟩ := List.exists_mem_of_ne_nil _ h.lanes
    simpa [hnot t ht] using ha t ht
  have hr : runChain [w] w.instr.size s.m =
      ((w.once s.m.bundle (s.m.bundle.foldl (fun m th => f th m)
            (s.m.advance (refs s.m.bundle) (s.m.wordAddr w.instr.size)))).rebundle (refs s.m.bundle) []).skidReport := by
    unfold runChain
    simp only [h.team, hv]
    cases hc : w.ctl <;>
      simp [applyChain, applyWord, hc, takeTraps, parksOf, parkLanes, startWalks, List.foldl_map, List.filter_map,
        Function.comp_def, hrep, hsome, refs, h.lanes, Mach.countIssue_nil]
  obtain ⟨tr, ht, hw⟩ := runWord_trace w s
  exact ⟨tr, ht, by rw [hw, hr]⟩

/-- Updates of different threads, one after another. -/
theorem thread?_updAll (ts : List Thread) (g : Thread → Thread → Thread) (hg : ∀ th x, (g th x).ref = x.ref) (m : Mach)
    (hn : (refs ts).Nodup) (u : TRef) :
    (ts.foldl (fun m th => m.updThread th.ref (g th)) m).thread? u
      = match ts.find? fun th => th.ref == u with | some th => (m.thread? u).map (g th) | none => m.thread? u := by
  induction ts generalizing m with
  | nil => rfl
  | cons a as ih =>
    obtain ⟨ha, has⟩ := List.nodup_cons.1 hn
    rw [List.foldl_cons, ih _ has, List.find?_cons, Mach.thread?_updThread _ _ _ _ (hg a)]
    by_cases hu : a.ref = u
    · subst hu
      have hnone : as.find? (fun th => th.ref == a.ref) = none := by
        refine List.find?_eq_none.2 fun x hx hxa => ha ?_
        have e : x.ref = a.ref := by simpa using hxa
        exact List.mem_map.2 ⟨x, hx, e⟩
      simp [hnone]
    · have h1 : (a.ref == u) = false := by simpa using hu
      have h2 : ¬ u = a.ref := fun h => hu h.symm
      simp [h1, h2]

theorem updAll_rest (ts : List Thread) (g : Thread → Thread → Thread) (m : Mach) :
    ts.foldl (fun m th => m.updThread th.ref (g th)) m
      = { m with threads := (ts.foldl (fun m th => m.updThread th.ref (g th)) m).threads } := by
  induction ts generalizing m with
  | nil => rfl
  | cons a as ih =>
    rw [List.foldl_cons, ih]
    rfl

/-- Reading a thread after the lanes of a bundle have gone on. -/
theorem Mach.thread?_goOn (m : Mach) (rs : List TRef) (u : TRef) (size : Nat) :
    (m.advance rs (m.wordAddr size)).thread? u
      = if rs.contains u then (m.thread? u).map fun x => x.onward m size else m.thread? u := by
  unfold Mach.thread? Mach.advance
  simp only
  rw [find_map_of_ref _ _ (by intro x; split <;> simp)]
  cases h : m.threads.find? fun x => x.ref == u with
  | none => simp
  | some x =>
    have hx : x.ref = u := by simpa using List.find?_some h
    by_cases hu : u ∈ rs <;> simp [hu, hx, Thread.onward]

/-- Reading a lane of the bundle. -/
theorem bundle_find {s : State} {tm : Team} (h : Issues s tm) {th : Thread} (hth : th ∈ s.m.bundle) :
    s.m.bundle.find? (fun x => x.ref == th.ref) = some th := by
  rcases hfd : s.m.bundle.find? (fun x => x.ref == th.ref) with _ | y
  · exact absurd (List.find?_eq_none.1 hfd th hth) (by simp)
  · have hyr : y.ref = th.ref := by simpa using List.find?_some hfd
    have := h.named y (List.mem_of_find?_eq_some hfd)
    rw [hyr, h.named th hth] at this
    exact (Option.some.inj this) ▸ hfd

/-- What a word does once leaves everything but its group's preference. -/
def OnlyPref (o : Mach → Mach) : Prop :=
  ∀ m, ∃ p : Group → Option Word × Nat,
    o m = m.updGroup m.cur.team m.cur.group fun g => { g with pref := (p g).1, prefClk := (p g).2 }

theorem onlyPref_id : OnlyPref fun m => m := fun m => ⟨fun g => (g.pref, g.prefClk), by simp [Mach.updGroup]⟩

/-- The machine after updates of the bundle's threads, each from what `m0` made of it. -/
theorem becomes_core {s : State} {tm : Team} (h : Issues s tm) {i : Instr} {g : Thread → Thread → Thread}
    (hg : ∀ th x, (g th x).ref = x.ref) {f : Thread → Thread} {m0 : Mach} {a b : List TRef} {o : Mach → Mach}
    {tr : Option (DWord × Word × Nat)} (ht : s.sys.debug ≠ .trace → tr = none) (h0 : m0 = { s.m with threads := m0.threads })
    (hin : ∀ th ∈ s.m.bundle, m0.thread? th.ref = some (f th))
    (hout : ∀ u, (∀ th ∈ s.m.bundle, th.ref ≠ u) → m0.thread? u = s.m.thread? u) (ho : OnlyPref o)
    (he : exec i s = .next { s with m :=
      (((o (s.m.bundle.foldl (fun m th => m.updThread th.ref (g th)) m0)).rebundle a b).skidReport).log tr }) :
    Becomes i s fun th => g th (f th) := by
  have hn := h.apart
  have hrest := updAll_rest s.m.bundle g m0
  generalize hm : s.m.bundle.foldl (fun m th => m.updThread th.ref (g th)) m0 = m1 at he hrest
  obtain ⟨p, hp⟩ := ho m1
  rw [hp] at he
  have hteam : ((m1.updGroup m1.cur.team m1.cur.group fun g => { g with pref := (p g).1, prefClk := (p g).2 }).rebundle a b).team?
      ((m1.updGroup m1.cur.team m1.cur.group fun g => { g with pref := (p g).1, prefClk := (p g).2 }).rebundle a b).cur.team = some tm := by
    rw [hrest, h0]; exact h.team
  rw [Mach.skidReport_quiet hteam h.quiet] at he
  generalize hM : (m1.updGroup m1.cur.team m1.cur.group fun g => { g with pref := (p g).1, prefClk := (p g).2 }).rebundle a b = M at he
  have hgs : M.groups = ((m1.updGroup m1.cur.team m1.cur.group fun g => { g with pref := (p g).1, prefClk := (p g).2 }).rebundle a b).groups := by
    rw [hM]
  have hts : M.threads = m1.threads := by rw [← hM]; rfl
  have hmem : M.mem = s.m.mem := by rw [← hM, hrest, h0]; rfl
  have hat : M.traceAt = s.m.traceAt := by rw [← hM, hrest, h0]; rfl
  have hall : M = { s.m with threads := M.threads, groups := M.groups } := by rw [← hM, hrest, h0]; rfl
  have hlt : (M.log tr).threads = m1.threads := by rw [Mach.log_rest]; exact hts
  refine ⟨_, he, ⟨?_, ?_, ?_, ?_, ?_⟩, ?_⟩
  · show ({ s with m := M.log tr } : State) = { s with m := { s.m with
      threads := (M.log tr).threads, groups := (M.log tr).groups, trace := (M.log tr).trace, mem := (M.log tr).mem } }
    refine congrArg (fun x => ({ s with m := x } : State)) ?_
    generalize M.threads = ts at hall
    generalize M.groups = gs at hall
    subst hall
    cases tr <;> rfl
  · intro u hu
    show (M.log tr).threads.find? _ = _
    rw [hlt]
    show m1.thread? u = _
    rw [← hm, thread?_updAll _ _ hg _ hn, List.find?_eq_none.2 fun x hx hxu => hu x hx (by simpa using hxu)]
    exact hout u hu
  · have hlg : (M.log tr).groups = M.groups := by rw [Mach.log_rest]
    simp only [State.seats, hlg, hgs]
    rw [hrest, h0]
    simp only [Mach.rebundle, Mach.updGroup, List.map_map]
    refine List.map_congr_left fun g _ => ?_
    simp only [Function.comp]
    by_cases hc : (g.team == s.m.cur.team && g.index == s.m.cur.group) = true
    · simp only [Bool.and_eq_true, beq_iff_eq] at hc
      simp [hc.1, hc.2, Group.bare]
    · simp [hc]
  · intro hd
    rw [ht hd, Mach.log_none, ← hM, hrest, h0]
    simp [Mach.rebundle, Mach.updGroup]
  · intro x hx
    by_cases hd : s.sys.debug = .trace
    · have hw : s.m.mem.wf = true ∧ ¬ (s.m.traceAt ≤ x ∧ x < s.m.traceAt + 16) := by
        simp only [State.mayTrace, hd, true_and, Classical.not_imp] at hx
        exact hx
      show (M.log tr).mem.get x = s.m.mem.get x
      rw [Mach.log_mem tr (by rw [hmem]; exact hw.1) (by rw [hat]; exact hw.2), hmem]
    · rw [ht hd, Mach.log_none, hmem]
  · intro th hth
    show (M.log tr).threads.find? _ = _
    rw [hlt]
    show m1.thread? th.ref = _
    rw [← hm, thread?_updAll _ _ hg _ hn, bundle_find h hth, hin th hth]
    rfl

/-- A word whose effect is an update of each lane's thread, and of its group's preference. -/
theorem becomes_of_update_pref {s : State} {tm : Team} (h : Issues s tm) {i : Instr} {w : WordSem}
    {g : Thread → Thread → Thread} (he : exec i s = runWord w s) (hb : staticBad s.m tm w.instr = false)
    (ho : ∀ ts, OnlyPref (w.once ts)) (hg : ∀ th x, (g th x).ref = x.ref)
    (hf : ∀ th ∈ s.m.bundle, w.lane s.m s.m.bundle th = .ok fun m => m.updThread th.ref (g th)) :
    Becomes i s fun th => g th (th.onward s.m w.instr.size) := by
  obtain ⟨tr, ht, hr⟩ := runWord_pass h hb hf
  refine becomes_core h hg ht (by rfl) (fun th hth => ?_) (fun u hu => ?_) (ho s.m.bundle) (he.trans hr)
  · rw [Mach.thread?_goOn]
    have h2 : th.ref ∈ refs s.m.bundle := List.mem_map.2 ⟨th, hth, rfl⟩
    simp [h2, h.named th hth]
  · have h2 : u ∉ refs s.m.bundle := by
      intro hmem
      obtain ⟨x, hx, hxu⟩ := List.mem_map.1 hmem
      exact hu x hx hxu
    rw [Mach.thread?_goOn]
    simp [h2]

/-- A word whose effect is an update of each lane's thread. -/
theorem becomes_of_update {s : State} {tm : Team} (h : Issues s tm) {i : Instr} {w : WordSem}
    {g : Thread → Thread → Thread} (he : exec i s = runWord w s) (hb : staticBad s.m tm w.instr = false)
    (ho : w.once = fun _ m => m) (hg : ∀ th x, (g th x).ref = x.ref)
    (hf : ∀ th ∈ s.m.bundle, w.lane s.m s.m.bundle th = .ok fun m => m.updThread th.ref (g th)) :
    Becomes i s fun th => g th (th.onward s.m w.instr.size) :=
  becomes_of_update_pref h he hb (fun _ => ho ▸ onlyPref_id) hg hf

/-- A word that writes registers of each lane. -/
theorem becomes_of_writes {s : State} {tm : Team} (h : Issues s tm) {i : Instr} {w : WordSem}
    {d : Nat} {rs : Thread → List RV} (he : exec i s = runWord w s) (hb : staticBad s.m tm w.instr = false)
    (ho : w.once = fun _ m => m) (hf : ∀ th ∈ s.m.bundle, w.lane s.m s.m.bundle th = .ok (writes th.ref d (rs th))) :
    Becomes i s fun th => (th.onward s.m w.instr.size).setRegs d (rs th) :=
  becomes_of_update h (g := fun th x => x.setRegs d (rs th)) he hb ho (fun _ x => by simp) hf

/-- A word that passes in every lane: its effects in ascending lane order, then what it does once. -/
theorem acts_of_pass {s : State} {tm : Team} (h : Issues s tm) {i : Instr} {w : WordSem} {f : Thread → Mach → Mach}
    (he : exec i s = runWord w s) (hi : w.instr = i) (hb : staticBad s.m tm i = false)
    (hf : ∀ th ∈ s.m.bundle, w.lane s.m s.m.bundle th = .ok (f th)) :
    Acts i s fun m => w.once s.m.bundle (s.m.bundle.foldl (fun m th => f th m) m) := by
  subst hi
  obtain ⟨tr, ht, hr⟩ := runWord_pass h hb hf
  exact ⟨tr, ht, he.trans hr⟩

/-- A word that passes in a lone lane. -/
theorem acts_of_lone {s : State} {tm : Team} {th : Thread} (h : Lone s tm th) {i : Instr} {w : WordSem} {f : Mach → Mach}
    (he : exec i s = runWord w s) (hi : w.instr = i) (hb : staticBad s.m tm i = false)
    (hf : w.lane s.m [th] th = .ok f) : Acts i s fun m => w.once [th] (f m) := by
  have := acts_of_pass (f := fun _ => f) h.issues he hi hb (by
    rw [h.bundle]; intro x hx; rw [List.mem_singleton.1 hx]; exact hf)
  simpa [h.bundle] using this

/-! ### Words that trap (16 R239-R240) -/

/-- What handler entry in a cycle does to a thread. -/
def TrapInfo.into (i : TrapInfo) (clk : Nat) (x : Thread) : Thread := { x with
  fltCause := BitVec.ofNat 32 i.cause, fltPc := i.pc, fltInst := i.inst, fltMask := i.mask, fltAddr := i.addr,
  fltExc := i.exc, fltSub := i.sub, fltDst := i.dst, resume := i.resume, written := false, handlerActive := true,
  subst := none, pc := x.utvec, wait := .ready, joined := clk + 1 }

/-- A lane that can enter its handler enters it. -/
theorem Mach.takeTrap_enters {m : Mach} {t : TRef} {th : Thread} {tm : Team} (hth : m.thread? t = some th)
    (htm : m.team? t.team = some tm) (hc : th.canEnter) (i : TrapInfo) :
    m.takeTrap t i = m.updThread t (i.into m.clk) := by
  obtain ⟨_, hu, ha, hr⟩ := hc
  unfold Mach.takeTrap Mach.enter
  simp only [hth, htm, hr, ha, beq_eq_false_iff_ne.2 hu]
  rfl

/-- Lanes that can enter their handlers enter them one after another, each after what stands although it traps. -/
theorem takeAll_enters (ts : List Thread) (info : Thread → TrapInfo) (p : Thread → Thread → Thread) (pre : Thread → Mach → Mach)
    (hp : ∀ th m, pre th m = m.updThread th.ref (p th)) (hr : ∀ th x, (p th x).ref = x.ref)
    (hk : ∀ th x, x.canEnter → (p th x).canEnter) (tm : Team) (k : Nat) (m : Mach) (hclk : m.clk = k) (hn : (refs ts).Nodup)
    (hth : ∀ th ∈ ts, ∃ y, m.thread? th.ref = some y ∧ y.canEnter) (htm : ∀ th ∈ ts, m.team? th.ref.team = some tm) :
    ts.foldl (fun m th => (pre th m).takeTrap th.ref (info th)) m
      = ts.foldl (fun m th => m.updThread th.ref fun x => (info th).into k (p th x)) m := by
  induction ts generalizing m with
  | nil => rfl
  | cons a as ih =>
    obtain ⟨ha, has⟩ := List.nodup_cons.1 hn
    have hne : ∀ th ∈ as, th.ref ≠ a.ref := fun th h e => ha (List.mem_map.2 ⟨th, h, e⟩)
    obtain ⟨y, hy, hyc⟩ := hth a (by simp)
    have h1 : (m.updThread a.ref (p a)).thread? a.ref = some (p a y) := by
      rw [Mach.thread?_updThread _ _ _ _ (hr a), if_pos rfl, hy]; rfl
    have h2 : (pre a m).takeTrap a.ref (info a) = m.updThread a.ref fun x => (info a).into k (p a x) := by
      rw [hp, Mach.takeTrap_enters h1 (htm a (by simp)) (hk a y hyc)]
      simp only [Mach.updThread, List.map_map, Function.comp_def]
      refine congrArg (fun l => ({ m with threads := l } : Mach)) (List.map_congr_left fun x _ => ?_)
      by_cases hx : x.ref = a.ref <;> simp [hx, hr, hclk]
    rw [List.foldl_cons, List.foldl_cons, h2]
    refine ih _ hclk has (fun th h => ?_) fun th h => ?_
    · rw [Mach.thread?_updThread m a.ref th.ref (fun x => (info a).into k (p a x)) (fun x => hr a x), if_neg (hne th h)]
      exact hth th (by simp [h])
    · exact htm th (by simp [h])

/-- The team of a bundle's threads. -/
theorem bundle_team {m : Mach} {th : Thread} (h : th ∈ m.bundle) : th.ref.team = m.cur.team := by
  obtain ⟨l, _, hl⟩ := List.mem_filterMap.1 h
  have := List.find?_some hl
  simp only [beq_iff_eq] at this
  rw [this]

theorem Mach.joinWalks_trap (m : Mach) (ws : List WordSem) (vs : List (Thread × Verdict))
    (h : ∀ p ∈ vs, ∃ w c a e s f, p.2 = .trap w c a e s f) : m.joinWalks ws vs = vs := by
  unfold Mach.joinWalks
  split
  · rfl
  · conv => rhs; rw [← List.map_id vs]
    refine List.map_congr_left fun p hp => ?_
    obtain ⟨w, c, a, e, s, f, hf⟩ := h p hp
    simp [hf]

/-- The verdicts of a chain of one word that traps in every lane. -/
theorem verdicts_trap {s : State} {tm : Team} (h : Issues s tm) {w : WordSem} {c : Nat} {a : Thread → DWord}
    {e : Thread → Word} {sv : Thread → SubVal} {alt : Thread → Option (Mach → Mach)}
    {pre : Thread → Mach → Mach} (hb : staticBad s.m tm w.instr = false) (hreal : ∀ th ∈ s.m.bundle, th.helper = false)
    (hf : ∀ th ∈ s.m.bundle, w.lane s.m s.m.bundle th = .trap c (a th) (e th) (sv th) (pre th) (alt th)) :
    verdicts [w] s.m = s.m.bundle.map fun th => (th, .trap w c (a th) (e th) (sv th) (pre th)) := by
  have hs : ∀ t0, firstStatic s.m tm t0 [] [w] = none := by simp [firstStatic, hb]
  have hv : ∀ th ∈ s.m.bundle, verdictOf s.m tm s.m.bundle [w] none th = .trap w c (a th) (e th) (sv th) (pre th) := by
    intro th hth
    simp [verdictOf, h.whole th hth, judge, wordOut, hf th hth, hreal th hth]
  have hm : (s.m.bundle.map fun t => (t, verdictOf s.m tm s.m.bundle [w] none t))
      = s.m.bundle.map fun th => (th, Verdict.trap w c (a th) (e th) (sv th) (pre th)) :=
    List.map_congr_left fun th hth => by rw [hv th hth]
  have hst : (match s.m.bundle with | t0 :: _ => firstStatic s.m tm t0 [] [w] | [] => none) = none := by
    split <;> simp [hs]
  unfold verdicts
  simp only [h.team]
  refine (congrArg (s.m.joinWalks [w]) (Eq.trans ?_ hm)).trans (Mach.joinWalks_trap _ _ _ ?_)
  · exact congrArg (fun o => s.m.bundle.map fun t => (t, verdictOf s.m tm s.m.bundle [w] o t)) hst
  · intro p hp
    obtain ⟨th, _, rfl⟩ := List.mem_map.1 hp
    exact ⟨_, _, _, _, _, _, rfl⟩

/-- What a lane of the bundle takes into its handler when every lane traps on the chain's one word. -/
def trapInfo (s : State) (tm : Team) (i : Instr) (c : Nat) (a : DWord) (e : Word) (sv : SubVal) (th : Thread) : TrapInfo := {
  cause := c, pc := s.m.cur.pc, inst := s.m.wordBits 0, mask := maskOf s.m.bundle, addr := a, exc := e, sub := sv
  dst := dstOf s.m tm.regs s.m.bundle th i, resume := s.m.cur.pc }

theorem Mach.advance_nil (m : Mach) (after : DWord) : m.advance [] after = m := by simp [Mach.advance]

/-- A chain of one word that traps in every lane. -/
theorem runChain_trap {s : State} {tm : Team} (h : Issues s tm) {w : WordSem} {c : Nat} {a : Thread → DWord}
    {e : Thread → Word} {sv : Thread → SubVal} {pre : Thread → Mach → Mach} (ho : w.off = 0)
    (hv : verdicts [w] s.m = s.m.bundle.map fun th => (th, Verdict.trap w c (a th) (e th) (sv th) (pre th))) :
    runChain [w] w.instr.size s.m =
      ((s.m.bundle.foldl (fun m th => (pre th m).takeTrap th.ref (trapInfo s tm w.instr c (a th) (e th) (sv th) th))
          (s.m.countIssue (refs s.m.bundle))).rebundle []
        (refs s.m.bundle)).skidReport := by
  have htk : ∀ m, takeTraps s.m tm.regs (s.m.bundle.map fun th => (th, Verdict.trap w c (a th) (e th) (sv th) (pre th))) m =
      s.m.bundle.foldl (fun m th => (pre th m).takeTrap th.ref (trapInfo s tm w.instr c (a th) (e th) (sv th) th)) m := by
    intro m
    unfold takeTraps
    rw [List.foldl_map]
    refine congrArg (fun g => List.foldl g m s.m.bundle) ?_
    funext m th
    simp only [trapInfo]
    rw [List.filter_eq_self.2]
    · simp [Function.comp_def, Mach.wordAddr, ho]
    · intro p hp; obtain ⟨th, _, rfl⟩ := List.mem_map.1 hp; simp
  have hpk : ∀ k m, startWalks tm k (s.m.bundle.map fun th => (th, Verdict.trap w c (a th) (e th) (sv th) (pre th))) m = m := by
    intro k m
    unfold startWalks
    rw [List.foldl_map]
    generalize s.m.bundle = l
    induction l with
    | nil => rfl
    | cons _ _ ih => exact ih
  have hpp : parksOf (s.m.bundle.map fun th => (th, Verdict.trap w c (a th) (e th) (sv th) (pre th))) = [] := by
    unfold parksOf
    rw [List.filterMap_map]
    simp
  unfold runChain
  simp only [h.team, hv]
  rw [List.filter_eq_self.2]
  · simp only [hpk, hpp, htk, parkLanes, List.filterMap_map, Function.comp_def, List.map_map]
    rw [List.filter_eq_self.2 (by intro p hp; obtain ⟨th, _, rfl⟩ := List.mem_map.1 hp; rfl)]
    simp [Mach.advance_nil, refs, Function.comp_def]
  · intro p hp; obtain ⟨th, _, rfl⟩ := List.mem_map.1 hp; rfl

/-- A word that traps in every lane of its bundle: each lane enters its handler, and nothing else changes but what stands although
it traps. -/
theorem becomes_of_trap {s : State} {tm : Team} (h : Issues s tm) {i : Instr} {w : WordSem} {c : Nat} {a : Thread → DWord}
    {e : Thread → Word} {sv : Thread → SubVal} {alt : Thread → Option (Mach → Mach)} {pre : Thread → Mach → Mach}
    {p : Thread → Thread → Thread} (he : exec i s = runWord w s)
    (hi : w.instr = i) (ho : w.off = 0) (hb : staticBad s.m tm i = false) (hc : ∀ th ∈ s.m.bundle, th.canEnter)
    (hf : ∀ th ∈ s.m.bundle, w.lane s.m s.m.bundle th = .trap c (a th) (e th) (sv th) (pre th) (alt th))
    (hp : ∀ th m, pre th m = m.updThread th.ref (p th)) (hr : ∀ th x, (p th x).ref = x.ref)
    (hk : ∀ th x, x.canEnter → (p th x).canEnter) :
    Becomes i s fun th => (trapInfo s tm i c (a th) (e th) (sv th) th).into s.m.clk (p th (th.stopped s.m)) := by
  subst hi
  have hv := verdicts_trap h hb (fun th hth => (hc th hth).1) hf
  have htm : ∀ th ∈ s.m.bundle, s.m.team? th.ref.team = some tm := fun th hth => by rw [bundle_team hth]; exact h.team
  have hrun := runChain_trap h ho hv
  have hmem : ∀ th ∈ s.m.bundle, th.ref ∈ refs s.m.bundle := fun th hth => List.mem_map.2 ⟨th, hth, rfl⟩
  have hnow : ∀ th ∈ s.m.bundle,
      (s.m.countIssue (refs s.m.bundle)).thread? th.ref = some (th.stopped s.m) := fun th hth => by
    rw [Mach.thread?_countIssue]; simp [hmem th hth, h.named th hth]
  rw [takeAll_enters _ _ p pre hp hr hk tm _ _ rfl h.apart (fun th hth => ⟨_, hnow th hth, hc th hth⟩) htm] at hrun
  obtain ⟨tr, ht, hw⟩ := runWord_trace w s
  rw [hrun] at hw
  exact becomes_core h (g := fun th x => (trapInfo s tm w.instr c (a th) (e th) (sv th) th).into s.m.clk (p th x))
    (fun th x => hr th x) ht rfl hnow (fun u hu => by
      have : u ∉ refs s.m.bundle := fun hm => by
        obtain ⟨x, hx, hxu⟩ := List.mem_map.1 hm
        exact hu x hx hxu
      rw [Mach.thread?_countIssue]; simp [this]) onlyPref_id (he.trans hw)

theorem updThread_same (m : Mach) (t : TRef) : m.updThread t (fun x => x) = m := by simp [Mach.updThread]

/-- A word that traps in every lane of its bundle and leaves nothing behind. -/
theorem becomes_of_plain_trap {s : State} {tm : Team} (h : Issues s tm) {i : Instr} {w : WordSem} {c : Nat} {a : Thread → DWord}
    {e : Thread → Word} {sv : Thread → SubVal} {alt : Thread → Option (Mach → Mach)} (he : exec i s = runWord w s)
    (hi : w.instr = i) (ho : w.off = 0) (hb : staticBad s.m tm i = false) (hc : ∀ th ∈ s.m.bundle, th.canEnter)
    (hf : ∀ th ∈ s.m.bundle, w.lane s.m s.m.bundle th = .trap c (a th) (e th) (sv th) id (alt th)) :
    Becomes i s fun th => th.entered s tm i c (a th) (e th) (sv th) :=
  becomes_of_trap h (p := fun _ x => x) he hi ho hb hc hf (fun _ m => (updThread_same m _).symm) (fun _ _ => rfl)
    fun _ _ h => h

/-! ### Operands -/

/-- Fitting operands pass the mould, whichever check comes first. -/
theorem mould_of_fits {t : Thread} {acc : Tag → Bool} {r : Nat} {srcs regs : List Nat} {g : Tag}
    (h : t.Fits acc (r :: srcs) regs g) (first : Bool) : mould acc first (r :: srcs) regs t = .ok g := by
  have hr := (h.same r (by simp)).1
  have ha : regs.all (fun x => x % g.regs == 0) = true := by
    rw [List.all_eq_true]; intro x hx; simpa using h.aligned x hx
  have hs : (r :: srcs).all (fun x => t.tagAt x == g && t.formed x) = true := by
    rw [List.all_eq_true]; intro x hx; obtain ⟨h1, h2⟩ := h.same x hx; simp [h1, h2]
  unfold mould
  simp only [List.headD_cons, hr, h.accepted, ha, hs]
  cases first <;> simp

theorem tag_of_fits {t : Thread} {acc : Tag → Bool} {r : Nat} {srcs regs : List Nat} {g : Tag}
    (h : t.Fits acc (r :: srcs) regs g) : t.tagAt r = g := (h.same r (by simp)).1

end Sys2Proof.Machine
end

