-- ==== Sys2Proof/Tests/Slice0.lean ====
section
/-! SUPPORT. Tests: ill-formed terms, words decoded, one step of an instruction on a small state, and for every statement a state and
operands that meet its hypotheses. Expected results are worked by hand from the rules cited. -/

set_option maxRecDepth 100000

namespace Sys2Proof.Tests

open Sys2Proof.Machine

/-! ### Well-formed terms (03 R47, 04 R87) -/

/-- Each check refuses a term that breaks it alone. -/
theorem test_wf_refuses : ([.acas 5 7 8, .acas 5 6 9, .amo 5 7 9 .add, .apst 7 9 .add, .brx 5, .ret 5, .cvt 5 6 false .rne .raw,
    .cvt 5 6 false .rne .b128, .dcmd 0 8, .dcmd 1 4, .gsr 5 .argp, .gsr 7 .clk, .ssr 4 .lane, .ssr 5 .fltPc, .hrdi 5 6 9,
    .hrdi 4 7 9, .hrda 5 7 9, .hrdw 7 9, .invt (.page 7), .ld 5 6 .normal .i64 0, .ld 8 7 .normal .i64 0, .ld 10 6 .normal .b128 0,
    .ldb 8 6 true .i64 31, .ldb 7 6 true .i64 0, .ldb 8 5 true .i64 0, .st 5 6 .normal .f64 0, .st 4 5 .normal .f64 0,
    .pfch 5 .normal .i32 0, .lnch 5 7, .mov 5 6 .two, .mov 4 6 .four, .unpk 5 6, .qswp 5 6 0, .rtag 5 6 .i64, .rtag 4 6 .b128,
    .scpg 3 4, .scpg 4 6, .svc 0 4, .time 5, .tmma 0 4 6 false none, .tmma 0 8 5 false none, .tld 0 .f32 5, .tst 0 5,
    .trdr 0 4 0, .trdr 0 8 48, .twrr 0 4 0, .twrr 0 8 48, .tscl 0 5, .tspl 0 5 7, .tfch 0 5 7, .waita 1 5 6 .eq none,
    .xadd 5 6 8 .i32 9, .xadd 4 7 8 .i32 9, .xadd 4 6 9 .i32 9, .xadd 4 6 8 .raw 9, .xsub 4 6 8 .f16x2 9, .xmul 4 6 8 .b128 9,
    .xfma 4 6 8 .i32 9, .xmin 4 6 8 .i8x4 9, .xmax 4 6 8 .kn4x8 9, .xfil 4 6 .raw 9, .xfil 5 6 .i32 9, .xfil 4 7 .i64 9,
    .xqry 5 6, .xqry 4 7, .xsht 5 6 8, .xsht 4 7 8, .xsht 4 6 9] : List Instr).all (fun i => !i.wf) = true := by decide

theorem test_wf_accepts : ([.acas 5 6 8, .ld 8 6 .normal .b128 0, .ldb 8 6 true .i64 30, .scpg 4 4, .trdr 0 8 47, .xfil 4 7 .i32 9,
    .xfma 4 6 8 .f32x2 9, .qswp 5 6 1, .gsr 5 .lane, .ssr 4 .utvec, .invt .all] : List Instr).all (fun i => i.wf) = true := by decide

/-! ### Decoding -/

/-- Words of the integer family, bit by bit from the tables of 04 R77-R83 and the opcode table. -/
theorem test_decode_integer : ([
    (0b0_000100_1111111_0000001_1000000_0000, .iaddReg 127 1 64), (0b0_000101_0000101_0000110_11111111111, .iaddImm 5 6 0x7FF),
    (0b0_000100_0000101_0000110_0001001_0001, .isub 5 6 9), (0b0_000100_0000101_0000110_0001001_0010, .imul 5 6 9),
    (0b0_000100_0000101_0000110_0001001_0011, .imulh 5 6 9), (0b0_000100_0000101_0000110_0001001_0100, .imin 5 6 9),
    (0b0_000100_0000101_0000110_0001001_0101, .imax 5 6 9), (0b0_000100_0000101_0000110_00000000110, .iabs 5 6),
    (0b0_001000_0000101_0000110_0001001_0000, .imad 5 6 9), (0b0_0010100000_111_0000110_0001001_1001, .iset 7 6 9 .geu),
    (0b0_000100_0000101_0000110_0001001_0111, .andReg 5 6 9), (0b0_000111_0000101_0000110_00_111111111, .andImm 5 6 0x1FF),
    (0b0_000100_0000101_0000110_0001001_1000, .orReg 5 6 9), (0b0_000111_0000101_0000110_01_100000000, .orImm 5 6 256),
    (0b0_000100_0000101_0000110_0001001_1001, .xorReg 5 6 9), (0b0_000111_0000101_0000110_10_000000001, .xorImm 5 6 1),
    (0b0_000100_0000101_0000110_00000001010, .inot 5 6), (0b0_000100_0000101_0000110_00000001110, .clz 5 6),
    (0b0_000100_0000101_0000110_00000001111, .popc 5 6), (0b0_000100_0000101_0000110_0001001_1011, .shlReg 5 6 9),
    (0b0_000100_0000101_0000110_0001001_1100, .shrReg 5 6 9), (0b0_000100_0000101_0000110_0001001_1101, .shaReg 5 6 9),
    (0b0_000110_0000101_0000110_00000_111111, .shlImm 5 6 63), (0b0_000110_0000101_0000110_01000_000001, .shrImm 5 6 1),
    (0b0_000110_0000101_0000110_10000_100000, .shaImm 5 6 32), (0b0_001001_0000101_0000110_0001001_0000, .bfx 5 6 9),
    (0b0_001001_0000101_0000110_0001001_0001, .bfi 5 6 9), (0b0_001001_0000101_0000110_0001001_0010, .bprm 5 6 9),
    (0b0_001001_0000101_0000110_0001001_1_110, .sel 5 6 9 6)]
    : List (Nat × Instr)).all (fun p => decodeTableWord 32 p.1 == some p.2) = true := by decide

/-- Words of the moves family, bit by bit from the tables of 04 R77-R83 and the opcode table. -/
theorem test_decode_moves : ([
    (0b0_001011_0000100_0001000_00000_10_0000, .mov 4 8 .four), (0b0_001101_0000101_00_1011111011101111, .movh 5 0xBEEF),
    (0b0_001100_0000101_100000000000000001, .movi 5 0x20001 none), (0b0_0000000000000000000000000000000, .nop),
    (0b0_001011_0000100_0001000_000_1100_0001, .rtag 4 8 .b128), (0b0_010101_0000101_0000110_0001001_0000, .pack 5 6 9),
    (0b0_010101_0000100_0000111_00000000001, .unpk 4 7), (0b0_001011_0000110_00000000100000_0010, .gsr 6 .utvec),
    (0b0_001011_0000110_00000000010001_0011, .ssr 6 .fltPc), (0b0_001011_0000110_000000000000000100, .time 6)]
    : List (Nat × Instr)).all (fun p => decodeTableWord 32 p.1 == some p.2) = true := by decide

/-- Words of the float family, bit by bit from the tables of 04 R77-R83 and the opcode table. -/
theorem test_decode_float : ([
    (0b0_010000_0000101_0000110_0001001_0000, .fadd 5 6 9), (0b0_010000_0000101_0000110_0001001_0001, .fsub 5 6 9),
    (0b0_010000_0000101_0000110_0001001_0010, .fmul 5 6 9), (0b0_010000_0000101_0000110_0001001_0011, .fmin 5 6 9),
    (0b0_010000_0000101_0000110_0001001_0100, .fmax 5 6 9), (0b0_010000_0000101_0000110_0001001_0101, .fdiv 5 6 9),
    (0b0_010000_0000101_0000110_00000000110, .fcls 5 6), (0b0_010000_0000101_0000110_0001001_0111, .dot4 5 6 9),
    (0b0_010001_0000101_0000110_0001001_0000, .ffma 5 6 9), (0b0_010010_0000101_0000110_00000000000, .frcp 5 6),
    (0b0_010010_0000101_0000110_00000000001, .frsq 5 6), (0b0_010010_0000101_0000110_00000000010, .fsqrt 5 6),
    (0b0_010010_0000101_0000110_00000000011, .fex2 5 6), (0b0_010010_0000101_0000110_00000000100, .flg2 5 6),
    (0b0_010010_0000101_0000110_00000000101, .fsin 5 6), (0b0_010010_0000101_0000110_00000000110, .fcos 5 6),
    (0b0_0100110000_011_0000110_0001001_0111, .fset 3 6 9 .nan),
    (0b0_010100_0000101_0000110_0000_1_10_0011, .cvt 5 6 true .rdn .f32)]
    : List (Nat × Instr)).all (fun p => decodeTableWord 32 p.1 == some p.2) = true := by decide

/-- Words of the exchange family, bit by bit from the tables of 04 R77-R83 and the opcode table. -/
theorem test_decode_exchange : ([
    (0b0_011000_0000101_0000110_00000_11_0000, .qswp 5 6 3), (0b0_011000_0000101_0000110_00000_10_0001, .qbrd 5 6 2),
    (0b0_011000_0000101_0000110_0001001_0010, .shfl 5 6 9), (0b0_011000_0000010_0000_001_00000_00_0011, .vote (.all 2) 1),
    (0b0_011000_1100011_0000_001_00000_11_0011, .vote (.bal 99) 1), (0b0_011000_0000101_0000110_000_0011_0100, .gred 5 6 .max)]
    : List (Nat × Instr)).all (fun p => decodeTableWord 32 p.1 == some p.2) = true := by decide

/-- Words of the control family, bit by bit from the tables of 04 R77-R83 and the opcode table. -/
theorem test_decode_control : ([
    (0b0_000001_10_011_1_1111111111111111101, .br .un 3 true 0x7FFFD),
    (0b0_000010_00_000_0_0000000000000000101, .call .none 0 false 5), (0b0_0000000000000_0000110_00000001001, .brx 6),
    (0b0_0000000000000_1111110_00000000010, .ret 126), (0b0_0000000000000000000000000000001, .exit),
    (0b0_000000_1010101_000000000000001000, .trap 0x55), (0b0_000000000000_1_000000000000000011, .rte true),
    (0b0_000000_0000001_000000000000000100, .brk 1), (0b0_0000110000_111_000000000000000000, .enrl 7),
    (0b0_0000110000_111_000000000000000001, .park 7), (0b0_0000110000_111_000000000000000010, .strk 7),
    (0b0_000000_0100001_0001000_00000000111, .svc 0x21 8), (0b0_0000000000000000000000000000101, .xfen),
    (0b0_0000000000000000000000000000110, .yild), (0b0_101101_111111_000001_000010_000100_0, .waitc 63 1 2 4),
    (0b0_1011100000_001_0000110_0001001_0101, .waita 1 6 9 .ge none), (0b0_101100_0000100_0000110_0001001_0100, .hrdi 4 6 9),
    (0b0_101100_0000101_0000110_0001001_0101, .hrda 5 6 9), (0b0_1011000000000_0000110_0001001_0110, .hrdw 6 9),
    (0b0_101100000000000_11111_00000000000, .phse 31), (0b0_101100000000000_00010_00000000001, .prel 2),
    (0b0_101100000000000_00011_00000000010, .pacq 3)]
    : List (Nat × Instr)).all (fun p => decodeTableWord 32 p.1 == some p.2) = true := by decide

/-- Words of the memory family, bit by bit from the tables of 04 R77-R83 and the opcode table. -/
theorem test_decode_memory : ([
    (0b0_100000_0001000_0000110_11_0010_11111, .ld 8 6 .nl .i64 31),
    (0b0_100010_0001000_0000110_1_0_0100_11110, .ldb 8 6 true .f64 30),
    (0b0_100001_0001000_0000110_01_1100_10000, .st 8 6 .ef .b128 16),
    (0b0_1000110000000_0000110_10_0001_00001, .pfch 6 .kp .i32 1), (0b0_100100_0000101_0000110_0001001_1001, .amo 5 6 9 .dec),
    (0b0_100101_0000101_0000110_0001010_0000, .acas 5 6 10), (0b0_1001100000000_0000110_0001001_0010, .apst 6 9 .min),
    (0b0_101001_0000100_0000110_00000000000, .xqry 4 6), (0b0_111000_0000100_0000110_0001000_0001, .xsht 4 6 8),
    (0b0_111000_0000000_0000110_00000000010, .invt (.page 6)), (0b0_111000_0000010_0000000_00000000010, .invt .all),
    (0b0_111000_0011111_0000100_00000000000, .scpg 31 4), (0b0_111000_0000101_0000110_00000000011, .lnch 5 6),
    (0b0_11010000000_11_0001000_00000000000, .dcmd 3 8), (0b0_110100_0000101_000000000000000001, .dqry 5)]
    : List (Nat × Instr)).all (fun p => decodeTableWord 32 p.1 == some p.2) = true := by decide

/-- Words of the tile family, bit by bit from the tables of 04 R77-R83 and the opcode table. -/
theorem test_decode_tile : ([
    (0b0_110000_11111_0001000_0000110_1_00000, .tmma 31 8 6 true none), (0b0_110000_00001_0000100_0000000000001, .tzro 1 .f64),
    (0b0_110000_00001_0000001_0000110_000010, .tld 1 .i32 6), (0b0_110000_00001_0000000_0000110_000011, .tst 1 6),
    (0b0_110000_00001_0000010_00_011_01_000100, .tcvt 1 2 .f32 .rtz), (0b0_110000_00001_0001000_0101111_000101, .trdr 1 8 47),
    (0b0_110000_00001_0001000_0000001_000110, .twrr 1 8 1), (0b0_110000_00001_0000110_0000000000111, .tscl 1 6),
    (0b0_110000_00001_0000101_00000_10_001000, .tred 1 5 .max), (0b0_110000_00001_0000101_0000110_001001, .tspl 1 5 6),
    (0b0_110000_00001_0000101_0000110_001010, .tfch 1 5 6)]
    : List (Nat × Instr)).all (fun p => decodeTableWord 32 p.1 == some p.2) = true := by decide

/-- Words with their extension word, in bits 63:32 (04 R84: MOVI, WAITA; 13 R207: TMMA; 24 R375: the placed words). -/
theorem test_decode_extended : ([
    (0b0_111111_00000000000_10000000000001, 0b1_001100_0000101_000000000000000001, .movi 5 1 (some 0x2001)),
    (0b0_111111_0000000000000000000000011, 0b1_101110_0000_001_0000110_0001001_0101, .waita 1 6 9 .ge (some 3)),
    (0b0_111111_00000000_0000000101_10_1_0110, 0b1_110000_00001_0001000_0000110_0_00000,
      .tmma 1 8 6 false (some { diag := 5, fill := .pinf, tri := true, bfmt := some .f16 })),
    (0b0_111111_00000000000000_0001_0001001, 0b1_101000_0000100_0000110_0001000_0000, .xadd 4 6 8 .i32 9),
    (0b0_111111_00000000000000_0010_0001001, 0b1_101000_0000100_0000110_0001000_0001, .xsub 4 6 8 .i64 9),
    (0b0_111111_00000000000000_0011_0001001, 0b1_101000_0000100_0000110_0001000_0010, .xmul 4 6 8 .f32 9),
    (0b0_111111_00000000000000_0100_0001001, 0b1_101000_0000100_0000110_0001000_0011, .xfma 4 6 8 .f64 9),
    (0b0_111111_00000000000000_0101_0001001, 0b1_101000_0000100_0000110_0001000_0100, .xmin 4 6 8 .bf16x2 9),
    (0b0_111111_00000000000000_1011_0001001, 0b1_101000_0000100_0000110_0001000_0101, .xmax 4 6 8 .f32x2 9),
    (0b0_111111_00000000000000_0001_0001001, 0b1_101000_0000100_0000111_0000000_0110, .xfil 4 7 .i32 9)]
    : List (Nat × Nat × Instr)).all (fun p => decodeTableWord 64 (p.1 * 2 ^ 32 + p.2.1) == some p.2.2) = true := by decide

/-- Reserved fields and unassigned codes do not fall through to a neighbour (04 R87). -/
theorem test_decode_refuses : ([0b0_111111_0000000000000000000000000, 0b0_000100_0000101_0000110_0000001_0110,
    0b0_000000_0000001_0000000_0000000_0001, 0b0_100100_0000101_0000110_0001001_0001, 0b0_011000_0000101_0000110_0000000_0000,
    0b0_111000_0000011_0000000_0000000_0010, 0b0_101101_000000_000000_000000_000000_1, 0b0_001011_0000101_0000110_0001101_0001,
    0b0_010000_0000101_0000110_0001001_1000, 0b0_110000_00001_0000010_0000000_0_00001] : List Nat).all
    (fun w => (decodeTableWord 32 w).isNone) = true := by decide

/-- A chain's words stand on different pipes, its last in a packet has C clear, an extension word follows its word (04 R74, R76, R84). -/
theorem test_chain_breaks :
    decodeChain 0 [0b1_000100_0000101_0000110_0001001_0000, 0b0_000100_0000101_0000110_0001001_0001, 0] = .bad 1 .pipeClash ∧
    decodeChain 2 [0b1_000100_0000101_0000110_0001001_0000] = .bad 0 .cInSlot2 ∧
    decodeChain 0 [0b1_000100_0000101_0000110_0001001_0000, 0b0_010000_0000101_0000110_0001001_0000, 0] = .bad 1 .pipeClash ∧
    decodeChain 0 [0b1_000100_0000101_0000110_0001001_0000, 0b0_100000_0000101_0000110_00_0001_00000, 0] =
      .ok [{ instr := .iaddReg 5 6 9, off := 0, size := 1 }, { instr := .ld 5 6 .normal .i32 0, off := 1, size := 1 }] 2 := by
  decide

/-! ### Small states -/

/-- A kernel context with its table at 0x1000, as `benchCtx`. -/
def m0 : Mach := { Mach.reset with uid := 10, clk := 8, ctxs := [benchCtx], groups := [startGroup 1 1 0 0 0] }

def tm0 : Team := { (benchLaunch 1).team 1 0 0 0 0 0 with regs := 16, scr := 1, tiles := 1, tileTags := [.f32] }

/-- The one thread, its registers as given. -/
def lane (rs : List RV) : Thread := { startThread { team := 1, tidx := 0 } false 16 3 0 with
  regs := rs ++ List.replicate (16 - rs.length) rv0, utvec := 300 }

/-- One lane about to issue the word at 3. -/
def one (t : Thread) (tm : Team) (m : Mach) : State := {
  m := { m with cur := { team := 1, group := 0, lanes := [0], pc := 3, words := [0x77] }, threads := [t], teams := [tm] }
  sys := Sys.reset, agenda := [], rr := 0 }

def i32 (v : Nat) : RV := { bits := BitVec.ofNat 32 v, tag := .i32 }
def f32 (v : Nat) : RV := { bits := BitVec.ofNat 32 v, tag := .f32 }

/-- The thread after a step. -/
def after (i : Instr) (s : State) : Option Thread := match exec i s with | .next t => t.m.thread? { team := 1, tidx := 0 } | _ => none

/-- Register `r` after a word. -/
def got (i : Instr) (rs : List RV) (r : Nat) : Option RV := (after i (one (lane rs) tm0 m0)).map fun t => t.reg r

/-- Predicate `k` after a word. -/
def holdsAfter (i : Instr) (rs : List RV) (k : KIx) : Option Bool := (after i (one (lane rs) tm0 m0)).map fun t => t.pred k

/-- The cause and program counter after a word. -/
def causeOf (i : Instr) (rs : List RV) : Option (Nat × Nat) :=
  (after i (one (lane rs) tm0 m0)).map fun t => (t.fltCause.toNat, t.pc.toNat)

/-! ### Integer words -/

theorem test_iadd_wraps : got (.iaddReg 3 1 2) [rv0, i32 0xFFFFFFFF, i32 2] 3 = some (i32 1) := by decide
theorem test_iadd_mixed_tags_trap : causeOf (.iaddReg 3 1 2) [rv0, i32 1, f32 2] = some (2, 300) := by decide
theorem test_iaddimm_negative : got (.iaddImm 3 1 0x7FF) [rv0, i32 0] 3 = some (i32 0xFFFFFFFF) := by decide
theorem test_isub_borrow : got (.isub 3 1 2) [rv0, i32 1, i32 2] 3 = some (i32 0xFFFFFFFF) := by decide
theorem test_imul_low : got (.imul 3 1 2) [rv0, i32 0x10001, i32 0x10001] 3 = some (i32 0x20001) := by decide
theorem test_imulh_signed : got (.imulh 3 1 2) [rv0, i32 0xFFFFFFFF, i32 2] 3 = some (i32 0xFFFFFFFF) := by decide
theorem test_imin_signed : got (.imin 3 1 2) [rv0, i32 0x80000000, i32 1] 3 = some (i32 0x80000000) := by decide
theorem test_imax_signed : got (.imax 3 1 2) [rv0, i32 0x80000000, i32 1] 3 = some (i32 1) := by decide
theorem test_iabs_least : got (.iabs 3 1) [rv0, i32 0x80000000] 3 = some (i32 0x80000000) := by decide
theorem test_imad_d_is_source : got (.imad 3 1 2) [rv0, i32 3, i32 5, i32 7] 3 = some (i32 22) := by decide
theorem test_clz_zero : got (.clz 3 1) [rv0, i32 0] 3 = some (i32 32) := by decide
theorem test_popc : got (.popc 3 1) [rv0, i32 0xF0000001] 3 = some (i32 5) := by decide
theorem test_and : got (.andReg 3 1 2) [rv0, i32 0xC, i32 0xA] 3 = some (i32 8) := by decide
theorem test_andimm_zero_extends : got (.andImm 3 1 0x1FF) [rv0, i32 0xFFFFFFFF] 3 = some (i32 0x1FF) := by decide
theorem test_or : got (.orReg 3 1 2) [rv0, i32 0xC, i32 0xA] 3 = some (i32 0xE) := by decide
theorem test_orimm : got (.orImm 3 1 0x100) [rv0, f32 1] 3 = some (f32 0x101) := by decide
theorem test_xor : got (.xorReg 3 1 2) [rv0, i32 0xC, i32 0xA] 3 = some (i32 6) := by decide
theorem test_xorimm : got (.xorImm 3 1 1) [rv0, i32 1] 3 = some (i32 0) := by decide
theorem test_not : got (.inot 3 1) [rv0, i32 0x0F] 3 = some (i32 0xFFFFFFF0) := by decide
theorem test_shl_by_width : got (.shlReg 3 1 2) [rv0, i32 1, i32 32] 3 = some (i32 0) := by decide
theorem test_shlimm : got (.shlImm 3 1 31) [rv0, i32 3] 3 = some (i32 0x80000000) := by decide
theorem test_shr : got (.shrReg 3 1 2) [rv0, i32 0x80000000, i32 31] 3 = some (i32 1) := by decide
theorem test_shrimm : got (.shrImm 3 1 4) [rv0, i32 0x80000000] 3 = some (i32 0x08000000) := by decide
theorem test_sha_past_width : got (.shaReg 3 1 2) [rv0, i32 0x80000000, i32 40] 3 = some (i32 0xFFFFFFFF) := by decide
theorem test_shaimm : got (.shaImm 3 1 4) [rv0, i32 0x80000000] 3 = some (i32 0xF8000000) := by decide
theorem test_bfx_signed : got (.bfx 3 1 2) [rv0, i32 0xF0, i32 0x10404] 3 = some (i32 0xFFFFFFFF) := by decide
theorem test_bfi : got (.bfi 3 1 2) [rv0, i32 0x5, i32 0x0408, i32 0xFFFFFFFF] 3 = some (i32 0xFFFFF5FF) := by decide
theorem test_bprm : got (.bprm 3 1 2) [rv0, i32 0x33221100, i32 0x77665544, i32 0x0427] 3 =
    some (i32 (bytePermute 0x0427 0x33221100 0x77665544)) := by decide
theorem test_iset_unsigned : holdsAfter (.iset 2 1 2 .gtu) [rv0, i32 0xFFFFFFFF, i32 1] 2 = some true := by decide
theorem test_iset_signed : holdsAfter (.iset 2 1 2 .gt) [rv0, i32 0xFFFFFFFF, i32 1] 2 = some false := by decide
theorem test_sel : got (.sel 3 1 2 0) [rv0, i32 7, i32 8] 3 = some (i32 7) := by decide

/-! ### Moves -/

theorem test_mov_keeps_tags : got (.mov 4 2 .two) [rv0, rv0, i32 7, f32 9] 5 = some (f32 9) := by decide
theorem test_movh : got (.movh 3 0xBEEF) [rv0, rv0, rv0, i32 0x12345678] 3 = some (i32 0xBEEF5678) := by decide
theorem test_movi_negative : got (.movi 3 0x3FFFF none) [] 3 = some (i32 0xFFFFFFFF) := by decide
theorem test_movi_extended : got (.movi 3 0x00001 (some 0x2000)) [] 3 = some (i32 0x80000001) := by decide
theorem test_rtag : got (.rtag 3 1 .f32) [rv0, i32 0x3F800000] 3 = some (f32 0x3F800000) := by decide
theorem test_nop_goes_on : causeOf .nop [] = some (0, 4) := by decide
theorem test_pack_i64 : got (.pack 4 1 2) [rv0, i32 5, i32 6] 5 = some { bits := 6, tag := .i64 } := by decide
theorem test_unpk_i64 : got (.unpk 4 2) [rv0, rv0, { bits := 5, tag := .i64 }, { bits := 6, tag := .i64 }] 5 = some (i32 6) := by decide
theorem test_gsr_tidx : got (.gsr 3 .tidx) [] 3 = some (i32 0) := by decide
theorem test_gsr_clk : got (.gsr 4 .clk) [] 4 = some { bits := 8, tag := .i64 } := by decide
theorem test_ssr_uctl_keeps_two_bits : (after (.ssr 3 .uctl) (one (lane [rv0, rv0, rv0, i32 0xFF]) tm0 m0)).map (·.uctl) = some 3 := by
  decide
theorem test_ssr_utvec_slot : causeOf (.ssr 4 .utvec) [rv0, rv0, rv0, rv0, { bits := 4, tag := .i64 }, { bits := 0, tag := .i64 }] =
    some (0x20, 300) := by decide

/-! ### Float words -/

theorem test_fadd : got (.fadd 3 1 2) [rv0, f32 0x3F800000, f32 0x40000000] 3 = some (f32 0x40400000) := by decide
theorem test_fsub : got (.fsub 3 1 2) [rv0, f32 0x3F800000, f32 0x40000000] 3 = some (f32 0xBF800000) := by decide
theorem test_fmul : got (.fmul 3 1 2) [rv0, f32 0x40400000, f32 0x40000000] 3 = some (f32 0x40C00000) := by decide
theorem test_fmin_zero : got (.fmin 3 1 2) [rv0, f32 0, f32 0x80000000] 3 = some (f32 0x80000000) := by decide
theorem test_fmax_zero : got (.fmax 3 1 2) [rv0, f32 0, f32 0x80000000] 3 = some (f32 0) := by decide
theorem test_fdiv_by_zero : got (.fdiv 3 1 2) [rv0, f32 0x3F800000, f32 0] 3 = some (f32 0x7F800000) := by decide
theorem test_fdiv_by_zero_flag : (after (.fdiv 3 1 2) (one (lane [rv0, f32 0x3F800000, f32 0]) tm0 m0)).map (·.ften) =
    some 0x00020000 := by decide
theorem test_ffma : got (.ffma 3 1 2) [rv0, f32 0x40400000, f32 0x40000000, f32 0x3F800000] 3 = some (f32 0x40E00000) := by decide
theorem test_fcls_one : got (.fcls 3 1) [rv0, f32 0x3F800000] 3 = some (i32 (2 ^ fClass fp32 0x3F800000)) := by decide
theorem test_fset_nan : holdsAfter (.fset 2 1 1 .nan) [rv0, f32 0x7FC00000] 2 = some true := by decide
theorem test_dot4_bytes : got (.dot4 3 1 2) [rv0, { bits := 0x01FF0203, tag := .i8x4 }, { bits := 0x02020202, tag := .i8x4 }, i32 1] 3 =
    some (i32 11) := by decide
theorem test_cvt_to_int : got (.cvt 3 1 false .rtz .i32) [rv0, f32 0xC0200000] 3 = some (i32 0xFFFFFFFE) := by decide
theorem test_frcp_two : got (.frcp 3 1) [rv0, f32 0x40000000] 3 = some (f32 0x3F000000) := by decide
theorem test_frsq_four : got (.frsq 3 1) [rv0, f32 0x40800000] 3 = some (f32 0x3F000000) := by decide
theorem test_fsqrt_four : got (.fsqrt 3 1) [rv0, f32 0x40800000] 3 = some (f32 0x40000000) := by decide
theorem test_fex2_zero : got (.fex2 3 1) [rv0, f32 0] 3 = some (f32 0x3F800000) := by decide
theorem test_flg2_one : got (.flg2 3 1) [rv0, f32 0x3F800000] 3 = some (f32 0) := by decide
theorem test_fsin_zero : got (.fsin 3 1) [rv0, f32 0] 3 = some (f32 0) := by decide
theorem test_fcos_zero : got (.fcos 3 1) [rv0, f32 0] 3 = some (f32 0x3F800000) := by decide

/-! ### Control -/

theorem test_br_taken : causeOf (.br .none 0 false 4) [] = some (0, 15) := by decide
theorem test_br_backwards : causeOf (.br .none 0 false 0x7FFFF) [] = some (0, 0) := by decide
theorem test_br_below_zero : causeOf (.br .none 0 false 0x7FFFE) [] = some (0x11, 300) := by decide
theorem test_call_link : got (.call .none 0 false 4) [] 14 = some { bits := 6, tag := .i64 } := by decide
theorem test_ret : causeOf (.ret 14) ((List.replicate 14 rv0) ++ [{ bits := 9, tag := .i64 }, { bits := 0, tag := .i64 }]) =
    some (0, 9) := by decide
theorem test_brx_slot : causeOf (.brx 4) [rv0, rv0, rv0, rv0, { bits := 10, tag := .i64 }, { bits := 0, tag := .i64 }] =
    some (0x20, 300) := by decide
theorem test_trap : causeOf (.trap 5) [] = some (0x40, 300) := by decide
theorem test_rte_outside : causeOf (.rte false) [] = some (1, 300) := by decide
theorem test_svc_unserved : causeOf (.svc 0 8) [] = some (0x41, 300) := by decide
theorem test_exit : (after .exit (one (lane []) tm0 m0)).map (·.wait) = some .exited := by decide
theorem test_yild : (after .yild (one (lane []) tm0 m0)).map (·.yielded) = some true := by decide
theorem test_vote_bal : got (.vote (.bal 3) 0) [] 3 = some (i32 1) := by decide
theorem test_gred_one_lane : got (.gred 3 1 .add) [rv0, i32 9] 3 = some (i32 9) := by decide
theorem test_shfl_absent_lane : got (.shfl 3 1 2) [rv0, i32 9, i32 5] 3 = some (i32 9) := by decide
theorem test_park_waits_for_enrolled : (after (.park 1) (one (lane []) tm0 { m0 with groups := [{ startGroup 1 1 0 0 0 with
    e := [0, 3, 0, 0, 0, 0, 0, 0] }] })).map (·.wait) = some (.held 1) := by decide

/-! ### States and operands that meet the hypotheses of the statements -/

theorem one_lone {t : Thread} {tm : Team} {m : Mach} (hr : t.ref = { team := 1, tidx := 0 }) (hu : tm.uid = 1)
    (hs : t.subst = none) (hw : t.wait = .ready) (hh : t.helper = false) (hf : tm.known = []) : Lone (one t tm m) tm t := by
  have hb : (one t tm m).m.bundle = [t] := by simp [one, Mach.bundle, Mach.thread?, hr]
  refine ⟨⟨?_, ?_, ?_, ?_, ?_, ?_, ?_, hf⟩, hb, hh⟩
  · simp [one, Mach.team?, hu]
  · simp [hb]
  · intro th h; rw [hb, List.mem_singleton] at h; subst h; simp [one, Mach.thread?]
  · simp [hb]
  · simp [hb, hs]
  · simp [hb, hw]
  · simp [one]

theorem one_all {P : Thread → Prop} {t : Thread} {tm : Team} {m : Mach} (hr : t.ref = { team := 1, tidx := 0 }) (h : P t) :
    ∀ th ∈ (one t tm m).m.bundle, P th := by
  have hb : (one t tm m).m.bundle = [t] := by simp [one, Mach.bundle, Mach.thread?, hr]
  simpa [hb] using h

theorem lane_lone (rs : List RV) (m : Mach) : Lone (one (lane rs) tm0 m) tm0 (lane rs) := one_lone rfl rfl rfl rfl rfl rfl

theorem fits_of {t : Thread} {acc : Tag → Bool} {srcs regs : List Nat} {g : Tag}
    (h : (acc g && (srcs.all fun r => t.tagAt r == g && t.formed r) && regs.all fun r => r % g.regs == 0) = true) :
    t.Fits acc srcs regs g := by
  simp only [Bool.and_eq_true, List.all_eq_true, beq_iff_eq] at h
  exact ⟨h.1.1, fun r hr => h.1.2 r hr, fun r hr => h.2 r hr⟩

theorem issues_sys {s : State} {tm : Team} (h : Issues s tm) (y : Sys) : Issues { s with sys := y } tm :=
  ⟨h.team, h.lanes, h.named, h.apart, h.whole, h.ready, h.narrow, h.quiet⟩

/-- Lanes of integers, of floats, and of pairs. -/
def ints : Thread := lane [rv0, i32 6, i32 2, i32 3]
def flts : Thread := lane [rv0, f32 0x3F800000, f32 0, f32 0x40000000]
def sI : State := one ints tm0 m0
def sF : State := one flts tm0 m0

theorem witness_IntegerArithmetic : Issues sI tm0 ∧ (∀ th ∈ sI.m.bundle, ∃ g, th.Fits Tag.isInt [1, 2] [3, 1, 2] g) ∧
    ∀ i ∈ [Instr.iaddReg 3 1 2, .isub 3 1 2, .imul 3 1 2, .imulh 3 1 2, .imin 3 1 2, .imax 3 1 2],
      staticBad sI.m tm0 i = false :=
  ⟨(lane_lone _ _).issues, one_all rfl ⟨.i32, fits_of rfl⟩, by decide⟩

theorem witness_IntegerArithmetic_imad : staticBad sI.m tm0 (.imad 3 1 2) = false ∧
    ∀ th ∈ sI.m.bundle, ∃ g, th.Fits Tag.isInt [1, 2, 3] [3, 1, 2] g := ⟨rfl, one_all rfl ⟨.i32, fits_of rfl⟩⟩

theorem witness_IntegerUnary : Issues sI tm0 ∧ (∀ th ∈ sI.m.bundle, ∃ g, th.Fits Tag.isInt [1] [3, 1] g) ∧
    ∀ i ∈ [Instr.iabs 3 1, .clz 3 1, .popc 3 1, .iaddImm 3 1 5], staticBad sI.m tm0 i = false :=
  ⟨(lane_lone _ _).issues, one_all rfl ⟨.i32, fits_of rfl⟩, by decide⟩

theorem witness_Bitwise : Issues sF tm0 ∧ (∀ th ∈ sF.m.bundle, ∃ g, th.Fits Tag.isData [1, 2] [3, 1, 2] g) ∧
    ∀ i ∈ [Instr.andReg 3 1 2, .orReg 3 1 2, .xorReg 3 1 2, .andImm 3 1 511, .orImm 3 1 0, .xorImm 3 1 1, .inot 3 1],
      staticBad sF.m tm0 i = false :=
  ⟨(lane_lone _ _).issues, one_all rfl ⟨.f32, fits_of rfl⟩, by decide⟩

theorem witness_Shifts : Issues sI tm0 ∧ (∀ th ∈ sI.m.bundle, ∃ g, th.Fits Tag.isInt [1] [3, 1] g) ∧
    (∀ th ∈ sI.m.bundle, th.tagAt 2 = .i32) ∧
    ∀ i ∈ [Instr.shlReg 3 1 2, .shlImm 3 1 63, .shrReg 3 1 2, .shrImm 3 1 32, .shaReg 3 1 2, .shaImm 3 1 0],
      staticBad sI.m tm0 i = false :=
  ⟨(lane_lone _ _).issues, one_all rfl ⟨.i32, fits_of rfl⟩, one_all rfl rfl, by decide⟩

theorem witness_BitFields : Issues sI tm0 ∧
    (∀ th ∈ sI.m.bundle, th.tagAt 2 = .i32 ∧ ∃ g, th.Fits Tag.isData [1, 3] [3, 1] g) ∧
    (∀ th ∈ sI.m.bundle, (th.tagAt 1).isData = true ∧ (th.tagAt 1).regs = 1 ∧ th.tagAt 2 = th.tagAt 1 ∧ th.tagAt 3 = .i32) ∧
    ∀ i ∈ [Instr.bfx 3 1 2, .bfi 3 1 2, .bprm 3 1 2], staticBad sI.m tm0 i = false :=
  ⟨(lane_lone _ _).issues, one_all rfl ⟨rfl, .i32, fits_of rfl⟩, one_all rfl (by decide), by decide⟩

theorem witness_CompareSelect : Issues sI tm0 ∧ (∀ th ∈ sI.m.bundle, ∃ g, th.Fits Tag.isInt [1, 2] [1, 2] g) ∧
    (∀ th ∈ sI.m.bundle, ∃ g, th.Fits Tag.isData [1, 2] [3, 1, 2] g) ∧ staticBad sI.m tm0 (.iset 7 1 2 .lt) = false ∧
    staticBad sI.m tm0 (.sel 3 1 2 7) = false :=
  ⟨(lane_lone _ _).issues, one_all rfl ⟨.i32, fits_of rfl⟩, one_all rfl ⟨.i32, fits_of rfl⟩, rfl, rfl⟩

theorem witness_Moves : Issues sI tm0 ∧ (∀ th ∈ sI.m.bundle, (th.tagAt 3).isData = true) ∧
    ∀ i ∈ [Instr.mov 4 8 .four, .movh 3 1, .movi 3 1 none, .movi 3 1 (some 1), .rtag 4 8 .b128], staticBad sI.m tm0 i = false :=
  ⟨(lane_lone _ _).issues, one_all rfl rfl, by decide⟩

theorem witness_Moves_pack :
    (Issues sI tm0 ∧ staticBad sI.m tm0 (.pack 4 1 2) = false ∧ ∀ th ∈ sI.m.bundle, th.tagAt 1 = .i32 ∧ th.tagAt 2 = .i32) ∧
    (let h : RV := { bits := 5, tag := .i8x4 }
     let p : RV := { bits := 5, tag := .f32x2 }
     let s := one (lane [rv0, h, p, p, h]) tm0 m0
     Issues s tm0 ∧ staticBad s.m tm0 (.pack 5 1 4) = false ∧ staticBad s.m tm0 (.unpk 6 1) = false ∧
     (∀ th ∈ s.m.bundle, th.tagAt 1 = .i8x4 ∧ th.tagAt 4 = th.tagAt 1) ∧
     staticBad s.m tm0 (.unpk 6 2) = false ∧ ∀ th ∈ s.m.bundle, th.tagAt 2 = .f32x2 ∧ th.tagAt 3 = .f32x2) :=
  ⟨⟨(lane_lone _ _).issues, rfl, one_all rfl (by decide)⟩, (lane_lone _ _).issues, rfl, rfl, one_all rfl (by decide), rfl,
    one_all rfl (by decide)⟩

theorem witness_SystemReads : Issues sI tm0 ∧ (∀ th ∈ sI.m.bundle, 3 % th.fltSub.tag.regs = 0) ∧
    staticBad sI.m tm0 (.time 4) = false ∧
    (∀ r ∈ [SysReg.lane, .group, .team, .fold, .tidx, .fltCause, .fltMask, .fltInst, .fltExc, .ften, .frm, .uctl, .taskid, .taskst,
      .fltSub], staticBad sI.m tm0 (.gsr 3 r) = false) ∧
    ∀ r ∈ [SysReg.argp, .clk, .fltPc, .fltAddr, .utvec], staticBad sI.m tm0 (.gsr 14 r) = false :=
  ⟨(lane_lone _ _).issues, one_all rfl rfl, rfl, by decide, by decide⟩

theorem witness_SystemWrites :
    let q : RV := { bits := 3, tag := .i64 }
    let s := one (lane [rv0, i32 5, q, { q with bits := 0 }]) tm0 m0
    Issues s tm0 ∧ (∀ th ∈ s.m.bundle, th.tagAt 1 = .i32 ∨ th.tagAt 1 = .raw) ∧
    (∀ r ∈ [SysReg.fltCause, .fltMask, .fltInst, .fltExc, .ften, .frm, .uctl, .taskid], staticBad s.m tm0 (.ssr 1 r) = false) ∧
    (∀ th ∈ s.m.bundle, ∃ g ∈ [Tag.i64, .raw], th.tagAt 2 = g ∧ th.tagAt 3 = g) ∧
    (∀ th ∈ s.m.bundle, ((th.reg 3).bits ++ (th.reg 2).bits).toNat % 3 = 0) ∧
    (∀ r ∈ [SysReg.fltPc, .fltAddr, .utvec], staticBad s.m tm0 (.ssr 2 r) = false) ∧
    (∀ th ∈ s.m.bundle, 2 % (th.tagAt 2).regs = 0 ∧ th.formed 2 = true) ∧ staticBad s.m tm0 (.ssr 2 .fltSub) = false :=
  ⟨(lane_lone _ _).issues, one_all rfl (by decide), by decide, one_all rfl (by decide), one_all rfl (by decide), by decide,
    one_all rfl (by decide), rfl⟩

/-- FloatFlags has no hypotheses: a division by zero with DZ enabled sets its sticky flag and gives cause 4. -/
theorem witness_FloatFlags : raise 2 { dz := true } = (0x20002, some 4) := by decide

theorem witness_FloatArithmetic : Issues sF tm0 ∧ (∀ th ∈ sF.m.bundle, ∃ g, th.Fits Tag.isFloat [1, 2, 3] [3, 1, 2] g) ∧
    (∀ i ∈ [Instr.fadd 3 1 2, .fsub 3 1 2, .fmul 3 1 2, .fdiv 3 1 2, .fmin 3 1 2, .fmax 3 1 2, .ffma 3 1 2],
      staticBad sF.m tm0 i = false) ∧
    (∀ th ∈ sF.m.bundle, (raise th.ften (packF .f32 (fun f => fDiv f (frmRm th.frm) (frmFtz th.frm)) (th.valAt 1) (th.valAt 2)).2).2 =
      none) ∧
    (let t : Thread := { flts with ften := 2 }
     let s := one t tm0 m0
     Issues s tm0 ∧ ∀ th ∈ s.m.bundle, th.canEnter ∧
      (raise th.ften (packF .f32 (fun f => fDiv f (frmRm th.frm) (frmFtz th.frm)) (th.valAt 1) (th.valAt 2)).2).2 = some 4) :=
  ⟨(lane_lone _ _).issues, one_all rfl ⟨.f32, fits_of rfl⟩, by decide, one_all rfl (by decide),
    (one_lone rfl rfl rfl rfl rfl rfl).issues, one_all rfl ⟨by unfold Thread.canEnter; decide, by decide⟩⟩

theorem witness_FloatSpecial : Issues sF tm0 ∧ (∀ th ∈ sF.m.bundle, th.tagAt 1 = .f32) ∧
    ∀ i ∈ [Instr.frcp 3 1, .frsq 3 1, .fsqrt 3 1, .fex2 3 1, .flg2 3 1, .fsin 3 1, .fcos 3 1], staticBad sF.m tm0 i = false :=
  ⟨(lane_lone _ _).issues, one_all rfl rfl, by decide⟩

theorem witness_DotClassCompare :
    (let e : RV := { bits := 5, tag := .e4m3x4 }
     let s := one (lane [rv0, e, e, f32 0]) tm0 m0
     Issues s tm0 ∧ staticBad s.m tm0 (.dot4 3 1 2) = false ∧ ∀ th ∈ s.m.bundle, th.tagAt 1 ∈ [Tag.e4m3x4, .e5m2x4] ∧
      th.tagAt 2 = th.tagAt 1 ∧ th.tagAt 3 = .f32) ∧
    (let e : RV := { bits := 5, tag := .i8x4 }
     let s := one (lane [rv0, e, e, i32 0]) tm0 m0
     Issues s tm0 ∧ staticBad s.m tm0 (.dot4 3 1 2) = false ∧ ∀ th ∈ s.m.bundle, th.tagAt 1 = .i8x4 ∧ th.tagAt 2 = .i8x4 ∧
      th.tagAt 3 = .i32) ∧
    Issues sF tm0 ∧ (∀ th ∈ sF.m.bundle, ∃ g, th.Fits Tag.isFloat [1] [1] g) ∧
    (∀ th ∈ sF.m.bundle, ∃ g, th.Fits Tag.isFloat [1, 2] [1, 2] g) ∧ staticBad sF.m tm0 (.fcls 3 1) = false ∧
    staticBad sF.m tm0 (.fset 1 1 2 .lt) = false :=
  ⟨⟨(lane_lone _ _).issues, rfl, one_all rfl (by decide)⟩, ⟨(lane_lone _ _).issues, rfl, one_all rfl (by decide)⟩,
    (lane_lone _ _).issues, one_all rfl ⟨.f32, fits_of rfl⟩, one_all rfl ⟨.f32, fits_of rfl⟩, rfl, rfl⟩

/-- One F32 narrows into half an F16x2: two sources make a value. -/
theorem witness_Conversions :
    let s := one (lane [rv0, rv0, f32 0x3F800000, f32 0]) tm0 m0
    let n := max (elemN .f32) (elemN .f16x2)
    Issues s tm0 ∧ staticBad s.m tm0 (.cvt 5 2 false .rne .f16x2) = false ∧
    ∀ th ∈ s.m.bundle, (th.tagAt 2).isData = true ∧ (∀ j < n / elemN .f32 * 1, th.tagAt (2 + j) = th.tagAt 2) ∧
      2 % (n / elemN .f32 * 1) = 0 ∧ 5 % (n / elemN .f16x2 * 1) = 0 ∧ 2 + n / elemN .f32 ≤ th.regs.length ∧
      5 + n / elemN .f16x2 ≤ th.regs.length :=
  ⟨(lane_lone _ _).issues, rfl, one_all rfl (by decide)⟩

theorem witness_Exchanges : Issues sI tm0 ∧
    (∀ i ∈ [Instr.qswp 3 1 3, .qbrd 3 1 0, .shfl 3 1 2], staticBad sI.m tm0 i = false) ∧
    (∀ th ∈ sI.m.bundle, th.tagAt 2 = .i32) ∧
    ∀ th ∈ sI.m.bundle, th.tagAt 1 ≠ .raw ∧ th.formed 1 = true ∧ 3 % (th.tagAt 1).regs = 0 ∧ 3 + 1 ≤ th.regs.length :=
  ⟨(lane_lone _ _).issues, by decide, one_all rfl rfl, one_all rfl (by decide)⟩

theorem witness_VotesReductions : Issues sI tm0 ∧ (3#7).toNat < tm0.regs ∧ staticBad sI.m tm0 (.gred 3 1 .xor) = false ∧
    amoAccepts RedOp.xor.amo .i32 = true ∧ ∀ th ∈ sI.m.bundle, th.tagAt 1 = .i32 ∧ th.formed 1 = true :=
  ⟨(lane_lone _ _).issues, by decide, rfl, by decide, one_all rfl (by decide)⟩

/-- The packet of the word is 1: displacement -1 is the last that stays at or above packet 0, -2 the first below. -/
theorem witness_Branches : Issues sI tm0 ∧ (0 : Int) ≤ (sI.m.cur.pc.toNat / 3 : Nat) + (0x7FFFF#19).toInt ∧ 2 ≤ tm0.regs ∧
    ((sI.m.cur.pc.toNat / 3 : Nat) : Int) + (0x7FFFE#19).toInt < 0 ∧
    ∀ th ∈ sI.m.bundle, th.canEnter ∧ th.pred 0 ≠ false :=
  ⟨(lane_lone _ _).issues, by decide, by decide, by decide, one_all rfl (by unfold Thread.canEnter; decide)⟩

theorem witness_Jumps :
    let s (v : Nat) := one (lane [rv0, rv0, { bits := BitVec.ofNat 32 v, tag := .i64 }, { bits := 0, tag := .i64 }]) tm0 m0
    (∀ v, Issues (s v) tm0) ∧ (∀ th ∈ (s 3).m.bundle, th.tagAt 2 = .i64 ∧ th.formed 2 = true ∧ th.valAt 2 % 3 = 0) ∧
    (∀ th ∈ (s 4).m.bundle, th.tagAt 2 = .i64 ∧ th.formed 2 = true ∧ th.canEnter ∧ th.valAt 2 % 3 ≠ 0) ∧
    staticBad (s 3).m tm0 (.brx 2) = false ∧ staticBad (s 3).m tm0 (.ret 2) = false :=
  ⟨fun _ => (lane_lone _ _).issues, one_all rfl (by decide), one_all rfl (by unfold Thread.canEnter; decide), rfl, rfl⟩

/-- A lane in its handler that has written FLT_PC, and what a word leaves of its team and of the record that is due. -/
def inHandler (pc : Nat) : Thread := { ints with
  handlerActive := true, written := true, fltPc := BitVec.ofNat 64 pc, resume := 9, fltDst := .regs 3 .i32 1
  fltSub := { bits := 7, tag := .f32 } }

def stops (i : Instr) (t : Thread) : Option (TeamStatus × Nat × Nat × Nat) := match exec i (one t tm0 m0) with
  | .next u => (u.m.team? 1).bind fun x => x.fault.map fun r => (x.status, r.kind, r.cause, r.addr.toNat)
  | _ => none

/-- FLT_PC 4 stops the team with cause 0x20 and kind 9; FLT_PC 6 is gone to. -/
theorem witness_Jumps_rte : Lone (one (inHandler 4) tm0 m0) tm0 (inHandler 4) ∧ tm0.status = .running ∧
    (inHandler 4).ops = [] ∧ (inHandler 4).fltPc.toNat % 3 ≠ 0 ∧ (inHandler 4).fltSub.tag.width = Tag.i32.width ∧
    stops (.rte false) (inHandler 4) = some (.stopping, 9, 0x20, 4) ∧ stops (.rte true) (inHandler 4) = some (.stopping, 9, 0x20, 4) ∧
    (after (.rte false) (one (inHandler 6) tm0 m0)).map (fun t => (t.pc.toNat, t.handlerActive)) = some (6, false) :=
  ⟨one_lone rfl rfl rfl rfl rfl rfl, rfl, rfl, by decide, rfl, by decide, by decide, by decide⟩

theorem witness_TrapsAndReturns :
    let t : Thread := { ints with handlerActive := true, resume := 9, fltDst := .regs 3 .i32 1, fltSub := { bits := 7, tag := .f32 } }
    (Issues sI tm0 ∧ ∀ th ∈ sI.m.bundle, th.canEnter) ∧
    (Issues (one (inHandler 6) tm0 m0) tm0 ∧ ∀ th ∈ (one (inHandler 6) tm0 m0).m.bundle, th.handlerActive = true ∧
      (∀ d g n, th.fltDst = .regs d g n → th.fltSub.tag.width = g.width) ∧ th.written = true ∧ th.fltPc.toNat % 3 = 0) ∧
    (Issues (one t tm0 m0) tm0 ∧ ∀ th ∈ (one t tm0 m0).m.bundle, th.handlerActive = true ∧ th.written = false ∧
      ∀ d g n, th.fltDst = .regs d g n → th.fltSub.tag.width = g.width) ∧
    (after (.rte true) (one (inHandler 6) tm0 m0)).map (fun x => (x.reg 3, x.pc.toNat)) = some (f32 7, 6) ∧
    stops (.trap 5) (inHandler 6) = some (.stopping, 9, 0x40, 5) ∧ stops (.trap 5) { ints with utvec := 0 } = some (.stopping, 8, 0x40, 5) :=
  ⟨⟨(lane_lone _ _).issues, one_all rfl (by unfold Thread.canEnter; decide)⟩,
    ⟨(one_lone rfl rfl rfl rfl rfl rfl).issues, one_all rfl ⟨rfl, fun d g n h => by cases h; rfl, rfl, by decide⟩⟩,
    ⟨(one_lone rfl rfl rfl rfl rfl rfl).issues, one_all rfl ⟨rfl, rfl, fun d g n h => by cases h; rfl⟩⟩, by decide, by decide, by decide⟩

theorem witness_Substitution :
    let t : Thread := { ints with subst := some { addr := 3, dst := .regs 3 .i32 1, sub := { bits := 7, tag := .i32 } } }
    let s := one t tm0 m0
    s.m.team? s.m.cur.team = some tm0 ∧ tm0.known = [] ∧ s.m.bundle = [t] ∧ s.m.thread? t.ref = some t ∧ t.wait = .ready ∧
    (3 : DWord) = s.m.cur.pc ∧ (after (.fdiv 3 1 2) s).map (fun x => (x.reg 3, x.pc.toNat, x.subst)) = some (i32 7, 4, none) := by
  decide

theorem witness_RejoinMasks : Issues sI tm0 ∧ sI.m.group? sI.m.cur.team sI.m.cur.group = some (startGroup 1 1 0 0 0) ∧
    (startGroup 1 1 0 0 0).e.length = 8 ∧ (startGroup 1 1 0 0 0).p.length = 8 := ⟨(lane_lone _ _).issues, rfl, rfl, rfl⟩

/-- Lanes 0 and 1 of a group: lane 0 exits, lane 1 waits at mask 2 (as its last lane but lane 0) or at mask 3 (with lane 2). -/
theorem witness_Exits :
    let x (n : Nat) : Thread := { ints with ref := { team := 1, tidx := 1 }, wait := .held n }
    let g : Group := { startGroup 1 2 0 0 0 with e := [0, 0, 3, 7, 0, 0, 0, 0], p := [0, 0, 2, 2, 0, 0, 0, 0] }
    let s (n : Nat) : State := { sI with m := { sI.m with threads := [ints, x n], groups := [g] } }
    let left (n : Nat) := match exec .exit (s n) with
      | .next t => (t.m.groups.map fun g => (g.e.getD n 0, g.p.getD n 0), t.m.threads.map fun x => x.wait)
      | _ => ([], [])
    sI.m.group? sI.m.cur.team sI.m.cur.group = some (startGroup 1 1 0 0 0) ∧ tm0.status = .running ∧
    (s 2).m.bundle = [ints] ∧ (s 2).m.group? 1 0 = some g ∧ (s 2).m.thread? (x 2).ref = some (x 2) ∧
    (∀ n < 8, g.p.getD n 0 &&& laneSet [ints] = 0) ∧
    left 2 = ([(0, 0)], [.exited, .ready]) ∧ left 3 = ([(6, 2)], [.exited, .held 3]) := by decide

theorem witness_Exits_issues : Issues sI tm0 := (lane_lone _ _).issues

/-- One load in flight: within 1 and 63, above 0. -/
theorem witness_Waits_counts :
    let o : Op := { id := 1, kind := .plain, dst := .none, loads := true, stores := false, tile := false }
    let t : Thread := { ints with ops := [o] }
    Issues (one t tm0 m0) tm0 ∧ t.countsWithin [1, 0, 0, 0] ∧ t.countsWithin [63, 0, 0, 0] ∧ ¬ t.countsWithin [0, 0, 0, 0] ∧
    (after (.waitc 1 0 0 0) (one t tm0 m0)).map (·.wait) = some .ready ∧
    (after (.waitc 0 63 63 63) (one t tm0 m0)).map (·.wait) = some (.counts 0 63 63 63) ∧
    decodeTableWord 32 (0b0101101#7 ++ 5#6 ++ 63#6 ++ 0#6 ++ 62#6 ++ 0#1).toNat = some (.waitc 5 63 0 62) ∧
    decodeTableWord 32 (0b0101101#7 ++ 5#6 ++ 63#6 ++ 0#6 ++ 62#6 ++ 1#1).toNat = none :=
  ⟨(one_lone rfl rfl rfl rfl rfl rfl).issues, by unfold Thread.countsWithin; decide, by unfold Thread.countsWithin; decide,
    by unfold Thread.countsWithin; decide, by decide, by decide, by decide, by decide⟩

/-- XFEN reports a fault that its own thread has met; BRK asks for a save in HALT, and in TRACE leaves a record of 16 bytes. -/
theorem witness_Waits :
    let i : Imprecise := { cause := 0x30, addr := 0x40, thread := some ints.ref }
    let tm : Team := { tm0 with latent := [i] }
    let in_ (d : DebugState) : State := { sI with sys := { Sys.reset with debug := d } }
    Issues sI tm0 ∧ sI.sys.debug = .none ∧ tm0.latent = [] ∧ Lone (one ints tm m0) tm ints ∧ tm.status = .running ∧ ints.ops = [] ∧
    ints.drover = 0 ∧
    (match exec .xfen (one ints tm m0) with
     | .next u => (u.m.team? 1).bind fun x => x.fault.map fun r => (x.status, r.kind, r.cause, r.addr.toNat) | _ => none) =
      some (.stopping, 7, 0x30, 0x40) ∧
    tm0.hurdles = [] ∧ (match exec (.brk 5) (in_ .halt) with
     | .next u => (u.m.team? 1).map fun x => (x.brk, x.preempt.map (·.method)) | _ => none) = some (true, some .save) ∧
    (match exec (.brk 5) (in_ .trace) with
     | .next u => (u.m.trace, leNat (u.m.mem.read (in_ .trace).m.traceAt 12), leNat (u.m.mem.read ((in_ .trace).m.traceAt + 12) 4)) | _ => (0, 0, 0)) =
      (2, 3 + 1 * 2 ^ 64, 0x85) ∧ Issues (in_ .trace) tm0 ∧ Issues (in_ .halt) tm0 :=
  ⟨(lane_lone _ _).issues, rfl, rfl, one_lone rfl rfl rfl rfl rfl rfl, rfl, rfl, rfl, by decide, rfl, by decide, by decide,
    issues_sys (lane_lone _ _).issues _, issues_sys (lane_lone _ _).issues _⟩

/-! ### Memory words -/

def q (v : Nat) : List RV := [{ bits := BitVec.ofNat 32 v, tag := .i64 }, { bits := BitVec.ofNat 32 (v / 2 ^ 32), tag := .i64 }]

/-- A writable, user, dirty leaf of 1 GiB at physical 0, its executor as given. -/
def leafOf (exc : Nat) : Leaf := { bits := BitVec.ofNat 64 (9 * 2 ^ 60 + exc * 2 ^ 56 + 0x6F), pte := 0x3000, level := 2 }

/-- The machine of a lane that has translated the first GiB. -/
def mG (exc : Nat) : Mach := { m0 with
  tlb := [{ cache := .micro 0 0, ctx := 1, page := 0, bytes := 2 ^ 30, leaf := leafOf exc }]
  mirrors := [(0, 0, 0)] }

/-- A lane with `x` in its pair at 2, `v` of a tag at 4, and `y` in its pair at 6. -/
def memLane (x : Nat) (v : RV) (y : Nat := 0) : Thread := lane ([rv0, rv0] ++ q x ++ [v, v] ++ q y)

/-- The last word of the team's one page of scratchpad. -/
def top : Nat := 0xFC * 2 ^ 56 + 4092

def sT : State := one (memLane top (i32 7)) tm0 m0
def sG (exc : Nat) : State := one (memLane 0x8000 (i32 7)) tm0 (mG exc)

theorem mem_lone (x : Nat) (v : RV) (y : Nat) (m : Mach) : Lone (one (memLane x v y) tm0 m) tm0 (memLane x v y) :=
  one_lone rfl rfl rfl rfl rfl rfl

theorem reaches_G (exc n : Nat) (w : Bool) (v : RV) (hn : 0x8000 % n = 0)
    (ht : (mG exc).translate tm0 ((mG exc).subOf (memLane 0x8000 v).ref) (memLane 0x8000 v) 0x8000 = .ok (leafOf exc))
    (ha : (mG exc).allowed 1 (leafOf exc) w false = true) (hd : pteD (leafOf exc).bits = true) :
    (mG exc).Reaches tm0 (memLane 0x8000 v) 0x8000 n w (leafOf exc) := ⟨hn, by decide, ht, ha, fun _ => hd⟩

theorem witness_LoadsOnChip : Lone sT tm0 (memLane top (i32 7)) ∧ (memLane top (i32 7)).pairIs 2 top ∧
    staticBad sT.m tm0 (.ld 5 2 .normal .i32 0) = false ∧
    tm0.own (((top : Int) + (0#5).toInt * (Tag.i32.width / 8 : Nat)) % 2 ^ 64).toNat 4 4092 ∧
    staticBad sT.m tm0 (.ldb 5 2 true .i32 31) = false ∧ staticBad sT.m tm0 (.ldb 5 2 false .i32 0) = false ∧ tm0.own top 4 4092 ∧
    (after (.ld 5 2 .normal .i32 0) sT).map (fun t => t.ops.map (·.dst)) = some [.regs 5 .i32 1] :=
  ⟨mem_lone _ _ _ _, by unfold Thread.pairIs; decide, rfl, by unfold Team.own; decide, rfl, rfl, by unfold Team.own; decide, by decide⟩

theorem witness_LoadsAndPrefetch : Lone (sG 0) tm0 (memLane 0x8000 (i32 7)) ∧ (memLane 0x8000 (i32 7)).pairIs 2 0x8000 ∧
    (mG 0).Reaches tm0 (memLane 0x8000 (i32 7)) 0x8000 4 false (leafOf 0) ∧
    staticBad (mG 0) tm0 (.ld 5 2 .normal .i32 0) = false ∧ staticBad (mG 0) tm0 (.ldb 5 2 true .i32 0) = false ∧
    pteNc (leafOf 0).bits = false ∧
    (mG 0).mirrors.find? (fun e => e.1 == dieOf tm0.core && e.2.1 == regionOf (lineOf ((leafOf 0).pa 0x8000))) = some (0, 0, 0) ∧
    staticBad (mG 0) tm0 (.pfch 2 .nl .i32 0) = false ∧
    (mG 0).lookup tm0.core ((mG 0).subOf { team := 1, tidx := 0 }) tm0.ctx 0x8000 = some (leafOf 0) ∧
    (mG 0).atHome ((leafOf 0).pa 0x8000) ∧ (mG 0).l1? tm0.core (lineOf ((leafOf 0).pa 0x8000)) = none :=
  ⟨mem_lone _ _ _ _, by unfold Thread.pairIs; decide, reaches_G 0 4 false _ rfl rfl rfl rfl, rfl, rfl, rfl, rfl, rfl, rfl,
    by unfold Mach.atHome; decide, rfl⟩

theorem witness_Stores : Lone sT tm0 (memLane top (i32 7)) ∧ (memLane top (i32 7)).pairIs 2 top ∧
    staticBad sT.m tm0 (.st 4 2 .normal .i32 0) = false ∧ (memLane top (i32 7)).tagAt 4 = .i32 ∧ tm0.scratch.wf = true ∧
    tm0.own (((top : Int) + (0#5).toInt * (4 : Nat)) % 2 ^ 64).toNat 4 4092 ∧
    Lone (sG 0) tm0 (memLane 0x8000 (i32 7)) ∧ (memLane 0x8000 (i32 7)).ops = [] ∧ (mG 0).areas = [] ∧
    (mG 0).vlines tm0.uid + 1 ≤ 262144 / max 1 ((mG 0).teamsOn (dieOf tm0.core)) ∧
    (mG 0).Reaches tm0 (memLane 0x8000 (i32 7)) 0x8000 4 true (leafOf 0) :=
  ⟨mem_lone _ _ _ _, by unfold Thread.pairIs; decide, rfl, rfl, rfl, by unfold Team.own; decide, mem_lone _ _ _ _, rfl, rfl,
    by decide, reaches_G 0 4 true _ rfl rfl rfl rfl⟩

theorem test_st_scratch : (match exec (.st 4 2 .normal .i32 0) sT with
    | .next t => (t.m.team? 1).map fun x => leNat (x.scratch.read 4092 4) | _ => none) = some 7 := by decide
theorem test_st_global : (match exec (.st 4 2 .normal .i32 0) (sG 0) with
    | .next t => t.m.versions.map fun b => (b.pa, b.byte.toNat) | _ => []) = [(0x8000, 7), (0x8001, 0), (0x8002, 0), (0x8003, 0)] := by
  decide

/-- 9, 8 of a tag I32 in the pair that ACAS takes. -/
def casLane (x : Nat) : Thread := lane ([rv0, rv0] ++ q x ++ [i32 0, i32 8])

theorem witness_Atomics : Lone sT tm0 (memLane top (i32 7)) ∧ (memLane top (i32 7)).pairIs 2 top ∧
    (∀ i ∈ [Instr.amo 5 2 4 .add, .apst 2 4 .add, .acas 5 2 4], staticBad sT.m tm0 i = false ∧ staticBad (mG 1) tm0 i = false) ∧
    (memLane top (i32 7)).formed 4 = true ∧ amoAccepts .add .i32 = true ∧ (memLane top (i32 7)).tagAt (4 + 1) = .i32 ∧
    tm0.scratch.wf = true ∧ tm0.own top 4 4092 ∧
    Lone (sG 1) tm0 (memLane 0x8000 (i32 7)) ∧ (mG 1).mem.wf = true ∧
    (mG 1).Reaches tm0 (memLane 0x8000 (i32 7)) 0x8000 4 true (leafOf 1) ∧ admits (leafOf 1).bits = true ∧
    pteMig (leafOf 1).bits = false ∧ pteExc (leafOf 1).bits = 1 ∧ (mG 1).settled ∧ (mG 1).atHome ((leafOf 1).pa 0x8000) :=
  ⟨mem_lone _ _ _ _, by unfold Thread.pairIs; decide, by decide, rfl, by decide, rfl, rfl, by unfold Team.own; decide,
    mem_lone _ _ _ _, rfl, reaches_G 1 4 true _ rfl rfl rfl rfl, rfl, rfl, rfl, ⟨rfl, rfl⟩, by unfold Mach.atHome; decide⟩

theorem test_amo_at_home : (match exec (.amo 5 2 4 .add) (sG 1) with
    | .next t => (leNat (t.m.mem.read 0x8000 4), t.m.threads.map fun x => x.ops.map fun o => o.kind) | _ => (0, [])) =
    (7, [[.value [i32 0]]]) := by decide
theorem test_acas_fails : (match exec (.acas 5 2 4) (sG 1) with
    | .next t => (leNat (t.m.mem.read 0x8000 4), t.m.threads.map fun x => x.ops.map fun o => o.kind) | _ => (1, [])) =
    (0, [[.value [i32 0]]]) := by decide
theorem test_apst_at_home : (match exec (.apst 2 4 .or) (sG 1) with
    | .next t => leNat (t.m.mem.read 0x8000 4) | _ => 0) = 7 := by decide

theorem witness_PartialUpdates : Lone (sG 2) tm0 (memLane 0x8000 (i32 7)) ∧ (memLane 0x8000 (i32 7)).pairIs 2 0x8000 ∧
    staticBad (mG 2) tm0 (.apst 2 4 .add) = false ∧ amoAccepts .add .i32 = true ∧
    (memLane 0x8000 (i32 7)).formed 4 = true ∧ (mG 2).Reaches tm0 (memLane 0x8000 (i32 7)) 0x8000 4 true (leafOf 2) ∧
    admits (leafOf 2).bits = true ∧ pteMig (leafOf 2).bits = false ∧ pteExc (leafOf 2).bits = 2 ∧ tm0.core < 128 ∧ (mG 2).settled ∧
    (mG 2).atHome ((leafOf 2).pa 0x8000) ∧ (mG 2).partials = [] :=
  ⟨mem_lone _ _ _ _, by unfold Thread.pairIs; decide, rfl, by decide, rfl, reaches_G 2 4 true _ rfl rfl rfl rfl, rfl, rfl, rfl,
    by decide, ⟨rfl, rfl⟩, by unfold Mach.atHome; decide, rfl⟩

/-- Destination 0x8000, sources 0x9000 and 0xA000, the count as given. -/
def xLane (n : Nat) : Thread := lane ([rv0, i32 n] ++ q 0x8000 ++ q 0x9000 ++ q 0xA000)
def sX (n : Nat) : State := one (xLane n) tm0 (mG 1)

theorem witness_PlacedArithmetic : (∀ n, Lone (sX n) tm0 (xLane n)) ∧
    (∀ n ∈ [0, 1], (xLane n).pairIs 2 0x8000 ∧ (xLane n).pairIs 4 0x9000 ∧ (xLane n).pairIs 6 0xA000 ∧ (xLane n).tagAt 1 = .i32 ∧
      ((xLane n).reg 1).bits = BitVec.ofNat 32 n) ∧
    (∀ i ∈ [Instr.xadd 2 4 6 .i32 1, .xsub 2 4 6 .i32 1, .xmul 2 4 6 .i32 1, .xfma 2 4 6 .f32 1, .xmin 2 4 6 .i32 1,
      .xmax 2 4 6 .i32 1, .xfil 2 1 .i32 1], staticBad (mG 1) tm0 i = false) ∧
    (mG 1).mem.wf = true ∧ (mG 1).settled ∧ pteExc (leafOf 1).bits ≠ 0 ∧
    (∀ x ∈ [0x8000, 0x9000, 0xA000], ∀ w, (mG 1).Reaches tm0 (xLane 1) x 4 w (leafOf 1) ∧ (mG 1).atHome ((leafOf 1).pa x)) ∧
    (leafOf 1).pa 0x9000 ≠ (leafOf 1).pa 0x8000 ∧ (leafOf 1).pa 0xA000 ≠ (leafOf 1).pa 0x8000 ∧
    (xLane 1).tagAt 1 = .i32 ∧ (xLane 1).formed 1 = true :=
  ⟨fun _ => one_lone rfl rfl rfl rfl rfl rfl, by unfold Thread.pairIs; decide, by decide, rfl, ⟨rfl, rfl⟩, by decide,
    by
      intro x hx w
      simp only [List.mem_cons, List.not_mem_nil, or_false] at hx
      rcases hx with rfl | rfl | rfl <;> cases w <;>
        exact ⟨⟨rfl, by decide, rfl, rfl, fun _ => rfl⟩, by unfold Mach.atHome; decide⟩,
    by decide, by decide, rfl, rfl⟩

theorem test_placed_one : ([Instr.xadd 2 4 6 .i32 1, .xsub 2 4 6 .i32 1, .xmin 2 4 6 .i32 1, .xfil 2 1 .i32 1].map fun i =>
    match exec i { sX 1 with m := { (sX 1).m with mem := (Memory.write [] 0x9000 [5]).write 0xA000 [3] } } with
    | .next t => leNat (t.m.mem.read 0x8000 4) | _ => 99) = [8, 2, 3, 1] := by decide
theorem test_placed_none : ([Instr.xmul 2 4 6 .i32 1, .xfma 2 4 6 .f32 1, .xmax 2 4 6 .i32 1].map fun i =>
    match exec i (sX 0) with | .next t => (t.m.mem, t.m.threads.map fun x => x.ops.length) | _ => ([], [])) =
    List.replicate 3 ([], [0]) := by decide

theorem witness_Queries : Lone sT tm0 (memLane top (i32 7)) ∧ (memLane top (i32 7)).pairIs 2 top ∧
    staticBad sT.m tm0 (.xqry 4 2) = false ∧ tm0.own top 1 4092 ∧
    Lone (sG 0) tm0 (memLane 0x8000 (i32 7)) ∧ (memLane 0x8000 (i32 7)).pairIs 2 0x8000 ∧ staticBad (mG 0) tm0 (.xqry 4 2) = false ∧
    (mG 0).lookup tm0.core ((mG 0).subOf { team := 1, tidx := 0 }) tm0.ctx 0x8000 = some (leafOf 0) ∧ pteU (leafOf 0).bits = true :=
  ⟨mem_lone _ _ _ _, by unfold Thread.pairIs; decide, rfl, by unfold Team.own; decide, mem_lone _ _ _ _,
    by unfold Thread.pairIs; decide, rfl, rfl, rfl⟩

/-! ### Releases, hurdles, watches, commands and services -/

/-- A state with more threads and teams beside the lane. -/
def crew (t : Thread) (tm : Team) (us : List Thread) (tms : List Team) (m : Mach) : State :=
  let s := one t tm m
  { s with m := { s.m with threads := t :: us, teams := tm :: tms } }

theorem crew_lone {t : Thread} {tm : Team} {us : List Thread} {tms : List Team} {m : Mach} (hr : t.ref = { team := 1, tidx := 0 })
    (hu : tm.uid = 1) (hs : t.subst = none) (hw : t.wait = .ready) (hh : t.helper = false) (hf : tm.known = []) :
    Lone (crew t tm us tms m) tm t := by
  have hb : (crew t tm us tms m).m.bundle = [t] := by simp [crew, one, Mach.bundle, Mach.thread?, hr]
  refine ⟨⟨?_, ?_, ?_, ?_, ?_, ?_, ?_, hf⟩, hb, hh⟩
  · simp [crew, one, Mach.team?, hu]
  · simp [hb]
  · intro th h; rw [hb, List.mem_singleton] at h; subst h; simp [crew, one, Mach.thread?]
  · simp [hb]
  · simp [hb, hs]
  · simp [hb, hw]
  · simp [crew, one]

/-- Class 0 is scope 0, class 3 scope 3; scope entry 4 of the context is empty. A store of the lane waits in its version. -/
theorem witness_ReleasesAcquires :
    let b : VByte := { pa := 0x8000, byte := 7, ref := { team := 1, tidx := 0 }, core := 0, op := 5, inL1 := true, diePub := false
                       stack := false, atomic := false, seen := [], vis := 0, coreAt := 0, dieAt := 0 }
    let m : Mach := { m0 with versions := [b], mirrors := [(0, 0, 0)], rounds := [(0, 1)] }
    Issues (one ints tm0 m) tm0 ∧ ints.ops = [] ∧ m.fetches = [] ∧ m.linemeta = [] ∧ ints.wait = .ready ∧ m.scopeClass tm0 0 = 0 ∧
    m.scopeClass tm0 3 = 3 ∧ m.scopeClass tm0 4 = 0 ∧
    (match exec (.prel 3) (one ints tm0 m) with
     | .next t => (t.m.versions.length, t.m.threads.map fun x => x.release.map fun r => (r.cls, r.upto)) | _ => (9, [])) =
      (1, [some (3, 10)]) ∧
    (after (.pacq 3) (one ints tm0 m)).map (·.wait) = some (.acquire [(0, 1)]) ∧
    (after (.pacq 0) (one ints tm0 m)).map (·.wait) = some .ready ∧
    (after (.phse 0) (one ints tm0 m)).map (·.wait) = some (.phse 0 10) :=
  ⟨(lane_lone _ _).issues, rfl, rfl, rfl, rfl, rfl, rfl, rfl, by decide, by decide, by decide, by decide⟩

/-- A hurdle in the last 16 bytes: generation 3, one lane of one expected arrives with no byte pending. -/
theorem witness_Hurdles :
    let tm : Team := { tm0 with scratch := Memory.write [] 4080 (leBytes (0 + 3 * 2 ^ 16 + 1 * 2 ^ 32) 16), hurdles := [4080] }
    let x := 0xFC * 2 ^ 56 + 4080
    let t (v : Nat) := memLane x (i32 v) 24
    let s (v : Nat) := one (t v) tm m0
    (∀ v, Lone (s v) tm (t v)) ∧ (∀ v ∈ [0, 1, 1024], (t v).pairIs 2 x ∧ ((t v).reg 4).bits.toNat = v ∧ (t v).pairIs 6 24) ∧
    tm.own x 16 4080 ∧ tm.scratch.wf = true ∧ staticBad (s 0).m tm (.hrdi 6 2 4) = false ∧ staticBad (s 0).m tm (.hrda 5 2 4) = false ∧
    staticBad (s 0).m tm (.hrdw 2 4) = false ∧ hurdleOf tm.scratch 4080 = (0, 3, 1, 0) ∧
    (match exec (.hrda 5 2 4) (s 0) with | .next u => (u.m.team? 1).map fun y => hurdleOf y.scratch 4080 | _ => none) =
      some (0, 4, 1, 0) ∧
    (match exec (.hrdi 6 2 4) (s 1024) with | .next u => (u.m.team? 1).map fun y => hurdleOf y.scratch 4080 | _ => none) =
      some (0, 4, 1024, 24) ∧
    (after (.hrdw 2 4) (s 3)).map (·.wait) = some (.hrdw 1 4080 3 false) ∧ (after (.hrdw 2 4) (s 1)).map (·.wait) = some .ready :=
  ⟨fun _ => one_lone rfl rfl rfl rfl rfl rfl, by unfold Thread.pairIs; decide, by unfold Team.own; decide, by decide, rfl, rfl, rfl,
    by decide, by decide, by decide, by decide, by decide⟩

/-- An I32 compared with a word of zeros: the condition fails on chip (1 ≠ 0) and holds at home (0 = 0). -/
theorem witness_Watches :
    Lone sT tm0 (memLane top (i32 7)) ∧ (memLane top (i32 7)).pairIs 2 top ∧ staticBad sT.m tm0 (.waita 1 2 4 .eq (some 3)) = false ∧
    (memLane top (i32 7)).tagAt 4 ∈ [Tag.i32, .i64] ∧ (memLane top (i32 7)).formed 4 = true ∧ tm0.own top 4 4092 ∧
    ((after (.waita 1 2 4 .eq (some 3)) sT).map fun t => match t.wait with | .waita w => w.deadline | _ => none) =
      some (some (8 + 3072)) ∧
    Lone (sG 0) tm0 (memLane 0x8000 (i32 7)) ∧ (mG 0).Reaches tm0 (memLane 0x8000 (i32 7)) 0x8000 4 false (leafOf 0) ∧
    (mG 0).atHome ((leafOf 0).pa 0x8000) ∧ iCmp .ne 32 (leNat ((mG 0).mem.read ((leafOf 0).pa 0x8000) 4)) 7 = true ∧
    (after (.waita 1 2 4 .ne none) (sG 0)).map (fun t => (t.pred 1, t.wait)) = some (true, .ready) :=
  ⟨mem_lone _ _ _ _, by unfold Thread.pairIs; decide, rfl, by decide, rfl, by unfold Team.own; decide, by decide, mem_lone _ _ _ _,
    reaches_G 0 4 false _ rfl rfl rfl rfl, by unfold Mach.atHome; decide, by decide, by decide⟩

theorem witness_DroverWords :
    let t := lane (List.replicate 16 (i32 3))
    let s := one t tm0 m0
    Lone s tm0 t ∧ staticBad s.m tm0 (.dcmd 2 0) = false ∧ tm0.qmem.wf = true ∧ (∀ j < 16, t.tagAt j ≠ .raw) ∧ Issues s tm0 ∧
    staticBad s.m tm0 (.dqry 3) = false ∧ (after (.dqry 3) s).map (fun x => x.reg 3) = some (i32 256) ∧
    (match exec (.dcmd 2 0) s with | .next u => (u.m.team? 1).map fun x => x.qtail | _ => none) = some 2 :=
  ⟨lane_lone _ _, rfl, rfl, by decide, (lane_lone _ _).issues, rfl, by decide, by decide⟩

/-- A second lane of the team parked on the page 0x8000. -/
def parkedAt (p : Nat) : Thread := { ints with
  ref := { team := 1, tidx := 1 }, wait := .parked { cause := 0x10, addr := p, page := p, bytes := 4096 } }

theorem witness_ScopesInvalidations :
    let b : RV := { bits := 1, tag := .b128 }
    let sc := one (lane [b, b, b, b]) tm0 m0
    let t := memLane 0x8000 (i32 0)
    let s := crew t tm0 [parkedAt 0x8000] [] (mG 0)
    Issues sc tm0 ∧ staticBad sc.m tm0 (.scpg 4 0) = false ∧ staticBad sc.m tm0 (.scpg 31 0) = false ∧
    (∀ th ∈ sc.m.bundle, th.tagAt 0 = .b128 ∧ th.formed 0 = true) ∧
    Lone s tm0 t ∧ t.pairIs 2 0x8000 ∧ s.m.cmds = [] ∧ s.m.launches = [] ∧ (∀ y ∈ s.m.threads, y.ops = []) ∧
    (∀ p ∈ [InvtMode.page 2, .nonGlobal, .all], staticBad s.m tm0 (.invt p) = false) ∧
    (match exec (.invt (.page 2)) s with | .next u => (u.m.tlb, u.m.threads.map (·.wait)) | _ => ([], [])) = ([], [.ready, .ready]) ∧
    (match exec (.scpg 31 0) sc with | .next u => (u.m.ctx? 1).map fun c => c.scopes.getD 27 0 | _ => none) =
      some (1 + 2 ^ 32 + 2 ^ 64 + 2 ^ 96) :=
  ⟨(lane_lone _ _).issues, rfl, rfl, one_all rfl (by decide), crew_lone rfl rfl rfl rfl rfl rfl, by unfold Thread.pairIs; decide,
    rfl, rfl, by decide, by decide, by decide, by decide⟩

theorem witness_LaunchShootdownWords :
    let t := lane ([rv0, rv0] ++ q 0x8000 ++ q (0xFC * 2 ^ 56 + 3968) ++ q (0xFC * 2 ^ 56 + 4088))
    let s := one t tm0 (mG 0)
    Lone s tm0 t ∧ t.pairIs 2 0x8000 ∧ t.pairIs 4 (0xFC * 2 ^ 56 + 3968) ∧ t.pairIs 6 (0xFC * 2 ^ 56 + 4088) ∧
    staticBad s.m tm0 (.lnch 0 4) = false ∧ tm0.own (0xFC * 2 ^ 56 + 3968) 128 3968 ∧
    (mG 0).Reaches tm0 t 0x8000 128 false (leafOf 0) ∧ staticBad s.m tm0 (.xsht 4 2 6) = false ∧
    tm0.own (0xFC * 2 ^ 56 + 4088) 8 4088 ∧
    (after (.lnch 0 4) s).map (fun x => x.ops.map (·.kind)) = some [.launch false 3968 0 false (List.replicate 128 0)] ∧
    (after (.lnch 0 2) s).map (fun x => x.ops.map (·.kind)) = some [.launch true 0x8000 0x8000 false []] :=
  ⟨lane_lone _ _, by unfold Thread.pairIs; decide, by unfold Thread.pairIs; decide, by unfold Thread.pairIs; decide, rfl,
    by unfold Team.own; decide, ⟨rfl, by decide, rfl, rfl, fun _ => rfl⟩, rfl, by unfold Team.own; decide, by decide, by decide⟩

theorem witness_ServiceCalls :
    let sh : Team := { tm0 with uid := 2, core := 1, shepherd := true }
    let m : Mach := { m0 with services := true }
    let s := crew ints tm0 [] [sh] m
    Issues s tm0 ∧ staticBad s.m tm0 (.svc 0x21 4) = false ∧ s.m.ctx? tm0.ctx = some benchCtx ∧ benchCtx.desc.svcok = true ∧
    tm0.shepherd = false ∧ s.m.shepherd? (dieOf tm0.core) = some sh ∧ (∃ th ∈ s.m.bundle, th.helper = false) ∧
    (after (.svc 0x21 4) s).map (·.wait) = some (.service 10) ∧
    Issues sI tm0 ∧ sI.m.services = false ∧ (∀ th ∈ sI.m.bundle, th.canEnter) ∧ staticBad sI.m tm0 (.svc 1 4) = false ∧
    causeOf (.svc 1 4) [] = some (0x41, 300) :=
  ⟨(crew_lone rfl rfl rfl rfl rfl rfl).issues, rfl, rfl, rfl, rfl, by decide,
    by rw [(crew_lone rfl rfl rfl rfl rfl rfl).bundle]; exact ⟨_, List.mem_singleton.2 rfl, rfl⟩, by decide, (lane_lone _ _).issues, rfl,
    one_all rfl (by unfold Thread.canEnter; decide), rfl, by decide⟩

/-! ### Tile words -/

theorem clean_of {m : Mach} {tm : Team} {t : Thread} {p : Nat}
    (h : ((m.pieces tm t 16 p 49152).all fun q => match q.2.2 with | .ok l => pteD l.bits | _ => true) = true) :
    ∀ q ∈ m.pieces tm t 16 p 49152, ∀ l, q.2.2 = .ok l → pteD l.bits = true := by
  intro q hq l hl
  have := List.all_eq_true.1 h q hq
  simpa [hl] using this

/-- Row words, and addresses in global memory: 0x8000 for TLD and TST, and for an area, whose executor is HOME. -/
theorem witness_TileWords_rows :
    let t := memLane 0x8000 (i32 65535)
    let s := one t tm0 (mG 1)
    let f := one (lane (List.replicate 16 (f32 1))) tm0 m0
    Issues s tm0 ∧ s.m.bundle.head? = some t ∧ (∀ q ∈ s.m.tileq, q.order ≠ s.m.uid) ∧
    (∀ i ∈ [Instr.tzro 0 .f64, .tcvt 0 0 .i32 .rne, .trdr 0 8 63, .tld 0 .f32 2, .tst 0 2, .tspl 0 4 2, .tfch 0 4 2, .twrr 0 8 0, .tscl 0 8,
      .tred 0 8 .max], staticBad s.m tm0 i = false) ∧
    s.m.tagOf tm0 0 = .f32 ∧ s.m.tileAddr tm0 t 0x8000 128 false true = none ∧ s.m.tileAddr tm0 t 0x8000 128 true true = none ∧
    (∀ q ∈ s.m.pieces tm0 t 16 0x8000 49152, ∀ l, q.2.2 = .ok l → pteD l.bits = true) ∧ (∃ th ∈ s.m.bundle, th.helper = false) ∧
    t.pairIs 2 0x8000 ∧ t.tagAt 4 = .i32 ∧ (t.reg 4).bits.toNat = 65535 ∧ s.m.tileAddr tm0 t 0x8000 4096 true false = none ∧
    s.m.tileAddr tm0 t 0x8000 4096 false false = none ∧
    Issues f tm0 ∧ (∀ th ∈ f.m.bundle, ∃ w ∈ [Tag.i32, .f32, .f64], (lane (List.replicate 16 (f32 1))).tagAt 8 = w ∧
      ∀ j < 8, th.tagAt (8 + j) = w) ∧ ∀ th ∈ f.m.bundle, ∀ j < 2, th.tagAt (8 + j) = .f32 :=
  ⟨(mem_lone _ _ _ _).issues, by decide, by simp [one, m0, mG, Mach.reset], by decide, by decide, by decide, by decide, clean_of (by decide),
    by rw [(mem_lone _ _ _ _).bundle]; exact ⟨_, List.mem_singleton.2 rfl, rfl⟩, by unfold Thread.pairIs; decide, rfl, by decide, by decide,
    by decide, (lane_lone _ _).issues, one_all rfl (by decide), one_all rfl (by decide)⟩

/-- An F64 tile: TSCL of two pairs from a register divisible by 4. -/
theorem witness_TileWords_f64 :
    let tm : Team := { tm0 with tileTags := [.f64] }
    let f : RV := { bits := 1, tag := .f64 }
    let s := one (lane (List.replicate 16 f)) tm m0
    Issues s tm ∧ s.m.tagOf tm 0 = .f64 ∧ staticBad s.m tm (.tscl 0 12) = false ∧ (12 : Nat) % 4 = 0 ∧ 12 + 4 ≤ tm.regs ∧
    (∀ th ∈ s.m.bundle, ∀ j < 4, th.tagAt (12 + j) = .f64) ∧ staticBad s.m tm (.tred 0 14 .sum) = false :=
  ⟨(one_lone rfl rfl rfl rfl rfl rfl).issues, by decide, rfl, by decide, by decide, one_all rfl (by decide), rfl⟩

/-- TMMA of BF16 takes 12,288 bytes of B, the whole of three pages; of KN4 24,576, its format from the extension. -/
theorem witness_TileWords_tmma :
    let h : RV := { bits := 1, tag := .bf16x2 }
    let t := lane ([rv0, rv0] ++ q (0xFC * 2 ^ 56) ++ List.replicate 8 h)
    let tm : Team := { tm0 with scr := 3 }
    let s := one t tm m0
    let f : Shape := { k := 16, fmts := [.bf16], own := some .bf16, tile := .f32 }
    let h' : RV := { bits := 1, tag := .kn4x8 }
    let t' := lane ([rv0, rv0] ++ q (0xFC * 2 ^ 56) ++ List.replicate 8 h' ++ [i32 1, f32 1])
    let tm' : Team := { tm0 with scr := 6 }
    let s' := one t' tm' m0
    let f' : Shape := { k := 64, fmts := [.e4m3, .e5m2], own := none, tile := .f32 }
    let e : TmmaExt := { diag := 0, fill := .zero, tri := false, bfmt := some .e5m2 }
    (Issues s tm ∧ (∀ th ∈ s.m.bundle, th.latch = none ∧ laneShape 4 th = some f) ∧ bFormat 4 none t = some .bf16 ∧ f.own = some .bf16 ∧
      .bf16 ∈ f.fmts ∧ f.tile = s.m.tagOf tm 0 ∧ tm.own (0xFC * 2 ^ 56) 1 0 ∧ 0 + bBytes f.k .bf16 ≤ 4096 * tm.scr ∧
      staticBad s.m tm (.tmma 0 4 2 true none) = false ∧
      (after (.tmma 0 4 2 true none) s).map (fun x => x.latch.map fun l => l.a) = some (some 4)) ∧
    (Issues s' tm' ∧ (∀ th ∈ s'.m.bundle, th.latch = none ∧ laneShape 4 th = some f' ∧ ((aBlock 4 th).getD 8 rv0).tag = .i32 ∧
        ((aBlock 4 th).getD 9 rv0).tag = .f32) ∧ (4 : Nat) + 10 ≤ tm'.regs ∧ bFormat 4 (some e) t' = some .e5m2 ∧ .e5m2 ∈ f'.fmts ∧
      e.bfmt = some .e5m2 ∧ f'.tile = s'.m.tagOf tm' 0 ∧ tm'.own (0xFC * 2 ^ 56) 1 0 ∧ 0 + bBytes f'.k .e5m2 ≤ 4096 * tm'.scr ∧
      staticBad s'.m tm' (.tmma 0 4 2 false (some e)) = false ∧
      (after (.tmma 0 4 2 false (some e)) s').map (fun x => (x.pc.toNat, x.latch)) = some (5, none)) :=
  ⟨⟨(one_lone rfl rfl rfl rfl rfl rfl).issues, one_all rfl (by decide), by decide, rfl, by decide, by decide, by unfold Team.own; decide,
    by decide, rfl, by decide⟩, (one_lone rfl rfl rfl rfl rfl rfl).issues, one_all rfl (by decide), by decide, by decide, by decide, rfl,
    by decide, by unfold Team.own; decide, by decide, rfl, by decide⟩

/-! ### Events -/

/-- The machine after an event. -/
def ran (i : Instr) (s : State) : Mach := match exec i s with | .next t => t.m | _ => Mach.reset

def t0 : TRef := { team := 1, tidx := 0 }

/-- A state whose lane waits in some way. -/
def waits (w : Wait) (m : Mach) : State := one { ints with wait := w } tm0 m

def trap0 : TrapInfo := { cause := 5, pc := 3, inst := 0x77, mask := 1, addr := 0, exc := 0, sub := sub0, dst := .none, resume := 3 }

/-- A WAITA of a word at 0x8000 that compares with 0. -/
def wa (dl : Option Nat) (w : Option Bool) (rec : Bool) : WaitA := {
  k := 1, watch := .line 0x8000 0x8000, width := 4, cond := .eq, value := 0, deadline := dl, foreign := false, record := rec, woken := w }

theorem witness_ThreadEvents :
    (let s := waits (.entering trap0) m0
     s.m.thread? t0 = some { ints with wait := .entering trap0 } ∧ s.m.team? t0.team = some tm0 ∧ ints.resultsDue = false ∧
     ints.handlerActive = false ∧ ints.utvec ≠ 0 ∧
     ((ran (.handlerEntry t0) s).thread? t0).map (fun x => (x.fltCause.toNat, x.pc.toNat, x.wait)) = some (5, 300, .ready)) ∧
    (m0.clk % 4 = 0 ∧ ({ m0 with clk := 9 } : Mach).clk % 4 ≠ 0 ∧ sI.m.groupsAt 0 0 = [startGroup 1 1 0 0 0] ∧
     ((ran (.regroup 0 0) sI).group? 1 0).map (·.bundles) = some [1]) ∧
    tm0.status = .running ∧
    ((wa none (some true) true).inTime m0.clk = true ∧
     ((ran (.waitaWake t0) (waits (.waita (wa none (some true) true)) m0)).thread? t0).map (fun x => (x.pred 1, x.wait)) =
      some (true, .woken)) ∧
    ((wa (some 8) (some true) true).inTime m0.clk = false ∧
     ((ran (.waitaWake t0) (waits (.waita (wa (some 8) (some true) true)) m0)).thread? t0).map (fun x => (x.pred 1, x.wait)) =
      some (false, .woken)) ∧
    (let s := waits (.waita (wa none (some false) true)) m0
     (wa none (some false) true).inTime m0.clk = true ∧ ints.helper = false ∧
     ((ran (.waitaWake t0) s).thread? t0).map (fun x => (x.pred 1, x.wait)) = some (false, .woken) ∧
     ((ran (.waitaWake t0) s).team? 1).map (fun y => y.latent.map fun i => (i.cause, i.addr.toNat)) = some [(0x30, 0x8000)]) ∧
    ((ran (.waitaTimeout t0) (waits (.waita (wa (some 8) none true)) m0)).thread? t0).map (fun x => (x.pred 1, x.wait)) =
      some (false, .woken) ∧
    ((wa (some 9) none false).inTime m0.clk = true ∧ m0.atHome 0x8000 ∧ iCmp .eq 32 (leNat (m0.mem.read 0x8000 4)) 0 = true ∧
     ((ran (.monitorPoll t0) (waits (.waita (wa (some 9) none false)) m0)).thread? t0).map (fun x => (x.pred 1, x.wait)) =
      some (true, .woken)) ∧
    ((ran (.hrdwWake t0) (waits (.hrdw 1 0 genWoken false) m0)).thread? t0).map (·.wait) = some .ready :=
  ⟨by decide, by decide, rfl, by decide, by decide, by decide, by decide,
    ⟨by decide, by unfold Mach.atHome; decide, by decide, by decide⟩, by decide⟩

/-- A lane with one operation outstanding. -/
def owes (o : Op) (m : Mach) : State := one { ints with ops := [o] } tm0 m

def opOf (k : OpKind) : Op := { id := 9, kind := k, dst := .regs 5 .i32 1, loads := true, stores := false, tile := false }

def rq : LoadReq := { pa := 0x807C, va := 0x807C, size := 4, nc := false, alloc := true, bound := none, copy := none, data := none }

def vb : VByte := { pa := 0x8000, byte := 7, ref := t0, core := 0, op := 9, inL1 := false, diePub := false, stack := false
                    atomic := false, seen := [], vis := 0, coreAt := 0, dieAt := 0 }

/-- Tables of three levels that map the first GiB, for a walk. -/
def mW : Mach := { m0 with
  mem := benchMem [] []
  walks := [{ die := 0, ctx := 1, va := 8 }]
  walkCache := [{ die := 0, ctx := 1, level := 4, va := 0, table := 0x2000 }, { die := 0, ctx := 1, level := 3, va := 0, table := 0x3000 }] }

theorem witness_Completions :
    (let s := owes (opOf (.value [i32 3])) m0
     s.m.thread? t0 = some { ints with ops := [opOf (.value [i32 3])] } ∧ s.m.team? 1 = some tm0 ∧ ints.wait ≠ .exited ∧
     ((ran (.loadReturn t0 9) s).thread? t0).map (fun x => (x.reg 5, x.ops)) = some (i32 3, [])) ∧
    (let m := { m0 with mem := Memory.write [] 0x807C [1, 2] }
     let f (b : Bool) : Fetch := { id := 20, core := 0, line := 0x8000, alloc := b }
     let of_ (r : LoadReq) (fs : List Fetch) := ran (.loadReturn t0 9) (owes (opOf (.load r)) { m with fetches := fs })
     m.versions = [] ∧ m.tileq = [] ∧ m.l1? 0 (lineOf 0x807C) = none ∧ m.atHome 0x807C ∧ rq.pa % 128 + rq.size ≤ 128 ∧
     isFold rq.pa = false ∧ (m.l1Set tm0.core (setOf 0x8000)).length < 16 ∧ tm0.core < 128 ∧ rq.fetch = none ∧
     (∀ x ∈ [of_ rq [], of_ { rq with nc := true } [], of_ { rq with fetch := some 20 } [f true], of_ { rq with fetch := some 20 } [f false]],
       (x.thread? t0).map (fun y => (y.reg 5, y.ops)) = some (i32 0x201, []) ∧ x.fetches = []) ∧
     (of_ { rq with fetch := some 20 } [f true]).l1.map (fun c => (c.line, c.data.getD 124 9)) = [(0x8000, 1)] ∧
     (of_ { rq with fetch := some 20 } [f false]).l1 = []) ∧
    (let m := ran (.storeComplete t0 9) (owes (opOf (.store 0x8000)) { m0 with versions := [vb] })
     (m.versions.map fun b => (b.inL1, b.vis)) = [(true, 10)] ∧ (m.thread? t0).map (·.ops) = some []) ∧
    (let s := waits (.walk (0x8000 / 4096) 1) mW
     { die := dieOf tm0.core, ctx := tm0.ctx, va := 0x8000 / 4096 } ∈ s.m.running (dieOf tm0.core) ∧ s.m.ctx? tm0.ctx = some benchCtx ∧
     (s.m.walk 0 1 (0x8000 / 4096 * 4096) true).2 = some (leafOf 0) ∧ (s.m.walk 0 1 (0x8000 / 4096 * 4096) true).1 = s.m ∧
     ((ran (.walkComplete 0 1 0x8000) s).thread? t0).map (fun x => (x.wait, x.inhand)) = some (.ready, [(8, some (leafOf 0))]) ∧
     (ran (.walkComplete 0 1 0x8000) s).walks = []) ∧
    (let s := waits (.walk 8 1) { mW with mem := [], walkCache := [] }
     (match s.m.walkFrom 0 1 (8 * 4096) 5 benchCtx.desc.root with | (m, .absent 4) => m == s.m | _ => false) = true ∧
     ((ran (.walkComplete 0 1 0x8000) s).thread? t0).map (fun x => (x.wait, x.inhand)) = some (.ready, [(8, none)])) :=
  ⟨by decide, ⟨rfl, rfl, rfl, by unfold Mach.atHome; decide, by decide, rfl, by decide, by decide, rfl, by decide, by decide, by decide⟩,
    by decide, by decide, by decide⟩

/-- A byte of the lane, its store done: held at Die class on a STACK page, placed at its home otherwise and from Module class on; a
Module release counts its regions once, and ends; one of Core class ends at once. -/
theorem witness_Releases :
    let r (c : Nat) (rs : List Nat) (b : Bool) : Release := { cls := c, upto := 10, regions := rs, lines := [], counted := b }
    let s (r : Release) (vs : List VByte) : State := one { ints with release := some r } tm0 { m0 with versions := vs }
    let b (st : Bool) : VByte := { vb with inL1 := true, stack := st }
    let to_ (r : Release) (vs : List VByte) := ran (.publicationComplete t0) (s r vs)
    let rel (m : Mach) := (m.thread? t0).map fun x => x.release.map fun y => (y.regions, y.lines, y.counted)
    (∀ r vs, (s r vs).m.thread? t0 = some { ints with release := some r }) ∧ ints.storesDone 10 = true ∧ m0.atHome vb.pa ∧
    isFold vb.pa = false ∧ m0.mem.wf = true ∧ vb.op < 10 ∧
    (m0.homeDie (lineOf vb.pa) = dieOf vb.core ∧ spaceOf (lineOf vb.pa) ≠ 2) ∧ [regionOf vb.pa].Nodup ∧
    rel (to_ (r 0 [] false) [b false]) = some none ∧ ((to_ (r 0 [] false) [b false]).versions.map (·.byte)) = [7] ∧
    (∀ p ∈ [(1, b false), (2, b true), (3, b false)], leNat ((to_ (r p.1 [] false) [p.2]).mem.read 0x8000 1) = 7 ∧
      (to_ (r p.1 [] false) [p.2]).versions = [] ∧ rel (to_ (r p.1 [] false) [p.2]) = some (some ([regionOf 0x8000], [0x8000], false))) ∧
    (to_ (r 1 [] false) [b true]).versions.map (fun y => (y.diePub, y.heldFor, y.dieAt)) = [(true, 1, 10)] ∧
    (to_ (r 2 [0] false) []).rounds = [(0, 1)] ∧ rel (to_ (r 2 [0] false) []) = some (some ([0], [], true)) ∧
    rel (to_ (r 2 [0] true) []) = some none ∧ rel (to_ (r 3 [] false) []) = some none ∧ rel (to_ (r 1 [0] false) []) = some none :=
  ⟨fun _ _ => rfl, by decide, by unfold Mach.atHome; decide, rfl, rfl, by decide, by decide, by decide, by decide, by decide, by decide,
    by decide, by decide, by decide, by decide, by decide, by decide⟩

theorem witness_CoherenceEvents :
    (m0.atHome 0x8000 ∧ m0.l1? 127 0x8000 = none ∧ (m0.l1Set 127 (setOf 0x8000)).length < 16 ∧
     (let m := ran (.ownershipUpgrade 127 0x8000) sI
      (stateOf (m.meta 0x8000), ownerOf (m.meta 0x8000), (m.l1? 127 0x8000).map (·.owned)) = (2, 127, some true))) ∧
    (let m := { m0 with linemeta := [(0x8000, mkMeta 6 0 0 0)] }
     m.poisoned 0x8000 = true ∧ (one ints tm0 m).m.teamsAt 0 = [tm0] ∧ (one ints tm0 m).m.team? tm0.uid = some tm0 ∧
     ((ran (.ownershipUpgrade 0 0x8000) (one ints tm0 m)).team? 1).map (fun x => x.latent.map fun i => (i.cause, i.addr.toNat)) =
      some [(0x30, 0x8000)]) ∧
    (∀ st ∈ [2, 3, 4], let m := { m0 with
       versions := [{ vb with atomic := true, inL1 := true }], linemeta := [(0x8000, mkMeta st 0 0 0)] }
     m.mem.wf = true ∧ stateOf (m.meta 0x8000) = st ∧ ownerOf (m.meta 0x8000) = 0 ∧ lineOf vb.pa = 0x8000 ∧
     (let n := ran (.lineRecall 0x8000) (one ints tm0 m)
      (leNat (n.mem.read 0x8000 1), n.versions, stateOf (n.meta 0x8000), sharersOf (n.meta 0x8000)) = (7, [], 1, 1))) ∧
    (ran (.updtPartialEvict 0 0x8000) (one ints tm0 { m0 with partials := [{ core := 0, line := 0x8000, elems := [], home := false }] })).partials.map
      (·.home) = [true] ∧
    (ran (.mirrorPush 1 0) (one ints tm0 { m0 with mirrors := [(1, 0, 5)], rounds := [(0, 6)] })).mirrors = [(1, 0, 6)] ∧
    (let line := 2 * 2 ^ 54
     let c (core : Nat) : L1Line := { core := core, line := line, data := List.replicate 128 0, round := 0, owned := false, since := 0 }
     line % 128 = 0 ∧ spaceOf line = 2 ∧ m0.atHome line ∧
     (ran (.multicastInvalidation line) (one ints tm0 { m0 with l1 := [c 0, c 128] })).l1.map (·.core) = [128]) :=
  ⟨⟨by unfold Mach.atHome; decide, by decide, by decide, by decide⟩, by decide, by decide, by decide, by decide, by decide, by decide,
    by unfold Mach.atHome; decide, by decide⟩

/-! ### Tile units and drovers -/

theorem home_all {m : Mach} (h : m.linemeta = []) (p : m.ports = List.replicate 4 .pcie) (a : Nat) : m.atHome a := by
  simp [Mach.atHome, Mach.meta, Mach.shadowed, getAssoc, h, p, stateOf, List.range, List.range.loop]

/-- One operation of the lane in the tile unit. -/
def tq (i : Instr) : TileOp := { m0.newTileOp tm0 t0 i 9 with op := 9, lanes := [(0, t0, List.replicate 8 { bits := 1, tag := .bf16x2 })] }

def sQ (q : TileOp) : State := owes { opOf .plain with dst := .none, loads := false, tile := true } { m0 with tileq := [q], clk := 9 }

/-- TSPL of chunk `n` to the twelve pages from 0x10000. -/
def spl (n : Nat) : TileOp := { tq (.tspl 0 4 2) with num := n, pas := (List.range 12).map fun j => (0x10000 + 4096 * j, 4096, false) }

def xshtOp (l : Option Leaf) (va : Nat) : Op := { opOf (.xsht {
  va := va, leaf := l, value := 5, page := 0, bytes := 0, cmds := [], tiles := [], stamps := [] }) with loads := false, stores := true }

theorem witness_TileUnitEvents :
    let s := sQ (tq (.trdr 0 8 63))
    (s.m.tileq = [tq (.trdr 0 8 63)] ∧ s.m.team? 1 = some tm0 ∧ tm0.status ≠ .saved ∧ tm0.tileMem.wf = true ∧ (0 : Nat) < 32 ∧ (tq (.trdr 0 8 63)).crossed = [] ∧ (tq (.trdr 0 8 63)).cycle < s.m.clk ∧
     s.m.thread? t0 = some { ints with ops := [{ opOf .plain with dst := .none, loads := false, tile := true }] } ∧
     (let m := ran (.tileOperationComplete 0 0) s
      (m.tileq, (m.thread? t0).map fun x => (x.ops, x.reg 15)) = ([], some ([], f32 0)))) ∧
    ((tq (.tzro 0 .f64)).instr = .tzro 0 .f64 ∧
     (let q := { tq (.tmma 0 4 2 false none) with addr := some (.scratch 1 0), num := 12288 }
      q.dirty = [] ∧ (q.lanes.map fun l => shapeOf (l.2.2.headD rv0).tag) =
        [some { k := 16, fmts := [.bf16], own := some .bf16, tile := .f32 }])) ∧
    (∀ n ∈ [0, 15], (spl n).sent = false ∧ (spl n).pas = ((List.range 12).map fun j => 0x10000 + 4096 * j).map (fun p => (p, 4096, false))) ∧
    (∀ p ∈ (List.range 12).map fun j => 0x10000 + 4096 * j, p % 4096 = 0) ∧ ((List.range 12).map fun j => 0x10000 + 4096 * j).Nodup ∧
    (∀ a, (sQ (spl 0)).m.atHome a) ∧ (sQ (spl 0)).m.areas = [] ∧
    (let m := ran (.chunkArrival 0 0) (sQ (spl 15))
     (m.areas.map fun a => (a.next, a.chunks.map (·.1)), m.tileq.map (·.sent)) = ([(0, [15])], [true])) ∧
    (let st (o : Op) := owes o { m0 with tileq := [tq (.tzro 0 .f32)], clk := 9 }
     (let m := ran (.xshtDrainDone t0 9) (st (xshtOp none 4088))
      ((m.team? 1).map fun x => leNat (x.scratch.read 4088 8), (m.thread? t0).map (·.ops)) = (some 5, some [])) ∧
     (let m := ran (.xshtDrainDone t0 9) (st (xshtOp (some (leafOf 0)) 0x8000))
      (leNat (m.mem.read 0x8000 8), (m.thread? t0).map (·.ops)) = (5, some [])) ∧ (leafOf 0).pa 0x8000 % 8 = 0) :=
  ⟨by decide, ⟨rfl, by decide⟩, by decide, by decide, by decide, fun a => home_all rfl rfl a, rfl, by decide, by decide⟩

/-- An entry of eight words. -/
def entryOf (ws : List Nat) : BitVec 256 := BitVec.ofNat 256 (ws.foldr (fun w v => w + 2 ^ 32 * v) 0)

/-- The words of an address. -/
def wd (a : Nat) : List Nat := [a % 2 ^ 32, a / 2 ^ 32]

def chip : Nat := 0xFC * 2 ^ 56

/-- A command of the lane: its kind with its fields, its fill value, its destination and its other entries. -/
def cmdOf (w0 fillv : Nat) (st : List Nat) (dst : Nat) (es : List (List Nat)) : Cmd := {
  id := 9, team := 1, owner := t0, inst := 0, seq := 0, next := 0, landed := 0, done := false, status := 0, badAddr := 0, pieces := []
  parked := none, lat := .near, pages := [(0, leafOf 1)], entries := entryOf ([w0, fillv] ++ st ++ wd dst) :: es.map entryOf }

def sC (c : Cmd) : State := one { ints with drover := 1 } tm0 { mG 1 with cmds := [c] }

theorem witness_DroverQueues :
    (let tm := { tm0 with qtail := 2, qcmds := [(2, t0, 0x77)], qmem := Memory.write [] 0 (leBytes (0xA + 0x20) 4) }
     let s := one ints tm m0
     let m := ran (.droverAccept 1) s
     s.m.team? 1 = some tm ∧ s.m.thread? t0 = some ints ∧ s.m.noAccept = false ∧ tm.status = .running ∧
     m.cmds.map (fun c => (c.status, c.done, c.inst)) = [(2, true, 0x77)] ∧ (m.team? 1).map (fun x => (x.qhead, x.qcmds)) = some (2, [])) ∧
    (let c := { cmdOf 0x20 0 [0, 0, 0, 0] chip [] with pieces := [{ id := 5, dst := .scratch 1 4090, bytes := [1, 2, 3, 4, 5, 6] }] }
     let m := ran (.payloadLand 9 5) (sC c)
     c.crh = false ∧ (m.cmds.map (·.landed), (m.team? 1).map fun x => leNat (x.scratch.read 4095 1)) = ([6], some 6)) ∧
    (let c := { cmdOf 0x20 0 [0, 0, 0, 0] chip [] with done := true, status := 6, badAddr := 0x40 }
     let m := ran (.droverCommandEnd 9) (sC c)
     c.staddr = 0 ∧ (m.cmds, (m.thread? t0).map (·.drover), (m.team? 1).map fun x => x.latent.map fun i => (i.cause, i.addr.toNat)) =
      ([], some 0, some [(0x31, 0x40)])) ∧
    (let c := cmdOf 0x19 0 (wd (chip + 4088) ++ wd 0x12345) 0 []
     let m := ran (.droverStamp 9) (sC c)
     c.kind = 9 ∧ tm0.own c.staddr 8 4088 ∧ (m.cmds, (m.thread? t0).map (·.drover),
      (m.team? 1).map fun x => leNat (x.scratch.read 4088 8)) = ([], some 0, some 0x10000)) :=
  ⟨by decide, by decide, by decide, rfl, by unfold Team.own; decide, by decide⟩

/-- A gather of one row of 8 bytes at index 0 of a table of one row, or of none; its index at 64. -/
def gather (rows : Nat) : Cmd := cmdOf 0xA4 7 [0, 0, 0, 0] (chip + 4088) [wd chip ++ wd (chip + 64) ++ [1, 8, 8, rows]]

/-- A window of two elements of 4 bytes over a tensor of one element: the second lies outside. -/
def window (k : Nat) : Cmd := cmdOf (k + 0xB0) 7 [0, 0, 0, 0] (chip + 256) [wd chip ++ [1, 1, 0, 0, 2, 1], [4, 4, 8, 8, 0, 1, 1, 0]]

theorem witness_DroverCopies :
    (∀ i ∈ [cmdOf 0x20 0 [0, 0, 0, 0] (chip + 4084) [wd chip ++ [12, 0, 0, 0, 0, 0]],
       cmdOf 0xA1 0 [0, 0, 0, 0] (chip + 4084) [[0x0403, 9, 12, 0, 0, 0, 0, 0]]],
     (sC i).m.team? i.team = some tm0 ∧ (sC i).m.cmds = [i] ∧ i.done = false ∧ min 256 (i.word 1 2 - i.next) = 12 ∧
     tm0.own (i.dst + i.next) 1 4084 ∧ 4084 + 12 ≤ 4096 * tm0.scr) ∧
    (let c := cmdOf 0x20 0 [0, 0, 0, 0] (chip + 4084) [wd chip ++ [12, 0, 0, 0, 0, 0]]
     c.kind = 0 ∧ tm0.own (c.src + c.next) 1 0 ∧
     (ran (.lin 9) (sC c)).cmds.map (fun c => (c.pieces.map fun p => p.dst, c.done)) = [([.scratch 1 4084, .scratch 1 4088], true)]) ∧
    (let c := cmdOf 0xA1 0 [0, 0, 0, 0] (chip + 4084) [[0x0403, 9, 12, 0, 0, 0, 0, 0]]
     c.kind = 1 ∧ (ran (.fill 9) (sC c)).cmds.map (fun c => (c.pieces.map fun p => p.bytes).flatten.take 4) = [[3, 4, 0, 0]]) ∧
    (∀ p ∈ [(2, Instr.ten2 9), (3, .ten3 9)], let c := window p.1
     c.kind = p.1 ∧ c.esize = 4 ∧ min (256 / c.esize) (c.window - c.next) = 2 ∧ c.element 0 = (some chip, chip + 256) ∧
     c.element 1 = (none, chip + 260) ∧
     (ran p.2 (sC c)).cmds.map (fun c => c.pieces.map fun p => (p.dst, p.bytes)) =
      [[(.scratch 1 256, [0, 0, 0, 0]), (.scratch 1 260, [7, 0, 0, 0])]]) ∧
    (∀ r ∈ [0, 1], let c := gather r
     c.kind = 4 ∧ c.esize = 4 ∧ tm0.own (c.wide 1 2 + 4 * c.next) 1 64 ∧ tm0.own (c.dst + c.next * c.word 1 5) 1 4088 ∧ c.word 1 5 % c.esize = 0 ∧
     toS 32 (leNat (tm0.scratch.read 64 4)) = 0 ∧ c.fill.length = 4 ∧ tm0.own ((c.src : Int) + 0 * c.int 1 6).toNat 1 0 ∧
     (ran (.gath 9) (sC c)).cmds.map (fun c => (c.pieces.map fun p => p.bytes).flatten) =
      [if r = 0 then [7, 0, 0, 0, 7, 0, 0, 0] else List.replicate 8 0]) :=
  ⟨by unfold Team.own; decide, by unfold Team.own; decide, by decide, by decide, by unfold Team.own; decide⟩

/-- An indexed sum of one element and one index 0; a row unit zeroed, copied; a collective of one rank, its member list at 0x40000
(module 0). -/
def idx : Cmd := cmdOf 0x65 0 [0, 0, 0, 0] 0x8000 [wd 0x9000 ++ wd 0xA000 ++ [1, 4, 4, 1]]
def rows (k : Nat) : Cmd := cmdOf (0x20 + k) 0 [0, 0, 0, 0] 0x8000 [wd (if k = 6 then 0xC000 else 0) ++ [8192, 0, 0, 0, 0, 0]]
def lone : Cmd := cmdOf 0x68 0 [0, 0, 0, 0] 0x8000 [wd 0x9000 ++ [1, 0, 1, 0] ++ wd 0x40000]

theorem witness_DroverHomeKinds :
    (∀ c ∈ [idx, rows 6, rows 7, lone], (sC c).m.team? c.team = some tm0 ∧ (sC c).m.cmds = [c] ∧ c.done = false ∧ c.parked = none ∧
      c.next = 0 ∧ c.crh = false ∧ c.dst < 2 ^ 57 ∧ c.dst % 8192 = 0 ∧
      c.pages.find? (fun p => decide (p.1 ≤ c.dst) && decide (c.dst < p.1 + p.2.size)) = some (0, leafOf 1)) ∧
    (∀ c, (sC c).m.mem.wf = true ∧ (sC c).m.settled ∧ (∀ a, (sC c).m.atHome a) ∧
      (sC c).m.allowed tm0.ctx (leafOf 1) true false = true ∧ (sC c).m.allowed tm0.ctx (leafOf 1) false false = true) ∧
    pteD (leafOf 1).bits = true ∧
    (idx.kind = 5 ∧ idx.tag = some .i32 ∧ idx.word 1 4 = 1 ∧ idx.word 1 5 = 4 ∧ (sC idx).m.lookup 0 0 1 0x8000 = some (leafOf 1) ∧
      pteExc (leafOf 1).bits = 1 ∧ admits (leafOf 1).bits = true ∧ pteMig (leafOf 1).bits = false ∧ idx.wide 1 2 = 0xA000 ∧
      toS 32 (leNat ((sC idx).m.mem.read ((leafOf 1).pa 0xA000) 4)) = 0 ∧ idx.word 1 7 = 1 ∧ idx.src = 0x9000 ∧
      (ran (.idxr 9) { sC idx with m := { (sC idx).m with mem := (Memory.write [] 0x9000 [5]).write 0x8000 [3] } }).mem =
        (Memory.write [] 0x8000 [8]).write 0x9000 [5]) ∧
    ((rows 6).kind = 6 ∧ (rows 7).kind = 7 ∧ (rows 6).word 1 2 = 8192 ∧ (rows 6).src % 8192 = 0 ∧ pteSz (leafOf 1).bits ≠ 0 ∧
      spaceOf ((leafOf 1).pa 0x8000) = 0 ∧ (leafOf 1).pa 0x8000 % 8192 = 0 ∧ (leafOf 1).pa 0xC000 ≠ (leafOf 1).pa 0x8000 ∧
      m0.stackOf ((leafOf 1).pa 0xC000) = m0.stackOf ((leafOf 1).pa 0x8000)) ∧
    (lone.kind = 8 ∧ lone.tag = some .i32 ∧ lone.word 1 4 = 1 ∧ lone.word 1 5 = 0 ∧ lone.word 1 2 * 4 ≤ 8 - lone.src % 8 ∧
      ((sC lone).m.mem.get ((leafOf 1).pa (lone.wide 1 6))).toNat = (sC lone).m.module ∧
      (ran (.coll 9 true []) (sC lone)).cmds.map (fun c => c.pieces.map fun p => (p.dst, p.bytes)) = [[(.pa 0x8000, [0, 0, 0, 0])]]) :=
  ⟨by decide, fun c => ⟨rfl, ⟨rfl, rfl⟩, fun a => home_all rfl rfl a, rfl, rfl⟩, by decide, by decide, by decide, by decide⟩

/-! ### Teams, launches and pre-emption -/

/-- The one team as given, its threads as given, no commands; the machine as given. -/
def teamIs (t : Team) (xs : List Thread) (m : Mach) : State := crew0 t xs m
  where crew0 (t : Team) (xs : List Thread) (m : Mach) : State :=
    let s := one ints t m
    { s with m := { s.m with threads := xs } }

def l1 : Launch := benchLaunch 1

/-- What a team becomes. -/
def teamOf (i : Instr) (t : Team) (xs : List Thread) (m : Mach) : Option Team := (ran i (teamIs t xs m)).team? 1

/-- A fault of a thread is learned of and begins its skid, one of the team is reported; a team whose operations are done writes its
record in the ring at 0x4000, and is killed where its context or launch has no restart; a drained one starts again. -/
theorem witness_TeamFaults :
    let i (r : Option TRef) : Imprecise := { cause := 0x30, addr := 0x40, thread := r }
    let t (r : Option TRef) : Team := { tm0 with latent := [i r] }
    let f : Record := { addr := 0x40, inst := 1, taskid := 2, mask := 3, exc := 4, cause := 0x30, kind := 7, core := 5, tslot := 6, group := 7 }
    let st : Team := { tm0 with status := .stopping, fault := some f, rstr := true }
    let m (b : Bool) : Mach := { m0 with
      versions := [vb], ctxs := [{ benchCtx with desc := { benchCtx.desc with policy := b, rlimit := 1 } }] }
    let rs : Team := { tm0 with status := .stopping, restarts := 255 }
    ((teamIs (t (some t0)) [ints] m0).m.team? 1 = some (t (some t0)) ∧ tm0.status = .running ∧ tm0.known = [] ∧
     (teamIs (t (some t0)) [ints] m0).m.thread? t0 = some ints ∧ ints.wait ≠ .exited ∧
     (teamOf (.impreciseFaultDetect 1) (t (some t0)) [ints] m0).map (fun x => (x.fp, x.known, x.latent)) = some (true, [i (some t0)], [])) ∧
    (teamOf (.impreciseFaultDetect 1) (t none) [ints] m0).map (fun x => (x.status, x.fault.map fun r => (r.kind, r.cause))) =
      some (.stopping, some (7, 0x30)) ∧
    (∀ c ∈ (m true).ctxs, (c.fqhead - (m true).fqTail c).toNat ≠ c.desc.fqsize ∧ c.desc.fqbase % 4096 = 0 ∧ c.addr % 64 = 0 ∧
      c.ringAt + 32 ≤ c.addr ∧ stateOf ((m true).meta (lineOf c.ringAt)) ≤ 1 ∧ (m true).shadowed (lineOf c.ringAt) 128 = false) ∧
    ints.ops = [] ∧ ints.release = none ∧
    (∀ b : Bool, (teamOf (.teamRetire 1) st [ints] (m b)).map (fun x => (x.status, x.fault, x.killed)) = some (.stopping, none, !b)) ∧
    (let n := ran (.teamRetire 1) (teamIs st [ints] (m true))
     (leNat (n.mem.read 0x4000 8), n.versions, n.ctxs.map (·.fqhead), n.rounds) = (leNat (leBytes (f.bits 0) 8), [], [1], [(0, 1)])) ∧
    ((teamIs rs [] m0).m.teamDrained 1 = true ∧ rs.n ≤ 1024 ∧ (∀ g ∈ (teamIs rs [] m0).m.groups, g.team = 1) ∧
     (teamOf (.teamRetire 1) rs [] m0).map (fun x => (x.status, x.restarts)) = some (.running, 255)) :=
  ⟨by decide, by decide, by decide, by decide, by decide, by decide, by decide, by decide⟩

theorem witness_TeamEvents :
    (let t := { tm0 with status := .retired }
     let s := teamIs t [] { m0 with versions := [vb] }
     s.m.teamDrained 1 = true ∧ ((ran (.teamRetire 1) s).team? 1).map (·.status) = some .gone ∧ (ran (.teamRetire 1) s).versions = [vb] ∧
     (ran (.teamRetire 1) s).groups = []) ∧
    (let t := { tm0 with status := .stopping, killed := true }
     let s := teamIs t [] { m0 with versions := [vb], launches := [l1] }
     s.m.teamDrained 1 = true ∧ t.fault = none ∧ ((ran (.teamRetire 1) s).team? 1).map (·.status) = some .gone ∧
     (ran (.teamRetire 1) s).versions = [vb]) ∧
    (let t := { tm0 with preempt := some { method := .flush, since := 0, defer := none, forced := false } }
     let s := teamIs t [] { m0 with versions := [vb] }
     s.m.teamDrained 1 = true ∧ t.fp = false ∧ t.latent = [] ∧ ((ran (.teamRetire 1) s).team? 1).map (·.status) = some .flushed ∧
     (ran (.teamRetire 1) s).versions = []) ∧
    (let t := { tm0 with status := .gone }
     let s := teamIs t [] { m0 with versions := [vb], launches := [l1] }
     s.m.launch? 1 = some l1 ∧ l1.folds ≤ l1.next ∧ s.m.objects = [] ∧ s.m.mem.wf = true ∧ l1.csa = 0 ∧ t.launch = l1.uid ∧
     (let m := ran (.gridComplete 1) s
      (leNat (m.mem.read 0x8000 1), m.versions, m.teams, m.launches) = (7, [], [], []))) ∧
    (let l := { l1 with csa := 0x8008, csv := 0x50001, killed := true }
     let s := teamIs { tm0 with status := .gone } [] { mG 0 with launches := [l], mem := benchMem [] [] }
     let m := { s.m with walkCache := [{ die := 0, ctx := 1, level := 4, va := 0, table := 0x2000 },
       { die := 0, ctx := 1, level := 3, va := 0, table := 0x3000 }] }
     (match m.stampLeaf 1 0x8008 true with | (n, .ok l) => n == m && l == leafOf 0 | _ => false) = true ∧
     (leafOf 0).pa 0x8008 % 8 = 0 ∧ stateOf (m.meta 0x8000) ≤ 1 ∧ m.shadowed 0x8000 128 = false ∧
     leNat ((ran (.gridComplete 1) { s with m := m }).mem.read 0x8008 8) = 0x50001) ∧
    (let l := { l1 with dep0 := some (0x8000, 7), dep0pa := some 0x8000, eligible := false }
     let s (v : Nat) := teamIs tm0 [] { m0 with launches := [l], mem := Memory.write [] 0x8000 (leBytes v 8) }
     (s 7).m.launch? 1 = some l ∧ l.dep1 = none ∧ (ran (.launchEligible 1) (s 7)).launches.map (·.eligible) = [true] ∧
     (ran (.launchEligible 1) (s 6)).launches.map (·.eligible) = [false] ∧
     (ran (.launchEligible 1) { s 6 with m := { (s 6).m with launches := [{ l with rec0 := true, met0 := true }] } }).launches.map (·.eligible) =
       [true]) ∧
    (let l := { l1 with next := 0, threads := 1024, regs := 128, scr := 4, tiles := 32 }
     let s : State := { one ints tm0 m0 with m := { m0 with launches := [l], groups := [] } }
     s.m.runs 1 = true ∧ s.m.teams = [] ∧ s.m.placeable 0 = true ∧ 4096 * l.regs + shareBytes l.scr ≤ 3145728 ∧
     ({ l with next := 0, regs := 16, threads := 1 }.eligible = true)) :=
  ⟨by decide, by decide, by decide, by decide, by decide, by decide, by decide⟩

/-- A fold of one thread is placed on core 0, and IDLE becomes RUN. -/
theorem test_fold_place :
    let l := { l1 with next := 0, regs := 16, tiles := 1 }
    let s : State := { one ints tm0 m0 with m := { m0 with launches := [l], groups := [] } }
    (match exec .foldPlace s with
     | .next t => (t.m.teams.map fun x => (x.core, x.slot, x.tiles), t.m.threads.map fun x => x.helper, t.sys.power)
     | _ => ([], [], .idle)) = ([(0, 0, 1)], [false, true, true, true], .run) := by decide

def fp3 : Launch := { benchLaunch 2 with prio := 3, next := 0, regs := 16, waitFrom := some 0, tiles := 32 }

theorem witness_Preemption :
    (let t := { tm0 with idem := true, hurdles := [], qcmds := [], returned := [] }
     (teamIs t [ints] m0).m.team? 1 = some t ∧ m0.clk - t.startClk < 35000 ∧
     ((ran (.preemptRequest 1) (teamIs t [ints] m0)).team? 1).map (fun x => x.preempt.map (·.method)) = some (some .flush)) ∧
    (let g := startGroup 1 1 0 0 0
     let m := { m0 with clk := 350000, groups := [{ g with retired := true }, { g with index := 1 }] }
     m.clk * 1 ≤ 350000 * 1 ∧
     ((ran (.preemptRequest 1) (teamIs tm0 [ints] m)).team? 1).map (fun x => x.preempt.map (·.method)) = some (some .drain) ∧
     350000 * 1 < 350001 * 1 ∧
     ((ran (.preemptRequest 1) (teamIs tm0 [ints] { m with clk := 350001 })).team? 1).map (fun x => x.preempt.map (·.method)) =
      some (some .save)) ∧
    (let t := { tm0 with hurdles := [0] }
     ((ran (.preemptRequest 1) (teamIs t [ints] m0)).team? 1).map (fun x => x.preempt.map fun p => (p.method, p.defer)) =
      some (some (.save, some 8))) ∧
    (let p (me : Method) (d : Option Nat) : Preempt := { method := me, since := 0, defer := d, forced := false }
     let st (me : Method) (d : Option Nat) (i : Instr) := ((ran i (teamIs { tm0 with preempt := some (p me d) } [ints]
       { m0 with clk := 350000 })).team? 1).map fun x => (x.preempt.map (·.method), x.status)
     st .drain none (.drainTimeout 1) = some (some .save, .running) ∧ st .flush (some 175000) (.deferTimeout 1) = some (some .save, .running) ∧
     st .flush (some 0) (.deferClear 1) = some (some .save, .running) ∧ st .save none (.teamSave 1) = some (none, .saved)) ∧
    (let c : Cmd := { cmdOf 0x20 0 [0, 0, 0, 0] 0x8000 [wd 0x9000 ++ [1, 0, 0, 0, 0, 0]] with parked := some { cause := 0x10, addr := 0x8000, page := 0x8000, bytes := 4096 } }
     let v := { vb with inL1 := true }
     let p : Preempt := { method := .save, since := 0, defer := none, forced := false }
     let n := ran (.teamSave 1) (teamIs { tm0 with preempt := some p } [ints] { m0 with cmds := [c], versions := [v] })
     c.team = 1 ∧ c.kind ≠ 8 ∧ c.pieces = [] ∧ c.done = false ∧ ints.release = none ∧
     (n.cmds, n.versions, (n.team? 1).map fun x => (x.status, x.returned.map (·.parked))) =
       ([], [{ v with l2 := true }], some (.saved, [none]))) ∧
    (let t := { tm0 with status := .saved }
     let s := teamIs t [ints] { m0 with clk := 1 }
     s.m.canRestore t = true ∧ s.m.batches = [] ∧ t.latent = [] ∧ t.known = [] ∧ t.brk = false ∧ t.lost = false ∧ ints.wait = .ready ∧
     ((ran (.teamRestore 1 false) s).team? 1).map (·.status) = some .running ∧
     ((ran (.teamRestore 1 false) (teamIs { t with brk := true } [ints] m0)).team? 1).map (·.status) = some .saved ∧
     s.m.ctx? 1 = some benchCtx ∧ (benchCtx.fqhead - s.m.fqTail benchCtx).toNat ≠ benchCtx.desc.fqsize ∧ s.m.meta (lineOf benchCtx.addr) = 0 ∧
     s.m.shadowed (lineOf benchCtx.addr) 128 = false ∧ s.m.versions = [] ∧ s.m.objects = [] ∧
     (ran (.teamRestore 1 true) s).teams = [] ∧ (ran (.contextTeardown 1) s).ctxs = []) :=
  ⟨by decide, by decide, by decide, by decide, by decide, by decide⟩

/-! ### Errors, agents and services -/

theorem witness_Errors :
    let p : Place := .l1 0
    let c (own : Bool) : L1Line := { core := 0, line := 0x8000, data := List.replicate 128 0, round := 0, owned := own, since := 0 }
    let m := { m0 with l1 := [c false], versions := [] }
    let s := one ints tm0 { m with errors := [(p, 0xFFFFFFFF, 2)] }
    (s.m.thread? t0 = some ints ∧ ints.wait ≠ .exited ∧ s.m.team? 1 = some tm0) ∧
    ((ran (.uncorrectableError p (.register t0 3)) s).errors = [(p, 0xFFFFFFFF, 3)] ∧
     ((ran (.uncorrectableError p (.team 1)) s).team? 1).map (fun x => x.latent.map (·.cause)) = some [0x30] ∧
     (ran (.uncorrectableError p (.cleanLine 0x8005)) s).l1 = [] ∧ (ran (.correctableError p (some 0x8005)) s).errors = [(p, 0xFFFFFFFF, 2)] ∧
     (ran (.uncorrectableError p (.dirtyLine 0x8005)) s).poisoned 0x8000 = true ∧
     ((ran (.uncorrectableError p (.saved 1)) s).team? 1).map (·.lost) = some true ∧ (ran (.errorCounterClear p) s).errors = [] ∧
     (let m := ran (.uncorrectableError p (.register t0 3)) { s with m := { s.m with threads := [{ ints with helper := true }] } }
      (m.errors, (m.team? 1).map (·.latent)) = ([(p, 0xFFFFFFFF, 3)], some [])) ∧
     (∀ q ∈ [(Place.chiplet, [0x8000]), (.pool 1, [])],
       let m := ran (.uncorrectableError q.1 (.dirtyLine 0x8005)) s
       (m.errors, m.poisoned 0x8000, m.machineChecks) = (s.m.errors, true, q.2))) ∧
    (let pa := 2 * 2 ^ 54 + 5 * 2 ^ 46 + 0x80
     let s := owes (opOf (.load { rq with pa := pa, va := 0x8090 })) m0
     onPeer 5 pa = true ∧ s.m.cmds = [] ∧
     ((ran (.peerUnreachable 5) s).threads.map (fun x => (x.reg 5, x.ops)), (ran (.peerUnreachable 5) s).teams.map fun x =>
       x.latent.map fun i => (i.cause, i.addr.toNat)) = ([(i32 0, [])], [[(0x30, 0x8080)]]) ∧
     (let s := owes { opOf (.value [i32 7]) with place := some (pa, 0x8090) } m0
      ((ran (.peerUnreachable 5) s).threads.map (fun x => (x.reg 5, x.ops)), (ran (.peerUnreachable 5) s).teams.map fun x =>
        x.latent.map fun i => (i.cause, i.addr.toNat)) = ([(i32 7, [])], [[(0x30, 0x8080)]]))) :=
  ⟨by decide, by decide, by decide⟩

/-- The last bytes of the line at 0x8000, in stack 0; the first of the pinned region; an address in no memory. -/
theorem witness_AgentAccesses :
    m0.mem.wf = true ∧ m0.atHome 0x807E ∧ m0.inHbm 0x807E 2 = true ∧ 0x807E % 128 + 2 ≤ 128 ∧ m0.mailBase + 4 ≤ m0.mailBase + 2 ^ 32 ∧
    sI.sys.boot.minimal = false ∧ leNat ((ran (.drovewayRequest (.write 0x807E [1, 2])) sI).mem.read 0x807E 2) = 0x201 ∧
    (∀ p ∈ [(0x8C, Instr.chipletAccess (.write 0x807E [1, 2])), (0xFF, .drovewayRequest (.own 0x807C .add .i32 0x201)),
        (0x8C, .chipletAccess (.atomic 0x8078 .add .i64 5))],
      let m := ran p.2 sI
      (m.mem, stateOf (m.meta 0x8000), ownerOf (m.meta 0x8000)) = ([], 4, p.1)) ∧
    (let m := ran (.chipletAccess (.write 0x807E [1, 2])) sI
     leNat ((ran (.lineRecall 0x8000) { sI with m := m }).mem.read 0x807E 2) = 0x201) ∧
    (let m := ran (.drovewayRequest (.part 3 0x8000 .add .i32 5)) sI
     (stateOf (m.meta 0x8000), m.partials.map fun p => (p.module, p.elems.map fun e => (e.1, e.2.2.2.toNat))) = (5, [(some 3, [(0, 5)])])) ∧
    leNat ((ran (.hostBarAccess 3 (.write m0.mailBase [9])) sI).mem.read m0.mailBase 1) = 9 ∧
    amoAccepts .add .i32 = true ∧ 0x8000 % 4 = 0 ∧ leNat ((ran (.drovewayRequest (.atomic 0x8000 .add .i32 5)) sI).mem.read 0x8000 4) = 5 ∧
    sharersOf ((ran (.chipletAccess (.read 0x807E 2)) sI).meta 0x8000) = 1 ∧ ((ran (.drovewayRequest (.read 0x807E 2)) sI).meta 0x8000) = 0x2001 ∧
    (let m : Mach := { m0 with ports := [.off, .cxl 4096, .pcie, .pcie] }
     m.inPool (2 ^ 54 + 2 ^ 44 + 4095) 1 = true ∧ m.inPool (2 ^ 54 + 2 ^ 44 + 4095) 2 = false ∧ m.inPool (2 ^ 54) 1 = false) ∧
    (let hole := 3 * 2 ^ 54
     m0.inHbm hole 1 = false ∧ m0.inPool hole 1 = false ∧ m0.inPeer hole 1 = false ∧
     [Instr.chipletAccess (.read hole 1), .drovewayRequest (.read hole 1), .hostBarAccess 4 (.read 0x1600000000 1)].all (fun i =>
      match exec i sI with | .fault .noSuchMemory => true | _ => false) = true ∧
     (let s := { sI with sys := { Sys.reset with boot := { Sys.reset.boot with minimal := true } } }
      (match exec (.drovewayRequest (.write 0x807E [1, 2])) s with | .next t => t == s | _ => false) = true)) :=
  ⟨rfl, by unfold Mach.atHome; decide, by decide, by decide, by decide, by decide, by decide, by decide, by decide, by decide, by decide, by decide,
    by decide, by decide, by decide, by decide, by decide⟩

/-- A shepherd on core 1, and a batch of one call: EXECMAP of 0x8000 with the executor as given. -/
def sh1 : Team := { tm0 with uid := 2, core := 1, shepherd := true }

def call (num exc : Nat) (ch : Option Change) : Batch := {
  id := 5, team := 1, ctx := 1, die := 0, num := num, a := 4, inst := 0x77, pc := 3, resume := 3, calls := [(t0, q 0x8000 ++ [i32 exc])]
  change := ch, results := [], dropped := false }

/-- Tables whose leaf of 0x8000 is a 4 KiB page with the attributes given, the walk cache holding the upper levels. -/
def tables (attr : Nat) : Mach := { m0 with
  services := true
  mem := Memory.write [] 0x6040 (leBytes (attr + 0x8000) 8)
  walkCache := [{ die := 0, ctx := 1, level := 4, va := 0, table := 0x2000 }, { die := 0, ctx := 1, level := 3, va := 0, table := 0x3000 },
    { die := 0, ctx := 1, level := 2, va := 0, table := 0x4000 }, { die := 0, ctx := 1, level := 1, va := 0, table := 0x6000 }] }

def sB (b : Batch) (m : Mach) : State :=
  let s := crew { ints with wait := .service 5 } tm0 [] [sh1] m
  { s with m := { s.m with batches := [b] } }

def pageLeaf (attr : Nat) : Leaf := { bits := BitVec.ofNat 64 (attr + 0x8000), pte := 0x6040, level := 0 }

theorem witness_Services :
    (∀ num ∈ [0, 1, 2, 0x21], (sB (call num 1 none) (tables 0x6F)).m.batch? 5 = some (call num 1 none) ∧
      (sB (call num 1 none) (tables 0x6F)).m.serving (call num 1 none) = true) ∧
    (tables 0x6F).mem.wf = true ∧
    (let results (i : Instr) (b : Batch) (m : Mach) := ((ran i (sB b m)).batch? 5).map fun x => x.results.map (·.2)
     results (.nullService 5) (call 0 1 none) (tables 0x6F) = some [[i32 0]] ∧
     results (.moduleService 5) (call 2 1 none) (tables 0x6F) = some [[i32 0, i32 1]] ∧
     results (.wallclock 5) (call 1 1 none) (tables 0x6F) = some [q 4] ∧
     results (.execmap 5) { call 0x21 1 none with calls := [(t0, [rv0, rv0, rv0])] } (tables 0x6F) = some [[i32 4]] ∧
     results (.execmap 5) (call 0x21 1 none) (tables 0x67) = some [[i32 1]] ∧
     results (.execmap 5) (call 0x21 4 none) (tables 0x6F) = some [[i32 2]] ∧
     results (.execmap 5) (call 0x21 0 none) (tables (0x6F + 2 ^ 59)) = some [[i32 3]] ∧
     results (.execmap 5) (call 0x21 0 none) (tables 0x6F) = some [[i32 0]]) :=
  ⟨by decide, by decide, by decide⟩

/-- A change begins (MIG at 0x6040), and, drained, ends (the executor). -/
theorem witness_Services_change :
    let l := pageLeaf 0x6F
    let m := (sB (call 0x21 1 none) (tables 0x6F)).m
    let c : Change := { va := 0x8000, exc := 1, leaf := l, last := false, cmds := [], tiles := [], stamps := [] }
    (m.walk 0 1 0x8000 true).2 = some l ∧ (m.walk 0 1 0x8000 true).1 = m ∧ pteU l.bits = true ∧ pteW l.bits = true ∧
    pteMig l.bits = false ∧ pteExc l.bits ≠ 1 ∧ pteSz l.bits = 0 ∧ l.pte % 8 = 0 ∧ m.atHome l.pte ∧ m.drained [] [] = true ∧ m.tileq = [] ∧ m.launches = [] ∧
    leNat ((ran (.execmap 5) (sB (call 0x21 1 none) (tables 0x6F))).mem.read 0x6040 8) = withExec (0x6F + 0x8000) 0 1 ∧
    leNat ((ran (.execmap 5) (sB (call 0x21 1 (some c)) (tables (0x6F + 2 ^ 59)))).mem.read 0x6040 8) = withExec (0x6F + 0x8000) 1 0 ∧
    ((ran (.execmap 5) (sB (call 0x21 1 (some { c with last := true })) (tables 0x6F))).batch? 5).map (fun x => x.results.map (·.2)) =
      some [[i32 0]] :=
  ⟨by decide, by decide, by decide, by decide, by decide, by decide, by decide, by decide, by unfold Mach.atHome; decide, by decide, rfl, rfl,
    by decide, by decide, by decide⟩

theorem witness_Services_results :
    (let b : Batch := { call 0 1 none with calls := [], results := [(t0, [i32 3])] }
     let s := sB b { m0 with services := true }
     s.m.batch? 5 = some b ∧ s.m.thread? t0 = some { ints with wait := .service 5 } ∧ s.m.team? 1 = some tm0 ∧ tm0.status = .running ∧
     b.failed = false ∧ s.m.mirrors = [] ∧ s.m.fetches = [] ∧ s.m.linemeta = [] ∧ (∀ y ∈ s.m.threads, y.wait = .service 5) ∧
     ((ran (.serviceResult 5) s).thread? t0).map (fun x => (x.reg 4, x.wait)) = some (i32 3, .ready)) ∧
    (let s : State := { sB (call 0 1 none) { m0 with services := true } with
       m := { (sB (call 0 1 none) { m0 with services := true }).m with teams := [tm0] } }
     s.m.threads = [{ ints with wait := .service 5 }] ∧ tm0.status ≠ .saved ∧ (s.m.teams.map (·.shepherd)) = [false] ∧ (ran (.shepherdKilled 0) s).threads.map (fun x => (x.fltCause.toNat, x.pc.toNat)) =
      [(0x41, 300)]) ∧
    (let base := m0.mailBase + 256 * 48
     let m := { m0 with services := true, mem := Memory.write [] (base + 128) (leBytes 3 8) }
     let s := sB (call 0 1 none) m
     s.m.shepherd? (48 % 4) = some sh1 ∧ s.m.atHome base ∧ s.m.atHome (base + 128) ∧ s.m.atHome (base + 136) ∧
     getAssoc 0 48 s.m.mailSeq = 0 ∧ (ran (.mailboxRequest 48) s).msix = [0] ∧
     leNat ((ran (.mailboxRequest 48) s).mem.read (base + 136) 8) / 2 ^ 16 = 3) :=
  ⟨by decide, by decide, by decide, by unfold Mach.atHome; decide, by unfold Mach.atHome; decide, by unfold Mach.atHome; decide, by decide,
    by decide, by decide⟩

/-- Every other core is held or off, and the waiting fold wants every tile of core 0. -/
theorem witness_Preemption_wait :
    let s := teamIs tm0 [ints] { m0 with
      clk := 175000, launches := [l1, fp3], noPlace := [1, 2, 3], heldCores := (List.range 31).map fun c => (c + 1, 9) }
    s.m.launch? 2 = some fp3 ∧ fp3.waited s.m.clk = true ∧ fp3.asked = [] ∧ s.m.runs 1 = true ∧ s.m.choice fp3 = some [1] ∧
    tm0.idem = false ∧ tm0.hurdles = [] ∧ (s.m.groups.filter fun g => g.team == 1 && g.retired) = [] ∧
    ((ran (.priorityWaitExpiry 2) s).team? 1).map (fun x => x.preempt.map (·.method)) = some (some .save) := by decide

/-! ### Firmware, power, and the machine as a whole -/

/-- What an event leaves of the firmware's state. -/
def sysOf (i : Instr) (s : State) : Sys := match exec i s with | .next t => t.sys | _ => Sys.reset

def krn : Kernel := { entry := 0, threads := 32, teams := 1, regs := 8, scr := 0, idem := false, rstr := false }
def ob1 : Object := { uid := 3, ctx := 1, codeBase := 0, codeLen := 12, dataBase := 4096, dataLen := 0, svn := 0, kernels := [krn]
                      revoked := false, unloaded := false }
def base0 : State := { m := { Mach.reset with ctxs := [benchCtx], objects := [ob1] }, sys := Sys.reset, agenda := [], rr := 0 }

/-- A code object by 20 R278: one kernel of 32 threads, one packet of code, unsigned; its generation, stepping, security version and
register count, and its data, as given. -/
def objBytes (gen stp svn regs : Nat) (data : List Byte := []) : List Byte :=
  leBytes 0x394B4C54 4 ++ leBytes 1 2 ++ leBytes gen 1 ++ leBytes stp 1 ++ leBytes svn 4 ++ leBytes 1 4 ++ leBytes 264 8 ++ leBytes 12 8 ++
    leBytes 276 8 ++ leBytes data.length 8 ++ leBytes (276 + data.length) 8 ++ leBytes (340 + data.length) 8 ++ List.replicate 212 0 ++ data ++
    leBytes 0 8 ++ leBytes 32 2 ++ leBytes 1 1 ++ leBytes regs 1 ++ List.replicate 148 0

def sO (gen stp svn regs : Nat) (y : Sys) : State := { base0 with
  m := { base0.m with objects := [], mem := Memory.write [] 0x20000 (objBytes gen stp svn regs) }, sys := y }

theorem witness_FirmwareCalls_objects :
    (objBytes 2 1 0 8).length = 436 ∧
    (let load (s : State) (db : Nat) : Nat := (sysOf (.loadobj 0x20000 1 0 db) s).answer
     load (sO 2 1 0 7 Sys.reset) 0x3000 = 1 ∧
     load (sO 2 1 0 8 { Sys.reset with fuses := { Sys.reset.fuses with cosvn := 1 } }) 0x3000 = 2 ∧
     load (sO 2 1 0 8 { Sys.reset with security := .sealed }) 0x3000 = 3 ∧ load (sO 3 1 0 8 Sys.reset) 0x3000 = 4 ∧
     load (sO 2 2 0 8 Sys.reset) 0x3000 = 5 ∧ load (sO 2 1 0 8 Sys.reset) 0x3001 = 6 ∧ load (sO 2 1 0 8 Sys.reset) 0x3000 = 0) :=
  ⟨by decide, by decide⟩

/-- SHA-384 of "abc", by its standard; an object's digest and its absent signer, the same object signed by no key. -/
theorem test_sha384 : sha384 [0x61, 0x62, 0x63] =
    0xcb00753f45a35e8bb5a03d699ac65007272c32ab0eded1631a8b605a43ff5bed8086072ba1e7cc2358baeca134c825a7 := by decide

/-- A present key is answered without the signature; a security version that fails purges it; an unsigned object enters in OPEN alone. -/
theorem witness_VerifiedObjects :
    let s := sO 2 1 0 8 Sys.reset
    let r := s.m.finishUnloads.readObject 4 0x20000 256
    (match r with
     | (m1, some hd) => headerOk hd (headerOf hd) && (match m1.readObject ((headerOf hd).sigOff / 128 + 3) 0x20000 ((headerOf hd).sigOff + 96) with
       | (_, some bs) => formatOk bs (headerOf hd) && sigOk Sys.reset bs (headerOf hd) 0 && !sigOk { Sys.reset with security := .sealed } bs (headerOf hd) 0
       | _ => false)
     | _ => false) = true ∧ s.sys.silent = false ∧ s.sys.fuses.cosvnCount = 0 ∧ (headerOf (objBytes 2 1 0 8)).svn = 0 ∧
    (let key := (sha384 ((objBytes 2 1 0 8).take 340), (0 : BitVec 384))
     let load (y : Sys) : Nat × List (BitVec 384 × BitVec 384) :=
       let t := sysOf (.loadobj 0x20000 1 0 0x3000) (sO 2 1 0 8 y)
       (t.answer, t.verified)
     load Sys.reset = (0, [key]) ∧ load { Sys.reset with security := .sealed } = (3, []) ∧
     load { Sys.reset with security := .sealed, verified := [key] } = (0, [key]) ∧
     load { Sys.reset with verified := [key], fuses := { Sys.reset.fuses with cosvn := 1 } } = (2, [])) := by decide

theorem test_loadobj_maps :
    ((ran (.loadobj 0x20000 1 0 0x3000) (sO 2 1 0 8 Sys.reset)).objects.map fun o => (o.codeBase, o.kernels.map (·.regs))) = [(0, [8])] := by
  decide

theorem witness_FirmwareCalls :
    (base0.m.kernelAt 1 1 = none ∧ base0.m.kernelAt 1 0 = some (ob1, krn) ∧ base0.m.services = false ∧ base0.m.batches = [] ∧
     base0.m.teams = [] ∧ base0.m.launches = [] ∧ base0.m.diesOff = [] ∧ (ran (.svcon 0 0) base0).launches.length = 4 ∧
     (sysOf (.svcon 1 0) base0).answer = 2 ∧
     base0.sys.silent = false ∧ base0.m.svcoff = false ∧ base0.m.lostDies = [] ∧
     (sysOf (.svcon 0 0) { base0 with m := { base0.m with svcoff := true } }).answer = 1 ∧
     (let s := { base0 with m := { base0.m with services := true, batches := [call 0 1 none] } }
      ((sysOf .svcoff s).answer, (ran .svcoff s).svcoff, (ran .svcoff s).services) = (1, true, false)) ∧
     (sysOf .svcoff base0).answer = 0) ∧
    (let t := { tm0 with shepherd := true }
     let s := teamIs t [ints] m0
     s.m.groups.map (·.team) = [t.uid] ∧ s.m.batches = [] ∧ s.m.launches = [] ∧ t.status = .running ∧ ints.group = 0 ∧ ints.wait ≠ .exited ∧ ints.helper = false ∧
     (ran .svcoff s).teams.map (·.status) = [.retired] ∧ (ran .svcoff s).threads.map (·.wait) = [.exited]) ∧
    (base0.m.atHome 0x20000 ∧ 0x20000 % 128 = 0 ∧ (sysOf (.submit 0x20000) base0).answer = 1 ∧
     (sysOf (.submit 0x20000) { base0 with m := { base0.m with mem := Memory.write [] 0x2001C [1] } }).answer = 3) ∧
    ((sysOf (.unloadobj 4 1) base0).answer = 7 ∧
     (ran (.unloadobj 3 1) { base0 with m := { base0.m with launches := [{ l1 with object := 3 }] } }).objects.map (·.unloaded) = [true]) ∧
    ((sysOf (.advsvn 128) base0).fuses.cosvnCount = 128 ∧ (ran (.advsvn 128) base0).objects.map (·.revoked) = [true]) ∧
    ((sysOf (.keyEnrolment { x := 5, y := 6 } false) base0).keys = [{ x := 5, y := 6 }] ∧
     (let full := { base0 with sys := { Sys.reset with keys := List.replicate 8 { x := 1, y := 1 } } }
      (sysOf (.keyEnrolment { x := 5, y := 6 } false) full).answer = 2 ∧ (sysOf (.keyEnrolment { x := 1, y := 1 } false) full).answer = 0)) ∧
    ((sysOf (.enterAttested 0) { base0 with sys := { Sys.reset with security := .sealed } }).security = .attested ∧
     (sysOf (.enterAttested 0) base0).answer = 2) ∧
    (descOk benchCtx.desc = true ∧ descOk { benchCtx.desc with ctxno := 0 } = false ∧
     (base0.m.ctx? 65535 = none ∧ descOk { benchCtx.desc with ctxno := 65535, kmode := false } = true) ∧ base0.m.ctx? 1 = some benchCtx ∧
     (sysOf (.contextDescriptorChange { benchCtx.desc with rlimit := 1 }) sI).answer = 2 ∧
     (let at_ (s : State) (d : CtxDesc) (a n : Nat) : Nat × Nat :=
        ((sysOf (.contextDescriptorChange d) s).answer, leNat ((ran (.contextDescriptorChange d) s).mem.read a n))
      at_ sI { benchCtx.desc with fqtail := 3 } 0x5020 4 = (0, 3) ∧ at_ base0 { benchCtx.desc with rlimit := 9 } 0x500B 1 = (0, 9) ∧
      at_ base0 { benchCtx.desc with ctxno := 7, kmode := false } (base0.m.fwBase + 12) 4 = (0, 7)) ∧
     base0.m.mem.wf = true ∧ base0.m.linemeta = [] ∧ base0.m.ports = List.replicate 4 .pcie) ∧
    (permits .sealed .halt = false ∧ permits .sealed .trace = true ∧ (sysOf (.debugStateSet .trace) base0).debug = .trace) ∧
    (let h := { sI with sys := { Sys.reset with debug := .halt } }
     (sysOf (.debugHalt 1) sI).answer = 2 ∧ (sysOf (.debugHalt 1) { sI with sys := { Sys.reset with power := .pkgSleep } }).answer = 1 ∧
     h.m.teams = [tm0] ∧ tm0.preempt = none ∧ h.m.methodFor tm0 = .save ∧ (ran (.debugHalt 1) h).ctxs.map (·.halted) = [true]) ∧
    (let s := teamIs { tm0 with status := .saved, brk := true } [ints] m0
     let h := { s with sys := { Sys.reset with debug := .halt } }
     let x (e : DebugEdit) : Option (RV × Nat × Bool) := ((ran (.debugResume ⟨1, [e]⟩) h).thread? t0).map fun x => (x.reg 3, x.pc.toNat, x.handlerActive)
     (sysOf (.debugResume ⟨1, []⟩) { h with sys := { h.sys with power := .pkgSleep } }).answer = 1 ∧
     (ran (.debugResume ⟨1, []⟩) s).teams.map (·.brk) = [false] ∧ h.m.thread? t0 = some ints ∧
     x (.reg t0 3 9 .f32) = some (f32 9, 3, false) ∧ x (.pc t0 8) = some (i32 3, 8, false) ∧
     x (.handler t0 true false 6) = some (i32 3, 3, true) ∧ h.m.group? 1 0 = some (startGroup 1 1 0 0 0) ∧
     ((ran (.debugResume ⟨1, [.mask 1 0 2 false 5]⟩) h).group? 1 0).map (fun g => g.e.getD 2 0) = some 5 ∧
     ((ran (.debugResume ⟨1, [.mask 1 0 2 true 5]⟩) h).group? 1 0).map (fun g => (g.e.getD 2 0, g.p.getD 2 0)) = some (0, 5) ∧
     ((ran (.debugResume ⟨1, [.tile 1 4 0xCD]⟩) h).team? 1).map (fun t => (leNat (t.tileMem.read 4 1), leNat (t.qmem.read 4 1))) = some (0xCD, 0) ∧
     ((ran (.debugResume ⟨1, [.scratch 1 8 0xAB]⟩) h).team? 1).map (fun t => leNat (t.scratch.read 8 1)) = some 0xAB) :=
  ⟨by decide, by decide, ⟨by unfold Mach.atHome; decide, by decide, by decide, by decide⟩, by decide, by decide, by decide, by decide, by decide,
    by decide, by decide, by decide⟩

/-- A key, and an image of digest 77 that it has signed; computed outside Lean. -/
def key1 : PubKey := {
  x := 0x740874ac9542812458e7d25afb0d0c286f153f826fc80b9af19d268a9c0359287db398f601eda0d247af90ea69004dc1
  y := 0x4a666a4c852f3c23d10a15f316e884c9a5fb8c291870336add0c932e56dc4d8a74c0b152d43e82f263b6550825455438 }

def sig1 : List Byte :=
  beBytes 48 0x41221048cc8e5560623c496c1ae04c084db050e6e6ecc68aa3e8f1159c06861d02dce7366a2dee6bba43bdc471eb29c4 ++
    beBytes 48 0x234d9390a016376bd661cab297357c7fadac46a6e479bcb8a8ed9575c139f4f2fadd1253479b2b1e6e7b55bb15a47e5

def rep1 : StartReport := { formatOk := true, svn := 0, image := 77, key := key1, sig := sig1, check := 0, module := 3, modules := 4, time := 9
                            ports := [.cxl 4096, .pcie, .off, .off] }

/-- A part whose ROOTHASH names that key, with the failures given. -/
def fused (fails why : Nat) : State := { base0 with sys := { Sys.reset with
  boot := { Sys.reset.boot with fails := fails, reason := why }
  fuses := { Sys.reset.fuses with
    rootHash := 0x5a819378e17c2c1c74e8afb2bc108da4d677ca428a8df53e28e70aee8cb86428599316ea96e6c2278cee5b52e44db1b4 } } }

theorem test_keyDigest : keyDigest key1 = (fused 0 0).sys.fuses.rootHash := by decide

theorem test_sigValid : sigValid key1 77 sig1 = true ∧ sigValid key1 78 sig1 = false := by decide

theorem witness_PowerAndStart :
    let busy := sI
    let req : PowerReq := { state := .idle, dies := [], deadline := 100 }
    let waitsAt (clk : Nat) : State := { sI with m := { sI.m with clk := clk }, sys := { Sys.reset with powerReq := some req, power := .run } }
    (base0.sys.powerReq = none ∧ permits base0.sys.security base0.sys.debug = true ∧ base0.m.teams = [] ∧ base0.m.l1 = [] ∧
     base0.m.cmds = [] ∧ base0.m.linemeta = [] ∧ permits .attested .trace = false ∧
     (sysOf (.powerStateRequest .pkgSleep [] 0) base0).power = .pkgSleep ∧ (ran (.powerStateRequest .dieOff [0] 0) base0).diesOff = [0]) ∧
    (tm0.status = .running ∧ (sysOf (.powerStateRequest .idle [] 2000000) busy).powerReq.map (·.deadline) = some (8 + 1750000000)) ∧
    ((sysOf .powerRequestTimeout (waitsAt 99)).powerReq = some req ∧ (sysOf .powerRequestTimeout (waitsAt 100)).powerReq = none ∧
     (sysOf (.powerStateRequest .run [] 0) (waitsAt 99)).answer = 1) ∧
    (base0.sys.power ≠ .run ∧ base0.sys.boot.minimal = false ∧ base0.sys.shepherd = none ∧ (sysOf .wakeToRun base0).power = .run) ∧
    ((sysOf (.powerCapSet 1200) base0).cap = 1200 ∧ (sysOf (.powerCapSet 1199) base0).answer = 2) ∧
    (let m := ran (.powerOn rep1) (fused 0 0)
     (m.module, m.ports) = (3, rep1.ports) ∧
     (m.memTable.map fun a => (leNat (m.mem.read (a + 32 * 11 + 16) 8), leNat (m.mem.read (a + 32 * 12) 4),
       leNat (m.mem.read (a + 32 * 12 + 16) 8), leNat (m.mem.read (a + 32 * 13) 4))) = some (96 * 2 ^ 30, 2, 4096, 3)) ∧
    ((sysOf (.powerOn rep1) (fused 3 3)).boot.minimal = true ∧ (sysOf (.powerOn rep1) (fused 3 3)).startClk = none ∧
     (sysOf (.powerOn rep1) (fused 3 4)).startClk = some 0 ∧ (ran (.powerOn rep1) (fused 3 4)).diesOff = [1, 2, 3]) ∧
    (∀ p ∈ [({ rep1 with formatOk := false }, 3), ({ rep1 with image := 76 }, 1), ({ rep1 with check := 5 }, 5)],
      let y := sysOf (.powerOn p.1) (fused 2 0)
      (y.boot.reason, y.boot.fails, y.startClk) = (p.2, 3, none)) ∧
    (let b := { (fused 3 0x21).sys with security := .attested, boot := { full := false, reason := 0x21, fails := 3, minimal := true, fwsvn := 0x7F, stage := 5 } }
     b.bootStatus = 0x21F07F05) ∧
    (let y := (sysOf .coolantPowerRemoval (fused 2 5))
     let off : State := { base0 with sys := y }
     (y.removed, y.silent, y.boot.reason, y.boot.fails, y.boot.stage) = (true, true, 5, 2, 0) ∧
     (match exec .wakeToRun off with | .next t => t == off | _ => false) = true) ∧
    (let st (clk : Nat) : State := { base0 with m := { base0.m with clk := clk }, sys := { Sys.reset with startClk := some 0 } }
     (sysOf .startTimeout (st 17499999999)).startClk = some 0 ∧ (sysOf .startTimeout (st 17500000000)).boot.reason = 8 ∧
     (sysOf .startComplete (st 5)).started = true) :=
  ⟨by decide, by decide, by decide, by decide, by decide, by decide, by decide, by decide, by decide, by decide, by decide⟩

/-- MOVI r3, 5 at address 0, its sub-core's issue next. -/
def sStep : State := State.reset.withFetchWord 32 0b0_001100_0000011_000000000000000101

theorem witness_StepRunsDecoded :
    sStep.agenda = [.issue 0 0] ∧ sStep.powered 0 = true ∧
    (match (sStep.m.beforeIssue 0 0).pick 0 0 with
     | none => false
     | some c =>
       let m1 := (sStep.m.beforeIssue 0 0).atIssue 0 0 c
       match m1.team? c.group.team with
       | none => false
       | some tm => match m1.fetchChain tm c.group.sub m1.cur.pc (3 - slotOf m1.cur.pc) with
         | (_, .ok ws) => decodeChain (slotOf m1.cur.pc) ws == .ok [{ instr := .movi 3 5 none, off := 0, size := 1 }] 1
         | _ => false) = true ∧
    Instr.isEvent .startComplete = true ∧ Instr.isEvent (.movi 3 5 none) = false := ⟨by decide, by decide, by decide, by decide, by decide⟩

theorem test_step_runs : (match step sStep with | .next t => t.m.threads.map fun x => (x.pc.toNat, x.reg 3) | _ => []) = List.replicate 4 (1, i32 5) := by decide

theorem witness_RoundTrip : (Instr.fdiv 4 5 6).wf = true ∧ Instr.isEvent (.fdiv 4 5 6) = false ∧
    (0b0_010000_0000100_0000101_0000110_0101#32).getLsbD 31 = false ∧
    decodeChain 0 [0b0_010000_0000100_0000101_0000110_0101] = .ok [{ instr := .fdiv 4 5 6, off := 0, size := 1 }] 1 ∧
    decodeChain 0 [0b1_001100_0000101_000000000000000001, 0b0_111111_00000000000_10000000000001] =
      .ok [{ instr := .movi 5 1 (some 0x2001), off := 0, size := 2 }] 2 := by decide

theorem witness_SecurityInvariant : permits sStep.sys.security sStep.sys.debug = true ∧
    (match step sStep with | .next t => t.sys == sStep.sys | _ => false) = true ∧
    (match exec (.enterAttested 0) { base0 with sys := { Sys.reset with security := .sealed } } with
     | .next t => t.sys.security == .attested | _ => false) = true := ⟨by decide, by decide, by decide⟩

/-! ### Further clauses of the statements on atomics, launches, tiles and saving -/

/-- The machine of a CORE page, and of an UPDT page: no core has the line, and its set has room. -/
theorem witness_Atomics_core : (mG 0).Reaches tm0 (memLane 0x8000 (i32 7)) 0x8000 4 true (leafOf 0) ∧ admits (leafOf 0).bits = true ∧
    pteMig (leafOf 0).bits = false ∧ pteExc (leafOf 0).bits = 0 ∧ (mG 0).settled ∧ (mG 0).atHome ((leafOf 0).pa 0x8000) ∧
    tm0.core < 128 ∧ ((mG 0).l1Set tm0.core (setOf 0x8000)).length < 16 ∧ 1 ≤ 262144 / max 1 ((sG 0).m.teamsOn 0) ∧
    (∀ i ∈ [Instr.amo 5 2 4 .add, .acas 5 2 4], let m := ran i (sG 0)
     (stateOf (m.meta 0x8000), ownerOf (m.meta 0x8000), m.versions.map fun b => b.byte.toNat) =
      if i = .acas 5 2 4 then (2, 0, []) else (4, 0, [7, 0, 0, 0])) :=
  ⟨reaches_G 0 4 true _ rfl rfl rfl rfl, rfl, rfl, rfl, ⟨rfl, rfl⟩, by unfold Mach.atHome; decide, by decide, by decide, by decide,
    by decide⟩

/-- XSHT of the page at 0x8000, MIG clear and set; its translation is in the lane's micro cache. -/
theorem witness_LaunchShootdownWords_page :
    let t := lane ([rv0, rv0] ++ q 0x8000 ++ q 0x50000 ++ q (0xFC * 2 ^ 56 + 4088))
    let s (attr : Nat) := one t tm0 { tables attr with tlb := (mG 0).tlb }
    let w (attr : Nat) := ((s attr).m.advance (refs (s attr).m.bundle) ((s attr).m.wordAddr 1)).walk 0 1 0x8000 true
    t.pairIs 2 0x8000 ∧ t.pairIs 4 0x50000 ∧ t.pairIs 6 (0xFC * 2 ^ 56 + 4088) ∧ tm0.own (0xFC * 2 ^ 56 + 4088) 8 4088 ∧
    (∀ p ∈ [(0x6F, 0x50001, 1), (0x6F + 2 ^ 59, 0x50000, 0)], staticBad (s p.1).m tm0 (.xsht 4 2 6) = false ∧
      (w p.1).2 = some (pageLeaf p.1) ∧ pteMig (pageLeaf p.1).bits = decide (p.2.2 = 0) ∧ (w p.1).1.threads.map (·.ops) = [[]] ∧
      (ran (.xsht 4 2 6) (s p.1)).tlb.length = p.2.2 ∧
      (after (.xsht 4 2 6) (s p.1)).map (fun x => x.ops.map fun o => match o.kind with | .xsht z => z.value.toNat | _ => 0) = some [p.2.1]) :=
  ⟨by unfold Thread.pairIs; decide, by unfold Thread.pairIs; decide, by unfold Thread.pairIs; decide, by unfold Team.own; decide,
    by decide⟩

/-- The twelve pages from 0x10000, and an area there. -/
def ps0 : List Nat := (List.range 12).map fun j => 0x10000 + 4096 * j
def area0 (n : Nat) (cs : List (Nat × List Byte)) : Area := { pages := ps0, ctx := 1, next := n, tag := .f32, chunks := cs, dirty := false }

/-- An operation whose tile lies in those pages. -/
def tg (i : Instr) (flag : Bool) : TileOp := { tq i with pas := ps0.map fun p => (p, 4096, flag) }

/-- A state in which it is the unit's one operation, with areas. -/
def sA (q : TileOp) (as : List Area) : State := { sQ q with m := { (sQ q).m with areas := as } }

theorem witness_TileUnitEvents_forms :
    (∀ i ∈ [Instr.tld 0 .f32 2, .tst 0 2, .tcvt 0 0 .i32 .rne, .twrr 0 8 47, .tscl 0 2, .tred 0 2 .sum, .tfch 0 4 2],
      (sQ (tq i)).m.tileq = [tq i] ∧ (tq i).crossed = [] ∧ (tq i).cycle < (sQ (tq i)).m.clk ∧ (tq i).before = [] ∧ (tq i).addr = none) ∧
    ({ tq (.tld 0 .f32 2) with addr := some (.scratch 1 0) } : TileOp).before = [] ∧ tm0.scratch.wf = true ∧
    (∀ f : Bool, (tg (.tst 0 2) f).pas = ps0.map fun p => (p, 4096, f)) ∧ (tg (.tld 0 .f32 2) true).cutOff = [] ∧
    ps0.length = 12 ∧ (∀ p ∈ ps0, p % 4096 = 0 ∧ p < 2 ^ 56) ∧ ps0.Nodup ∧
    (∀ q a, (sQ q).m.atHome a ∧ (sQ q).m.versions = [] ∧ (sQ q).m.fetches = [] ∧ (sQ q).m.l1 = [] ∧ (sQ q).m.areas = []) ∧
    (∀ x ∈ (sQ (tg (.tst 0 2) false)).m.threads, ∀ o ∈ x.ops, o.load? = none) ∧
    384 ≤ 262144 / max 1 ((sQ (tg (.tst 0 2) false)).m.teamsOn (dieOf tm0.core)) ∧
    tileOfTag (f32 0).tag = some .f32 ∧ tm0.tileTags.getD 0 .f32 ≠ .i32 ∧
    (let st (q : TileOp) (i : Instr) := (ran (.tileOperationComplete 0 0) (sQ { q with instr := i })).teams.map fun x =>
       (x.tileTags, leNat (x.tileMem.read 4 4))
     let one_ := { tq (.tscl 0 2) with lanes := [(0, t0, List.replicate 8 (f32 0x3F800000))] }
     st one_ (.twrr 0 8 0) = [([.f32], 0x3F800000)] ∧ (st one_ (.tred 0 2 .sum)).map (·.1) = [[.f32]]) :=
  ⟨by decide, rfl, rfl, fun _ => rfl, rfl, by decide, by decide, by decide, fun _ a => ⟨home_all rfl rfl a, rfl, rfl, rfl, rfl⟩, by decide,
    by decide, by decide, by decide, by decide⟩

/-- An area with chunk 1 next: chunk 0 comes late, 5 early, 16 is the last that is kept, 17 waits, 1 is merged; sixteen areas of the die
leave no room; TFCH of 1 finds its area, of 2 waits. -/
theorem witness_TileUnitEvents_areas :
    (∀ n ∈ [0, 1, 5, 16, 17], (spl n).sent = false ∧ (spl n).pas = ps0.map fun p => (p, 4096, false)) ∧ (sA (spl 0) []).m.mem.wf = true ∧
    (area0 1 []).tag = tm0.tileTags.getD 0 .f32 ∧ (area0 1 []).next = (spl 1).num ∧ (area0 1 []).dirty = false ∧
    (let st (n : Nat) (as : List Area) := let m := ran (.chunkArrival 0 0) (sA (spl n) as)
       (m.areas.map fun a => (a.next, a.chunks.map (·.1)), m.tileq.map (·.sent))
     st 0 [area0 1 []] = ([(1, [])], [true]) ∧ st 5 [area0 1 []] = ([(1, [5])], [true]) ∧ st 16 [area0 1 []] = ([(1, [16])], [true]) ∧
     st 17 [area0 1 []] = ([(1, [])], [false]) ∧ st 16 [] = ([], [false]) ∧
     (let full := (List.range 16).map fun k => { area0 1 [] with pages := [0x100000 * (k + 1)] }
      (sA (spl 0) full).m.area? ps0 = none ∧
      16 ≤ (full.filter fun a => (sA (spl 0) full).m.areaDie a.pages == (sA (spl 0) full).m.areaDie ps0).length ∧
      (st 0 full).2 = [false])) ∧
    (∀ n ∈ [1, 2], let q := { tg (.tfch 0 4 2) false with num := n }
     (ran (.tileOperationComplete 0 0) (sA q [area0 1 []])).areas = if n = 1 then [] else [area0 1 []]) ∧
    (let q := tq (.tzro 0 .f32)
     let o : Op := { xshtOp none 4088 with kind := .xsht {
       va := 4088, leaf := none, value := 5, page := 0, bytes := 0, cmds := [], tiles := [q.order], stamps := [] } }
     ((ran (.xshtDrainDone t0 9) (owes o { m0 with tileq := [q], clk := 9 })).thread? t0).map (fun x => x.ops.length) = some 1) :=
  ⟨by decide, rfl, rfl, rfl, rfl, by decide, by decide, by decide⟩

/-- A collective that has not begun stays as its team is saved; a fault of a fill ends a saved team's context, with a record of kind 10
in the ring at 0x4000 and, where its launch names a stamp, at 0x8000 the stamp with status 2. -/
theorem witness_Preemption_saved :
    (let p : Preempt := { method := .save, since := 0, defer := none, forced := false }
     let s := teamIs { tm0 with preempt := some p } [{ ints with wait := .halted }] { m0 with cmds := [lone] }
     let n := ran (.teamSave 1) s
     lone.kind = 8 ∧ lone.peers = none ∧ lone.parked = none ∧ lone.pieces = [] ∧ lone.done = false ∧ s.m.tileq = [] ∧
     (n.cmds, (n.team? 1).map (·.status), n.threads.map (·.wait)) = ([lone], some .saved, [.ready])) ∧
    (let t := { tm0 with status := .saved }
     let la (csa : Nat) : Launch := { l1 with next := 1, csa := csa, csv := 0x70005 }
     let s (csa : Nat) := teamIs t [ints] { tables 0x6F with launches := [la csa] }
     let w := ((s 0x8000).m.endVersions 1).wipe 1
     l1.ctx = 1 ∧ (w.stampLeaf 1 0x8000 true).2 = .ok (pageLeaf 0x6F) ∧ (pageLeaf 0x6F).pa 0x8000 = 0x8000 ∧
     benchCtx.ringAt = 0x4000 ∧ benchCtx.addr + 64 ≤ 0x8000 ∧
     (∀ m ∈ [(s 0).m, (w.stampLeaf 1 0x8000 true).1], m.mem.wf = true ∧ (benchCtx.fqhead - m.fqTail benchCtx).toNat ≠ benchCtx.desc.fqsize ∧
       m.linemeta = [] ∧ m.ports = List.replicate 4 .pcie) ∧
     (∀ csa ∈ [0, 0x8000], let m := ran (.teamRestore 1 true) (s csa)
      (m.teams, m.launches, (m.ctx? 1).map (·.fqhead), leNat (m.mem.read 0x8000 8)) = ([], [], some 1, if csa = 0 then 0 else 0x70002))) := by
  decide

/-- An atomic that acts after its word adds 5 to the word at 0x8000; the fetch of an NC page returns its load and leaves no copy. -/
theorem witness_Completions_later :
    let r (ret : Bool) : AtomicReq :=
      { leaf := some (leafOf 1), va := 0x8000, chip := .scratch 1 0, tag := .i32, op := some .add, cmp := 0, val := 5, ret := ret }
    let s (ret : Bool) := owes (opOf (.atomic (r ret))) { m0 with mem := Memory.write [] 0x8000 [2] }
    let kinds (m : Mach) := m.threads.map fun x => x.ops.map (·.kind)
    pteExc (leafOf 1).bits = 1 ∧ pteD (leafOf 1).bits = true ∧ (s true).m.settled ∧ (s true).m.mem.wf = true ∧
    (s true).m.atHome ((leafOf 1).pa 0x8000) ∧ (leafOf 1).pa 0x8000 % 4 = 0 ∧
    (∀ i ∈ [Instr.loadReturn t0 9, .storeComplete t0 9],
      leNat ((ran i (s true)).mem.read 0x8000 4) = 7 ∧ kinds (ran i (s true)) = [[.value [i32 2]]] ∧
      kinds (ran i (s false)) = [[.store 0x8000]]) ∧
    (let f : Fetch := { id := 20, core := 0, line := 0x8000, alloc := true, nc := true }
     let m := ran (.loadReturn t0 9) (owes (opOf (.load { rq with nc := true, fetch := some 20 }))
       { m0 with mem := Memory.write [] 0x807C [1, 2], fetches := [f] })
     ((m.thread? t0).map (fun y => (y.reg 5, y.ops)), m.fetches, m.l1) = (some (i32 0x201, []), [], [])) :=
  ⟨by decide, by decide, ⟨rfl, rfl⟩, rfl, by unfold Mach.atHome; decide, by decide, by decide, by decide⟩

theorem witness_DroverCopies_fit : (∀ c ∈ [cmdOf 0x20 0 [0, 0, 0, 0] (chip + 4084) [wd chip ++ [12, 0, 0, 0, 0, 0]],
      cmdOf 0xA1 0 [0, 0, 0, 0] (chip + 4084) [[0x0403, 9, 12, 0, 0, 0, 0, 0]], window 2, window 3, gather 0, gather 1, idx, rows 6, rows 7, lone],
    (sC c).m.readsFit c tm0 = true) ∧ tm0.status = .running ∧ (∀ c, (sC c).m.linemeta = []) := ⟨by decide, rfl, fun _ => rfl⟩

/-- The row copy on stack 0 of peer 5. -/
theorem witness_DroverHomeKinds_peer :
    let pl : Leaf := { leafOf 1 with bits := BitVec.ofNat 64 (9 * 2 ^ 60 + 1 * 2 ^ 56 + (2 * 2 ^ 54 + 5 * 2 ^ 46) + 0x6F) }
    let c : Cmd := { rows 6 with pages := [(0, pl)] }
    spaceOf (pl.pa c.dst) = 2 ∧ pl.pa c.dst % 8192 = 0 ∧ pl.pa c.src % 8192 = 0 ∧ pl.pa c.src ≠ pl.pa c.dst ∧ pteD pl.bits = true ∧
    pl.pa c.src / 2 ^ 46 % 256 = pl.pa c.dst / 2 ^ 46 % 256 ∧ m0.stackOf (pl.pa c.src % 2 ^ 46) = m0.stackOf (pl.pa c.dst % 2 ^ 46) ∧
    (sC c).m.allowed 1 pl true false = true ∧ lone.peers = none ∧
    (ran (.rowc 9) (sC c)).cmds.map (fun c => (c.done, c.status)) = [(true, 0)] := by decide

/-- A queued TLD whose first page lies on peer 5 leaves that peer's lines out. -/
theorem witness_Errors_tile :
    let pa := 2 * 2 ^ 54 + 5 * 2 ^ 46
    let q : TileOp := { tq (.tld 0 .f32 2) with pas := [(pa, 4096, false)], base := 0x8000 }
    let s := owes { opOf .plain with dst := .none, loads := false, tile := true } { m0 with tileq := [q] }
    s.m.tileq = [q] ∧ q.lanes.map (fun l => l.2.1) = [t0] ∧ onPeer 5 pa = true ∧
    (let m := ran (.peerUnreachable 5) s
     (m.tileq.map (·.cutOff), m.teams.map fun x => x.latent.map fun i => (i.cause, i.addr.toNat)) = ([[5]], [[(0x30, 0x8000)]])) := by decide

/-- A launch record of the kernel at 0 of `ob1`: its FOLDS, SCR, CTRL and CTX; 3 tiles, ARGP 7. -/
def recBytes (folds scr ctrl ctx : Nat) : List Byte :=
  leBytes 0 8 ++ leBytes 7 8 ++ leBytes folds 4 ++ leBytes 0 4 ++ leBytes scr 2 ++ leBytes 3 1 ++ leBytes ctrl 1 ++ leBytes ctx 4 ++ List.replicate 96 0

def sR (r : List Byte) (m : Mach) : State := { base0 with m := { m with mem := Memory.write [] 0x20000 r } }

/-- SUBMIT's statuses in order: no context, an unknown one, no such entry, no folds, a share too large by one unit, a full queue;
and the launch of a record that is accepted, its threads, teams and registers the kernel's. -/
theorem witness_FirmwareCalls_submit :
    let st (r : List Byte) (m : Mach) : Nat := (sysOf (.submit 0x20000) (sR r m)).answer
    let ok := sR (recBytes 5 758 0xB 1) base0.m
    st (recBytes 5 758 0xB 0) base0.m = 1 ∧ st (recBytes 5 758 0xB 9) base0.m = 1 ∧
    st (recBytes 5 758 0xB 1) { base0.m with objects := [] } = 2 ∧ st (recBytes 0 758 0xB 1) base0.m = 3 ∧
    st (recBytes 5 758 0x10 1) base0.m = 3 ∧ st (recBytes 5 759 0xB 1) base0.m = 4 ∧
    st (recBytes 5 758 0xB 1) { base0.m with launches := List.replicate 1024 { l1 with prio := 3, next := 0 } } = 5 ∧
    ok.m.atHome 0x20000 ∧ ok.m.kernelAt 1 0 = some (ob1, krn) ∧ (sysOf (.submit 0x20000) ok).answer = 0 ∧
    (ran (.submit 0x20000) ok).launches.map (fun l => ((l.folds, l.threads, l.teams, l.regs), (l.scr, l.tiles, l.prio), l.rstr, l.idem, l.eligible)) =
      [((5, 32, 1, 8), (758, 3, 3), true, false, false)] :=
  ⟨by decide, by decide, by decide, by decide, by decide, by decide, by decide, by unfold Mach.atHome; decide, by decide, by decide, by decide⟩

/-- Tables that lead from the root at 0x1000, by its first entry, to itself and, by its second, to the last level at 0x2000. -/
def sL : State := { base0 with m := { base0.m with
  objects := []
  mem := ((Memory.write [] 0x20000 (objBytes 2 1 0 8 [1, 2, 3, 4, 5, 6, 7, 8])).write 0x1000 (leBytes (15 * 2 ^ 60 + 0x1001) 8)).write 0x1008
    (leBytes (15 * 2 ^ 60 + 0x2001) 8) } }

theorem witness_FirmwareCalls_map :
    let h := headerOf (objBytes 2 1 0 8 [1, 2, 3, 4, 5, 6, 7, 8])
    let word (m : Mach) (t va n : Nat) : Nat := leNat (m.mem.read (t + 8 * (va / 2 ^ (12 + 9 * n) % 512)) 8)
    sL.m.mem.wf = true ∧ (∀ a, sL.m.atHome a) ∧ (h.codeLen, h.dataLen) = (12, 8) ∧ sL.m.fwBase % 4096 = 0 ∧ sL.m.fwBase + 8192 ≤ 2 ^ 56 ∧
    (∀ t ∈ [benchCtx.desc.root, 0x2000], t % 4096 = 0 ∧ t + 4096 ≤ sL.m.fwBase) ∧ 0x201000 / 4096 % 512 ≠ 0x203000 / 4096 % 512 ∧
    (∀ va ∈ [0x201000, 0x203000], [word sL.m 0x1000 va 4, word sL.m 0x1000 va 3, word sL.m 0x1000 va 2, word sL.m 0x1000 va 1] =
      [0x1000, 0x1000, 0x1000, 0x2000].map (15 * 2 ^ 60 + · + 1)) ∧
    (sysOf (.loadobj 0x20000 1 0x201000 0x203000) sL).answer = 0 ∧
    (let m := ran (.loadobj 0x20000 1 0x201000 0x203000) sL
     [word m 0x2000 0x201000 0, word m 0x2000 0x203000 0, leNat (m.mem.read (m0.fwBase + 4096) 8)] =
      [m0.fwBase + 13, m0.fwBase + 4096 + 11, 0x0807060504030201]) :=
  ⟨rfl, fun a => home_all rfl rfl a, by decide, by decide, by decide, by decide, by decide, by decide, by decide, by decide⟩

theorem witness_FirmwareCalls_debug :
    (let s := { base0 with sys := { Sys.reset with power := .pkgSleep }, m := { base0.m with diesOff := [0, 1, 2, 3] } }
     s.sys.boot.minimal = false ∧ s.m.lostDies = [] ∧
     ((sysOf (.debugStateSet .trace) s).debug, (sysOf (.debugStateSet .trace) s).power, (ran (.debugStateSet .trace) s).diesOff) = (.trace, .run, [])) ∧
    (let b : Batch := { call 0 1 none with calls := [] }
     let s (st : TeamStatus) : State := { base0 with m := { base0.m with services := true, batches := [b], teams := [{ tm0 with status := st }] } }
     ((sysOf .svcoff (s .saved)).answer, (sysOf .svcoff (s .running)).answer) = (0, 1)) ∧
    (let s := teamIs { tm0 with status := .saved } [ints] m0
     let h := { s with sys := { Sys.reset with debug := .halt } }
     let x (e : DebugEdit) := (ran (.debugResume ⟨1, [e]⟩) h).thread? t0
     (x (.sys t0 .frm 0x1F)).map (·.frm.toNat) = some 7 ∧ (x (.sub t0 9 .f64)).map (·.fltSub) = some { bits := 9, tag := .f64 } ∧
     (x (.latch t0 (some (3, [(9, .f32)])))).map (·.latch) = some (some { a := 3, regs := [f32 9] }) ∧
     (x (.wait t0 (.held 7))).map (·.wait) = some (.held 7) ∧
     ((ran (.debugResume ⟨1, [.tileTag 1 0 .i32]⟩) h).team? 1).map (·.tileTags) = some [.i32] ∧
     ((ran (.debugResume ⟨1, [.pushes 1 5 5 []]⟩) h).team? 1).map (fun t => (t.qhead, t.qtail)) = some (5, 5)) :=
  ⟨by decide, by decide, by decide⟩

/-- PKG-SLEEP ends by a management command; a die's lost shepherd starts again; a start that comes to its end too late has failed. -/
theorem witness_PowerAndStart_wake :
    (let s : State := { base0 with sys := { Sys.reset with power := .pkgSleep }, m := { base0.m with diesOff := [0, 1, 2, 3] } }
     s.sys.boot.minimal = false ∧ s.m.services = false ∧
     ((sysOf (.powerCapSet 1300) s).cap, (sysOf (.powerCapSet 1300) s).power, (ran (.powerCapSet 1300) s).diesOff) = (1300, .run, []) ∧
     (sysOf .clearFails { s with sys := { s.sys with boot := { s.sys.boot with fails := 2 } } }).boot.fails = 0) ∧
    (let s : State := { base0 with sys := { Sys.reset with power := .dieOff }, m := { base0.m with
       diesOff := [2], services := true, lostDies := [(2, 0, 9)] } }
     s.m.kernelAt 1 0 = some (ob1, krn) ∧
     ((ran .wakeToRun s).launches.map fun l => (l.shepherd, l.argp.toNat), (ran .wakeToRun s).lostDies) = ([(some 2, 9)], [])) ∧
    (let s : State := { base0 with m := { base0.m with clk := 17500000000 }, sys := { Sys.reset with startClk := some 0 } }
     ((sysOf .startComplete s).started, (sysOf .startComplete s).boot.reason) = (Sys.reset.started, 8)) := ⟨by decide, by decide, by decide⟩

/-- 24 R375, 04 R76, R87: a reserved tag in XFMA's extension word is that word's fault. 21 R301: a misaligned pair comes before a tag that
is not accepted. 21 R317: +inf and -inf beside a quiet NaN are invalid in any order. -/
theorem test_xfma_bad_extension : (match decodeChain 0 [0b1_101000_0000100_0000110_0001000_0011, 0b0_111111_00000000000000_0000_0001001] with
    | .bad n _ => n | .ok .. => 9) = 1 := by decide
theorem test_amo_misaligned_first : causeOf (.amo 6 2 5 .inc) ([rv0, rv0] ++ q top ++ [rv0] ++ q 1) = some (1, 300) := by decide
theorem test_dot4_invalid_any_order : [0x00FC7E7C, 0x007EFC7C].map (fun v => (after (.dot4 3 1 2) (one (lane [rv0,
    { bits := BitVec.ofNat 32 v, tag := .e5m2x4 }, { bits := 0x3C3C3C3C, tag := .e5m2x4 }, f32 0]) tm0 m0)).map fun x => x.ften.toNat / 65536 % 2) =
    [some 1, some 1] := by decide

/-! ### Lanes that trap on an operand, and lanes that park -/

/-- What FLT_CAUSE, FLT_ADDR and FLT_SUB hold after a word that traps in the lane. -/
def struck (i : Instr) (rs : List RV) : Option (Nat × Nat × SubVal × Nat) :=
  (after i (one (lane rs) tm0 (mG 1))).map fun t => (t.fltCause.toNat, t.fltAddr.toNat, t.fltSub, t.pc.toNat)

def rawA : List RV := [rv0, rv0, rv0, rv0, i32 1, i32 2]
def oddA : List RV := [rv0, rv0, rv0, { bits := 1, tag := .i64 }, { bits := 2, tag := .i64 }, i32 2]
def misA : List RV := [rv0, rv0] ++ q 0x8002 ++ [i32 3, i32 4]

/-- A is RAW, with B tagged I32; A is an I64 pair at an odd register, or B is; two I32 values for PACK into an odd pair; a misaligned address. -/
theorem witness_OperandTraps :
    (∀ rs ∈ [rawA, oddA, misA], Issues (one (lane rs) tm0 (mG 1)) tm0 ∧ ∀ th ∈ (one (lane rs) tm0 (mG 1)).m.bundle, th.canEnter) ∧
    ((lane rawA).tagAt 2 = .raw ∧ (lane rawA).tagAt 4 = .i32 ∧ (lane oddA).tagAt 3 = .i64 ∧ (lane oddA).formed 3 = true ∧
      (lane oddA).tagAt 5 = .i32 ∧ (lane misA).pairIs 2 0x8002 ∧ (lane misA).tagAt 4 = .i32 ∧ amoAccepts .add .i32 = true) ∧
    (∀ i ∈ [Instr.iaddReg 6 2 4, .movh 2 5, .ld 6 2 .normal .i64 1, .pfch 2 .normal .i32 1, .amo 6 2 4 .add, .acas 6 2 4, .unpk 6 2],
      staticBad (mG 1) tm0 i = false ∧ struck i rawA = some (2, 0, sub0, 300)) ∧
    (∀ i ∈ [Instr.iaddReg 6 3 5, .shlImm 6 3 5, .bfi 6 3 5, .iset 1 3 5 .eq, .unpk 6 3, .amo 6 2 3 .add, .acas 6 2 3],
      staticBad (mG 1) tm0 i = false ∧ struck i oddA = some (1, 0, sub0, 300)) ∧
    struck (.pack 7 4 5) misA = some (1, 0, sub0, 300) ∧
    (∀ p ∈ [(Instr.ld 6 2 .normal .b128 31, 0x7FF2, Tag.b128), (.ldb 6 2 true .i64 1, 0x8002, .i64), (.st 4 2 .normal .i32 31, 0x7FFE, .raw)],
      struck p.1 misA = some (0x20, p.2.1, { bits := 0, tag := p.2.2 }, 300)) := by
  refine ⟨fun rs _ => ⟨(lane_lone rs _).issues, one_all rfl ?_⟩, by unfold Thread.pairIs; decide, by decide, by decide, by decide, by decide⟩
  exact ⟨rfl, by simp [lane], rfl, rfl⟩

/-- The bench's context, whose keys leave out key 0, its tables and its descriptor. -/
def cK : Ctx := { benchCtx with desc := { benchCtx.desc with keymask := 0xFFFE } }
def mK : Mach := { m0 with mem := benchMem [] [], ctxs := [cK] }

/-- The lane knows of 13 granules from 0x8000 on that the first has no leaf, and `l` for the others; or `l` for all. -/
def knows (rs : List RV) (l : Leaf) (none_ : Bool) : Thread := { lane rs with
  inhand := (List.range 13).map fun j => (8 + j, if none_ && j == 0 then none else some l) }

/-- What parks a lane: the cause in its wait and FLT_CAUSE, its address, its page; and the access kind and cause of the record. -/
def parkedBy (i : Instr) (t : Thread) : Option (Nat × Nat × Nat) × Nat × Nat :=
  let m := ran i (one t tm0 mK)
  (((m.thread? t0).bind fun x => match x.wait with | .parked p => some (p.cause, p.addr, p.page) | _ => none),
   (m.mem.get 0x4006).toNat / 16, (m.mem.get 0x4007).toNat)

theorem witness_ParkedLanes :
    (let s := one (lane []) tm0 mK
     s.m.ctx? tm0.ctx = some cK ∧ (cK.fqhead - s.m.fqTail cK).toNat ≠ cK.desc.fqsize ∧ cK.desc.fqbase % 4096 = 0 ∧ cK.addr % 64 = 0 ∧
     cK.ringAt + 32 ≤ cK.addr) ∧
    (∀ rs l b, Lone (one (knows rs l b) tm0 mK) tm0 (knows rs l b)) ∧ (∀ rs l b, (knows rs l b).handlerActive = false) ∧
    (let t := knows misA (leafOf 0) true
     mK.translate tm0 0 t 0x8004 = .absent ∧ mK.translate tm0 0 t 0x9000 = .ok (leafOf 0) ∧ mK.allowed 1 (leafOf 0) false false = false) ∧
    (let a : Thread → List RV → Thread := fun t rs => { t with regs := rs ++ List.replicate (16 - rs.length) rv0 }
     let atA := [rv0, i32 1] ++ q 0x8000 ++ [i32 7, i32 7]
     let absent := a (knows [] (leafOf 0) true) atA
     ∀ p ∈ [(Instr.ld 6 2 .normal .i32 1, 1, 0x8004), (.ldb 6 2 true .i32 1, 1, 0x8000), (.st 4 2 .normal .i32 1, 2, 0x8004), (.amo 6 2 4 .add, 3, 0x8000),
         (.acas 6 2 4, 3, 0x8000), (.xfil 2 4 .i32 1, 4, 0x8000), (.tld 0 .f32 2, 6, 0x8000)],
       staticBad mK tm0 p.1 = false ∧ parkedBy p.1 absent = (some (0x10, p.2.2, 0x8000), p.2.1, 0x10)) ∧
    (let t := knows ([rv0, rv0] ++ q 0x9000 ++ [i32 7, i32 7]) (leafOf 0) true
     ∀ p ∈ [(Instr.ld 6 2 .normal .i32 0, 1), (.st 4 2 .normal .i32 0, 2), (.apst 2 4 .add, 3)],
       parkedBy p.1 t = (some (0x11, 0x9000, 0), p.2, 0x11)) ∧
    (let l : Leaf := { leafOf 1 with bits := (leafOf 1).bits ||| 0x800000000000100 }
     let t := knows ([rv0, rv0] ++ q 0x9000 ++ [i32 7, i32 7]) l false
     mK.allowed 1 l true false = true ∧ pteD l.bits = true ∧ admits l.bits = true ∧ pteMig l.bits = true ∧
     parkedBy (.amo 6 2 4 .add) t = (some (0x13, 0x9000, 0), 3, 0x13)) ∧
    (let t := lane []
     let s := one t tm0 { mK with mem := [] }
     let m := (s.issueBundle ⟨startGroup 1 1 0 0 0, 1, 0⟩).m
     (match s.m.fetchChain tm0 0 3 3 with | (n, .error (.absent v)) => n == s.m && v == 12 | _ => false) = true ∧
     ((m.thread? t0).map fun x => (x.wait, x.fltCause.toNat, x.fltAddr.toNat)) =
       some (.parked { cause := 0x10, addr := 12, page := 0, bytes := 4096 }, 0x10, 12) ∧
     ((m.mem.get 0x4006).toNat / 16, (m.mem.get 0x4007).toNat) = (0, 0x10)) ∧
    (let c := { cmdOf 0x20 0 [0, 0, 0, 0] chip [wd 0x8000 ++ [300]] with pages := [] }
     let s := one { ints with drover := 1 } tm0 { mK with mem := [], cmds := [c] }
     let m := ran (.lin 9) s
     c.kind = 0 ∧ c.next < c.word 1 2 ∧ s.m.readsFit c tm0 = true ∧
     (match s.m.walkNow [1] 0 0 1 c.src true with | (n, none) => n == s.m | _ => false) = true ∧
     m.cmds.map (·.parked) = [some { cause := 0x10, addr := 0x8000, page := 0x8000, bytes := 4096 }] ∧
     ((m.mem.get 0x4006).toNat / 16, (m.mem.get 0x4007).toNat) = (5, 0x10)) :=
  ⟨by decide, fun _ _ _ => one_lone rfl rfl rfl rfl rfl rfl, fun _ _ _ => rfl, by decide, by decide, by decide, by decide, by decide, by decide⟩

/-- No load is under way; the effective address of an offset; an LDB that stalls holds its lane, and pulls the region's counter; one within its
bound takes the copy, and one beyond it fetches. -/
theorem witness_LoadsAndPrefetch_forms :
    (sG 0).m.loadsOn = [] ∧ (∀ o ∈ (memLane 0x8000 (i32 7)).ops, ∀ p v n g, o.kind ≠ .launch true p v n g) ∧
    (((0x8004 : Int) + (31#5).toInt * (4 : Nat)) % 2 ^ 64).toNat = 0x8000 ∧
    (let at_ (m : Mach) : State := one (memLane 0x8000 (i32 7)) tm0 m
     let c (r : Nat) : L1Line := { core := 0, line := 0x8000, data := List.replicate 128 5, owned := false, round := BitVec.ofNat 32 r, since := 3 }
     let copies (m : Mach) : List Bool := m.loadsOn.map fun q => q.copy.isSome
     ((ran (.ld 5 2 .normal .i32 0) (at_ (mG 0))).fetches.map (·.line)) = [0x8000] ∧
     ((ran (.ldb 5 2 false .i32 0) (at_ (mG 0))).thread? t0).map (·.wait) = some (.stall 10) ∧
     (ran (.ldb 5 2 true .i32 0) (at_ { mG 0 with mirrors := [] })).mirrors = [(0, 0, 0)] ∧
     copies (ran (.ldb 5 2 true .i32 1) (at_ { mG 0 with mirrors := [(0, 0, 3)], l1 := [c 2] })) = [true] ∧
     copies (ran (.ldb 5 2 true .i32 1) (at_ { mG 0 with mirrors := [(0, 0, 4)], l1 := [c 2] })) = [false]) := by
  refine ⟨by decide, ?_, by decide, by decide⟩
  intro o h; cases h

/-- A peer's payload, and its row commands: zeros over a row of which core 0 holds a copy, and a copy of another row of its stack. -/
theorem witness_AgentAccesses_drover :
    (let c : L1Line := { core := 0, line := 0x8000, data := List.replicate 128 5, round := 0, owned := false, since := 0 }
     let m := { m0 with l1 := [c], mem := Memory.write [] 0x8010 [7] }
     m.inHbm 0x8000 8192 = true ∧ 0x8000 % 8192 = 0 ∧ m.settled ∧ m.inHbm 0xA000 8192 = true ∧ m.stackOf 0xA000 = m.stackOf 0x8000 ∧
     m.linemeta = []) ∧
    leNat ((ran (.drovewayRequest (.payload 0x807E [1, 2])) sI).mem.read 0x807E 2) = 0x201 :=
  ⟨⟨by decide, by decide, ⟨rfl, rfl⟩, by decide, by decide, rfl⟩, by decide⟩

/-- A Module release and a Domain release of which a byte has still to be placed on a peer that is out of reach. -/
theorem witness_Errors_release :
    let pa := 2 * 2 ^ 54 + 5 * 2 ^ 46 + 0x80
    let b : VByte := { vb with pa := pa, inL1 := true }
    let x (c : Nat) : Thread := { ints with release := some { cls := c, upto := 10, regions := [], lines := [pa], counted := false } }
    let m (c : Nat) := ran (.peerUnreachable 5) (one (x c) tm0 { m0 with versions := [b] })
    onPeer 5 b.pa = true ∧ b.ref = t0 ∧ b.op < 10 ∧ b.diePub = false ∧
    (∀ c ∈ [2, 3], (m c).versions = [] ∧ (m c).teams.map (fun t => t.latent.map fun i => (i.cause, i.addr.toNat)) = [[(0x30, 0)]]) ∧
    [2, 3].map (fun c => (m c).threads.map fun y => y.release.map (·.lines)) = [[some []], [none]] := by decide

/-- What a team's pre-emption is after an event, and whether it is put off. -/
def pre (i : Instr) (t : Team) (m : Mach) : Option (Option (Method × Option Nat) × Bool) :=
  ((ran i (teamIs t [ints] m)).team? 1).map fun x => (x.preempt.map fun q => (q.method, q.defer), x.defer)

def may (idem : Bool) (hs : List Nat) (p : Option Preempt) : Team := { tm0 with idem := idem, hurdles := hs, qcmds := [], returned := [], preempt := p }
def put1 : Option Preempt := some { method := .flush, since := 0, defer := some 1, forced := false }
def half : Mach := { m0 with
  clk := 20, groups := [{ startGroup 1 1 0 0 0 with retired := true }, { startGroup 1 1 0 0 0 with index := 1 }] }

/-- A flush is put off while a hurdle is partly arrived; when it clears, the method is chosen again: a flush, or a drain of a team that may not
be flushed and half of whose groups have retired. -/
theorem witness_Preemption_deferred :
    (half.clk - (may true [] none).startClk < 35000 ∧ half.clk * 1 ≤ 350000 * 1) ∧
    pre (.preemptRequest 1) (may true [0] none) half = some (some (.flush, some 20), true) ∧
    pre (.deferClear 1) (may true [] put1) half = some (some (.flush, none), false) ∧
    pre (.deferClear 1) (may false [] put1) half = some (some (.drain, none), false) ∧
    pre (.deferClear 1) (may true [0] put1) half = some (some (.flush, some 1), false) :=
  ⟨by decide, by decide, by decide, by decide, by decide⟩

/-- A lagging copy is granted without data and keeps its bytes and its round; a core without a copy is given the home's data, with
those of its own bytes that its die holds. -/
theorem witness_CoherenceEvents_grants :
    (let c : L1Line := { core := 5, line := 0x8000, data := List.replicate 128 9, owned := false, round := 7, since := 3 }
     let m : Mach := { m0 with linemeta := [(0x8000, mkMeta 1 0 1 0)], l1 := [c], rounds := [(0, 9)] }
     stateOf (m.meta 0x8000) = 1 ∧ (sharersOf (m.meta 0x8000)).testBit (dieOf 5) = true ∧ m.l1? 5 0x8000 = some c ∧
     (ran (.ownershipUpgrade 5 0x8000) (one ints tm0 m)).l1 = [{ c with owned := true }]) ∧
    (let b (d : Nat) : VByte := { vb with core := 5, diePub := true, heldFor := 1, heldDie := d, dieAt := 3 }
     let first (d : Nat) := ((ran (.ownershipUpgrade 5 0x8000) (one ints tm0 { m0 with versions := [b d] })).l1? 5 0x8000).map fun c =>
       (c.data.getD 0 0).toNat
     dieOf 5 = 0 ∧ (first 0, first 1) = (some 7, some 0)) :=
  ⟨by decide, by decide⟩

/-- EXECMAP's first write counts a round in the region of the entry; a saved team's ARGP, TASKID and TASKST, and the waits of a lane. -/
theorem witness_Services_round :
    (ran (.execmap 5) (sB (call 0x21 1 none) (tables 0x6F))).round (regionOf 0x6040) = 1 ∧
    (let h : State := { teamIs { tm0 with status := .saved } [ints] m0 with sys := { Sys.reset with debug := .halt } }
     let tm (e : DebugEdit) : Option Team := (ran (.debugResume ⟨1, [e]⟩) h).team? 1
     let x (w : DebugWait) := ((ran (.debugResume ⟨1, [.wait t0 w]⟩) h).thread? t0).map (·.wait)
     let sys (n : SysReg) (v : DWord) := tm (.sys { team := 1, tidx := 5 } n v)
     sys .argp 9 = some { tm0 with status := .saved, argp := 9 } ∧ sys .taskid 9 = some { tm0 with status := .saved, taskid := 9 } ∧
     sys .taskst (1 <<< 31) = some { tm0 with status := .saved, nr := true } ∧
     [x .xfen, x (.counts 1 2 3 4), x (.service 6)] = [some .xfen, some (.counts 1 2 3 4), some (.service 6)]) := by
  exact ⟨by decide, by decide, by decide, by decide, by decide⟩

end Sys2Proof.Tests
end

section
/-! SUPPORT. EXIT (02 R34, R38-R40): what striking lanes from the rejoin masks of a group does to its masks and to its threads, and
what of the machine the retirement of threads, groups and teams leaves alone. -/

namespace Sys2Proof.Machine

/-! ### Reading a group and a team after an update -/

theorem Mach.group?_updGroup (m : Mach) (u i : Nat) (f : Group → Group) (hf : ∀ g, (f g).team = g.team ∧ (f g).index = g.index) :
    (m.updGroup u i f).group? u i = (m.group? u i).map f := by
  have hkey : (fun g : Group => g.team == u && g.index == i) ∘ (fun g => if g.team == u && g.index == i then f g else g) =
      fun g => g.team == u && g.index == i := by
    funext g
    simp only [Function.comp_apply]
    split <;> simp [hf]
  simp only [Mach.group?, Mach.updGroup, List.find?_map, hkey]
  cases hg : m.groups.find? fun g => g.team == u && g.index == i with
  | none => rfl
  | some g => exact congrArg some (if_pos (List.find?_some hg))

theorem Mach.team?_updTeam (m : Mach) (u : Nat) (f : Team → Team) (hf : ∀ t, (f t).uid = t.uid) :
    (m.updTeam u f).team? u = (m.team? u).map f := by
  have hkey : (fun t : Team => t.uid == u) ∘ (fun t => if t.uid == u then f t else t) = fun t => t.uid == u := by
    funext t
    simp only [Function.comp_apply]
    split <;> simp [hf]
  simp only [Mach.team?, Mach.updTeam, List.find?_map, hkey]
  cases ht : m.teams.find? fun t => t.uid == u with
  | none => rfl
  | some t => exact congrArg some (if_pos (List.find?_some ht))

/-! ### One mask -/

/-- A rejoin mask while lanes are struck from it: its E and P, and whether it has been released on the way. -/
structure Mask where
  e     : Word
  p     : Word
  freed : Bool

/-- Mask `n` of a group, not yet released. -/
def Group.mask (g : Group) (n : Nat) : Mask := ⟨g.e.getD n 0, g.p.getD n 0, false⟩

/-- STRK of some lanes releases the mask (02 R32). -/
def Mask.frees (k : Mask) (l : Word) : Bool := k.e &&& ~~~l != 0 && k.p &&& ~~~l == k.e &&& ~~~l

/-- What STRK of some lanes makes of the mask (02 R32). -/
def Mask.strike (k : Mask) (l : Word) : Mask := if k.frees l then ⟨0, 0, true⟩ else ⟨k.e &&& ~~~l, k.p &&& ~~~l, k.freed⟩

/-- The lane of a thread, as a set. -/
def laneBit (r : TRef) : Word := BitVec.twoPow 32 (r.tidx % 32)

/-- The lanes of some threads. -/
def laneBits : List TRef → Word
  | [] => 0
  | r :: rs => laneBit r ||| laneBits rs

/-- What striking threads one after another makes of a mask (02 R34). -/
def Mask.strikes (k : Mask) (rs : List TRef) : Mask := rs.foldl (fun k r => k.strike (laneBit r)) k

/-- A lane is neither enrolled nor parked. -/
def Mask.Clear (k : Mask) (j : Nat) : Prop := k.e.getLsbD j = false ∧ k.p.getLsbD j = false

theorem Mask.Clear.strike {k : Mask} {j : Nat} (h : k.Clear j) (l : Word) : (k.strike l).Clear j := by
  obtain ⟨he, hp⟩ := h
  unfold Mask.strike Mask.Clear
  split <;> simp [he, hp]

theorem Mask.strike_clear (k : Mask) (r : TRef) : (k.strike (laneBit r)).Clear (r.tidx % 32) := by
  unfold Mask.strike Mask.Clear
  split <;> simp [laneBit]

theorem Mask.Clear.strikes {k : Mask} {j : Nat} (h : k.Clear j) (rs : List TRef) : (k.strikes rs).Clear j := by
  induction rs generalizing k with
  | nil => exact h
  | cons r rs ih => exact ih (h.strike _)

/-- A thread that has been struck from a mask is out of it. -/
theorem Mask.strikes_clear (k : Mask) {r : TRef} {rs : List TRef} (h : r ∈ rs) : (k.strikes rs).Clear (r.tidx % 32) := by
  induction rs generalizing k with
  | nil => cases h
  | cons a rs ih =>
    rcases List.mem_cons.1 h with rfl | h
    · exact (k.strike_clear r).strikes rs
    · exact ih _ h

/-- A mask with no lane enrolled keeps its release. -/
theorem Mask.strikes_empty (b : Bool) (rs : List TRef) : Mask.strikes ⟨0, 0, b⟩ rs = ⟨0, 0, b⟩ := by
  induction rs with
  | nil => rfl
  | cons r rs ih => exact (congrArg (Mask.strikes · rs) (by simp [Mask.strike, Mask.frees])).trans ih

theorem Mask.strike_of_frees {k : Mask} {l : Word} (h : k.frees l = true) : k.strike l = ⟨0, 0, true⟩ := if_pos h

theorem Mask.strike_of_stays {k : Mask} {l : Word} (h : k.frees l = false) : k.strike l = ⟨k.e &&& ~~~l, k.p &&& ~~~l, k.freed⟩ :=
  if_neg (by simp [h])

theorem and_not_or (a b c : Word) : a &&& ~~~(b ||| c) = a &&& ~~~b &&& ~~~c := by rw [BitVec.not_or, BitVec.and_assoc]

theorem and_not_of_and_eq_zero {a b : Word} (h : a &&& b = 0) : a &&& ~~~b = a := by
  calc a &&& ~~~b = a &&& b ||| a &&& ~~~b := by simp [h]
    _ = a := by rw [← BitVec.and_or_distrib_left, BitVec.or_not_self, BitVec.and_allOnes]

/-- Where the first lanes do not release it, a mask is struck by two sets of lanes as by their union. -/
theorem Mask.strike_strike {k : Mask} {a : Word} (h : k.frees a = false) (b : Word) :
    (k.strike a).strike b = k.strike (a ||| b) := by
  rw [Mask.strike_of_stays h]
  simp only [Mask.strike, Mask.frees, and_not_or]
  rfl

/-- A release is not undone by more lanes that the mask does not hold. -/
theorem Mask.frees_or {k : Mask} {a b : Word} (h : k.frees a = true) (hp : k.p &&& ~~~(a ||| b) = k.p &&& ~~~a) :
    k.frees (a ||| b) = true := by
  simp only [Mask.frees, Bool.and_eq_true, bne_iff_ne, beq_iff_eq] at h ⊢
  obtain ⟨hne, heq⟩ := h
  have he : k.e &&& ~~~(a ||| b) = k.e &&& ~~~a := by
    rw [and_not_or, ← heq, ← and_not_or, hp]
  exact ⟨he ▸ hne, by rw [hp, he, heq]⟩

/-- Threads that a mask does not hold are struck from it one after another as STRK of them all would strike them (02 R34): on the
way it can only be released once none of those still to come is enrolled, for it holds none of them. -/
theorem Mask.strikes_of_disjoint (k : Mask) {rs : List TRef} (hne : rs ≠ []) (hp : k.p &&& laneBits rs = 0) :
    k.strikes rs = k.strike (laneBits rs) := by
  induction rs generalizing k with
  | nil => exact absurd rfl hne
  | cons r rs ih =>
    change k.p &&& (laneBit r ||| laneBits rs) = 0 at hp
    change (k.strike (laneBit r)).strikes rs = k.strike (laneBit r ||| laneBits rs)
    obtain ⟨hr, hrs⟩ := BitVec.or_eq_zero_iff.1 ((BitVec.and_or_distrib_left ..).symm.trans hp)
    cases hf : k.frees (laneBit r) with
    | true =>
      have hall : k.frees (laneBit r ||| laneBits rs) = true :=
        Mask.frees_or hf (by rw [and_not_of_and_eq_zero hp, and_not_of_and_eq_zero hr])
      rw [Mask.strike_of_frees hf, Mask.strike_of_frees hall, Mask.strikes_empty]
    | false =>
      cases rs with
      | nil => simp [laneBits, Mask.strikes]
      | cons a as =>
        rw [← Mask.strike_strike hf]
        refine ih _ (List.cons_ne_nil _ _) ?_
        rw [Mask.strike_of_stays hf, and_not_of_and_eq_zero hr]
        exact hrs

/-! ### The lanes of a bundle -/

theorem ofNat_add_lane {t : Thread} {a : Nat} (h : (BitVec.ofNat 32 a).getLsbD t.lane = false) :
    BitVec.ofNat 32 (a + 2 ^ t.lane) = BitVec.ofNat 32 a ||| laneBit t.ref := by
  have hbit : BitVec.ofNat 32 (2 ^ t.lane) = laneBit t.ref := by
    apply BitVec.eq_of_toNat_eq
    rw [BitVec.toNat_ofNat, laneBit, BitVec.toNat_twoPow]
    rfl
  have hoff : BitVec.ofNat 32 a &&& laneBit t.ref = 0#32 := by
    rw [laneBit, BitVec.and_twoPow, if_neg (by simpa [Thread.lane] using h)]
  rw [BitVec.ofNat_add, hbit, BitVec.add_eq_or_of_and_eq_zero _ _ hoff]

/-- A sum of distinct lanes is their union. -/
theorem ofNat_sum_lanes (ts : List Thread) (a : Nat) (hn : (ts.map Thread.lane).Nodup)
    (ha : ∀ t ∈ ts, (BitVec.ofNat 32 a).getLsbD t.lane = false) :
    BitVec.ofNat 32 (ts.foldl (fun a t => a + 2 ^ t.lane) a) = BitVec.ofNat 32 a ||| laneBits (refs ts) := by
  induction ts generalizing a with
  | nil => simp [laneBits, refs]
  | cons t ts ih =>
    obtain ⟨ht, hts⟩ := List.nodup_cons.1 hn
    have hadd := ofNat_add_lane (ha t (by simp))
    rw [List.foldl_cons, ih _ hts, hadd, BitVec.or_assoc]
    · rfl
    · intro x hx
      have hne : t.lane ≠ x.lane := fun h => ht (h ▸ List.mem_map_of_mem hx)
      rw [hadd, BitVec.getLsbD_or, ha x (List.mem_cons_of_mem _ hx), laneBit, BitVec.getLsbD_twoPow]
      simp [show t.ref.tidx % 32 ≠ x.lane from hne]

theorem laneSet_eq {ts : List Thread} (hn : (ts.map Thread.lane).Nodup) : laneSet ts = laneBits (refs ts) := by
  rw [laneSet, ofNat_sum_lanes ts 0 hn (by simp), BitVec.zero_or]

/-- Where a thread of the bundle stands. -/
theorem bundle_ref {s : State} {tm : Team} (h : Issues s tm) {th : Thread} (hth : th ∈ s.m.bundle) :
    th.ref = ⟨s.m.cur.team, 32 * s.m.cur.group + th.lane⟩ := by
  obtain ⟨l, hl, hfind⟩ := List.mem_filterMap.1 hth
  have hr : th.ref = ⟨s.m.cur.team, 32 * s.m.cur.group + l⟩ := by simpa using List.find?_some hfind
  have hlane : th.lane = l := by
    have := h.narrow l hl
    simp only [Thread.lane, hr]
    omega
  rw [hlane, hr]

theorem bundle_here {s : State} {tm : Team} (h : Issues s tm) {r : TRef} (hr : r ∈ refs s.m.bundle) :
    r.team = s.m.cur.team ∧ r.tidx / 32 = s.m.cur.group := by
  obtain ⟨th, hth, rfl⟩ := List.mem_map.1 hr
  have hlane : th.lane < 32 := Nat.mod_lt _ (by decide)
  rw [bundle_ref h hth]
  exact ⟨rfl, by show (32 * s.m.cur.group + th.lane) / 32 = _; omega⟩

/-- A thread that is not ready is in no bundle that issues. -/
theorem not_mem_bundle_of_wait {s : State} {tm : Team} (h : Issues s tm) {r : TRef} {x : Thread} (hx : s.m.thread? r = some x)
    (hw : x.wait ≠ .ready) : r ∉ refs s.m.bundle := by
  intro hr
  obtain ⟨th, hth, rfl⟩ := List.mem_map.1 hr
  obtain rfl : x = th := Option.some.inj (hx.symm.trans (h.named th hth))
  exact hw (h.ready x hth)

/-- The lanes of an issuing bundle, as a set. -/
theorem laneSet_bundle {s : State} {tm : Team} (h : Issues s tm) : laneSet s.m.bundle = laneBits (refs s.m.bundle) := by
  refine laneSet_eq (List.Nodup.of_map (fun l => (⟨s.m.cur.team, 32 * s.m.cur.group + l⟩ : TRef)) ?_)
  rw [List.map_map]
  have hmap : s.m.bundle.map ((fun l => (⟨s.m.cur.team, 32 * s.m.cur.group + l⟩ : TRef)) ∘ Thread.lane) =
      s.m.bundle.map fun th => th.ref := List.map_congr_left fun th hth => (bundle_ref h hth).symm
  rw [hmap]
  exact h.apart

/-! ### Retiring threads -/

/-- What the release of the masks that `freed` says makes of a thread of a group (02 R32). -/
def Thread.freedBy (u i clk : Nat) (freed : Nat → Bool) (x : Thread) : Thread :=
  match x.wait with
  | .held n => if x.ref.team = u ∧ x.group = i ∧ freed n then { x with wait := .ready, issued := clk } else x
  | _ => x

theorem Thread.freedBy_rest (u i clk : Nat) (P : Nat → Bool) (x : Thread) :
    x.freedBy u i clk P = { x with wait := (x.freedBy u i clk P).wait, issued := (x.freedBy u i clk P).issued } := by
  unfold Thread.freedBy
  split
  · split <;> rfl
  · rfl

theorem Thread.freedBy_held {u i clk n : Nat} {x : Thread} (hr : x.ref.team = u ∧ x.group = i) (h : x.wait = .held n)
    (P : Nat → Bool) : x.freedBy u i clk P = if P n then { x with wait := .ready, issued := clk } else x := by
  simp [Thread.freedBy, h, hr]

theorem Thread.freedBy_of_not_held {u i clk : Nat} {x : Thread} (h : ∀ n, x.wait ≠ .held n) (P : Nat → Bool) :
    x.freedBy u i clk P = x := by
  unfold Thread.freedBy
  split
  · exact absurd ‹_› (h _)
  · rfl

theorem Thread.freedBy_elsewhere {u i clk : Nat} {x : Thread} (h : ¬ (x.ref.team = u ∧ x.group = i)) (P : Nat → Bool) :
    x.freedBy u i clk P = x := by
  unfold Thread.freedBy
  split
  · exact if_neg fun hc => h ⟨hc.1, hc.2.1⟩
  · rfl

theorem Thread.freedBy_none (u i clk : Nat) : Thread.freedBy u i clk (fun _ => false) = id := by
  funext x
  unfold Thread.freedBy
  split <;> simp

theorem Thread.freedBy_exited (u i clk : Nat) (P : Nat → Bool) (x : Thread) :
    (x.freedBy u i clk P).wait = .exited ↔ x.wait = .exited := by
  unfold Thread.freedBy
  split
  · rename_i n hn
    split <;> simp [hn]
  · rfl

/-- Two releases, one after the other. -/
theorem Thread.freedBy_freedBy (u i clk : Nat) (P Q : Nat → Bool) (x : Thread) :
    (x.freedBy u i clk P).freedBy u i clk Q = x.freedBy u i clk fun n => P n || Q n := by
  by_cases hr : x.ref.team = u ∧ x.group = i
  · by_cases hh : ∃ n, x.wait = .held n
    · obtain ⟨n, hn⟩ := hh
      rw [Thread.freedBy_held hr hn, Thread.freedBy_held hr hn]
      cases hP : P n
      · simp [Thread.freedBy_held hr hn]
      · simp [Thread.freedBy]
    · have hh : ∀ n, x.wait ≠ .held n := fun n hn => hh ⟨n, hn⟩
      simp only [Thread.freedBy_of_not_held hh]
  · simp only [Thread.freedBy_elsewhere hr]

/-! ### Striking lanes from one mask -/

theorem Mask.strike_freed (k : Mask) (l : Word) : (k.strike l).freed = (k.freed || k.frees l) := by
  unfold Mask.strike
  cases h : k.frees l <;> simp

theorem Mach.updGroup_updGroup (m : Mach) (u i : Nat) (f g : Group → Group)
    (hf : ∀ x, (f x).team = x.team ∧ (f x).index = x.index) :
    (m.updGroup u i f).updGroup u i g = m.updGroup u i fun x => g (f x) := by
  simp only [Mach.updGroup, List.map_map]
  refine congrArg (fun gs => ({ m with groups := gs } : Mach)) (List.map_congr_left fun x _ => ?_)
  simp only [Function.comp_apply]
  by_cases hx : (x.team == u && x.index == i) = true <;> simp [hx, hf]

/-- Every thread of the machine updated. -/
def Mach.mapThreads (m : Mach) (f : Thread → Thread) : Mach := { m with threads := m.threads.map f }

theorem Mach.mapThreads_id (m : Mach) : m.mapThreads id = m := by simp [Mach.mapThreads]

/-- A group with E and P of mask `n` as given. -/
def Group.setMask (n : Nat) (k : Mask) (g : Group) : Group := { g with e := g.e.set n k.e, p := g.p.set n k.p }

theorem Group.setMask_keys (n : Nat) (k : Mask) (g : Group) :
    (g.setMask n k).team = g.team ∧ (g.setMask n k).index = g.index := ⟨rfl, rfl⟩

theorem Group.setMask_setMask (n : Nat) (j k : Mask) (g : Group) : (g.setMask n j).setMask n k = g.setMask n k := by
  simp [Group.setMask]

/-- The release of a mask (02 R32). -/
theorem Mach.releaseMask_eq (m : Mach) (u i n : Nat) : m.releaseMask u i n =
    (m.updGroup u i (Group.setMask n ⟨0, 0, true⟩)).mapThreads (Thread.freedBy u i m.clk fun j => j == n) := by
  refine congrArg (fun ts => ({ m with threads := ts } : Mach).updGroup u i (Group.setMask n ⟨0, 0, true⟩))
    (List.map_congr_left fun x _ => ?_)
  by_cases hr : x.ref.team = u ∧ x.group = i
  · by_cases hh : ∃ j, x.wait = .held j
    · obtain ⟨j, hj⟩ := hh
      simp [Thread.freedBy_held hr hj, hr, hj]
    · have hh : ∀ j, x.wait ≠ .held j := fun j hj => hh ⟨j, hj⟩
      simp [Thread.freedBy_of_not_held hh, hh]
  · rw [Thread.freedBy_elsewhere hr, if_neg]
    simp only [Bool.and_eq_true, beq_iff_eq]
    exact fun hc => hr hc.1

/-- STRK of some lanes, in a group that there is (02 R32). -/
theorem Mach.strike_eq {m : Mach} {u i : Nat} {g : Group} (hg : m.group? u i = some g) (n : Nat) (l : Word) :
    m.strike u i n l = (m.updGroup u i (Group.setMask n ((g.mask n).strike l))).mapThreads
      (Thread.freedBy u i m.clk fun j => j == n && (g.mask n).frees l) := by
  have hstrike : m.strike u i n l =
      let m' := m.updGroup u i (Group.setMask n ⟨(g.mask n).e &&& ~~~l, (g.mask n).p &&& ~~~l, false⟩)
      if (g.mask n).frees l then m'.releaseMask u i n else m' := by
    unfold Mach.strike
    rw [hg]
    rfl
  rw [hstrike]
  cases h : (g.mask n).frees l with
  | true =>
    rw [if_pos rfl, Mask.strike_of_frees h, Mach.releaseMask_eq, Mach.updGroup_updGroup _ _ _ _ _ (Group.setMask_keys _ _)]
    simp only [Group.setMask_setMask, Bool.and_true, Mach.updGroup_clk]
  | false =>
    rw [if_neg Bool.false_ne_true, Mask.strike_of_stays h]
    simp only [Bool.and_false, Thread.freedBy_none, Mach.mapThreads_id, Group.mask]

/-! ### Threads that retire -/

/-- A thread of the machine before some threads `rs` of a group retired, and after: those have exited, and of the others those are
ready that a mask released on the way held. -/
structure Thread.Outlasts (u i clk : Nat) (rs : List TRef) (freed : Nat → Bool) (x y : Thread) : Prop where
  rest   : y = { x with wait := y.wait, issued := y.issued }
  gone   : x.ref ∈ rs → y.wait = .exited
  others : x.ref ∉ rs → y = x.freedBy u i clk freed

/-- The masks of a group stand at `k`, which of them have been released left aside. -/
structure Group.Shows (g : Group) (k : Nat → Mask) : Prop where
  eLen  : g.e.length = 8
  pLen  : g.p.length = 8
  masks : ∀ n, g.mask n = { k n with freed := false }

/-- `m` follows `m0`, whose group `i` of team `u` has had the threads `rs` retire, each of its masks struck to `k`. -/
structure Mach.Retiring (u i : Nat) (m0 : Mach) (rs : List TRef) (k : Nat → Mask) (m : Mach) : Prop where
  rest    : m = { m0 with threads := m.threads, groups := m.groups }
  masks   : ∃ g, m.group? u i = some g ∧ g.Shows k
  threads : ∃ f, m.threads = m0.threads.map f ∧ ∀ x, Thread.Outlasts u i m0.clk rs (fun n => (k n).freed) x (f x)

section
variable {u i clk : Nat} {rs : List TRef} {P : Nat → Bool} {x y : Thread}

theorem Thread.Outlasts.ref_eq (h : x.Outlasts u i clk rs P y) :
    y.ref = x.ref := by rw [h.rest]

theorem Thread.Outlasts.exited_iff (h : x.Outlasts u i clk rs P y) :
    y.wait = .exited ↔ x.ref ∈ rs ∨ x.wait = .exited := by
  by_cases hx : x.ref ∈ rs
  · simp [hx, h.gone hx]
  · rw [h.others hx, Thread.freedBy_exited]
    simp [hx]

/-- A release after some threads have retired. -/
theorem Thread.Outlasts.release (h : x.Outlasts u i clk rs P y)
    (Q : Nat → Bool) : x.Outlasts u i clk rs (fun n => P n || Q n) (y.freedBy u i clk Q) where
  rest := by
    rw [Thread.freedBy_rest, h.rest]
  gone hx := (Thread.freedBy_exited ..).2 (h.gone hx)
  others hx := by rw [h.others hx, Thread.freedBy_freedBy]

/-- Threads of one name exit after some have retired. -/
theorem Thread.Outlasts.exit (h : x.Outlasts u i clk rs P y)
    (r : TRef) : x.Outlasts u i clk (rs ++ [r]) P (if y.ref == r then { y with wait := .exited } else y) where
  rest := by
    split
    · rw [h.rest]
    · exact h.rest
  gone hx := by
    split
    · rfl
    · next hne =>
      refine h.gone ((List.mem_append.1 hx).resolve_right fun hr => hne ?_)
      simpa [h.ref_eq] using hr
  others hx := by
    obtain ⟨hrs, hr⟩ := not_or.1 (mt List.mem_append.2 hx)
    rw [if_neg (by simpa [h.ref_eq] using hr)]
    exact h.others hrs

end

theorem Group.shows_mask {g : Group} (he : g.e.length = 8) (hp : g.p.length = 8) : g.Shows g.mask := ⟨he, hp, fun _ => rfl⟩

theorem Mach.Retiring.start {m : Mach} {u i : Nat} {g : Group} (hg : m.group? u i = some g) (hs : g.Shows g.mask) :
    m.Retiring u i [] g.mask m where
  rest := rfl
  masks := ⟨g, hg, hs⟩
  threads := ⟨id, (List.map_id _).symm, fun x => ⟨rfl, fun h => absurd h List.not_mem_nil, fun _ => by
    show x = x.freedBy u i m.clk fun _ => false
    rw [Thread.freedBy_none]; rfl⟩⟩

theorem Group.Shows.setMask {g : Group} {k : Nat → Mask} (h : g.Shows k) {n : Nat} (hn : n < 8) (q : Mask) :
    (g.setMask n q).Shows (Function.update k n q) where
  eLen := by simp [Group.setMask, h.eLen]
  pLen := by simp [Group.setMask, h.pLen]
  masks j := by
    by_cases hj : j = n
    · subst hj
      simp [Group.mask, Group.setMask, h.eLen, h.pLen, hn]
    · rw [Function.update_of_ne hj, ← h.masks j]
      simp [Group.mask, Group.setMask, List.getElem?_set_ne (Ne.symm hj)]

/-- What a group's masks become does not depend on which have been released. -/
theorem Group.Shows.setMask_strike {g : Group} {k : Nat → Mask} (h : g.Shows k) (n : Nat) (l : Word) :
    Group.setMask n ((g.mask n).strike l) = Group.setMask n ((k n).strike l) := by
  rw [h.masks n]
  funext x
  unfold Mask.strike Mask.frees
  split <;> rfl

/-- A strike from one mask. -/
theorem Mach.Retiring.strike {m0 m : Mach} {u i : Nat} {rs : List TRef} {k : Nat → Mask} (h : m0.Retiring u i rs k m) {n : Nat}
    (hn : n < 8) (l : Word) : m0.Retiring u i rs (Function.update k n ((k n).strike l)) (m.strike u i n l) := by
  obtain ⟨g, hg, hshows⟩ := h.masks
  obtain ⟨f, hf, hout⟩ := h.threads
  have hclk : m.clk = m0.clk := by rw [h.rest]
  have hfrees : (g.mask n).frees l = (k n).frees l := by rw [hshows.masks n]; rfl
  have hfreed : (fun j => (Function.update k n ((k n).strike l) j).freed) =
      fun j => (k j).freed || (j == n && (k n).frees l) := by
    funext j
    by_cases hj : j = n
    · subst hj; simp [Mask.strike_freed]
    · simp [hj]
  rw [Mach.strike_eq hg, hshows.setMask_strike, hfrees, hclk]
  refine ⟨?_, ⟨_, ?_, hshows.setMask hn _⟩, ⟨_, ?_, fun x => hfreed ▸ (hout x).release _⟩⟩
  · rw [h.rest]; rfl
  · exact (Mach.group?_updGroup m u i _ (Group.setMask_keys _ _)).trans (congrArg _ hg)
  · simp only [Mach.mapThreads, Mach.updGroup_threads, hf, List.map_map]
    rfl

/-- The threads of one name exit. -/
theorem Mach.Retiring.exit {m0 m : Mach} {u i : Nat} {rs : List TRef} {k : Nat → Mask} (h : m0.Retiring u i rs k m) (r : TRef) :
    m0.Retiring u i (rs ++ [r]) k (m.updThread r fun x => { x with wait := .exited }) := by
  obtain ⟨f, hf, hout⟩ := h.threads
  refine ⟨?_, h.masks, ⟨_, ?_, fun x => (hout x).exit r⟩⟩
  · rw [h.rest]; rfl
  · simp only [Mach.updThread, hf, List.map_map]
    rfl

/-- A strike from several masks, one after another. -/
theorem Mach.Retiring.strikeEach {m0 m : Mach} {u i : Nat} {rs : List TRef} {k : Nat → Mask} (h : m0.Retiring u i rs k m)
    {ns : List Nat} (hn : ns.Nodup) (h8 : ∀ n ∈ ns, n < 8) (l : Word) :
    m0.Retiring u i rs (fun n => if n ∈ ns then (k n).strike l else k n) (ns.foldl (fun m n => m.strike u i n l) m) := by
  induction ns generalizing m k with
  | nil => simpa using h
  | cons a ns ih =>
    obtain ⟨ha, hns⟩ := List.nodup_cons.1 hn
    have hk : (fun n => if n ∈ a :: ns then (k n).strike l else k n) =
        fun n => if n ∈ ns then (Function.update k a ((k a).strike l) n).strike l else Function.update k a ((k a).strike l) n := by
      funext n
      by_cases hna : n = a
      · subst hna; simp [ha]
      · simp [hna]
    rw [hk]
    exact ih (h.strike (h8 a (by simp)) l) hns fun n hin => h8 n (by simp [hin])

/-- What the retirement of some threads makes of the masks of their group (02 R34). -/
def strikeOut (k : Nat → Mask) (rs : List TRef) (n : Nat) : Mask := if n < 8 then (k n).strikes rs else k n

theorem strikeOut_nil (k : Nat → Mask) : strikeOut k [] = k := by
  funext n
  simp [strikeOut, Mask.strikes]

theorem strikeOut_append (k : Nat → Mask) (rs qs : List TRef) : strikeOut k (rs ++ qs) = strikeOut (strikeOut k rs) qs := by
  funext n
  unfold strikeOut
  split <;> simp [Mask.strikes]

/-- A thread retires: it exits, and is struck from every mask (02 R34, R39). -/
theorem Mach.Retiring.retireThread {m0 m : Mach} {u i : Nat} {rs : List TRef} {k : Nat → Mask} (h : m0.Retiring u i rs k m)
    {r : TRef} (hr : r.team = u ∧ r.tidx / 32 = i) : m0.Retiring u i (rs ++ [r]) (strikeOut k [r]) (m.retireThread r) := by
  obtain ⟨rfl, rfl⟩ := hr
  have hall := (h.exit r).strikeEach List.nodup_range (fun n hn => List.mem_range.1 hn) (laneBit r)
  simp only [List.mem_range] at hall
  exact hall

/-- Some threads retire, one after another. -/
def Mach.retireAll (m : Mach) (rs : List TRef) : Mach := rs.foldl (fun m r => m.retireThread r) m

theorem Mach.Retiring.retireAll {m0 m : Mach} {u i : Nat} {rs qs : List TRef} {k : Nat → Mask} (h : m0.Retiring u i rs k m)
    (hq : ∀ q ∈ qs, q.team = u ∧ q.tidx / 32 = i) : m0.Retiring u i (rs ++ qs) (strikeOut k qs) (m.retireAll qs) := by
  induction qs generalizing m rs k with
  | nil => rw [List.append_nil, strikeOut_nil]; exact h
  | cons q qs ih =>
    have hnext := ih (h.retireThread (hq q (by simp))) fun r hr => hq r (by simp [hr])
    rw [← strikeOut_append, List.append_assoc] at hnext
    exact hnext

/-! ### Reading the machine after some threads have retired -/

section
variable {m0 m : Mach} {u i : Nat} {rs : List TRef} {k : Nat → Mask}

theorem Mach.Retiring.thread? (h : m0.Retiring u i rs k m) {r : TRef} {x : Thread} (hx : m0.thread? r = some x) :
    ∃ y, m.thread? r = some y ∧ x.Outlasts u i m0.clk rs (fun n => (k n).freed) y := by
  obtain ⟨f, hf, hout⟩ := h.threads
  refine ⟨f x, ?_, hout x⟩
  rw [Mach.thread?, hf, find_map_of_ref _ _ fun x => (hout x).ref_eq]
  exact congrArg (Option.map f) hx

/-- A thread that still runs has not retired, and ran before. -/
theorem Mach.Retiring.origin (h : m0.Retiring u i rs k m) {y : Thread} (hy : y ∈ m.threads) (hw : y.wait ≠ .exited) :
    ∃ x ∈ m0.threads, x.ref = y.ref ∧ x.helper = y.helper ∧ x.ref ∉ rs ∧ x.wait ≠ .exited := by
  obtain ⟨f, hf, hout⟩ := h.threads
  obtain ⟨x, hx, rfl⟩ := List.mem_map.1 (hf ▸ hy)
  obtain ⟨hrs, hwait⟩ := not_or.1 (mt (hout x).exited_iff.2 hw)
  exact ⟨x, hx, (hout x).ref_eq.symm, by rw [(hout x).rest], hrs, hwait⟩

/-- A thread that ran and has not retired still runs. -/
theorem Mach.Retiring.survivor (h : m0.Retiring u i rs k m) {x : Thread} (hx : x ∈ m0.threads) (hrs : x.ref ∉ rs)
    (hw : x.wait ≠ .exited) : ∃ y ∈ m.threads, y.ref = x.ref ∧ y.helper = x.helper ∧ y.wait ≠ .exited := by
  obtain ⟨f, hf, hout⟩ := h.threads
  exact ⟨f x, hf ▸ List.mem_map_of_mem hx, (hout x).ref_eq, by rw [(hout x).rest], fun he =>
    ((hout x).exited_iff.1 he).elim hrs hw⟩

end

/-! ### Helpers, groups and teams that retire -/

/-- A thread of a group that still runs and is not among `rs`. -/
def Thread.Stays (u i : Nat) (rs : List TRef) (x : Thread) : Prop :=
  (x.ref.team = u ∧ x.ref.tidx / 32 = i) ∧ x.ref ∉ rs ∧ x.wait ≠ .exited

theorem Mach.mem_idleHelpers {m : Mach} {u i : Nat} {r : TRef} (h : r ∈ m.idleHelpers u i) : r.team = u ∧ r.tidx / 32 = i := by
  obtain ⟨x, hx, rfl⟩ := List.mem_map.1 h
  have hhere := (List.mem_filter.1 (List.mem_filter.1 hx).1).2
  simpa [Thread.group] using hhere

/-- No helper retires while each that runs has a real thread of its quad that runs (02 R38). -/
theorem Mach.idleHelpers_eq_nil {m : Mach} {u i : Nat} (h : ∀ x ∈ m.threads, x.Stays u i [] → x.helper = true →
    ∃ r ∈ m.threads, r.Stays u i [] ∧ r.helper = false ∧ r.lane / 4 = x.lane / 4) : m.idleHelpers u i = [] := by
  unfold Mach.idleHelpers
  rw [List.map_eq_nil_iff, List.filter_eq_nil_iff]
  intro x hx hidle
  simp only [List.mem_filter, Bool.and_eq_true, beq_iff_eq] at hx
  simp only [Bool.and_eq_true, bne_iff_ne, Bool.not_eq_true', List.any_eq_false, List.mem_filter, beq_iff_eq] at hidle
  obtain ⟨hmem, hhere⟩ := hx
  obtain ⟨⟨hhelp, hwait⟩, hnone⟩ := hidle
  obtain ⟨r, hr, ⟨hrhere, -, hrwait⟩, hrreal, hquad⟩ := h x hmem ⟨hhere, List.not_mem_nil, hwait⟩ hhelp
  exact hnone r ⟨hr, hrhere⟩ ⟨⟨hrreal, hquad⟩, hrwait⟩

theorem Mach.retireGroup_of_stays {m : Mach} {u i : Nat} {x : Thread} (hx : x ∈ m.threads) (h : x.Stays u i []) :
    m.retireGroup u i = m := by
  obtain ⟨⟨hu, hi⟩, -, hw⟩ := h
  refine if_pos (List.any_eq_true.2 ⟨x, hx, ?_⟩)
  simp [Thread.group, hu, hi, hw]

theorem Mach.retireGroup_rest (m : Mach) (u i : Nat) :
    m.retireGroup u i = { m with threads := (m.retireGroup u i).threads, groups := (m.retireGroup u i).groups } := by
  unfold Mach.retireGroup
  split <;> rfl

/-- The retirement of a group takes nothing from its threads but their latches (13 R209). -/
theorem Mach.thread?_retireGroup {m : Mach} {u i : Nat} {r : TRef} {x : Thread} (h : m.thread? r = some x) :
    ∃ l, (m.retireGroup u i).thread? r = some { x with latch := l } := by
  unfold Mach.retireGroup
  split
  · exact ⟨x.latch, h⟩
  · simp only [Mach.thread?, Mach.updGroup_threads]
    rw [find_map_of_ref _ _ fun x => by split <;> rfl]
    refine ⟨if x.ref.team == u && x.group == i then none else x.latch, ?_⟩
    rw [show m.threads.find? (fun x => x.ref == r) = some x from h, Option.map_some]
    split <;> rfl

/-- The retirement of a group puts no lane into a mask. -/
theorem Mach.group?_retireGroup {m : Mach} {u i : Nat} {g : Group} (h : m.group? u i = some g) :
    ∃ g', (m.retireGroup u i).group? u i = some g' ∧ ∀ n j, (g.mask n).Clear j → (g'.mask n).Clear j := by
  unfold Mach.retireGroup
  split
  · exact ⟨g, h, fun _ _ hc => hc⟩
  · dsimp only
    rw [Mach.group?_updGroup]
    · refine ⟨_, congrArg _ h, fun n j _ => ?_⟩
      have hz : (List.replicate 8 (0 : Word))[n]?.getD 0 = 0 := List.getElem?_getD_replicate_default_eq ..
      simp only [Mask.Clear, Group.mask, List.getD_eq_getElem?_getD, hz]
      exact ⟨BitVec.getLsbD_zero, BitVec.getLsbD_zero⟩
    · exact fun _ => ⟨rfl, rfl⟩

/-- A running team whose every group has retired retires (02 R39). -/
def Mach.closeTeam (m : Mach) (u : Nat) : Mach :=
  if m.groups.all (fun g => g.team != u || g.retired) then
    m.updTeam u fun t => if t.status == .running then { t with status := .retired } else t
  else m

theorem Mach.closeTeam_rest (m : Mach) (u : Nat) : m.closeTeam u = { m with teams := (m.closeTeam u).teams } := by
  unfold Mach.closeTeam
  split <;> rfl

theorem Mach.team?_closeTeam {m : Mach} {u : Nat} {tm : Team} (h : m.team? u = some tm) :
    ∃ st, (m.closeTeam u).team? u = some { tm with status := st } ∧
      (tm.status = .running → ((∀ g ∈ m.groups, g.team = u → g.retired = true) ↔ st = .retired)) := by
  have hall : m.groups.all (fun g => g.team != u || g.retired) = true ↔ ∀ g ∈ m.groups, g.team = u → g.retired = true := by
    simp [List.all_eq_true, imp_iff_not_or]
  unfold Mach.closeTeam
  split
  · next hc =>
    rw [Mach.team?_updTeam _ _ _ fun t => by split <;> rfl, h, Option.map_some]
    by_cases hs : tm.status = .running
    · exact ⟨.retired, by simp [hs], fun _ => by simpa using hall.1 hc⟩
    · exact ⟨tm.status, by simp [hs], fun h => absurd h hs⟩
  · next hc => exact ⟨tm.status, h, fun hs => by rw [← hall, hs]; simp [hc]⟩

/-! ### EXIT -/

theorem Mach.exitLanes_eq (m : Mach) (u i : Nat) (rs : List TRef) : m.exitLanes u i rs =
    (((m.retireAll rs).retireAll ((m.retireAll rs).idleHelpers u i)).retireGroup u i).closeTeam u := rfl

/-- EXIT of some threads of a group retires them, and helpers along with them; then the group and the team may retire. -/
theorem Mach.exitLanes_retiring {m : Mach} {u i : Nat} {g : Group} (hg : m.group? u i = some g) (hs : g.Shows g.mask)
    {rs : List TRef} (hrs : ∀ r ∈ rs, r.team = u ∧ r.tidx / 32 = i) :
    ∃ qs m1, m.exitLanes u i rs = (m1.retireGroup u i).closeTeam u ∧ m.Retiring u i (rs ++ qs) (strikeOut g.mask (rs ++ qs)) m1 := by
  have h := ((Mach.Retiring.start hg hs).retireAll hrs).retireAll fun q (hq : q ∈ (m.retireAll rs).idleHelpers u i) =>
    Mach.mem_idleHelpers hq
  rw [List.nil_append, ← strikeOut_append] at h
  exact ⟨_, _, Mach.exitLanes_eq m u i rs, h⟩

/-- EXIT retires nothing else in a group that some thread outlasts, and where each helper that stays has a real thread of its quad that
stays. -/
theorem Mach.exitLanes_stays {m : Mach} {u i : Nat} {g : Group} (hg : m.group? u i = some g) (hs : g.Shows g.mask)
    {rs : List TRef} (hrs : ∀ r ∈ rs, r.team = u ∧ r.tidx / 32 = i) (hstay : ∃ x ∈ m.threads, x.Stays u i rs)
    (hhelp : ∀ x ∈ m.threads, x.Stays u i rs → x.helper = true →
      ∃ r ∈ m.threads, r.Stays u i rs ∧ r.helper = false ∧ r.lane / 4 = x.lane / 4) :
    m.exitLanes u i rs = (m.retireAll rs).closeTeam u ∧ m.Retiring u i rs (strikeOut g.mask rs) (m.retireAll rs) := by
  have h := (Mach.Retiring.start hg hs).retireAll hrs
  rw [List.nil_append] at h
  have hkeep : ∀ x ∈ m.threads, x.Stays u i rs →
      ∃ y ∈ (m.retireAll rs).threads, y.Stays u i [] ∧ y.helper = x.helper ∧ y.lane = x.lane := by
    intro x hx ⟨hhere, hout, hw⟩
    obtain ⟨y, hy, href, hhelper, hyw⟩ := h.survivor hx hout hw
    exact ⟨y, hy, ⟨href ▸ hhere, List.not_mem_nil, hyw⟩, hhelper, by rw [Thread.lane, href]; rfl⟩
  have hidle : (m.retireAll rs).idleHelpers u i = [] := by
    refine Mach.idleHelpers_eq_nil fun y hy ⟨hhere, _, hw⟩ hhelper => ?_
    obtain ⟨x, hx, href, hxh, hout, hxw⟩ := h.origin hy hw
    obtain ⟨r, hr, hrstays, hreal, hquad⟩ := hhelp x hx ⟨href ▸ hhere, hout, hxw⟩ (hxh.trans hhelper)
    obtain ⟨z, hz, hzstays, hzh, hzlane⟩ := hkeep r hr hrstays
    exact ⟨z, hz, hzstays, hzh.trans hreal, by rw [hzlane, hquad, Thread.lane, href]; rfl⟩
  refine ⟨?_, h⟩
  obtain ⟨x, hx, hxstays⟩ := hstay
  obtain ⟨y, hy, hystays, -⟩ := hkeep x hx hxstays
  rw [Mach.exitLanes_eq, hidle]
  show (((m.retireAll rs).retireGroup u i).closeTeam u) = _
  rw [Mach.retireGroup_of_stays hy hystays]

/-- A word that acts on threads, groups and teams alone, and leaves no fault of its team known: what then stands. -/
theorem Acts.result {s : State} {i : Instr} {effect : Mach → Mach} (h : Acts i s effect) {m : Mach}
    (hm : effect (s.m.advance (refs s.m.bundle) (s.m.wordAddr i.size)) = m)
    (hrest : m = { s.m with threads := m.threads, groups := m.groups, teams := m.teams }) {tm : Team}
    (htm : m.team? s.m.cur.team = some tm) (hq : tm.known = []) :
    ∃ t, exec i s = .next t ∧ s.Keeps t ∧ t.m.threads = m.threads ∧ t.m.teams = m.teams ∧
      t.m.groups = (m.rebundle (refs s.m.bundle) []).groups := by
  obtain ⟨tr, htr, he⟩ := h
  have hcur : m.cur = s.m.cur := by rw [hrest]
  have hmem : m.mem = s.m.mem := by rw [hrest]
  have hat : m.traceAt = s.m.traceAt := by rw [hrest]; rfl
  rw [hm, Mach.skidReport_quiet (tm := tm) (by rw [Mach.rebundle_frame, hcur]; exact htm) hq] at he
  have hlog := Mach.log_rest (m.rebundle (refs s.m.bundle) []) tr
  refine ⟨_, he, fun a ha => ?_, by rw [hlog]; rfl, by rw [hlog]; rfl, by rw [hlog]⟩
  by_cases hd : s.sys.debug = .trace
  · have hw : s.m.mem.wf = true ∧ ¬ (s.m.traceAt ≤ a ∧ a < s.m.traceAt + 16) := by
      simpa only [State.mayTrace, hd, true_and, Classical.not_imp] using ha
    rw [Mach.log_mem tr (by rw [Mach.rebundle_frame, hmem]; exact hw.1) (by rw [Mach.rebundle_frame]; exact hat ▸ hw.2)]
    exact congrArg (Memory.get · a) hmem
  · rw [htr hd]
    exact congrArg (Memory.get · a) hmem

/-- EXIT's effect on its machine, whose lanes have gone on. -/
theorem exit_acts {s : State} {tm : Team} (h : Issues s tm) :
    Acts .exit s fun m => m.exitLanes m.cur.team m.cur.group (refs s.m.bundle) := by
  have hb : staticBad s.m tm .exit = false := by
    simp [staticBad, show Instr.exit.blocks tm.regs = [] from rfl, show Instr.exit.tiles = [] from rfl,
      show Instr.exit.experimental = false from rfl]
  have hacts := acts_of_pass (f := fun _ => id) h (exec_word .exit s rfl) rfl hb fun _ _ => rfl
  simp only [id, List.foldl_fixed] at hacts
  exact hacts

section
variable {m : Mach} {u i : Nat} {g : Group} {rs : List TRef}

theorem Mach.exitLanes_rest (hg : m.group? u i = some g) (hs : g.Shows g.mask) (hrs : ∀ r ∈ rs, r.team = u ∧ r.tidx / 32 = i) :
    m.exitLanes u i rs = { m with
      threads := (m.exitLanes u i rs).threads, groups := (m.exitLanes u i rs).groups, teams := (m.exitLanes u i rs).teams } := by
  obtain ⟨qs, m1, heq, hret⟩ := Mach.exitLanes_retiring hg hs hrs
  rw [heq, Mach.closeTeam_rest, Mach.retireGroup_rest, hret.rest]

theorem Mach.exitLanes_cur (hg : m.group? u i = some g) (hs : g.Shows g.mask) (hrs : ∀ r ∈ rs, r.team = u ∧ r.tidx / 32 = i) :
    (m.exitLanes u i rs).cur = m.cur := by
  rw [Mach.exitLanes_rest hg hs hrs]

/-- Threads that EXIT ends keep their registers (02 R40). -/
theorem Mach.exitLanes_exited (hg : m.group? u i = some g) (hs : g.Shows g.mask) (hrs : ∀ r ∈ rs, r.team = u ∧ r.tidx / 32 = i)
    {r : TRef} (hr : r ∈ rs) {x : Thread} (hx : m.thread? r = some x) :
    ∃ y, (m.exitLanes u i rs).thread? r = some y ∧ y.wait = .exited ∧ y.regs = x.regs ∧ y.preds = x.preds := by
  obtain ⟨qs, m1, heq, hret⟩ := Mach.exitLanes_retiring hg hs hrs
  obtain ⟨y, hy, hout⟩ := hret.thread? hx
  obtain ⟨l, hl⟩ := Mach.thread?_retireGroup (u := u) (i := i) hy
  have href : x.ref = r := by simpa using List.find?_some hx
  rw [heq, Mach.closeTeam_rest]
  refine ⟨_, hl, hout.gone (href ▸ List.mem_append_left _ hr), ?_, ?_⟩ <;> rw [hout.rest]

/-- Threads that EXIT ends are in no mask (02 R34). -/
theorem Mach.exitLanes_clear (hg : m.group? u i = some g) (hs : g.Shows g.mask) (hrs : ∀ r ∈ rs, r.team = u ∧ r.tidx / 32 = i) :
    ∃ g', (m.exitLanes u i rs).group? u i = some g' ∧ ∀ r ∈ rs, ∀ n < 8, (g'.mask n).Clear (r.tidx % 32) := by
  obtain ⟨qs, m1, heq, hret⟩ := Mach.exitLanes_retiring hg hs hrs
  obtain ⟨g1, hg1, hshows⟩ := hret.masks
  obtain ⟨g2, hg2, hkeeps⟩ := Mach.group?_retireGroup hg1
  rw [heq, Mach.closeTeam_rest]
  refine ⟨g2, hg2, fun r hr n hn => hkeeps n _ ?_⟩
  rw [hshows.masks n, strikeOut, if_pos hn]
  exact Mask.strikes_clear _ (List.mem_append_left _ hr)

/-- The team of a group in which EXIT ends threads. -/
theorem Mach.exitLanes_team (hg : m.group? u i = some g) (hs : g.Shows g.mask) (hrs : ∀ r ∈ rs, r.team = u ∧ r.tidx / 32 = i)
    {tm : Team} (htm : m.team? u = some tm) :
    ∃ st, (m.exitLanes u i rs).team? u = some { tm with status := st } ∧
      (tm.status = .running → ((∀ x ∈ (m.exitLanes u i rs).groups, x.team = u → x.retired = true) ↔ st = .retired)) := by
  obtain ⟨qs, m1, heq, hret⟩ := Mach.exitLanes_retiring hg hs hrs
  have htm' : (m1.retireGroup u i).team? u = some tm := by rw [Mach.retireGroup_rest, hret.rest]; exact htm
  obtain ⟨st, hst, hiff⟩ := Mach.team?_closeTeam htm'
  rw [heq]
  refine ⟨st, hst, fun hrun => ?_⟩
  rw [Mach.closeTeam_rest]
  exact hiff hrun

/-- Where nothing else retires, EXIT strikes its threads from a mask one after another. -/
theorem Mach.exitLanes_mask (heq : m.exitLanes u i rs = (m.retireAll rs).closeTeam u)
    (hret : m.Retiring u i rs (strikeOut g.mask rs) (m.retireAll rs)) :
    ∃ g', (m.exitLanes u i rs).group? u i = some g' ∧ ∀ n < 8, g'.mask n = { (g.mask n).strikes rs with freed := false } := by
  obtain ⟨g1, hg1, hshows⟩ := hret.masks
  rw [heq, Mach.closeTeam_rest]
  refine ⟨g1, hg1, fun n hn => ?_⟩
  rw [hshows.masks n, strikeOut, if_pos hn]

/-- Where nothing else retires, a thread that mask `n` holds becomes ready exactly when the mask is released on the way. -/
theorem Mach.exitLanes_held (heq : m.exitLanes u i rs = (m.retireAll rs).closeTeam u)
    (hret : m.Retiring u i rs (strikeOut g.mask rs) (m.retireAll rs)) {r : TRef} (hr : r.team = u ∧ r.tidx / 32 = i) (hrs : r ∉ rs)
    {x : Thread} (hx : m.thread? r = some x) {n : Nat} (hn : n < 8) (hw : x.wait = .held n) :
    (m.exitLanes u i rs).thread? r =
      some (if ((g.mask n).strikes rs).freed then { x with wait := .ready, issued := m.clk } else x) := by
  obtain ⟨y, hy, hout⟩ := hret.thread? hx
  have href : x.ref = r := by simpa using List.find?_some hx
  rw [heq, Mach.closeTeam_rest]
  refine hy.trans (congrArg some ?_)
  rw [hout.others (href ▸ hrs), Thread.freedBy_held (by rw [Thread.group, href]; exact hr) hw, strikeOut, if_pos hn]

end

/-! ### The machine whose lanes have gone on -/

theorem Mach.mem_advance {m : Mach} {rs : List TRef} {a : DWord} {x : Thread} (hx : x.ref ∉ rs) :
    x ∈ (m.advance rs a).threads ↔ x ∈ m.threads := by
  refine List.mem_map.trans ⟨?_, fun h => ⟨x, h, if_neg (by simpa using hx)⟩⟩
  rintro ⟨y, hy, rfl⟩
  split at hx
  · next hc => exact absurd (List.contains_iff_mem.1 hc) hx
  · next hc => rwa [if_neg hc]

/-- STRK of lanes that a mask does not hold, written out (02 R32). -/
theorem Mask.strike_of_disjoint {k : Mask} {l : Word} (hp : k.p &&& l = 0) :
    k.strike l = if k.e &&& ~~~l != 0 && k.p == k.e &&& ~~~l then ⟨0, 0, true⟩ else ⟨k.e &&& ~~~l, k.p, k.freed⟩ := by
  simp only [Mask.strike, Mask.frees, and_not_of_and_eq_zero hp]

/-- A group whose lanes stand in bundles again. -/
theorem Mach.group?_rebundle {m : Mach} {u i : Nat} (hu : m.cur.team = u) (hi : m.cur.group = i) {g : Group}
    (hg : m.group? u i = some g) (a b : List TRef) : ∃ bs, (m.rebundle a b).group? u i = some { g with bundles := bs } := by
  subst hu hi
  unfold Mach.rebundle
  dsimp only
  rw [Mach.group?_updGroup]
  · exact ⟨_, congrArg _ hg⟩
  · exact fun _ => ⟨rfl, rfl⟩

theorem Mach.rebundle_retired (m : Mach) (a b : List TRef) (u : Nat) :
    (∀ g ∈ (m.rebundle a b).groups, g.team = u → g.retired = true) ↔ ∀ g ∈ m.groups, g.team = u → g.retired = true := by
  unfold Mach.rebundle Mach.updGroup
  simp only [List.forall_mem_map]
  refine forall₂_congr fun g _ => ?_
  split <;> rfl

/-- What EXIT retires in a group that some thread outlasts, and where each helper that stays has a real thread of its quad that stays:
the lanes of its bundle, and nothing else. -/
theorem exit_stays {s : State} {tm : Team} {g : Group} (h : Issues s tm) (hg : s.m.group? s.m.cur.team s.m.cur.group = some g)
    (hs : g.Shows g.mask) (hstay : ∃ x ∈ s.m.threads, x.Stays s.m.cur.team s.m.cur.group (refs s.m.bundle))
    (hhelp : ∀ x ∈ s.m.threads, x.Stays s.m.cur.team s.m.cur.group (refs s.m.bundle) → x.helper = true →
      ∃ r ∈ s.m.threads, r.Stays s.m.cur.team s.m.cur.group (refs s.m.bundle) ∧ r.helper = false ∧ r.lane / 4 = x.lane / 4) :
    let m0 := s.m.advance (refs s.m.bundle) (s.m.wordAddr 1)
    let m1 := m0.retireAll (refs s.m.bundle)
    m0.exitLanes s.m.cur.team s.m.cur.group (refs s.m.bundle) = m1.closeTeam s.m.cur.team ∧
      m0.Retiring s.m.cur.team s.m.cur.group (refs s.m.bundle) (strikeOut g.mask (refs s.m.bundle)) m1 := by
  refine Mach.exitLanes_stays (m := s.m.advance _ _) hg hs (fun r hr => bundle_here h hr) ?_ fun x hx hxs hxh => ?_
  · obtain ⟨x, hx, hxs⟩ := hstay
    exact ⟨x, (Mach.mem_advance hxs.2.1).2 hx, hxs⟩
  · obtain ⟨r, hr, hrs, hrest⟩ := hhelp x ((Mach.mem_advance hxs.2.1).1 hx) hxs hxh
    exact ⟨r, (Mach.mem_advance hrs.2.1).2 hr, hrs, hrest⟩

/-- A mask that holds no lane of the bundle is struck by its lanes one after another as STRK of the bundle would strike it. -/
theorem mask_strikes_bundle {s : State} {tm : Team} (h : Issues s tm) {k : Mask} (hk : k.p &&& laneSet s.m.bundle = 0) :
    k.strikes (refs s.m.bundle) = if k.e &&& ~~~laneSet s.m.bundle != 0 && k.p == k.e &&& ~~~laneSet s.m.bundle then ⟨0, 0, true⟩
      else ⟨k.e &&& ~~~laneSet s.m.bundle, k.p, k.freed⟩ := by
  have hne : refs s.m.bundle ≠ [] := fun hnil => h.lanes (List.map_eq_nil_iff.1 hnil)
  rw [← Mask.strike_of_disjoint hk, laneSet_bundle h, Mask.strikes_of_disjoint k hne (laneSet_bundle h ▸ hk)]

/-- Where EXIT retires nothing but its lanes, a mask that holds none of them is struck as STRK would strike it, and the threads that
it holds become ready with its release (02 R32, R34). -/
theorem exit_releases {s : State} {tm : Team} {g : Group} (h : Issues s tm) (hg : s.m.group? s.m.cur.team s.m.cur.group = some g)
    (hs : g.Shows g.mask) (hstay : ∃ x ∈ s.m.threads, x.Stays s.m.cur.team s.m.cur.group (refs s.m.bundle))
    (hhelp : ∀ x ∈ s.m.threads, x.Stays s.m.cur.team s.m.cur.group (refs s.m.bundle) → x.helper = true →
      ∃ r ∈ s.m.threads, r.Stays s.m.cur.team s.m.cur.group (refs s.m.bundle) ∧ r.helper = false ∧ r.lane / 4 = x.lane / 4)
    {n : Nat} (hn : n < 8) (hdis : g.p.getD n 0 &&& laneSet s.m.bundle = 0) :
    let m1 := (s.m.advance (refs s.m.bundle) (s.m.wordAddr 1)).exitLanes s.m.cur.team s.m.cur.group (refs s.m.bundle)
    let e := g.e.getD n 0 &&& ~~~laneSet s.m.bundle
    let p := g.p.getD n 0
    let frees : Bool := e != 0 && p == e
    (∃ g1, m1.group? s.m.cur.team s.m.cur.group = some g1 ∧
      (g1.e.getD n 0, g1.p.getD n 0) = if frees then (0, 0) else (e, p)) ∧
    ∀ r x, s.m.thread? r = some x → r.team = s.m.cur.team ∧ r.tidx / 32 = s.m.cur.group → x.wait = .held n →
      m1.thread? r = some (if frees then { x with wait := .ready, issued := s.m.clk } else x) := by
  intro m1 e p frees
  obtain ⟨heq, hret⟩ := exit_stays h hg hs hstay hhelp
  have hstruck : (g.mask n).strikes (refs s.m.bundle) = if frees then ⟨0, 0, true⟩ else ⟨e, p, false⟩ :=
    mask_strikes_bundle h (k := g.mask n) hdis
  constructor
  · obtain ⟨g1, hg1, hmask⟩ := Mach.exitLanes_mask heq hret
    have hpair : (g1.e.getD n 0, g1.p.getD n 0) = ((g1.mask n).e, (g1.mask n).p) := rfl
    refine ⟨g1, hg1, ?_⟩
    rw [hpair, hmask n hn, hstruck]
    cases frees <;> rfl
  · intro r x hx hr hw
    have hout : r ∉ refs s.m.bundle := not_mem_bundle_of_wait h hx (by simp [hw])
    have hx0 : (s.m.advance (refs s.m.bundle) (s.m.wordAddr 1)).thread? r = some x := by
      rw [Mach.thread?_goOn, if_neg (mt List.contains_iff_mem.1 hout), hx]
    refine (Mach.exitLanes_held heq hret hr hout hx0 hn hw).trans ?_
    rw [hstruck]
    cases frees <;> rfl

/-- Settles O22: EXIT is `exitLanes` of its bundle in the machine whose lanes have gone on; where nothing else retires, a mask that
holds none of the lanes is struck by them one after another as by STRK of them all. -/
theorem exits : Obligations.Exits := by
  unfold Obligations.Exits
  intro s tm g h hg he hp here leaves stays l
  have hs := Group.shows_mask he hp
  have hrs : ∀ r ∈ refs s.m.bundle, r.team = s.m.cur.team ∧ r.tidx / 32 = s.m.cur.group := fun r hr => bundle_here h hr
  let m0 := s.m.advance (refs s.m.bundle) (s.m.wordAddr 1)
  let m1 := m0.exitLanes s.m.cur.team s.m.cur.group (refs s.m.bundle)
  have hg0 : m0.group? s.m.cur.team s.m.cur.group = some g := hg
  have hcur : m1.cur = s.m.cur := Mach.exitLanes_cur hg0 hs hrs
  obtain ⟨st, hst, hretired⟩ := Mach.exitLanes_team hg0 hs hrs h.team
  obtain ⟨g1, hg1, hclear⟩ := Mach.exitLanes_clear hg0 hs hrs
  obtain ⟨bs, hbs⟩ := Mach.group?_rebundle (m := m1) (by rw [hcur]) (by rw [hcur]) hg1 (refs s.m.bundle) []
  obtain ⟨t, hexec, hkeeps, hthreads, hteams, hgroups⟩ :=
    (exit_acts h).result rfl (Mach.exitLanes_rest hg0 hs hrs) hst h.quiet
  have hthread : ∀ r, t.m.thread? r = m1.thread? r := fun r => by rw [Mach.thread?, hthreads]; rfl
  refine ⟨t, hexec, hkeeps, fun th hth => ?_,
    ⟨{ g1 with bundles := bs }, ?_, fun th hth n hn => ?_, fun hstay hhelp n hn hdis => ?_⟩, { tm with status := st }, ?_, fun hrun => ?_⟩
  · have hmem : th.ref ∈ refs s.m.bundle := List.mem_map_of_mem hth
    have hon : m0.thread? th.ref = some (th.onward s.m 1) := by
      rw [Mach.thread?_goOn, if_pos (List.contains_iff_mem.2 hmem), h.named th hth]; rfl
    rw [hthread]
    exact Mach.exitLanes_exited (x := th.onward s.m 1) hg0 hs hrs hmem hon
  · rw [Mach.group?, hgroups]; exact hbs
  · exact hclear th.ref (List.mem_map_of_mem hth) n hn
  · have hstays : ∀ x, stays x ↔ x.Stays s.m.cur.team s.m.cur.group (refs s.m.bundle) := fun x => by
      simp only [stays, here, leaves, Thread.Stays, refs, List.mem_map]
    simp only [hstays] at hstay hhelp
    obtain ⟨⟨g2, hg2, hmask⟩, hheld⟩ := exit_releases h hg hs hstay hhelp hn hdis
    obtain rfl : g1 = g2 := Option.some.inj (hg1.symm.trans hg2)
    exact ⟨hmask, fun r x hx hr hw => (hthread r).trans (hheld r x hx hr hw)⟩
  · rw [Mach.team?, hteams]; exact hst
  · rw [hgroups, Mach.rebundle_retired]; exact hretired hrun

end Sys2Proof.Machine
end

section
/-! SUPPORT. LOADOBJ (20 R280, R281): the status that checks 1 to 3 leave, and what that status does to the verified-object cache. -/

namespace Sys2Proof.Machine

/-! ### The first three checks -/

section
variable {y : Sys} {m : Mach} {bs : List Byte} {h : Header} {digest : BitVec 384} {ctx codeBase dataBase : Nat}

/-- Check 2 comes before the cache is asked. -/
theorem loadStatus_of_revoked (hformat : formatOk bs h = true) (hsvn : h.svn < y.fuses.cosvnCount) :
    loadStatus y m bs h digest ctx codeBase dataBase = 2 := by
  simp [loadStatus, hformat, hsvn]

theorem loadStatus_of_unverified (hformat : formatOk bs h = true) (hsvn : y.fuses.cosvnCount ≤ h.svn)
    (hkey : (digest, h.signer) ∉ y.verified) (hsig : sigOk y bs h digest = false) :
    loadStatus y m bs h digest ctx codeBase dataBase = 3 := by
  simp [loadStatus, hformat, hsvn.not_gt, hkey, hsig]

/-- A present key stands for the signature: only checks 4 to 6 can still reject the object. -/
theorem loadStatus_of_verified (hformat : formatOk bs h = true) (hsvn : y.fuses.cosvnCount ≤ h.svn)
    (hver : (digest, h.signer) ∈ y.verified ∨ sigOk y bs h digest = true) :
    let st := loadStatus y m bs h digest ctx codeBase dataBase
    st ≠ 1 ∧ st ≠ 2 ∧ st ≠ 3 := by
  have hpass : (y.verified.contains (digest, h.signer) || sigOk y bs h digest) = true := by simpa using hver
  simp only [loadStatus, hformat, hsvn.not_gt, hpass, Bool.not_true, Bool.false_eq_true, if_false]
  split_ifs <;> decide

end

/-! ### The cache after a load -/

section
variable {y : Sys} {key : BitVec 384 × BitVec 384} {st : Nat}

theorem cacheAfter_length_le (hlen : y.verified.length ≤ 1024) : (cacheAfter y key st).length ≤ 1024 := by
  unfold cacheAfter
  split_ifs
  · exact (List.length_filter_le _ _).trans hlen
  · exact hlen
  · exact List.length_take_le _ _

theorem mem_cacheAfter_revoked {k : BitVec 384 × BitVec 384} : k ∈ cacheAfter y key 2 ↔ k ∈ y.verified ∧ k ≠ key := by
  simp [cacheAfter]

theorem cacheAfter_unverified : cacheAfter y key 3 = y.verified := rfl

theorem cacheAfter_of_mem (h2 : st ≠ 2) (hkey : key ∈ y.verified) : cacheAfter y key st = y.verified := by
  simp [cacheAfter, h2, hkey]

/-- An object that passed the first three checks has its key in the cache, whatever checks 4 to 6 say. -/
theorem mem_cacheAfter_of_verified (h1 : st ≠ 1) (h2 : st ≠ 2) (h3 : st ≠ 3) : key ∈ cacheAfter y key st := by
  by_cases hkey : key ∈ y.verified
  · rwa [cacheAfter_of_mem h2 hkey]
  · simp [cacheAfter, h1, h2, h3, hkey]

end

/-! ### The load -/

/-- An object whose header is in order and whose bytes are read is answered with the status of the checks. -/
theorem exec_loadobj_of_read {s : State} {pa ctx codeBase dataBase : Nat} {m1 m2 : Mach} {hd bs : List Byte}
    (hlive : s.sys.silent = false) (hhead : s.m.finishUnloads.readObject 4 pa 256 = (m1, some hd))
    (hok : headerOk hd (headerOf hd) = true)
    (hread : m1.readObject ((headerOf hd).sigOff / 128 + 3) pa ((headerOf hd).sigOff + 96) = (m2, some bs)) :
    let h := headerOf hd
    let digest := sha384 (bs.take h.sigOff)
    let st := loadStatus s.sys m2 bs h digest ctx codeBase dataBase
    ∃ t, exec (.loadobj pa ctx codeBase dataBase) s = .next t ∧ t.sys.verified = cacheAfter s.sys (digest, h.signer) st ∧
      t.sys.answer = st := by
  intro h digest st
  have hcall : exec (.loadobj pa ctx codeBase dataBase) s = loadobj pa ctx codeBase dataBase s := if_neg (by simp [hlive])
  simp only [hcall, loadobj, hhead, hok, hread, Bool.not_true, Bool.false_eq_true, if_false]
  exact ⟨_, rfl, rfl, rfl⟩

/-- Settles O54: what checks 2 and 3 say of the object gives the load's status, and the status what the cache keeps. -/
theorem verifiedObjects : Obligations.VerifiedObjects := by
  unfold Obligations.VerifiedObjects
  intro s pa ctx cb db m1 m2 hd bs hlive hhead h key hok hread hformat
  obtain ⟨t, hexec, hcache, hans⟩ := exec_loadobj_of_read (ctx := ctx) (codeBase := cb) (dataBase := db) hlive hhead hok hread
  refine ⟨t, hexec, ?_⟩
  rw [hcache, hans]
  refine ⟨cacheAfter_length_le, fun hsvn => ?revoked, fun hsvn =>
    ⟨fun hkey => ?present, fun hkey => ⟨fun hsig => ?unverified, fun hsig => ?enters⟩⟩⟩
  case revoked =>
    rw [loadStatus_of_revoked hformat hsvn]
    exact ⟨rfl, fun _ => mem_cacheAfter_revoked⟩
  case present =>
    obtain ⟨-, h2, h3⟩ := loadStatus_of_verified hformat hsvn (.inl hkey)
    exact ⟨h3, cacheAfter_of_mem h2 hkey⟩
  case unverified =>
    rw [loadStatus_of_unverified hformat hsvn hkey hsig]
    exact ⟨rfl, cacheAfter_unverified⟩
  case enters =>
    obtain ⟨h1, h2, h3⟩ := loadStatus_of_verified hformat hsvn (.inr hsig)
    exact ⟨h3, mem_cacheAfter_of_verified h1 h2 h3⟩

end Sys2Proof.Machine
end

section
/-! SUPPORT. Encoding and decoding (04 R77-R84): what the decoder reads from each form of word, what it reads from the encoding of an
instruction, and what an instruction that it answers encodes to. -/

namespace Sys2Proof

/-! ### Fields of a word (04 R77) -/

section
variable {maj d a b fn h t o k n disp ru i : Nat}

theorem encR_toNat (hm : maj < 64) (hd : d < 128) (ha : a < 128) (hb : b < 128) (hf : fn < 16) :
    (encR maj d a b fn).toNat = maj * 33554432 + d * 262144 + a * 2048 + b * 16 + fn := by
  simp only [encR, BitVec.toNat_ofNat, Nat.reducePow]
  exact Nat.mod_eq_of_lt (by omega)

/-- The fields of the register form. -/
theorem encR_flds (hm : maj < 64) (hd : d < 128) (ha : a < 128) (hb : b < 128) (hf : fn < 16) :
    let w := (encR maj d a b fn).toNat
    fld w 31 1 = 0 ∧ fld w 25 6 = maj ∧ fld w 18 7 = d ∧ fld w 11 7 = a ∧ fld w 4 7 = b ∧ fld w 0 4 = fn ∧ fld w 0 1 = fn % 2 := by
  rw [encR_toNat hm hd ha hb hf]
  simp only [fld, Nat.reducePow]
  refine ⟨?_, ?_, ?_, ?_, ?_, ?_, ?_⟩ <;> omega

/-- An immediate in the bits below A, or below D, of a register word. -/
theorem encR_add_toNat (hm : maj < 64) (hd : d < 128) (ha : a < 128) (hb : b < 128) (hi : a * 2048 + b * 16 + i < 262144) :
    (encR maj d a b 0 + BitVec.ofNat 32 i).toNat = maj * 33554432 + d * 262144 + a * 2048 + b * 16 + i := by
  rw [BitVec.toNat_add, encR_toNat hm hd ha hb (by decide), BitVec.toNat_ofNat]
  simp only [Nat.reducePow]
  omega

theorem encR_imm_flds (hm : maj < 64) (hd : d < 128) (ha : a < 128) (hb : b < 128) (hi : b * 16 + i < 2048) :
    let w := (encR maj d a b 0 + BitVec.ofNat 32 i).toNat
    fld w 31 1 = 0 ∧ fld w 25 6 = maj ∧ fld w 18 7 = d ∧ fld w 11 7 = a ∧ fld w 0 11 = b * 16 + i := by
  rw [encR_add_toNat hm hd ha hb (by omega)]
  simp only [fld, Nat.reducePow]
  refine ⟨?_, ?_, ?_, ?_, ?_⟩ <;> omega

theorem encR_wide_flds (hm : maj < 64) (hd : d < 128) (hi : i < 262144) :
    let w := (encR maj d 0 0 0 + BitVec.ofNat 32 i).toNat
    fld w 31 1 = 0 ∧ fld w 25 6 = maj ∧ fld w 18 7 = d ∧ fld w 0 18 = i ∧ fld w 16 2 = i / 65536 ∧ fld w 0 16 = i % 65536 := by
  rw [encR_add_toNat hm hd (by decide) (by decide) (by omega)]
  simp only [fld, Nat.reducePow]
  refine ⟨?_, ?_, ?_, ?_, ?_, ?_⟩ <;> omega

theorem encM_flds (hm : maj < 64) (hd : d < 128) (ha : a < 128) (hh : h < 4) (ht : t < 16) (ho : o < 32) :
    let w := (encM maj d a h t o).toNat
    fld w 31 1 = 0 ∧ fld w 25 6 = maj ∧ fld w 18 7 = d ∧ fld w 11 7 = a ∧ fld w 9 2 = h ∧ fld w 9 1 = h % 2 ∧ fld w 10 1 = h / 2 ∧
      fld w 5 4 = t ∧ fld w 0 5 = o := by
  have hw : (encM maj d a h t o).toNat = maj * 33554432 + d * 262144 + a * 2048 + h * 512 + t * 32 + o := by
    simp only [encM, BitVec.toNat_ofNat, Nat.reducePow]
    exact Nat.mod_eq_of_lt (by omega)
  rw [hw]
  simp only [fld, Nat.reducePow]
  refine ⟨?_, ?_, ?_, ?_, ?_, ?_, ?_, ?_, ?_⟩ <;> omega

theorem encB_flds (hm : maj < 64) (hh : h < 4) (hk : k < 8) (hn : n < 2) (hd : disp < 524288) :
    let w := (encB maj h k n disp).toNat
    fld w 31 1 = 0 ∧ fld w 25 6 = maj ∧ fld w 23 2 = h ∧ fld w 20 3 = k ∧ fld w 19 1 = n ∧ fld w 0 19 = disp := by
  have hw : (encB maj h k n disp).toNat = maj * 33554432 + h * 8388608 + k * 1048576 + n * 524288 + disp := by
    simp only [encB, BitVec.toNat_ofNat, Nat.reducePow]
    exact Nat.mod_eq_of_lt (by omega)
  rw [hw]
  simp only [fld, Nat.reducePow]
  refine ⟨?_, ?_, ?_, ?_, ?_, ?_⟩ <;> omega

theorem encT_flds (ht : t < 32) (ha : a < 128) (hb : b < 128) (hr : ru < 2) (hf : fn < 32) :
    let w := (encT t a b ru fn).toNat
    fld w 31 1 = 0 ∧ fld w 25 6 = 0x30 ∧ fld w 20 5 = t ∧ fld w 13 7 = a ∧ fld w 6 7 = b ∧ fld w 5 1 = ru ∧ fld w 0 5 = fn := by
  have hw : (encT t a b ru fn).toNat = 1610612736 + t * 1048576 + a * 8192 + b * 64 + ru * 32 + fn := by
    simp only [encT, BitVec.toNat_ofNat, Nat.reducePow]
    exact Nat.mod_eq_of_lt (by omega)
  rw [hw]
  simp only [fld, Nat.reducePow]
  refine ⟨?_, ?_, ?_, ?_, ?_, ?_, ?_⟩ <;> omega

theorem encW_flds {l s d t : Nat} (hl : l < 64) (hs : s < 64) (hd : d < 64) (ht : t < 64) :
    let w := (BitVec.ofNat 32 (0x2D * 2 ^ 25 + l * 2 ^ 19 + s * 2 ^ 13 + d * 2 ^ 7 + t * 2)).toNat
    fld w 31 1 = 0 ∧ fld w 25 6 = 0x2D ∧ fld w 19 6 = l ∧ fld w 13 6 = s ∧ fld w 7 6 = d ∧ fld w 1 6 = t ∧ fld w 0 1 = 0 := by
  simp only [BitVec.toNat_ofNat, Nat.reducePow, Nat.reduceMul]
  rw [Nat.mod_eq_of_lt (by omega)]
  simp only [fld, Nat.reducePow]
  refine ⟨?_, ?_, ?_, ?_, ?_, ?_, ?_⟩ <;> omega

/-! ### The words of a chain (04 R74, R84) -/

/-- A field below the chain bit, with the bit set. -/
theorem fld_setC (w : Word) {lo n : Nat} (h : lo + n ≤ 31) : fld (w ||| 0x80000000#32).toNat lo n = fld w.toNat lo n := by
  have hc : (0x80000000#32).toNat = 2 ^ 31 := by decide
  refine Nat.eq_of_testBit_eq fun j => ?_
  simp only [fld, Nat.testBit_mod_two_pow, Nat.testBit_div_two_pow, BitVec.toNat_or, Nat.testBit_or, hc, Nat.testBit_two_pow]
  by_cases hj : j < n
  · simp [show ¬ 31 = j + lo by omega]
  · simp [hj]

theorem decodeWord_setC (w : Word) (ext : Option Nat) : decodeWord (w ||| 0x80000000#32).toNat ext = decodeWord w.toNat ext := by
  simp (disch := decide) only [decodeWord, decMem, fld_setC]

theorem fld_chain_eq_zero {w : Word} : fld w.toNat 31 1 = 0 ↔ w.getLsbD 31 = false := by
  simp only [BitVec.getLsbD, Nat.testBit_eq_decide_div_mod_eq, decide_eq_false_iff_not, fld, Nat.pow_one]
  omega

/-- A chain of one word. -/
theorem decodeChain_one {w : Word} {i : Instr} (hw : w.getLsbD 31 = false) :
    decodeChain 0 [w] = .ok [{ instr := i, off := 0, size := 1 }] 1 ↔ decodeWord w.toNat none = .ok i := by
  have hc : (fld w.toNat 31 1 == 1) = false := by rw [fld_chain_eq_zero.2 hw]; rfl
  have hx : isExt w.toNat = true → decodeWord w.toNat none = .bad .unassignedMajor := fun h => by
    have h63 : fld w.toNat 25 6 = 63 := by simpa [isExt] using h
    simp only [decodeWord, h63]
  simp only [decodeChain, decodeChainFrom, hc]
  by_cases hm : isExt w.toNat = true
  · simp [hm, hx hm]
  · cases hd : decodeWord w.toNat none with
    | ok j => simp [hm]; cases pipeOf j <;> simp
    | bad e => simp [hm]
    | extBad e => cases hd' : decodeAlone w.toNat <;> simp [hm]; rename_i j; cases pipeOf j <;> simp

/-- An extension word is no word of its own. -/
theorem decodeWord_of_isExt {w : Nat} (h : isExt w = true) (ext : Option Nat) : decodeWord w ext = .bad .unassignedMajor := by
  have h63 : fld w 25 6 = 63 := by simpa [isExt] using h
  simp only [decodeWord, h63]

theorem getLsbD_chain (w : Word) : w.getLsbD 31 = (fld w.toNat 31 1 == 1) := by
  cases h : w.getLsbD 31
  · rw [fld_chain_eq_zero.2 h]; rfl
  · have h0 : fld w.toNat 31 1 ≠ 0 := mt fld_chain_eq_zero.1 (by simp [h])
    have h2 : fld w.toNat 31 1 < 2 := Nat.mod_lt _ (by decide)
    simp; omega

theorem ite_bad_eq_ok {c : Prop} [Decidable c] {off len : Nat} {e : Illegal} {ps : List Placed} {x : ChainDec} :
    (if c then .bad off e else x) = ChainDec.ok ps len ↔ ¬ c ∧ x = .ok ps len := by split_ifs with hc <;> simp [hc]

/-- The words decoded so far stay at the head of a chain. -/
theorem decodeChainFrom_prefix {fuel slot off len : Nat} {used : List Pipe} {acc ps : List Placed} {ws : List Word}
    (h : decodeChainFrom fuel slot off used acc ws = .ok ps len) : acc.reverse <+: ps := by
  induction fuel generalizing off used acc ws with
  | zero => cases h; exact List.prefix_rfl
  | succ fuel ih =>
    have hpre : ∀ p, acc.reverse <+: (p :: acc).reverse := fun p => by simp
    cases ws with
    | nil => cases h; exact List.prefix_rfl
    | cons w rest =>
      simp only [decodeChainFrom] at h
      obtain ⟨-, h⟩ := ite_bad_eq_ok.1 h
      split at h
      · cases h
      obtain ⟨-, h⟩ := ite_bad_eq_ok.1 h
      obtain ⟨-, h⟩ := ite_bad_eq_ok.1 h
      split at h
      · cases h
      · cases h
      split at h
      · obtain ⟨-, h⟩ := ite_bad_eq_ok.1 h
        split at h
        · exact (hpre _).trans (ih h)
        · cases h; exact hpre _
      · split at h
        · exact (hpre _).trans (ih h)
        · cases h; exact hpre _

/-- A chain of a word and its extension word. -/
theorem decodeChain_two {w x : Word} {i : Instr} (hx : x.getLsbD 31 = false) :
    decodeChain 0 [w, x] = .ok [{ instr := i, off := 0, size := 2 }] 2 ↔
      w.getLsbD 31 = true ∧ isExt x.toNat = true ∧ decodeWord w.toNat (some (fld x.toNat 0 25)) = .ok i := by
  have hxc : (fld x.toNat 31 1 == 1) = false := by rw [← getLsbD_chain, hx]
  have hx0 : fld x.toNat 31 1 = 0 := fld_chain_eq_zero.2 hx
  rw [getLsbD_chain]
  constructor
  · intro h
    have hm : isExt w.toNat = false := by
      cases hm : isExt w.toNat
      · rfl
      · simp [decodeChain, decodeChainFrom, hm] at h
    simp only [decodeChain, decodeChainFrom, hm, hxc] at h
    cases hc : fld w.toNat 31 1 == 1 <;> cases hx' : isExt x.toNat <;> simp only [hc, hx'] at h
    case true.true =>
      refine ⟨rfl, rfl, ?_⟩
      cases hd : decodeWord w.toNat (some (fld x.toNat 0 25)) with
      | ok j => cases hp : pipeOf j <;> simp [hd, hp, hx0] at h <;> rw [h]
      | bad e => simp [hd] at h
      | extBad e =>
        cases ha : decodeAlone w.toNat <;> simp [hd, ha] at h
        rename_i j
        cases hp : pipeOf j <;> simp [hp] at h
    case true.false =>
      cases hd : decodeWord w.toNat none with
      | ok j =>
        have hacc : decodeChainFrom 2 0 1 (match pipeOf j with | some p => [p] | none => [])
            [{ instr := j, off := 0, size := 1 }] [x] = .ok [{ instr := i, off := 0, size := 2 }] 2 := by
          cases hp : pipeOf j <;> simpa [hd, hp, decodeChainFrom, hx'] using h
        simpa using decodeChainFrom_prefix hacc
      | bad e => simp [hd] at h
      | extBad e =>
        cases ha : decodeAlone w.toNat <;> simp [hd, ha] at h
        rename_i j
        cases hp : pipeOf j <;> simp [hp] at h
    all_goals
      cases hd : decodeWord w.toNat none with
      | ok j => cases hp : pipeOf j <;> simp [hd, hp] at h
      | bad e => simp [hd] at h
      | extBad e =>
        cases ha : decodeAlone w.toNat <;> simp [hd, ha] at h
        rename_i j
        cases hp : pipeOf j <;> simp [hp] at h
  · rintro ⟨hb, hx', hd⟩
    have hm : isExt w.toNat = false := by
      cases h : isExt w.toNat
      · rfl
      · simp [decodeWord_of_isExt h] at hd
    simp only [decodeChain, decodeChainFrom, hb, hx', hm]
    cases hp : pipeOf i <;> simp [hd, hp, hx0]

/-! ### Codes of fields -/

@[simp] theorem tagOf_code (t : Tag) : tagOf t.code = some t := by cases t <;> rfl
@[simp] theorem condOf_code (f : Cond) : condOf f.code = some f := by cases f <;> rfl
@[simp] theorem fcondOf_code (f : FCond) : fcondOf f.code = some f := by cases f <;> rfl
@[simp] theorem amoOf_code (f : AmoOp) : amoOf f.code = some f := by cases f <;> rfl
@[simp] theorem redOf_code (o : RedOp) : redOf o.code = some o := by cases o <;> rfl
@[simp] theorem movSizeOf_code (z : MovSize) : movSizeOf z.code = some z := by cases z <;> rfl
@[simp] theorem tileTagOf_code (g : TileTag) : tileTagOf g.code = some g := by cases g <;> rfl
@[simp] theorem fillOf_code (f : Fill) : fillOf f.code = some f := by cases f <;> rfl
@[simp] theorem sysRegOf_code (r : SysReg) : sysRegOf r.code = some r := by cases r <;> rfl
@[simp] theorem bfmtOf_code (g : Option BFmt) : bfmtOf (bfmtCode g) = some g := by
  rcases g with _ | g
  · rfl
  · cases g <;> rfl
@[simp] theorem rmOf_code (r : Rm) : rmOf r.code = r := by cases r <;> rfl
@[simp] theorem brHintOf_code (h : BrHint) : brHintOf h.code = h := by cases h <;> rfl
@[simp] theorem cHintOf_code (h : CHint) : cHintOf h.code = h := by cases h <;> rfl
@[simp] theorem tredOf_code (o : TRedOp) : tredOf o.code = o := by cases o <;> rfl

theorem code_of_tagOf {t : Tag} (h : tagOf n = some t) : t.code = n := by
  unfold tagOf at h; split at h <;> cases h <;> rfl
theorem code_of_condOf {f : Cond} (h : condOf n = some f) : f.code = n := by
  unfold condOf at h; split at h <;> cases h <;> rfl
theorem code_of_fcondOf {f : FCond} (h : fcondOf n = some f) : f.code = n := by
  unfold fcondOf at h; split at h <;> cases h <;> rfl
theorem code_of_amoOf {f : AmoOp} (h : amoOf n = some f) : f.code = n := by
  unfold amoOf at h; split at h <;> cases h <;> rfl
theorem code_of_redOf {o : RedOp} (h : redOf n = some o) : o.code = n := by
  unfold redOf at h; split at h <;> cases h <;> rfl
theorem code_of_movSizeOf {z : MovSize} (h : movSizeOf n = some z) : z.code = n := by
  unfold movSizeOf at h; split at h <;> cases h <;> rfl
theorem code_of_tileTagOf {g : TileTag} (h : tileTagOf n = some g) : g.code = n := by
  unfold tileTagOf at h; split at h <;> cases h <;> rfl
theorem code_of_fillOf {f : Fill} (h : fillOf n = some f) : f.code = n := by
  unfold fillOf at h; split at h <;> cases h <;> rfl
theorem code_of_sysRegOf {r : SysReg} (h : sysRegOf n = some r) : r.code = n := by
  unfold sysRegOf at h; split at h <;> cases h <;> rfl
theorem code_of_bfmtOf {g : Option BFmt} (h : bfmtOf n = some g) : bfmtCode g = n := by
  unfold bfmtOf at h; split at h <;> cases h <;> rfl
theorem code_rmOf (h : n < 4) : (rmOf n).code = n := by interval_cases n <;> rfl
theorem code_brHintOf (h : n < 4) : (brHintOf n).code = n := by interval_cases n <;> rfl
theorem code_cHintOf (h : n < 4) : (cHintOf n).code = n := by interval_cases n <;> rfl
theorem code_tredOf (h : n < 4) : (tredOf n).code = n := by interval_cases n <;> rfl

theorem need_eq_ok {c : Bool} {e : Illegal} {i j : Instr} : need c e i = .ok j ↔ c = true ∧ i.wf = true ∧ i = j := by
  unfold need; split_ifs <;> simp_all

theorem opt_eq_ok {α : Type} {x : Option α} {e : Illegal} {f : α → WordDec} {i : Instr} :
    opt x e f = .ok i ↔ ∃ y, x = some y ∧ f y = .ok i := by
  cases x <;> simp [opt]

theorem noExt_eq_ok {ext : Option Nat} {r : WordDec} {i : Instr} : noExt ext r = .ok i ↔ ext = none ∧ r = .ok i := by
  cases ext <;> simp [noExt]
  cases r <;> simp

theorem Tag.code_lt (t : Tag) : t.code < 16 := by cases t <;> decide
theorem Cond.code_lt (f : Cond) : f.code < 16 := by cases f <;> decide
theorem FCond.code_lt (f : FCond) : f.code < 16 := by cases f <;> decide
theorem AmoOp.code_lt (f : AmoOp) : f.code < 16 := by cases f <;> decide
theorem RedOp.code_lt (o : RedOp) : o.code < 16 := by cases o <;> decide
theorem Rm.code_lt (r : Rm) : r.code < 4 := by cases r <;> decide
theorem TileTag.code_lt (g : TileTag) : g.code < 8 := by cases g <;> decide
theorem SysReg.code_lt (r : SysReg) : r.code < 128 := by cases r <;> decide
theorem MovSize.code_lt (z : MovSize) : z.code < 4 := by cases z <;> decide
theorem BrHint.code_lt (h : BrHint) : h.code < 4 := by cases h <;> decide
theorem CHint.code_lt (h : CHint) : h.code < 4 := by cases h <;> decide


/-! ### Encoding, then decoding -/

/-- The words of a chain that decodes to one instruction. -/
def ReadsAs (ws : List Word) (i : Instr) : Prop :=
  decodeChain 0 ws = .ok [{ instr := i, off := 0, size := ws.length }] ws.length

theorem readsAs_one {w : Word} {i : Instr} (hc : fld w.toNat 31 1 = 0) (h : decodeWord w.toNat none = .ok i) : ReadsAs [w] i :=
  (decodeChain_one (fld_chain_eq_zero.1 hc)).2 h

theorem readsAs_encR {i : Instr} (hb : maj < 64 ∧ d < 128 ∧ a < 128 ∧ b < 128 ∧ fn < 16)
    (h : ∀ w, fld w 25 6 = maj → fld w 18 7 = d → fld w 11 7 = a → fld w 4 7 = b → fld w 0 4 = fn → decodeWord w none = .ok i) :
    ReadsAs [encR maj d a b fn] i := by
  obtain ⟨hmb, hdb, hab, hbb, hfb⟩ := hb
  obtain ⟨hc, hm, hd, ha, hb, hf, -⟩ := encR_flds hmb hdb hab hbb hfb
  exact readsAs_one hc (h _ hm hd ha hb hf)

theorem readsAs_encR_imm {i : Instr} (hb : maj < 64 ∧ d < 128 ∧ a < 128 ∧ b < 128 ∧ b * 16 + k < 2048)
    (h : ∀ w, fld w 25 6 = maj → fld w 18 7 = d → fld w 11 7 = a → fld w 0 11 = b * 16 + k → decodeWord w none = .ok i) :
    ReadsAs [encR maj d a b 0 + BitVec.ofNat 32 k] i := by
  obtain ⟨hmb, hdb, hab, hbb, hkb⟩ := hb
  obtain ⟨hc, hm, hd, ha, hk⟩ := encR_imm_flds hmb hdb hab hbb hkb
  exact readsAs_one hc (h _ hm hd ha hk)

theorem readsAs_encR_wide {i : Instr} (hb : maj < 64 ∧ d < 128 ∧ k < 262144)
    (h : ∀ w, fld w 25 6 = maj → fld w 18 7 = d → fld w 0 18 = k → fld w 16 2 = k / 65536 → fld w 0 16 = k % 65536 →
      decodeWord w none = .ok i) :
    ReadsAs [encR maj d 0 0 0 + BitVec.ofNat 32 k] i := by
  obtain ⟨hmb, hdb, hkb⟩ := hb
  obtain ⟨hc, hm, hd, hk, hk2, hk16⟩ := encR_wide_flds hmb hdb hkb
  exact readsAs_one hc (h _ hm hd hk hk2 hk16)

theorem readsAs_encM {i : Instr} (hb : maj < 64 ∧ d < 128 ∧ a < 128 ∧ h < 4 ∧ t < 16 ∧ o < 32)
    (hi : ∀ w, fld w 25 6 = maj → fld w 18 7 = d → fld w 11 7 = a → fld w 9 2 = h → fld w 9 1 = h % 2 → fld w 10 1 = h / 2 →
      fld w 5 4 = t → fld w 0 5 = o → decodeWord w none = .ok i) : ReadsAs [encM maj d a h t o] i := by
  obtain ⟨hmb, hdb, hab, hhb, htb, hob⟩ := hb
  obtain ⟨hc, hm, hd, ha, hh, hlo, hhi, ht, ho⟩ := encM_flds hmb hdb hab hhb htb hob
  exact readsAs_one hc (hi _ hm hd ha hh hlo hhi ht ho)

theorem readsAs_encB {i : Instr} (hb : maj < 64 ∧ h < 4 ∧ k < 8 ∧ n < 2 ∧ disp < 524288)
    (hi : ∀ w, fld w 25 6 = maj → fld w 23 2 = h → fld w 20 3 = k → fld w 19 1 = n → fld w 0 19 = disp → decodeWord w none = .ok i) :
    ReadsAs [encB maj h k n disp] i := by
  obtain ⟨hmb, hhb, hkb, hnb, hdb⟩ := hb
  obtain ⟨hc, hm, hh, hk, hn, hd⟩ := encB_flds hmb hhb hkb hnb hdb
  exact readsAs_one hc (hi _ hm hh hk hn hd)

theorem readsAs_encT {i : Instr} (hb : t < 32 ∧ a < 128 ∧ b < 128 ∧ ru < 2 ∧ fn < 32)
    (hi : ∀ w, fld w 25 6 = 0x30 → fld w 20 5 = t → fld w 13 7 = a → fld w 6 7 = b → fld w 5 1 = ru → fld w 0 5 = fn →
      decodeWord w none = .ok i) : ReadsAs [encT t a b ru fn] i := by
  obtain ⟨htb, hab, hbb, hrb, hfb⟩ := hb
  obtain ⟨hc, hm, ht, ha, hb, hr, hf⟩ := encT_flds htb hab hbb hrb hfb
  exact readsAs_one hc (hi _ hm ht ha hb hr hf)

theorem ext_flds {x : Nat} (hx : x < 2 ^ 25) :
    let w := (BitVec.ofNat 32 (0x3F * 2 ^ 25 + x)).toNat
    fld w 31 1 = 0 ∧ isExt w = true ∧ fld w 0 25 = x := by
  simp only [BitVec.toNat_ofNat, Nat.reducePow, Nat.reduceMul] at hx ⊢
  rw [Nat.mod_eq_of_lt (by omega)]
  simp only [isExt, fld, Nat.reducePow, beq_iff_eq]
  refine ⟨?_, ?_, ?_⟩ <;> omega

theorem readsAs_withExt {w : Word} {x : Nat} {i : Instr} (hx : x < 2 ^ 25) (h : decodeWord w.toNat (some x) = .ok i) :
    ReadsAs (withExt w x) i := by
  obtain ⟨hc, hext, hfld⟩ := ext_flds hx
  refine (decodeChain_two (fld_chain_eq_zero.1 hc)).2 ⟨by simp, hext, ?_⟩
  rw [decodeWord_setC, hfld, h]

theorem readsAs_encR_ext {x : Nat} {i : Instr} (hb : maj < 64 ∧ d < 128 ∧ a < 128 ∧ b < 128 ∧ fn < 16) (hx : x < 2 ^ 25)
    (h : ∀ w, fld w 25 6 = maj → fld w 18 7 = d → fld w 11 7 = a → fld w 4 7 = b → fld w 0 4 = fn →
      decodeWord w (some x) = .ok i) : ReadsAs (withExt (encR maj d a b fn) x) i := by
  obtain ⟨hmb, hdb, hab, hbb, hfb⟩ := hb
  obtain ⟨-, hm, hd, ha, hb, hf, -⟩ := encR_flds hmb hdb hab hbb hfb
  exact readsAs_withExt hx (h _ hm hd ha hb hf)

/-- The fields of a placed word's extension. -/
theorem encX_ext_flds (t : Tag) (n : Reg) :
    let x := t.code * 2 ^ 7 + n.toNat
    x < 2 ^ 25 ∧ fld x 11 14 = 0 ∧ fld x 7 4 = t.code ∧ fld x 0 7 = n.toNat := by
  have := t.code_lt
  simp only [fld, Nat.reducePow]
  refine ⟨?_, ?_, ?_, ?_⟩ <;> omega

theorem readsAs_encX {t : Tag} {n : Reg} {i : Instr} (hb : fn < 16 ∧ d < 128 ∧ a < 128 ∧ b < 128)
    (h : ∀ w x, fld w 25 6 = 0x28 → fld w 18 7 = d → fld w 11 7 = a → fld w 4 7 = b → fld w 0 4 = fn →
      fld x 11 14 = 0 → fld x 7 4 = t.code → fld x 0 7 = n.toNat → decodeWord w (some x) = .ok i) :
    ReadsAs (encX fn d a b t n) i := by
  obtain ⟨hx, hz, htag, hn⟩ := encX_ext_flds t n
  exact readsAs_encR_ext (by omega) hx fun w hm hd ha hb hf => h w _ hm hd ha hb hf hz htag hn

theorem readsAs_encW {l s d t : Nat} {i : Instr} (hl : l < 64) (hs : s < 64) (hd : d < 64) (ht : t < 64)
    (hi : ∀ w, fld w 25 6 = 0x2D → fld w 19 6 = l → fld w 13 6 = s → fld w 7 6 = d → fld w 1 6 = t → fld w 0 1 = 0 →
      decodeWord w none = .ok i) :
    ReadsAs [BitVec.ofNat 32 (0x2D * 2 ^ 25 + l * 2 ^ 19 + s * 2 ^ 13 + d * 2 ^ 7 + t * 2)] i := by
  obtain ⟨hc, hm, hl, hs, hd, ht, hz⟩ := encW_flds hl hs hd ht
  exact readsAs_one hc (hi _ hm hl hs hd ht hz)

theorem decodeWord_movi {w x : Nat} {d : Reg} {k : BitVec 18} {y : BitVec 14} (hm : fld w 25 6 = 0x0C) (hd : fld w 18 7 = d.toNat)
    (hk : fld w 0 18 = k.toNat) (hz : fld x 14 11 = 0) (hy : fld x 0 14 = y.toNat) :
    decodeWord w (some x) = .ok (.movi d k (some y)) := by
  simp [decodeWord, hm, hd, hk, hz, hy, need_eq_ok, Instr.wf]

theorem tmmaExtOf_code (e : TmmaExt) :
    let x := e.diag.toNat * 2 ^ 7 + e.fill.code * 2 ^ 5 + e.tri.toNat * 2 ^ 4 + bfmtCode e.bfmt
    x < 2 ^ 25 ∧ tmmaExtOf x = some e := by
  obtain ⟨g, f, r, m⟩ := e
  have hf : f.code < 4 := by cases f <;> decide
  have hr : r.toNat < 2 := r.toNat_lt
  have hg : bfmtCode m < 16 := by rcases m with _ | m; decide; cases m <;> decide
  intro x
  have hx : x = g.toNat * 128 + f.code * 32 + r.toNat * 16 + bfmtCode m := rfl
  clear_value x
  have h8 : fld x 17 8 = 0 := by simp only [fld]; omega
  have h2 : fld x 5 2 = f.code := by simp only [fld]; omega
  have h4 : fld x 0 4 = bfmtCode m := by simp only [fld]; omega
  have h10 : fld x 7 10 = g.toNat := by simp only [fld]; omega
  have h1 : fld x 4 1 = r.toNat := by simp only [fld]; omega
  refine ⟨by omega, ?_⟩
  simp [tmmaExtOf, h8, h2, h4, h10, h1]

theorem decodeWord_tmma {w x : Nat} {t : TIx} {a b : Reg} {ru : Bool} {e : TmmaExt} (hm : fld w 25 6 = 0x30)
    (ht : fld w 20 5 = t.toNat) (ha : fld w 13 7 = a.toNat) (hb : fld w 6 7 = b.toNat) (hr : fld w 5 1 = ru.toNat)
    (hf : fld w 0 5 = 0) (hx : tmmaExtOf x = some e) (hwf : (Instr.tmma t a b ru (some e)).wf = true) :
    decodeWord w (some x) = .ok (.tmma t a b ru (some e)) := by
  simp [decodeWord, hm, ht, ha, hb, hr, hf, hx, decTile, need_eq_ok, hwf]

theorem bitImm_flds {v c : Nat} (k : BitVec 9) (h : v = c * 16 + k.toNat) (hc : c % 32 = 0) :
    v / 512 = c / 32 ∧ BitVec.ofNat 9 v = k := by
  subst h
  exact ⟨by omega, BitVec.eq_of_toNat_eq (by simp; omega)⟩

theorem shiftImm_flds {v c : Nat} (k : BitVec 6) (h : v = c * 16 + k.toNat) (hc : c % 32 = 0) :
    v / 512 = c / 32 ∧ v / 64 % 8 = 0 ∧ BitVec.ofNat 6 v = k := by
  subst h
  exact ⟨by omega, by omega, BitVec.eq_of_toNat_eq (by simp; omega)⟩

theorem readsAs_encode {i : Instr} (hwf : i.wf = true) (hw : i.isEvent = false) : ReadsAs (encode i) i := by
  cases i with
  | nop =>
    refine readsAs_encR (maj := 0) (d := 0) (a := 0) (b := 0) (fn := 0) (by decide) fun w hm hd ha hb hf => ?_
    simp [decodeWord, *, noExt_eq_ok, decControl, need_eq_ok]
  | exit | ret a | brk c | xfen | yild | svc n a | trap c | brx a =>
    refine readsAs_encR ⟨by decide, by omega, by omega, by omega, by decide⟩ fun w hm hd ha hb hf => ?_
    simp [decodeWord, *, noExt_eq_ok, decControl, need_eq_ok]
  | rte sub =>
    refine readsAs_encR (by cases sub <;> decide) fun w hm hd ha hb hf => ?_
    cases sub <;> simp [decodeWord, *, noExt_eq_ok, decControl, need_eq_ok]
  | br h k n disp | call h k n disp =>
    refine readsAs_encB ⟨by decide, h.code_lt, by omega, n.toNat_lt, by omega⟩ fun w hm hh hk hn hd => ?_
    simp [decodeWord, *, noExt_eq_ok, need_eq_ok]
  | enrl n | park n | strk n =>
    refine readsAs_encR (by simp; omega) fun w hm hd ha hb hf => ?_
    simp [decodeWord, *, noExt_eq_ok, decRejoin, need_eq_ok]
    omega
  | iaddReg d a b | isub d a b | iabs d a | imul d a b | imulh d a b | imin d a b | imax d a b | andReg d a b | orReg d a b | xorReg d a b
  | inot d a | shlReg d a b | shrReg d a b | shaReg d a b | clz d a | popc d a =>
    refine readsAs_encR (by simp; omega) fun w hm hd ha hb hf => ?_
    simp [decodeWord, *, noExt_eq_ok, decInt, need_eq_ok]
  | iaddImm d a k =>
    refine readsAs_encR_imm (by simp; omega) fun w hm hd ha hk => ?_
    simp [decodeWord, *, noExt_eq_ok, need_eq_ok]
  | shlImm d a k | shrImm d a k | shaImm d a k =>
    refine readsAs_encR_imm (by simp; omega) fun w hm hd ha hk => ?_
    obtain ⟨hq, hz, hn⟩ := shiftImm_flds k hk (by decide)
    simp [decodeWord, hm, hd, ha, hq, hz, hn, noExt_eq_ok, decIntImm, need_eq_ok, hwf]
  | andImm d a k | orImm d a k | xorImm d a k =>
    refine readsAs_encR_imm (by simp; omega) fun w hm hd ha hk => ?_
    obtain ⟨hq, hn⟩ := bitImm_flds k hk (by decide)
    simp [decodeWord, hm, hd, ha, hq, hn, noExt_eq_ok, decIntImm, need_eq_ok, hwf]
  | imad d a b | bfx d a b | bfi d a b | bprm d a b =>
    refine readsAs_encR (by simp; omega) fun w hm hd ha hb hf => ?_
    simp [decodeWord, *, noExt_eq_ok, decMove, need_eq_ok]
  | sel d a b k =>
    refine readsAs_encR (by simp; omega) fun w hm hd ha hb hf => ?_
    have hlast : BitVec.ofNat 3 (8 + k.toNat) = k := BitVec.eq_of_toNat_eq (by simp; omega)
    simp only [decodeWord, hm, hd, ha, hb, hf, decMove]
    split <;> simp_all [noExt_eq_ok, need_eq_ok] <;> omega
  | iset k a b f =>
    refine readsAs_encR ⟨by decide, by omega, by omega, by omega, f.code_lt⟩ fun w hm hd ha hb hf => ?_
    simp [decodeWord, *, noExt_eq_ok, decMove, opt, need_eq_ok]
    omega
  | time d =>
    refine readsAs_encR ⟨by decide, by omega, by omega, by omega, by decide⟩ fun w hm hd ha hb hf => ?_
    simp [decodeWord, *, noExt_eq_ok, decMove, need_eq_ok]
  | mov d a z =>
    have hz := z.code_lt
    refine readsAs_encR ⟨by decide, by omega, by omega, by omega, by decide⟩ fun w hm hd ha hb hf => ?_
    simp [decodeWord, *, noExt_eq_ok, decMove, opt, need_eq_ok]
  | rtag d a t =>
    have ht := t.code_lt
    refine readsAs_encR ⟨by decide, by omega, by omega, by omega, by decide⟩ fun w hm hd ha hb hf => ?_
    simp [decodeWord, *, noExt_eq_ok, decMove, opt, need_eq_ok]
  | gsr d r | ssr d r =>
    have hr := r.code_lt
    refine readsAs_encR ⟨by decide, by omega, by omega, by omega, by decide⟩ fun w hm hd ha hb hf => ?_
    simp [decodeWord, *, noExt_eq_ok, decMove, opt, need_eq_ok, Nat.div_add_mod']
  | fadd d a b | fsub d a b | fmul d a b | fmin d a b | fmax d a b | fdiv d a b | fcls d a | dot4 d a b | ffma d a b | frcp d a | frsq d a
  | fsqrt d a | fex2 d a | flg2 d a | fsin d a | fcos d a | pack d a b | unpk d a =>
    refine readsAs_encR (by simp; omega) fun w hm hd ha hb hf => ?_
    simp [decodeWord, *, noExt_eq_ok, decFloat, need_eq_ok]
  | fset k a b f =>
    refine readsAs_encR ⟨by decide, by omega, by omega, by omega, f.code_lt⟩ fun w hm hd ha hb hf => ?_
    simp [decodeWord, *, noExt_eq_ok, decFloat, opt, need_eq_ok]
    omega
  | cvt d a sat rm t =>
    have := rm.code_lt
    have := sat.toNat_lt
    refine readsAs_encR ⟨by decide, by omega, by omega, by omega, t.code_lt⟩ fun w hm hd ha hb hf => ?_
    have htag : (t == .raw || t == .b128) = false := by simpa [Instr.wf] using hwf
    have hrm : (sat.toNat * 4 + rm.code) % 4 = rm.code := by omega
    have hsat : ((sat.toNat * 4 + rm.code) / 4 == 1) = sat := by
      rw [show (sat.toNat * 4 + rm.code) / 4 = sat.toNat by omega]; cases sat <;> rfl
    have h8 : sat.toNat * 4 + rm.code < 8 := by omega
    simp [decodeWord, hm, hd, ha, hb, hf, noExt_eq_ok, decFloat, opt, need_eq_ok, htag, hrm, hsat, h8, hwf]
  | qswp d a x | qbrd d a x =>
    have hx : x.toNat < 4 := x.isLt
    refine readsAs_encR (by simp; omega) fun w hm hd ha hb hf => ?_
    simp [decodeWord, *, noExt_eq_ok, decExchange, need_eq_ok]
  | shfl d a b =>
    refine readsAs_encR (by simp; omega) fun w hm hd ha hb hf => ?_
    simp [decodeWord, *, noExt_eq_ok, decExchange, need_eq_ok]
  | vote v k =>
    cases v <;> refine readsAs_encR (by simp; omega) fun w hm hd ha hb hf => ?_ <;>
      simp [decodeWord, *, noExt_eq_ok, decExchange, need_eq_ok] <;> omega
  | gred d a o =>
    have ho := o.code_lt
    refine readsAs_encR ⟨by decide, by omega, by omega, by omega, by decide⟩ fun w hm hd ha hb hf => ?_
    simp [decodeWord, *, noExt_eq_ok, decExchange, opt, need_eq_ok]
  | ld d a h t o | st d a h t o | pfch a h t o =>
    refine readsAs_encM ⟨by decide, by omega, by omega, h.code_lt, t.code_lt, by omega⟩ fun w hm hd ha hh hlo hhi ht ho => ?_
    simp [decodeWord, *, noExt_eq_ok, decMem, opt, need_eq_ok]
  | ldb d a r t o =>
    refine readsAs_encM ⟨by decide, by omega, by omega, by have := r.toNat_lt; omega, t.code_lt, by omega⟩
      fun w hm hd ha hh hlo hhi ht ho => ?_
    simp [decodeWord, *, noExt_eq_ok, decMem, opt, need_eq_ok]
  | amo d a b f | apst a b f =>
    refine readsAs_encR ⟨by decide, by omega, by omega, by omega, f.code_lt⟩ fun w hm hd ha hb hf => ?_
    simp [decodeWord, *, noExt_eq_ok, decAtomic, opt, need_eq_ok]
  | acas d a b | xqry d a | dqry d | xsht d a b | lnch d a =>
    refine readsAs_encR (by simp; omega) fun w hm hd ha hb hf => ?_
    simp [decodeWord, *, noExt_eq_ok, decAtomic, need_eq_ok]
  | dcmd n a | scpg n a =>
    refine readsAs_encR (by simp; omega) fun w hm hd ha hb hf => ?_
    simp [decodeWord, *, noExt_eq_ok, decAtomic, need_eq_ok]
    omega
  | invt v =>
    cases v <;> refine readsAs_encR ⟨by decide, by decide, by omega, by decide, by decide⟩ fun w hm hd ha hb hf => ?_ <;>
      simp [decodeWord, *, noExt_eq_ok, decAtomic, need_eq_ok]
  | phse s | prel s | pacq s =>
    refine readsAs_encR (by simp; omega) fun w hm hd ha hb hf => ?_
    simp [decodeWord, *, noExt_eq_ok, decFence, need_eq_ok]
    omega
  | hrdi d a b | hrda d a b | hrdw a b =>
    refine readsAs_encR (by simp; omega) fun w hm hd ha hb hf => ?_
    simp [decodeWord, *, noExt_eq_ok, decFence, need_eq_ok]
  | waitc l s d t =>
    refine readsAs_encW l.isLt s.isLt d.isLt t.isLt fun w hm hl hs hd ht hz => ?_
    simp [decodeWord, *, noExt_eq_ok, need_eq_ok]
  | movh d k =>
    have hk : k.toNat < 65536 := k.isLt
    refine readsAs_encR_wide (by simp; omega) fun w hm hd _ hk2 hk16 => ?_
    simp [decodeWord, *, noExt_eq_ok, need_eq_ok, Nat.mod_eq_of_lt hk]
  | movi d k x =>
    cases x with
    | none =>
      refine readsAs_encR_wide (by simp; omega) fun w hm hd hk _ _ => ?_
      simp [decodeWord, *, need_eq_ok]
    | some x =>
      obtain ⟨-, hm, hd, hk, -, -⟩ := encR_wide_flds (maj := 0x0C) (by decide) d.isLt k.isLt
      have hx : x.toNat < 2 ^ 14 := x.isLt
      exact readsAs_withExt (by omega) (decodeWord_movi hm hd hk (by simp only [fld]; omega) (by simp only [fld]; omega))
  | waita k a b f t =>
    cases t with
    | none =>
      refine readsAs_encR ⟨by decide, by omega, by omega, by omega, f.code_lt⟩ fun w hm hd ha hb hf => ?_
      simp [decodeWord, *, opt, need_eq_ok]
      omega
    | some x =>
      refine readsAs_encR_ext ⟨by decide, by omega, by omega, by omega, f.code_lt⟩ x.isLt fun w hm hd ha hb hf => ?_
      simp [decodeWord, *, opt, need_eq_ok]
      omega
  | tmma t a b ru e =>
    cases e with
    | none =>
      refine readsAs_encT ⟨by omega, by omega, by omega, ru.toNat_lt, by decide⟩ fun w hm ht ha hb hr hf => ?_
      simp [decodeWord, *, decTile, need_eq_ok]
    | some e =>
      obtain ⟨hx, hext⟩ := tmmaExtOf_code e
      obtain ⟨-, hm, ht, ha, hb, hr, hf⟩ := encT_flds (fn := 0) t.isLt a.isLt b.isLt ru.toNat_lt (by decide)
      exact readsAs_withExt hx (decodeWord_tmma hm ht ha hb hr hf hext hwf)
  | tst t b | tscl t a | tspl t a b | tfch t a b =>
    refine readsAs_encT (by simp; omega) fun w hm ht ha hb hr hf => ?_
    simp [decodeWord, *, decTile, need_eq_ok]
  | tzro t g | tld t g b =>
    refine readsAs_encT ⟨by omega, by have := g.code_lt; omega, by omega, by decide, by decide⟩ fun w hm ht ha hb hr hf => ?_
    simp [decodeWord, *, decTile, opt, need_eq_ok]
  | trdr t a g | twrr t a g =>
    have hg : g.toNat < 48 := by simp [Instr.wf] at hwf; omega
    refine readsAs_encT (by simp; omega) fun w hm ht ha hb hr hf => ?_
    simp [decodeWord, *, decTile, need_eq_ok]
  | tred t a o =>
    refine readsAs_encT ⟨by omega, by omega, by cases o <;> decide, by decide, by decide⟩ fun w hm ht ha hb hr hf => ?_
    have ho : o.code < 4 := by cases o <;> decide
    simp [decodeWord, *, decTile, need_eq_ok]
  | tcvt t a g rm =>
    have hrm := rm.code_lt
    have hg := g.code_lt
    refine readsAs_encT ⟨by omega, by omega, by omega, by decide, by decide⟩ fun w hm ht ha hb hr hf => ?_
    have hq : (g.code * 4 + rm.code) / 4 = g.code := by omega
    have hr4 : (g.code * 4 + rm.code) % 4 = rm.code := by omega
    have h32 : g.code * 4 + rm.code < 32 := by omega
    have ha32 : a.toNat < 32 := a.isLt
    simp [decodeWord, hm, ht, ha, hb, hr, hf, hq, hr4, h32, ha32, decTile, opt, need_eq_ok, hwf]
  | xadd d a b t n | xsub d a b t n | xmul d a b t n | xfma d a b t n | xmin d a b t n | xmax d a b t n | xfil d a t n =>
    have hraw : t ≠ .raw := by rintro rfl; simp [Instr.wf, XOp.accepts] at hwf
    refine readsAs_encX (by simp; omega) fun w x hm hd ha hb hf hz ht hn => ?_
    simp [decodeWord, *, placed, need_eq_ok]
  | _ => cases hw

variable {i : Instr}

/-! ### Decoding, then encoding -/

/-- An instruction that stands for the words `ws`. -/
def Instr.Spells (i : Instr) (ws : List Word) : Prop := encode i = ws ∧ i.wf = true

theorem spells_of_need {c : Bool} {e : Illegal} {j : Instr} {ws : List Word} (h : need c e j = .ok i)
    (hj : c = true → encode j = ws) : i.Spells ws := by
  obtain ⟨hc, hwf, rfl⟩ := need_eq_ok.1 h
  exact ⟨hj hc, hwf⟩

theorem bit_toNat (h : n < 2) : (n == 1).toNat = n := by interval_cases n <;> rfl

theorem decControl_spells (hd : d < 128) (ha : a < 128) (h : decControl d a b fn = .ok i) : i.Spells [encR 0 d a b fn] := by
  unfold decControl at h
  split at h
  case h_11 => cases h
  case h_1 =>
    refine spells_of_need h fun hc => ?_
    simp at hc
    simp [hc]; rfl
  case h_4 =>
    refine spells_of_need h fun hc => ?_
    simp at hc
    change [encR _ _ _ _ _] = _
    obtain rfl | rfl : d = 0 ∨ d = 1 := by omega
    · simp [hc]
    · simp [hc]
  all_goals
    refine spells_of_need h fun hc => ?_
    simp at hc
    change [encR _ _ _ _ _] = _
    simp [Nat.mod_eq_of_lt, hd, ha, hc]

theorem decRejoin_spells (h : decRejoin d a b fn = .ok i) : i.Spells [encR 3 d a b fn] := by
  unfold decRejoin at h
  split at h
  case h_4 => cases h
  all_goals
    refine spells_of_need h fun hc => ?_
    simp at hc
    change [encR _ _ _ _ _] = _
    simp [Nat.mod_eq_of_lt, hc]

theorem decInt_spells (hd : d < 128) (ha : a < 128) (hb : b < 128) (hf : fn < 16) (h : decInt d a b fn = .ok i) :
    i.Spells [encR 4 d a b fn] := by
  unfold decInt at h
  split at h
  case h_16 => 
    obtain rfl : fn = 15 := by interval_cases fn <;> simp_all
    refine spells_of_need h fun hc => ?_
    simp at hc
    change [encR _ _ _ _ _] = _
    simp [Nat.mod_eq_of_lt, hd, ha, hc]
  all_goals
    refine spells_of_need h fun hc => ?_
    simp at hc
    change [encR _ _ _ _ _] = _
    simp [Nat.mod_eq_of_lt, hd, ha, hb, hc]

/-- A register word whose lower bits are an immediate, by its fields. -/
theorem encR_add {v : Nat} : encR maj d a b 0 + BitVec.ofNat 32 v = encR maj d a (b + v / 16) (v % 16) := by
  rw [encR, ← BitVec.ofNat_add, encR]
  exact congrArg (BitVec.ofNat 32) (by omega)

theorem decIntImm_spells {v : Nat} (hd : d < 128) (ha : a < 128) (hm : maj = 6 ∨ maj = 7)
    (h : decIntImm maj d a v = .ok i) : i.Spells [encR maj d a (v / 16) (v % 16)] := by
  unfold decIntImm at h
  obtain rfl | rfl := hm
  · simp only [beq_self_eq_true, if_true] at h
    split at h
    case h_4 => cases h
    all_goals
      refine spells_of_need h fun hc => ?_
      simp at hc
      change [encR _ _ _ _ _ + BitVec.ofNat 32 _] = _
      rw [encR_add]
      simp [Nat.mod_eq_of_lt, hd, ha]
      congr 1
      all_goals omega
  · simp at h
    split at h
    case h_4 => cases h
    all_goals
      refine spells_of_need h fun _ => ?_
      change [encR _ _ _ _ _ + BitVec.ofNat 32 _] = _
      rw [encR_add]
      simp [Nat.mod_eq_of_lt, hd, ha]
      congr 1
      all_goals omega

theorem decMove_spells (hd : d < 128) (ha : a < 128) (hb : b < 128) (hf : fn < 16) (hm : maj ∈ [8, 9, 10, 11])
    (h : decMove maj d a b fn = .ok i) : i.Spells [encR maj d a b fn] := by
  unfold decMove at h
  fin_cases hm <;> simp only at h
  · split at h
    · refine spells_of_need h fun hc => ?_
      change [encR _ _ _ _ _] = _
      simp_all [Nat.mod_eq_of_lt]
    · cases h
  · split at h
    case h_4 =>
      split at h
      · cases h
      · refine spells_of_need h fun _ => ?_
        change [encR _ _ _ _ _] = _
        simp [Nat.mod_eq_of_lt, hd, ha, hb]
        congr 1; omega
    all_goals
      refine spells_of_need h fun _ => ?_
      change [encR _ _ _ _ _] = _
      simp [Nat.mod_eq_of_lt, hd, ha, hb]
  · obtain ⟨f, hcond, h⟩ := opt_eq_ok.1 h
    refine spells_of_need h fun hc => ?_
    simp at hc
    change [encR _ _ _ _ _] = _
    simp [Nat.mod_eq_of_lt, hc, ha, hb, code_of_condOf hcond]
  · split at h
    · split at h
      · obtain ⟨z, hz, h⟩ := opt_eq_ok.1 h
        refine spells_of_need h fun hc => ?_
        change [encR _ _ _ _ _] = _
        simp [Nat.mod_eq_of_lt, hd, ha, code_of_movSizeOf hz]
      · cases h
    · split at h
      · obtain ⟨t, ht, h⟩ := opt_eq_ok.1 h
        refine spells_of_need h fun hc => ?_
        change [encR _ _ _ _ _] = _
        simp [Nat.mod_eq_of_lt, hd, ha, code_of_tagOf ht]
      · cases h
    · obtain ⟨r, hr, h⟩ := opt_eq_ok.1 h
      refine spells_of_need h fun hc => ?_
      change [encR _ _ (SysReg.code r / 128) (SysReg.code r % 128) _] = _
      simp [Nat.mod_eq_of_lt, hd, code_of_sysRegOf hr, hb]
      congr 1; omega
    · obtain ⟨r, hr, h⟩ := opt_eq_ok.1 h
      refine spells_of_need h fun hc => ?_
      change [encR _ _ (SysReg.code r / 128) (SysReg.code r % 128) _] = _
      simp [Nat.mod_eq_of_lt, hd, code_of_sysRegOf hr, hb]
      congr 1; omega
    · refine spells_of_need h fun hc => ?_
      simp at hc
      change [encR _ _ _ _ _] = _
      simp [Nat.mod_eq_of_lt, hd, hc]
    · cases h

theorem decFloat_spells (hd : d < 128) (ha : a < 128) (hb : b < 128) (hf : fn < 16) (hm : maj ∈ [0x10, 0x11, 0x12, 0x13, 0x14, 0x15])
    (h : decFloat maj d a b fn = .ok i) : i.Spells [encR maj d a b fn] := by
  unfold decFloat at h
  fin_cases hm <;> simp only at h
  · split at h
    case h_9 => cases h
    all_goals
      refine spells_of_need h fun hc => ?_
      simp at hc
      change [encR _ _ _ _ _] = _
      simp [Nat.mod_eq_of_lt, hd, ha, hb, hc]
  · split at h
    · refine spells_of_need h fun hc => ?_
      change [encR _ _ _ _ _] = _
      simp_all [Nat.mod_eq_of_lt]
    · cases h
  · split at h
    case h_8 => cases h
    all_goals
      refine spells_of_need h fun hc => ?_
      simp at hc
      change [encR _ _ _ _ _] = _
      simp [Nat.mod_eq_of_lt, hd, ha, hc]
  · obtain ⟨f, hcond, h⟩ := opt_eq_ok.1 h
    refine spells_of_need h fun hc => ?_
    simp at hc
    change [encR _ _ _ _ _] = _
    simp [Nat.mod_eq_of_lt, hc, ha, hb, code_of_fcondOf hcond]
  · obtain ⟨t, ht, h⟩ := opt_eq_ok.1 h
    split at h
    · cases h
    · refine spells_of_need h fun hc => ?_
      simp at hc
      change [encR _ _ _ (Bool.toNat (b / 4 == 1) * 4 + (rmOf (b % 4)).code) _] = _
      have hsat : (b / 4 == 1).toNat = b / 4 := bit_toNat (by omega)
      simp [Nat.mod_eq_of_lt, hd, ha, code_of_tagOf ht, code_rmOf (Nat.mod_lt b (by decide : 0 < 4)), hsat, Nat.div_add_mod']
  · split at h
    case h_3 => cases h
    all_goals
      refine spells_of_need h fun hc => ?_
      simp at hc
      change [encR _ _ _ _ _] = _
      simp [Nat.mod_eq_of_lt, hd, ha, hb, hc]

theorem decExchange_spells (hd : d < 128) (ha : a < 128) (hb : b < 128) (h : decExchange d a b fn = .ok i) :
    i.Spells [encR 0x18 d a b fn] := by
  unfold decExchange at h
  split at h
  case h_4 =>
    split at h
    case h_5 => cases h
    all_goals
      refine spells_of_need h fun hc => ?_
      simp at hc
      change [encR _ _ _ _ _] = _
      simp [Nat.mod_eq_of_lt, hd, hc]
  case h_5 =>
    split at h
    · obtain ⟨o, ho, h⟩ := opt_eq_ok.1 h
      refine spells_of_need h fun hc => ?_
      change [encR _ _ _ _ _] = _
      simp [Nat.mod_eq_of_lt, hd, ha, code_of_redOf ho]
    · cases h
  case h_6 => cases h
  all_goals
    refine spells_of_need h fun hc => ?_
    simp at hc
    change [encR _ _ _ _ _] = _
    simp [Nat.mod_eq_of_lt, hd, ha, hb, hc]


/-! ### A word from its fields -/

section
variable {w : Nat}

theorem ofNat_flds_R : encR (fld w 25 6) (fld w 18 7) (fld w 11 7) (fld w 4 7) (fld w 0 4) = BitVec.ofNat 32 (w % 2 ^ 31) := by
  simp only [encR, fld, Nat.reducePow]
  exact congrArg (BitVec.ofNat 32) (by omega)

theorem ofNat_flds_imm : encR (fld w 25 6) (fld w 18 7) (fld w 11 7) 0 0 + BitVec.ofNat 32 (fld w 0 11) = BitVec.ofNat 32 (w % 2 ^ 31) := by
  rw [encR, ← BitVec.ofNat_add]
  simp only [fld, Nat.reducePow]
  exact congrArg (BitVec.ofNat 32) (by omega)

theorem ofNat_flds_wide : encR (fld w 25 6) (fld w 18 7) 0 0 0 + BitVec.ofNat 32 (fld w 0 18) = BitVec.ofNat 32 (w % 2 ^ 31) := by
  rw [encR, ← BitVec.ofNat_add]
  simp only [fld, Nat.reducePow]
  exact congrArg (BitVec.ofNat 32) (by omega)

theorem ofNat_flds_M : encM (fld w 25 6) (fld w 18 7) (fld w 11 7) (fld w 9 2) (fld w 5 4) (fld w 0 5) = BitVec.ofNat 32 (w % 2 ^ 31) := by
  simp only [encM, fld, Nat.reducePow]
  exact congrArg (BitVec.ofNat 32) (by omega)

theorem ofNat_flds_B : encB (fld w 25 6) (fld w 23 2) (fld w 20 3) (fld w 19 1) (fld w 0 19) = BitVec.ofNat 32 (w % 2 ^ 31) := by
  simp only [encB, fld, Nat.reducePow]
  exact congrArg (BitVec.ofNat 32) (by omega)

theorem ofNat_flds_T (hm : fld w 25 6 = 0x30) :
    encT (fld w 20 5) (fld w 13 7) (fld w 6 7) (fld w 5 1) (fld w 0 5) = BitVec.ofNat 32 (w % 2 ^ 31) := by
  simp only [encT, fld, Nat.reducePow] at hm ⊢
  exact congrArg (BitVec.ofNat 32) (by omega)

theorem ofNat_flds_W (hm : fld w 25 6 = 0x2D) (hz : fld w 0 1 = 0) :
    BitVec.ofNat 32 (0x2D * 2 ^ 25 + fld w 19 6 * 2 ^ 19 + fld w 13 6 * 2 ^ 13 + fld w 7 6 * 2 ^ 7 + fld w 1 6 * 2) =
      BitVec.ofNat 32 (w % 2 ^ 31) := by
  simp only [fld, Nat.reducePow, Nat.reduceMul] at hm hz ⊢
  exact congrArg (BitVec.ofNat 32) (by omega)

theorem fld_lt (lo n : Nat) : fld w lo n < 2 ^ n := Nat.mod_lt _ (by positivity)
end

theorem decMem_spells {w : Nat} (hm : fld w 25 6 ∈ [0x20, 0x21, 0x22, 0x23]) (h : decMem (fld w 25 6) w = .ok i) :
    i.Spells [BitVec.ofNat 32 (w % 2 ^ 31)] := by
  have hd : fld w 18 7 < 128 := fld_lt 18 7
  have ha : fld w 11 7 < 128 := fld_lt 11 7
  have hh : fld w 9 2 < 4 := fld_lt 9 2
  have ho : fld w 0 5 < 32 := fld_lt 0 5
  rw [← ofNat_flds_M]
  unfold decMem at h
  obtain ⟨t, ht, h⟩ := opt_eq_ok.1 h
  generalize fld w 25 6 = maj at hm h ⊢
  fin_cases hm <;> simp only at h <;> refine spells_of_need h fun hc => ?_
  · change [encM _ _ _ (CHint.code _) (Tag.code _) _] = _
    simp [Nat.mod_eq_of_lt, hd, ha, ho, code_of_tagOf ht, code_cHintOf hh]
  · change [encM _ _ _ (CHint.code _) (Tag.code _) _] = _
    simp [Nat.mod_eq_of_lt, hd, ha, ho, code_of_tagOf ht, code_cHintOf hh]
  · have hr : (fld w 10 1 == 1).toNat * 2 = fld w 9 2 := by
      rw [bit_toNat (fld_lt 10 1)]
      simp only [beq_iff_eq, fld, Nat.reducePow] at hc ⊢
      omega
    change [encM _ _ _ ((fld w 10 1 == 1).toNat * 2) (Tag.code _) _] = _
    simp [Nat.mod_eq_of_lt, hd, ha, ho, code_of_tagOf ht, hr]
  · simp at hc
    change [encM _ _ _ (CHint.code _) (Tag.code _) _] = _
    simp [Nat.mod_eq_of_lt, hc, ha, ho, code_of_tagOf ht, code_cHintOf hh]

theorem decAtomic_spells (hd : d < 128) (ha : a < 128) (hb : b < 128) (hf : fn < 16)
    (hm : maj ∈ [0x24, 0x25, 0x26, 0x29, 0x34, 0x38]) (h : decAtomic maj d a b fn = .ok i) : i.Spells [encR maj d a b fn] := by
  unfold decAtomic at h
  fin_cases hm <;> simp only at h
  · obtain ⟨f, hf, h⟩ := opt_eq_ok.1 h
    refine spells_of_need h fun hc => ?_
    change [encR _ _ _ _ _] = _
    simp [Nat.mod_eq_of_lt, hd, ha, hb, code_of_amoOf hf]
  · split at h
    · refine spells_of_need h fun hc => ?_
      change [encR _ _ _ _ _] = _
      simp_all [Nat.mod_eq_of_lt]
    · cases h
  · obtain ⟨f, hf, h⟩ := opt_eq_ok.1 h
    refine spells_of_need h fun hc => ?_
    simp at hc
    change [encR _ _ _ _ _] = _
    simp [Nat.mod_eq_of_lt, hc, ha, hb, code_of_amoOf hf]
  · split at h
    · refine spells_of_need h fun hc => ?_
      change [encR _ _ _ _ _] = _
      simp_all [Nat.mod_eq_of_lt]
    · cases h
  · split at h
    case h_3 => cases h
    all_goals
      refine spells_of_need h fun hc => ?_
      simp at hc
      change [encR _ _ _ _ _] = _
      simp [Nat.mod_eq_of_lt, hd, ha, hc]
  · split at h
    case h_3 =>
      split at h
      case h_4 => cases h
      all_goals
        refine spells_of_need h fun hc => ?_
        simp at hc
        change [encR _ _ _ _ _] = _
        simp [Nat.mod_eq_of_lt, ha, hc]
    case h_5 => cases h
    all_goals
      refine spells_of_need h fun hc => ?_
      simp at hc
      change [encR _ _ _ _ _] = _
      simp [Nat.mod_eq_of_lt, hd, ha, hb, hc]

theorem decFence_spells (hd : d < 128) (ha : a < 128) (hb : b < 128) (h : decFence d a b fn = .ok i) :
    i.Spells [encR 0x2C d a b fn] := by
  unfold decFence at h
  split at h
  case h_7 => cases h
  all_goals
    refine spells_of_need h fun hc => ?_
    simp at hc
    change [encR _ _ _ _ _] = _
    simp [Nat.mod_eq_of_lt, hd, ha, hb, hc]

theorem decTile_spells (ht : t < 32) (ha : a < 128) (hb : b < 128) (hr : ru < 2)
    (h : decTile t a b ru fn none = .ok i) : i.Spells [encT t a b ru fn] := by
  unfold decTile at h
  split at h
  case h_1 =>
    refine spells_of_need h fun _ => ?_
    change [encT _ _ _ (Bool.toNat (ru == 1)) _] = _
    simp [Nat.mod_eq_of_lt, ht, ha, hb, bit_toNat hr]
  case h_2 =>
    obtain ⟨g, hg, h⟩ := opt_eq_ok.1 h
    refine spells_of_need h fun hc => ?_
    simp at hc
    change [encT _ (TileTag.code g) _ _ _] = _
    simp [Nat.mod_eq_of_lt, ht, code_of_tileTagOf hg, hc]
  case h_3 =>
    obtain ⟨g, hg, h⟩ := opt_eq_ok.1 h
    refine spells_of_need h fun hc => ?_
    simp at hc
    change [encT _ (TileTag.code g) _ _ _] = _
    simp [Nat.mod_eq_of_lt, ht, hb, code_of_tileTagOf hg, hc]
  case h_5 =>
    split at h
    · obtain ⟨g, hg, h⟩ := opt_eq_ok.1 h
      refine spells_of_need h fun hc => ?_
      simp at hc
      change [encT _ _ (TileTag.code g * 4 + (rmOf (b % 4)).code) _ _] = _
      simp [Nat.mod_eq_of_lt, ht, hc, code_of_tileTagOf hg, code_rmOf (Nat.mod_lt b (by decide : 0 < 4)), Nat.div_add_mod']
    · cases h
  case h_9 =>
    refine spells_of_need h fun hc => ?_
    simp at hc
    change [encT _ _ (TRedOp.code _) _ _] = _
    simp [Nat.mod_eq_of_lt, ht, ha, hc, code_tredOf]
  case h_12 => cases h
  case h_6 =>
    refine spells_of_need h fun hc => ?_
    simp at hc
    change [encT _ _ _ _ _] = _
    simp [Nat.mod_eq_of_lt, ht, ha, hc, (by omega : b < 64)]
  case h_7 =>
    refine spells_of_need h fun hc => ?_
    simp at hc
    change [encT _ _ _ _ _] = _
    simp [Nat.mod_eq_of_lt, ht, ha, hc, (by omega : b < 64)]
  all_goals
    refine spells_of_need h fun hc => ?_
    simp at hc
    change [encT _ _ _ _ _] = _
    simp [Nat.mod_eq_of_lt, ht, ha, hb, hc]

theorem toNat_ofNat_fld (w lo n : Nat) : (BitVec.ofNat n (fld w lo n)).toNat = fld w lo n := by
  rw [BitVec.toNat_ofNat, Nat.mod_eq_of_lt (fld_lt lo n)]

/-- A word without an extension that decodes is the encoding of what it decodes to. -/
theorem decodeWord_spells {w : Nat} (h : decodeWord w none = .ok i) : i.Spells [BitVec.ofNat 32 (w % 2 ^ 31)] := by
  have hd : fld w 18 7 < 128 := fld_lt 18 7
  have ha : fld w 11 7 < 128 := fld_lt 11 7
  have hb : fld w 4 7 < 128 := fld_lt 4 7
  have hf : fld w 0 4 < 16 := fld_lt 0 4
  have hq : fld w 0 11 / 16 = fld w 4 7 := by simp only [fld, Nat.reducePow]; omega
  have hr : fld w 0 11 % 16 = fld w 0 4 := by simp only [fld, Nat.reducePow]; omega
  have hR := ofNat_flds_R (w := w)
  simp only [decodeWord, noExt] at h
  split at h
  case h_1 hm => rw [← hR, hm]; exact decControl_spells hd ha h
  case h_2 hm | h_3 hm =>
    rw [← ofNat_flds_B, hm]
    refine spells_of_need h fun _ => ?_
    change [encB _ (BrHint.code _) (BitVec.toNat _) (Bool.toNat _) (BitVec.toNat _)] = _
    simp only [code_brHintOf (fld_lt 23 2), bit_toNat (fld_lt 19 1), toNat_ofNat_fld]
  case h_4 hm => rw [← hR, hm]; exact decRejoin_spells h
  case h_5 hm => rw [← hR, hm]; exact decInt_spells hd ha hb hf h
  case h_6 hm =>
    rw [← ofNat_flds_imm, hm]
    refine spells_of_need h fun _ => ?_
    change [encR _ (BitVec.toNat _) (BitVec.toNat _) _ _ + BitVec.ofNat 32 (BitVec.toNat _)] = _
    simp only [toNat_ofNat_fld]
  case h_7 hm => rw [← hR, hm, ← hq, ← hr]; exact decIntImm_spells hd ha (.inl rfl) h
  case h_8 hm => rw [← hR, hm, ← hq, ← hr]; exact decIntImm_spells hd ha (.inr rfl) h
  case h_9 hm | h_10 hm | h_11 hm | h_12 hm => rw [← hR, hm]; exact decMove_spells hd ha hb hf (by decide) h
  case h_13 hm =>
    rw [← ofNat_flds_wide, hm]
    refine spells_of_need h fun _ => ?_
    change [encR _ (BitVec.toNat _) _ _ _ + BitVec.ofNat 32 (BitVec.toNat _)] = _
    simp only [toNat_ofNat_fld]
  case h_14 hm =>
    have h16 : fld w 16 2 = 0 → fld w 0 18 = fld w 0 16 := by simp only [fld, Nat.reducePow]; omega
    rw [← ofNat_flds_wide, hm]
    refine spells_of_need h fun hc => ?_
    change [encR _ (BitVec.toNat _) _ _ _ + BitVec.ofNat 32 (BitVec.toNat _)] = _
    simp only [toNat_ofNat_fld, h16 (beq_iff_eq.1 hc)]
  case h_15 hm | h_16 hm | h_17 hm | h_18 hm | h_19 hm | h_20 hm =>
    rw [← hR, hm]; exact decFloat_spells hd ha hb hf (by decide) h
  case h_21 hm => rw [← hR, hm]; exact decExchange_spells hd ha hb h
  case h_22 hm | h_23 hm | h_24 hm | h_25 hm => rw [← hm] at h; exact decMem_spells (by rw [hm]; decide) h
  case h_26 hm | h_27 hm | h_28 hm | h_30 hm | h_35 hm | h_36 hm => rw [← hR, hm]; exact decAtomic_spells hd ha hb hf (by decide) h
  case h_29 hm => split at h <;> cases h
  case h_31 hm => rw [← hR, hm]; exact decFence_spells hd ha hb h
  case h_32 hm =>
    refine spells_of_need h fun hc => ?_
    rw [← ofNat_flds_W hm (beq_iff_eq.1 hc)]
    change [BitVec.ofNat 32 (_ + BitVec.toNat _ * _ + BitVec.toNat _ * _ + BitVec.toNat _ * _ + BitVec.toNat _ * _)] = _
    simp only [toNat_ofNat_fld]
  case h_33 hm =>
    obtain ⟨f, hcond, h⟩ := opt_eq_ok.1 h
    rw [← hR, hm]
    refine spells_of_need h fun hc => ?_
    simp at hc
    change [encR _ _ _ _ _] = _
    simp [Nat.mod_eq_of_lt, hc, ha, hb, code_of_condOf hcond]
  case h_34 hm => rw [← ofNat_flds_T hm]; exact decTile_spells (fld_lt 20 5) (fld_lt 13 7) (fld_lt 6 7) (fld_lt 5 1) h
  case h_37 => cases h

/-- The extension of TMMA, from its fields. -/
theorem code_of_tmmaExtOf {x : Nat} {e : TmmaExt} (hx : x < 2 ^ 25) (h : tmmaExtOf x = some e) :
    e.diag.toNat * 2 ^ 7 + e.fill.code * 2 ^ 5 + e.tri.toNat * 2 ^ 4 + bfmtCode e.bfmt = x := by
  unfold tmmaExtOf at h
  split at h
  next hz =>
    split at h
    next f g hf hg =>
      cases h
      simp only [toNat_ofNat_fld, code_of_fillOf hf, code_of_bfmtOf hg, bit_toNat (fld_lt 4 1)]
      simp only [beq_iff_eq, fld, Nat.reducePow] at hx hz ⊢
      omega
    next => cases h
  next => cases h

/-- A placed word whose extension is in order. -/
theorem placed_spells {w x : Nat} {zero : Bool} {mk : Tag → Reg → Instr} (hx : x < 2 ^ 25) (hm : fld w 25 6 = 0x28)
    (h : placed (some x) zero mk = .ok i)
    (hmk : zero = true → ∀ t n, encode (mk t n) = encX (fld w 0 4) (fld w 18 7) (fld w 11 7) (fld w 4 7) t n) :
    i.Spells (withExt (BitVec.ofNat 32 (w % 2 ^ 31)) x) := by
  simp only [placed] at h
  split at h
  next hz =>
    split at h
    next t ht =>
      split at h
      · cases h
      refine spells_of_need h fun hc => ?_
      have hp : t.code * 2 ^ 7 + (BitVec.ofNat 7 (fld x 0 7)).toNat = x := by
        rw [toNat_ofNat_fld, code_of_tagOf ht]
        simp only [beq_iff_eq, fld, Nat.reducePow] at hx hz ⊢
        omega
      rw [hmk hc, encX, hp, ← ofNat_flds_R, hm]
    next => cases h
  next => cases h

/-- A word with its extension that decodes is the encoding of what it decodes to. -/
theorem decodeWord_ext_spells {w x : Nat} (hx : x < 2 ^ 25) (h : decodeWord w (some x) = .ok i) :
    i.Spells (withExt (BitVec.ofNat 32 (w % 2 ^ 31)) x) := by
  have hd : fld w 18 7 < 128 := fld_lt 18 7
  have ha : fld w 11 7 < 128 := fld_lt 11 7
  have hb : fld w 4 7 < 128 := fld_lt 4 7
  have hno : ∀ r, noExt (some x) r ≠ .ok i := fun r hr => by simp [noExt_eq_ok] at hr
  simp only [decodeWord] at h
  split at h
  case h_13 hm =>
    split at h
    next hz =>
      have hx14 : (BitVec.ofNat 14 (fld x 0 14)).toNat = x := by
        rw [toNat_ofNat_fld]
        simp only [beq_iff_eq, fld, Nat.reducePow] at hx hz ⊢
        omega
      rw [← ofNat_flds_wide, hm]
      refine spells_of_need h fun _ => ?_
      change withExt (encR _ (BitVec.toNat _) _ _ _ + BitVec.ofNat 32 (BitVec.toNat _)) (BitVec.toNat _) = _
      rw [hx14]
      simp only [toNat_ofNat_fld]
    next => cases h
  case h_29 hm =>
    split at h
    case h_8 => cases h
    all_goals
      rename_i hfn
      refine placed_spells hx hm h fun hz t n => ?_
      change encX _ (BitVec.toNat _) (BitVec.toNat _) _ _ _ = _
      simp_all only [toNat_ofNat_fld, beq_iff_eq]
  case h_33 hm => 
    obtain ⟨f, hcond, h⟩ := opt_eq_ok.1 h
    rw [← ofNat_flds_R, hm]
    refine spells_of_need h fun hc => ?_
    simp at hc
    change withExt (encR _ _ _ _ (Cond.code _)) (BitVec.toNat _) = _
    simp [Nat.mod_eq_of_lt, hc, ha, hb, code_of_condOf hcond, (by omega : x % 33554432 = x)]
  case h_34 hm =>
    split at h
    next hf =>
      split at h
      next e he =>
        rw [← ofNat_flds_T hm, beq_iff_eq.1 hf]
        rw [beq_iff_eq.1 hf] at h
        refine spells_of_need h fun _ => ?_
        change withExt (encT (BitVec.toNat _) (BitVec.toNat _) (BitVec.toNat _) (Bool.toNat _) _) _ = _
        simp only [toNat_ofNat_fld, bit_toNat (fld_lt 5 1), code_of_tmmaExtOf hx he]
      next => cases h
    next => exact absurd h (hno _)
  case h_37 => cases h
  all_goals exact absurd h (hno _)

end

/-! ### The round trip -/

theorem length_encode (hw : i.isEvent = false) : (encode i).length = i.size := by
  cases i with
  | movi _ _ x => cases x <;> rfl
  | waita _ _ _ _ x => cases x <;> rfl
  | tmma _ _ _ _ x => cases x <;> rfl
  | vote v _ => cases v <;> rfl
  | invt v => cases v <;> rfl
  | _ => first | rfl | cases hw

/-- A word with C clear, and one with it set, from the bits below it. -/
theorem ofNat_mod_of_clear {w : Word} (h : w.getLsbD 31 = false) : BitVec.ofNat 32 (w.toNat % 2 ^ 31) = w := by
  have h0 := fld_chain_eq_zero.2 h
  refine BitVec.eq_of_toNat_eq ?_
  simp only [fld, BitVec.toNat_ofNat, Nat.reducePow] at h0 ⊢
  omega

theorem ofNat_mod_setC {w : Word} (h : w.getLsbD 31 = true) : BitVec.ofNat 32 (w.toNat % 2 ^ 31) ||| 0x80000000#32 = w := by
  have h1 : fld w.toNat 31 1 = 1 := by rwa [getLsbD_chain, beq_iff_eq] at h
  have hlt : w.toNat % 2 ^ 31 < 2 ^ 31 := Nat.mod_lt _ (by decide)
  refine BitVec.eq_of_toNat_eq ?_
  rw [BitVec.toNat_or, BitVec.toNat_ofNat, Nat.mod_eq_of_lt (hlt.trans (by decide)), Nat.or_comm,
    show (0x80000000#32).toNat = 2 ^ 31 * 1 from rfl, ← Nat.two_pow_add_eq_or_of_lt hlt]
  simp only [fld, Nat.reducePow] at h1 ⊢
  omega

theorem ext_of_flds {x : Word} (hc : x.getLsbD 31 = false) (hx : isExt x.toNat = true) :
    BitVec.ofNat 32 (0x3F * 2 ^ 25 + fld x.toNat 0 25) = x := by
  have h0 := fld_chain_eq_zero.2 hc
  refine BitVec.eq_of_toNat_eq ?_
  simp only [isExt, beq_iff_eq, fld, BitVec.toNat_ofNat, Nat.reducePow, Nat.reduceMul] at h0 hx ⊢
  omega

/-- Settles O58: decoding undoes encoding form by form (`readsAs_encode`), and every branch of the decoder answers an instruction
that spells the word it read (`decodeWord_spells`, `decodeWord_ext_spells`). -/
theorem roundTrip : Obligations.RoundTrip := by
  unfold Obligations.RoundTrip
  refine ⟨fun i hwf hw => ?_, fun w i hw h => ?_, fun w x i hx h => ?_⟩
  · have hread := readsAs_encode hwf hw
    rwa [ReadsAs, length_encode hw] at hread
  · have hspell := decodeWord_spells ((decodeChain_one hw).1 h)
    rwa [ofNat_mod_of_clear hw] at hspell
  · obtain ⟨hw, hext, hdec⟩ := (decodeChain_two hx).1 h
    have hspell := decodeWord_ext_spells (fld_lt 0 25) hdec
    rwa [withExt, ofNat_mod_setC hw, ext_of_flds hx hext] at hspell

end Sys2Proof
end

section
/-! SUPPORT. What the firmware and the management interface hold (20 R285-R288): which events change the fuses, the security state or the
debug state, and that no step clears a fuse or reaches a refused combination. -/

namespace Sys2Proof.Machine

/-! ### The fuses -/

theorem getLsbD_or_of_getLsbD {n : Nat} {v w : BitVec n} {i : Nat} (h : v.getLsbD i = true) : (v ||| w).getLsbD i = true := by
  simp [h]

theorem Fuses.within_refl (f : Fuses) : f.within f := ⟨fun _ h => h, fun _ h => h, id, fun _ h => h, fun _ h => h, fun _ h => h⟩

theorem Fuses.within_trans {a b c : Fuses} (hab : a.within b) (hbc : b.within c) : a.within c := by
  obtain ⟨r, o, l, f, v, i⟩ := hab
  obtain ⟨r', o', l', f', v', i'⟩ := hbc
  exact ⟨fun j h => r' j (r j h), fun j h => o' j (o j h), fun h => l' (l h), fun j h => f' j (f j h), fun j h => v' j (v j h),
    fun j h => i' j (i j h)⟩

/-- Blowing a fuse clears none. -/
theorem Fuses.within_blow (f : Fuses) (x : Fuse) : f.within (f.blow x) := by
  cases x <;>
    exact ⟨fun _ h => by simp [Fuses.blow, Machine.blow, h], fun _ h => by simp [Fuses.blow, Machine.blow, h],
      fun h => by simp [Fuses.blow, h], fun _ h => by simp [Fuses.blow, Machine.blow, h],
      fun _ h => by simp [Fuses.blow, Machine.blow, h], fun _ h => by simp [Fuses.blow, Machine.blow, h]⟩

theorem Fuses.within_raiseCosvn (f : Fuses) (n : Nat) : f.within (f.raiseCosvn n) := by
  unfold Fuses.raiseCosvn
  generalize List.range 128 = l
  induction l generalizing f with
  | nil => exact f.within_refl
  | cons i l ih =>
    refine Fuses.within_trans ?_ (ih _)
    dsimp only
    split
    · exact ⟨fun _ h => h, fun _ h => h, id, fun _ h => h, fun _ h => getLsbD_or_of_getLsbD h, fun _ h => h⟩
    · exact f.within_refl

/-! ### What most steps leave alone -/

/-- The fuses, the security state and the debug state stand. -/
def Sys.SameLocks (y z : Sys) : Prop := z.fuses = y.fuses ∧ z.security = y.security ∧ z.debug = y.debug

theorem Sys.SameLocks.refl (y : Sys) : y.SameLocks y := ⟨rfl, rfl, rfl⟩

theorem Sys.SameLocks.trans {x y z : Sys} (hxy : x.SameLocks y) (hyz : y.SameLocks z) : x.SameLocks z :=
  ⟨hyz.1.trans hxy.1, hyz.2.1.trans hxy.2.1, hyz.2.2.trans hxy.2.2⟩

variable {s t : State}

theorem sameLocks_of_sys_eq (h : t.sys = s.sys) : s.sys.SameLocks t.sys := h ▸ .refl _

theorem onMach_sys {f : Mach → Mach} (h : onMach f s = .next t) : t.sys = s.sys := by cases h; rfl

theorem sameLocks_of_mach {i : Instr} (hi : ∃ m, exec i s = .next { s with m := m }) (h : exec i s = .next t) :
    s.sys.SameLocks t.sys := by
  obtain ⟨m, hm⟩ := hi
  rw [hm] at h; cases h; exact .refl _

theorem State.wake_sameLocks (s : State) : s.sys.SameLocks s.wake.sys := ⟨rfl, rfl, rfl⟩

theorem State.endRequest_sameLocks (s : State) (ans : Nat) (m : Mach) (p : PowerState) : s.sys.SameLocks (s.endRequest ans m p).sys :=
  ⟨rfl, rfl, rfl⟩

theorem State.enterPower_sameLocks (s : State) (st : PowerState) (dies : List Nat) : s.sys.SameLocks (s.enterPower st dies).sys := by
  have hs : s.sys.SameLocks (if s.sys.power == .pkgSleep && st != .pkgSleep then s.wake else s).sys := by
    split_ifs
    · exact s.wake_sameLocks
    · exact .refl _
  unfold State.enterPower
  generalize (if s.sys.power == .pkgSleep && st != .pkgSleep then s.wake else s) = s1 at hs
  cases st with
  | run => exact hs.trans (s1.wake_sameLocks.trans (State.endRequest_sameLocks _ _ _ _))
  | idle => exact hs.trans (State.endRequest_sameLocks _ _ _ _)
  | dieOff => exact hs.trans (State.endRequest_sameLocks _ _ _ _)
  | pkgSleep => exact hs.trans (State.endRequest_sameLocks _ _ _ _)

theorem State.settleRequest_sameLocks (s : State) (r : PowerReq) : s.sys.SameLocks (s.settleRequest r).sys := by
  unfold State.settleRequest
  split_ifs
  · exact s.endRequest_sameLocks _ _ _
  · exact s.enterPower_sameLocks _ _
  · exact .refl _

theorem State.startExpired_sameLocks (s : State) : s.sys.SameLocks s.startExpired.sys := by
  unfold State.startExpired
  split
  · exact .refl _
  · split_ifs
    · exact .refl _
    · exact ⟨rfl, rfl, rfl⟩

/-- A call is answered as its rule says, or by nothing. -/
theorem call_next {k : State → Host.Outcome State Fault Refusal} (h : call k s = .next t) : k s = .next t ∨ t = s := by
  unfold call at h
  split_ifs at h
  · exact .inr (by cases h; rfl)
  · exact .inl h

theorem managed_next {k : State → Host.Outcome State Fault Refusal} (h : managed k s = .next t) :
    ∃ s' : State, s.sys.SameLocks s'.sys ∧ k s' = .next t := by
  unfold managed at h
  split_ifs at h
  · exact ⟨_, s.wake_sameLocks, h⟩
  · exact ⟨_, .refl _, h⟩

/-- The events that change a fuse, the security state or the debug state. -/
def unlocks : Instr → Bool
  | .advsvn _ | .fuseBlow _ | .enterAttested _ | .debugStateSet _ | .powerOn _ | .coolantPowerRemoval => true
  | _ => false

theorem reply_sameLocks {n : Nat} (h : reply n s = .next t) : s.sys.SameLocks t.sys := by cases h; exact ⟨rfl, rfl, rfl⟩

theorem submitCall_sameLocks {pa : Nat} (h : submitCall pa s = .next t) : s.sys.SameLocks t.sys := by
  unfold submitCall at h
  split at h
  · cases h; exact ⟨rfl, rfl, rfl⟩
  · split_ifs at h <;> cases h <;> exact ⟨rfl, rfl, rfl⟩

theorem loadobj_sameLocks {pa ctx cb db : Nat} (h : loadobj pa ctx cb db s = .next t) : s.sys.SameLocks t.sys := by
  unfold loadobj at h
  split at h
  · cases h; exact ⟨rfl, rfl, rfl⟩
  · dsimp only at h
    split_ifs at h
    · cases h; exact ⟨rfl, rfl, rfl⟩
    · split at h <;> cases h <;> exact ⟨rfl, rfl, rfl⟩

theorem unloadobj_sameLocks {obj ctx : Nat} (h : unloadobj obj ctx s = .next t) : s.sys.SameLocks t.sys := by
  unfold unloadobj at h
  split_ifs at h <;> cases h <;> exact ⟨rfl, rfl, rfl⟩

theorem svcon_sameLocks {entry : Nat} {arg : DWord} (h : svcon entry arg s = .next t) : s.sys.SameLocks t.sys := by
  unfold svcon at h
  split at h
  · exact reply_sameLocks h
  · split_ifs at h
    · exact reply_sameLocks h
    · cases h; exact ⟨rfl, rfl, rfl⟩

theorem changeDesc_sameLocks {d : CtxDesc} (h : changeDesc d s = .next t) : s.sys.SameLocks t.sys := by
  unfold changeDesc at h
  split at h
  · exact reply_sameLocks h
  · split at h
    · cases h; exact ⟨rfl, rfl, rfl⟩
    · dsimp only at h
      split_ifs at h
      · cases h; exact ⟨rfl, rfl, rfl⟩
      · exact reply_sameLocks h
      · cases h; exact ⟨rfl, rfl, rfl⟩

theorem enrolKey_sameLocks {key : PubKey} {o : Bool} (h : enrolKey key o s = .next t) : s.sys.SameLocks t.sys := by
  unfold enrolKey at h
  split_ifs at h
  all_goals first | exact reply_sameLocks h | (cases h; exact ⟨rfl, rfl, rfl⟩)

theorem debugHalt_sameLocks {ctx : Nat} (h : debugHalt ctx s = .next t) : s.sys.SameLocks t.sys := by
  unfold debugHalt at h
  split_ifs at h
  · exact reply_sameLocks h
  · exact reply_sameLocks h
  · cases h; exact ⟨rfl, rfl, rfl⟩

theorem debugResume_sameLocks {r : DebugResume} (h : debugResume r s = .next t) : s.sys.SameLocks t.sys := by
  unfold debugResume at h
  split at h
  · exact reply_sameLocks h
  · cases h; exact ⟨rfl, rfl, rfl⟩

theorem powerRequest_sameLocks {st : PowerState} {dies : List Nat} {wait : Nat} (h : powerRequest st dies wait s = .next t) :
    s.sys.SameLocks t.sys := by
  unfold powerRequest at h
  split at h
  · split_ifs at h
    · cases h; exact s.settleRequest_sameLocks _
    · exact reply_sameLocks h
  · split_ifs at h
    · exact reply_sameLocks h
    · cases h; exact s.enterPower_sameLocks _ _
    · cases h; exact ⟨rfl, rfl, rfl⟩

theorem setCap_sameLocks {watts : Nat} (h : setCap watts s = .next t) : s.sys.SameLocks t.sys := by
  unfold setCap at h
  split_ifs at h
  · cases h; exact ⟨rfl, rfl, rfl⟩
  · exact reply_sameLocks h

theorem call_sameLocks {k : State → Host.Outcome State Fault Refusal} (hk : k s = .next t → s.sys.SameLocks t.sys)
    (h : call k s = .next t) : s.sys.SameLocks t.sys := by
  obtain h | rfl := call_next h
  · exact hk h
  · exact .refl _

theorem managed_sameLocks {k : State → Host.Outcome State Fault Refusal} (hk : ∀ s : State, k s = .next t → s.sys.SameLocks t.sys)
    (h : managed k s = .next t) : s.sys.SameLocks t.sys := by
  obtain ⟨s', hs, h⟩ := managed_next h
  exact hs.trans (hk s' h)

/-- Every other instruction word and event leaves the fuses, the security state and the debug state. -/
theorem exec_sameLocks {i : Instr} (hi : unlocks i = false) (h : exec i s = .next t) : s.sys.SameLocks t.sys := by
  cases hw : i.isEvent
  · obtain ⟨m, hm⟩ := exec_word_rest i s hw
    rw [hm] at h; cases h; exact .refl _
  cases i with
  | submit pa => exact call_sameLocks submitCall_sameLocks h
  | loadobj pa ctx cb db => exact call_sameLocks loadobj_sameLocks h
  | unloadobj o c => exact call_sameLocks unloadobj_sameLocks h
  | svcon e a => exact call_sameLocks svcon_sameLocks h
  | svcoff => exact call_sameLocks (fun h => by cases h; exact ⟨rfl, rfl, rfl⟩) h
  | contextDescriptorChange d => exact call_sameLocks changeDesc_sameLocks h
  | keyEnrolment k o => exact call_sameLocks enrolKey_sameLocks h
  | debugHalt c => exact call_sameLocks debugHalt_sameLocks h
  | debugResume r => exact call_sameLocks debugResume_sameLocks h
  | powerStateRequest st d w => exact call_sameLocks powerRequest_sameLocks h
  | powerCapSet w => exact call_sameLocks (managed_sameLocks fun _ => setCap_sameLocks) h
  | clearFails =>
    change execClearFails s = _ at h
    unfold execClearFails at h
    exact managed_sameLocks (fun _ h => by cases h; exact ⟨rfl, rfl, rfl⟩) h
  | powerRequestTimeout =>
    change execPowerRequestTimeout s = _ at h
    unfold execPowerRequestTimeout at h
    split at h
    · cases h; exact .refl _
    · split_ifs at h
      · cases h; exact s.settleRequest_sameLocks _
      · cases h; exact .refl _
  | wakeToRun =>
    refine call_sameLocks (fun h => ?_) h
    unfold wakeToRun at h
    split_ifs at h
    · cases h; exact .refl _
    · cases h; exact s.wake_sameLocks
  | thermalLimit a => cases h; exact ⟨rfl, rfl, rfl⟩
  | startTimeout => cases h; exact s.startExpired_sameLocks
  | startComplete =>
    change execStartComplete s = _ at h
    unfold execStartComplete at h
    dsimp only at h
    split at h
    · cases h; exact s.startExpired_sameLocks
    · cases h; exact s.startExpired_sameLocks.trans ⟨rfl, rfl, rfl⟩
  | recoveryImageWrite =>
    change execRecoveryImageWrite s = _ at h
    unfold execRecoveryImageWrite at h
    dsimp only at h
    split_ifs at h
    · cases h; exact ⟨rfl, rfl, rfl⟩
    · cases h; exact .refl _
  | foldPlace =>
    change execFoldPlace s = _ at h
    unfold execFoldPlace at h
    split at h
    · cases h; exact .refl _
    · cases h; exact ⟨rfl, rfl, rfl⟩
  | teamRestore u f =>
    change execTeamRestore u f s = _ at h
    unfold execTeamRestore at h
    split at h
    · cases h; exact .refl _
    · split_ifs at h
      all_goals cases h; exact ⟨rfl, rfl, rfl⟩
  | chipletAccess a =>
    change execChipletAccess a s = _ at h
    unfold execChipletAccess at h
    split at h
    split_ifs at h
    exact sameLocks_of_sys_eq (onMach_sys h)
  | hostBarAccess p a =>
    change execHostBarAccess p a s = _ at h
    unfold execHostBarAccess at h
    split at h
    split_ifs at h
    exact sameLocks_of_sys_eq (onMach_sys h)
  | drovewayRequest a =>
    change execDrovewayRequest a s = _ at h
    unfold execDrovewayRequest at h
    split_ifs at h
    · cases h; exact .refl _
    · split at h
      split_ifs at h
      exact sameLocks_of_sys_eq (onMach_sys h)
  | advsvn | fuseBlow | enterAttested | debugStateSet | powerOn | coolantPowerRemoval => cases hi
  | invt m => cases m <;> cases hw
  | movi d i ext => cases ext <;> cases hw
  | vote d k => cases d <;> cases hw
  | tmma td a b ru ext => cases ext <;> cases hw
  | waita k a b f timeout => cases timeout <;> cases hw
  | _ => first | exact absurd hw Bool.false_ne_true | exact sameLocks_of_mach ⟨_, rfl⟩ h

/-! ### The events that change them -/

/-- No fuse is cleared, and a permitted combination of security and debug state stays permitted (R285, R288). -/
def Sys.Guarded (y z : Sys) : Prop := y.fuses.within z.fuses ∧ (permits y.security y.debug = true → permits z.security z.debug = true)

theorem Sys.SameLocks.guarded {y z : Sys} (h : y.SameLocks z) : y.Guarded z := by
  obtain ⟨hf, hs, hd⟩ := h
  exact ⟨hf ▸ Fuses.within_refl _, by rw [hs, hd]; exact id⟩

theorem Sys.Guarded.trans {x y z : Sys} (hxy : x.Guarded y) (hyz : y.Guarded z) : x.Guarded z :=
  ⟨Fuses.within_trans hxy.1 hyz.1, fun h => hyz.2 (hxy.2 h)⟩

theorem permits_openState (d : DebugState) : permits .openState d = true := by cases d <;> rfl

theorem permits_none (sec : Security) : permits sec .none = true := by cases sec <;> rfl

theorem advsvn_sys {n : Nat} (h : advsvn n s = .next t) :
    t.sys = { s.sys with fuses := s.sys.fuses.raiseCosvn n, answer := 0 } := by
  unfold advsvn at h
  injection h with h
  subst h
  rfl

theorem execFuseBlow_eq (f : Fuse) (s : State) :
    exec (.fuseBlow f) s = call (fun s => .next { s with sys := { s.sys with fuses := s.sys.fuses.blow f } }) s := rfl

theorem attest_guarded {nonce : BitVec 384} (h : attest nonce s = .next t) : s.sys.Guarded t.sys := by
  unfold attest at h
  split_ifs at h with hc
  · obtain ⟨-, hd⟩ : s.sys.security = .sealed ∧ s.sys.debug = .none := by simpa using hc
    cases h
    exact ⟨Fuses.within_refl _, fun _ => by rw [hd]; rfl⟩
  · exact (reply_sameLocks h).guarded

theorem setDebug_guarded {d : DebugState} (h : setDebug d s = .next t) : s.sys.Guarded t.sys := by
  unfold setDebug at h
  split_ifs at h with hp
  · cases h; exact ⟨Fuses.within_refl _, fun _ => hp⟩
  · exact (reply_sameLocks h).guarded

/-- A start leaves the fuses, debug state NONE and OPEN or SEALED by SEAL (R286). -/
theorem State.powerOn_locks (s : State) (r : StartReport) :
    (s.powerOn r).sys.fuses = s.sys.fuses ∧ (s.powerOn r).sys.debug = .none := by
  unfold State.powerOn
  dsimp only
  split_ifs <;> exact ⟨rfl, rfl⟩

theorem call_guarded {k : State → Host.Outcome State Fault Refusal} (hk : k s = .next t → s.sys.Guarded t.sys)
    (h : call k s = .next t) : s.sys.Guarded t.sys := by
  obtain h | rfl := call_next h
  · exact hk h
  · exact (Sys.SameLocks.refl _).guarded

/-- No instruction clears a fuse or leads from a permitted combination to a refused one. -/
theorem exec_guarded {i : Instr} (h : exec i s = .next t) : s.sys.Guarded t.sys := by
  cases hu : unlocks i
  · exact (exec_sameLocks hu h).guarded
  cases i with
  | advsvn n =>
    refine call_guarded (fun h => ?_) h
    rw [advsvn_sys h]
    exact ⟨Fuses.within_raiseCosvn s.sys.fuses n, id⟩
  | fuseBlow f =>
    refine call_guarded (fun h => ?_) (execFuseBlow_eq f s ▸ h)
    cases h
    exact ⟨Fuses.within_blow s.sys.fuses f, id⟩
  | enterAttested nonce => exact call_guarded attest_guarded h
  | debugStateSet d =>
    refine call_guarded (fun h => ?_) h
    obtain ⟨s', hs, h⟩ := managed_next h
    exact hs.guarded.trans (setDebug_guarded h)
  | powerOn r =>
    cases h
    obtain ⟨hf, hd⟩ := s.powerOn_locks r
    exact ⟨hf ▸ Fuses.within_refl _, fun _ => by rw [hd]; exact permits_none _⟩
  | coolantPowerRemoval => cases h; exact ⟨Fuses.within_refl _, fun _ => permits_openState _⟩
  | _ => cases hu

/-- But for a start and the loss of power, SEALED is never left for OPEN, nor ATTESTED at all. -/
theorem exec_security {i : Instr} (h : exec i s = .next t) (hp : ∀ r, i ≠ .powerOn r) (hc : i ≠ .coolantPowerRemoval) :
    t.sys.security = s.sys.security ∨ (s.sys.security = .sealed ∧ t.sys.security = .attested) := by
  cases hu : unlocks i
  · exact .inl (exec_sameLocks hu h).2.1
  cases i with
  | powerOn r => exact absurd rfl (hp r)
  | coolantPowerRemoval => exact absurd rfl hc
  | advsvn n =>
    obtain h | rfl := call_next h
    · rw [advsvn_sys h]; exact .inl rfl
    · exact .inl rfl
  | fuseBlow f =>
    obtain h | rfl := call_next (execFuseBlow_eq f s ▸ h)
    · cases h; exact .inl rfl
    · exact .inl rfl
  | enterAttested nonce =>
    obtain h | rfl := call_next h
    · unfold attest at h
      split_ifs at h with hs
      · simp only [Bool.and_eq_true, beq_iff_eq] at hs
        cases h; exact .inr ⟨hs.1, rfl⟩
      · exact .inl (reply_sameLocks h).2.1
    · exact .inl rfl
  | debugStateSet d =>
    obtain h | rfl := call_next h
    · obtain ⟨s', hs, h⟩ := managed_next h
      refine .inl (Eq.trans ?_ hs.2.1)
      unfold setDebug at h
      split_ifs at h
      · cases h; rfl
      · exact (reply_sameLocks h).2.1
    · exact .inl rfl
  | _ => cases hu

/-! ### Turns of issue and of time -/

theorem State.trace_sys (s : State) (cause : Nat) (m : Mach) : (s.trace cause m).sys = s.sys := by
  unfold State.trace; split_ifs <;> rfl

theorem runChainIn_sys (ws : List WordSem) (len : Nat) (s : State) : (runChainIn ws len s).sys = s.sys := by
  obtain ⟨m, hm⟩ := runChainIn_rest ws len s
  rw [hm]

theorem foldl_sys {α : Type} {f : State → α → State} (hf : ∀ s a, (f s a).sys = s.sys) (l : List α) (s : State) :
    (l.foldl f s).sys = s.sys := by
  induction l generalizing s with
  | nil => rfl
  | cons a l ih => exact (ih _).trans (hf s a)

theorem State.issueWords_sys (s : State) (tm : Team) (ws : List Word) (stop : Option FetchStop) :
    (s.issueWords tm ws stop).sys = s.sys := by
  unfold State.issueWords
  dsimp only
  split
  · split
    · rfl
    · rfl
    · split
      · exact runChainIn_sys _ _ _
      · rfl
  · split
    · refine foldl_sys (fun s1 o => ?_) _ _
      exact State.trace_sys _ _ _
    · refine foldl_sys (fun s1 o => ?_) _ _
      exact State.trace_sys _ _ _
    · split
      · refine (runChainIn_sys _ _ _).trans (foldl_sys (fun s1 o => ?_) _ _)
        exact State.trace_sys _ _ _
      · refine foldl_sys (fun s1 o => ?_) _ _
        exact State.trace_sys _ _ _

theorem State.issueBundle_sys (s : State) (c : Candidate) : (s.issueBundle c).sys = s.sys := by
  unfold State.issueBundle
  split
  · rfl
  · split
    · exact State.issueWords_sys _ _ _ _
    · split
      · exact State.issueWords_sys _ _ _ _
      · rfl

theorem State.issueTurn_sys (s : State) (core sub : Nat) : (s.issueTurn core sub).sys = s.sys := by
  unfold State.issueTurn
  split_ifs
  · dsimp only
    split
    · rfl
    · exact State.issueBundle_sys _ _
  · rfl

theorem State.elapse_sameLocks (s : State) (n : Nat) : s.sys.SameLocks (s.elapse n).sys := by
  have hs : s.sys.SameLocks (match s.sys.powerReq with | some r => s.settleRequest r | none => s).sys := by
    split
    · exact s.settleRequest_sameLocks _
    · exact .refl _
  exact hs.trans (State.startExpired_sameLocks _)

theorem State.tick_sameLocks (s : State) : s.sys.SameLocks s.tick.sys := by
  have hs : s.sys.SameLocks (s.issueTurn (s.rr / 4) (s.rr % 4)).sys := sameLocks_of_sys_eq (s.issueTurn_sys _ _)
  unfold State.tick
  dsimp only
  split_ifs
  · exact hs
  · exact hs.trans (State.elapse_sameLocks _ _)

theorem take_guarded {x : Turn} (h : s.take x = .next t) : s.sys.Guarded t.sys := by
  cases x with
  | ev i =>
    unfold State.take at h
    dsimp only at h
    split_ifs at h
    · exact exec_guarded h
    · cases h; exact (Sys.SameLocks.refl _).guarded
  | issue core sub => cases h; exact (sameLocks_of_sys_eq (s.issueTurn_sys core sub)).guarded
  | advance n => cases h; exact (s.elapse_sameLocks n).guarded
  | evict core line => cases h; exact (Sys.SameLocks.refl _).guarded

theorem step_guarded (h : step s = .next t) : s.sys.Guarded t.sys := by
  unfold step at h
  split at h
  · next rest _ => exact take_guarded (s := { s with agenda := rest }) h
  · unfold State.moves at h
    split at h
    · exact exec_guarded h
    · cases h; exact s.tick_sameLocks.guarded

/-- Settles O59: each event is followed through; all but six leave the fuses, the security state and the debug state. -/
theorem securityInvariant : Obligations.SecurityInvariant := by
  refine ⟨fun s t h => step_guarded h, fun s t i h hp hc => ?_, fun s t i hi h => ?_⟩
  · obtain h | ⟨hs, ht⟩ := exec_security h hp hc
    · rw [h]
      exact ⟨fun hs => by rw [hs]; decide, id⟩
    · exact ⟨fun _ => by rw [ht]; decide, fun _ => ht⟩
  · obtain ⟨m, hm⟩ := exec_word_rest i s hi
    rw [hm] at h; cases h; rfl

end Sys2Proof.Machine
end

section
/-! SUPPORT. Integer words (21 R302-R306, R311; 22 R334-R338; 23 R347, R353, R359, R360): a lane whose operands fit passes the mould. -/

namespace Sys2Proof.Machine

/-! ### Words that write one value in each lane -/

/-- A one-word instruction that writes one value of a tag in each lane. -/
theorem becomes_of_value {s : State} {tm : Team} (h : Issues s tm) {i : Instr} {w : WordSem} {d : Nat} {g : Thread → Tag}
    {v : Thread → Nat} (he : exec i s = runWord w s) (hz : w.instr.size = 1) (hb : staticBad s.m tm w.instr = false)
    (ho : w.once = fun _ m => m) (hf : ∀ th ∈ s.m.bundle, w.lane s.m s.m.bundle th = .value th.ref d (g th) (v th)) :
    Becomes i s fun th => th.put s.m 1 d (g th) (v th) := by
  have := becomes_of_writes (rs := fun th => valRegs (g th) (v th)) h he hb ho hf
  rwa [hz] at this

/-- A one-word instruction that writes one predicate in each lane. -/
theorem becomes_of_predicate {s : State} {tm : Team} (h : Issues s tm) {i : Instr} {w : WordSem} {k : KIx} {v : Thread → Bool}
    (he : exec i s = runWord w s) (hz : w.instr.size = 1) (hb : staticBad s.m tm w.instr = false)
    (ho : w.once = fun _ m => m) (hf : ∀ th ∈ s.m.bundle, w.lane s.m s.m.bundle th = .predicate th.ref k (v th)) :
    Becomes i s fun th => (th.onward s.m 1).setPred k (v th) := by
  have := becomes_of_update (g := fun th x => x.setPred k (v th)) h he hb ho (fun _ x => by simp) hf
  rwa [hz] at this

section
variable {th : Thread} {acc : Tag → Bool} {d a b : Reg} {g : Tag}

theorem alu2_of_fits {op : Tag → Nat → Nat → Nat} (h : th.Fits acc [a.toNat, b.toNat] [d.toNat, a.toNat, b.toNat] g) :
    alu2 acc op d a b th =
      .value th.ref d.toNat (th.tagAt a.toNat) (op (th.tagAt a.toNat) (th.valAt a.toNat) (th.valAt b.toNat)) := by
  unfold alu2
  simp only [mould_of_fits h, tag_of_fits h]

theorem alu1_of_fits {op : Tag → Nat → Nat} (h : th.Fits acc [a.toNat] [d.toNat, a.toNat] g) :
    alu1 acc op d a th = .value th.ref d.toNat (th.tagAt a.toNat) (op (th.tagAt a.toNat) (th.valAt a.toNat)) := by
  unfold alu1
  simp only [mould_of_fits h, tag_of_fits h]

theorem shift_of_fits {op : Nat → Nat → Nat → Nat} {k : Nat} (h : th.Fits Tag.isInt [a.toNat] [d.toNat, a.toNat] g) :
    shift op d a (some k) th =
      .value th.ref d.toNat (th.tagAt a.toNat) (packI1 (th.tagAt a.toNat) (op k) (th.valAt a.toNat)) := by
  unfold shift
  simp only [mould_of_fits h, tag_of_fits h]

theorem Thread.i32At_of_tag (h : th.tagAt b.toNat = .i32) : th.i32At b = some (th.reg b.toNat).bits.toNat := by
  simp [Thread.i32At, h]

end

section
variable {s : State} {tm : Team} {i : Instr} {w : WordSem} {acc : Tag → Bool} {d a b : Reg}

/-- A word of the mould of two sources. -/
theorem becomes_of_alu2 {op : Tag → Nat → Nat → Nat} (h : Issues s tm)
    (hfit : ∀ th ∈ s.m.bundle, ∃ g, th.Fits acc [a.toNat, b.toNat] [d.toNat, a.toNat, b.toNat] g)
    (he : exec i s = runWord w s) (hz : w.instr.size = 1) (hb : staticBad s.m tm w.instr = false) (ho : w.once = fun _ m => m)
    (hl : w.lane = fun _ _ t => alu2 acc op d a b t) :
    Becomes i s fun th => th.put s.m 1 d.toNat (th.tagAt a.toNat)
      (op (th.tagAt a.toNat) (th.valAt a.toNat) (th.valAt b.toNat)) := by
  refine becomes_of_value h he hz hb ho fun th hth => ?_
  obtain ⟨g, hg⟩ := hfit th hth
  exact hl ▸ alu2_of_fits hg

/-- A word of the mould of one source. -/
theorem becomes_of_alu1 {op : Tag → Nat → Nat} (h : Issues s tm)
    (hfit : ∀ th ∈ s.m.bundle, ∃ g, th.Fits acc [a.toNat] [d.toNat, a.toNat] g)
    (he : exec i s = runWord w s) (hz : w.instr.size = 1) (hb : staticBad s.m tm w.instr = false) (ho : w.once = fun _ m => m)
    (hl : w.lane = fun _ _ t => alu1 acc op d a t) :
    Becomes i s fun th => th.put s.m 1 d.toNat (th.tagAt a.toNat) (op (th.tagAt a.toNat) (th.valAt a.toNat)) := by
  refine becomes_of_value h he hz hb ho fun th hth => ?_
  obtain ⟨g, hg⟩ := hfit th hth
  exact hl ▸ alu1_of_fits hg

/-- A shift, its amount the same or its own in each lane. -/
theorem becomes_of_shift {op : Nat → Nat → Nat → Nat} {k : Thread → Nat} (h : Issues s tm)
    (hfit : ∀ th ∈ s.m.bundle, ∃ g, th.Fits Tag.isInt [a.toNat] [d.toNat, a.toNat] g)
    (he : exec i s = runWord w s) (hz : w.instr.size = 1) (hb : staticBad s.m tm w.instr = false) (ho : w.once = fun _ m => m)
    (hl : ∀ th ∈ s.m.bundle, w.lane s.m s.m.bundle th = shift op d a (some (k th)) th) :
    Becomes i s fun th => th.put s.m 1 d.toNat (th.tagAt a.toNat) (packI1 (th.tagAt a.toNat) (op (k th)) (th.valAt a.toNat)) := by
  refine becomes_of_value h he hz hb ho fun th hth => ?_
  obtain ⟨g, hg⟩ := hfit th hth
  rw [hl th hth, shift_of_fits hg]

end

/-! ### The functions of elements -/

theorem iClz_eq : iClz = fun w x => if x = 0 then w else w - 1 - Nat.log2 x := by
  funext w x; simp [iClz]

theorem iPop_eq : iPop = fun w x => ((List.range w).filter fun j => x.testBit j).length := by
  funext w x; simp [iPop, Nat.testBit_eq_decide_div_mod_eq, Bool.beq_eq_decide_eq]

theorem iaddImmValue_eq (g : Tag) (i : BitVec 11) :
    iaddImmValue g i = if g = .i8x4 then join .i8x4 (List.replicate 4 (i.toNat % 256)) else ofS g.width i.toInt := by
  cases g <;> rfl

/-- Multiplying and adding element by element, each step modulo 2^w. -/
theorem packI_mul_add (g : Tag) (x y z : Nat) :
    packI g iAdd (packI g iMul x y) z =
      join g (((elems g x).zip (elems g y)).zipWith (fun p z => (p.1 * p.2 + z) % 2 ^ elemW g) (elems g z)) := by
  have hl : ((elems g x).zipWith (iMul (elemW g)) (elems g y)).length = elemN g := by simp [elems_length]
  unfold packI
  rw [elems_join _ _ hl, List.zip, List.map_zipWith]
  congr 1
  generalize elems g x = xs
  generalize elems g y = ys
  induction elems g z generalizing xs ys with
  | nil => simp
  | cons z zs ih =>
    cases xs <;> cases ys <;> simp_all [iAdd, iMul]

/-- Settles O1: every word of the integer mould in one lemma, IMAD by two element-wise steps. -/
theorem integerArithmetic : Obligations.IntegerArithmetic := by
  intro s tm d a b h
  refine ⟨fun hfit p hp hb => ?_, fun hfit hb => ?_⟩
  · simp only [List.mem_cons, List.not_mem_nil, or_false] at hp
    obtain rfl | rfl | rfl | rfl | rfl | rfl := hp
    · exact becomes_of_alu2 (w := iaddRegSem d a b) (op := fun g => packI g iAdd) h hfit rfl rfl hb rfl rfl
    · exact becomes_of_alu2 (w := isubSem d a b) (op := fun g => packI g iSub) h hfit rfl rfl hb rfl rfl
    · exact becomes_of_alu2 (w := imulSem d a b) (op := fun g => packI g iMul) h hfit rfl rfl hb rfl rfl
    · exact becomes_of_alu2 (w := imulhSem d a b) (op := fun g => packI g iMulh) h hfit rfl rfl hb rfl rfl
    · exact becomes_of_alu2 (w := iminSem d a b) (op := fun g => packI g iMin) h hfit rfl rfl hb rfl rfl
    · exact becomes_of_alu2 (w := imaxSem d a b) (op := fun g => packI g iMax) h hfit rfl rfl hb rfl rfl
  · refine becomes_of_value (w := imadSem d a b) h rfl rfl hb rfl fun th hth => ?_
    obtain ⟨g, hg⟩ := hfit th hth
    simp only [imadSem, laneWord, mould_of_fits hg, tag_of_fits hg, packI_mul_add]

/-- Settles O2: each word follows the mould of one source. -/
theorem integerUnary : Obligations.IntegerUnary := by
  intro s tm d a i h hfit p hp hb
  simp only [List.mem_cons, List.not_mem_nil, or_false] at hp
  obtain rfl | rfl | rfl | rfl := hp
  · exact becomes_of_alu1 (w := iabsSem d a) (op := fun g => packI1 g iAbs) h hfit rfl rfl hb rfl rfl
  · rw [← iClz_eq]
    exact becomes_of_alu1 (w := clzSem d a) (op := fun g => packI1 g iClz) h hfit rfl rfl hb rfl rfl
  · rw [← iPop_eq]
    exact becomes_of_alu1 (w := popcSem d a) (op := fun g => packI1 g iPop) h hfit rfl rfl hb rfl rfl
  · simp only [← iaddImmValue_eq]
    exact becomes_of_alu1 (w := iaddImmSem d a i) (op := fun g x => packI g iAdd x (iaddImmValue g i)) h hfit rfl rfl hb rfl rfl

/-- Settles O3: each word follows a mould of one source or of two. -/
theorem bitwise : Obligations.Bitwise := by
  intro s tm d a b i h
  refine ⟨fun hfit p hp hb => ?_, fun hfit p hp hb => ?_⟩
  · simp only [List.mem_cons, List.not_mem_nil, or_false] at hp
    obtain rfl | rfl | rfl := hp
    · exact becomes_of_alu2 (w := andRegSem d a b) (op := fun _ x y => x &&& y) h hfit rfl rfl hb rfl rfl
    · exact becomes_of_alu2 (w := orRegSem d a b) (op := fun _ x y => x ||| y) h hfit rfl rfl hb rfl rfl
    · exact becomes_of_alu2 (w := xorRegSem d a b) (op := fun _ x y => x ^^^ y) h hfit rfl rfl hb rfl rfl
  · simp only [List.mem_cons, List.not_mem_nil, or_false] at hp
    obtain rfl | rfl | rfl | rfl := hp
    · exact becomes_of_alu1 (w := andImmSem d a i) (op := fun _ x => x &&& i.toNat) h hfit rfl rfl hb rfl rfl
    · exact becomes_of_alu1 (w := orImmSem d a i) (op := fun _ x => x ||| i.toNat) h hfit rfl rfl hb rfl rfl
    · exact becomes_of_alu1 (w := xorImmSem d a i) (op := fun _ x => x ^^^ i.toNat) h hfit rfl rfl hb rfl rfl
    · exact becomes_of_alu1 (w := inotSem d a) (op := fun g x => 2 ^ g.width - 1 - x) h hfit rfl rfl hb rfl rfl

/-- Settles O4: the amount comes from the register tagged I32 or the immediate; what it does is the same. -/
theorem shifts : Obligations.Shifts := by
  intro s tm d a b n h hfit p hp
  simp only [List.mem_cons, List.not_mem_nil, or_false] at hp
  obtain rfl | rfl | rfl := hp
  · exact ⟨fun hi hb => becomes_of_shift (w := shlRegSem d a b) (op := iShl) (k := fun th => (th.reg b.toNat).bits.toNat) h hfit rfl
        rfl hb rfl fun th hth => congrArg (fun k => shift iShl d a k th) (Thread.i32At_of_tag (hi th hth)),
      fun hb => becomes_of_shift (w := shlImmSem d a n) (op := iShl) (k := fun _ => n.toNat) h hfit rfl rfl hb rfl fun _ _ => rfl⟩
  · exact ⟨fun hi hb => becomes_of_shift (w := shrRegSem d a b) (op := iShr) (k := fun th => (th.reg b.toNat).bits.toNat) h hfit rfl
        rfl hb rfl fun th hth => congrArg (fun k => shift iShr d a k th) (Thread.i32At_of_tag (hi th hth)),
      fun hb => becomes_of_shift (w := shrImmSem d a n) (op := iShr) (k := fun _ => n.toNat) h hfit rfl rfl hb rfl fun _ _ => rfl⟩
  · exact ⟨fun hi hb => becomes_of_shift (w := shaRegSem d a b) (op := iSha) (k := fun th => (th.reg b.toNat).bits.toNat) h hfit rfl
        rfl hb rfl fun th hth => congrArg (fun k => shift iSha d a k th) (Thread.i32At_of_tag (hi th hth)),
      fun hb => becomes_of_shift (w := shaImmSem d a n) (op := iSha) (k := fun _ => n.toNat) h hfit rfl rfl hb rfl fun _ _ => rfl⟩

theorem fieldSx_eq_testBit (k : Nat) : fieldSx k = k.testBit 16 := by
  simp [fieldSx, Nat.testBit_eq_decide_div_mod_eq, Bool.beq_eq_decide_eq]

/-- Settles O5: the control operand's fields are POS, LEN and SX; BPRM checks its tags itself. -/
theorem bitFields : Obligations.BitFields := by
  intro s tm d a b h
  refine ⟨fun hfit hb => ?_, fun hfit hb => ?_, fun hfit hb => ?_⟩
  · refine becomes_of_value (w := bfxSem d a b) h rfl rfl hb rfl fun th hth => ?_
    obtain ⟨hi, g, hg⟩ := hfit th hth
    simp only [bfxSem, laneWord, mould_of_fits hg, tag_of_fits hg, Thread.i32At_of_tag hi, fieldSx_eq_testBit, fieldPos, fieldLen]
  · refine becomes_of_value (w := bfiSem d a b) h rfl rfl hb rfl fun th hth => ?_
    obtain ⟨hi, g, hg⟩ := hfit th hth
    simp only [bfiSem, laneWord, mould_of_fits hg, tag_of_fits hg, Thread.i32At_of_tag hi, fieldPos, fieldLen]
  · refine becomes_of_value (w := bprmSem d a b) h rfl rfl hb rfl fun th hth => ?_
    obtain ⟨hdata, hone, hsame, hsel⟩ := hfit th hth
    simp [bprmSem, laneWord, hdata, hone, hsame, hsel]

/-- Settles O6: ISET by its mould; SEL's chosen source has the tag of A. -/
theorem compareSelect : Obligations.CompareSelect := by
  intro s tm d a b k f h
  refine ⟨fun hfit hb => ?_, fun hfit hb => ?_⟩
  · refine becomes_of_predicate (w := isetSem k a b f) h rfl rfl hb rfl fun th hth => ?_
    obtain ⟨g, hg⟩ := hfit th hth
    simp only [isetSem, laneWord, mould_of_fits hg, tag_of_fits hg]
  · refine becomes_of_value (w := selSem d a b k) h rfl rfl hb rfl fun th hth => ?_
    obtain ⟨g, hg⟩ := hfit th hth
    simp only [selSem, laneWord, mould_of_fits hg, tag_of_fits hg]

end Sys2Proof.Machine
end

section
/-! SUPPORT. Moves, system registers and words across the lanes of a bundle (03 R51-R53; 22 R329-R331; 23 R343-R348, R354, R356, R361;
24 R367, R370-R372). -/

namespace Sys2Proof.Machine

/-! ### Values in registers -/

theorem valRegs_i32 (v : Word) : valRegs .i32 v.toNat = [{ bits := v, tag := .i32 }] := by
  simp [valRegs, regsOf, Tag.regs, List.range_one]

theorem ofNat_div_eq_extractLsb' (v : DWord) (i : Nat) : BitVec.ofNat 32 (v.toNat / 2 ^ i) = v.extractLsb' i 32 := by
  apply BitVec.eq_of_toNat_eq
  simp [Nat.shiftRight_eq_div_pow]

theorem valRegs_i64 (v : DWord) : valRegs .i64 v.toNat =
    [{ bits := v.extractLsb' 0 32, tag := .i64 }, { bits := v.extractLsb' 32 32, tag := .i64 }] := by
  have h0 := ofNat_div_eq_extractLsb' v 0
  have h1 := ofNat_div_eq_extractLsb' v 32
  simp only [pow_zero, Nat.div_one, Nat.reducePow] at h0 h1
  simp [valRegs, regsOf, Tag.regs, List.range_succ, h0, h1]

theorem block_two (t : Thread) (r : Nat) : t.block r 2 = [t.reg r, t.reg (r + 1)] := rfl

theorem ofNat_bitsOf_pair (x y : RV) : BitVec.ofNat 64 (bitsOf [x, y]) = y.bits ++ x.bits := by
  apply BitVec.eq_of_toNat_eq
  have hx := x.bits.isLt
  have hy := y.bits.isLt
  rw [BitVec.toNat_append, ← Nat.shiftLeft_add_eq_or_of_lt hx, Nat.shiftLeft_eq, BitVec.toNat_ofNat]
  simp only [bitsOf, joinW, List.map_cons, List.map_nil, Nat.mod_eq_of_lt hx, Nat.mod_eq_of_lt hy]
  omega

/-- A word of no right of its own whose registers the launch has, and which names no tile, is admitted: `h` holds by computation. -/
theorem staticBad_of_blocks {m : Mach} {tm : Team} {i : Instr}
    (h : staticBad m tm i = ((i.blocks tm.regs).any (fun b => decide (tm.regs < b.1 + b.2))
      || i.tiles.any (fun t => decide (tm.tiles ≤ t)) || (m.k2 && i.experimental) || false))
    {bs : List (Nat × Nat)} (hbs : i.blocks tm.regs = bs) (hb : ∀ b ∈ bs, b.1 + b.2 ≤ tm.regs) (ht : i.tiles = [])
    (hx : i.experimental = false) : staticBad m tm i = false := by
  rw [h, hbs, ht, hx]
  simpa using hb

section
variable {s : State} {tm : Team}

/-- A word of `n` words that writes registers in each lane. -/
theorem becomes_of_regs (h : Issues s tm) {i : Instr} {w : WordSem} {d n : Nat} {rs : Thread → List RV}
    (he : exec i s = runWord w s) (hz : w.instr.size = n) (hb : staticBad s.m tm w.instr = false) (ho : w.once = fun _ m => m)
    (hf : ∀ th ∈ s.m.bundle, w.lane s.m s.m.bundle th = .ok (writes th.ref d (rs th))) :
    Becomes i s fun th => (th.onward s.m n).setRegs d (rs th) :=
  hz ▸ becomes_of_writes h he hb ho hf

/-- A word of one word that updates each lane's thread. -/
theorem becomes_of_update_one (h : Issues s tm) {i : Instr} {w : WordSem} {g : Thread → Thread → Thread}
    (he : exec i s = runWord w s) (hz : w.instr.size = 1) (hb : staticBad s.m tm w.instr = false) (ho : w.once = fun _ m => m)
    (hg : ∀ th x, (g th x).ref = x.ref) (hf : ∀ th ∈ s.m.bundle, w.lane s.m s.m.bundle th = .ok fun m => m.updThread th.ref (g th)) :
    Becomes i s fun th => g th (th.onward s.m 1) :=
  hz ▸ becomes_of_update h he hb ho hg hf

theorem bundle_team? (h : Issues s tm) {th : Thread} (hth : th ∈ s.m.bundle) : s.m.team? th.ref.team = some tm :=
  bundle_team hth ▸ h.team

theorem becomes_nop (h : Issues s tm) : Becomes .nop s fun th => th.onward s.m 1 :=
  becomes_of_update_one (w := nopSem) (g := fun _ x => x) h rfl rfl (staticBad_of_blocks (bs := []) rfl rfl (by simp) rfl rfl) rfl
    (fun _ _ => rfl) fun th _ => congrArg LaneOut.ok (funext fun m => (updThread_same m th.ref).symm)

end

theorem formed_of_one {t : Thread} {r : Nat} (h : (t.tagAt r).regs = 1) : t.formed r = true := by
  unfold Thread.formed
  rw [h]
  simp [Thread.block, Thread.tagAt]

theorem formed_of_two {t : Thread} {r : Nat} (h : (t.tagAt r).regs = 2) (h1 : t.tagAt (r + 1) = t.tagAt r) : t.formed r = true := by
  unfold Thread.formed
  rw [h, block_two]
  simpa [Thread.tagAt] using h1

/-- The sources that UNPK takes: a register of a packed tag, a pair of one tag. -/
theorem fits_half {t : Thread} {r : Nat} {g : Tag} (hg : t.tagAt r = g) (hh : (halfTag g).isSome = true) (hk : g.regs = 1) :
    t.Fits (fun g => (halfTag g).isSome) [r] [r] g :=
  ⟨hh, by simp [hg, formed_of_one (hg ▸ hk)], by simp [hk, Nat.mod_one]⟩

theorem fits_pair {t : Thread} {r : Nat} {g : Tag} (hg : t.tagAt r = g) (h1 : t.tagAt (r + 1) = g) (hh : (halfTag g).isSome = true)
    (hk : g.regs = 2) (hr : r % 2 = 0) : t.Fits (fun g => (halfTag g).isSome) [r] [r] g :=
  ⟨hh, by simp [hg, formed_of_two (hg ▸ hk) (h1.trans hg.symm)], by simp [hk, hr]⟩

/-- Settles O7: each move writes the registers its entry names; PACK and UNPK by the tag of A. -/
theorem moves : Obligations.Moves := by
  intro s tm d a b z hi i x g h
  refine ⟨fun hb => becomes_of_regs (w := movSem d a z) h rfl rfl hb rfl fun _ _ => rfl, fun hd hb => ?_,
    fun hb => becomes_of_regs (w := moviSem d i none) h rfl rfl hb rfl fun _ _ => rfl,
    fun hb => becomes_of_regs (w := moviSem d i (some x)) h rfl rfl hb rfl fun _ _ => rfl,
    fun hb => becomes_of_regs (w := rtagSem d a g) h rfl rfl hb rfl fun _ _ => rfl, becomes_nop h, fun hb => ⟨fun ht => ?_, ?_⟩,
    fun hb => ⟨fun ht => ?_, ?_⟩⟩
  · refine becomes_of_regs (w := movhSem d hi) h rfl rfl hb rfl fun th hth => ?_
    have hdata : (th.reg d.toNat).tag.isData = true := hd th hth
    have hv : ((th.reg d.toNat).tag == .raw || (th.reg d.toNat).tag == .b128) = false := by
      generalize (th.reg d.toNat).tag = g at hdata
      cases g <;> simp_all [Tag.isData]
    simp only [movhSem, laneWord, hv, Thread.tagAt, ← BitVec.setWidth_eq_extractLsb' (show 16 ≤ 32 by decide)]
    rfl
  · refine becomes_of_regs (w := packSem d a b) h rfl rfl hb rfl fun th hth => ?_
    obtain ⟨ha, hab⟩ := ht th hth
    have hab' : (th.reg b.toNat).tag = (th.reg a.toNat).tag := hab
    have ha' : (th.reg a.toNat).tag ∈ [Tag.bf16x2, .f16x2, .e4m3x4, .e5m2x4, .i8x4, .kn4x8] := ha
    simp only [List.mem_cons, List.not_mem_nil, or_false] at ha'
    obtain hg | hg | hg | hg | hg | hg := ha' <;>
      simp [packSem, laneWord, Thread.tagAt, hab', hg, BitVec.setWidth_eq_extractLsb']
  · intro g g2 hg hd ht
    refine becomes_of_regs (w := packSem d a b) h rfl rfl hb rfl fun th hth => ?_
    obtain ⟨ha, hab⟩ := ht th hth
    have ha' : (th.reg a.toNat).tag = g := ha
    have hab' : (th.reg b.toNat).tag = g := hab
    simp only [List.mem_cons, List.not_mem_nil, or_false, Prod.mk.injEq] at hg
    obtain ⟨rfl, rfl⟩ | ⟨rfl, rfl⟩ := hg <;> simp [packSem, laneWord, Thread.tagAt, ha', hab', hd]
  · refine becomes_of_regs (w := unpkSem d a) h rfl rfl hb rfl fun th hth => ?_
    have ha := ht th hth
    simp only [List.mem_cons, List.not_mem_nil, or_false] at ha
    obtain hg | hg | hg | hg | hg | hg := ha <;>
      simp only [unpkSem, laneWord, mould_of_fits (fits_half hg rfl rfl), hg, ← BitVec.setWidth_eq_extractLsb' (show 16 ≤ 32 by decide)] <;>
      rfl
  · intro g g2 hg hd ht
    refine becomes_of_regs (w := unpkSem d a) h rfl rfl hb rfl fun th hth => ?_
    obtain ⟨ha, hab⟩ := ht th hth
    simp only [List.mem_cons, List.not_mem_nil, or_false, Prod.mk.injEq] at hg
    obtain ⟨rfl, rfl⟩ | ⟨rfl, rfl⟩ := hg <;>
      simp only [unpkSem, laneWord, mould_of_fits (fits_pair ha hab rfl rfl hd), ha] <;>
      rfl

/-- Settles O8: the value of each register as one word or as a pair. -/
theorem systemReads : Obligations.SystemReads := by
  intro s tm d h
  refine ⟨fun p hp hb => ?_, fun p hp hb => ?_, fun hd hb => ?_, fun hb => ?_⟩
  · refine becomes_of_regs (w := gsrSem d p.1) h rfl rfl hb rfl fun th hth => ?_
    simp only [List.mem_cons, List.not_mem_nil, or_false] at hp
    obtain rfl | rfl | rfl | rfl | rfl | rfl | rfl | rfl | rfl | rfl | rfl | rfl | rfl | rfl := hp <;>
      simp [gsrSem, laneWord, bundle_team? h hth, sysValue, ← valRegs_i32]
  · refine becomes_of_regs (w := gsrSem d p.1) h rfl rfl hb rfl fun th hth => ?_
    simp only [List.mem_cons, List.not_mem_nil, or_false] at hp
    obtain rfl | rfl | rfl | rfl | rfl := hp <;>
      simp [gsrSem, laneWord, bundle_team? h hth, sysValue, ← valRegs_i64]
  · refine becomes_of_regs (w := gsrSem d .fltSub) h rfl rfl hb rfl fun th hth => ?_
    have hl : (valRegs th.fltSub.tag th.fltSub.bits.toNat).length = th.fltSub.tag.regs := by simp [valRegs, regsOf]
    simp [gsrSem, laneWord, bundle_team? h hth, sysValue, hl, hd th hth]
  · refine becomes_of_regs (w := timeSem d) h rfl rfl hb rfl fun th hth => ?_
    simp only [← valRegs_i64]
    rfl

theorem ssr64_ref (x : Thread) (n : SysReg) (v : DWord) : (x.ssr64 n v).ref = x.ref := by cases n <;> rfl

/-- SSR of a 64-bit register from a pair of one tag, I64 or RAW. -/
theorem becomes_ssr64 {s : State} {tm : Team} {d : Reg} {n : SysReg} (h : Issues s tm) (hn : n = .fltPc ∨ n = .fltAddr ∨ n = .utvec)
    (ht : ∀ th ∈ s.m.bundle, ∃ g ∈ [Tag.i64, .raw], th.tagAt d.toNat = g ∧ th.tagAt (d.toNat + 1) = g)
    (hv : n = .utvec → ∀ th ∈ s.m.bundle, ((th.reg (d.toNat + 1)).bits ++ (th.reg d.toNat).bits).toNat % 3 = 0)
    (hb : staticBad s.m tm (.ssr d n) = false) :
    Becomes (.ssr d n) s fun th => (th.onward s.m 1).ssr64 n ((th.reg (d.toNat + 1)).bits ++ (th.reg d.toNat).bits) := by
  refine becomes_of_update_one (w := ssrSem d n) (g := fun th x => x.ssr64 n ((th.reg (d.toNat + 1)).bits ++ (th.reg d.toNat).bits))
    h rfl rfl hb rfl (fun _ x => ssr64_ref x n _) fun th hth => ?_
  have hq : ((th.block d.toNat 2).all (fun r => r.tag == .i64) || (th.block d.toNat 2).all (fun r => r.tag == .raw)) = true := by
    obtain ⟨g, hg, h0, h1⟩ := ht th hth
    simp only [Thread.tagAt] at h0 h1
    simp only [List.mem_cons, List.not_mem_nil, or_false] at hg
    obtain rfl | rfl := hg <;> simp [block_two, h0, h1]
  have hbits : BitVec.ofNat 64 (bitsOf (th.block d.toNat 2)) = (th.reg (d.toNat + 1)).bits ++ (th.reg d.toNat).bits :=
    ofNat_bitsOf_pair _ _
  obtain rfl | rfl | rfl := hn <;> refine (if_pos hq).trans ?_ <;> rw [hbits]
  · rfl
  · rfl
  · exact if_neg (by simp [hv rfl th hth])

theorem team?_uid {m : Mach} {u : Nat} {tm : Team} (h : m.team? u = some tm) : tm.uid = u := by
  simpa using List.find?_some h

/-- Settles O9: a 32-bit register, a 64-bit one from a pair, FLT_SUB with its tag, and the team's TASKID. -/
theorem systemWrites : Obligations.SystemWrites := by
  intro s tm d h
  refine ⟨fun p hp ht hb => ?_, fun p hp ht hv hb => ?_, fun ht hb => ?_, fun ht hb => ?_⟩
  · simp only [List.mem_cons, List.not_mem_nil, or_false] at hp
    have hlane : ∀ th ∈ s.m.bundle, ((th.reg d.toNat).tag == .i32 || (th.reg d.toNat).tag == .raw) = true := fun th hth => by
      simpa [Thread.tagAt] using ht th hth
    obtain rfl | rfl | rfl | rfl | rfl | rfl | rfl := hp <;>
      exact becomes_of_update_one (w := ssrSem d _) (g := fun th x => x.ssr32 _ (th.reg d.toNat).bits) h rfl rfl hb rfl
        (fun _ _ => rfl) fun th hth => if_pos (hlane th hth)
  · simp only [List.mem_cons, List.not_mem_nil, or_false] at hp
    obtain rfl | rfl | rfl := hp
    · exact becomes_ssr64 h (.inl rfl) ht hv hb
    · exact becomes_ssr64 h (.inr (.inl rfl)) ht hv hb
    · exact becomes_ssr64 h (.inr (.inr rfl)) ht hv hb
  · refine becomes_of_update_one (w := ssrSem d .fltSub) (g := fun th x => { x with
      fltSub := { bits := BitVec.ofNat 128 (th.valAt d.toNat), tag := th.tagAt d.toNat } }) h rfl rfl hb rfl (fun _ _ => rfl)
      fun th hth => ?_
    obtain ⟨ha, hf⟩ := ht th hth
    simp [ssrSem, laneWord, SysReg.writable, ha, hf]
  · refine acts_of_pass (w := ssrSem d .taskid) (f := fun th m => m.updTeam tm.uid fun x => { x with taskid := (th.reg d.toNat).bits })
      h rfl rfl hb fun th hth => ?_
    have hg : ((th.reg d.toNat).tag == .i32 || (th.reg d.toNat).tag == .raw) = true := by simpa [Thread.tagAt] using ht th hth
    have huid : th.ref.team = tm.uid := (bundle_team hth).trans (team?_uid h.team).symm
    exact huid ▸ if_pos hg

end Sys2Proof.Machine
end

section
/-! SUPPORT. Words across the lanes of a bundle (22 R329, R330; 23 R354; 24 R371, R372). -/

namespace Sys2Proof.Machine

variable {s : State} {tm : Team}

/-! ### Exchanges -/

theorem exchange_of_fits {d a : Reg} {n : Nat} {ts : List Thread} {t : Thread} (hraw : (laneIn ts t n).tagAt a.toNat ≠ .raw)
    (hf : (laneIn ts t n).formed a.toNat = true) (hd : d.toNat % ((laneIn ts t n).tagAt a.toNat).regs = 0)
    (ha : a.toNat % ((laneIn ts t n).tagAt a.toNat).regs = 0)
    (hl : d.toNat + ((laneIn ts t n).tagAt a.toNat).regs ≤ t.regs.length) :
    exchange d a n ts t = .ok (writes t.ref d.toNat ((laneIn ts t n).block a.toNat ((laneIn ts t n).tagAt a.toNat).regs)) := by
  simp [exchange, hraw, hf, hd, ha, hl]

/-- Settles O15: the three words differ in the lane they name. -/
theorem exchanges : Obligations.Exchanges := by
  intro s tm d a b x h p hp hb hi src k hk
  have hx : ∀ th ∈ s.m.bundle, exchange d a (p.2 th) s.m.bundle th = .ok (writes th.ref d.toNat ((src th).block a.toNat (k th))) :=
    fun th hth => by
      obtain ⟨hraw, hf, hd, ha, hl⟩ := hk th hth
      exact exchange_of_fits hraw hf hd ha hl
  simp only [List.mem_cons, List.not_mem_nil, or_false] at hp
  obtain rfl | rfl | rfl := hp
  · exact becomes_of_regs (w := qswpSem d a x) h rfl rfl hb rfl hx
  · exact becomes_of_regs (w := qbrdSem d a x) h rfl rfl hb rfl hx
  · refine becomes_of_regs (w := shflSem d a b) h rfl rfl hb rfl fun th hth => ?_
    simpa only [shflSem, laneWord, Thread.i32At_of_tag (hi rfl th hth)] using hx th hth

/-! ### The lanes of a bundle as a set -/

theorem laneBits_getLsbD (rs : List TRef) (l : Nat) : (laneBits rs).getLsbD l = rs.any fun r => r.tidx % 32 == l := by
  induction rs with
  | nil => simp [laneBits]
  | cons r rs ih =>
    rw [laneBits, BitVec.getLsbD_or, ih, List.any_cons, laneBit, BitVec.getLsbD_twoPow]
    simp [Nat.mod_lt, Bool.beq_eq_decide_eq]

theorem laneSet_getLsbD {ts : List Thread} (hn : (ts.map Thread.lane).Nodup) (l : Nat) :
    (laneSet ts).getLsbD l = ts.any fun t => t.lane == l := by
  rw [laneSet_eq hn, laneBits_getLsbD, refs, List.any_map]
  rfl

theorem bundle_lanes_nodup (h : Issues s tm) : (s.m.bundle.map Thread.lane).Nodup := by
  refine List.Nodup.of_map (fun l => (⟨s.m.cur.team, 32 * s.m.cur.group + l⟩ : TRef)) ?_
  rw [List.map_map]
  have hmap : s.m.bundle.map ((fun l => (⟨s.m.cur.team, 32 * s.m.cur.group + l⟩ : TRef)) ∘ Thread.lane) =
      s.m.bundle.map fun th => th.ref := List.map_congr_left fun th hth => (bundle_ref h hth).symm
  rw [hmap]
  exact h.apart

theorem lanes_nodup_of_sublist {ts : List Thread} (h : Issues s tm) (hs : ts.Sublist s.m.bundle) : (ts.map Thread.lane).Nodup :=
  (bundle_lanes_nodup h).sublist (hs.map _)

/-- Sets of lanes of one bundle are equal where the lanes are. -/
theorem laneSet_filter_eq_iff {ts : List Thread} (hn : (ts.map Thread.lane).Nodup) (p : Thread → Bool) :
    laneSet (ts.filter p) = laneSet ts ↔ ∀ t ∈ ts, p t = true := by
  constructor
  · intro heq t ht
    have hbit := congrArg (fun w : Word => w.getLsbD t.lane) heq
    simp only [laneSet_getLsbD hn t.lane, laneSet_getLsbD (hn.sublist (List.filter_sublist.map _)) t.lane] at hbit
    have hin : (ts.any fun u => u.lane == t.lane) = true := List.any_eq_true.2 ⟨t, ht, by simp⟩
    rw [hin, List.any_eq_true] at hbit
    obtain ⟨u, hu, hl⟩ := hbit
    obtain ⟨hu, hp⟩ := List.mem_filter.1 hu
    rwa [← List.inj_on_of_nodup_map hn hu ht (by simpa using hl)]
  · intro h
    rw [List.filter_eq_self.2 h]

theorem laneSet_eq_zero_iff {ts : List Thread} (hn : (ts.map Thread.lane).Nodup) : laneSet ts = 0 ↔ ts = [] := by
  constructor
  · intro h0
    cases ts with
    | nil => rfl
    | cons t ts =>
      have := laneSet_getLsbD hn t.lane
      rw [h0] at this
      simp at this
  · rintro rfl
    rfl

theorem voteMask_all (h : Issues s tm) (k : KIx) :
    (voteMask s.m.bundle k == laneSet (voters s.m.bundle)) = (s.m.bundle.filter fun th => !th.helper).all fun u => u.pred k := by
  rw [Bool.eq_iff_iff, beq_iff_eq, List.all_eq_true]
  exact laneSet_filter_eq_iff (lanes_nodup_of_sublist h List.filter_sublist) _

theorem voters_sublist (h : Issues s tm) (p : Thread → Bool) : (((voters s.m.bundle).filter p).map Thread.lane).Nodup :=
  lanes_nodup_of_sublist h (List.filter_sublist.trans List.filter_sublist)

theorem voteMask_any (h : Issues s tm) (k : KIx) :
    (voteMask s.m.bundle k != 0) = (s.m.bundle.filter fun th => !th.helper).any fun u => u.pred k := by
  rw [Bool.eq_iff_iff, bne_iff_ne, Ne, voteMask, List.any_eq_true,
    laneSet_eq_zero_iff (voters_sublist h _), List.filter_eq_nil_iff]
  simp [voters, and_assoc]

theorem gredValue_of_fits {d a : Reg} {o : RedOp} {g : Tag} {ts : List Thread} (h : ∀ t ∈ ts, gredCause d a o g t = none) :
    gredValue d a o g ts = match (ts.filter fun t => !t.helper).map fun t => t.valAt a.toNat with
      | [] => identity o.amo g
      | v :: vs => vs.foldl (amoApply o.amo g) v := by
  have hall : (voters ts).filter (fun t => (gredCause d a o g t).isNone) = ts.filter fun t => !t.helper :=
    List.filter_eq_self.2 fun t ht => by simp [h t (List.mem_of_mem_filter ht)]
  unfold gredValue
  rw [hall]
  cases ts.filter fun t => !t.helper with
  | nil => rfl
  | cons t ts => simp [List.foldl_map]

/-- Settles O16: the mask's bits are the real lanes whose predicate is true; where every lane fits, GRED reduces over all real ones. -/
theorem votesReductions : Obligations.VotesReductions := by
  refine ⟨fun s tm j k d h => ⟨?_, ?_, ?_, fun hd => ⟨voteMask s.m.bundle k, fun l _ => ?_, ?_⟩⟩,
    fun s tm d a o g h hb hg hs hal => ?_⟩
  · refine becomes_of_predicate (w := voteSem (.all j) k) h rfl rfl (staticBad_of_blocks (bs := []) rfl rfl (by simp) rfl rfl) rfl
      fun th hth => congrArg (LaneOut.predicate th.ref j) (voteMask_all h k)
  · refine becomes_of_predicate (w := voteSem (.any j) k) h rfl rfl (staticBad_of_blocks (bs := []) rfl rfl (by simp) rfl rfl) rfl
      fun th hth => congrArg (LaneOut.predicate th.ref j) (voteMask_any h k)
  · refine becomes_of_predicate (w := voteSem (.uni j) k) h rfl rfl (staticBad_of_blocks (bs := []) rfl rfl (by simp) rfl rfl) rfl
      fun th hth => congrArg (LaneOut.predicate th.ref j) ?_
    rw [voteMask_all h k, ← voteMask_any h k, bne, Bool.not_not, Bool.or_comm]
  · rw [voteMask, laneSet_getLsbD (voters_sublist h _) l, List.any_filter, voters]
    simp only [Bool.and_comm]
  · refine becomes_of_regs (w := voteSem (.bal d) k) h rfl rfl
      (staticBad_of_blocks (bs := [(d.toNat, 1)]) rfl rfl (by simpa using hd) rfl rfl) rfl fun th hth => ?_
    rw [← valRegs_i32]
    rfl
  · have hc : ∀ th ∈ s.m.bundle, gredCause d a o g th = none := fun th hth => by
      obtain ⟨ht, hf⟩ := hs th hth
      simp only [gredCause, ht, hg, hf]
      by_cases h2 : g.regs = 2 <;> simp_all
    refine becomes_of_value (w := gredSem d a o) h rfl rfl hb rfl fun th hth => ?_
    obtain ⟨x, xs, hx⟩ := List.exists_cons_of_ne_nil h.lanes
    have hhead : x.tagAt a.toNat = g := (hs x (by simp [hx])).1
    refine Eq.trans ?_ (congrArg (LaneOut.value th.ref d.toNat g) (gredValue_of_fits hc))
    simp only [gredSem, laneWord, hx, hhead, hc th hth]

end Sys2Proof.Machine
end

section
/-! SUPPORT. Float words (03 R62, R63; 21 R312-R317; 22 R320-R328): a lane sets its flags and writes its result, or enters its handler. -/

namespace Sys2Proof.Machine

variable {s : State} {tm : Team}

theorem updThread_updThread (m : Mach) (t : TRef) {f g : Thread → Thread} (hf : ∀ x, (f x).ref = x.ref) :
    (m.updThread t f).updThread t g = m.updThread t fun x => g (f x) := by
  simp only [Mach.updThread, List.map_map]
  congr 1
  refine List.map_congr_left fun x _ => ?_
  by_cases hx : x.ref = t <;> simp [hx, hf]

/-- A thread whose flags have been set. -/
def Thread.flagged (x : Thread) (fl : Flags) : Thread := { x with ften := (raise x.ften fl).1 }

/-- A float word of one word: what each lane writes and which exceptions it meets. -/
theorem floats_of_out (h : Issues s tm) {i : Instr} {w : WordSem} {fl : Thread → Flags} {sub : Thread → SubVal}
    {wr : Thread → Thread → Thread} (he : exec i s = runWord w s) (hi : w.instr = i) (hoff : w.off = 0) (hz : w.instr.size = 1)
    (hb : staticBad s.m tm w.instr = false) (ho : w.once = fun _ m => m) (hr : ∀ th x, (wr th x).ref = x.ref)
    (hd : ∀ th v, dstOf s.m tm.regs s.m.bundle { th with ften := v } i = dstOf s.m tm.regs s.m.bundle th i)
    (hf : ∀ th ∈ s.m.bundle, w.lane s.m s.m.bundle th = floatOut th (fl th) (sub th) fun m => m.updThread th.ref (wr th)) :
    Floats i s tm fl sub wr := by
  refine ⟨fun hq => ?_, fun c hc => ?_⟩
  · refine becomes_of_update_one (g := fun th x => wr th (x.flagged (fl th))) h he hz hb ho (fun th x => hr _ _) fun th hth => ?_
    rw [hf th hth]
    simp only [floatOut, hq th hth]
    exact congrArg LaneOut.ok (funext fun m => updThread_updThread m th.ref fun _ => rfl)
  · have hlane : ∀ th ∈ s.m.bundle, w.lane s.m s.m.bundle th = .trap c 0 0 (sub th) (fun m => m.updThread th.ref (·.flagged (fl th)))
        (some fun m => (m.updThread th.ref (·.flagged (fl th))).updThread th.ref (wr th)) := fun th hth => by
      rw [hf th hth]
      simp only [floatOut, (hc th hth).2]
      rfl
    have hb' := becomes_of_trap (p := fun th x => x.flagged (fl th)) h he hi hoff (hi ▸ hb) (fun th hth => (hc th hth).1) hlane
      (fun _ _ => rfl) (fun _ _ => rfl) fun _ _ hx => hx
    have hent : (fun th => (trapInfo s tm i c 0 0 (sub th) th).into s.m.clk ((th.stopped s.m).flagged (fl th))) =
        fun th => Thread.entered { th with ften := (raise th.ften (fl th)).1 } s tm i c 0 0 (sub th) := by
      funext th
      simp only [Thread.entered, hd]
      rfl
    exact hent ▸ hb'

/-- A float word that writes one value. -/
theorem floats_of_value (h : Issues s tm) {i : Instr} {w : WordSem} {d : Reg} {g : Thread → Tag} {r : Thread → Nat × Flags}
    (he : exec i s = runWord w s) (hi : w.instr = i) (hoff : w.off = 0) (hz : w.instr.size = 1)
    (hb : staticBad s.m tm w.instr = false) (ho : w.once = fun _ m => m)
    (hd : ∀ th v, dstOf s.m tm.regs s.m.bundle { th with ften := v } i = dstOf s.m tm.regs s.m.bundle th i)
    (hf : ∀ th ∈ s.m.bundle, w.lane s.m s.m.bundle th = floatValue th d (g th) (r th)) :
    Floats i s tm (fun th => (r th).2) (fun th => { bits := BitVec.ofNat 128 (r th).1, tag := g th })
      fun th x => x.setRegs d.toNat (valRegs (g th) (r th).1) :=
  floats_of_out h he hi hoff hz hb ho (fun _ x => by simp) hd hf

theorem float2_of_fits {op : Fmt → Rm → Bool → Nat → Nat → Nat × Flags} {d a b : Reg} {th : Thread} {g : Tag}
    (h : th.Fits Tag.isFloat [a.toNat, b.toNat] [d.toNat, a.toNat, b.toNat] g) :
    float2 op d a b th = floatValue th d (th.tagAt a.toNat)
      (packF (th.tagAt a.toNat) (fun f => op f (frmRm th.frm) (frmFtz th.frm)) (th.valAt a.toNat) (th.valAt b.toNat)) := by
  unfold float2
  simp only [mould_of_fits h, tag_of_fits h]

/-- A word of the float mould. -/
theorem floats_of_float2 (h : Issues s tm) {i : Instr} {w : WordSem} {d a b : Reg} {op : Fmt → Rm → Bool → Nat → Nat → Nat × Flags}
    (hfit : ∀ th ∈ s.m.bundle, ∃ g, th.Fits Tag.isFloat [a.toNat, b.toNat] [d.toNat, a.toNat, b.toNat] g)
    (he : exec i s = runWord w s) (hi : w.instr = i) (hoff : w.off = 0) (hz : w.instr.size = 1)
    (hb : staticBad s.m tm w.instr = false) (ho : w.once = fun _ m => m)
    (hd : ∀ th v, dstOf s.m tm.regs s.m.bundle { th with ften := v } i = dstOf s.m tm.regs s.m.bundle th i)
    (hl : w.lane = fun _ _ t => float2 op d a b t) :
    let r (th : Thread) := packF (th.tagAt a.toNat) (fun f => op f (frmRm th.frm) (frmFtz th.frm)) (th.valAt a.toNat) (th.valAt b.toNat)
    Floats i s tm (fun th => (r th).2) (fun th => { bits := BitVec.ofNat 128 (r th).1, tag := th.tagAt a.toNat })
      fun th x => x.setRegs d.toNat (valRegs (th.tagAt a.toNat) (r th).1) :=
  floats_of_value h he hi hoff hz hb ho hd fun th hth => by
    obtain ⟨g, hg⟩ := hfit th hth
    exact hl ▸ float2_of_fits hg

theorem getLsbD_flag (x : Bool) {i : Nat} (hi : i < 32) (j : Nat) :
    (if x then BitVec.ofNat 32 (2 ^ i) else 0).getLsbD j = (x && j == i) := by
  cases x
  · simp
  · have h2 : BitVec.ofNat 32 (2 ^ i) = BitVec.twoPow 32 i := by
      apply BitVec.eq_of_toNat_eq
      rw [BitVec.toNat_ofNat, BitVec.toNat_twoPow]
    simp [h2, hi, Bool.beq_eq_decide_eq, eq_comm]

/-- Settles O10: the flags are five bits or-ed in; the cause is the first enabled one. -/
theorem floatFlags : Obligations.FloatFlags := by
  intro ften f es
  obtain ⟨iv, dz, ov, un, nx⟩ := f
  refine ⟨fun j => ?_, ?_⟩
  · simp only [raise, BitVec.getLsbD_or, getLsbD_flag _ (show 16 < 32 by decide), getLsbD_flag _ (show 17 < 32 by decide),
      getLsbD_flag _ (show 18 < 32 by decide), getLsbD_flag _ (show 19 < 32 by decide), getLsbD_flag _ (show 20 < 32 by decide)]
    simp [es, List.zipIdx, Bool.or_assoc]
  · simp only [raise, es, List.zipIdx, List.find?]
    cases iv && ften.getLsbD 0 <;> cases dz && ften.getLsbD 1 <;> cases ov && ften.getLsbD 2 <;> cases un && ften.getLsbD 3 <;>
      cases nx && ften.getLsbD 4 <;> rfl

/-- Settles O11: each word follows the float mould; FFMA takes D as a third source. -/
theorem floatArithmetic : Obligations.FloatArithmetic := by
  intro s tm d a b h
  refine ⟨fun hfit p hp hb => ?_, fun hfit hb => ?_⟩
  · simp only [List.mem_cons, List.not_mem_nil, or_false] at hp
    obtain rfl | rfl | rfl | rfl | rfl | rfl := hp
    · exact floats_of_float2 (w := faddSem d a b) h hfit rfl rfl rfl rfl hb rfl (fun _ _ => rfl) rfl
    · exact floats_of_float2 (w := fsubSem d a b) h hfit rfl rfl rfl rfl hb rfl (fun _ _ => rfl) rfl
    · exact floats_of_float2 (w := fmulSem d a b) h hfit rfl rfl rfl rfl hb rfl (fun _ _ => rfl) rfl
    · exact floats_of_float2 (w := fdivSem d a b) h hfit rfl rfl rfl rfl hb rfl (fun _ _ => rfl) rfl
    · exact floats_of_float2 (w := fminSem d a b) (op := fun f _ z => fMinMax false f z) h hfit rfl rfl rfl rfl hb rfl (fun _ _ => rfl) rfl
    · exact floats_of_float2 (w := fmaxSem d a b) (op := fun f _ z => fMinMax true f z) h hfit rfl rfl rfl rfl hb rfl (fun _ _ => rfl) rfl
  · refine floats_of_value (w := ffmaSem d a b) h rfl rfl rfl rfl hb rfl (fun _ _ => rfl) fun th hth => ?_
    obtain ⟨g, hg⟩ := hfit th hth
    simp only [ffmaSem, laneWord, mould_of_fits hg, tag_of_fits hg]

/-- Settles O12: the special functions share one mould, on F32. -/
theorem floatSpecialFunctions : Obligations.FloatSpecial := by
  intro s tm d a h ht p hp hb
  have hl : ∀ th ∈ s.m.bundle, floatSpecial p.2 d a th =
      floatValue th d .f32 (special p.2 (frmRm th.frm) (frmFtz th.frm) (th.reg a.toNat).bits.toNat) := fun th hth => by
    simp [floatSpecial, ht th hth]
  simp only [List.mem_cons, List.not_mem_nil, or_false] at hp
  obtain rfl | rfl | rfl | rfl | rfl | rfl | rfl := hp
  · exact floats_of_value (w := frcpSem d a) h rfl rfl rfl rfl hb rfl (fun _ _ => rfl) hl
  · exact floats_of_value (w := frsqSem d a) h rfl rfl rfl rfl hb rfl (fun _ _ => rfl) hl
  · exact floats_of_value (w := fsqrtSem d a) h rfl rfl rfl rfl hb rfl (fun _ _ => rfl) hl
  · exact floats_of_value (w := fex2Sem d a) h rfl rfl rfl rfl hb rfl (fun _ _ => rfl) hl
  · exact floats_of_value (w := flg2Sem d a) h rfl rfl rfl rfl hb rfl (fun _ _ => rfl) hl
  · exact floats_of_value (w := fsinSem d a) h rfl rfl rfl rfl hb rfl (fun _ _ => rfl) hl
  · exact floats_of_value (w := fcosSem d a) h rfl rfl rfl rfl hb rfl (fun _ _ => rfl) hl

theorem isFloat_fmtOf {g : Tag} (h : g.isFloat = true) : ∃ f, fmtOf g = some f := by
  cases g <;> first | exact ⟨_, rfl⟩ | cases h

/-- Settles O13: DOT4 by its two tag rules; FCLS writes class bits and raises nothing; FSET raises IV. -/
theorem dotClassCompare : Obligations.DotClassCompare := by
  intro s tm d a b k c h
  refine ⟨fun ht hb => ?_, fun ht hb => ?_, fun hfit hb => ?_, fun hfit hb => ?_⟩
  · refine floats_of_value (w := dot4Sem d a b) h rfl rfl rfl rfl hb rfl (fun _ _ => rfl) fun th hth => ?_
    obtain ⟨ha, hab, hd⟩ := ht th hth
    simp only [List.mem_cons, List.not_mem_nil, or_false] at ha
    obtain ha | ha := ha <;> simp [dot4Sem, laneWord, hab, ha, hd]
  · refine becomes_of_value (w := dot4Sem d a b) h rfl rfl hb rfl fun th hth => ?_
    obtain ⟨ha, hab, hd⟩ := ht th hth
    simp [dot4Sem, laneWord, hab, ha, hd, dot4Int]
  · refine becomes_of_value (w := fclsSem d a) h rfl rfl hb rfl fun th hth => ?_
    obtain ⟨g, hg⟩ := hfit th hth
    obtain ⟨f, hf⟩ := isFloat_fmtOf hg.accepted
    simp [fclsSem, laneWord, mould_of_fits hg, tag_of_fits hg, classBits, hf]
  · refine floats_of_out (w := fsetSem k a b c) (wr := fun th x => x.setPred k _) h rfl rfl rfl rfl hb rfl (fun _ x => by simp)
      (fun _ _ => rfl) fun th hth => ?_
    obtain ⟨g, hg⟩ := hfit th hth
    obtain ⟨f, hf⟩ := isFloat_fmtOf hg.accepted
    simp only [fsetSem, laneWord, mould_of_fits hg, tag_of_fits hg, hf, Option.getD_some]

/-- Settles O14: the checks of the block pass; the values are the model's, element by element. -/
theorem conversions : Obligations.Conversions := by
  intro s tm d a sat rm tgt h hb g n ks kd hfit r v
  refine floats_of_out (w := cvtSem d a sat rm tgt) (wr := fun th x => x.setRegs d.toNat (((v th).map (valRegs tgt)).flatten)) h rfl rfl
    rfl rfl hb rfl (fun _ x => by simp) (fun _ _ => rfl) fun th hth => ?_
  obtain ⟨hdata, hsame, ha, hd, hla, hld⟩ := hfit th hth
  have htag : (!(g th).isData || (List.range (ks th)).any (fun i => decide (a.toNat + i < th.regs.length) &&
      th.tagAt (a.toNat + i) != g th)) = false := by
    simp only [hdata, Bool.not_true, Bool.false_or, List.any_eq_false, List.mem_range]
    intro j hj
    simp [hsame j hj]
  have hal : (a.toNat % ks th != 0 || d.toNat % kd th != 0 || decide (th.regs.length < a.toNat + ks th)
      || decide (th.regs.length < d.toNat + kd th)) = false := by
    simp [ha, hd, hla, hld]
  refine (if_neg (by rw [htag]; decide)).trans ((if_neg (by rw [hal]; decide)).trans ?_)
  have hv : (th.valuesAt a.toNat (g th) (n th / elemN (g th))).map (elems (g th)) = (List.range (n th / elemN (g th))).map fun j =>
      elems (g th) (bitsOf (th.block (a.toNat + j * (g th).regs) (g th).regs)) := by
    simp [Thread.valuesAt, Function.comp_def]
  simp only [v, r]
  rw [← hv]
  rfl

end Sys2Proof.Machine
end

section
/-! SUPPORT. Control words (04 R81, R82; 16 R240-R245; 21 R307-R310; 23 R355, R357; 24 R369). -/

namespace Sys2Proof.Machine

variable {s : State} {tm : Team}

/-! ### Combining what is known of words -/

theorem Becomes.congr {i : Instr} {f g : Thread → Thread} (h : Becomes i s f) (hfg : ∀ th ∈ s.m.bundle, f th = g th) : Becomes i s g := by
  obtain ⟨t, he, ho, ht⟩ := h
  exact ⟨t, he, ho, fun th hth => by rw [ht th hth, hfg th hth]⟩

theorem onlyPref_noteTargets (ts : List Thread) : OnlyPref (noteTargets ts) := by
  intro m
  unfold noteTargets
  dsimp only
  split
  · exact onlyPref_id m
  · exact ⟨fun _ => (_, m.clk), rfl⟩

/-- A control word of one word that updates each lane's thread, and its group's preference. -/
theorem becomes_of_jump (h : Issues s tm) {i : Instr} {w : WordSem} {g : Thread → Thread → Thread} {f : Thread → Thread}
    (he : exec i s = runWord w s) (hz : w.instr.size = 1) (hb : staticBad s.m tm w.instr = false) (ho : ∀ ts, OnlyPref (w.once ts))
    (hg : ∀ th x, (g th x).ref = x.ref) (hf : ∀ th ∈ s.m.bundle, w.lane s.m s.m.bundle th = .ok fun m => m.updThread th.ref (g th))
    (hfg : ∀ th ∈ s.m.bundle, g th (th.onward s.m 1) = f th) : Becomes i s f :=
  Becomes.congr (f := fun th => g th (th.onward s.m 1)) (hz ▸ becomes_of_update_pref h he hb ho hg hf) hfg

/-! ### Jumps -/

theorem Thread.pairAt_of_i64 {t : Thread} {a : Reg} (ht : t.tagAt a.toNat = .i64) (hf : t.formed a.toNat = true) :
    t.pairAt a = some (t.valAt a.toNat) := by
  simp [Thread.pairAt, ht, hf]

theorem jumpLane_of_pair {t : Thread} {a : Reg} (ht : t.tagAt a.toNat = .i64) (hf : t.formed a.toNat = true) :
    jumpLane a t = if t.valAt a.toNat % 3 = 0 then .ok fun m => m.updThread t.ref fun x => { x with pc := BitVec.ofNat 64 (t.valAt a.toNat) }
      else .trap 0x20 (BitVec.ofNat 64 (t.valAt a.toNat)) 0 sub0 id none := by
  unfold jumpLane
  rw [Thread.pairAt_of_i64 ht hf]
  by_cases h : t.valAt a.toNat % 3 = 0 <;> simp [h]

/-- A word that jumps to the address in a pair. -/
theorem jump_of_pair (h : Issues s tm) {a : Reg} {i : Instr} {w : WordSem}
    (hp : ∀ th ∈ s.m.bundle, th.tagAt a.toNat = .i64 ∧ th.formed a.toNat = true)
    (he : exec i s = runWord w s) (hi : w.instr = i) (hoff : w.off = 0) (hz : w.instr.size = 1) (hb : staticBad s.m tm i = false)
    (ho : w.once = noteTargets) (hl : w.lane = fun _ _ t => jumpLane a t) :
    ((∀ th ∈ s.m.bundle, th.valAt a.toNat % 3 = 0) →
      Becomes i s fun th => { th.onward s.m 1 with pc := BitVec.ofNat 64 (th.valAt a.toNat) }) ∧
    ((∀ th ∈ s.m.bundle, th.canEnter ∧ th.valAt a.toNat % 3 ≠ 0) →
      Becomes i s fun th => th.entered s tm i 0x20 (BitVec.ofNat 64 (th.valAt a.toNat)) 0 sub0) := by
  refine ⟨fun hv => ?_, fun hv => ?_⟩
  · refine becomes_of_jump (g := fun th x => { x with pc := BitVec.ofNat 64 (th.valAt a.toNat) }) h he hz (hi ▸ hb)
      (fun ts => ho ▸ onlyPref_noteTargets ts) (fun _ _ => rfl) (fun th hth => ?_) fun _ _ => rfl
    rw [hl]
    exact (jumpLane_of_pair (hp th hth).1 (hp th hth).2).trans (if_pos (hv th hth))
  · refine becomes_of_plain_trap (alt := fun _ => none) h he hi hoff hb (fun th hth => (hv th hth).1) fun th hth => ?_
    rw [hl]
    exact (jumpLane_of_pair (hp th hth).1 (hp th hth).2).trans (if_neg (hv th hth).2)

/-! ### Team faults (16 R242, R245) -/

/-- A team that has met a team fault. -/
def Team.faulted (r : Record) (t : Team) : Team := { t with status := .stopping, fault := some r, fp := false, known := [], latent := [] }

theorem Mach.teamFault_running {m : Mach} {u : Nat} {t : Team} (h : m.team? u = some t) (hs : t.status = .running) (r : Record) :
    m.teamFault u r = (((m.dropMerges u).settleTiles u).dropBatches u).updTeam u (Team.faulted r) := by
  simp only [Mach.teamFault, h, hs]
  rfl

theorem Mach.team?_teamFault {m : Mach} {u : Nat} {t : Team} (h : m.team? u = some t) (hs : t.status = .running) (r : Record) :
    (m.teamFault u r).team? u = some (t.faulted r) := by
  rw [Mach.teamFault_running h hs]
  refine (Mach.team?_updTeam _ _ (Team.faulted r) fun _ => rfl).trans ?_
  exact congrArg (Option.map _) h

/-- A thread of a team loses the tile operations that no queue backs. -/
def Thread.backed (m : Mach) (u : Nat) (t : Thread) : Thread :=
  if t.ref.team == u then { t with ops := t.ops.filter fun o => !o.tile || m.tileq.any fun q => q.op == o.id } else t

theorem Thread.backed_of_no_ops {m : Mach} {u : Nat} {t : Thread} (h : t.ops = []) : t.backed m u = t := by
  unfold Thread.backed
  split
  · rw [h, List.filter_nil, ← h]
  · rfl

theorem Mach.thread?_settleTiles (m : Mach) (u : Nat) (v : TRef) : (m.settleTiles u).thread? v = (m.thread? v).map (Thread.backed m u) :=
  find_map_of_ref _ (Thread.backed m u) (by intro x; unfold Thread.backed; split <;> rfl) _

/-- A thread without operations in a team that faults changes in nothing. -/
theorem Mach.thread?_teamFault {m : Mach} {u : Nat} {t : Team} (h : m.team? u = some t) (hs : t.status = .running) (r : Record)
    {v : TRef} {x : Thread} (hx : m.thread? v = some x) (hops : x.ops = []) : (m.teamFault u r).thread? v = some x := by
  rw [Mach.teamFault_running h hs]
  change ((m.dropMerges u).settleTiles u).thread? v = _
  rw [Mach.thread?_settleTiles]
  change (m.thread? v).map _ = _
  rw [hx]
  exact congrArg some (Thread.backed_of_no_ops hops)

theorem Mach.teamFault_rest {m : Mach} {u : Nat} {t : Team} (h : m.team? u = some t) (hs : t.status = .running) (r : Record) :
    (m.teamFault u r).cur = m.cur ∧ (m.teamFault u r).mem = m.mem ∧ (m.teamFault u r).trace = m.trace := by
  rw [Mach.teamFault_running h hs]
  exact ⟨rfl, rfl, rfl⟩

/-- Memory stands in a machine that differs from the one before only elsewhere, but for a trace record. -/
theorem keeps_of_log {m : Mach} {tr : Option (DWord × Word × Nat)} (ht : s.sys.debug ≠ .trace → tr = none) (hmem : m.mem = s.m.mem)
    (htrace : m.trace = s.m.trace) : s.Keeps { s with m := m.log tr } := by
  intro a ha
  by_cases hd : s.sys.debug = .trace
  · have hw : s.m.mem.wf = true ∧ ¬ (s.m.traceAt ≤ a ∧ a < s.m.traceAt + 16) := by
      simpa only [State.mayTrace, hd, true_and, Classical.not_imp] using ha
    have hat : m.traceAt = s.m.traceAt := by simp only [Mach.traceAt, htrace]
    show (m.log tr).mem.get a = s.m.mem.get a
    rw [Mach.log_mem tr (by rw [hmem]; exact hw.1) (by rw [hat]; exact hw.2), hmem]
  · show (m.log tr).mem.get a = s.m.mem.get a
    rw [ht hd, Mach.log_none, hmem]

theorem Mach.thread?_updThread_same {m : Mach} {r : TRef} {x : Thread} {f : Thread → Thread} (hx : m.thread? r = some x)
    (hf : ∀ x, (f x).ref = x.ref) : (m.updThread r f).thread? r = some (f x) := by
  rw [Mach.thread?_updThread _ _ _ _ hf, if_pos rfl, hx]; rfl

theorem Mach.thread?_log (m : Mach) (r : Option (DWord × Word × Nat)) (v : TRef) : (m.log r).thread? v = m.thread? v := by
  cases r <;> rfl

theorem Mach.team?_log (m : Mach) (r : Option (DWord × Word × Nat)) (u : Nat) : (m.log r).team? u = m.team? u := by
  cases r <;> rfl

/-! ### A lone lane whose exception is a team fault -/

/-- The record of an exception that is a team fault. -/
def TrapInfo.record (i : TrapInfo) (tm : Team) (t : TRef) (kind : Nat) : Record := {
  addr := i.addr, inst := i.inst, taskid := tm.taskid, mask := i.mask, exc := i.exc, cause := i.cause, kind := kind
  core := tm.core, tslot := tm.slot, group := t.tidx / 32 }

/-- The kind of an exception's team fault, where it is one: of a lane in a handler 9, of one with no handler 8 (R242). -/
def Thread.FaultKind (th : Thread) (kind : Nat) : Prop := th.handlerActive = true ∧ kind = 9 ∨ th.handlerActive = false ∧ th.utvec = 0 ∧ kind = 8

theorem Mach.takeTrap_faults {m : Mach} {t : TRef} {th : Thread} {tm : Team} {kind : Nat} (hth : m.thread? t = some th)
    (htm : m.team? t.team = some tm) (hops : th.ops = []) (hk : th.FaultKind kind) (i : TrapInfo) :
    m.takeTrap t i = (m.updThread t fun x => { x with wait := .ready }).teamFault t.team (i.record tm t kind) := by
  have hr : th.resultsDue = false := by simp [Thread.resultsDue, hops]
  obtain ⟨ha, rfl⟩ | ⟨ha, hu, rfl⟩ := hk
  · simp only [Mach.takeTrap, Mach.enter, hth, htm, hr, ha]
    rfl
  · simp only [Mach.takeTrap, Mach.enter, hth, htm, hr, ha, hu]
    rfl

/-- A word that traps in a lone lane for which the exception is a team fault. -/
theorem teamStops_of_trap {th : Thread} (h : Lone s tm th) {i : Instr} {w : WordSem} {c : Nat} {a : DWord} {sv : SubVal}
    {alt : Option (Mach → Mach)} {kind : Nat} (hrun : tm.status = .running) (hops : th.ops = []) (hk : th.FaultKind kind)
    (he : exec i s = runWord w s) (hoff : w.off = 0) (hb : staticBad s.m tm w.instr = false)
    (hf : w.lane s.m s.m.bundle th = .trap c a 0 sv id alt) : TeamStops i s tm th kind c a := by
  have hmem : th ∈ s.m.bundle := by simp [h.bundle]
  have huid : th.ref.team = tm.uid := (bundle_team hmem).trans (team?_uid h.issues.team).symm
  have hall : ∀ x ∈ s.m.bundle, x = th := fun x hx => by simpa [h.bundle] using hx
  have hv := verdicts_trap (a := fun _ => a) (e := fun _ => 0) (sv := fun _ => sv) (pre := fun _ => id) (alt := fun _ => alt) h.issues hb
    (fun x hx => hall x hx ▸ h.real) (fun x hx => hall x hx ▸ hf)
  have hchain := runChain_trap h.issues hoff hv
  obtain ⟨tr, ht, hw⟩ := runWord_trace w s
  have hteam : (s.m.countIssue [th.ref]).team? th.ref.team = some tm := bundle_team? h.issues hmem
  have hth : (s.m.countIssue [th.ref]).thread? th.ref = some (th.stopped s.m) := by
    rw [Mach.thread?_countIssue]; simp [h.issues.named th hmem]
  simp only [h.bundle, refs, List.map_cons, List.map_nil, List.foldl_cons, List.foldl_nil, id] at hchain
  rw [Mach.takeTrap_faults hth hteam hops hk] at hchain
  set m1 := (s.m.countIssue [th.ref]).updThread th.ref fun x => { x with wait := .ready } with hm1
  set r := (trapInfo s tm w.instr c a 0 sv th).record tm th.ref kind with hr
  have hteam1 : m1.team? th.ref.team = some tm := hteam
  have hth1 : m1.thread? th.ref = some { th.stopped s.m with wait := .ready } := Mach.thread?_updThread_same hth fun _ => rfl
  obtain ⟨hcur, hmem', htrace⟩ := Mach.teamFault_rest hteam1 hrun r
  have hteam2 := Mach.team?_teamFault hteam1 hrun r
  have hth2 := Mach.thread?_teamFault hteam1 hrun r hth1 hops
  rw [Mach.skidReport_quiet (tm := tm.faulted r) ?_ rfl] at hchain
  · rw [hchain] at hw
    refine ⟨_, tm.faulted r, { th.stopped s.m with wait := .ready }, he.trans hw, ?_, rfl, ?_, ?_, rfl, rfl, rfl, rfl, keeps_of_log ht hmem' htrace⟩
    · show (((m1.teamFault th.ref.team r).rebundle [] [th.ref]).log tr).team? tm.uid = _
      rw [Mach.team?_log, ← huid]
      exact hteam2
    · show some r = some _
      simp only [hr, TrapInfo.record, trapInfo, h.bundle]
    · show (((m1.teamFault th.ref.team r).rebundle [] [th.ref]).log tr).thread? th.ref = _
      rw [Mach.thread?_log]
      exact hth2
  · show (m1.teamFault th.ref.team r).team? (m1.teamFault th.ref.team r).cur.team = _
    rw [hcur]
    show (m1.teamFault th.ref.team r).team? s.m.cur.team = _
    rw [← bundle_team hmem]
    exact hteam2

/-! ### RTE and RTE.sub (16 R243, 23 R357) -/

/-- A thread whose destination takes FLT_SUB. -/
def Thread.substituted (sb : Subst) (x : Thread) : Thread :=
  match sb.dst with
  | .none => x
  | .pred k => x.setPred k (sb.sub.bits.getLsbD 0)
  | .regs d _ vals => x.setRegs d ((List.replicate vals (valRegs sb.sub.tag sb.sub.bits.toNat)).flatten)

@[simp] theorem Thread.substituted_ref (sb : Subst) (x : Thread) : (x.substituted sb).ref = x.ref := by
  unfold Thread.substituted; split <;> simp

theorem Thread.substituted_written (sb : Subst) (x : Thread) : (x.substituted sb).written = x.written := by
  unfold Thread.substituted; split <;> simp

theorem Subst.write_eq (sb : Subst) (t : TRef) : sb.write t = fun m => m.updThread t (Thread.substituted sb) := by
  funext m
  obtain ⟨addr, dst, sub⟩ := sb
  cases dst with
  | none => exact (updThread_same m t).symm
  | pred k => rfl
  | regs d g n => rfl

/-- What a return makes of a thread. -/
def Thread.returned (sub : Bool) (x : Thread) : Thread :=
  if x.written then { x with handlerActive := false, pc := x.fltPc }
  else { x with
    handlerActive := false, pc := x.resume
    subst := if sub then some { addr := x.fltPc, dst := x.fltDst, sub := x.fltSub } else none }

/-- What RTE and RTE.sub make of the thread of a lane that stood at `th` before the chain. -/
def Thread.rteWith (sub : Bool) (th x : Thread) : Thread :=
  (if sub && th.written then x.substituted { addr := th.fltPc, dst := th.fltDst, sub := th.fltSub } else x).returned sub

theorem Thread.rteWith_ref (sub : Bool) (th x : Thread) : (Thread.rteWith sub th x).ref = x.ref := by
  unfold Thread.rteWith Thread.returned
  split <;> split <;> simp

theorem Thread.rteWith_written {th : Thread} (h : th.written = true) (x : Thread) :
    Thread.rteWith true th x = (x.substituted { addr := th.fltPc, dst := th.fltDst, sub := th.fltSub }).returned true := by
  simp [Thread.rteWith, h]

theorem Thread.rteWith_unwritten {th : Thread} (h : th.written = false) (sub : Bool) (x : Thread) :
    Thread.rteWith sub th x = x.returned sub := by
  simp [Thread.rteWith, h]

theorem returnTrap_eq (m : Mach) (t : TRef) (sub : Bool) : m.returnTrap t sub = m.updThread t (Thread.returned sub) := rfl

section
variable {m : Mach} {ts : List Thread} {th : Thread} {sub : Bool}

/-- No lane strikes the bundle where all are in their handlers. -/
theorem rte_legal {p : Thread → Bool} (hall : ∀ u ∈ ts, u.handlerActive = true) (hth : th.handlerActive = true) :
    ¬ (!th.handlerActive || ts.any fun u => !u.helper && !u.handlerActive && p u) = true := by
  simp only [hth, Bool.not_true, Bool.false_or, List.any_eq_true, not_exists, not_and]
  intro u hu
  simp [hall u hu]

/-- A lane in its handler, all of its bundle in theirs, whose return is not misaligned. -/
theorem rte_lane_ok (hall : ∀ u ∈ ts, u.handlerActive = true) (hth : th.handlerActive = true) (hs : sub = true → subFits th = true)
    (hw : th.written = true → th.fltPc.toNat % 3 = 0) :
    (rteSem sub).lane m ts th = .ok fun m => m.updThread th.ref (Thread.rteWith sub th) := by
  have hfit : (sub && !subFits th) = false := by cases sub <;> simp_all
  have hal : (th.written && th.fltPc.toNat % 3 != 0) = false := by
    cases hc : th.written <;> simp_all
  refine (if_neg (rte_legal hall hth)).trans ((if_neg (by rw [hfit]; decide)).trans ((if_neg (by rw [hal]; decide)).trans ?_))
  refine congrArg LaneOut.ok (funext fun m => ?_)
  unfold Thread.rteWith
  cases hc : sub && th.written
  · rfl
  · simp only [Subst.write_eq, returnTrap_eq, if_true]
    exact updThread_updThread m th.ref fun x => by simp

theorem rte_lane_misaligned (hall : ∀ u ∈ ts, u.handlerActive = true) (hth : th.handlerActive = true)
    (hs : sub = true → subFits th = true) (hw : th.written = true) (hp : th.fltPc.toNat % 3 ≠ 0) :
    (rteSem sub).lane m ts th = .trap 0x20 th.fltPc 0 sub0 id none := by
  have hfit : (sub && !subFits th) = false := by cases sub <;> simp_all
  refine (if_neg (rte_legal hall hth)).trans ((if_neg (by rw [hfit]; decide)).trans (if_pos ?_))
  simp [hw, hp]

end

theorem subFits_of_width {th : Thread} (h : ∀ d g n, th.fltDst = .regs d g n → th.fltSub.tag.width = g.width) : subFits th = true := by
  unfold subFits
  split
  · next d g n hd => simpa using h d g n hd
  · rfl

theorem rte_admitted (m : Mach) (tm : Team) (sub : Bool) : staticBad m tm (.rte sub) = false :=
  staticBad_of_blocks (bs := []) rfl rfl (by simp) rfl rfl

/-- RTE or RTE.sub in lanes that are all in their handlers. -/
theorem becomes_rte (h : Issues s tm) {sub : Bool} {f : Thread → Thread} (hall : ∀ th ∈ s.m.bundle, th.handlerActive = true)
    (hs : sub = true → ∀ th ∈ s.m.bundle, subFits th = true)
    (hw : ∀ th ∈ s.m.bundle, th.written = true → th.fltPc.toNat % 3 = 0)
    (hf : ∀ th ∈ s.m.bundle, Thread.rteWith sub th (th.onward s.m 1) = f th) : Becomes (.rte sub) s f :=
  becomes_of_jump (w := rteSem sub) (g := Thread.rteWith sub) h rfl rfl (rte_admitted _ _ _) onlyPref_noteTargets
    (Thread.rteWith_ref sub) (fun th hth => rte_lane_ok hall (hall th hth) (fun h => hs h th hth) (hw th hth)) hf

/-- Settles O18: BRX and RET by the pair, RTE by FLT_PC; a misaligned FLT_PC is a trap in a handler, hence a team fault. -/
theorem jumps : Obligations.Jumps := by
  intro s tm h
  refine ⟨fun a hp i hi hb => ?_, fun hall => ?_, fun th sub hl hrun hops ha hw hp hs => ?_⟩
  · simp only [List.mem_cons, List.not_mem_nil, or_false] at hi
    obtain rfl | rfl := hi
    · exact jump_of_pair (w := brxSem a) h hp rfl rfl rfl rfl hb rfl rfl
    · exact jump_of_pair (w := retSem a) h hp rfl rfl rfl rfl hb rfl rfl
  · refine becomes_rte h (fun th hth => (hall th hth).1) (fun hc => by cases hc) (fun th hth _ => (hall th hth).2.2) fun th hth => ?_
    exact if_pos (hall th hth).2.1
  · have hall : ∀ u ∈ s.m.bundle, u.handlerActive = true := fun u hu => by
      rw [show u = th by simpa [hl.bundle] using hu, ha]
    exact teamStops_of_trap (w := rteSem sub) hl hrun hops (.inl ⟨ha, rfl⟩) rfl rfl (rte_admitted _ _ _)
      (rte_lane_misaligned hall ha (fun hc => subFits_of_width (hs hc)) hw hp)

/-! ### A word in whose place FLT_SUB stands (16 R243) -/

theorem trap_admitted (m : Mach) (tm : Team) (code : BitVec 7) : staticBad m tm (.trap code) = false :=
  staticBad_of_blocks (bs := []) rfl rfl (by simp) rfl rfl

theorem semOf_off (d : DebugState) (i : Instr) : (semOf d i).off = 0 := by cases i <;> rfl

theorem Mach.replaced_first {m : Mach} {th : Thread} {sb : Subst} (hsb : th.subst = some sb) (ha : sb.addr = m.cur.pc) :
    m.replaced th 0 = true := by
  simp [Mach.replaced, hsb, ha, Mach.wordAddr]

theorem verdicts_replaced {w : WordSem} {m : Mach} {th : Thread} {sb : Subst} (htm : m.team? m.cur.team = some tm) (hoff : w.off = 0)
    (hbun : m.bundle = [th]) (hsb : th.subst = some sb) (ha : sb.addr = m.cur.pc) :
    verdicts [w] m = [(th, .pass [sb.write th.ref])] := by
  have hrep := Mach.replaced_first hsb ha
  have hw0 : sb.addr = m.wordAddr 0 := by simp [ha, Mach.wordAddr]
  have hv : ∀ o, verdictOf m tm [th] [w] o th = .pass [sb.write th.ref] := fun o => by
    simp [verdictOf, hsb, hoff, hrep, firstStatic, judge, wordOut, hw0]
  unfold verdicts
  simp only [htm, hbun, List.map_cons, List.map_nil, hv]
  refine Mach.joinWalks_pass _ _ _ fun p hp => ?_
  rw [List.mem_singleton.1 hp]
  exact ⟨_, rfl⟩

/-- The chain of a word in whose place FLT_SUB stands: its destination takes FLT_SUB, and the lane goes on. -/
theorem runChain_replaced {w : WordSem} {m : Mach} {th : Thread} {sb : Subst} (len : Nat) (htm : m.team? m.cur.team = some tm)
    (hoff : w.off = 0) (hbun : m.bundle = [th]) (hsb : th.subst = some sb) (ha : sb.addr = m.cur.pc) :
    runChain [w] len m = ((sb.write th.ref (m.advance [th.ref] (m.wordAddr len))).rebundle [th.ref] []).skidReport := by
  have hrep := Mach.replaced_first hsb ha
  unfold runChain
  simp only [htm, verdicts_replaced htm hoff hbun hsb ha]
  cases hc : w.ctl <;>
    simp [applyChain, applyWord, hc, hoff, hrep, takeTraps, parksOf, parkLanes, startWalks, Mach.countIssue_nil]

/-- How bundles stand is no part of the seats. -/
theorem seats_rebundle (s : State) (m : Mach) (a b : List TRef) (hc : m.cur = s.m.cur) (hg : m.groups = s.m.groups) :
    ((m.rebundle a b).groups.map fun g => if g.team == s.m.cur.team && g.index == s.m.cur.group then g.bare else g) = s.seats s := by
  simp only [State.seats, Mach.rebundle, Mach.updGroup, List.map_map, hc, hg]
  refine List.map_congr_left fun g _ => ?_
  simp only [Function.comp]
  by_cases hx : (g.team == s.m.cur.team && g.index == s.m.cur.group) = true
  · simp only [hx, if_true, Group.bare]
  · simp [hx]

/-- What stands after a word that has changed only threads of the bundle. -/
theorem becomes_of_threads {ts : List Thread} {i : Instr} {f : Thread → Thread} {a b : List TRef}
    {tr : Option (DWord × Word × Nat)} (ht : s.sys.debug ≠ .trace → tr = none)
    (hout : ∀ u, (∀ th ∈ s.m.bundle, th.ref ≠ u) → ts.find? (fun x => x.ref == u) = s.m.thread? u)
    (hin : ∀ th ∈ s.m.bundle, ts.find? (fun x => x.ref == th.ref) = some (f th))
    (he : exec i s = .next { s with m := (({ s.m with threads := ts } : Mach).rebundle a b).log tr }) : Becomes i s f := by
  refine ⟨_, he, ⟨?_, fun u hu => ?_, ?_, fun hd => ?_, keeps_of_log ht rfl rfl⟩, fun th hth => ?_⟩
  · cases tr <;> rfl
  · exact (Mach.thread?_log _ _ _).trans (hout u hu)
  · have hg : ((({ s.m with threads := ts } : Mach).rebundle a b).log tr).groups = (({ s.m with threads := ts } : Mach).rebundle a b).groups := by
      cases tr <;> rfl
    show ((({ s.m with threads := ts } : Mach).rebundle a b).log tr).groups.map _ = _
    rw [hg]
    exact seats_rebundle s { s.m with threads := ts } a b rfl rfl
  · rw [ht hd]; rfl
  · exact (Mach.thread?_log _ _ _).trans (hin th hth)

/-- Settles O19. -/
theorem trapsAndReturns : Obligations.TrapsAndReturns := by
  refine ⟨fun s tm code h => ⟨fun hc => ?_, fun th hl hrun hops => ⟨fun ha => ?_, fun ha hu => ?_⟩, fun hall => ?_, fun hall => ⟨?_, ?_⟩,
    fun hc sub => ?_⟩, fun s tm th sb i hi htm hq hbun hth hwait hsb haddr => ?_⟩
  · exact becomes_of_plain_trap (w := trapSem code) (alt := fun _ => none) h rfl rfl rfl (trap_admitted _ _ _) hc fun _ _ => rfl
  · exact teamStops_of_trap (w := trapSem code) hl hrun hops (.inl ⟨ha, rfl⟩) rfl rfl (trap_admitted _ _ _) rfl
  · exact teamStops_of_trap (w := trapSem code) hl hrun hops (.inr ⟨ha, hu, rfl⟩) rfl rfl (trap_admitted _ _ _) rfl
  · exact becomes_rte h (fun th hth => (hall th hth).1) (fun hc => by cases hc) (fun th hth hw => by simp [(hall th hth).2] at hw)
      fun th hth => if_neg (by simp [Thread.onward, (hall th hth).2])
  · intro hw
    refine becomes_rte h (fun th hth => (hall th hth).1) (fun _ th hth => subFits_of_width (hall th hth).2)
      (fun th hth hw' => by simp [hw th hth] at hw') fun th hth => ?_
    rw [Thread.rteWith_unwritten (hw th hth)]
    exact if_neg (by simp [Thread.onward, hw th hth])
  · intro hw
    refine becomes_rte h (fun th hth => (hall th hth).1) (fun _ th hth => subFits_of_width (hall th hth).2)
      (fun th hth _ => (hw th hth).2) fun th hth => ?_
    rw [Thread.rteWith_written (hw th hth).1]
    refine (if_pos (by simp [Thread.substituted_written, Thread.onward, (hw th hth).1])).trans ?_
    unfold Thread.substituted
    cases th.fltDst with
    | none => rfl
    | pred k =>
      dsimp only
      congr 1
      simp [Thread.onward]
    | regs r g n =>
      dsimp only
      congr 1
      simp [Thread.onward]
  · refine becomes_of_plain_trap (w := rteSem sub) (alt := fun _ => none) h rfl rfl rfl (rte_admitted _ _ _) hc fun th hth => if_pos ?_
    simp [(hc th hth).2.2.1]
  · obtain ⟨tr, ht, hw⟩ := runWord_trace (semOf s.sys.debug i) s
    rw [runChain_replaced _ htm (semOf_off _ i) hbun hsb haddr, semOf_instr, Subst.write_eq] at hw
    have h1 : (s.m.advance [th.ref] (s.m.wordAddr i.size)).thread? th.ref = some (th.onward s.m i.size) := by
      rw [Mach.thread?_goOn, hth]; simp
    have hupd := fun v => Mach.thread?_updThread (s.m.advance [th.ref] (s.m.wordAddr i.size)) th.ref v (Thread.substituted sb) fun x => by simp
    have hquiet : (((s.m.advance [th.ref] (s.m.wordAddr i.size)).updThread th.ref (Thread.substituted sb)).rebundle [th.ref] []).skidReport =
      ((s.m.advance [th.ref] (s.m.wordAddr i.size)).updThread th.ref (Thread.substituted sb)).rebundle [th.ref] [] :=
      Mach.skidReport_quiet (tm := tm) htm hq
    dsimp only at hw
    rw [hquiet] at hw
    refine (becomes_of_threads (f := fun x => (x.onward s.m i.size).substituted sb) ht (fun u hu => ?_) (fun x hx => ?_)
      ((exec_word i s hi).trans hw)).congr fun x _ => rfl
    · have hne : u ≠ th.ref := fun he => hu th (by simp [hbun]) he.symm
      refine (hupd u).trans ((if_neg hne).trans ?_)
      rw [Mach.thread?_goOn]
      simp [hne]
    · obtain rfl : x = th := by simpa [hbun] using hx
      refine (hupd x.ref).trans ((if_pos rfl).trans ?_)
      rw [h1]
      rfl

end Sys2Proof.Machine
end

section
/-! SUPPORT. CALL below packet 0 (21 R307, R308): the state that refutes O17. -/

namespace Sys2Proof.Machine

/-- A lane with a handler, about to issue the word at word address 3. -/
def callLane : Thread := { startThread { team := 1, tidx := 0 } false 16 3 0 with utvec := 300 }

def callTeam : Team := (benchLaunch 1).team 1 0 0 0 0 0

def callState : State := {
  m := { Mach.reset with cur := { team := 1, group := 0, lanes := [0], pc := 3, words := [] }, threads := [callLane], teams := [callTeam] }
  sys := Sys.reset, agenda := [], rr := 0 }

/-- CALL two packets back, to a place below packet 0, in every lane. -/
def callBelow : Instr := .call .none 0 false 0x7FFFE

theorem callState_bundle : callState.m.bundle = [callLane] := rfl

theorem callState_issues : Issues callState callTeam where
  team := rfl
  lanes := by simp [callState_bundle]
  named := by
    intro th hth
    rw [callState_bundle, List.mem_singleton] at hth
    subst hth
    rfl
  apart := by simp [callState_bundle]
  whole := by
    intro th hth
    rw [callState_bundle, List.mem_singleton] at hth
    subst hth
    rfl
  ready := by
    intro th hth
    rw [callState_bundle, List.mem_singleton] at hth
    subst hth
    rfl
  narrow := by decide
  quiet := rfl

/-- FLT_SUB's tag in the lane after a word. -/
def subTagAfter (i : Instr) (s : State) : Option Tag :=
  match exec i s with
  | .next t => (t.m.thread? callLane.ref).map fun x => x.fltSub.tag
  | _ => none

theorem subTagAfter_callBelow : subTagAfter callBelow callState = some .i64 := by decide

/-- Refutes O17: CALL to below packet 0 leaves in FLT_SUB 0 with the tag of its destination, the link pair's I64, not RAW. -/
theorem not_branches : ¬ Obligations.Branches := by
  intro hall
  obtain ⟨-, hbelow⟩ := hall callState callTeam .none 0 false 0x7FFFE callState_issues
  have hcan : ∀ th ∈ callState.m.bundle, th.pred 0 ≠ false → th.canEnter := fun th hth _ => by
    rw [callState_bundle, List.mem_singleton] at hth
    subst hth
    exact ⟨rfl, by decide, rfl, rfl⟩
  have hcall := hbelow (by decide) hcan callBelow (by simp [callBelow]) (by decide)
  obtain ⟨t, he, -, hlane⟩ := hcall
  have hx := hlane callLane (by simp [callState_bundle])
  have htag := subTagAfter_callBelow
  simp only [subTagAfter, he, hx] at htag
  exact absurd htag (by decide)

end Sys2Proof.Machine
end

section
/-! SUPPORT. What instruction fetch leaves: the issuing chain and the threads that the machine names. A chain that decodes decodes in
every lane of its bundle. -/

namespace Sys2Proof.Machine

/-! ### The threads a machine names, and the issuing chain -/

/-- Two machines have the same issuing chain and name the same threads. -/
structure Mach.SameSeats (m m' : Mach) : Prop where
  cur  : m'.cur = m.cur
  refs : m'.threads.map (·.ref) = m.threads.map (·.ref)

theorem Mach.SameSeats.same {m : Mach} : m.SameSeats m := ⟨rfl, rfl⟩

theorem Mach.SameSeats.trans {a b c : Mach} (h : a.SameSeats b) (h' : b.SameSeats c) : a.SameSeats c :=
  ⟨h'.cur.trans h.cur, h'.refs.trans h.refs⟩

theorem Mach.sameSeats_of_eq {m m' : Mach} (hc : m'.cur = m.cur) (ht : m'.threads = m.threads) : m.SameSeats m' :=
  ⟨hc, congrArg _ ht⟩

/-- A change of the threads in place, each of which keeps its name. -/
theorem Mach.sameSeats_of_map {m m' : Mach} (hc : m'.cur = m.cur) {f : Thread → Thread} (ht : m'.threads = m.threads.map f)
    (hf : ∀ t, (f t).ref = t.ref) : m.SameSeats m' :=
  ⟨hc, by simp [ht, hf]⟩

theorem Mach.SameSeats.mapped {m m' : Mach} (h : m.SameSeats m') {f : Thread → Thread} (hf : ∀ t, (f t).ref = t.ref) :
    m.SameSeats { m' with threads := m'.threads.map f } :=
  h.trans (Mach.sameSeats_of_map rfl rfl hf)

theorem Mach.sameSeats_foldl {α : Type} {f : Mach → α → Mach} (hf : ∀ (m : Mach) (a : α), m.SameSeats (f m a)) (m : Mach) (as : List α) :
    m.SameSeats (as.foldl f m) := by
  induction as generalizing m with
  | nil => exact .same
  | cons a as ih => exact (hf m a).trans (ih _)

theorem Mach.thread?_isSome_iff (m : Mach) (r : TRef) : (m.thread? r).isSome ↔ r ∈ m.threads.map (·.ref) := by
  simp [Mach.thread?, List.find?_isSome]

/-- A bundle keeps some lane where the threads keep their names. -/
theorem Mach.SameSeats.bundle_ne_nil {m m' : Mach} (h : m.SameSeats m') (hb : m.bundle ≠ []) : m'.bundle ≠ [] := by
  obtain ⟨t, ht⟩ := List.exists_mem_of_ne_nil _ hb
  obtain ⟨l, hl, hlt⟩ := List.mem_filterMap.1 ht
  have hin : (m'.thread? { team := m.cur.team, tidx := 32 * m.cur.group + l }).isSome := by
    rw [Mach.thread?_isSome_iff, h.refs, ← Mach.thread?_isSome_iff, hlt]; rfl
  obtain ⟨t', ht'⟩ := Option.isSome_iff_exists.1 hin
  refine List.ne_nil_of_mem (a := t') (List.mem_filterMap.2 ⟨l, ?_, ?_⟩)
  · rw [h.cur]; exact hl
  · rw [h.cur]; exact ht'

/-! ### The coherence point and the walk -/

theorem Mach.noteLine_sameSeats (m : Mach) (pa n : Nat) : m.SameSeats (m.noteLine pa n) := by
  refine Mach.sameSeats_of_map rfl rfl fun t => ?_
  split
  · split
    · split <;> rfl
    · rfl
  · rfl

theorem Mach.leaveTrail_sameSeats (m : Mach) (bs : List (Nat × Nat × Nat × Nat)) : m.SameSeats (m.leaveTrail bs) := by
  unfold Mach.leaveTrail
  split <;> exact Mach.sameSeats_of_eq rfl rfl

theorem Mach.setMeta_sameSeats (m : Mach) (line : Nat) (v : BitVec 16) : m.SameSeats (m.setMeta line v) :=
  Mach.sameSeats_of_eq rfl rfl

theorem Mach.recallCore_sameSeats (m : Mach) (line own : Nat) : m.SameSeats (m.recallCore line own) :=
  (m.leaveTrail_sameSeats _).trans (Mach.sameSeats_of_eq rfl rfl)

theorem Mach.recallAgent_sameSeats (m : Mach) (line own : Nat) : m.SameSeats (m.recallAgent line own) := by
  unfold Mach.recallAgent
  split <;> exact Mach.sameSeats_of_eq rfl rfl

theorem Mach.recall_sameSeats (m : Mach) (line : Nat) : m.SameSeats (m.recall line) := by
  unfold Mach.recall
  split
  · exact .same
  next own _ =>
    refine Mach.SameSeats.trans ?_ (Mach.noteLine_sameSeats _ _ _)
    refine Mach.SameSeats.trans (b := if own < 128 then m.recallCore line own else m.recallAgent line own) ?_
      (Mach.sameSeats_of_eq rfl rfl)
    split
    · exact m.recallCore_sameSeats line own
    · exact m.recallAgent_sameSeats line own

theorem Mach.combine_sameSeats (m : Mach) (line : Nat) : m.SameSeats (m.combine line) := by
  unfold Mach.combine
  dsimp only
  split
  · refine Mach.SameSeats.trans ?_ (Mach.noteLine_sameSeats _ _ _)
    exact (m.leaveTrail_sameSeats _).trans (Mach.sameSeats_of_eq rfl rfl)
  · exact .same

theorem Mach.cohPrep_sameSeats (m : Mach) (line : Nat) : m.SameSeats (m.cohPrep line) :=
  (m.recall_sameSeats line).trans (Mach.combine_sameSeats _ line)

theorem Mach.cohWrite1_sameSeats (m : Mach) (pa : Nat) (bs : List Byte) : m.SameSeats (m.cohWrite1 pa bs) :=
  ((m.cohPrep_sameSeats (lineOf pa)).trans (Mach.sameSeats_of_eq
    (m' := { m.cohPrep (lineOf pa) with mem := (m.cohPrep (lineOf pa)).mem.write pa bs }) rfl rfl)).trans
    (Mach.noteLine_sameSeats _ pa bs.length)

theorem Mach.cohRead_sameSeats (m : Mach) (pa n : Nat) : m.SameSeats (m.cohRead pa n).1 := m.cohPrep_sameSeats _

theorem Mach.readPte_sameSeats (m : Mach) (pa : Nat) : m.SameSeats (m.readPte pa).1 := m.cohRead_sameSeats pa 8

theorem Mach.putTable_sameSeats (m : Mach) (w : WalkEnt) : m.SameSeats (m.putTable w) := by
  unfold Mach.putTable
  dsimp only
  split <;> exact Mach.sameSeats_of_eq rfl rfl

theorem Mach.walkFrom_sameSeats (m : Mach) (die ctx va n table : Nat) : m.SameSeats (m.walkFrom die ctx va n table).1 := by
  induction n generalizing m table with
  | zero => exact .same
  | succ n ih =>
    unfold Mach.walkFrom
    dsimp only
    have hp := m.readPte_sameSeats (table + 8 * (va / 2 ^ (12 + 9 * n) % 512))
    split
    · exact ih _ _
    · split
      next h => rw [h] at hp; exact hp
      next h =>
        rw [h] at hp
        split
        · exact hp
        · split
          · split
            · exact hp
            · exact (hp.trans (Mach.putTable_sameSeats _ _)).trans (ih _ _)
          · split <;> exact hp

theorem Mach.meet_sameSeats (m : Mach) (u : Nat) (i : Imprecise) : m.SameSeats (m.meet u i) :=
  Mach.sameSeats_of_eq rfl rfl

theorem Mach.walkFor_sameSeats (m : Mach) (us : List Nat) (die ctx va : Nat) (acc : Bool) :
    m.SameSeats (m.walkFor us die ctx va acc).1 := by
  unfold Mach.walkFor
  split
  · exact .same
  next c _ =>
    have hw := m.walkFrom_sameSeats die ctx va 5 c.desc.root
    split
    next h => rw [h] at hw; exact hw
    next h => rw [h] at hw; exact hw.trans (Mach.sameSeats_foldl (fun m u => m.meet_sameSeats u _) _ us)
    next h =>
      rw [h] at hw
      split
      · exact hw.trans (Mach.cohWrite1_sameSeats _ _ _)
      · exact hw

theorem Mach.putTlb_sameSeats (m : Mach) (e : Tlb) : m.SameSeats (m.putTlb e) := by
  unfold Mach.putTlb
  dsimp only
  split <;> exact Mach.sameSeats_of_eq rfl rfl

theorem Mach.installLeaf_sameSeats (m : Mach) (core sub ctx va : Nat) (l : Leaf) :
    m.SameSeats (m.installLeaf core sub ctx va l) := by
  unfold Mach.installLeaf
  split
  · exact .same
  · exact Mach.sameSeats_foldl (fun m _ => m.putTlb_sameSeats _) _ _

theorem Mach.finishWalk_sameSeats (m : Mach) (die ctx g : Nat) (asks : List Nat) :
    m.SameSeats (m.finishWalk die ctx g asks).1 := by
  unfold Mach.finishWalk
  extract_lets onPage waits us
  dsimp only
  have hw := m.walkFor_sameSeats us die ctx (g * 4096) true
  refine Mach.SameSeats.mapped (hw.trans ?_) fun t => ?_
  · split
    · exact Mach.sameSeats_of_eq rfl rfl
    · refine Mach.SameSeats.trans ?_ (Mach.sameSeats_foldl (fun m t => ?_) _ _)
      · exact Mach.sameSeats_of_eq rfl rfl
      · split
        · exact m.installLeaf_sameSeats _ _ _ _ _
        · exact .same
  · split
    · split <;> rfl
    · rfl

theorem Mach.endWalk_sameSeats (m : Mach) (die ctx va : Nat) : m.SameSeats (m.endWalk die ctx va) := by
  unfold Mach.endWalk
  split
  · exact m.finishWalk_sameSeats die ctx _ _
  · exact .same

theorem Mach.walkIn_sameSeats (m : Mach) (us : List Nat) (core sub ctx va : Nat) (acc : Bool) :
    m.SameSeats (m.walkIn us core sub ctx va acc).1 := by
  unfold Mach.walkIn
  dsimp only
  have hw : m.SameSeats (match m.inFlight (dieOf core) ctx va with
      | some w => if w.va == va / 4096 || ((m.finishWalk (dieOf core) ctx w.va us).2.any
            fun (x : Leaf) => x.page (4096 * w.va) == x.page va) then m.finishWalk (dieOf core) ctx w.va us
          else (m.finishWalk (dieOf core) ctx w.va us).1.walkFor us (dieOf core) ctx va acc
      | none => (if (m.running (dieOf core)).length < 64 then m
          else match m.running (dieOf core) with
            | w :: _ => m.endWalk (dieOf core) w.ctx (4096 * w.va) | [] => m).walkFor us (dieOf core) ctx va acc).1 := by
    split
    next w _ =>
      have hf := m.finishWalk_sameSeats (dieOf core) ctx w.va us
      split
      · exact hf
      · exact hf.trans (Mach.walkFor_sameSeats _ _ _ _ _ _)
    · refine Mach.SameSeats.trans ?_ (Mach.walkFor_sameSeats _ us (dieOf core) ctx va acc)
      split
      · exact .same
      · split
        · exact m.endWalk_sameSeats _ _ _
        · exact .same
  split
  next h =>
    have := (congrArg Prod.fst h).symm ▸ hw
    split
    · exact this.trans (Mach.installLeaf_sameSeats _ _ _ _ _ _)
    · exact this
  next h => exact (congrArg Prod.fst h).symm ▸ hw

theorem Mach.walkNow_sameSeats (m : Mach) (us : List Nat) (core sub ctx va : Nat) (acc : Bool) :
    m.SameSeats (m.walkNow us core sub ctx va acc).1 := by
  unfold Mach.walkNow
  split
  · exact .same
  · exact m.walkIn_sameSeats us core sub ctx va acc

/-! ### Fetch -/

theorem Mach.fetchWord_sameSeats (m : Mach) (tm : Team) (sub : Nat) (pc : DWord) : m.SameSeats (m.fetchWord tm sub pc).1 := by
  unfold Mach.fetchWord Mach.fetchLeaf
  dsimp only
  have hw := m.walkNow_sameSeats (if m.bundle.all fun t => t.helper then [] else [tm.uid]) tm.core sub tm.ctx (4 * pc.toNat) true
  split
  · exact .same
  · split
    next h => rw [h] at hw; exact hw
    next m1 l h =>
      rw [h] at hw
      split
      · exact hw
      · have hr := m1.cohRead_sameSeats (l.pa (4 * pc.toNat)) 4
        split <;> (next h => rw [h] at hr; exact hw.trans hr)

theorem Mach.fetchChain_sameSeats (m : Mach) (tm : Team) (sub : Nat) (pc : DWord) (n : Nat) :
    m.SameSeats (m.fetchChain tm sub pc n).1 := by
  induction n generalizing m pc with
  | zero => exact .same
  | succ n ih =>
    unfold Mach.fetchChain
    have hw := m.fetchWord_sameSeats tm sub pc
    split
    next h => rw [h] at hw; exact hw
    next m1 _ h =>
      rw [h] at hw
      split
      · have hc := ih m1 (pc + 1)
        split <;> (next h => rw [h] at hc; exact hw.trans hc)
      · exact hw

/-! ### The chosen bundle -/

theorem Mach.pick_mem {m : Mach} {core sub : Nat} {c : Candidate} (h : m.pick core sub = some c) : c ∈ m.candidates core sub := by
  have keep : ∀ (cs : List Candidate) (acc : Option Candidate),
      cs.foldl (fun acc c => match acc with
        | none => some c
        | some d => if c.rank < d.rank then some c else some d) acc = some c → c ∈ cs ∨ acc = some c := by
    intro cs
    induction cs with
    | nil => exact fun acc h => .inr h
    | cons d cs ih =>
      intro acc h
      rcases ih _ h with hm | he
      · exact .inl (List.mem_cons_of_mem _ hm)
      · cases acc with
        | none => cases he; exact .inl List.mem_cons_self
        | some e =>
          dsimp only at he
          split at he
          · cases he; exact .inl List.mem_cons_self
          · exact .inr he
  exact (keep _ none h).resolve_right (by simp)

theorem Mach.inBundle_ne_nil_of_pick {m : Mach} {core sub : Nat} {c : Candidate} (h : m.pick core sub = some c) :
    m.inBundle c.group c.mask ≠ [] := by
  have hc := m.pick_mem h
  simp only [Mach.candidates, List.mem_flatten, List.mem_map] at hc
  obtain ⟨_, ⟨g, _, rfl⟩, hc⟩ := hc
  split at hc
  · cases hc
  · obtain ⟨b, _, hb⟩ := List.mem_filterMap.1 hc
    split at hb
    · cases hb
    next hne => cases hb; simpa using hne

/-- The chosen bundle has a lane. -/
theorem Mach.bundle_atIssue_ne_nil {m : Mach} {core sub : Nat} {c : Candidate} (h : m.pick core sub = some c) :
    (m.atIssue core sub c).bundle ≠ [] := by
  obtain ⟨t, ht⟩ := List.exists_mem_of_ne_nil _ (Mach.inBundle_ne_nil_of_pick h)
  simp only [Mach.inBundle, Mach.members, List.mem_filter, Bool.and_eq_true, beq_iff_eq] at ht
  obtain ⟨⟨htm, hteam, hgroup⟩, hlane⟩ := ht
  have href : ({ team := c.group.team, tidx := 32 * c.group.index + t.lane } : TRef) = t.ref := by
    rw [← hteam, ← hgroup, Thread.group, Thread.lane, Nat.div_add_mod]
  have hin : (m.thread? { team := c.group.team, tidx := 32 * c.group.index + t.lane }).isSome := by
    rw [Mach.thread?_isSome_iff, href]; exact List.mem_map_of_mem htm
  obtain ⟨t', ht'⟩ := Option.isSome_iff_exists.1 hin
  have hlt : t.lane < 32 := Nat.mod_lt _ (by decide)
  exact List.ne_nil_of_mem (a := t') (List.mem_filterMap.2 ⟨t.lane, by simp [Mach.atIssue, lanesOf, hlt, hlane], ht'⟩)

/-! ### A chain that decodes -/

/-- A chain that decodes, decodes past any word. -/
theorem decodeChainPast_ok {slot len : Nat} {ws : List Word} {ps : List Placed} (h : decodeChain slot ws = .ok ps len)
    (past : Option Nat) : decodeChainPast slot past ws = .ok ps len := by
  rw [decodeChainPast, pastWords, h]
  exact h

theorem State.brokenAt_ok {s : State} {tm : Team} {ws : List Word} {ps : List Placed} {len : Nat}
    (h : decodeChain (slotOf s.m.cur.pc) ws = .ok ps len) (t : Thread) : s.brokenAt tm ws false t = none := by
  simp [State.brokenAt, decodeChainPast_ok h]

/-- A fetched chain that decodes runs as it stands. -/
theorem State.issueWords_ok {s : State} {tm : Team} {ws : List Word} {ps : List Placed} {len : Nat}
    (h : decodeChain (slotOf s.m.cur.pc) ws = .ok ps len) (hb : s.m.bundle ≠ []) :
    s.issueWords tm ws none = runChainIn (ps.map (semAt s.sys.debug)) len s := by
  obtain ⟨t, ts, hts⟩ := List.exists_cons_of_ne_nil hb
  have hnone : (s.m.bundle.map fun t => (t, s.brokenAt tm ws (none : Option FetchStop).isSome t)).filterMap (·.2) = [] := by
    simp [List.filterMap_map, Option.isSome, State.brokenAt_ok h]
  unfold State.issueWords
  dsimp only
  rw [hnone, List.dedup_nil, hts]
  dsimp only
  rw [decodeChainPast_ok h]

/-- A turn in which a sub-core issues the chain that its chosen bundle has fetched. -/
theorem State.issueTurn_fetched {s : State} {core sub : Nat} {c : Candidate} {tm : Team} {m1 m : Mach} {ws : List Word}
    {ps : List Placed} {len : Nat} (hp : s.powered core = true) (hc : (s.m.beforeIssue core sub).pick core sub = some c)
    (h1 : (s.m.beforeIssue core sub).atIssue core sub c = m1) (ht : m1.team? c.group.team = some tm)
    (hf : m1.fetchChain tm c.group.sub m1.cur.pc (3 - slotOf m1.cur.pc) = (m, .ok ws))
    (hd : decodeChain (slotOf m1.cur.pc) ws = .ok ps len) :
    s.issueTurn core sub = runChainIn (ps.map (semAt s.sys.debug)) len { s with m := m.withWords ws } := by
  have hs : m1.SameSeats m := by
    have := m1.fetchChain_sameSeats tm c.group.sub m1.cur.pc (3 - slotOf m1.cur.pc)
    rwa [hf] at this
  have hb : (m.withWords ws).bundle ≠ [] := hs.bundle_ne_nil (h1 ▸ Mach.bundle_atIssue_ne_nil hc)
  rw [State.issueTurn, if_pos hp]
  dsimp only
  rw [hc]
  dsimp only [State.issueBundle]
  rw [h1, ht]
  dsimp only
  rw [hf]
  refine State.issueWords_ok (s := { s with m := m.withWords ws }) ?_ hb
  show decodeChain (slotOf m.cur.pc) ws = .ok ps len
  rw [hs.cur]; exact hd

/-- A chain of one word runs as exec does. -/
theorem runChainIn_placed {i : Instr} (hi : i.isEvent = false) (s : State) :
    .next (runChainIn ([{ instr := i, off := 0, size := i.size }].map (semAt s.sys.debug)) i.size s) = exec i s := by
  rw [exec_word i s hi, runWord, semOf_instr, List.map_singleton, semAt_first _ i _ hi]

/-- Settles O57: fetch keeps the threads' names, so the chosen bundle still has a lane when its chain is in hand; a chain that decodes
decodes in each of its lanes, and a chain of one word runs as exec does. -/
theorem stepRunsDecoded : Obligations.StepRunsDecoded := by
  unfold Obligations.StepRunsDecoded
  intro s rest
  refine ⟨fun core sub c tm m ws hag hp => ?_, fun i hi hag => step_event hag hi⟩
  intro m1 hc ht hf u
  have runs (ps : List Placed) (len : Nat) (hd : decodeChain (slotOf m1.cur.pc) ws = .ok ps len) :
      step s = .next (runChainIn (ps.map (semAt s.sys.debug)) len u) :=
    (step_issue hag).trans
      (congrArg _ (State.issueTurn_fetched (s := { s with agenda := rest }) (m1 := m1) hp hc rfl ht hf hd))
  exact ⟨runs, fun i hi hd => (runs _ _ hd).trans (runChainIn_placed hi u)⟩

/-- Settles O60: each field stands so in the reset state. -/
theorem resetState : Obligations.ResetState :=
  ⟨rfl, rfl, by decide, reset_wf, fun _ => rfl, fun _ => rfl, rfl, rfl, rfl⟩

/-- Settles O56: the decoder run on each word. -/
theorem specWordsDecode : Obligations.SpecWordsDecode := by
  refine ⟨?_, ?_, ?_, ?_, ?_, ?_, ?_, ?_, ?_, ?_, ?_, ?_, ?_⟩ <;> decide

end Sys2Proof.Machine
end

section
/-! SUPPORT. The causes that a word's operand checks find in a lane, and the exception registers they leave. -/

namespace Sys2Proof.Machine

/-! ### Causes -/

/-- A lane traps with a cause, FLT_ADDR and FLT_EXC 0 and FLT_SUB 0 tagged RAW, and leaves nothing else behind. -/
def LaneOut.Plain (o : LaneOut) (c : Nat) : Prop := ∃ alt, o = .trap c 0 0 sub0 id alt

theorem LaneOut.plain_illegal : LaneOut.illegal.Plain 1 := ⟨_, rfl⟩

theorem LaneOut.plain_mismatch (t : TRef) (d : Dst) : (LaneOut.mismatch t d).Plain 2 := ⟨_, rfl⟩

/-- A word strikes each lane with some property at an operand check. -/
structure Strikes (i : Instr) (p : Thread → Prop) (c : Nat) : Prop where
  word  : i.isEvent = false
  plain : ∀ dbg m bundle th, p th → ((semOf dbg i).lane m bundle th).Plain c

theorem Strikes.becomes {s : State} {tm : Team} {i : Instr} {p : Thread → Prop} {c : Nat} (hi : Strikes i p c) (h : Issues s tm)
    (hc : ∀ th ∈ s.m.bundle, th.canEnter) (hb : staticBad s.m tm i = false) (hp : ∀ th ∈ s.m.bundle, p th) :
    Becomes i s fun th => th.entered s tm i c 0 0 sub0 := by
  choose! alt halt using fun th hth => hi.plain s.sys.debug s.m s.m.bundle th (hp th hth)
  exact becomes_of_plain_trap h (exec_word i s hi.word) (semOf_instr _ i) (semOf_off _ i) hb hc halt

/-! ### The mould's causes (21 R297) -/

section
variable {t : Thread} {acc : Tag → Bool} {r : Nat} {srcs regs : List Nat}

/-- A first source whose tag is not accepted is a mismatch, whatever the alignment. -/
theorem mould_unaccepted (first : Bool) (h : acc (t.tagAt r) = false) : mould acc first (r :: srcs) regs t = .error 2 := by
  simp [mould, h]

/-- A misaligned register decides where alignment comes first. -/
theorem mould_misaligned {x : Nat} (h : acc (t.tagAt r) = true) (hx : x ∈ regs) (hm : x % (t.tagAt r).regs ≠ 0) :
    mould acc true (r :: srcs) regs t = .error 1 := by
  have : (regs.all fun r' => r' % (t.tagAt r).regs == 0) = false := List.all_eq_false.2 ⟨x, hx, by simpa using hm⟩
  simp [mould, h, this]

/-- It decides after the tags of a lone source that is well formed. -/
theorem mould_misaligned_last {x : Nat} (h : acc (t.tagAt r) = true) (hf : t.formed r = true) (hx : x ∈ regs)
    (hm : x % (t.tagAt r).regs ≠ 0) : mould acc false [r] regs t = .error 1 := by
  have : (regs.all fun r' => r' % (t.tagAt r).regs == 0) = false := List.all_eq_false.2 ⟨x, hx, by simpa using hm⟩
  simp [mould, h, hf, this]

/-- What a word makes of a cause that the mould found. -/
theorem plain_of_mould {first : Bool} {c : Nat} {d : Dst} {k : Tag → LaneOut} (hc : c = 1 ∨ c = 2)
    (h : mould acc first srcs regs t = .error c) :
    (match mould acc first srcs regs t with | .error c => LaneOut.ofCause c t.ref d | .ok g => k g).Plain c := by
  rw [h]
  rcases hc with rfl | rfl
  · exact LaneOut.plain_illegal
  · exact LaneOut.plain_mismatch _ _

end

section
variable {t : Thread} {acc : Tag → Bool} {d a b : Reg}

theorem alu2_unaccepted {op : Tag → Nat → Nat → Nat} (h : acc (t.tagAt a.toNat) = false) : (alu2 acc op d a b t).Plain 2 :=
  plain_of_mould (.inr rfl) (mould_unaccepted _ h)

theorem alu1_unaccepted {op : Tag → Nat → Nat} (h : acc (t.tagAt a.toNat) = false) : (alu1 acc op d a t).Plain 2 :=
  plain_of_mould (.inr rfl) (mould_unaccepted _ h)

theorem shift_unaccepted {op : Nat → Nat → Nat → Nat} (n : Option Nat) (h : (t.tagAt a.toNat).isInt = false) :
    (shift op d a n t).Plain 2 := by
  cases n with
  | none => exact ⟨_, rfl⟩
  | some k => exact plain_of_mould (.inr rfl) (mould_unaccepted _ h)

theorem alu2_misaligned {op : Tag → Nat → Nat → Nat} (h : acc (t.tagAt a.toNat) = true) (hm : a.toNat % (t.tagAt a.toNat).regs ≠ 0) :
    (alu2 acc op d a b t).Plain 1 :=
  plain_of_mould (.inl rfl) (mould_misaligned h (by simp) hm)

theorem alu1_misaligned {op : Tag → Nat → Nat} (h : acc (t.tagAt a.toNat) = true) (hm : a.toNat % (t.tagAt a.toNat).regs ≠ 0) :
    (alu1 acc op d a t).Plain 1 :=
  plain_of_mould (.inl rfl) (mould_misaligned (x := a.toNat) h (by simp) hm)

theorem shift_misaligned {op : Nat → Nat → Nat → Nat} {k : Nat} (h : (t.tagAt a.toNat).isInt = true) (hf : t.formed a.toNat = true)
    (hm : a.toNat % (t.tagAt a.toNat).regs ≠ 0) : (shift op d a (some k) t).Plain 1 :=
  plain_of_mould (.inl rfl) (mould_misaligned_last (x := a.toNat) h hf (by simp) hm)

end

/-! ### Addresses -/

theorem Thread.pairAt_of_tag {t : Thread} {a : Reg} (h : t.tagAt a.toNat ≠ .i64) : t.pairAt a = none := by
  simp [Thread.pairAt, h]

theorem loadLane_no_pair {d a : Reg} {g : Tag} {o : BitVec 5} {mode : LoadMode} {m : Mach} {t : Thread} (h : t.pairAt a = none) :
    (loadLane d a g o mode m t).Plain 2 := by
  unfold loadLane
  rw [h]
  split
  next heq => cases heq
  next => exact ⟨_, rfl⟩

theorem storeLane_no_pair {d a : Reg} {g : Tag} {o : BitVec 5} {c : CHint} {m : Mach} {t : Thread} (hh : t.helper = false)
    (h : t.pairAt a = none) : (storeLane d a c g o m t).Plain 2 := by
  unfold storeLane
  rw [hh, h, if_neg Bool.false_ne_true]
  split
  next heq _ => cases heq
  next => exact LaneOut.plain_mismatch _ _

theorem checkAccess_misaligned {m : Mach} {tm : Team} {t : Thread} {kind a size : Nat} {write : Bool} {d : Dst}
    {alt : Option (Mach → Mach)} (h : a % size ≠ 0) : m.checkAccess tm t kind write a size d alt = .error (.mem 0x20 a 0 d alt) :=
  if_pos (by simpa using h)

/-! ### The words of each clause -/

section
variable {d a b : Reg}

/-- The integer and move words that take no RAW source. -/
theorem strikes_raw (n : BitVec 11) (n9 : BitVec 9) (m : BitVec 16) (n6 : BitVec 6) (k : KIx) (f : Cond) :
    ∀ i ∈ [.iaddReg d a b, .iaddImm d a n, .isub d a b, .imul d a b, .imulh d a b, .imin d a b, .imax d a b, .iabs d a, .imad d a b,
        .dot4 d a b, .andReg d a b, .andImm d a n9, .orReg d a b, .orImm d a n9, .xorReg d a b, .xorImm d a n9, .inot d a,
        .shlReg d a b, .shrReg d a b, .shaReg d a b, .shlImm d a n6, .shrImm d a n6, .shaImm d a n6, .clz d a, .popc d a,
        .bfx d a b, .bfi d a b, .bprm d a b, .iset k a b f, .sel d a b k, .pack d a b, .unpk d a, .movh a m],
      Strikes i (fun th => th.tagAt a.toNat = .raw) 2 := by
  have two (op) : ∀ t : Thread, t.tagAt a.toNat = .raw → (alu2 Tag.isInt op d a b t).Plain 2 :=
    fun t h => alu2_unaccepted (by rw [h]; rfl)
  have bits (op) : ∀ t : Thread, t.tagAt a.toNat = .raw → (alu2 Tag.isData op d a b t).Plain 2 :=
    fun t h => alu2_unaccepted (by rw [h]; rfl)
  have one (op) : ∀ t : Thread, t.tagAt a.toNat = .raw → (alu1 Tag.isInt op d a t).Plain 2 :=
    fun t h => alu1_unaccepted (by rw [h]; rfl)
  have bits1 (op) : ∀ t : Thread, t.tagAt a.toNat = .raw → (alu1 Tag.isData op d a t).Plain 2 :=
    fun t h => alu1_unaccepted (by rw [h]; rfl)
  have shifts (op) (n : Thread → Option Nat) : ∀ t : Thread, t.tagAt a.toNat = .raw → (shift op d a (n t) t).Plain 2 :=
    fun t h => shift_unaccepted (n t) (by rw [h]; rfl)
  simp only [List.forall_mem_cons]
  refine ⟨⟨rfl, fun _ _ _ => two _⟩, ⟨rfl, fun _ _ _ => one fun g x => packI g iAdd x (iaddImmValue g n)⟩, ⟨rfl, fun _ _ _ => two _⟩, ⟨rfl, fun _ _ _ => two _⟩,
    ⟨rfl, fun _ _ _ => two _⟩, ⟨rfl, fun _ _ _ => two _⟩, ⟨rfl, fun _ _ _ => two _⟩, ⟨rfl, fun _ _ _ => one _⟩,
    ⟨rfl, fun _ _ _ t h => plain_of_mould (.inr rfl) (mould_unaccepted _ (by rw [h]; rfl))⟩,
    ⟨rfl, fun _ _ _ t h => ?_⟩,
    ⟨rfl, fun _ _ _ => bits _⟩, ⟨rfl, fun _ _ _ => bits1 fun _ x => x &&& n9.toNat⟩,
    ⟨rfl, fun _ _ _ => bits _⟩, ⟨rfl, fun _ _ _ => bits1 fun _ x => x ||| n9.toNat⟩,
    ⟨rfl, fun _ _ _ => bits _⟩, ⟨rfl, fun _ _ _ => bits1 fun _ x => x ^^^ n9.toNat⟩, ⟨rfl, fun _ _ _ => bits1 _⟩,
    ⟨rfl, fun _ _ _ => shifts _ fun t => t.i32At b⟩, ⟨rfl, fun _ _ _ => shifts _ fun t => t.i32At b⟩,
    ⟨rfl, fun _ _ _ => shifts _ fun t => t.i32At b⟩, ⟨rfl, fun _ _ _ => shifts _ fun _ => some n6.toNat⟩,
    ⟨rfl, fun _ _ _ => shifts _ fun _ => some n6.toNat⟩, ⟨rfl, fun _ _ _ => shifts _ fun _ => some n6.toNat⟩,
    ⟨rfl, fun _ _ _ => one _⟩, ⟨rfl, fun _ _ _ => one _⟩,
    ⟨rfl, fun _ _ _ t h => plain_of_mould (.inr rfl) (mould_unaccepted _ (by rw [h]; rfl))⟩,
    ⟨rfl, fun _ _ _ t h => plain_of_mould (.inr rfl) (mould_unaccepted _ (by rw [h]; rfl))⟩,
    ⟨rfl, fun _ _ _ t h => ?_⟩,
    ⟨rfl, fun _ _ _ t h => plain_of_mould (.inr rfl) (mould_unaccepted _ (by rw [h]; rfl))⟩,
    ⟨rfl, fun _ _ _ t h => plain_of_mould (.inr rfl) (mould_unaccepted _ (by rw [h]; rfl))⟩,
    ⟨rfl, fun _ _ _ t h => ?_⟩,
    ⟨rfl, fun _ _ _ t h => plain_of_mould (.inr rfl) (mould_unaccepted _ (by rw [h]; rfl))⟩,
    ⟨rfl, fun _ _ _ t h => ?_⟩, by simp⟩
  case refine_1 =>
    show ((dot4Sem d a b).lane _ _ t).Plain 2
    dsimp only [dot4Sem, laneWord]
    rw [h]
    split
    · exact ⟨_, rfl⟩
    · exact ⟨_, rfl⟩
  case refine_2 =>
    show ((bprmSem d a b).lane _ _ t).Plain 2
    dsimp only [bprmSem, laneWord]
    rw [h]
    exact ⟨_, rfl⟩
  case refine_3 =>
    show ((packSem d a b).lane _ _ t).Plain 2
    dsimp only [packSem, laneWord]
    rw [h]
    exact ⟨_, rfl⟩
  case refine_4 =>
    show ((movhSem a m).lane _ _ t).Plain 2
    dsimp only [movhSem, laneWord]
    rw [show (t.reg a.toNat).tag = .raw from h]
    exact ⟨_, rfl⟩

/-- The memory words that take no address tagged RAW. -/
theorem strikes_raw_address (n : BitVec 5) (c : CHint) (g : Tag) (r : Bool) :
    ∀ i ∈ [.ld d a c g n, .ldb d a r g n, .st d a c g n, .pfch a c g n],
      Strikes i (fun th => th.helper = false ∧ th.tagAt a.toNat = .raw) 2 := by
  have none (t : Thread) (h : t.tagAt a.toNat = .raw) : t.pairAt a = none := Thread.pairAt_of_tag (by rw [h]; decide)
  simp only [List.forall_mem_cons]
  refine ⟨⟨rfl, fun _ _ _ t h => loadLane_no_pair (none t h.2)⟩, ⟨rfl, fun _ _ _ t h => loadLane_no_pair (none t h.2)⟩,
    ⟨rfl, fun _ _ _ t h => storeLane_no_pair h.1 (none t h.2)⟩, ⟨rfl, fun _ m _ t h => ?_⟩, by simp⟩
  show ((pfchSem a c g n).lane m _ t).Plain 2
  dsimp only [pfchSem, laneWord]
  rw [none t h.2]
  split
  next heq => cases heq
  next => exact LaneOut.plain_mismatch _ _

/-- The atomics that take no address tagged RAW. -/
theorem strikes_raw_atomic (f : AmoOp) (hb : b.toNat % 2 = 0) :
    ∀ i ∈ [.amo d a b f, .apst a b f, .acas d a b],
      Strikes i (fun th => th.helper = false ∧ th.tagAt a.toNat = .raw ∧ th.tagAt b.toNat = .i32) 2 := by
  have none (t : Thread) (h : t.tagAt a.toNat = .raw) : t.pairAt a = none := Thread.pairAt_of_tag (by rw [h]; decide)
  have fits (t : Thread) (h : t.tagAt b.toNat = .i32) (acc : Tag → Bool) :
      mould acc true [b.toNat] [] t = .error 2 ∨ mould acc true [b.toNat] [] t = .ok .i32 := by
    cases ha : acc .i32 <;> cases hf : t.formed b.toNat <;> simp [mould, h, ha, hf]
  simp only [List.forall_mem_cons]
  refine ⟨⟨rfl, fun _ m bundle t h => ?_⟩, ⟨rfl, fun _ m bundle t h => ?_⟩, ⟨rfl, fun _ m bundle t h => ?_⟩, by simp⟩
  all_goals obtain ⟨hh, ha, hi⟩ := h
  · show ((amoSem d a b f).lane m bundle t).Plain 2
    dsimp only [amoSem, laneWord]
    rw [hh, none t ha, hi, if_neg Bool.false_ne_true, if_neg (by simp [misaligned, Tag.regs, Nat.mod_one])]
    rcases fits t hi (amoAccepts f) with hm | hm <;> rw [hm]
    · exact LaneOut.plain_mismatch t.ref (.regs d.toNat .i32 1)
    · split
      next heq => cases heq
      next heq => cases heq
      next => exact LaneOut.plain_mismatch _ _
  · show ((apstSem a b f).lane m bundle t).Plain 2
    dsimp only [apstSem, laneWord]
    rw [hh, none t ha, hi, if_neg Bool.false_ne_true, if_neg (by simp [misaligned, Tag.regs, Nat.mod_one])]
    rcases fits t hi (amoAccepts f) with hm | hm <;> rw [hm]
    · exact LaneOut.plain_mismatch t.ref .none
    · split
      next heq => cases heq
      next heq => cases heq
      next => exact LaneOut.plain_mismatch _ _
  · show ((acasSem d a b).lane m bundle t).Plain 2
    dsimp only [acasSem, laneWord]
    rw [hh, none t ha, hi, if_neg Bool.false_ne_true, if_neg (by decide), if_neg (by simp [Tag.regs, Nat.mod_one, hb])]
    split
    next heq => cases heq
    next => exact LaneOut.plain_mismatch _ _

/-- The words whose I64 source must stand at an even register. -/
theorem strikes_odd (n : BitVec 11) (n9 : BitVec 9) (n6 : BitVec 6) (k : KIx) (f : Cond) (ha : a.toNat % 2 = 1) :
    ∀ i ∈ [.iaddReg d a b, .iaddImm d a n, .isub d a b, .imul d a b, .imin d a b, .imax d a b, .iabs d a, .imad d a b,
        .andReg d a b, .andImm d a n9, .orReg d a b, .orImm d a n9, .xorReg d a b, .xorImm d a n9, .inot d a,
        .shlImm d a n6, .shrImm d a n6, .shaImm d a n6, .clz d a, .popc d a, .bfx d a b, .bfi d a b, .iset k a b f, .unpk d a],
      Strikes i (fun th => th.tagAt a.toNat = .i64 ∧ th.formed a.toNat = true) 1 := by
  have odd (t : Thread) (h : t.tagAt a.toNat = .i64) : a.toNat % (t.tagAt a.toNat).regs ≠ 0 := by rw [h]; simp [Tag.regs, ha]
  have two (op) : ∀ t : Thread, t.tagAt a.toNat = .i64 ∧ t.formed a.toNat = true → (alu2 Tag.isInt op d a b t).Plain 1 :=
    fun t h => alu2_misaligned (by rw [h.1]; rfl) (odd t h.1)
  have bits (op) : ∀ t : Thread, t.tagAt a.toNat = .i64 ∧ t.formed a.toNat = true → (alu2 Tag.isData op d a b t).Plain 1 :=
    fun t h => alu2_misaligned (by rw [h.1]; rfl) (odd t h.1)
  have one (op) : ∀ t : Thread, t.tagAt a.toNat = .i64 ∧ t.formed a.toNat = true → (alu1 Tag.isInt op d a t).Plain 1 :=
    fun t h => alu1_misaligned (by rw [h.1]; rfl) (odd t h.1)
  have bits1 (op) : ∀ t : Thread, t.tagAt a.toNat = .i64 ∧ t.formed a.toNat = true → (alu1 Tag.isData op d a t).Plain 1 :=
    fun t h => alu1_misaligned (by rw [h.1]; rfl) (odd t h.1)
  have shifts (op) (k : Nat) : ∀ t : Thread, t.tagAt a.toNat = .i64 ∧ t.formed a.toNat = true → (shift op d a (some k) t).Plain 1 :=
    fun t h => shift_misaligned (by rw [h.1]; rfl) h.2 (odd t h.1)
  simp only [List.forall_mem_cons]
  refine ⟨⟨rfl, fun _ _ _ => two _⟩, ⟨rfl, fun _ _ _ => one fun g x => packI g iAdd x (iaddImmValue g n)⟩,
    ⟨rfl, fun _ _ _ => two _⟩, ⟨rfl, fun _ _ _ => two _⟩, ⟨rfl, fun _ _ _ => two _⟩, ⟨rfl, fun _ _ _ => two _⟩,
    ⟨rfl, fun _ _ _ => one _⟩,
    ⟨rfl, fun _ _ _ t h => plain_of_mould (.inl rfl) (mould_misaligned (x := a.toNat) (by rw [h.1]; rfl) (by simp) (odd t h.1))⟩,
    ⟨rfl, fun _ _ _ => bits _⟩, ⟨rfl, fun _ _ _ => bits1 fun _ x => x &&& n9.toNat⟩,
    ⟨rfl, fun _ _ _ => bits _⟩, ⟨rfl, fun _ _ _ => bits1 fun _ x => x ||| n9.toNat⟩,
    ⟨rfl, fun _ _ _ => bits _⟩, ⟨rfl, fun _ _ _ => bits1 fun _ x => x ^^^ n9.toNat⟩, ⟨rfl, fun _ _ _ => bits1 _⟩,
    ⟨rfl, fun _ _ _ => shifts _ n6.toNat⟩, ⟨rfl, fun _ _ _ => shifts _ n6.toNat⟩, ⟨rfl, fun _ _ _ => shifts _ n6.toNat⟩,
    ⟨rfl, fun _ _ _ => one _⟩, ⟨rfl, fun _ _ _ => one _⟩,
    ⟨rfl, fun _ _ _ t h => plain_of_mould (.inl rfl) (mould_misaligned (x := a.toNat) (by rw [h.1]; rfl) (by simp) (odd t h.1))⟩,
    ⟨rfl, fun _ _ _ t h => plain_of_mould (.inl rfl) (mould_misaligned (x := a.toNat) (by rw [h.1]; rfl) (by simp) (odd t h.1))⟩,
    ⟨rfl, fun _ _ _ t h => plain_of_mould (.inl rfl) (mould_misaligned (x := a.toNat) (by rw [h.1]; rfl) (by simp) (odd t h.1))⟩,
    ⟨rfl, fun _ _ _ t h => plain_of_mould (.inl rfl) (mould_misaligned (x := a.toNat) (by rw [h.1]; rfl) (by simp) (odd t h.1))⟩,
    by simp⟩

/-- PACK of two I32 registers needs an even destination. -/
theorem strikes_odd_pack (hd : d.toNat % 2 = 1) :
    Strikes (.pack d a b) (fun th => th.tagAt a.toNat = .i32 ∧ th.tagAt b.toNat = .i32) 1 := by
  refine ⟨rfl, fun _ m bundle t h => ?_⟩
  show ((packSem d a b).lane m bundle t).Plain 1
  dsimp only [packSem, laneWord]
  rw [h.1, show (t.reg b.toNat).tag = .i32 from h.2, if_neg (by decide), if_neg (by decide), if_neg (by decide),
    if_pos (by simp [hd])]
  exact LaneOut.plain_illegal

/-- The atomics whose I64 operand must stand at an even register. -/
theorem strikes_odd_atomic (f : AmoOp) (hb : b.toNat % 2 = 1) :
    ∀ i ∈ [.amo d a b f, .apst a b f, .acas d a b], Strikes i (fun th => th.helper = false ∧ th.tagAt b.toNat = .i64) 1 := by
  have h4 : b.toNat % 4 ≠ 0 := by omega
  simp only [List.forall_mem_cons]
  refine ⟨⟨rfl, fun _ m bundle t h => ?_⟩, ⟨rfl, fun _ m bundle t h => ?_⟩, ⟨rfl, fun _ m bundle t h => ?_⟩, by simp⟩
  all_goals obtain ⟨hh, hi⟩ := h
  · show ((amoSem d a b f).lane m bundle t).Plain 1
    dsimp only [amoSem, laneWord]
    rw [hh, hi, if_neg Bool.false_ne_true, if_pos (by simp [misaligned, Tag.regs, hb])]
    exact LaneOut.plain_illegal
  · show ((apstSem a b f).lane m bundle t).Plain 1
    dsimp only [apstSem, laneWord]
    rw [hh, hi, if_neg Bool.false_ne_true, if_pos (by simp [misaligned, Tag.regs, hb])]
    exact LaneOut.plain_illegal
  · show ((acasSem d a b).lane m bundle t).Plain 1
    dsimp only [acasSem, laneWord]
    rw [hh, hi, if_neg Bool.false_ne_true, if_neg (by decide), if_pos (by simp [Tag.regs, h4])]
    exact LaneOut.plain_illegal

end

/-! ### Misaligned addresses (16 R239, R240) -/

theorem loadLane_misaligned {d a : Reg} {g : Tag} {o : BitVec 5} {mode : LoadMode} {m : Mach} {t : Thread} {tm : Team} {x : Nat}
    (htm : m.team? t.ref.team = some tm) (hx : t.pairAt a = some x) (h : effective x o (tagBytes g) % tagBytes g ≠ 0) :
    loadLane d a g o mode m t = .trap 0x20 (BitVec.ofNat 64 (effective x o (tagBytes g))) 0 { bits := 0, tag := g } id
      (some (writes t.ref d.toNat ((Dst.regs d.toNat g 1).zeros g))) := by
  unfold loadLane
  rw [htm, hx]
  dsimp only
  rw [checkAccess_misaligned h]
  rfl

theorem storeLane_misaligned {d a : Reg} {g : Tag} {o : BitVec 5} {c : CHint} {m : Mach} {t : Thread} {tm : Team} {x : Nat}
    {bs : List Byte} (hh : t.helper = false) (htm : m.team? t.ref.team = some tm) (hx : t.pairAt a = some x)
    (hbs : storeData d g t = some bs) (h : effective x o (tagBytes g) % tagBytes g ≠ 0) :
    storeLane d a c g o m t = .trap 0x20 (BitVec.ofNat 64 (effective x o (tagBytes g))) 0 sub0 id none := by
  unfold storeLane
  rw [hh, htm, hx, hbs, if_neg Bool.false_ne_true]
  dsimp only
  rw [checkAccess_misaligned h]
  rfl

theorem Thread.pairAt_of_pairIs {t : Thread} {a : Reg} {x : Nat} (h : t.pairIs a x) : t.pairAt a = some x := by
  obtain ⟨ht, hf, rfl⟩ := h
  exact Thread.pairAt_of_i64 ht hf

/-- Registers tagged RAW or as the store's tag hold its data. -/
theorem storeData_of_tags {d : Reg} {g : Tag} {t : Thread}
    (h : ∀ j < g.regs, t.tagAt (d.toNat + j) = .raw ∨ t.tagAt (d.toNat + j) = g) : ∃ bs, storeData d g t = some bs := by
  refine ⟨_, if_pos (List.all_eq_true.2 fun r hr => ?_)⟩
  obtain ⟨j, hj, rfl⟩ := List.mem_map.1 hr
  rcases h j (List.mem_range.1 hj) with ht | ht
  · exact Bool.or_eq_true_iff.2 (.inl (beq_iff_eq.2 ht))
  · exact Bool.or_eq_true_iff.2 (.inr (beq_iff_eq.2 ht))

theorem Thread.valAt_i64_lt {t : Thread} {r : Nat} (h : t.tagAt r = .i64) : t.valAt r < 2 ^ 64 := by
  rw [Thread.valAt, h]
  have h0 := (t.reg (r + 0)).bits.isLt
  have h1 := (t.reg (r + 1)).bits.isLt
  show joinW 32 [(t.reg (r + 0)).bits.toNat, (t.reg (r + 1)).bits.toNat] < _
  simp only [joinW]
  omega

theorem effective_zero {x : Nat} (size : Nat) (h : x < 2 ^ 64) : effective x 0 size = x := by
  have h0 : (0 : BitVec 5).toInt = 0 := rfl
  rw [effective, h0]
  omega

/-- Settles O20: each word's operand checks find the cause in every lane, or its address check does, before anything else happens. -/
theorem operandTraps : Obligations.OperandTraps := by
  intro s tm d a b i h hc hb all takes ours
  refine ⟨fun n n9 m n6 k f hp hi => (strikes_raw n n9 m n6 k f i hi).becomes h hc hb hp,
    fun n c g r hp hi => (strikes_raw_address n c g r i hi).becomes h hc hb hp,
    fun f hp _ hev hi => (strikes_raw_atomic f hev i hi).becomes h hc hb hp,
    fun n n9 n6 k f hp hodd hi => (strikes_odd n n9 n6 k f hodd i hi).becomes h hc hb hp,
    fun hp hodd hi => (hi ▸ strikes_odd_pack hodd).becomes h hc hb hp,
    fun f hp hodd hi => (strikes_odd_atomic f hodd i hi).becomes h hc hb hp, ?_⟩
  intro c g o k r x at_ hx far strikes
  have pair (th) (hth : th ∈ s.m.bundle) : th.pairAt a = some (x th) := Thread.pairAt_of_pairIs (hx th hth).2.1
  have off (th) (hth : th ∈ s.m.bundle) : at_ th % tagBytes g ≠ 0 := (hx th hth).2.2
  refine ⟨fun hi hfar => ?_, fun hi hat => ?_, fun hi hfar hdata => ?_⟩
  · refine becomes_of_plain_trap (w := ldSem d a c g o) (alt := fun th => some (writes th.ref d.toNat ((Dst.regs d.toNat g 1).zeros g)))
      h (by rw [hi]; rfl) hi.symm rfl hb hc fun th hth => ?_
    have hat : effective (x th) o (tagBytes g) = at_ th := (hfar th hth).symm
    rw [← hat]
    exact loadLane_misaligned (bundle_team? h hth) (pair th hth) (hat ▸ off th hth)
  · refine becomes_of_plain_trap (w := ldbSem d a r g k) (alt := fun th => some (writes th.ref d.toNat ((Dst.regs d.toNat g 1).zeros g)))
      h (by rw [hi]; rfl) hi.symm rfl hb hc fun th hth => ?_
    have hat : effective (x th) 0 (tagBytes g) = at_ th := by
      obtain ⟨ht, _, hv⟩ := (hx th hth).2.1
      rw [hat th hth]
      exact effective_zero _ (hv ▸ Thread.valAt_i64_lt ht)
    rw [← hat]
    exact loadLane_misaligned (bundle_team? h hth) (pair th hth) (hat ▸ off th hth)
  · refine becomes_of_plain_trap (w := stSem d a c g o) (alt := fun _ => none) h (by rw [hi]; rfl) hi.symm rfl hb hc fun th hth => ?_
    have hat : effective (x th) o (tagBytes g) = at_ th := (hfar th hth).symm
    obtain ⟨bs, hbs⟩ := storeData_of_tags (hdata th hth)
    rw [← hat]
    exact storeLane_misaligned (hx th hth).1 (bundle_team? h hth) (pair th hth) hbs (hat ▸ off th hth)

end Sys2Proof.Machine
end

section
/-! SUPPORT. What a word leaves once its effect is known, and the rejoin masks under ENRL, PARK and STRK (02 R31, R32). -/

namespace Sys2Proof.Machine

/-! ### The state after a word that completes -/

/-- `t` is the machine `m`, the lanes of the issuing bundle of `s` standing in bundles again, with a trace record in TRACE. -/
structure State.Leaves (s : State) (m : Mach) (t : State) : Prop where
  rest  : t = { s with m := { m with groups := (m.rebundle (refs s.m.bundle) []).groups, trace := t.m.trace, mem := t.m.mem } }
  quiet : s.sys.debug ≠ .trace → t.m.trace = m.trace ∧ t.m.mem = m.mem
  mem   : ∀ a, ¬ s.mayTrace a → t.m.mem.get a = m.mem.get a

/-- A word whose effect on the machine is `m`, which knows of no imprecise fault of the team. -/
theorem Acts.leaves {s : State} {i : Instr} {effect : Mach → Mach} (h : Acts i s effect) {m : Mach}
    (hm : effect (s.m.advance (refs s.m.bundle) (s.m.wordAddr i.size)) = m) {tm : Team} (htm : m.team? m.cur.team = some tm)
    (hq : tm.known = []) (hat : m.traceAt = s.m.traceAt) (hwf : s.m.mem.wf = true → m.mem.wf = true) :
    ∃ t, exec i s = .next t ∧ s.Leaves m t := by
  obtain ⟨tr, htr, he⟩ := h
  rw [hm, Mach.skidReport_quiet (tm := tm) (by rw [Mach.rebundle_frame]; exact htm) hq] at he
  have hlog := Mach.log_rest (m.rebundle (refs s.m.bundle) []) tr
  refine ⟨_, he, ?_, fun hd => ?_, fun a ha => ?_⟩
  · exact congrArg (fun x => { s with m := x }) (hlog.trans rfl)
  · rw [htr hd]; exact ⟨rfl, rfl⟩
  · by_cases hd : s.sys.debug = .trace
    · have hw : s.m.mem.wf = true ∧ ¬ (s.m.traceAt ≤ a ∧ a < s.m.traceAt + 16) := by
        simpa only [State.mayTrace, hd, true_and, Classical.not_imp] using ha
      exact Mach.log_mem (m := m.rebundle (refs s.m.bundle) []) tr (hwf hw.1) (hat.symm ▸ hw.2)
    · rw [htr hd]
      rfl

section
variable {s t : State} {m : Mach}

theorem State.Leaves.thread? (h : s.Leaves m t) (r : TRef) : t.m.thread? r = m.thread? r := by rw [h.rest]; rfl
theorem State.Leaves.teams (h : s.Leaves m t) : t.m.teams = m.teams := by rw [h.rest]

theorem State.Leaves.group? (h : s.Leaves m t) {g : Group} (hg : m.group? m.cur.team m.cur.group = some g) :
    ∃ bs, t.m.group? m.cur.team m.cur.group = some { g with bundles := bs } := by
  obtain ⟨bs, hbs⟩ := Mach.group?_rebundle (m := m) rfl rfl hg (refs s.m.bundle) []
  refine ⟨bs, ?_⟩
  rw [h.rest]
  exact hbs

end

/-- A lane of the bundle, gone on past its chain. -/
theorem thread?_advanced {s : State} {tm : Team} (h : Issues s tm) {th : Thread} (hth : th ∈ s.m.bundle) (size : Nat) :
    (s.m.advance (refs s.m.bundle) (s.m.wordAddr size)).thread? th.ref = some (th.onward s.m size) := by
  have hr : th.ref ∈ refs s.m.bundle := List.mem_map_of_mem hth
  rw [Mach.thread?_goOn, if_pos (List.contains_iff_mem.2 hr), h.named th hth]
  rfl

theorem thread?_advanced_other {s : State} {r : TRef} (hr : r ∉ refs s.m.bundle) (size : Nat) :
    (s.m.advance (refs s.m.bundle) (s.m.wordAddr size)).thread? r = s.m.thread? r := by
  rw [Mach.thread?_goOn, if_neg (mt List.contains_iff_mem.1 hr)]

/-- A word that acts once for its bundle and in no lane. -/
theorem acts_of_once {s : State} {tm : Team} (h : Issues s tm) {i : Instr} {w : WordSem} (he : exec i s = runWord w s)
    (hi : w.instr = i) (hb : staticBad s.m tm i = false) (hf : ∀ th ∈ s.m.bundle, w.lane s.m s.m.bundle th = .ok id) :
    Acts i s (w.once s.m.bundle) := by
  have hacts := acts_of_pass (f := fun _ => id) h he hi hb hf
  simp only [id, List.foldl_fixed] at hacts
  exact hacts

/-! ### Threads in place -/

theorem Mach.thread?_mapThreads (m : Mach) (f : Thread → Thread) (hf : ∀ x, (f x).ref = x.ref) (r : TRef) :
    (m.mapThreads f).thread? r = (m.thread? r).map f := by
  simp [Mach.thread?, Mach.mapThreads, List.find?_map, hf]

theorem Thread.freedBy_ref (u i clk : Nat) (P : Nat → Bool) (x : Thread) : (x.freedBy u i clk P).ref = x.ref := by
  rw [Thread.freedBy_rest]

/-- A group's masks with one that stands set anew. -/
theorem Group.setMask_mask {g : Group} {n : Nat} (he : n < g.e.length) (hp : n < g.p.length) : g.setMask n (g.mask n) = g := by
  simp [Group.setMask, Group.mask, List.getD_eq_getElem?_getD, he, hp]

theorem List.set_getD_self {l : List Word} {n : Nat} (h : n < l.length) : l.set n (l.getD n 0) = l := by
  simp [List.getD_eq_getElem?_getD, h]

/-! ### ENRL, PARK and STRK -/

/-- Lanes of a group that a mask holds from here on. -/
def Thread.holdAt (u i n : Nat) (w : Word) (x : Thread) : Thread :=
  if x.ref.team == u && x.group == i && w.getLsbD x.lane then { x with wait := .held n } else x

theorem Thread.holdAt_ref (u i n : Nat) (w : Word) (x : Thread) : (x.holdAt u i n w).ref = x.ref := by
  unfold Thread.holdAt
  split <;> rfl

/-- A group from whose bundles the lanes have left that PARK holds. -/
def Group.park (n : Nat) (p w : Word) (g : Group) : Group := { g with
  p := g.p.set n p
  bundles := (g.bundles.map fun b => b &&& ~~~w).filter fun b => b != 0 }

/-- A group with some lanes enrolled in a mask. -/
def Group.enrol (n : Nat) (l : Word) (g : Group) : Group := { g with e := g.e.set n (g.e.getD n 0 ||| l) }

/-- PARK before a release. -/
def Mach.parked (m : Mach) (u i n : Nat) (p w : Word) : Mach :=
  { m.updGroup u i (Group.park n p w) with
    cur := { m.cur with lanes := m.cur.lanes.filter fun l => !w.getLsbD l }
    threads := m.threads.map (Thread.holdAt u i n w) }

theorem Mach.park_eq {m : Mach} {u i n : Nat} {g : Group} (hg : m.group? u i = some g) (lanes : Word) :
    m.park u i n lanes = let w := lanes &&& g.e.getD n 0
      let p := g.p.getD n 0 ||| w
      if p == g.e.getD n 0 then (m.parked u i n p w).releaseMask u i n else m.parked u i n p w := by
  unfold Mach.park
  rw [hg]
  rfl

theorem Mach.group?_parked {m : Mach} {u i n : Nat} {g : Group} (hg : m.group? u i = some g) (p w : Word) :
    (m.parked u i n p w).group? u i = some (g.park n p w) :=
  (Mach.group?_updGroup m u i (Group.park n p w) fun _ => ⟨rfl, rfl⟩).trans (congrArg _ hg)

theorem Mach.thread?_parked (m : Mach) (u i n : Nat) (p w : Word) (r : TRef) :
    (m.parked u i n p w).thread? r = (m.thread? r).map (Thread.holdAt u i n w) :=
  Mach.thread?_mapThreads m _ (Thread.holdAt_ref u i n w) r

/-- The masks words leave memory, teams and all but the issuing group, threads and lanes as they stand. -/
structure Mach.MasksOnly (m m' : Mach) : Prop where
  rest  : m' = { m with threads := m'.threads, groups := m'.groups, cur := m'.cur }
  team  : m'.cur.team = m.cur.team
  group : m'.cur.group = m.cur.group

theorem Mach.updGroup_masksOnly (m : Mach) (u i : Nat) (f : Group → Group) : m.MasksOnly (m.updGroup u i f) := ⟨rfl, rfl, rfl⟩

theorem Mach.releaseMask_masksOnly {m m' : Mach} (h : m.MasksOnly m') (u i n : Nat) : m.MasksOnly (m'.releaseMask u i n) := by
  obtain ⟨hr, ht, hg⟩ := h
  have key (ts : List Thread) (gs : List Group) :
      { m' with threads := ts, groups := gs } = { m with threads := ts, groups := gs, cur := m'.cur } := by rw [hr]
  exact ⟨key _ _, ht, hg⟩

theorem Mach.parked_masksOnly (m : Mach) (u i n : Nat) (p w : Word) : m.MasksOnly (m.parked u i n p w) := ⟨rfl, rfl, rfl⟩

/-- What a masks word leaves of the state, its effect once known. -/
theorem Acts.masks {s : State} {tm : Team} (h : Issues s tm) {i : Instr} {effect : Mach → Mach} (ha : Acts i s effect) {m : Mach}
    (hm : effect (s.m.advance (refs s.m.bundle) (s.m.wordAddr i.size)) = m)
    (ho : (s.m.advance (refs s.m.bundle) (s.m.wordAddr i.size)).MasksOnly m) :
    ∃ t, exec i s = .next t ∧ s.Keeps t ∧ t.m.teams = s.m.teams ∧ (∀ r, t.m.thread? r = m.thread? r) ∧
      ∀ g, m.group? s.m.cur.team s.m.cur.group = some g → ∃ bs, t.m.group? s.m.cur.team s.m.cur.group = some { g with bundles := bs } := by
  obtain ⟨hrest, hteam, hgroup⟩ := ho
  have hct : m.cur.team = s.m.cur.team := hteam
  have hcg : m.cur.group = s.m.cur.group := hgroup
  have hmem : m.mem = s.m.mem := by rw [hrest]; rfl
  have hteams : m.teams = s.m.teams := by rw [hrest]; rfl
  obtain ⟨t, he, hl⟩ := ha.leaves hm (tm := tm) (by rw [Mach.team?, hteams, hct]; exact h.team) h.quiet
    (by rw [hrest]; rfl) (fun hw => hmem ▸ hw)
  refine ⟨t, he, fun a ha => (hl.mem a ha).trans (by rw [hmem]), hl.teams.trans hteams, hl.thread?, fun g hg => ?_⟩
  rw [← hct, ← hcg] at hg ⊢
  exact hl.group? hg

theorem staticBad_masks {m : Mach} {tm : Team} (n : JIx) : staticBad m tm (.enrl n) = false ∧ staticBad m tm (.park n) = false ∧
    staticBad m tm (.strk n) = false :=
  ⟨staticBad_of_blocks (bs := []) rfl rfl (by simp) rfl rfl, staticBad_of_blocks (bs := []) rfl rfl (by simp) rfl rfl,
    staticBad_of_blocks (bs := []) rfl rfl (by simp) rfl rfl⟩

theorem Mach.thread?_releaseMask (m : Mach) (u i n : Nat) (r : TRef) :
    (m.releaseMask u i n).thread? r = (m.thread? r).map (Thread.freedBy u i m.clk fun j => j == n) := by
  rw [Mach.releaseMask_eq, Mach.thread?_mapThreads _ _ fun x => Thread.freedBy_ref ..]
  rfl

theorem Mach.group?_releaseMask {m : Mach} {u i n : Nat} {g : Group} (hg : m.group? u i = some g) :
    (m.releaseMask u i n).group? u i = some (g.setMask n ⟨0, 0, true⟩) := by
  rw [Mach.releaseMask_eq]
  exact (Mach.group?_updGroup m u i _ (Group.setMask_keys n _)).trans (congrArg _ hg)

section
variable {s : State} {tm : Team}

/-- A thread that a mask holds goes on with its release. -/
theorem freedBy_of_held {x : Thread} {r : TRef} {u i n clk : Nat} (hx : x.ref = r) (hr : r.team = u ∧ r.tidx / 32 = i)
    (hw : x.wait = .held n) : x.freedBy u i clk (fun j => j == n) = { x with wait := .ready, issued := clk } := by
  rw [Thread.freedBy_held (by rw [Thread.group, hx]; exact hr) hw, if_pos (by simp)]

/-- A thread of the bundle, as the bundle's lanes give it. -/
theorem laneSet_lane (h : Issues s tm) {th : Thread} (hth : th ∈ s.m.bundle) : (laneSet s.m.bundle).getLsbD th.lane = true := by
  rw [laneSet_getLsbD (bundle_lanes_nodup h), List.any_eq_true]
  exact ⟨th, hth, by simp⟩

/-- A thread of the issuing group that waits is of no lane of the bundle. -/
theorem laneSet_lane_of_wait (h : Issues s tm) {r : TRef} {x : Thread} (hx : s.m.thread? r = some x) (hw : x.wait ≠ .ready)
    (hr : r.team = s.m.cur.team ∧ r.tidx / 32 = s.m.cur.group) : (laneSet s.m.bundle).getLsbD (r.tidx % 32) = false := by
  rw [laneSet_getLsbD (bundle_lanes_nodup h), List.any_eq_false]
  intro th hth heq
  refine not_mem_bundle_of_wait h hx hw (List.mem_map.2 ⟨th, hth, ?_⟩)
  rw [bundle_ref h hth, beq_iff_eq.1 heq, ← hr.1, ← hr.2]
  exact congrArg (TRef.mk r.team) (Nat.div_add_mod ..)

/-- What PARK makes of a lane of the bundle before a release. -/
theorem holdAt_onward (h : Issues s tm) {th : Thread} (hth : th ∈ s.m.bundle) (n : Nat) (e : Word) :
    (th.onward s.m 1).holdAt s.m.cur.team s.m.cur.group n (laneSet s.m.bundle &&& e) =
      if e.getLsbD th.lane then { th.onward s.m 1 with wait := .held n } else th.onward s.m 1 := by
  obtain ⟨ht, hg⟩ := bundle_here h (List.mem_map_of_mem hth)
  unfold Thread.holdAt
  rw [BitVec.getLsbD_and, show (th.onward s.m 1).ref = th.ref from rfl, show (th.onward s.m 1).lane = th.lane from rfl,
    show (th.onward s.m 1).group = th.ref.tidx / 32 from rfl, laneSet_lane h hth, ht, hg]
  simp only [beq_self_eq_true, Bool.true_and]
  rfl

/-- A lane that PARK has held stands as one that has gone on once its mask is released. -/
theorem freedBy_holdAt_onward (h : Issues s tm) {th : Thread} (hth : th ∈ s.m.bundle) (n : Nat) (e : Word) :
    ((th.onward s.m 1).holdAt s.m.cur.team s.m.cur.group n (laneSet s.m.bundle &&& e)).freedBy s.m.cur.team s.m.cur.group s.m.clk
      (fun j => j == n) = th.onward s.m 1 := by
  rw [holdAt_onward h hth]
  have hw : th.wait = .ready := h.ready th hth
  split
  · refine (freedBy_of_held (x := { th.onward s.m 1 with wait := .held n }) (r := th.ref) rfl
      (bundle_here h (List.mem_map_of_mem hth)) rfl).trans ?_
    simp [Thread.onward, hw]
  · exact Thread.freedBy_of_not_held (by simp [Thread.onward, hw]) _

end

/-- Settles O21: each word's effect is an update of the group and its threads; a release frees the threads that its mask holds, and a
lane that PARK holds and releases has gone on. -/
theorem rejoinMasks : Obligations.RejoinMasks := by
  unfold Obligations.RejoinMasks
  intro s tm g n h hg he hp l e p leaves frees
  have hn : n.toNat < 8 := n.isLt
  obtain ⟨hbe, hbp, hbs⟩ := staticBad_masks (m := s.m) (tm := tm) n
  let m0 := s.m.advance (refs s.m.bundle) (s.m.wordAddr 1)
  have hg0 : m0.group? s.m.cur.team s.m.cur.group = some g := hg
  have hin (th) (hth : th ∈ s.m.bundle) : m0.thread? th.ref = some (th.onward s.m 1) := thread?_advanced h hth 1
  have hout {u x} (hx : s.m.thread? u = some x) {j} (hw : x.wait = .held j) : m0.thread? u = some x :=
    (thread?_advanced_other (not_mem_bundle_of_wait h hx (by simp [hw])) 1).trans hx
  have hready (th) (hth : th ∈ s.m.bundle) (j) : (th.onward s.m 1).wait ≠ .held j := by
    rw [show (th.onward s.m 1).wait = th.wait from rfl, h.ready th hth]; simp
  have hsetE : g.e.set n.toNat e = g.e := List.set_getD_self (he ▸ hn)
  have hsetP : g.p.set n.toNat p = g.p := List.set_getD_self (hp ▸ hn)
  have href {u : TRef} {x : Thread} (hx : s.m.thread? u = some x) : x.ref = u := by simpa using List.find?_some hx
  refine ⟨?_, ?_, ?_⟩
  · obtain ⟨t, hex, hk, hts, hth, hgr⟩ := (acts_of_once (w := enrlSem n) h rfl rfl hbe fun _ _ => rfl).masks h rfl
      (Mach.updGroup_masksOnly ..)
    obtain ⟨bs, hbs⟩ := hgr (g.enrol n.toNat l) ((Mach.group?_updGroup m0 _ _ (Group.enrol n.toNat l) fun _ => ⟨rfl, rfl⟩).trans (congrArg _ hg0))
    exact ⟨t, hex, ⟨hk, hts, _, hbs, rfl, hsetP.symm⟩, fun th hm => (hth _).trans (hin th hm)⟩
  · have hpark := m0.park_eq (n := n.toNat) hg0 l
    by_cases hfull : p ||| (l &&& e) = e
    · rw [if_pos (beq_iff_eq.2 hfull)] at hpark
      obtain ⟨t, hex, hk, hts, hth, hgr⟩ := (acts_of_once (w := parkSem n) h rfl rfl hbp fun _ _ => rfl).masks h hpark
        (Mach.releaseMask_masksOnly (m0.parked_masksOnly ..) ..)
      obtain ⟨bs, hbs⟩ := hgr _ (Mach.group?_releaseMask (Mach.group?_parked hg0 _ _))
      refine ⟨t, hex, ?_⟩
      rw [if_pos hfull]
      refine ⟨⟨⟨hk, hts, _, hbs, rfl, by simp [Group.setMask, Group.park]⟩, fun u x hx hu hi hw => ?_⟩, fun th hm => ?_⟩
      · rw [hth, Mach.thread?_releaseMask, Mach.thread?_parked, hout hx hw]
        have hlane := laneSet_lane_of_wait h hx (by simp [hw]) ⟨hu, hi⟩
        have hstay : x.holdAt s.m.cur.team s.m.cur.group n.toNat (l &&& e) = x :=
          if_neg (by simp [BitVec.getLsbD_and, Thread.lane, href hx, l, hlane])
        exact congrArg some ((congrArg _ hstay).trans (freedBy_of_held (href hx) ⟨hu, hi⟩ hw))
      · rw [hth, Mach.thread?_releaseMask, Mach.thread?_parked, hin th hm]
        exact congrArg some (freedBy_holdAt_onward h hm n.toNat e)
    · rw [if_neg (mt beq_iff_eq.1 hfull)] at hpark
      obtain ⟨t, hex, hk, hts, hth, hgr⟩ := (acts_of_once (w := parkSem n) h rfl rfl hbp fun _ _ => rfl).masks h hpark
        (m0.parked_masksOnly ..)
      obtain ⟨bs, hbs⟩ := hgr _ (Mach.group?_parked hg0 _ _)
      refine ⟨t, hex, ?_⟩
      rw [if_neg hfull]
      refine ⟨⟨hk, hts, _, hbs, hsetE.symm, rfl⟩, fun th hm => ?_⟩
      rw [hth, Mach.thread?_parked, hin th hm]
      exact congrArg some (holdAt_onward h hm n.toNat e)
  · have hstrike := Mach.strike_eq hg0 n.toNat l
    obtain ⟨t, hex, hk, hts, hth, hgr⟩ := (acts_of_once (w := strkSem n) h rfl rfl hbs fun _ _ => rfl).masks h hstrike ⟨rfl, rfl, rfl⟩
    obtain ⟨bs, hbs⟩ := hgr _ ((Mach.group?_updGroup m0 _ _ _ (Group.setMask_keys _ _)).trans (congrArg _ hg0))
    have hthread (r) : t.m.thread? r = (m0.thread? r).map
        (Thread.freedBy s.m.cur.team s.m.cur.group s.m.clk fun j => j == n.toNat && (g.mask n.toNat).frees l) :=
      (hth r).trans (Mach.thread?_mapThreads _ _ (fun x => Thread.freedBy_ref ..) r)
    refine ⟨t, hex, ?_, fun th hm => ?_⟩
    · by_cases hf : e &&& ~~~l ≠ 0 ∧ p &&& ~~~l = e &&& ~~~l
      · have hfrees : (g.mask n.toNat).frees l = true := by simpa [Mask.frees, Group.mask, e, p] using hf
        rw [if_pos hf]
        rw [Mask.strike_of_frees hfrees] at hbs
        refine ⟨⟨hk, hts, _, hbs, rfl, rfl⟩, fun u x hx hu hi hw => ?_⟩
        rw [hthread, hout hx hw, hfrees]
        simp only [Bool.and_true]
        exact congrArg some (freedBy_of_held (href hx) ⟨hu, hi⟩ hw)
      · have hfrees : (g.mask n.toNat).frees l = false := by
          rw [← Bool.not_eq_true]; simpa [Mask.frees, Group.mask, e, p] using hf
        rw [if_neg hf]
        rw [Mask.strike_of_stays hfrees] at hbs
        exact ⟨hk, hts, _, hbs, rfl, rfl⟩
    · rw [hthread, hin th hm]
      exact congrArg some (Thread.freedBy_of_not_held (hready th hm) _)

end Sys2Proof.Machine
end

section
/-! SUPPORT. Waits on a thread's own operations, fences and breakpoints (04 R83; 09 R169; 16 R244; 20 R287; 21 R309; 24 R379, R382). -/

namespace Sys2Proof.Machine

/-! ### WAITC's form -/

section
variable {l s d t : BitVec 6}

theorem waitcBits_toNat (r : BitVec 1) : (0b0101101#7 ++ l ++ s ++ d ++ t ++ r).toNat =
    0x2D * 2 ^ 25 + l.toNat * 2 ^ 19 + s.toNat * 2 ^ 13 + d.toNat * 2 ^ 7 + t.toNat * 2 + r.toNat := by
  have h1 (x : Nat) : x <<< 6 = x * 64 := Nat.shiftLeft_eq x 6
  have h2 (x : Nat) : x <<< 1 = x * 2 := Nat.shiftLeft_eq x 1
  simp only [BitVec.toNat_append]
  rw [← Nat.shiftLeft_add_eq_or_of_lt r.isLt, ← Nat.shiftLeft_add_eq_or_of_lt t.isLt, ← Nat.shiftLeft_add_eq_or_of_lt d.isLt,
    ← Nat.shiftLeft_add_eq_or_of_lt s.isLt, ← Nat.shiftLeft_add_eq_or_of_lt l.isLt]
  simp only [h1, h2]
  show ((((45 * 64 + l.toNat) * 64 + s.toNat) * 64 + d.toNat) * 64 + t.toNat) * 2 + r.toNat = _
  omega

/-- The fields of WAITC's word. -/
theorem waitcBits_flds (r : BitVec 1) {w : Nat} (hw : w = (0b0101101#7 ++ l ++ s ++ d ++ t ++ r).toNat) : w < 2 ^ 32 ∧ fld w 31 1 = 0 ∧
    fld w 25 6 = 0x2D ∧ fld w 19 6 = l.toNat ∧ fld w 13 6 = s.toNat ∧ fld w 7 6 = d.toNat ∧ fld w 1 6 = t.toNat ∧ fld w 0 1 = r.toNat := by
  rw [waitcBits_toNat] at hw
  have := l.isLt
  have := s.isLt
  have := d.isLt
  have := t.isLt
  have := r.isLt
  simp only [fld]
  refine ⟨?_, ?_, ?_, ?_, ?_, ?_, ?_, ?_⟩ <;> omega

theorem decodeWord_waitc (r : BitVec 1) : decodeWord (0b0101101#7 ++ l ++ s ++ d ++ t ++ r).toNat none =
    if r.toNat = 0 then .ok (.waitc l s d t) else .bad .reservedField := by
  generalize hw : (0b0101101#7 ++ l ++ s ++ d ++ t ++ r).toNat = w
  obtain ⟨-, -, hm, hl, hs, hd, ht, hr⟩ := waitcBits_flds r hw.symm
  unfold decodeWord
  rw [hm]
  dsimp only
  rw [hl, hs, hd, ht, hr]
  simp only [noExt, need, BitVec.ofNat_toNat, BitVec.setWidth_eq]
  by_cases h : r.toNat = 0 <;> simp [h, Instr.wf]

end

/-- A first word that carries no chain, decoded as a table word. -/
theorem decodeTableWord_unchained {w : Nat} (hw : w < 2 ^ 32) (hc : fld w 31 1 = 0) (he : fld w 25 6 ≠ 0x3F) (hp : fld w 25 6 ≠ 0x28) :
    decodeTableWord 32 w = match decodeWord w none with | .ok i => some i | _ => none := by
  have hnat : (BitVec.ofNat 32 w).toNat = w := (BitVec.toNat_ofNat ..).trans (Nat.mod_eq_of_lt hw)
  have hx : isExt w = false := by simpa [isExt] using he
  unfold decodeTableWord decodeChain
  simp only [Nat.mod_eq_of_lt hw, show (32 == 0) = false from rfl, Bool.false_eq_true, if_false]
  unfold decodeChainFrom
  simp only [hnat, hx, hc, show ((0 : Nat) == 1) = false from rfl, Bool.false_eq_true, if_false, Bool.false_and, decodeAlone, beq_iff_eq, hp]
  cases decodeWord w none with
  | ok i => cases hi : pipeOf i <;> simp [hi]
  | bad e => rfl
  | extBad e => rfl

/-! ### Lanes that update their threads -/

/-- A word whose effect on the machine whose lanes have gone on is an update of each lane's thread. -/
theorem becomes_of_acts {s : State} {tm : Team} (h : Issues s tm) {i : Instr} {effect : Mach → Mach} (ha : Acts i s effect)
    {g : Thread → Thread → Thread} (hg : ∀ th x, (g th x).ref = x.ref)
    (he : effect (s.m.advance (refs s.m.bundle) (s.m.wordAddr i.size)) =
      s.m.bundle.foldl (fun m th => m.updThread th.ref (g th)) (s.m.advance (refs s.m.bundle) (s.m.wordAddr i.size))) :
    Becomes i s fun th => g th (th.onward s.m i.size) := by
  obtain ⟨tr, ht, hr⟩ := ha
  rw [he] at hr
  refine becomes_core (o := fun m => m) h hg ht rfl (fun th hth => thread?_advanced h hth i.size) (fun u hu => ?_) onlyPref_id hr
  exact thread?_advanced_other (fun hm => by obtain ⟨th, hth, rfl⟩ := List.mem_map.1 hm; exact hu th hth rfl) i.size

/-- Only what the effect makes of the machine whose lanes have gone on matters. -/
theorem Acts.congr {s : State} {i : Instr} {e e' : Mach → Mach} (h : Acts i s e)
    (he : e (s.m.advance (refs s.m.bundle) (s.m.wordAddr i.size)) = e' (s.m.advance (refs s.m.bundle) (s.m.wordAddr i.size))) :
    Acts i s e' := by
  obtain ⟨tr, ht, hr⟩ := h
  exact ⟨tr, ht, he ▸ hr⟩

/-! ### Counts -/

theorem within_iff (th : Thread) (l s d t : BitVec 6) :
    th.within l.toNat s.toNat d.toNat t.toNat = true ↔ th.countsWithin [l, s, d, t] := by
  have h63 (k : BitVec 6) : k.toNat = 63 ↔ k = 63 := ⟨fun h => BitVec.eq_of_toNat_eq h, fun h => by rw [h]; rfl⟩
  unfold Thread.within Thread.counts Thread.countsWithin
  simp only [Bool.and_eq_true, Bool.or_eq_true, beq_iff_eq, decide_eq_true_eq, h63, List.zip_cons_cons, List.zip_nil_right,
    List.forall_mem_cons, List.not_mem_nil, false_imp_iff, implies_true, and_true, and_assoc]

/-- What WAITC and XFEN make of a lane: it goes on, or it waits. -/
def Thread.holdOff (l s d t : Nat) (w : Wait) (x : Thread) : Thread := if x.within l s d t then x else { x with wait := w }

theorem Thread.holdOff_ref (l s d t : Nat) (w : Wait) (x : Thread) : (x.holdOff l s d t w).ref = x.ref := by
  unfold Thread.holdOff
  split <;> rfl

theorem Thread.within_onward (th : Thread) (m : Mach) (n l s d t : Nat) : (th.onward m n).within l s d t = th.within l s d t := rfl

/-! ### XFEN (24 R379) -/

/-- XFEN in a lane, seen from its thread as the chain issues. -/
def Thread.fenced (th x : Thread) : Thread := if th.within 0 0 0 0 then { x with wait := .ready } else { x with wait := .xfen }

theorem Thread.fenced_ref (th x : Thread) : (th.fenced x).ref = x.ref := by
  unfold Thread.fenced
  split <;> rfl

/-- A fence of a team that knows of no imprecise fault and has met none. -/
theorem Mach.fence_quiet {m : Mach} {t : TRef} {x : Thread} {tm : Team} (hx : m.thread? t = some x) (ht : m.team? t.team = some tm)
    (hu : tm.uid = t.team) (hl : tm.latent = []) (hk : tm.known = []) : m.fence t = m.updThread t (Thread.fenced x) := by
  have hrep (f : Thread → Thread) : ((m.updThread t f).detectAll tm.uid).report tm.uid = m.updThread t f := by
    have hteam : (m.updThread t f).team? tm.uid = some tm := hu ▸ ht
    have hdet : (m.updThread t f).detectAll tm.uid = m.updThread t f := by
      rw [Mach.detectAll, hteam]
      simp [hl]
    rw [hdet, Mach.report, hteam]
    obtain ⟨⟩ := tm
    dsimp only at hk
    subst hk
    rfl
  rw [Mach.fence, hx, ht]
  dsimp only
  rw [hrep]
  unfold Thread.fenced
  cases x.within 0 0 0 0 <;> rfl

/-- The lanes of a bundle, each fenced by its thread's operations. -/
theorem fence_lanes {s : State} {tm : Team} (h : Issues s tm) (hl : tm.latent = []) (ts : List Thread) (hts : ts ⊆ s.m.bundle) (m : Mach)
    (hm : m.teams = s.m.teams)
    (hx : ∀ th ∈ s.m.bundle, ∃ x, m.thread? th.ref = some x ∧ x.ops = th.ops ∧ x.drover = th.drover) :
    ts.foldl (fun m th => m.fence th.ref) m = ts.foldl (fun m th => m.updThread th.ref (Thread.fenced th)) m := by
  induction ts generalizing m with
  | nil => rfl
  | cons a as ih =>
    have ha : a ∈ s.m.bundle := hts List.mem_cons_self
    obtain ⟨x, hxa, hops, hdr⟩ := hx a ha
    have hteam : m.team? a.ref.team = some tm := by rw [Mach.team?, hm]; exact bundle_team? h ha
    have hsame : Thread.fenced x = Thread.fenced a := by
      have hw : x.within 0 0 0 0 = a.within 0 0 0 0 := by unfold Thread.within Thread.counts; rw [hops, hdr]
      unfold Thread.fenced
      rw [hw]
    rw [List.foldl_cons, List.foldl_cons, Mach.fence_quiet hxa hteam (team?_uid hteam) hl h.quiet, hsame]
    refine ih (fun y hy => hts (List.mem_cons_of_mem _ hy)) _ hm fun th hth => ?_
    obtain ⟨y, hy, hyo, hyd⟩ := hx th hth
    rw [Mach.thread?_updThread _ _ _ _ (Thread.fenced_ref a), hy]
    split
    · refine ⟨_, rfl, ?_⟩
      unfold Thread.fenced
      split <;> exact ⟨hyo, hyd⟩
    · exact ⟨y, rfl, hyo, hyd⟩

/-- A team whose core learns of its one imprecise fault. -/
def Team.learns (i : Imprecise) (t : Team) : Team := { t with latent := [], known := [i], fp := true }

def Thread.readied (x : Thread) : Thread := { x with wait := .ready }

def Thread.unskidded (x : Thread) : Thread := { x with skid := 0 }

/-- A fence of a thread with nothing outstanding that is to blame for the one imprecise fault its team has met. -/
theorem Mach.fence_latent {m : Mach} {t : TRef} {x : Thread} {tm : Team} {i : Imprecise} (hx : m.thread? t = some x)
    (ht : m.team? t.team = some tm) (hw : x.within 0 0 0 0 = true) (hl : tm.latent = [i]) (hk : tm.known = [])
    (hi : i.thread = some t) : m.fence t =
      (((m.updThread t Thread.readied).updTeam tm.uid (Team.learns i)).updThread t Thread.unskidded).reportFault tm.uid i := by
  have hu : tm.uid = t.team := team?_uid ht
  have hx1 : (m.updThread t Thread.readied).thread? t = some x.readied := Mach.thread?_updThread_same hx fun _ => rfl
  have ht1 : (m.updThread t Thread.readied).team? tm.uid = some tm := hu ▸ ht
  have hdet : (m.updThread t Thread.readied).detect tm.uid =
      ((m.updThread t Thread.readied).updTeam tm.uid (Team.learns i)).updThread t Thread.unskidded := by
    rw [Mach.detect, ht1]
    obtain ⟨cause, addr, thread⟩ := i
    dsimp only at hi
    subst hi
    obtain ⟨⟩ := tm
    dsimp only at hl hk
    subst hl hk
    dsimp only
    rw [show (some t).bind (m.updThread t Thread.readied).thread? = some x.readied from hx1]
    rfl
  have hall : (m.updThread t Thread.readied).detectAll tm.uid = (m.updThread t Thread.readied).detect tm.uid := by
    rw [Mach.detectAll, ht1]
    simp [hl]
  have ht2 : (((m.updThread t Thread.readied).updTeam tm.uid (Team.learns i)).updThread t Thread.unskidded).team? tm.uid =
      some (tm.learns i) :=
    (Mach.team?_updTeam _ _ (Team.learns i) fun _ => rfl).trans (congrArg _ ht1)
  rw [Mach.fence, hx, ht]
  dsimp only
  rw [hw]
  show ((m.updThread t Thread.readied).detectAll tm.uid).report tm.uid = _
  rw [hall, hdet, Mach.report, ht2]
  rfl

/-- The record of an imprecise fault (16 R244). -/
def Imprecise.record (i : Imprecise) (t : Team) : Record := {
  addr := i.addr, inst := 0, taskid := t.taskid, mask := 0, exc := 0, cause := i.cause, kind := 7
  core := t.core, tslot := t.slot, group := match i.thread with | some x => x.tidx / 32 | none => 0 }

theorem Mach.reportFault_eq {m : Mach} {u : Nat} {t : Team} (h : m.team? u = some t) (i : Imprecise) :
    m.reportFault u i = m.teamFault u (i.record t) := by
  rw [Mach.reportFault, h]
  rfl

theorem staticBad_wait {m : Mach} {tm : Team} : staticBad m tm .xfen = false ∧ staticBad m tm .yild = false :=
  ⟨staticBad_of_blocks (bs := []) rfl rfl (by simp) rfl rfl, staticBad_of_blocks (bs := []) rfl rfl (by simp) rfl rfl⟩

theorem staticBad_brk {m : Mach} {tm : Team} (code : BitVec 7) : staticBad m tm (.brk code) = false :=
  staticBad_of_blocks (bs := []) rfl rfl (by simp) rfl rfl

section
variable {s : State} {tm : Team}

/-- XFEN where the team knows of no imprecise fault and has met none. -/
theorem becomes_xfen (h : Issues s tm) (hl : tm.latent = []) : Becomes .xfen s fun th => th.fenced (th.onward s.m 1) := by
  refine becomes_of_acts h (acts_of_pass (w := xfenSem) (f := fun th m => m.fence th.ref) h rfl rfl staticBad_wait.1 fun _ _ => rfl)
    Thread.fenced_ref ?_
  exact fence_lanes h hl _ (fun _ hx => hx) _ rfl fun th hth => ⟨_, thread?_advanced h hth 1, rfl, rfl⟩

/-- XFEN of a lone lane with nothing outstanding, to which the one imprecise fault that its team has met is attributed. -/
theorem xfen_reports {th : Thread} {i : Imprecise} (h : Lone s tm th) (hrun : tm.status = .running) (hl : tm.latent = [i])
    (hops : th.ops = []) (hdr : th.drover = 0) (hi : i.thread = some th.ref) :
    ∃ t, exec .xfen s = .next t ∧ t.m.team? tm.uid = some ((tm.learns i).faulted (i.record (tm.learns i))) ∧ s.Keeps t := by
  have hth : th ∈ s.m.bundle := by simp [h.bundle]
  have hu : tm.uid = s.m.cur.team := team?_uid h.issues.team
  have hacts := acts_of_pass (w := xfenSem) (f := fun th m => m.fence th.ref) h.issues rfl rfl staticBad_wait.1 fun _ _ => rfl
  set m0 := s.m.advance (refs s.m.bundle) (s.m.wordAddr 1) with hm0
  have hw : (th.onward s.m 1).within 0 0 0 0 = true := by
    rw [Thread.within_onward]; unfold Thread.within Thread.counts; rw [hops, hdr]; rfl
  have hfence := Mach.fence_latent (m := m0) (thread?_advanced h.issues hth 1) (bundle_team? h.issues hth) hw hl h.issues.quiet hi
  set m1 := ((m0.updThread th.ref Thread.readied).updTeam tm.uid (Team.learns i)).updThread th.ref Thread.unskidded with hm1
  have hteam : m1.team? tm.uid = some (tm.learns i) :=
    (Mach.team?_updTeam _ _ (Team.learns i) fun _ => rfl).trans (congrArg _ (hu ▸ h.issues.team : m0.team? tm.uid = some tm))
  rw [Mach.reportFault_eq hteam] at hfence
  obtain ⟨hcur, hmem, htrace⟩ := Mach.teamFault_rest hteam hrun (i.record (tm.learns i))
  have hteam2 := Mach.team?_teamFault hteam hrun (i.record (tm.learns i))
  obtain ⟨t, he, ht⟩ := hacts.leaves (m := m1.teamFault tm.uid (i.record (tm.learns i)))
    (by show s.m.bundle.foldl (fun m th => m.fence th.ref) m0 = _; rw [h.bundle]; exact hfence) (tm := (tm.learns i).faulted (i.record (tm.learns i)))
    (by rw [hcur]; show (m1.teamFault _ _).team? s.m.cur.team = _; rw [← hu]; exact hteam2) rfl
    (by rw [Mach.traceAt, htrace]; rfl) (fun hwf => by rw [hmem]; exact hwf)
  refine ⟨t, he, ?_, fun a ha => (ht.mem a ha).trans (by rw [hmem]; rfl)⟩
  rw [Mach.team?, ht.teams]
  exact hteam2

/-! ### BRK (21 R309) -/

/-- A team that is to be saved. -/
def Team.toSave (clk : Nat) (t : Team) : Team := { t with
  preempt := some { method := .save, since := clk, defer := none, forced := true }, defer := false }

def Team.broken (t : Team) : Team := { t with brk := true }

def Thread.halted (x : Thread) : Thread := { x with wait := .halted }

theorem Mach.beginPreempt_save {m : Mach} {u : Nat} {t : Team} (h : m.team? u = some t) (hrun : t.status = .running)
    (hh : t.hurdles = []) : m.beginPreempt u .save true = m.updTeam u (Team.toSave m.clk) := by
  rw [Mach.beginPreempt, h]
  dsimp only
  rw [hrun, hh]
  rfl

/-- BRK in HALT stops its lanes behind its chain, and asks for a save. -/
theorem brk_halts (h : Issues s tm) (hd : s.sys.debug = .halt) (hrun : tm.status = .running) (hh : tm.hurdles = []) (code : BitVec 7) :
    ∃ t, exec (.brk code) s = .next t ∧ s.Keeps t ∧ t.m.team? tm.uid = some (tm.toSave s.m.clk).broken ∧
      ∀ th ∈ s.m.bundle, t.m.thread? th.ref = some (th.onward s.m 1).halted := by
  have hu : tm.uid = s.m.cur.team := team?_uid h.team
  have hacts := acts_of_once (w := brkSem .halt code) h (by rw [← hd]; rfl) rfl (staticBad_brk code) fun _ _ => rfl
  set m0 := s.m.advance (refs s.m.bundle) (s.m.wordAddr 1) with hm0
  set m1 := s.m.bundle.foldl (fun m th => m.updThread th.ref (fun x => x.halted)) m0 with hm1
  have hrest : m1 = { m0 with threads := m1.threads } := updAll_rest s.m.bundle (fun _ x => x.halted) m0
  have hcur : m1.cur = s.m.cur := by rw [hrest]; rfl
  have hclk : m1.clk = s.m.clk := by rw [hrest]; rfl
  have hteam : m1.team? s.m.cur.team = some tm := by rw [hrest]; exact h.team
  have hteam2 : ((m1.updTeam s.m.cur.team (Team.toSave m1.clk)).updTeam s.m.cur.team Team.broken).team? s.m.cur.team =
      some (tm.toSave m1.clk).broken := by
    rw [Mach.team?_updTeam _ _ Team.broken fun _ => rfl, Mach.team?_updTeam _ _ (Team.toSave m1.clk) fun _ => rfl, hteam]
    rfl
  obtain ⟨t, he, ht⟩ := hacts.leaves (m := (m1.updTeam s.m.cur.team (Team.toSave m1.clk)).updTeam s.m.cur.team Team.broken)
    (by
      show (m1.beginPreempt m1.cur.team .save true).updTeam m1.cur.team Team.broken = _
      rw [hcur, Mach.beginPreempt_save hteam hrun hh])
    (tm := (tm.toSave m1.clk).broken)
    (by show Mach.team? _ m1.cur.team = _; rw [hcur]; exact hteam2) h.quiet (by rw [hrest]; rfl) (fun hwf => by rw [hrest]; exact hwf)
  refine ⟨t, he, fun a ha => (ht.mem a ha).trans (by rw [hrest]; rfl), ?_, fun th hth => ?_⟩
  · rw [Mach.team?, ht.teams, hu, ← hclk]
    exact hteam2
  · refine (ht.thread? th.ref).trans ?_
    show m1.thread? th.ref = _
    rw [hm1, thread?_updAll s.m.bundle (fun _ x => x.halted) (fun _ _ => rfl) _ h.apart, bundle_find h hth]
    dsimp only
    rw [thread?_advanced h hth 1]
    rfl

end

/-- Settles O23: WAITC's fields by arithmetic on its bits; XFEN of a quiet team is an update of each lane, and of one that has met a
fault of its lane the team fault; BRK by the debug state. -/
theorem waits : Obligations.Waits := by
  refine ⟨fun l st d t => ⟨?_, ?_⟩, fun s tm l st d t f h hf => ?_, fun s tm code h => ⟨fun hl f hf => ?_, fun th i hlone hrun hl hops hdr hi => ?_,
    ?_, fun hd => ?_, fun hd hrun hh => ?_, fun hd => ?_⟩⟩
  · obtain ⟨hlt, hc, hm, -⟩ := waitcBits_flds (l := l) (s := st) (d := d) (t := t) 0#1 rfl
    rw [decodeTableWord_unchained hlt hc (by rw [hm]; decide) (by rw [hm]; decide), decodeWord_waitc]
    rfl
  · obtain ⟨hlt, hc, hm, -⟩ := waitcBits_flds (l := l) (s := st) (d := d) (t := t) 1#1 rfl
    rw [decodeTableWord_unchained hlt hc (by rw [hm]; decide) (by rw [hm]; decide), decodeWord_waitc]
    rfl
  · refine (becomes_of_update_one (w := waitcSem l st d t)
      (g := fun _ => Thread.holdOff l.toNat st.toNat d.toNat t.toNat (.counts l.toNat st.toNat d.toNat t.toNat)) h rfl rfl
      (staticBad_of_blocks (bs := []) rfl rfl (by simp) rfl rfl) rfl (fun _ => Thread.holdOff_ref _ _ _ _ _) fun _ _ => rfl).congr fun th _ => ?_
    unfold Thread.holdOff
    rw [Thread.within_onward]
    split
    next hw => exact ((hf th).1 ((within_iff ..).1 hw)).symm
    next hw => exact ((hf th).2 (mt (within_iff ..).2 hw)).symm
  · refine (becomes_xfen h hl).congr fun th hth => ?_
    have hready : { th.onward s.m 1 with wait := .ready } = th.onward s.m 1 := by
      simp only [Thread.onward, h.ready th hth]
    unfold Thread.fenced
    split
    next hw => exact hready.trans ((hf th).1 ((within_iff th 0 0 0 0).1 hw)).symm
    next hw => exact ((hf th).2 (mt (within_iff th 0 0 0 0).2 hw)).symm
  · obtain ⟨t, he, ht, hk⟩ := xfen_reports hlone hrun hl hops hdr hi
    exact ⟨t, _, he, ht, rfl, hk, _, rfl, rfl, rfl, rfl⟩
  · exact becomes_of_update_one (w := yildSem) (g := fun _ x => { x with yielded := true }) h rfl rfl staticBad_wait.2 rfl (fun _ _ => rfl)
      fun _ _ => rfl
  · refine becomes_of_update_one (w := brkSem .none code) (g := fun _ x => x) h (by rw [← hd]; rfl) rfl (staticBad_brk code) rfl
      (fun _ _ => rfl) fun th _ => congrArg LaneOut.ok (funext fun m => (updThread_same m th.ref).symm)
  · exact brk_halts h hd hrun hh code
  · exact (acts_of_once (w := brkSem .trace code) h (by rw [← hd]; rfl) rfl (staticBad_brk code) fun _ _ => rfl).congr rfl

end Sys2Proof.Machine
end

section
/-! SUPPORT. Accesses to the own scratchpad, and the loads that make them (04 R80; 05 R94; 09 R169; 22 R339). -/

namespace Sys2Proof.Machine

section
variable {tm : Team} {x n off : Nat}

theorem inScratch_of_fits (h : off + n ≤ 4096 * tm.scr) : inScratch tm off n = .scratch tm.uid off := if_pos h

/-- An address of the own scratchpad lies there (05 R94). -/
theorem Mach.resolve_own (m : Mach) (h : tm.own x n off) : m.resolve tm x n = .scratch tm.uid off := by
  obtain ⟨hx, -, hoff, hin⟩ := h
  have h1 : x / 2 ^ 56 = 0xFC := by omega
  have h2 : x / 2 ^ 32 % 2 ^ 24 = 0 := by omega
  have h3 : x % 2 ^ 32 = off := by omega
  simp only [Mach.resolve, h1, h2, h3]
  exact inScratch_of_fits hin

/-- An aligned access to the own scratchpad passes its checks. -/
theorem Mach.checkAccess_own (m : Mach) (t : Thread) (kind : Nat) (write : Bool) (d : Dst) (alt : Option (Mach → Mach))
    (h : tm.own x n off) : m.checkAccess tm t kind write x n d alt = .ok (.array (.scratch tm.uid off)) := by
  have hal : (x % n != 0) = false := by simp [h.2.1]
  have htop : (x / 2 ^ 56 == 0xFE) = false := by
    obtain ⟨hx, -, hoff, -⟩ := h
    exact beq_eq_false_iff_ne.2 (by omega)
  simp only [Mach.checkAccess, hal, m.resolve_own h, htop, Bool.false_and, Bool.false_eq_true, if_false]

end

/-- A load of the own scratchpad has read its bytes, which are on their way (04 R80; 09 R169). -/
def Mach.loadIssued (m : Mach) (t : TRef) (rs : List RV) (d : Dst) : Mach :=
  ({ m with uid := m.uid + 1 } : Mach).updThread t fun y => { y with ops := y.ops ++ [valueOp m.uid rs d false] }

/-- LD and LDB of the own scratchpad in a lone lane. -/
theorem acts_of_loadLane {s : State} {tm : Team} {th : Thread} (hl : Lone s tm th) {d a : Reg} {g : Tag} {o : BitVec 5}
    {mode : LoadMode} {x off : Nat} (hx : th.pairIs a x) (ho : tm.own (effective x o (tagBytes g)) (tagBytes g) off) {i : Instr}
    {w : WordSem} (he : exec i s = runWord w s) (hi : w.instr = i) (honce : w.once = fun _ m => m) (hb : staticBad s.m tm i = false)
    (hw : w.lane s.m s.m.bundle th = loadLane d a g o mode s.m th) :
    Acts i s fun m => (m.loadIssued th.ref (valRegs g (leNat (tm.scratch.read off (tagBytes g)))) (.regs d.toNat g 1)).stallOn th.ref mode m.uid := by
  have hteam : s.m.team? th.ref.team = some tm := bundle_team? hl.issues (by simp [hl.bundle])
  have huid : s.m.team? tm.uid = some tm := by rw [team?_uid hteam]; exact hteam
  have hlane : loadLane d a g o mode s.m th = .ok fun m =>
      (({ m with uid := m.uid + 1 } : Mach).loadArray th.ref m.uid (.scratch tm.uid off) (tagBytes g) g (.regs d.toNat g 1)).stallOn
        th.ref mode m.uid := by
    unfold loadLane
    rw [hteam, Thread.pairAt_of_pairIs hx]
    dsimp only
    rw [Mach.checkAccess_own _ _ _ _ _ _ ho]
    rfl
  have hacts := acts_of_lone hl he hi hb (f := fun m =>
    (({ m with uid := m.uid + 1 } : Mach).loadArray th.ref m.uid (.scratch tm.uid off) (tagBytes g) g (.regs d.toNat g 1)).stallOn
      th.ref mode m.uid) (by rw [← hl.bundle, hw, hlane])
  refine hacts.congr ?_
  rw [honce]
  set m0 := s.m.advance (refs s.m.bundle) (s.m.wordAddr i.size)
  have hread : ({ m0 with uid := m0.uid + 1 } : Mach).readArray (.scratch tm.uid off) (tagBytes g) = tm.scratch.read off (tagBytes g) := by
    have hteam0 : ({ m0 with uid := m0.uid + 1 } : Mach).team? tm.uid = some tm := huid
    simp only [Mach.readArray, hteam0]
  show (({ m0 with uid := m0.uid + 1 } : Mach).addOp th.ref (valueOp m0.uid (valRegs g (leNat
    (({ m0 with uid := m0.uid + 1 } : Mach).readArray (.scratch tm.uid off) (tagBytes g)))) (.regs d.toNat g 1) false)).stallOn th.ref mode m0.uid = _
  rw [hread]
  rfl

/-- Settles O24: the address lies in the lane's own scratchpad, whose bytes are read as the word issues. -/
theorem loadsOnChip : Obligations.LoadsOnChip := by
  intro s tm th d a c t o k x off hl hx n op issued
  refine ⟨fun hb ho => ?_, fun hb hlt ho => ?_, fun hb hlt ho => ?_⟩
  · exact acts_of_loadLane (w := ldSem d a c t o) hl hx ho rfl rfl rfl hb rfl
  · exact acts_of_loadLane (w := ldbSem d a true t k) (mode := .bounded k.toNat true) hl hx
      (by rw [effective_zero _ hlt]; exact ho) rfl rfl rfl hb rfl
  · exact acts_of_loadLane (w := ldbSem d a false t k) (mode := .bounded k.toNat false) hl hx
      (by rw [effective_zero _ hlt]; exact ho) rfl rfl rfl hb rfl

end Sys2Proof.Machine
end

section
/-! SUPPORT. Writes to a scratchpad and what they wake, and the stores that make them (07 R127; 09 R166, R169; 23 R363). -/

namespace Sys2Proof.Machine

/-! ### Writing a scratchpad (09 R166) -/

/-- A team whose scratchpad has been written: hurdles there are counted again. -/
def Team.scratched (off : Nat) (bs : List Byte) (t : Team) : Team :=
  let s := t.scratch.write off bs
  { t with scratch := s, hurdles := t.hurdles.filter fun h => partly s h }

/-- The wake of a thread that watches a written scratchpad. -/
def Thread.stirred (clk : Nat) (tm : Team) (u off n : Nat) (t : Thread) : Thread :=
  match t.wait with
  | .waita w =>
    match w.watch with
    | .scratch v o =>
      if v == u && w.woken.isNone && w.inTime clk && o < off + n && off < o + w.width && holds w (leNat (tm.scratch.read o w.width))
      then { t with wait := .waita { w with woken := some true, hit := clk } } else t
    | _ => t
  | .hrdw v o g f =>
    if v == u && o < off + n && off < o + 4 && leNat (tm.scratch.read (o + 2) 2) != g then { t with wait := .hrdw v o genWoken f } else t
  | _ => t

section
variable {clk u off n : Nat} {tm : Team}

theorem Thread.stirred_rest (t : Thread) : t.stirred clk tm u off n = { t with wait := (t.stirred clk tm u off n).wait } := by
  unfold Thread.stirred
  split
  · split
    · split <;> rfl
    · rfl
  · split <;> rfl
  · rfl

theorem Thread.stirred_ref (t : Thread) : (t.stirred clk tm u off n).ref = t.ref := by rw [Thread.stirred_rest]

/-- A thread that is ready watches nothing. -/
theorem Thread.stirred_ready {t : Thread} (h : t.wait = .ready) : t.stirred clk tm u off n = t := by
  unfold Thread.stirred
  rw [h]

end

/-- A written scratchpad, the wakes of its watchers, and the TMMAs that read it. -/
theorem Mach.scratchWrite_eq {m : Mach} {u : Nat} {tm : Team} (h : m.team? u = some tm) (off : Nat) (bs : List Byte) :
    m.scratchWrite u off bs = { m with
      tileq := (m.noteB u off bs.length).tileq
      teams := (m.updTeam u (Team.scratched off bs)).teams
      threads := m.threads.map (Thread.stirred m.clk (tm.scratched off bs) u off bs.length) } := by
  have hteam : ((m.noteB u off bs.length).updTeam u (Team.scratched off bs)).team? u = some (tm.scratched off bs) :=
    (Mach.team?_updTeam _ _ (Team.scratched off bs) fun _ => rfl).trans (congrArg _ (show (m.noteB u off bs.length).team? u = some tm from h))
  unfold Mach.scratchWrite Mach.scratchPut
  dsimp only
  rw [show ((m.noteB u off bs.length).updTeam u fun t =>
    { t with scratch := t.scratch.write off bs, hurdles := t.hurdles.filter fun h => partly (t.scratch.write off bs) h }) =
      (m.noteB u off bs.length).updTeam u (Team.scratched off bs) from rfl, hteam]
  rfl

section
variable {m : Mach} {u off : Nat} {tm : Team} {bs : List Byte}

theorem Mach.team?_scratchWrite (h : m.team? u = some tm) : (m.scratchWrite u off bs).team? u = some (tm.scratched off bs) := by
  rw [Mach.scratchWrite_eq h]
  exact (Mach.team?_updTeam m u (Team.scratched off bs) fun _ => rfl).trans (congrArg _ h)

theorem Mach.thread?_scratchWrite (h : m.team? u = some tm) (r : TRef) :
    (m.scratchWrite u off bs).thread? r = (m.thread? r).map (Thread.stirred m.clk (tm.scratched off bs) u off bs.length) := by
  rw [Mach.scratchWrite_eq h]
  exact Mach.thread?_mapThreads m _ (fun x => Thread.stirred_ref x) r

/-- The bytes of a written scratchpad. -/
theorem Team.scratched_stored (hw : tm.scratch.wf = true) : tm.scratch.Stored (tm.scratched off bs).scratch off bs := fun x =>
  Memory.get_write off x bs hw

end

/-! ### Stores (23 R363) -/

theorem leBytes_length (v n : Nat) : (leBytes v n).length = n := by
  induction n generalizing v with
  | zero => rfl
  | succ n ih => simp [leBytes, ih]

theorem storeData_eq {d : Reg} {g : Tag} {t : Thread} (h : ∀ j < g.regs, t.tagAt (d.toNat + j) = .raw ∨ t.tagAt (d.toNat + j) = g) :
    storeData d g t = some (leBytes (bitsOf (t.block d.toNat g.regs)) (tagBytes g)) := by
  obtain ⟨bs, hbs⟩ := storeData_of_tags h
  rw [hbs]
  unfold storeData at hbs
  dsimp only at hbs
  split at hbs
  · exact hbs.symm
  · cases hbs

/-- ST in a real lane whose access passes its checks. -/
theorem storeLane_ok {m : Mach} {tm : Team} {t : Thread} {d a : Reg} {c : CHint} {g : Tag} {o : BitVec 5} {x : Nat} {acc : Acc}
    (hh : t.helper = false) (ht : m.team? t.ref.team = some tm) (hx : t.pairIs a x)
    (hd : ∀ j < g.regs, t.tagAt (d.toNat + j) = .raw ∨ t.tagAt (d.toNat + j) = g)
    (ha : m.checkAccess tm t 2 true (effective x o (tagBytes g)) (tagBytes g) .none none = .ok acc) :
    storeLane d a c g o m t = .ok fun m' => m'.storeAt tm t.ref acc (leBytes (bitsOf (t.block d.toNat g.regs)) (tagBytes g)) c m.uid := by
  unfold storeLane
  rw [hh, ht, Thread.pairAt_of_pairIs hx, storeData_eq hd, if_neg Bool.false_ne_true]
  dsimp only
  rw [ha]

/-- ST in a lone lane whose access passes its checks. -/
theorem acts_of_store {s : State} {tm : Team} {th : Thread} (hl : Lone s tm th) {d a : Reg} {c : CHint} {g : Tag} {o : BitVec 5} {x : Nat}
    {acc : Acc} (hx : th.pairIs a x) (hb : staticBad s.m tm (.st d a c g o) = false)
    (hd : ∀ j < g.regs, th.tagAt (d.toNat + j) = .raw ∨ th.tagAt (d.toNat + j) = g)
    (ha : s.m.checkAccess tm th 2 true (effective x o (tagBytes g)) (tagBytes g) .none none = .ok acc) :
    Acts (.st d a c g o) s fun m =>
      m.storeAt tm th.ref acc (leBytes (bitsOf (th.block d.toNat g.regs)) (tagBytes g)) c s.m.uid :=
  acts_of_lone (w := stSem d a c g o) hl rfl rfl hb
    (storeLane_ok hl.real (bundle_team? hl.issues (by simp [hl.bundle])) hx hd ha)

/-- A thread with one operation more. -/
def Thread.withOp (o : Op) (x : Thread) : Thread := { x with ops := x.ops ++ [o] }

theorem Mach.thread?_addOp {m : Mach} {t : TRef} {x : Thread} (h : m.thread? t = some x) (o : Op) :
    (m.addOp t o).thread? t = some (x.withOp o) :=
  Mach.thread?_updThread_same (f := Thread.withOp o) h fun _ => rfl

theorem Mach.thread?_addOp_other {m : Mach} {t r : TRef} (h : r ≠ t) (o : Op) : (m.addOp t o).thread? r = m.thread? r :=
  (Mach.thread?_updThread m t r (Thread.withOp o) fun _ => rfl).trans (if_neg h)

/-- A thread whose reads of tiles have all been made. -/
def Thread.tilesRead (m : Mach) (x : Thread) : Thread := { x with ops := x.ops.map fun (o : Op) =>
  match o.kind with
  | .tile u a n => { o with kind := .value (m.tileValue o.dst u a n) }
  | _ => o }

theorem Thread.tilesRead_eq {m : Mach} {x : Thread} (h : ∀ o ∈ x.ops, ∀ u y k, o.kind ≠ .tile u y k) : x.tilesRead m = x := by
  have hops : (x.ops.map fun (o : Op) => match o.kind with
      | .tile u a n => { o with kind := .value (m.tileValue o.dst u a n) }
      | _ => o) = x.ops := by
    refine (List.map_congr_left fun o ho => ?_).trans (List.map_id _)
    split
    next heq => exact absurd heq (h o ho _ _ _)
    next => rfl
  unfold Thread.tilesRead
  rw [hops]

theorem Mach.settleTileReads_eq (m : Mach) (t : TRef) : m.settleTileReads t = m.updThread t (Thread.tilesRead m) := rfl

/-- What a lone lane's word leaves of the other threads when it changes them in nothing but what they wait for. -/
theorem othersWait_of {s t : State} {u : TRef}
    (h : ∀ v x, v ≠ u → s.m.thread? v = some x → ∃ y, t.m.thread? v = some y ∧ y = { x with wait := y.wait }) : s.OthersWait t u :=
  fun v x hv hx => by
    obtain ⟨y, hy, he⟩ := h v x hv hx
    exact ⟨y.wait, hy.trans (congrArg some he)⟩

section
variable {s : State} {tm : Team} {th : Thread}

theorem thread?_lone (hl : Lone s tm th) (size : Nat) :
    (s.m.advance (refs s.m.bundle) (s.m.wordAddr size)).thread? th.ref = some (th.onward s.m size) :=
  thread?_advanced hl.issues (by simp [hl.bundle]) size

theorem thread?_lone_other (hl : Lone s tm th) {r : TRef} (hr : r ≠ th.ref) (size : Nat) :
    (s.m.advance (refs s.m.bundle) (s.m.wordAddr size)).thread? r = s.m.thread? r :=
  thread?_advanced_other (by simpa [hl.bundle, refs] using hr) size

theorem lone_ready (hl : Lone s tm th) (size : Nat) : (th.onward s.m size).wait = .ready :=
  hl.issues.ready th (by simp [hl.bundle])

theorem lone_uid (hl : Lone s tm th) : tm.uid = th.ref.team :=
  team?_uid (bundle_team? hl.issues (by simp [hl.bundle]))

theorem lone_team (hl : Lone s tm th) : s.m.team? tm.uid = some tm := by
  rw [lone_uid hl]; exact bundle_team? hl.issues (by simp [hl.bundle])

/-- The issuing team under the lone lane's name for it. -/
theorem lone_cur (hl : Lone s tm th) : tm.uid = s.m.cur.team := team?_uid hl.issues.team

/-- ST to the own scratchpad writes it as the word issues. -/
theorem store_own (hl : Lone s tm th) {d a : Reg} {c : CHint} {g : Tag} {o : BitVec 5} {x off : Nat} (hx : th.pairIs a x)
    (hb : staticBad s.m tm (.st d a c g o) = false) (hd : ∀ j < g.regs, th.tagAt (d.toNat + j) = .raw ∨ th.tagAt (d.toNat + j) = g)
    (hops : ∀ o ∈ th.ops, ∀ u y k, o.kind ≠ .tile u y k) (ho : tm.own (effective x o (tagBytes g)) (tagBytes g) off) :
    ∃ s', exec (.st d a c g o) s = .next s' ∧
      s'.m.thread? th.ref = some ((th.onward s.m 1).withOp (storeOp s.m.uid 0)) ∧ s.OthersWait s' th.ref ∧
      s'.m.team? tm.uid = some (tm.scratched off (leBytes (bitsOf (th.block d.toNat g.regs)) (tagBytes g))) ∧ s.Keeps s' ∧
      s'.m.versions = s.m.versions := by
  set bs := leBytes (bitsOf (th.block d.toNat g.regs)) (tagBytes g) with hbs
  set m0 := s.m.advance (refs s.m.bundle) (s.m.wordAddr 1) with hm0
  set m1 := ({ m0 with uid := m0.uid + 1 } : Mach).updThread th.ref (Thread.tilesRead { m0 with uid := m0.uid + 1 }) with hm1
  have hteam1 : m1.team? tm.uid = some tm := lone_team hl
  have heq := Mach.scratchWrite_eq hteam1 off bs
  have hth1 : m1.thread? th.ref = some (th.onward s.m 1) :=
    (Mach.thread?_updThread_same (m := { m0 with uid := m0.uid + 1 }) (f := Thread.tilesRead { m0 with uid := m0.uid + 1 })
      (thread?_lone hl 1) fun _ => rfl).trans
      (congrArg some (Thread.tilesRead_eq (x := th.onward s.m 1) hops))
  have hteam2 := Mach.team?_scratchWrite (off := off) (bs := bs) hteam1
  obtain ⟨s', he, hs⟩ := (acts_of_store hl hx hb hd (Mach.checkAccess_own _ _ _ _ _ _ ho)).leaves
    (m := (m1.scratchWrite tm.uid off bs).addOp th.ref (storeOp s.m.uid 0)) rfl (tm := tm.scratched off bs)
    (by
      have hc : (m1.scratchWrite tm.uid off bs).cur.team = tm.uid := by rw [heq]; exact (lone_cur hl).symm
      show (m1.scratchWrite tm.uid off bs).team? (m1.scratchWrite tm.uid off bs).cur.team = _
      rw [hc]; exact hteam2)
    hl.issues.quiet
    (by show (m1.scratchWrite tm.uid off bs).traceAt = _; rw [heq]; rfl)
    (fun hw => by show (m1.scratchWrite tm.uid off bs).mem.wf = true; rw [heq]; exact hw)
  refine ⟨s', he, ?_, othersWait_of fun v y hv hy => ?_, ?_, fun z hz => (hs.mem z hz).trans ?_, ?_⟩
  · rw [hs.thread?]
    refine Mach.thread?_addOp ?_ _
    rw [Mach.thread?_scratchWrite hteam1, hth1]
    exact congrArg some (Thread.stirred_ready (lone_ready hl 1))
  · refine ⟨y.stirred m1.clk (tm.scratched off bs) tm.uid off bs.length, ?_, Thread.stirred_rest y⟩
    rw [hs.thread?, Mach.thread?_addOp_other hv, Mach.thread?_scratchWrite hteam1]
    have hy1 : m1.thread? v = some y :=
      ((Mach.thread?_updThread { m0 with uid := m0.uid + 1 } _ _ (Thread.tilesRead { m0 with uid := m0.uid + 1 }) fun _ => rfl).trans
        (if_neg hv)).trans ((thread?_lone_other hl hv 1).trans hy)
    rw [hy1]
    rfl
  · rw [Mach.team?, hs.teams]; exact hteam2
  · show (m1.scratchWrite tm.uid off bs).mem.get z = _
    rw [heq]; rfl
  · rw [hs.rest]
    show (m1.scratchWrite tm.uid off bs).versions = _
    rw [heq]; rfl

/-- A real lane's access to a global address that its translation reaches passes its checks. -/
theorem Mach.checkAccess_reaches {m : Mach} {t : Thread} {y n : Nat} {write : Bool} {l : Leaf} (h : m.Reaches tm t y n write l)
    (kind : Nat) (d : Dst) (alt : Option (Mach → Mach)) : m.checkAccess tm t kind write y n d alt = .ok (.global y l) := by
  obtain ⟨hal, hlt, hpage, hallow, hdirty⟩ := h
  have hva : y % 2 ^ 57 = y := Nat.mod_eq_of_lt hlt
  have htop : y / 2 ^ 56 ≤ 1 := by omega
  have hres : m.resolve tm y n = .global y := by simp only [Mach.resolve, htop, if_true, hva]
  have hd : (write && !pteD l.bits && m.stale l) = false := by
    cases write with
    | false => rfl
    | true => simp [hdirty rfl]
  have hglob : m.checkGlobal tm t kind write y alt = .ok l := by
    simp only [Mach.checkGlobal, hva, hpage, hallow, hd, Bool.not_true, Bool.false_eq_true, if_false]
  simp only [Mach.checkAccess, hal, hres, hglob, bne_self_eq_false, Bool.false_eq_true, if_false]

/-- A thread with nothing in flight has no load to settle. -/
theorem Mach.settleLoads_none {m : Mach} {t : TRef} {x : Thread} (hx : m.thread? t = some x) (ho : x.ops = []) (core line upto : Nat) :
    m.settleLoads core t line upto = m := by
  rw [Mach.settleLoads, hx]
  simp [ho]

theorem Mach.touchAreas_none {m : Mach} (h : m.areas = []) (pa n : Nat) : m.touchAreas pa n = m := by
  simp only [Mach.touchAreas, h, List.filter_nil, List.foldl_nil, List.map_nil]
  rw [← h]

theorem Mach.setDirty_dirty {m : Mach} {l : Leaf} (h : pteD l.bits = true) : m.setDirty l = m := if_pos h

/-- A version with room takes a store with no commit. -/
theorem Mach.makeRoom_fits {m : Mach} (h : m.vlines tm.uid + 1 ≤ 262144 / max 1 (m.teamsOn (dieOf tm.core))) (pa : Nat) :
    m.makeRoom tm pa = m := by
  refine if_neg ?_
  simp only [Bool.and_eq_true, decide_eq_true_eq, not_and]
  exact fun _ hlt => absurd h (Nat.not_le.2 hlt)

/-- A byte of a store that is on its way to its L1. -/
def storedByte (core : Nat) (t : TRef) (op pa : Nat) (bs : List Byte) (stack l2 : Bool) (word i : Nat) : VByte :=
  { pa := pa + i, byte := bs.getD i 0, ref := t, core := core, op := op, inL1 := false, diePub := false, stack := stack,
    atomic := false, seen := [], vis := 0, coreAt := 0, dieAt := 0, l2 := l2, word := word }

def storedBytes (core : Nat) (t : TRef) (op pa : Nat) (bs : List Byte) (stack l2 : Bool) (word : Nat) : List VByte :=
  (List.range bs.length).map (storedByte core t op pa bs stack l2 word)

theorem storedBytes_getElem? {core op pa word j : Nat} {t : TRef} {bs : List Byte} {stack l2 : Bool} (h : j < bs.length) :
    (storedBytes core t op pa bs stack l2 word)[j]? = some (storedByte core t op pa bs stack l2 word j) := by
  simp [storedBytes, h]

/-- ST to global memory adds its bytes to the version. -/
theorem store_global (hl : Lone s tm th) {d a : Reg} {c : CHint} {g : Tag} {o : BitVec 5} {x y : Nat} {l : Leaf} (hx : th.pairIs a x)
    (hb : staticBad s.m tm (.st d a c g o) = false) (hd : ∀ j < g.regs, th.tagAt (d.toNat + j) = .raw ∨ th.tagAt (d.toNat + j) = g)
    (hops : th.ops = []) (hareas : s.m.areas = []) (hroom : s.m.vlines tm.uid + 1 ≤ 262144 / max 1 (s.m.teamsOn (dieOf tm.core)))
    (hy : effective x o (tagBytes g) = y) (hr : s.m.Reaches tm th y (tagBytes g) true l) :
    ∃ s', exec (.st d a c g o) s = .next s' ∧
      s'.m.thread? th.ref = some ((th.onward s.m 1).withOp { storeOp s.m.uid y with place := some (l.pa y, y) }) ∧
      s.OthersWait s' th.ref ∧ s.Keeps s' ∧ s'.m.teams = s.m.teams ∧
      s'.m.versions = storedBytes tm.core th.ref s.m.uid (l.pa y) (leBytes (bitsOf (th.block d.toNat g.regs)) (tagBytes g))
        (pteExc l.bits == 3) (pteNc l.bits) s.m.uid ++ s.m.versions := by
  subst hy
  set y := effective x o (tagBytes g) with hy
  set bs := leBytes (bitsOf (th.block d.toNat g.regs)) (tagBytes g) with hbs
  set m0 := s.m.advance (refs s.m.bundle) (s.m.wordAddr 1) with hm0
  set m1 := ({ m0 with uid := m0.uid + 1 } : Mach).setHint tm.core (lineOf (l.pa y)) c with hm1
  have hth1 : m1.thread? th.ref = some (th.onward s.m 1) := thread?_lone hl 1
  have hstore : m1.storeGlobal tm th.ref s.m.uid y l bs false false s.m.uid =
      m1.addStore tm.core th.ref s.m.uid (l.pa y) bs false (pteExc l.bits == 3) false (pteNc l.bits) s.m.uid := by
    rw [Mach.storeGlobal, Mach.setDirty_dirty (hr.dirty rfl), Mach.settleLoads_none hth1 hops,
      Mach.makeRoom_fits (m := m1) hroom, Mach.touchAreas_none (m := m1) hareas]
  set m2 := m1.addStore tm.core th.ref s.m.uid (l.pa y) bs false (pteExc l.bits == 3) false (pteNc l.bits) s.m.uid with hm2
  obtain ⟨s', he, hs⟩ := (acts_of_store hl hx hb hd (Mach.checkAccess_reaches hr _ _ _)).leaves
    (m := m2.addOp th.ref { storeOp s.m.uid y with place := some (l.pa y, y) })
    (by
      show (m1.storeGlobal tm th.ref s.m.uid y l bs false false s.m.uid).addOp th.ref { storeOp s.m.uid y with place := some (l.pa y, y) } = _
      rw [hstore])
    (tm := tm) hl.issues.team hl.issues.quiet rfl (fun hw => hw)
  refine ⟨s', he, ?_, othersWait_of fun v z hv hz => ?_, hs.mem, hs.teams, ?_⟩
  · rw [hs.thread?]
    exact Mach.thread?_addOp (m := m2) hth1 _
  · refine ⟨z, ?_, rfl⟩
    rw [hs.thread?, Mach.thread?_addOp_other hv]
    exact (thread?_lone_other hl hv 1).trans hz
  · rw [hs.rest]
    rfl

end

/-- Settles O26. -/
theorem stores : Obligations.Stores := by
  intro s tm th d a c g o x off l hl hx hb hd n ea bs op
  refine ⟨fun hw hops ho => ?_, fun hops hareas hroom hr => ?_⟩
  · obtain ⟨s', he, hth, hothers, hteam, hk, hv⟩ := store_own hl hx hb hd hops ho
    exact ⟨s', _, he, hth, hothers, hteam, Team.scratched_stored hw, hk, hv⟩
  · obtain ⟨s', he, hth, hothers, hk, hteams, hv⟩ := store_global hl hx hb hd hops hareas hroom rfl hr
    refine ⟨s', he, hth.trans ?_, hothers, hk, hteams, _, hv, ?_, fun j hj => ?_⟩
    · rw [Thread.withOp, show (th.onward s.m 1).ops = [] from hops]
      rfl
    · rw [storedBytes, List.length_map, List.length_range, leBytes_length]
      rfl
    · exact ⟨_, storedBytes_getElem? (by rw [leBytes_length]; exact hj), rfl, rfl, rfl, rfl, rfl, rfl, rfl⟩

end Sys2Proof.Machine
end

section
/-! SUPPORT. Loads of global memory, bounded loads and prefetches (04 R80; 07 R140, R141; 10 R175; 22 R339; 23 R352). -/

namespace Sys2Proof.Machine

/-- The load of a line that a word asks for (22 R339). -/
def LoadMode.request (mode : LoadMode) (l : Leaf) (y n word : Nat) : LoadReq := {
  pa := l.pa y, va := y, size := n, nc := pteNc l.bits, alloc := mode.alloc && !pteNc l.bits
  bound := if pteNc l.bits then none else mode.bound, copy := none, data := none, word := word }

/-- A load on its way to its destination. -/
def loadOp (id : Nat) (r : LoadReq) (d : Dst) : Op :=
  { id := id, kind := .load r, dst := d, loads := true, stores := false, tile := false }

theorem LoadMode.alloc_plain (h : CHint) : (LoadMode.plain h).alloc = (h != .nl) := by cases h <;> rfl

/-! ### Issue of a load (10 R175) -/

/-- A thread that reads no launch record has none to settle. -/
theorem Mach.settleLaunches_none {m : Mach} {t : TRef} {x : Thread} (hx : m.thread? t = some x)
    (h : ∀ o ∈ x.ops, ∀ p v n g, o.kind ≠ .launch true p v n g) (core line : Nat) : m.settleLaunches core t line = m := by
  have hone (o : Op) (ho : o ∈ x.ops) : m.settleLaunch core t line o = m := by
    unfold Mach.settleLaunch
    split
    next heq => exact absurd heq (h o ho _ _ _ _)
    next => rfl
  have hall (os : List Op) (hos : os ⊆ x.ops) : os.foldl (fun m o => m.settleLaunch core t line o) m = m := by
    induction os with
    | nil => rfl
    | cons o os ih =>
      rw [List.foldl_cons, hone o (hos List.mem_cons_self)]
      exact ih fun _ hm => hos (List.mem_cons_of_mem _ hm)
  rw [Mach.settleLaunches, hx]
  exact hall x.ops fun _ h => h

section
variable {m : Mach} {tm : Team} {t : TRef} {r : LoadReq} {d : Dst} {id : Nat}

theorem Mach.issueLoad_joins {f : Fetch} (hs : m.settleLaunches tm.core t (lineOf r.pa) = m)
    (hf : m.fetching tm.core (lineOf r.pa) = some f) :
    m.issueLoad tm t r d id = (m.joinFetch f.id r.alloc r.nc).addOp t (loadOp id { r with fetch := some f.id } d) := by
  unfold Mach.issueLoad
  dsimp only
  rw [hs, hf]
  rfl

/-- A copy in the L1 serves a load without a bound. -/
theorem Mach.issueLoad_here (hs : m.settleLaunches tm.core t (lineOf r.pa) = m) (hf : m.fetching tm.core (lineOf r.pa) = none)
    (hnc : r.nc = false) (hb : r.bound = none) {c : L1Line} (hc : m.l1? tm.core (lineOf r.pa) = some c) :
    m.issueLoad tm t r d id = m.addOp t (loadOp id r d) := by
  unfold Mach.issueLoad
  dsimp only
  rw [hs, hf, hnc, hb, if_neg Bool.false_ne_true, hc]
  rfl

/-- A fetch that begins for a load (22 R339). -/
def Mach.fetchFor (m : Mach) (core : Nat) (t : TRef) (r : LoadReq) (d : Dst) (id : Nat) : Mach :=
  (m.startFetch core (lineOf r.pa) r.alloc r.nc).1.addOp t
    (loadOp id { r with fetch := some (m.startFetch core (lineOf r.pa) r.alloc r.nc).2 } d)

theorem Mach.issueLoad_fetches (hs : m.settleLaunches tm.core t (lineOf r.pa) = m) (hf : m.fetching tm.core (lineOf r.pa) = none)
    (hb : r.bound = none) (hc : (if r.nc then none else m.l1? tm.core (lineOf r.pa)) = none) :
    m.issueLoad tm t r d id = m.fetchFor tm.core t r d id := by
  obtain ⟨pa, va, size, nc, alloc, bound, copy, data, fetch, since, word⟩ := r
  dsimp only at *
  subst hb
  unfold Mach.issueLoad
  dsimp only
  rw [hs, hf]
  dsimp only
  rw [hc]
  rfl

/-- A bounded load that no copy of the line may serve. -/
theorem Mach.issueLoad_stale {k : Nat} (hs : m.settleLaunches tm.core t (lineOf r.pa) = m)
    (hf : m.fetching tm.core (lineOf r.pa) = none) (hnc : r.nc = false) (hb : r.bound = some k)
    (hsv : m.servedBefore (lineOf r.pa) r.word = false)
    (hc : ∀ c, m.l1? tm.core (lineOf r.pa) = some c → withinBound (m.mirror (dieOf tm.core) (regionOf (lineOf r.pa))).2 c.round k = false) :
    m.issueLoad tm t r d id = (m.mirror (dieOf tm.core) (regionOf (lineOf r.pa))).1.fetchFor tm.core t r d id := by
  obtain ⟨pa, va, size, nc, alloc, bound, copy, data, fetch, since, word⟩ := r
  dsimp only at *
  subst hnc hb
  unfold Mach.issueLoad
  dsimp only
  rw [hs, hf, if_neg Bool.false_ne_true]
  cases h : m.l1? tm.core (lineOf pa) with
  | none => rfl
  | some c =>
    dsimp only
    rw [hsv, hc c h, if_neg Bool.false_ne_true, if_neg Bool.false_ne_true]
    rfl

/-- A bounded load that the copy in the L1 serves. -/
theorem Mach.issueLoad_fresh {k : Nat} {c : L1Line} (hs : m.settleLaunches tm.core t (lineOf r.pa) = m)
    (hf : m.fetching tm.core (lineOf r.pa) = none) (hnc : r.nc = false) (hb : r.bound = some k)
    (hsv : m.servedBefore (lineOf r.pa) r.word = false) (hc : m.l1? tm.core (lineOf r.pa) = some c)
    (hw : withinBound (m.mirror (dieOf tm.core) (regionOf (lineOf r.pa))).2 c.round k = true)
    (hl : (m.mirror (dieOf tm.core) (regionOf (lineOf r.pa))).1.settleLoads tm.core t (lineOf r.pa) id =
      (m.mirror (dieOf tm.core) (regionOf (lineOf r.pa))).1) :
    m.issueLoad tm t r d id = (m.mirror (dieOf tm.core) (regionOf (lineOf r.pa))).1.addOp t (loadOp id { r with
      copy := some ((m.mirror (dieOf tm.core) (regionOf (lineOf r.pa))).1.overlay tm.core t (lineOf r.pa) c.data)
      since := c.since } d) := by
  obtain ⟨pa, va, size, nc, alloc, bound, copy, data, fetch, since, word⟩ := r
  dsimp only at *
  subst hnc hb
  unfold Mach.issueLoad
  dsimp only
  rw [hs, hf, if_neg Bool.false_ne_true, hc]
  dsimp only
  rw [hsv, hw, if_neg Bool.false_ne_true, if_pos rfl, hl]
  rfl

end

/-- A load of global memory in a lone lane (22 R339). -/
theorem acts_of_globalLoad {s : State} {tm : Team} {th : Thread} (hl : Lone s tm th) {d a : Reg} {g : Tag} {o : BitVec 5}
    {mode : LoadMode} {x y : Nat} {l : Leaf} (hx : th.pairIs a x) (hy : effective x o (tagBytes g) = y)
    (hr : s.m.Reaches tm th y (tagBytes g) false l) {i : Instr}
    {w : WordSem} (he : exec i s = runWord w s) (hi : w.instr = i) (honce : w.once = fun _ m => m) (hb : staticBad s.m tm i = false)
    (hw : w.lane s.m s.m.bundle th = loadLane d a g o mode s.m th) :
    Acts i s fun m => ((({ m with uid := m.uid + 1 } : Mach).setHint tm.core (lineOf (l.pa y)) mode.hint).issueLoad tm th.ref
      (mode.request l y (tagBytes g) s.m.uid) (.regs d.toNat g 1) m.uid).stallOn th.ref mode m.uid := by
  have hteam : s.m.team? th.ref.team = some tm := bundle_team? hl.issues (by simp [hl.bundle])
  have hlane : loadLane d a g o mode s.m th = .ok fun m =>
      ((({ m with uid := m.uid + 1 } : Mach).setHint tm.core (lineOf (l.pa y)) mode.hint).issueLoad tm th.ref
        (mode.request l y (tagBytes g) s.m.uid) (.regs d.toNat g 1) m.uid).stallOn th.ref mode m.uid := by
    unfold loadLane
    rw [hteam, Thread.pairAt_of_pairIs hx]
    dsimp only
    rw [hy, Mach.checkAccess_reaches hr]
    rfl
  have hacts := acts_of_lone hl he hi hb (w := w) (by rw [← hl.bundle, hw, hlane])
  refine hacts.congr ?_
  rw [honce]

/-! ### Prefetch (23 R352) -/

/-- The bytes of a line that lies in no shadow table are none of its metadata. -/
theorem Mach.shadowed_byte {m : Mach} {line j : Nat} (h : m.shadowed line 128 = false) (hj : j < 128) : m.shadowed (line + j) 1 = false := by
  unfold Mach.shadowed at h ⊢
  rw [List.any_eq_false] at h ⊢
  intro p hp
  have hline := h p hp
  split
  next b hb =>
    rw [hb] at hline
    dsimp only at hline ⊢
    generalize shadowBase p b = base at hline ⊢
    generalize poolBytes b / 64 = len at hline ⊢
    simp only [Bool.and_eq_true, decide_eq_true_eq, not_and, not_lt] at hline ⊢
    intro hlt
    have hle := hline (by omega)
    omega
  next => simp

theorem Mach.shadowed_of_ports {m m' : Mach} (h : m'.ports = m.ports) (pa n : Nat) : m'.shadowed pa n = m.shadowed pa n := by
  unfold Mach.shadowed
  rw [h]

/-- What a die reads of a line in no shadow table does not depend on its metadata. -/
theorem Mach.dieLine_setMeta {m : Mach} {line : Nat} (h : m.shadowed line 128 = false) (die : Nat) (a : Nat) (v : BitVec 16) :
    (m.setMeta a v).dieLine die line = m.dieLine die line := by
  refine List.map_congr_left fun j hj => ?_
  have hb := Mach.shadowed_byte h (List.mem_range.1 hj)
  have hb' : (m.setMeta a v).shadowed (line + j) 1 = false := (Mach.shadowed_of_ports rfl _ _).trans hb
  unfold Mach.dieByte Mach.homeByte
  rw [hb, hb', if_neg Bool.false_ne_true, if_neg Bool.false_ne_true]
  rfl

/-- A fetch of a line at its home: its sharers are noted, and its bytes are those that the core's die reads. -/
theorem Mach.fetchLine_home {m : Mach} {pa : Nat} (h : m.atHome pa) (core : Nat) : ∃ lm, m.fetchLine core (lineOf pa) =
    ({ m with linemeta := lm }, m.dieLine (dieOf core) (lineOf pa)) := by
  obtain ⟨hst, hsh⟩ := h
  have hcomb : m.combine (lineOf pa) = m := if_neg (by simp only [beq_iff_eq]; omega)
  have hown : m.ownerOf? (lineOf pa) = none := if_neg (by simp only [Bool.or_eq_true, beq_iff_eq]; omega)
  unfold Mach.fetchLine
  dsimp only
  rw [hcomb, hown]
  dsimp only
  rw [if_pos hst]
  split
  · exact ⟨m.linemeta, rfl⟩
  · exact ⟨_, Prod.ext rfl (Mach.dieLine_setMeta hsh _ _ _)⟩

/-- A prefetch of a line at its home that is not in the L1, on a page that is no NC page. -/
theorem Mach.prefetchLine_home {m : Mach} {pa core : Nat} (h : m.atHome pa) (hc : m.l1? core (lineOf pa) = none)
    (hf : m.fetching core (lineOf pa) = none) (hs : (m.l1Set core (setOf (lineOf pa))).length < 16) (c : CHint) :
    ∃ l1 lm hints, m.prefetchLine core (lineOf pa) c = { m with l1 := l1, linemeta := lm, hints := hints } ∧
      (c ≠ .nl → ∃ x, ({ m with l1 := l1 } : Mach).l1? core (lineOf pa) = some x ∧ x.data = m.dieLine (dieOf core) (lineOf pa)) := by
  have hpo : m.poisoned (lineOf pa) = false := by
    have hst := h.1
    unfold Mach.poisoned
    rw [lineOf_lineOf]
    exact decide_eq_false (by omega)
  set m1 := m.setHint core (lineOf pa) c with hm1
  obtain ⟨lm, hfl⟩ := Mach.fetchLine_home (m := m1) h core
  have hstep : m.prefetchLine core (lineOf pa) c = (m1.fetchInstall core (lineOf pa) (c != .nl)).1 := by
    have hguard : ((m1.l1? core (lineOf pa)).isSome || (!isFold (lineOf pa) && m1.poisoned (lineOf pa))) = false := by
      rw [show m1.l1? core (lineOf pa) = none from hc, show m1.poisoned (lineOf pa) = false from hpo]
      simp
    unfold Mach.prefetchLine
    dsimp only
    rw [← hm1, hguard, show m1.fetching core (lineOf pa) = none from hf]
    rfl
  rw [hstep]
  unfold Mach.fetchInstall
  dsimp only
  rw [hfl]
  dsimp only
  split
  · have hspace : ({ m1 with linemeta := lm } : Mach).makeSpace core (lineOf pa) = { m1 with linemeta := lm } := by
      refine if_pos ?_
      have hs' : (({ m1 with linemeta := lm } : Mach).l1Set core (setOf (lineOf pa))).length < 16 := hs
      simp [hs']
    unfold Mach.install
    dsimp only
    rw [hspace]
    refine ⟨_, lm, m1.hints, rfl, fun _ => ⟨_, List.find?_cons_of_pos (by simp), rfl⟩⟩
  next hal => exact ⟨_, lm, m1.hints, rfl, fun hne => absurd (by simpa using hne) hal⟩

/-- PFCH in a lone lane whose translation reaches a line that is not in the L1. -/
theorem prefetch_home {s : State} {tm : Team} {th : Thread} (hl : Lone s tm th) {a : Reg} {c : CHint} {g : Tag} {o : BitVec 5} {x y : Nat}
    {l : Leaf} (hx : th.pairIs a x) (hy : effective x o (tagBytes g) = y) (hr : s.m.Reaches tm th y (tagBytes g) false l)
    (hb : staticBad s.m tm (.pfch a c g o) = false) (hlook : s.m.lookup tm.core (s.m.subOf th.ref) tm.ctx y = some l)
    (hnc : pteNc l.bits = false) (hh : s.m.atHome (l.pa y)) (hc : s.m.l1? tm.core (lineOf (l.pa y)) = none)
    (hf : s.m.fetching tm.core (lineOf (l.pa y)) = none) (hs : (s.m.l1Set tm.core (setOf (lineOf (l.pa y)))).length < 16) :
    ∃ s', exec (.pfch a c g o) s = .next s' ∧ s'.m.thread? th.ref = some (th.onward s.m 1) ∧ s.Keeps s' ∧
      s'.m.versions = s.m.versions ∧ s'.m.teams = s.m.teams ∧
      (c ≠ .nl → ∃ k, s'.m.l1? tm.core (lineOf (l.pa y)) = some k ∧ k.data = s.m.dieLine (dieOf tm.core) (lineOf (l.pa y))) := by
  have hteam : s.m.team? th.ref.team = some tm := bundle_team? hl.issues (by simp [hl.bundle])
  have hacts := acts_of_lone (w := pfchSem a c g o) (f := fun m => m.prefetch tm th.ref c y (tagBytes g)) hl rfl rfl hb (by
    dsimp only [pfchSem, laneWord]
    rw [hteam, Thread.pairAt_of_pairIs hx, ← hy])
  set m0 := s.m.advance (refs s.m.bundle) (s.m.wordAddr 1) with hm0
  obtain ⟨l1, lm, hints, hline, hcopy⟩ := Mach.prefetchLine_home (m := m0) hh hc hf hs c
  have hfetch : m0.prefetch tm th.ref c y (tagBytes g) = m0.prefetchLine tm.core (lineOf (l.pa y)) c := by
    have hal : (y % tagBytes g != 0) = false := by simp [show y % tagBytes g = 0 from hr.aligned]
    have hva : y % 2 ^ 57 = y := Nat.mod_eq_of_lt hr.global
    have htop : y / 2 ^ 56 ≤ 1 := by have := hr.global; omega
    have hres : m0.resolve tm y (tagBytes g) = .global y := by simp only [Mach.resolve, htop, if_true, hva]
    have hwalk : m0.walkNow [] tm.core (m0.subOf th.ref) tm.ctx y true = (m0, some l) := by
      rw [Mach.walkNow, show m0.lookup tm.core (m0.subOf th.ref) tm.ctx y = some l from hlook]
    unfold Mach.prefetch
    rw [hal, if_neg Bool.false_ne_true, hres]
    dsimp only
    rw [hwalk]
    dsimp only
    rw [show m0.allowed tm.ctx l false false = true from hr.allowed, hnc]
    rfl
  obtain ⟨s', he, hs'⟩ := hacts.leaves (m := { m0 with l1 := l1, linemeta := lm, hints := hints })
    (hfetch.trans hline) (tm := tm) hl.issues.team hl.issues.quiet rfl (fun hw => hw)
  refine ⟨s', he, (hs'.thread? _).trans (thread?_lone hl 1), hs'.mem, ?_, hs'.teams, fun hne => ?_⟩
  · rw [hs'.rest]; rfl
  · obtain ⟨k, hk, hd⟩ := hcopy hne
    refine ⟨k, ?_, hd⟩
    rw [hs'.rest]
    exact hk

/-! ### The mirror (07 R140) -/

theorem Mach.mirror_entry {m : Mach} {die region : Nat} {e : Nat × Nat × Word}
    (h : (m.mirrors.find? fun e => e.1 == die && e.2.1 == region) = some e) : m.mirror die region = (m, e.2.2) := by
  unfold Mach.mirror
  rw [h]

theorem Mach.mirror_room {m : Mach} {die region : Nat} (h : (m.mirrors.find? fun e => e.1 == die && e.2.1 == region) = none)
    (hr : (m.mirrors.filter fun e => e.1 == die).length < 4096) :
    m.mirror die region = ({ m with mirrors := (die, region, m.round region) :: m.mirrors }, m.round region) := by
  unfold Mach.mirror
  rw [h]
  dsimp only
  rw [if_pos hr]

theorem withinBound_iff (v c : Word) (k : Nat) : withinBound v c k = true ↔ (v - c).toNat ≤ k ∨ 2 ^ 31 ≤ (v - c).toNat := by
  simp [withinBound]

/-- The machine whose lone lane has gone on to a load of a line. -/
def State.loading (s : State) (core line : Nat) (c : CHint) : Mach :=
  let m := s.m.advance (refs s.m.bundle) (s.m.wordAddr 1)
  ({ m with uid := m.uid + 1 } : Mach).setHint core line c

section
variable {s : State} {tm : Team} {th : Thread}

theorem loading_launches (hl : Lone s tm th) (hops : ∀ o ∈ th.ops, ∀ p v n g, o.kind ≠ .launch true p v n g) (line : Nat) (c : CHint) :
    (s.loading tm.core line c).settleLaunches tm.core th.ref line = s.loading tm.core line c :=
  Mach.settleLaunches_none (m := s.loading tm.core line c) (x := th.onward s.m 1) (thread?_lone hl 1) hops tm.core line

/-- LDB of global memory, what the issue of its load makes of the machine once known. -/
theorem acts_of_ldb (hl : Lone s tm th) {d a : Reg} {g : Tag} {k : BitVec 5} {x : Nat} {l : Leaf} (hx : th.pairIs a x)
    (hr : s.m.Reaches tm th x (tagBytes g) false l) (refetch : Bool) (hb : staticBad s.m tm (.ldb d a refetch g k) = false) (f : Mach → Mach)
    (h : (s.loading tm.core (lineOf (l.pa x)) .normal).issueLoad tm th.ref
        ((LoadMode.bounded k.toNat refetch).request l x (tagBytes g) s.m.uid) (.regs d.toNat g 1) s.m.uid =
      f ((s.m.advance (refs s.m.bundle) (s.m.wordAddr 1)).setHint tm.core (lineOf (l.pa x)) .normal)) :
    Acts (.ldb d a refetch g k) s fun m => if refetch then f (m.setHint tm.core (lineOf (l.pa x)) .normal)
      else (f (m.setHint tm.core (lineOf (l.pa x)) .normal)).updThread th.ref fun z => { z with wait := .stall s.m.uid } := by
  have hlt : x < 2 ^ 64 := by
    obtain ⟨ht, -, hv⟩ := hx
    exact hv ▸ Thread.valAt_i64_lt ht
  refine (acts_of_globalLoad (w := ldbSem d a refetch g k) (mode := .bounded k.toNat refetch) hl hx (effective_zero _ hlt) hr
    rfl rfl rfl hb rfl).congr ?_
  show ((s.loading tm.core (lineOf (l.pa x)) .normal).issueLoad tm th.ref _ _ s.m.uid).stallOn th.ref _ s.m.uid = _
  rw [h]
  cases refetch <;> rfl

/-- No load of a word that has just begun to issue has been served. -/
theorem loading_unserved (hsv : ∀ q ∈ s.m.loadsOn, q.word ≠ s.m.uid) (line : Nat) (c : CHint) :
    (s.loading tm.core line c).servedBefore line s.m.uid = false := by
  have hloads : (s.loading tm.core line c).loadsOn = s.m.loadsOn := by
    show (s.m.advance (refs s.m.bundle) (s.m.wordAddr 1)).loadsOn = _
    simp only [Mach.loadsOn, Mach.advance, List.flatMap_map]
    refine List.flatMap_congr fun t _ => ?_
    split <;> rfl
  rw [Mach.servedBefore, hloads, List.any_eq_false]
  intro q hq
  simp [hsv q hq]

end

/-- Settles O25. -/
theorem loadsAndPrefetch : Obligations.LoadsAndPrefetch := by
  intro s tm th d a c g o k x y l hl hx hr hops hsv here line nc hinted put plain joins fetches
  have launches (c : CHint) := loading_launches hl hops line c
  refine ⟨fun hh hb => ?_, fun refetch hyx hb => ?_, fun hh hb hlook hnc hat hcopy hf hset16 => ?_⟩
  · have hacts := acts_of_globalLoad (w := ldSem d a c g o) (mode := .plain c) hl hx hh.symm hr rfl rfl rfl hb rfl
    intro keep
    have hreq : (LoadMode.plain c).request l y (tagBytes g) s.m.uid = {
        pa := l.pa y, va := y, size := tagBytes g, nc := nc, alloc := keep, bound := none, copy := none, data := none, word := s.m.uid } := by
      unfold LoadMode.request
      rw [LoadMode.alloc_plain, show (LoadMode.plain c).bound = none from rfl, ite_self]
    rw [hreq] at hacts
    refine ⟨fun f hf => hacts.congr (Mach.issueLoad_joins (launches c) hf), fun hf => ⟨fun hn hc => ?_, fun hc => ?_⟩⟩
    · obtain ⟨k, hk⟩ := Option.isSome_iff_exists.1 hc
      exact hacts.congr (Mach.issueLoad_here (launches c) hf hn rfl hk)
    · refine hacts.congr (Mach.issueLoad_fetches (launches c) hf rfl ?_)
      rcases hc with hc | hc
      · exact if_pos hc
      · show (if nc then none else s.m.l1? tm.core line) = none
        rw [hc, ite_self]
  · subst hyx
    have hacts := acts_of_ldb hl hx hr refetch hb
    have hreq : (LoadMode.bounded k.toNat refetch).request l y (tagBytes g) s.m.uid = {
        pa := l.pa y, va := y, size := tagBytes g, nc := nc, alloc := !nc, bound := if nc then none else some k.toNat, copy := none
        data := none, word := s.m.uid } := rfl
    rw [hreq] at hacts
    clear hreq
    intro runs
    clear_value nc
    refine ⟨fun hn => ?_, fun hn => ?_⟩
    · subst hn
      exact ⟨fun f hf => hacts (joins false none f) (Mach.issueLoad_joins (launches .normal) hf),
        fun hf => hacts (fetches false none) (Mach.issueLoad_fetches (launches .normal) hf rfl rfl)⟩
    · subst hn
      refine ⟨fun f hf => hacts (joins true (some k.toNat) f) (Mach.issueLoad_joins (launches .normal) hf), fun hf => ?_⟩
      intro entry v pulled fresh hroom
      have hserved := loading_unserved (s := s) (tm := tm) hsv line .normal
      obtain ⟨m1, hm1, hmirror, hthread, hover⟩ : ∃ m1, m1 = pulled (s.loading tm.core line .normal) ∧
          (s.loading tm.core line .normal).mirror (dieOf tm.core) (regionOf line) = (m1, v) ∧
          m1.thread? th.ref = some (th.onward s.m 1) ∧ m1.overlay = s.m.overlay := by
        cases hentry : (s.m.mirrors.find? fun e => e.1 == dieOf tm.core && e.2.1 == regionOf line) with
        | some e =>
          have he : entry = some e := hentry
          refine ⟨s.loading tm.core line .normal, ?_, ?_, thread?_lone hl 1, rfl⟩
          · dsimp only [pulled]
            rw [he]
            rfl
          · dsimp only [v]
            rw [he]
            exact Mach.mirror_entry (m := s.loading tm.core line .normal) hentry
        | none =>
          have he : entry = none := hentry
          have hspace := hroom.resolve_left (by rw [he]; simp)
          refine ⟨{ s.loading tm.core line .normal with mirrors := (dieOf tm.core, regionOf line, v) :: s.m.mirrors },
            ?_, ?_, thread?_lone hl 1, rfl⟩
          · dsimp only [pulled]
            rw [he]
            rfl
          · dsimp only [v]
            rw [he]
            exact Mach.mirror_room (m := s.loading tm.core line .normal) hentry hspace
      refine ⟨fun cp hcp hfr ho => hacts
          (fun m => plain true (some k.toNat) (some (s.m.overlay tm.core th.ref line cp.data)) cp.since (pulled m)) ?_,
        fun hcp => hacts (fun m => fetches true (some k.toNat) (pulled m)) ?_⟩
      · have h := Mach.issueLoad_fresh (m := s.loading tm.core line .normal) (tm := tm) (t := th.ref) (d := .regs d.toNat g 1)
          (id := s.m.uid) (r := { pa := l.pa y, va := y, size := tagBytes g, nc := false, alloc := true, bound := some k.toNat, copy := none
                                  data := none, word := s.m.uid }) (launches .normal) hf rfl rfl hserved hcp
        rw [hmirror] at h
        dsimp only at h
        refine (h ((withinBound_iff _ _ _).2 hfr) (Mach.settleLoads_none hthread ho _ _ _)).trans ?_
        rw [hover, hm1]
        dsimp only [pulled]
        split <;> rfl
      · have h := Mach.issueLoad_stale (m := s.loading tm.core line .normal) (tm := tm) (t := th.ref) (d := .regs d.toNat g 1)
          (id := s.m.uid) (r := { pa := l.pa y, va := y, size := tagBytes g, nc := false, alloc := true, bound := some k.toNat, copy := none
                                  data := none, word := s.m.uid }) (launches .normal) hf rfl rfl hserved
        rw [hmirror] at h
        refine (h fun c hc => Bool.eq_false_iff.2 (mt (withinBound_iff _ _ _).1 (hcp c hc))).trans ?_
        rw [hm1]
        dsimp only [pulled]
        split <;> rfl
  · exact prefetch_home hl hx hh.symm hr hb hlook hnc hat hcopy hf hset16

end Sys2Proof.Machine
end

section
/-! SUPPORT. Atomics at the executor of their page (07 R136-R138; 09 R157-R164; 21 R299-R303). -/

namespace Sys2Proof.Machine

/-! ### The words (09 R157; 21 R300, R301, R303) -/

/-- The update of an atomic: by its operation, or by comparing. -/
def atomicUpdate (g : Tag) (op : Option AmoOp) (cmp val old : Nat) : Option Nat :=
  match op with
  | some f => some (amoApply f g old val)
  | none => if old == cmp then some val else none

/-- What stays in flight of an atomic that has acted (09 R164). -/
def atomicOp (id : Nat) (g : Tag) (d : Dst) (ret : Bool) (va old : Nat) : Op :=
  { id := id, kind := if ret then .value (valRegs g old) else .store va, dst := d, loads := ret, stores := true, tile := false }

/-- The word of a lone lane is an atomic at an address: its access passing its checks, it acts as it issues. -/
def State.AtomicAt (s : State) (tm : Team) (th : Thread) (i : Instr) (x : Nat) (g : Tag) (d : Dst) (op : Option AmoOp) (cmp val : Nat)
    (ret : Bool) : Prop :=
  ∀ acc, s.m.checkAtomic tm th x (tagBytes g) d = .ok acc →
    Acts i s fun m => m.issueAtomic tm th.ref acc d (acc.request g op cmp val ret) false

theorem Acc.request_update (acc : Acc) (g : Tag) (op : Option AmoOp) (cmp val : Nat) (ret : Bool) :
    (acc.request g op cmp val ret).update = atomicUpdate g op cmp val := rfl

/-- No lane is below a lone one, and none has an atomic that has still to act. -/
theorem Mach.behind_lone {m : Mach} (h : ∀ y ∈ m.threads, ∀ o ∈ y.ops, ∀ r, o.kind ≠ .atomic r) (tm : Team) (th : Thread) (a b : Reg)
    (acc : Acc) (d : Dst) : m.behind tm [th] th a b acc d = false := by
  have hun : m.unacted th.ref m.uid (acc.request .i32 none 0 0 true).spot = false := by
    rw [Mach.unacted, List.any_eq_false]
    intro y hy hh
    obtain ⟨o, ho, hk⟩ := List.any_eq_true.1 ((Bool.and_eq_true _ _).mp hh).2
    cases hkind : o.kind with
    | atomic r => exact absurd hkind (h y hy o ho r)
    | _ => simp [hkind] at hk
  rw [Mach.behind, hun]
  simp

theorem misaligned_of_aligned {g : Tag} {rs : List Reg} (h : ∀ r ∈ rs, r.toNat % g.regs = 0) : misaligned g rs = false := by
  rw [misaligned, List.any_eq_false]
  intro r hr
  simp [h r hr]

section
variable {s : State} {tm : Team} {th : Thread} {a b d : Reg} {f : AmoOp} {x : Nat}

theorem atomicAt_amo (hl : Lone s tm th) (hx : th.pairIs a x) (hat : ∀ y ∈ s.m.threads, ∀ o ∈ y.ops, ∀ r, o.kind ≠ .atomic r)
    (hb : staticBad s.m tm (.amo d a b f) = false) (hf : amoAccepts f (th.tagAt b.toNat) = true) (hform : th.formed b.toNat = true)
    (hd : d.toNat % (th.tagAt b.toNat).regs = 0) (hbal : b.toNat % (th.tagAt b.toNat).regs = 0) :
    s.AtomicAt tm th (.amo d a b f) x (th.tagAt b.toNat) (.regs d.toNat (th.tagAt b.toNat) 1) (some f) 0 (th.valAt b.toNat) true := by
  intro acc hacc
  refine acts_of_lone (w := amoSem d a b f) (f := fun m => m.issueAtomic tm th.ref acc (.regs d.toNat (th.tagAt b.toNat) 1)
    (acc.request (th.tagAt b.toNat) (some f) 0 (th.valAt b.toNat) true) false) hl rfl rfl hb ?_
  have hmis : misaligned (th.tagAt b.toNat) [d, b] = false := misaligned_of_aligned (by simp [hd, hbal])
  have hmould : mould (amoAccepts f) true [b.toNat] [] th = .ok (th.tagAt b.toNat) :=
    mould_of_fits ⟨hf, by simp [hform], by simp⟩ true
  dsimp only [amoSem, laneWord]
  rw [hl.real, hmis, hmould, bundle_team? hl.issues (by simp [hl.bundle]), Thread.pairAt_of_pairIs hx]
  dsimp only
  rw [hacc]
  dsimp only
  rw [Mach.behind_lone hat, if_neg Bool.false_ne_true, if_neg Bool.false_ne_true]

theorem atomicAt_apst (hl : Lone s tm th) (hx : th.pairIs a x) (hat : ∀ y ∈ s.m.threads, ∀ o ∈ y.ops, ∀ r, o.kind ≠ .atomic r)
    (hb : staticBad s.m tm (.apst a b f) = false) (hf : amoAccepts f (th.tagAt b.toNat) = true) (hform : th.formed b.toNat = true)
    (hbal : b.toNat % (th.tagAt b.toNat).regs = 0) :
    s.AtomicAt tm th (.apst a b f) x (th.tagAt b.toNat) .none (some f) 0 (th.valAt b.toNat) false := by
  intro acc hacc
  refine acts_of_lone (w := apstSem a b f) (f := fun m => m.issueAtomic tm th.ref acc .none
    (acc.request (th.tagAt b.toNat) (some f) 0 (th.valAt b.toNat) false) false) hl rfl rfl hb ?_
  have hmis : misaligned (th.tagAt b.toNat) [b] = false := misaligned_of_aligned (by simp [hbal])
  have hmould : mould (amoAccepts f) true [b.toNat] [] th = .ok (th.tagAt b.toNat) :=
    mould_of_fits ⟨hf, by simp [hform], by simp⟩ true
  dsimp only [apstSem, laneWord]
  rw [hl.real, hmis, hmould, bundle_team? hl.issues (by simp [hl.bundle]), Thread.pairAt_of_pairIs hx]
  dsimp only
  rw [hacc]
  dsimp only
  rw [Mach.behind_lone hat, if_neg Bool.false_ne_true, if_neg Bool.false_ne_true]

theorem atomicAt_acas (hl : Lone s tm th) (hx : th.pairIs a x) (hat : ∀ y ∈ s.m.threads, ∀ o ∈ y.ops, ∀ r, o.kind ≠ .atomic r)
    (hb : staticBad s.m tm (.acas d a b) = false) (hraw : th.tagAt b.toNat ≠ .raw) (hform : th.formed b.toNat = true)
    (hd : d.toNat % (th.tagAt b.toNat).regs = 0) (hbal : b.toNat % (2 * (th.tagAt b.toNat).regs) = 0)
    (htag : th.tagAt (b.toNat + (th.tagAt b.toNat).regs) = th.tagAt b.toNat) (hform' : th.formed (b.toNat + (th.tagAt b.toNat).regs) = true) :
    s.AtomicAt tm th (.acas d a b) x (th.tagAt b.toNat) (.regs d.toNat (th.tagAt b.toNat) 1) none (th.valAt b.toNat)
      (th.valAt (b.toNat + (th.tagAt b.toNat).regs)) true := by
  intro acc hacc
  refine acts_of_lone (w := acasSem d a b) (f := fun m => m.issueAtomic tm th.ref acc (.regs d.toNat (th.tagAt b.toNat) 1)
    (acc.request (th.tagAt b.toNat) none (th.valAt b.toNat) (th.valAt (b.toNat + (th.tagAt b.toNat).regs)) true) false) hl rfl rfl hb ?_
  have hal : (b.toNat % (2 * (th.tagAt b.toNat).regs) != 0 || d.toNat % (th.tagAt b.toNat).regs != 0) = false := by simp [hd, hbal]
  have hfit : (th.tagAt (b.toNat + (th.tagAt b.toNat).regs) != th.tagAt b.toNat || !th.formed b.toNat ||
      !th.formed (b.toNat + (th.tagAt b.toNat).regs)) = false := by simp [htag, hform, hform']
  dsimp only [acasSem, laneWord]
  rw [hl.real, if_neg Bool.false_ne_true, if_neg (mt beq_iff_eq.1 hraw), hal, if_neg Bool.false_ne_true,
    bundle_team? hl.issues (by simp [hl.bundle]), Thread.pairAt_of_pairIs hx]
  dsimp only
  rw [hfit, if_neg Bool.false_ne_true, hacc]
  dsimp only
  rw [Mach.behind_lone hat]

end

/-! ### Acting (09 R160, R164) -/

/-- The line that an atomic's completion invalidates in its core's L1. -/
def Acc.drop : Acc → Option Nat
  | .global va l => l.dropLine va
  | _ => none

/-- An atomic acts, and its old value is on its way back, or a store that counts. -/
theorem Mach.issueAtomic_acts {m m' : Mach} {tm : Team} {t : TRef} {r : AtomicReq} {old : Nat} (acc : Acc) (d : Dst)
    (h : ({ m with uid := m.uid + 1 } : Mach).act tm t m.uid r = (m', some old)) :
    m.issueAtomic tm t acc d r false = m'.addOp t { atomicOp m.uid r.tag d r.ret r.va old with
      drop := acc.drop, place := acc.place } := by
  unfold Mach.issueAtomic Mach.acted
  dsimp only [Mach.fresh]
  rw [if_neg Bool.false_ne_true, h]
  cases acc <;> rfl

section
variable {s : State} {tm : Team} {th : Thread} {i : Instr} {x : Nat} {g : Tag} {d : Dst} {op : Option AmoOp} {cmp val : Nat} {ret : Bool}

/-! ### On chip (09 R160) -/

theorem Mach.checkAtomic_own {m : Mach} {n off : Nat} (h : tm.own x n off) (d : Dst) :
    m.checkAtomic tm th x n d = .ok (.array (.scratch tm.uid off)) := by
  rw [Mach.checkAtomic, Mach.checkAccess_own m th 3 true d none h]

/-- A scratchpad is written with the new value of an atomic, if there is one. -/
def Mach.amendScratch (m : Mach) (u off n : Nat) (v : Option Nat) : Mach :=
  match v with
  | some v => m.scratchWrite u off (leBytes v n)
  | none => m

theorem Mach.act_own {m : Mach} (h : m.team? tm.uid = some tm) (t : TRef) (id off : Nat) :
    m.act tm t id ((Acc.array (.scratch tm.uid off)).request g op cmp val ret) =
      (m.amendScratch tm.uid off (tagBytes g) (atomicUpdate g op cmp val (leNat (tm.scratch.read off (tagBytes g)))),
        some (leNat (tm.scratch.read off (tagBytes g)))) := by
  have hread : m.readArray (.scratch tm.uid off) (tagBytes g) = tm.scratch.read off (tagBytes g) := by simp only [Mach.readArray, h]
  have hup : m.updateArray (.scratch tm.uid off) (tagBytes g) (atomicUpdate g op cmp val) =
      (m.amendScratch tm.uid off (tagBytes g) (atomicUpdate g op cmp val (leNat (tm.scratch.read off (tagBytes g)))),
        leNat (tm.scratch.read off (tagBytes g))) := by
    unfold Mach.updateArray
    dsimp only
    rw [hread]
    cases atomicUpdate g op cmp val (leNat (tm.scratch.read off (tagBytes g))) <;> rfl
  show (let (m, old) := m.updateArray (.scratch tm.uid off) (tagBytes g) (atomicUpdate g op cmp val); (m, some old)) = _
  rw [hup]

/-- The team after an update of a value in its scratchpad. -/
def Team.amended (tm : Team) (off n : Nat) (v : Option Nat) : Team :=
  match v with
  | some v => tm.scratched off (leBytes v n)
  | none => tm

/-- Threads change in nothing but what they wait for, and those that are ready not at all. -/
def Mach.Wakes (m m' : Mach) : Prop :=
  ∀ r y, m.thread? r = some y → ∃ z, m'.thread? r = some z ∧ z = { y with wait := z.wait } ∧ (y.wait = .ready → z = y)

theorem Mach.wakes_of_threads {m m' : Mach} (h : m'.threads = m.threads) : m.Wakes m' := fun r y hy =>
  ⟨y, by rw [Mach.thread?, h]; exact hy, rfl, fun _ => rfl⟩

/-- What a write of a scratchpad leaves of everything else. -/
structure Mach.Amends (m m' : Mach) (u : Nat) (tm : Team) : Prop where
  cur    : m'.cur = m.cur
  team   : m'.team? u = some tm
  mem    : m'.mem = m.mem
  ports  : m'.traceAt = m.traceAt
  thread : m.Wakes m'

theorem Mach.scratchWrite_amends {m : Mach} (h : m.team? tm.uid = some tm) (off : Nat) (bs : List Byte) :
    m.Amends (m.scratchWrite tm.uid off bs) tm.uid (tm.scratched off bs) := by
  have heq := Mach.scratchWrite_eq h off bs
  refine ⟨?_, Mach.team?_scratchWrite h, ?_, ?_, fun r y hy =>
    ⟨y.stirred m.clk (tm.scratched off bs) tm.uid off bs.length, ?_, Thread.stirred_rest y, fun hr => Thread.stirred_ready hr⟩⟩
  · exact (congrArg Mach.cur heq).trans rfl
  · exact (congrArg Mach.mem heq).trans rfl
  · exact (congrArg Mach.traceAt heq).trans rfl
  · exact (Mach.thread?_scratchWrite h r).trans (congrArg (Option.map _) hy)

theorem Mach.amendScratch_amends {m : Mach} (h : m.team? tm.uid = some tm) (off n : Nat) (v : Option Nat) :
    m.Amends (m.amendScratch tm.uid off n v) tm.uid (tm.amended off n v) := by
  cases v with
  | none => exact ⟨rfl, h, rfl, rfl, fun r y hy => ⟨y, hy, rfl, fun _ => rfl⟩⟩
  | some v => exact Mach.scratchWrite_amends h off (leBytes v n)

/-- The machine as a lone lane's word goes on that has taken a name. -/
def State.named (s : State) : Mach :=
  let m := s.m.advance (refs s.m.bundle) (s.m.wordAddr 1)
  { m with uid := m.uid + 1 }

/-- A lone lane's atomic that acts, threads changing in nothing but what they wait for: its operation is in flight. -/
theorem State.AtomicAt.acts (hl : Lone s tm th) (hi : i.size = 1) (h : s.AtomicAt tm th i x g d op cmp val ret) {acc : Acc}
    (hacc : s.m.checkAtomic tm th x (tagBytes g) d = .ok acc) {m : Mach} {old : Nat}
    (hact : s.named.act tm th.ref s.m.uid (acc.request g op cmp val ret) = (m, some old)) {tm' : Team}
    (hteam : m.team? m.cur.team = some tm') (hq : tm'.known = []) (hports : m.traceAt = s.m.traceAt)
    (hwf : s.m.mem.wf = true → m.mem.wf = true) (hw : s.named.Wakes m) :
    ∃ s', exec i s = .next s' ∧ s'.m.thread? th.ref = some ((th.onward s.m 1).withOp
        { atomicOp s.m.uid g d ret (acc.request g op cmp val ret).va old with
          drop := acc.drop, place := acc.place }) ∧
      s.OthersWait s' th.ref ∧ s.Leaves (m.addOp th.ref { atomicOp s.m.uid g d ret (acc.request g op cmp val ret).va old with
          drop := acc.drop, place := acc.place }) s' := by
  obtain ⟨s', he, hs⟩ := (h _ hacc).leaves (m := m.addOp th.ref { atomicOp s.m.uid g d ret (acc.request g op cmp val ret).va old with
      drop := acc.drop, place := acc.place })
    (by rw [hi]; exact Mach.issueAtomic_acts (m := s.m.advance (refs s.m.bundle) (s.m.wordAddr 1)) _ _ hact) hteam hq hports hwf
  refine ⟨s', he, ?_, othersWait_of fun r y hr hy => ?_, hs⟩
  · obtain ⟨z, hz, -, hready⟩ := hw th.ref _ (thread?_lone hl 1)
    rw [hs.thread?, Mach.thread?_addOp hz, hready (lone_ready hl 1)]
  · obtain ⟨z, hz, hrest, -⟩ := hw r y ((thread?_lone_other hl hr 1).trans hy)
    exact ⟨z, (hs.thread? r).trans ((Mach.thread?_addOp_other hr _).trans hz), hrest⟩

theorem atomic_own (hl : Lone s tm th) (hi : i.size = 1) (h : s.AtomicAt tm th i x g d op cmp val ret) {off : Nat}
    (ho : tm.own x (tagBytes g) off) {old : Nat} (hold : old = leNat (tm.scratch.read off (tagBytes g))) :
    ∃ s', exec i s = .next s' ∧ s'.m.thread? th.ref = some ((th.onward s.m 1).withOp (atomicOp s.m.uid g d ret 0 old)) ∧
      s.OthersWait s' th.ref ∧ s'.m.team? tm.uid = some (tm.amended off (tagBytes g) (atomicUpdate g op cmp val old)) ∧ s.Keeps s' := by
  have hteam1 : s.named.team? tm.uid = some tm := lone_team hl
  set v := atomicUpdate g op cmp val old with hv
  obtain ⟨hcur, hteam, hmem, hports, hwakes⟩ := Mach.amendScratch_amends hteam1 off (tagBytes g) v
  have hact : s.named.act tm th.ref s.m.uid ((Acc.array (.scratch tm.uid off)).request g op cmp val ret) =
      (s.named.amendScratch tm.uid off (tagBytes g) v, some old) := by
    subst hold
    exact Mach.act_own hteam1 _ _ _
  obtain ⟨s', he, hth, hothers, hs⟩ := h.acts hl hi (Mach.checkAtomic_own ho d) hact (tm' := tm.amended off (tagBytes g) v)
    (by
      rw [hcur]
      exact (congrArg (Mach.team? _) (lone_cur hl).symm).trans hteam)
    (by cases v <;> exact hl.issues.quiet)
    hports (fun hw => (congrArg Memory.wf hmem).trans hw) hwakes
  refine ⟨s', he, hth, hothers, ?_, fun z hz => (hs.mem z hz).trans ?_⟩
  · rw [Mach.team?, hs.teams]
    exact hteam
  · exact congrArg (Memory.get · z) hmem

/-! ### At the home (07 R135; 09 R158, R160) -/

/-- An access to global memory within a leaf's page stays within one line (03 R55, 06 R109). -/
theorem Leaf.pa_fits (l : Leaf) (h : x % tagBytes g = 0) : l.pa x + tagBytes g ≤ lineOf (l.pa x) + 128 := by
  have hsize : l.size % 4096 = 0 := by
    unfold Leaf.size pageBytes
    split <;> rfl
  have hpa : l.pa x % 128 = x % 128 := by
    have hin : x % l.size % 128 = x % 128 := by
      obtain ⟨k, hk⟩ := Nat.dvd_of_mod_eq_zero hsize
      rw [hk, Nat.mod_mod_of_dvd]
      exact ⟨32 * k, by omega⟩
    unfold Leaf.pa ptePa
    omega
  have hn : tagBytes g = 4 ∨ tagBytes g = 8 ∨ tagBytes g = 16 := by cases g <;> decide
  unfold lineOf
  rcases hn with hn | hn | hn <;> rw [hn] at h ⊢ <;> omega

/-- A physical address is no key of the fold window. -/
theorem Leaf.pa_lt (l : Leaf) (x : Nat) : l.pa x < 2 ^ 63 := by
  have hsize : 0 < l.size ∧ l.size ≤ 2 ^ 30 := by
    unfold Leaf.size pageBytes
    split <;> decide
  have := Nat.mod_lt x hsize.1
  unfold Leaf.pa ptePa
  omega

theorem Mach.checkAtomic_reaches {m : Mach} {n : Nat} {l : Leaf} (hr : m.Reaches tm th x n true l) (ha : admits l.bits = true)
    (hm : pteMig l.bits = false) (d : Dst) : m.checkAtomic tm th x n d = .ok (.global x l) := by
  have hexec : checkExecutor x 3 (leafExcWord l 0) l d = none := by
    rw [checkExecutor, ha, hm]
    rfl
  rw [Mach.checkAtomic, Mach.checkAccess_reaches hr 3 d none]
  dsimp only
  rw [hexec]

/-- An atomic that enters no partial is made by its page's executor. -/
theorem Mach.act_global {m : Mach} {l : Leaf} (h : ret = true ∨ pteExc l.bits ≠ 2) (t : TRef) (id : Nat) :
    m.act tm t id ((Acc.global x l).request g op cmp val ret) =
      m.updateGlobal tm t id x l (tagBytes g) ret (atomicUpdate g op cmp val) := by
  cases op with
  | none => rfl
  | some f =>
    have hpart : (!ret && pteExc l.bits == 2 && entersPartial f) = false := by
      rcases h with h | h
      · simp [h]
      · simp [h]
    exact if_neg (by simp only [Acc.request, hpart, Bool.false_eq_true, not_false_eq_true])

/-- With no store unpublished there is none to observe. -/
theorem Mach.markSeen_settled {m : Mach} (h : m.versions = []) (t : TRef) (upto : Nat) :
    m.markSeen t (m.publishedBefore t upto) = m := by
  simp [Mach.markSeen, Mach.publishedBefore, h]

theorem Mach.observe_settled {m : Mach} (h : m.versions = []) (core : Nat) (t : TRef) (pa n since : Nat) :
    m.observe core t pa n since = m := by
  simp [Mach.observe, Mach.markSeen, Mach.publishedBefore, h]

/-- Memory after an update of a value at its home. -/
def Mach.amendHome (m : Mach) (pa n : Nat) (v : Option Nat) : Mach :=
  match v with
  | some v => ({ m with trail := [] } : Mach).cohWrite1 pa (leBytes v n)
  | none => m

theorem Mach.updateGlobal_home {m : Mach} {l : Leaf} (hd : pteD l.bits = true) {t : TRef} {id : Nat}
    (hz : m.settleLoads tm.core t (lineOf (l.pa x)) id = m) (hs : m.settled) (hh : m.atHome (l.pa x)) (he : pteExc l.bits ≠ 0) (hx : x % tagBytes g = 0)
    (f : Nat → Option Nat) : m.updateGlobal tm t id x l (tagBytes g) ret f =
      (m.amendHome (l.pa x) (tagBytes g) (f (leNat (m.mem.read (l.pa x) (tagBytes g)))),
        some (leNat (m.mem.read (l.pa x) (tagBytes g)))) := by
  obtain ⟨hver, hareas⟩ := hs
  have hob : (if ret then m.observeHome tm.core t (l.pa x) (tagBytes g) else m) = m := by
    rw [Mach.observeHome, Mach.markSeen_settled hver, ite_self]
  have htrail : m.leaveTrail [(l.pa x, tagBytes g, tm.core, m.uid)] = { m with trail := [] } := by
    rw [Mach.leaveTrail, hver]
    rfl
  unfold Mach.updateGlobal
  dsimp only
  rw [Mach.setDirty_dirty hd, hz, Mach.poisoned_home hh, if_neg Bool.false_ne_true,
    if_neg (mt beq_iff_eq.1 he), Mach.cohRead_home _ hh (l.pa_fits hx)]
  dsimp only
  rw [hob]
  cases f (leNat (m.mem.read (l.pa x) (tagBytes g))) with
  | none => rfl
  | some v =>
    dsimp only
    rw [Mach.touchAreas_none hareas, htrail]
    rfl

/-- The wake that a write of a line records for a thread. -/
def Mach.noted (m : Mach) (pa n : Nat) (t : Thread) : Thread :=
  match t.wait with
  | .waita w =>
    match w.watch with
    | .line p _ =>
      if w.record && w.woken.isNone && w.inTime m.clk && p < pa + n && pa < p + w.width
          && (m.poisoned p || holds w (leNat (m.mem.read p w.width)))
      then { t with wait := .waita { w with woken := some (!m.poisoned p), hit := m.clk } } else t
    | _ => t
  | _ => t

theorem Mach.noted_rest (m : Mach) (pa n : Nat) (t : Thread) : m.noted pa n t = { t with wait := (m.noted pa n t).wait } := by
  unfold Mach.noted
  split
  · split
    · split <;> rfl
    · rfl
  · rfl

theorem Mach.noteLine_wakes (m : Mach) (pa n : Nat) : m.Wakes (m.noteLine pa n) := fun r y hy => by
  refine ⟨m.noted pa n y, ?_, m.noted_rest pa n y, fun hr => ?_⟩
  · exact (Mach.thread?_mapThreads m (m.noted pa n) (fun t => by rw [m.noted_rest]) r).trans (congrArg (Option.map _) hy)
  · unfold Mach.noted
    rw [hr]

theorem Mach.amendHome_wakes {m : Mach} {pa : Nat} (hh : m.atHome pa) (n : Nat) (v : Option Nat) : m.Wakes (m.amendHome pa n v) := by
  cases v with
  | none => exact Mach.wakes_of_threads rfl
  | some v =>
    rw [Mach.amendHome, Mach.cohWrite1_home (m := { m with trail := [] }) _ hh]
    exact Mach.noteLine_wakes ({ m with trail := [], mem := m.mem.write pa (leBytes v n) } : Mach) _ _

theorem Mach.amendHome_rest {m : Mach} {pa : Nat} (hh : m.atHome pa) (n : Nat) (v : Option Nat) :
    m.amendHome pa n v = { m with
      trail := (m.amendHome pa n v).trail, threads := (m.amendHome pa n v).threads, launches := (m.amendHome pa n v).launches
      mem := match v with | some v => m.mem.write pa (leBytes v n) | none => m.mem } := by
  cases v with
  | none => rfl
  | some v =>
    rw [Mach.amendHome, Mach.cohWrite1_home (m := { m with trail := [] }) _ hh]
    rfl

/-- An atomic at the home of a page whose executor is not the core acts there (09 R158). -/
theorem atomic_home (hl : Lone s tm th) (hi : i.size = 1) (h : s.AtomicAt tm th i x g d op cmp val ret) {l : Leaf}
    (hr : s.m.Reaches tm th x (tagBytes g) true l) (ha : admits l.bits = true) (hm : pteMig l.bits = false) (hexc : pteExc l.bits ≠ 0)
    (hpart : ret = true ∨ pteExc l.bits ≠ 2) (hops : th.ops = []) (hset : s.m.settled) (hh : s.m.atHome (l.pa x)) {old : Nat}
    (hold : old = leNat (s.m.mem.read (l.pa x) (tagBytes g))) :
    ∃ s', exec i s = .next s' ∧ s'.m.thread? th.ref = some ((th.onward s.m 1).withOp
        { atomicOp s.m.uid g d ret x old with drop := some (lineOf (l.pa x)), place := some (l.pa x, x) }) ∧
      s.OthersWait s' th.ref ∧ s'.m.teams = s.m.teams ∧
      ∀ z, ¬ s.mayTrace z → s'.m.mem.get z = (match atomicUpdate g op cmp val old with
        | some v => s.m.mem.write (l.pa x) (leBytes v (tagBytes g)) | none => s.m.mem).get z := by
  set v := atomicUpdate g op cmp val old with hv
  have hact : s.named.act tm th.ref s.m.uid ((Acc.global x l).request g op cmp val ret) =
      (s.named.amendHome (l.pa x) (tagBytes g) v, some old) := by
    subst hold
    exact (Mach.act_global hpart _ _).trans
      (Mach.updateGlobal_home (m := s.named) (hr.dirty rfl) (Mach.settleLoads_none (m := s.named) (thread?_lone hl 1) hops _ _ _) hset hh hexc
        hr.aligned _)
  have hrest := Mach.amendHome_rest (m := s.named) hh (tagBytes g) v
  obtain ⟨s', he, hth, hothers, hs⟩ := h.acts hl hi (Mach.checkAtomic_reaches hr ha hm d) hact (tm' := tm)
    (by rw [hrest]; exact hl.issues.team) hl.issues.quiet (by rw [hrest]; rfl)
    (fun hw => by
      rw [hrest]
      cases v with
      | none => exact hw
      | some v => exact Memory.write_wf _ _ hw)
    (Mach.amendHome_wakes (m := s.named) hh _ _)
  refine ⟨s', he, ?_, hothers, ?_, fun z hz => (hs.mem z hz).trans ?_⟩
  · have hdrop : l.dropLine x = some (lineOf (l.pa x)) := if_neg (mt beq_iff_eq.1 hexc)
    rw [hth, ← hdrop]
    rfl
  · rw [hs.teams]
    show (s.named.amendHome (l.pa x) (tagBytes g) v).teams = _
    rw [hrest]
    rfl
  · show (s.named.amendHome (l.pa x) (tagBytes g) v).mem.get z = _
    rw [hrest]
    rfl

/-! ### At the core (07 R136-R138; 09 R158) -/

theorem getAssoc_setAssoc {α : Type} (dflt : α) (k j : Nat) (v : α) (kvs : List (Nat × α)) :
    getAssoc dflt j (setAssoc k v kvs) = if j = k then v else getAssoc dflt j kvs := by
  induction kvs with
  | nil => simp [setAssoc, getAssoc, eq_comm]
  | cons p rest ih =>
    obtain ⟨a, w⟩ := p
    unfold setAssoc
    split
    next heq =>
      subst heq
      unfold getAssoc
      by_cases hj : j = a
      · simp [hj]
      · rw [if_neg (Ne.symm hj), if_neg (Ne.symm hj), if_neg hj]
    next hne =>
      unfold getAssoc
      rw [ih]
      by_cases hj : j = k
      · subst hj
        rw [if_neg hne, if_pos rfl, if_pos rfl]
      · rw [if_neg hj, if_neg hj]

theorem getAssoc_remove {α : Type} (dflt : α) (k j : Nat) (kvs : List (Nat × α)) :
    getAssoc dflt j (kvs.filter fun p => p.1 != k) = if j = k then dflt else getAssoc dflt j kvs := by
  induction kvs with
  | nil => simp [getAssoc]
  | cons p rest ih =>
    obtain ⟨a, w⟩ := p
    rw [List.filter_cons]
    by_cases ha : a = k
    · subst ha
      rw [if_neg (by simp), ih]
      by_cases hj : j = a
      · rw [if_pos hj, if_pos hj]
      · rw [if_neg hj, if_neg hj, getAssoc, if_neg (Ne.symm hj)]
    · rw [if_pos (by simpa using ha), getAssoc, ih]
      by_cases hj : a = j
      · rw [if_pos hj, if_neg (hj ▸ ha), getAssoc, if_pos hj]
      · rw [if_neg hj, getAssoc, if_neg hj]

/-- The metadata of a line after one is set. -/
theorem Mach.meta_setMeta (m : Mach) (a b : Nat) (v : BitVec 16) : (m.setMeta a v).meta b = if b = a then v else m.meta b := by
  unfold Mach.meta Mach.setMeta
  split
  next h =>
    rw [getAssoc_remove, beq_iff_eq.1 h]
  next => exact getAssoc_setAssoc 0 a b v m.linemeta

theorem mkMeta_toNat {st core sharers rsh : Nat} (hs : st < 8) (hc : core < 256) (hsh : sharers < 16) (hr : rsh < 2) :
    (mkMeta st core sharers rsh).toNat = st * 2 ^ 13 + core * 2 ^ 5 + sharers * 2 + rsh := by
  rw [mkMeta, BitVec.toNat_ofNat]
  omega

theorem stateOf_mkMeta {st core sharers rsh : Nat} (hs : st < 8) (hc : core < 256) (hsh : sharers < 16) (hr : rsh < 2) :
    stateOf (mkMeta st core sharers rsh) = st := by
  rw [stateOf, mkMeta_toNat hs hc hsh hr]
  omega

theorem ownerOf_mkMeta {st core sharers rsh : Nat} (hs : st < 8) (hc : core < 256) (hsh : sharers < 16) (hr : rsh < 2) :
    ownerOf (mkMeta st core sharers rsh) = core := by
  rw [ownerOf, mkMeta_toNat hs hc hsh hr]
  omega

/-- A line that stands in an L1 needs no room there. -/
theorem Mach.makeSpace_present {m : Mach} {core line : Nat} {c : L1Line} (h : m.l1? core line = some c) : m.makeSpace core line = m := by
  have hmem : line ∈ m.l1Set core (setOf line) := by
    have hc := List.find?_some h
    obtain ⟨hcore, hline⟩ := (Bool.and_eq_true _ _).mp hc
    rw [Mach.l1Set, List.mem_dedup]
    refine List.mem_append_left _ (List.mem_append_left _ (List.mem_map.2 ⟨c, List.mem_filter.2 ⟨List.mem_of_find?_eq_some h, ?_⟩, beq_iff_eq.1 hline⟩))
    rw [beq_iff_eq.1 hline, hcore, beq_self_eq_true]
    rfl
  exact if_pos (by simp [hmem])

theorem Mach.makeSpace_fits {m : Mach} {core line : Nat} (h : (m.l1Set core (setOf line)).length < 16) : m.makeSpace core line = m :=
  if_pos (by simp [h])

/-- What the core of an agent that takes ownership of a line at its home with no store unpublished then holds (07 R138). -/
structure Mach.Took (m m' : Mach) (core line st : Nat) (data : List Byte) : Prop where
  rest  : m' = { m with l1 := m'.l1, linemeta := m'.linemeta }
  entry : m'.meta line = mkMeta st core 0 0
  copy  : ∃ c, m'.l1? core line = some c ∧ c.owned = true ∧ c.data = data
  alone : ∀ y ∈ m'.l1, y.line = line → y.core = core

/-- The data that a core holds of a line at its home that it takes. -/
def Mach.grantData (m : Mach) (core line : Nat) : List Byte :=
  match (m.l1? core line).filter fun _ => m.grantsBare core line with
  | some c => c.data
  | none => m.grantLine core line

theorem Mach.l1?_dropCopies (m : Mach) (line core : Nat) : (m.dropCopies line core).l1? core line = m.l1? core line := by
  unfold Mach.l1? Mach.dropCopies
  rw [List.find?_filter]
  refine congrArg (List.find? · m.l1) (funext fun c => ?_)
  by_cases hc : c.core = core
  · simp [hc, beq_eq_decide]
  · simp [hc]

theorem Mach.dropCopies_alone {m : Mach} {line core : Nat} {y : L1Line} (h : y ∈ (m.dropCopies line core).l1) (hy : y.line = line) :
    y.core = core := by
  have hf := (List.mem_filter.1 h).2
  by_contra hc
  simp [hy, hc] at hf

theorem Mach.l1Set_dropCopies (m : Mach) (line core set : Nat) : (m.dropCopies line core).l1Set core set = m.l1Set core set := by
  unfold Mach.l1Set
  have hl1 : ((m.dropCopies line core).l1.filter fun c => c.core == core && setOf c.line == set) =
      m.l1.filter fun c => c.core == core && setOf c.line == set := by
    unfold Mach.dropCopies
    rw [List.filter_filter]
    refine List.filter_congr fun c _ => ?_
    by_cases hc : c.core = core <;> simp [hc]
  rw [hl1]
  rfl

/-- A copy of a line that its core comes to own. -/
def L1Line.taken (core line : Nat) (x : L1Line) : L1Line :=
  if x.core == core && x.line == line then { x with owned := true } else x

theorem Mach.takeOwnership_home {m : Mach} {pa core : Nat} (hh : m.atHome pa) (st : Nat)
    (hs : (m.l1Set core (setOf (lineOf pa))).length < 16) :
    m.Took (m.takeOwnership core (lineOf pa) st) core (lineOf pa) st (m.grantData core (lineOf pa)) := by
  set line := lineOf pa with hline
  have hown : (m.ownerOf? line == some core) = false := by
    rw [Mach.ownerOf?_home hh.1]
    rfl
  unfold Mach.takeOwnership
  dsimp only
  rw [hown, if_neg Bool.false_ne_true]
  cases hbare : m.grantsBare core line with
  | true =>
    rw [if_pos rfl]
    obtain ⟨c, hc⟩ : ∃ c, m.l1? core line = some c := by
      refine Option.isSome_iff_exists.1 ?_
      unfold Mach.grantsBare at hbare
      simp only [Bool.and_eq_true] at hbare
      exact hbare.2
    refine ⟨rfl, (Mach.meta_setMeta _ _ _ _).trans (if_pos rfl), ⟨{ c with owned := true }, ?_, rfl, ?_⟩, fun y hy hyl => ?_⟩
    · show List.find? (fun c => c.core == core && c.line == line) ((m.dropCopies line core).l1.map (L1Line.taken core line)) = _
      have hfind := Mach.l1?_dropCopies m line core
      rw [hc] at hfind
      have hp (x : L1Line) : ((fun c : L1Line => c.core == core && c.line == line) ∘ L1Line.taken core line) x =
          (x.core == core && x.line == line) := by
        unfold L1Line.taken
        dsimp only [Function.comp]
        split <;> rfl
      rw [List.find?_map, funext hp]
      have hc' := List.find?_some hc
      exact (congrArg (Option.map _) hfind).trans (congrArg some (if_pos hc'))
    · rw [Mach.grantData, hc, hbare]
      rfl
    · obtain ⟨z, hz, rfl⟩ := List.mem_map.1 hy
      have hzl : z.line = line := by
        split at hyl <;> exact hyl
      have := Mach.dropCopies_alone hz hzl
      split <;> exact this
  | false =>
    rw [if_neg Bool.false_ne_true, Mach.cohPrep_home hh]
    have hspace : (m.dropCopies line core).makeSpace core line = m.dropCopies line core :=
      Mach.makeSpace_fits (by rw [Mach.l1Set_dropCopies]; exact hs)
    have hgrant : (m.dropCopies line core).grantLine core line = m.grantData core line := by
      rw [Mach.grantData, hbare]
      cases m.l1? core line <;> rfl
    unfold Mach.install
    dsimp only
    rw [hspace, hgrant]
    refine ⟨rfl, (Mach.meta_setMeta _ _ _ _).trans (if_pos rfl), ⟨_, List.find?_cons_of_pos (by simp), rfl, rfl⟩, fun y hy hyl => ?_⟩
    rcases List.mem_cons.1 hy with rfl | hy
    · rfl
    · exact Mach.dropCopies_alone (List.mem_filter.1 hy).1 hyl

/-- With no store unpublished, a core's own bytes are those of its copy. -/
theorem Mach.overlay_settled {m : Mach} (h : m.versions = []) (core : Nat) (t : TRef) (line : Nat) (base : List Byte) :
    m.overlay core t line base = base := by
  have hown (pa : Nat) : m.ownByte core t pa = none := by simp [Mach.ownByte, h, latest]
  unfold Mach.overlay
  simp only [hown]
  exact List.zipIdx_map_fst 0 base

/-- The bytes of a line at its home that the home sends, with no store unpublished. -/
theorem Mach.grantLine_home {m : Mach} {pa n core : Nat} (h : m.versions = []) (hh : m.atHome pa) (hlt : pa < 2 ^ 63)
    (hfit : pa + n ≤ lineOf pa + 128) : ((m.grantLine core (lineOf pa)).drop (pa - lineOf pa)).take n = m.mem.read pa n := by
  have hle : lineOf pa ≤ pa := by unfold lineOf; omega
  have hbyte (j : Nat) (hj : j < 128) : m.homeByte (lineOf pa + j) = m.mem.get (lineOf pa + j) := by
    have hfold : isFold (lineOf pa + j) = false := decide_eq_false (by omega)
    rw [Mach.homeByte, hfold, Mach.shadowed_byte hh.2 hj, if_neg Bool.false_ne_true, if_neg Bool.false_ne_true]
  have hline : m.grantLine core (lineOf pa) = (List.range 128).map fun j => m.mem.get (lineOf pa + j) := by
    refine List.map_congr_left fun j hj => ?_
    have hheld : (if core < 128 then (m.heldByte (dieOf core) (lineOf pa + j)).filter fun b => b.core == core else none) = none := by
      simp [Mach.heldByte, h]
    rw [hheld]
    exact hbyte j (List.mem_range.1 hj)
  rw [hline]
  refine List.ext_getElem? fun k => ?_
  rw [Memory.read_getElem?, List.getElem?_take]
  split
  next hk =>
    rw [List.getElem?_drop, List.getElem?_map, List.getElem?_range (by omega)]
    exact congrArg (fun a => some (m.mem.get a)) (by omega)
  next => rfl

/-- The bytes of a store that an atomic at a core enters in its L1. -/
def atomicByte (core : Nat) (t : TRef) (op uid pa : Nat) (bs : List Byte) (i : Nat) : VByte :=
  { pa := pa + i, byte := bs.getD i 0, ref := t, core := core, op := op, inL1 := true, diePub := false, stack := false,
    atomic := true, seen := [], vis := uid, coreAt := 0, dieAt := 0, l2 := false, word := op }

/-- A core that has taken a line for an atomic enters the new value, if there is one, as an unpublished store in its L1. -/
def Mach.amendCore (m : Mach) (core : Nat) (t : TRef) (id pa n : Nat) (v : Option Nat) : Mach :=
  match v with
  | some v => (m.setMeta (lineOf pa) (mkMeta 4 core 0 0)).addStore core t id pa (leBytes v n) true false true
  | none => m

/-- The old value of an atomic at a core that takes the line from its home. -/
def Mach.coreValue (m : Mach) (core pa n : Nat) : Nat :=
  match (m.l1? core (lineOf pa)).filter fun _ => m.grantsBare core (lineOf pa) with
  | some c => leNat ((c.data.drop (pa - lineOf pa)).take n)
  | none => leNat (m.mem.read pa n)

theorem Mach.updateGlobal_core {m : Mach} {l : Leaf} (hd : pteD l.bits = true) {z : Thread} {t : TRef} (hz : m.thread? t = some z)
    (hops : z.ops = []) (hset : m.settled) (hh : m.atHome (l.pa x)) (he : pteExc l.bits = 0) (hx : x % tagBytes g = 0)
    (hs : (m.l1Set tm.core (setOf (lineOf (l.pa x)))).length < 16) (hroom : 1 ≤ 262144 / max 1 (m.teamsOn (dieOf tm.core))) (id : Nat)
    (f : Nat → Option Nat) : m.updateGlobal tm t id x l (tagBytes g) ret f =
      ((m.takeOwnership tm.core (lineOf (l.pa x)) 2).amendCore tm.core t id (l.pa x) (tagBytes g)
        (f (m.coreValue tm.core (l.pa x) (tagBytes g))), some (m.coreValue tm.core (l.pa x) (tagBytes g))) := by
  obtain ⟨hver, hareas⟩ := hset
  have htook := Mach.takeOwnership_home hh 2 hs
  set m1 := m.takeOwnership tm.core (lineOf (l.pa x)) 2 with hm1
  obtain ⟨hrest, hmeta, ⟨c, hc, howned, hdata⟩, halone⟩ := htook
  have hver1 : m1.versions = [] := (congrArg Mach.versions hrest).trans hver
  have hareas1 : m1.areas = [] := (congrArg Mach.areas hrest).trans hareas
  have hold : leNat (m1.coreBytes tm.core t (l.pa x) (tagBytes g)) = m.coreValue tm.core (l.pa x) (tagBytes g) := by
    unfold Mach.coreBytes
    dsimp only
    rw [hc]
    dsimp only
    rw [Mach.overlay_settled hver1, hdata, Mach.grantData, Mach.coreValue]
    cases (m.l1? tm.core (lineOf (l.pa x))).filter fun _ => m.grantsBare tm.core (lineOf (l.pa x)) with
    | some k => rfl
    | none => exact congrArg leNat (Mach.grantLine_home hver hh (l.pa_lt x) (l.pa_fits hx))
  have hfits : m1.vlines tm.uid + 1 ≤ 262144 / max 1 (m1.teamsOn (dieOf tm.core)) := by
    have hv : m1.vlines tm.uid = 0 := by simp [Mach.vlines, Mach.versionOf, hver1]
    rw [hv, hrest]
    exact hroom
  unfold Mach.updateGlobal
  dsimp only
  rw [Mach.setDirty_dirty hd, Mach.settleLoads_none hz hops, Mach.poisoned_home hh, if_neg Bool.false_ne_true,
    if_pos (beq_iff_eq.2 he), ← hm1, Mach.observe_settled hver1, ite_self, hold]
  cases f (m.coreValue tm.core (l.pa x) (tagBytes g)) with
  | none => rfl
  | some v =>
    dsimp only
    rw [Mach.makeRoom_fits hfits, Mach.makeSpace_present hc, Mach.touchAreas_none hareas1]
    rfl

theorem Mach.amendCore_meta {m : Mach} {core pa : Nat} (h : m.meta (lineOf pa) = mkMeta 2 core 0 0) (t : TRef) (id n : Nat) (v : Option Nat) :
    (m.amendCore core t id pa n v).meta (lineOf pa) = mkMeta (if v.isSome then 4 else 2) core 0 0 := by
  cases v with
  | none => exact h
  | some v => exact (Mach.meta_setMeta _ _ _ _).trans (if_pos rfl)

theorem Mach.amendCore_rest (m : Mach) (core : Nat) (t : TRef) (id pa n : Nat) (v : Option Nat) :
    m.amendCore core t id pa n v = { m with
      linemeta := (m.amendCore core t id pa n v).linemeta, uid := (m.amendCore core t id pa n v).uid
      versions := match v with
        | some v => (List.range (leBytes v n).length).map (atomicByte core t id m.uid pa (leBytes v n)) ++ m.versions
        | none => m.versions } := by
  cases v <;> rfl

/-- An atomic on a CORE page acts in the core's L1, which owns the line (09 R158). -/
theorem atomic_core (hl : Lone s tm th) (hi : i.size = 1) (h : s.AtomicAt tm th i x g d op cmp val ret) {l : Leaf}
    (hr : s.m.Reaches tm th x (tagBytes g) true l) (ha : admits l.bits = true) (hm : pteMig l.bits = false) (hexc : pteExc l.bits = 0)
    (hops : th.ops = []) (hset : s.m.settled) (hh : s.m.atHome (l.pa x))
    (hs : (s.m.l1Set tm.core (setOf (lineOf (l.pa x)))).length < 16) (hroom : 1 ≤ 262144 / max 1 (s.m.teamsOn (dieOf tm.core)))
    {old : Nat} (hold : old = s.m.coreValue tm.core (l.pa x) (tagBytes g)) :
    ∃ s', exec i s = .next s' ∧ s'.m.thread? th.ref = some ((th.onward s.m 1).withOp
        { atomicOp s.m.uid g d ret x old with place := some (l.pa x, x) }) ∧
      s.OthersWait s' th.ref ∧ s'.m.teams = s.m.teams ∧ s.Keeps s' ∧
      s'.m.meta (lineOf (l.pa x)) = mkMeta (if (atomicUpdate g op cmp val old).isSome then 4 else 2) tm.core 0 0 ∧
      (∃ c, s'.m.l1? tm.core (lineOf (l.pa x)) = some c ∧ c.owned = true) ∧
      (∀ y ∈ s'.m.l1, y.line = lineOf (l.pa x) → y.core = tm.core) ∧
      s'.m.versions = match atomicUpdate g op cmp val old with
        | some v => (List.range (leBytes v (tagBytes g)).length).map
            (atomicByte tm.core th.ref s.m.uid (s.m.uid + 1) (l.pa x) (leBytes v (tagBytes g)))
        | none => [] := by
  set v := atomicUpdate g op cmp val old with hv
  obtain ⟨hrest, hmeta, ⟨c, hc, howned, -⟩, halone⟩ := Mach.takeOwnership_home (m := s.named) hh 2 hs
  set m1 := s.named.takeOwnership tm.core (lineOf (l.pa x)) 2 with hm1
  have hact : s.named.act tm th.ref s.m.uid ((Acc.global x l).request g op cmp val ret) =
      (m1.amendCore tm.core th.ref s.m.uid (l.pa x) (tagBytes g) v, some old) := by
    subst hold
    exact (Mach.act_global (.inr (by rw [hexc]; decide)) _ _).trans
      (Mach.updateGlobal_core (m := s.named) (hr.dirty rfl) (thread?_lone hl 1) hops hset hh hexc hr.aligned hs hroom _ _)
  have hamend := m1.amendCore_rest tm.core th.ref s.m.uid (l.pa x) (tagBytes g) v
  have hmem : (m1.amendCore tm.core th.ref s.m.uid (l.pa x) (tagBytes g) v).mem = s.m.mem := by
    rw [hamend, hrest]
    rfl
  obtain ⟨s', he, hth, hothers, hs'⟩ := h.acts hl hi (Mach.checkAtomic_reaches hr ha hm d) hact (tm' := tm)
    (by rw [hamend, hrest]; exact hl.issues.team) hl.issues.quiet (by rw [hamend, hrest]; rfl)
    (fun hw => by rw [hmem]; exact hw) (Mach.wakes_of_threads (by rw [hamend, hrest]))
  have hl1 : s'.m.l1 = m1.l1 := by
    rw [hs'.rest]
    show (m1.amendCore tm.core th.ref s.m.uid (l.pa x) (tagBytes g) v).l1 = _
    rw [hamend]
  refine ⟨s', he, ?_, hothers, ?_, fun z hz => (hs'.mem z hz).trans (congrArg (Memory.get · z) hmem), ?_, ⟨c, ?_, howned⟩, ?_, ?_⟩
  · have hdrop : l.dropLine x = none := if_pos (beq_iff_eq.2 hexc)
    rw [hth, Acc.drop, hdrop]
    rfl
  · rw [hs'.teams]
    show (m1.amendCore tm.core th.ref s.m.uid (l.pa x) (tagBytes g) v).teams = _
    rw [hamend, hrest]
    rfl
  · rw [hs'.rest]
    exact Mach.amendCore_meta hmeta _ _ _ _
  · rw [Mach.l1?, hl1]
    exact hc
  · rw [hl1]
    exact halone
  · rw [hs'.rest]
    show (m1.amendCore tm.core th.ref s.m.uid (l.pa x) (tagBytes g) v).versions = _
    rw [hamend, hrest]
    cases v with
    | none => exact hset.1
    | some v => exact (congrArg (_ ++ ·) hset.1).trans (List.append_nil _)

/-! ### Partials (09 R161) -/

/-- The first operation on a line of a core that holds no partial. -/
theorem Mach.intoPartial_first {m : Mach} {core pa : Nat} (hh : m.atHome pa) (hp : m.partials = [])
    (hs : (m.l1Set core (setOf (lineOf pa))).length < 16) (f : AmoOp) (g : Tag) (v : Nat) :
    m.intoPartial core pa f g v = { m.setMeta (lineOf pa)
        (mkMeta 5 0 (sharersOf (m.meta (lineOf pa)) ||| 2 ^ dieOf core) ((m.meta (lineOf pa)).toNat % 2)) with
      partials := [{ core := core, line := lineOf pa, home := false
                     elems := [(pa - lineOf pa, f, g, BitVec.ofNat 64 (amoApply f g (identity f g) v))] }] } := by
  unfold Mach.intoPartial
  dsimp only
  rw [Mach.recall_home hh.1, Mach.makeSpace_fits (m := m.setMeta _ _) hs]
  rw [show (m.setMeta (lineOf pa) (mkMeta 5 0 (sharersOf (m.meta (lineOf pa)) ||| 2 ^ dieOf core)
    ((m.meta (lineOf pa)).toNat % 2))).partials = [] from hp]
  rfl

theorem sharersOf_lt (v : BitVec 16) : sharersOf v < 2 ^ 4 := Nat.mod_lt _ (by decide)

/-- An APST on an UPDT page enters the core's partial of the line. -/
theorem Mach.act_partial {m : Mach} {l : Leaf} {f : AmoOp} (hd : pteD l.bits = true) {z : Thread} {t : TRef} (hz : m.thread? t = some z)
    (hops : z.ops = []) (hset : m.settled) (hh : m.atHome (l.pa x)) (he : pteExc l.bits = 2) (hf : entersPartial f = true) (id : Nat) :
    m.act tm t id ((Acc.global x l).request g (some f) cmp val false) = (m.intoPartial tm.core (l.pa x) f g val, some 0) := by
  have hpart : (!false && pteExc l.bits == 2 && entersPartial f) = true := by simp [he, hf]
  have hsettle : (m.setDirty l).settleLoads tm.core t (lineOf (l.pa x)) id = m := by
    rw [Mach.setDirty_dirty hd, Mach.settleLoads_none hz hops]
  unfold Mach.act Acc.request
  dsimp only
  rw [if_pos hpart, hsettle, Mach.poisoned_home hh, if_neg Bool.false_ne_true, Mach.touchAreas_none hset.2]

theorem atomic_partial (hl : Lone s tm th) (hi : i.size = 1) {f : AmoOp} (h : s.AtomicAt tm th i x g .none (some f) cmp val false)
    (hf : entersPartial f = true) {l : Leaf} (hr : s.m.Reaches tm th x (tagBytes g) true l) (ha : admits l.bits = true)
    (hm : pteMig l.bits = false) (hexc : pteExc l.bits = 2) (hcore : tm.core < 128) (hops : th.ops = []) (hset : s.m.settled)
    (hh : s.m.atHome (l.pa x)) (hpar : s.m.partials = []) (hs : (s.m.l1Set tm.core (setOf (lineOf (l.pa x)))).length < 16) :
    ∃ s', exec i s = .next s' ∧ s.Keeps s' ∧ s'.m.teams = s.m.teams ∧ stateOf (s'.m.meta (lineOf (l.pa x))) = 5 ∧
      s'.m.thread? th.ref = some ((th.onward s.m 1).withOp
        { atomicOp s.m.uid g .none false x 0 with drop := some (lineOf (l.pa x)), place := some (l.pa x, x) }) ∧
      s'.m.partials = [{ core := tm.core, line := lineOf (l.pa x), home := false
                         elems := [(l.pa x - lineOf (l.pa x), f, g, BitVec.ofNat 64 (amoApply f g (identity f g) val))] }] := by
  have hfirst := Mach.intoPartial_first (m := s.named) hh hpar hs f g val
  have hact := Mach.act_partial (m := s.named) (tm := tm) (cmp := cmp) (val := val) (g := g) (hr.dirty rfl) (thread?_lone hl 1) hops
    hset hh hexc hf s.m.uid
  obtain ⟨s', he, hth, -, hs'⟩ := h.acts hl hi (Mach.checkAtomic_reaches hr ha hm .none) hact (tm' := tm)
    (by rw [hfirst]; exact hl.issues.team) hl.issues.quiet (by rw [hfirst]; rfl) (fun hw => by rw [hfirst]; exact hw)
    (Mach.wakes_of_threads (by rw [hfirst]; rfl))
  rw [hfirst] at hs'
  refine ⟨s', he, hs'.mem, hs'.teams, ?_, ?_, ?_⟩
  · have hmeta : s'.m.meta (lineOf (l.pa x)) = mkMeta 5 0 (sharersOf (s.m.meta (lineOf (l.pa x))) ||| 2 ^ dieOf tm.core)
        ((s.m.meta (lineOf (l.pa x))).toNat % 2) := by
      rw [hs'.rest]
      exact (Mach.meta_setMeta _ _ _ _).trans (if_pos rfl)
    have hdie : 2 ^ dieOf tm.core < 2 ^ 4 := Nat.pow_lt_pow_right (by decide) (by unfold dieOf; omega)
    rw [hmeta]
    exact stateOf_mkMeta (by decide) (by decide) (Nat.or_lt_two_pow (sharersOf_lt _) hdie) (Nat.mod_lt _ (by decide))
  · have hdrop : l.dropLine x = some (lineOf (l.pa x)) := if_neg (by rw [hexc]; decide)
    rw [hth, ← hdrop]
    rfl
  · rw [hs'.rest]
    rfl

end

/-! ### The obligation -/

/-- The clauses of an atomic word at its executor. -/
theorem atomic_clauses {s : State} {tm : Team} {th : Thread} {x off : Nat} {l : Leaf} {g : Tag} {d : Dst} {op : Option AmoOp} {cmp val : Nat}
    {ret : Bool} {upd : Nat → Option Nat} (hu : atomicUpdate g op cmp val = upd) {i : Instr} (hl : Lone s tm th) (hi : i.size = 1) (h : s.AtomicAt tm th i x g d op cmp val ret) :
    (tm.scratch.wf = true → tm.own x (tagBytes g) off → ∃ s' tm', exec i s = .next s' ∧
      let old := leNat (tm.scratch.read off (tagBytes g))
      s'.m.thread? th.ref = some { th.onward s.m 1 with ops := th.ops ++ [atomicOp s.m.uid g d ret 0 old] } ∧ s.OthersWait s' th.ref ∧
      s'.m.team? tm.uid = some tm' ∧ s.Keeps s' ∧
      match upd old with
      | some v => tm.scratch.Stored tm'.scratch off (leBytes v (tagBytes g))
      | none => tm'.scratch = tm.scratch) ∧
    (s.m.mem.wf = true → s.m.Reaches tm th x (tagBytes g) true l → admits l.bits = true → pteMig l.bits = false →
      pteExc l.bits ≠ 0 → (ret = true ∨ pteExc l.bits ≠ 2) → th.ops = [] → s.m.settled → s.m.atHome (l.pa x) →
      ∃ s', exec i s = .next s' ∧
      let old := leNat (s.m.mem.read (l.pa x) (tagBytes g))
      s'.m.thread? th.ref = some { th.onward s.m 1 with ops :=
        [{ atomicOp s.m.uid g d ret x old with drop := some (lineOf (l.pa x)), place := some (l.pa x, x) }] } ∧ s.OthersWait s' th.ref ∧
      s'.m.teams = s.m.teams ∧
      match upd old with
      | some v => s.Puts s' (l.pa x) (leBytes v (tagBytes g))
      | none => s.Keeps s') ∧
    (s.m.Reaches tm th x (tagBytes g) true l → admits l.bits = true → pteMig l.bits = false → pteExc l.bits = 0 → th.ops = [] →
      s.m.settled → s.m.atHome (l.pa x) → tm.core < 128 → (s.m.l1Set tm.core (setOf (lineOf (l.pa x)))).length < 16 →
      1 ≤ 262144 / max 1 (s.m.teamsOn (dieOf tm.core)) → ∃ s', exec i s = .next s' ∧
      let line := lineOf (l.pa x)
      let old := match (s.m.l1? tm.core line).filter fun _ => s.m.grantsBare tm.core line with
        | some c => leNat ((c.data.drop (l.pa x - line)).take (tagBytes g))
        | none => leNat (s.m.mem.read (l.pa x) (tagBytes g))
      s'.m.thread? th.ref = some { th.onward s.m 1 with ops := [{ atomicOp s.m.uid g d ret x old with place := some (l.pa x, x) }] } ∧
      s.OthersWait s' th.ref ∧ s'.m.teams = s.m.teams ∧ s.Keeps s' ∧ ownerOf (s'.m.meta line) = tm.core ∧
      (∃ c, s'.m.l1? tm.core line = some c ∧ c.owned = true) ∧ (∀ y ∈ s'.m.l1, y.line = line → y.core = tm.core) ∧
      match upd old with
      | some v => stateOf (s'.m.meta line) = 4 ∧ s'.m.versions.length = tagBytes g ∧ ∀ j < tagBytes g, ∃ b, s'.m.versions[j]? = some b ∧
          b.pa = l.pa x + j ∧ b.byte = (leBytes v (tagBytes g)).getD j 0 ∧ b.ref = th.ref ∧ b.core = tm.core ∧ b.inL1 = true ∧
          b.atomic = true ∧ b.diePub = false
      | none => stateOf (s'.m.meta line) = 2 ∧ s'.m.versions = []) := by
  subst hu
  refine ⟨fun hw ho => ?_, fun hw hr ha hm hexc hpart hops hset hh => ?_, fun hr ha hm hexc hops hset hh hcore hs hroom => ?_⟩
  · obtain ⟨s', he, hth, hothers, hteam, hk⟩ := atomic_own hl hi h ho rfl
    refine ⟨s', _, he, hth, hothers, hteam, hk, ?_⟩
    cases atomicUpdate g op cmp val (leNat (tm.scratch.read off (tagBytes g))) with
    | some v => exact Team.scratched_stored hw
    | none => rfl
  · obtain ⟨s', he, hth, hothers, hteams, hmem⟩ := atomic_home hl hi h hr ha hm hexc hpart hops hset hh rfl
    refine ⟨s', he, hth.trans ?_, hothers, hteams, ?_⟩
    · rw [Thread.withOp, show (th.onward s.m 1).ops = [] from hops]
      rfl
    · cases hv : atomicUpdate g op cmp val (leNat (s.m.mem.read (l.pa x) (tagBytes g))) with
      | some v =>
        rw [hv] at hmem
        exact fun z hz => (hmem z hz).trans (Memory.get_write _ _ _ hw)
      | none =>
        rw [hv] at hmem
        exact hmem
  · obtain ⟨s', he, hth, hothers, hteams, hk, hmeta, hcopy, halone, hver⟩ := atomic_core hl hi h hr ha hm hexc hops hset hh hs hroom rfl
    refine ⟨s', he, hth.trans ?_, hothers, hteams, hk, ?_, hcopy, halone, ?_⟩
    · rw [Thread.withOp, show (th.onward s.m 1).ops = [] from hops]
      rfl
    · rw [hmeta]
      exact ownerOf_mkMeta (by split <;> decide) (by omega) (by decide) (by decide)
    · have hstate (n : Nat) (hn : n < 8) : stateOf (mkMeta n tm.core 0 0) = n := stateOf_mkMeta hn (by omega) (by decide) (by decide)
      change (match atomicUpdate g op cmp val (s.m.coreValue tm.core (l.pa x) (tagBytes g)) with | some v => _ | none => _)
      cases hv : atomicUpdate g op cmp val (s.m.coreValue tm.core (l.pa x) (tagBytes g)) with
      | some v =>
        rw [hv] at hmeta hver
        dsimp only at hver ⊢
        rw [hmeta, hver]
        refine ⟨hstate 4 (by decide), by simp [leBytes_length], fun j hj => ⟨atomicByte tm.core th.ref s.m.uid (s.m.uid + 1) (l.pa x)
          (leBytes v (tagBytes g)) j, by simp [leBytes_length, hj], rfl, rfl, rfl, rfl, rfl, rfl, rfl⟩⟩
      | none =>
        rw [hv] at hmeta hver
        dsimp only at hver ⊢
        rw [hmeta]
        exact ⟨hstate 2 (by decide), hver⟩

theorem entersPartial_of {f : AmoOp} (h : f ∉ [AmoOp.xchg, .inc, .dec]) : entersPartial f = true := by
  unfold entersPartial
  split <;> simp_all

/-- Settles O27. -/
theorem atomics : Obligations.Atomics := by
  refine ⟨fun s tm th d a b f x off l hl hx hat => ?_, fun s tm th a b f x l hl hx hat => ?_⟩
  · intro g n back gone there arg p hp hb hform hd hif
    rcases List.mem_cons.1 hp with rfl | hp
    · rw [if_neg (by exact nofun)] at hif
      have h := atomic_clauses (off := off) (l := l) rfl hl rfl (atomicAt_amo hl hx hat hb hif.1 hform (hd nofun) hif.2)
      exact ⟨h.1, fun hw hr ha hm hexc _ => h.2.1 hw hr ha hm hexc (.inl rfl), h.2.2⟩
    rcases List.mem_cons.1 hp with rfl | hp
    · rw [if_neg (by exact nofun)] at hif
      have h := atomic_clauses (off := off) (l := l) rfl hl rfl (atomicAt_apst hl hx hat hb hif.1 hform hif.2)
      exact ⟨h.1, fun hw hr ha hm hexc hpart => h.2.1 hw hr ha hm hexc (.inr (hpart rfl)), h.2.2⟩
    · obtain rfl := List.mem_singleton.1 hp
      rw [if_pos rfl] at hif
      obtain ⟨hraw, hal, htag, hform'⟩ := hif
      have hup : atomicUpdate g none arg (th.valAt (b.toNat + g.regs)) =
          fun old => if old = arg then some (th.valAt (b.toNat + g.regs)) else none :=
        funext fun old => by simp only [atomicUpdate, beq_iff_eq]
      have h := atomic_clauses (off := off) (l := l) hup hl rfl (atomicAt_acas hl hx hat hb hraw hform (hd nofun) hal htag hform')
      exact ⟨h.1, fun hw hr ha hm hexc _ => h.2.1 hw hr ha hm hexc (.inl rfl), h.2.2⟩
  · intro g hb hacc hf hform hal hr ha hm hexc hcore hops hset hh hpar hs
    obtain ⟨s', he, hk, hteams, hstate, hth, hparts⟩ := atomic_partial hl rfl (atomicAt_apst hl hx hat hb hacc hform hal)
      (entersPartial_of hf) hr ha hm hexc hcore hops hset hh hpar hs
    refine ⟨s', he, hk, hteams, hstate, hth.trans ?_, hparts⟩
    rw [Thread.withOp, show (th.onward s.m 1).ops = [] from hops]
    rfl

end Sys2Proof.Machine
end

section
/-! SUPPORT. Placed arithmetic of no element and of one (24 R375, R376). -/

namespace Sys2Proof.Machine

/-! ### Its operands and their pages -/

theorem tagBytes_pos (g : Tag) : 0 < tagBytes g := by cases g <;> decide

/-- A page holds whole elements. -/
theorem tagBytes_dvd_size (g : Tag) (l : Leaf) : l.size % tagBytes g = 0 := by
  unfold Leaf.size pageBytes
  cases g <;> split <;> decide

/-- The operand of one element at `x`, on the page of `l`, passes every check of R377 beside a destination of executor `exc`. -/
structure Mach.Placeable (m : Mach) (tm : Team) (t : Thread) (g : Tag) (exc x : Nat) (write : Bool) (l : Leaf) : Prop where
  reach  : m.Reaches tm t x (tagBytes g) write l
  within : x + tagBytes g ≤ 2 ^ 57
  suits  : admits l.bits = true
  still  : pteMig l.bits = false
  place  : pteExc l.bits = exc
  home   : m.atHome (l.pa x)

/-- The only page of an operand of one element. -/
def onePage (opnd a : Nat) (l : Leaf) : OpPage := { opnd := opnd, elem := 0, addr := a, tr := .ok l }

section
variable {m : Mach} {tm : Team} {t : Thread} {g : Tag} {exc : Nat}

/-- An operand of one element lies on one page. -/
theorem Mach.Placeable.pages {a : Nat} {w : Bool} {l : Leaf} (h : m.Placeable tm t g exc a w l) (opnd fuel : Nat) :
    m.operandPages tm t opnd a (tagBytes g) 1 (fuel + 2) 0 = [onePage opnd a l] := by
  have hva : (a + 0 * tagBytes g) % 2 ^ 57 = a := by
    rw [Nat.zero_mul, Nat.add_zero]
    exact Nat.mod_eq_of_lt h.reach.global
  have hsize : 0 < l.size := by
    unfold Leaf.size pageBytes
    split <;> decide
  have hdvd := tagBytes_dvd_size g l
  have hpos := tagBytes_pos g
  have hleft : 1 ≤ 0 + (l.size - a % l.size) / tagBytes g := by
    have hmod : a % l.size % tagBytes g = 0 := by
      rw [Nat.mod_mod_of_dvd _ (Nat.dvd_of_mod_eq_zero hdvd)]
      exact h.reach.aligned
    have hlt := Nat.mod_lt a hsize
    obtain ⟨p, hp⟩ := Nat.dvd_of_mod_eq_zero hdvd
    obtain ⟨q, hq⟩ := Nat.dvd_of_mod_eq_zero hmod
    have hsub : l.size - a % l.size = tagBytes g * (p - q) := by rw [hq, hp, Nat.mul_sub]
    have hqp : q < p := by
      rw [hq, hp] at hlt
      exact Nat.lt_of_mul_lt_mul_left hlt
    rw [hsub, Nat.mul_div_cancel_left _ hpos]
    omega
  rw [Mach.operandPages, if_neg (by omega)]
  dsimp only
  rw [hva, h.reach.page]
  dsimp only
  rw [Mach.operandPages, if_pos hleft, Nat.zero_mul, Nat.add_zero]
  rfl

/-- A placed operation of one element whose operands pass the checks of R377. -/
structure Mach.PlacesOne (m : Mach) (tm : Team) (t : Thread) (p : PlacedArgs) (ld : Leaf) : Prop where
  one  : p.n = 1
  dest : m.Placeable tm t p.tag (pteExc ld.bits) p.d true ld
  srcs : ∀ a ∈ p.srcs, ∃ l, m.Placeable tm t p.tag (pteExc ld.bits) a false l

variable {p : PlacedArgs} {ld : Leaf}

/-- The pages of a placed operation of one element: the destination's, and one of each source. -/
theorem Mach.PlacesOne.pages (h : m.PlacesOne tm t p ld) : ∃ ps, m.placedPages tm t p = onePage 0 p.d ld :: ps ∧
    ∀ q ∈ ps, q.opnd ≠ 0 ∧ ∃ l, q = onePage q.opnd q.addr l ∧ m.Placeable tm t p.tag (pteExc ld.bits) q.addr false l := by
  refine ⟨((p.srcs.zipIdx 1).map fun q => m.operandPages tm t q.2 q.1 (tagBytes p.tag) 1 (1 * tagBytes p.tag / 4096 + 2) 0).flatten, ?_, ?_⟩
  · unfold Mach.placedPages
    dsimp only
    rw [h.one, show min 1 65536 = 1 from rfl, List.zipIdx_cons, List.map_cons, List.flatten_cons, h.dest.pages]
    rfl
  · intro q hq
    obtain ⟨os, hos, hq⟩ := List.mem_flatten.1 hq
    obtain ⟨⟨a, k⟩, hak, rfl⟩ := List.mem_map.1 hos
    obtain ⟨hk, -, ha⟩ := List.mem_zipIdx hak
    obtain ⟨l, hl⟩ := h.srcs a (ha ▸ List.getElem_mem _)
    rw [hl.pages, List.mem_singleton] at hq
    subst hq
    exact ⟨Nat.ne_of_gt hk, l, rfl, hl⟩

/-- What holds of every page of the operation. -/
theorem Mach.PlacesOne.page (h : m.PlacesOne tm t p ld) : ∀ q ∈ m.placedPages tm t p, q.elem = 0 ∧
    ∃ l, q.tr = .ok l ∧ m.Placeable tm t p.tag (pteExc ld.bits) q.addr (q.opnd == 0) l := by
  obtain ⟨ps, hps, hall⟩ := h.pages
  rw [hps]
  intro q hq
  rcases List.mem_cons.1 hq with rfl | hq
  · exact ⟨rfl, ld, rfl, h.dest⟩
  · obtain ⟨hk, l, hql, hl⟩ := hall q hq
    refine ⟨by rw [hql]; rfl, l, by rw [hql]; rfl, ?_⟩
    rw [beq_eq_false_iff_ne.2 hk]
    exact hl

theorem Mach.PlacesOne.pageCheck (h : m.PlacesOne tm t p ld) : ∀ q ∈ m.placedPages tm t p, pageCheck m tm.ctx q = none := by
  intro q hq
  obtain ⟨-, l, htr, hl⟩ := h.page q hq
  unfold Sys2Proof.Machine.pageCheck
  rw [htr]
  dsimp only
  rw [hl.reach.allowed, hl.suits, hl.still]
  rfl

theorem pageOf_mem {ps : List OpPage} {o i : Nat} {q : OpPage} (h : pageOf ps o i = some q) : q ∈ ps :=
  (List.mem_filter.1 (List.mem_of_getLast? h)).1

/-- No source of the operation stands at another executor than its destination. -/
theorem Mach.PlacesOne.unsplit (h : m.PlacesOne tm t p ld) : splitOffence (m.placedPages tm t p) = none := by
  have hexc : ∀ o i q, pageOf (m.placedPages tm t p) o i = some q →
      (match q.tr with | .ok l => pteExc l.bits | _ => 0) = pteExc ld.bits := by
    intro o i q hq
    obtain ⟨-, l, htr, hl⟩ := h.page q (pageOf_mem hq)
    rw [htr]
    exact hl.place
  have hnone : ((m.placedPages tm t p).map fun q => ([1, 2].filter fun o =>
      match (pageOf (m.placedPages tm t p) o q.elem).map (fun r => match r.tr with | .ok l => pteExc l.bits | _ => 0),
        (pageOf (m.placedPages tm t p) 0 q.elem).map (fun r => match r.tr with | .ok l => pteExc l.bits | _ => 0) with
      | some x, some y => x != y
      | _, _ => false).map fun o => (q.elem, o)).flatten = [] := by
    rw [List.flatten_eq_nil_iff]
    intro os hos
    obtain ⟨q, -, rfl⟩ := List.mem_map.1 hos
    rw [List.map_eq_nil_iff, List.filter_eq_nil_iff]
    intro o _
    cases ho : pageOf (m.placedPages tm t p) o q.elem with
    | none => exact Bool.false_ne_true
    | some r =>
      cases hd : pageOf (m.placedPages tm t p) 0 q.elem with
      | none => exact Bool.false_ne_true
      | some r' =>
        dsimp only [Option.map_some]
        rw [hexc _ _ _ ho, hexc _ _ _ hd, bne_self_eq_false]
        exact Bool.false_ne_true
  exact congrArg firstRank hnone

/-- The operation passes the checks of R377. -/
theorem Mach.PlacesOne.checks (h : m.PlacesOne tm t p ld) : m.placedChecks tm t p = none := by
  have hops : ∀ a ∈ p.d :: p.srcs, a % tagBytes p.tag = 0 ∧ a < 2 ^ 57 := by
    intro a ha
    rcases List.mem_cons.1 ha with rfl | ha
    · exact ⟨h.dest.reach.aligned, h.dest.reach.global⟩
    · obtain ⟨l, hl⟩ := h.srcs a ha
      exact ⟨hl.reach.aligned, hl.reach.global⟩
  have haligned : ((p.d :: p.srcs).find? fun a => a % tagBytes p.tag != 0) = none :=
    List.find?_eq_none.2 fun a ha => by simp [(hops a ha).1]
  have houtside : ((p.d :: p.srcs).zipIdx.filterMap fun q =>
      if 2 ^ 57 ≤ q.1 + (min 1 65536 - 1) * tagBytes p.tag then some ((2 ^ 57 - q.1) / tagBytes p.tag, q.2) else none) = [] := by
    rw [List.filterMap_eq_nil_iff]
    rintro ⟨a, k⟩ hak
    have := (hops a (List.fst_mem_of_mem_zipIdx hak)).2
    exact if_neg (by simp only [show min 1 65536 - 1 = 0 from rfl, Nat.zero_mul]; omega)
  have hfails : ((m.placedPages tm t p).filterMap fun q => (Sys2Proof.Machine.pageCheck m tm.ctx q).map fun c => (c, q)) = [] := by
    rw [List.filterMap_eq_nil_iff]
    intro q hq
    rw [h.pageCheck q hq]
    rfl
  unfold Mach.placedChecks
  dsimp only
  rw [h.one]
  simp only [Nat.reduceBEq, Bool.false_eq_true, if_false]
  rw [haligned]
  dsimp only
  rw [houtside]
  dsimp only [firstRank, List.foldl_nil]
  split
  next q hq =>
    obtain ⟨-, l, htr, hl⟩ := h.page q (List.mem_of_find?_eq_some hq)
    have hsome := List.find?_some hq
    rw [htr] at hsome
    simp only [Bool.and_eq_true, beq_iff_eq, Bool.not_eq_true'] at hsome
    exact absurd (hl.reach.dirty (beq_iff_eq.2 hsome.1.1)) (by simp [hsome.1.2])
  next =>
    rw [hfails]
    dsimp only [List.filter_nil, List.map_nil, List.foldl_nil]
    rw [h.unsplit, ite_self]
    rfl

/-- The place that a page gives the operation: a destination's in space 2. -/
def OpPage.place (q : OpPage) : Option (Nat × Nat) :=
  match q.tr with
  | .ok l =>
    let pa := l.pa (q.addr % 2 ^ 57)
    if q.opnd == 0 && spaceOf pa == 2 then some (pa, q.addr) else none
  | _ => none

theorem Mach.PlacesOne.counted (h : m.PlacesOne tm t p ld) : (m.placedPages tm t p).findSome? OpPage.place =
    if spaceOf (ld.pa p.d) = 2 then some (ld.pa p.d, p.d) else none := by
  obtain ⟨ps, hps, hall⟩ := h.pages
  have hrest : ps.findSome? OpPage.place = none := by
    rw [List.findSome?_eq_none_iff]
    intro q hq
    obtain ⟨hk, l, hql, -⟩ := hall q hq
    rw [OpPage.place, show q.tr = .ok l by rw [hql]; rfl]
    dsimp only
    rw [beq_eq_false_iff_ne.2 hk]
    rfl
  rw [hps, List.findSome?_cons, hrest]
  dsimp only [onePage, OpPage.place]
  rw [Nat.mod_eq_of_lt h.dest.reach.global]
  by_cases hspace : spaceOf (ld.pa p.d) = 2 <;> simp [hspace]

/-! ### Its element -/

theorem Mach.Placeable.elemLeaf {a : Nat} {w : Bool} {l : Leaf} (h : m.Placeable tm t g exc a w l) : m.elemLeaf tm t a = some l := by
  rw [Mach.elemLeaf, Nat.mod_eq_of_lt h.reach.global, h.reach.page]

/-- A source at its home is read there, but one that is the destination (R376). -/
theorem Mach.Placeable.sourceElem {a : Nat} {w : Bool} {l : Leaf} (h : m.Placeable tm t g exc a w l) (dpa : Nat) :
    m.sourceElem tm t dpa a (tagBytes g) =
      (m, some (l.pa a, if l.pa a = dpa then 0 else leNat (m.mem.read (l.pa a) (tagBytes g)))) := by
  rw [Mach.sourceElem, h.elemLeaf]
  dsimp only
  rw [Nat.mod_eq_of_lt h.reach.global]
  by_cases hpa : l.pa a = dpa
  · rw [if_pos (beq_iff_eq.2 hpa), if_pos hpa]
  · rw [if_neg (mt beq_iff_eq.1 hpa), if_neg hpa, Mach.cohRead_home _ h.home (l.pa_fits h.reach.aligned)]

/-- One more source of the element, read after those before it. -/
def Mach.takeSource (tm : Team) (t : Thread) (dpa off e : Nat) (acc : Mach × Option (List (Nat × Nat))) (s : Nat) :
    Mach × Option (List (Nat × Nat)) :=
  match acc.2 with
  | none => acc
  | some xs =>
    match acc.1.sourceElem tm t dpa (s + off) e with
    | (m, some x) => (m, some (xs ++ [x]))
    | (m, none) => (m, none)

/-- The `k`-th source of the element by what was read: the destination's own value where it stands there. -/
def sourceValue (xs : List (Nat × Nat)) (dpa value k old : Nat) : Nat :=
  match xs[k]? with
  | some (pa, x) => if pa == dpa then old else x
  | none => value

theorem Mach.Placeable.takeSource {a : Nat} {w : Bool} {l : Leaf} (h : m.Placeable tm t g exc a w l) (dpa : Nat) (xs : List (Nat × Nat)) :
    Mach.takeSource tm t dpa (0 * tagBytes g) (tagBytes g) (m, some xs) a =
      (m, some (xs ++ [(l.pa a, if l.pa a = dpa then 0 else leNat (m.mem.read (l.pa a) (tagBytes g)))])) := by
  unfold Mach.takeSource
  rw [Nat.zero_mul, Nat.add_zero]
  dsimp only
  rw [h.sourceElem]

/-- The value of a source at its home. -/
theorem sourceValue_home {xs : List (Nat × Nat)} {pa dpa value k n : Nat} {mem : Memory}
    (h : xs[k]? = some (pa, if pa = dpa then 0 else leNat (mem.read pa n))) :
    sourceValue xs dpa value k (leNat (mem.read dpa n)) = leNat (mem.read pa n) := by
  unfold sourceValue
  rw [h]
  dsimp only
  by_cases hpa : pa = dpa
  · rw [if_pos (beq_iff_eq.2 hpa), hpa]
  · rw [if_neg (mt beq_iff_eq.1 hpa), if_neg hpa]

/-- The element of the operation is updated at its home, once its sources are read. -/
theorem Mach.PlacesOne.element (h : m.PlacesOne tm t p ld) (hs : m.settled) (hexc : pteExc ld.bits ≠ 0) {xs : List (Nat × Nat)}
    (hsrcs : p.srcs.foldl (Mach.takeSource tm t (ld.pa p.d) (0 * tagBytes p.tag) (tagBytes p.tag)) (m, some []) = (m, some xs))
    (hz : ({ m with uid := m.uid + 1 } : Mach).settleLoads tm.core t.ref (lineOf (ld.pa p.d)) m.uid = { m with uid := m.uid + 1 }) :
    m.placedElem tm t p 0 = ({ m with uid := m.uid + 1 } : Mach).amendHome (ld.pa p.d) (tagBytes p.tag)
      (some (xApply p.x p.tag
        (sourceValue xs (ld.pa p.d) p.value 0 (leNat (m.mem.read (ld.pa p.d) (tagBytes p.tag))))
        (sourceValue xs (ld.pa p.d) p.value 1 (leNat (m.mem.read (ld.pa p.d) (tagBytes p.tag))))
        (leNat (m.mem.read (ld.pa p.d) (tagBytes p.tag))))) := by
  have hva : (p.d + 0 * tagBytes p.tag) % 2 ^ 57 = p.d := by
    rw [Nat.zero_mul, Nat.add_zero]
    exact Nat.mod_eq_of_lt h.dest.reach.global
  have hleaf : m.elemLeaf tm t (p.d + 0 * tagBytes p.tag) = some ld := by
    rw [Nat.zero_mul, Nat.add_zero]
    exact h.dest.elemLeaf
  have hup := Mach.updateGlobal_home (m := { m with uid := m.uid + 1 }) (ret := false) (h.dest.reach.dirty rfl) hz hs h.dest.home hexc
    h.dest.reach.aligned fun old => some (xApply p.x p.tag (sourceValue xs (ld.pa p.d) p.value 0 old)
      (sourceValue xs (ld.pa p.d) p.value 1 old) old)
  unfold Mach.placedElem
  dsimp only
  rw [hleaf]
  dsimp only
  rw [hva]
  change (match p.srcs.foldl (Mach.takeSource tm t (ld.pa p.d) (0 * tagBytes p.tag) (tagBytes p.tag)) (m, some []) with
    | (m, none) => m
    | (m, some xs) => _) = _
  rw [hsrcs]
  change (match ({ m with uid := m.uid + 1 } : Mach).updateGlobal tm t.ref m.uid p.d ld (tagBytes p.tag) false fun old =>
      some (xApply p.x p.tag (sourceValue xs (ld.pa p.d) p.value 0 old) (sourceValue xs (ld.pa p.d) p.value 1 old) old) with
    | (m, some _) => m
    | (m, none) => _) = _
  rw [hup]

end

/-! ### The words -/

/-- A thread with nothing but stores in flight has no load to settle. -/
theorem Mach.settleLoads_stores {m : Mach} {t : TRef} {x : Thread} (hx : m.thread? t = some x)
    (h : ∀ o ∈ x.ops, ∃ va, o.kind = .store va) (core line upto : Nat) : m.settleLoads core t line upto = m := by
  have hone (o : Op) (ho : o ∈ x.ops) :
      (if upto ≤ o.id then m else (m.settleLoad core t line o.id).settleLaunch core t line o) = m := by
    have hload : m.settleLoad core t line o.id = m := by
      have hnone : ((x.ops.find? fun p => p.id == o.id).bind Op.load?) = none := by
        cases hf : x.ops.find? fun p => p.id == o.id with
        | none => rfl
        | some q =>
          obtain ⟨va, hq⟩ := h q (List.mem_of_find?_eq_some hf)
          simp [Op.load?, hq]
      rw [Mach.settleLoad, hx, Option.bind_some, hnone]
    obtain ⟨va, ho⟩ := h o ho
    rw [hload, Mach.settleLaunch, ho, ite_self]
  have hall (os : List Op) (hos : os ⊆ x.ops) : os.foldl (fun m o =>
      if upto ≤ o.id then m else (m.settleLoad core t line o.id).settleLaunch core t line o) m = m := by
    induction os with
    | nil => rfl
    | cons o os ih => rw [List.foldl_cons, hone o (hos List.mem_cons_self), ih (List.subset_of_cons_subset hos)]
  rw [Mach.settleLoads, hx]
  exact hall _ (List.Subset.refl _)

section
variable {s : State} {tm : Team} {th : Thread} {i : Instr} {args : Thread → Option PlacedArgs} {p : PlacedArgs}

/-- A placed operation in flight, in the stores class. -/
def placedOp (id : Nat) (place : Option (Nat × Nat)) : Op := { storeOp id 0 with place := place }

/-- A placed word whose lane has taken no element ends with it. -/
theorem placedOnce_none {m : Mach} (ht : m.team? m.cur.team = some tm) (hr : th.helper = false) (hargs : args th = some p)
    (hn : p.n = 0) : placedOnce args [th] m = m := by
  unfold placedOnce
  rw [ht]
  simp [hr, hargs, hn, Mach.placedRun]

/-- A placed word of one element makes that. -/
theorem placedOnce_one {m : Mach} (ht : m.team? m.cur.team = some tm) (hr : th.helper = false) (hargs : args th = some p)
    (hn : p.n = 1) : placedOnce args [th] m = ({ m with free := m.free + 1 } : Mach).placedElem tm th p 0 := by
  unfold placedOnce
  rw [ht]
  simp [hr, hargs, hn, Mach.placedRun, Mach.choose]

/-- A placed word of no element changes nothing but that its lane goes on (24 R376). -/
theorem placed_none (hl : Lone s tm th) (he : exec i s = runWord (placedWord i args) s) (hb : staticBad s.m tm i = false)
    (hargs : args th = some p) (hn : p.n = 0) : ∃ s', (exec i s = .next s' ∧
      s'.m.thread? th.ref = some { th.onward s.m i.size with ops := th.ops ++ [] } ∧ s.OthersWait s' th.ref ∧ s'.m.teams = s.m.teams) ∧
      s.Keeps s' := by
  have hacts : Acts i s fun m => placedOnce args [th] m := by
    refine acts_of_lone (f := id) hl he rfl hb ?_
    dsimp only [placedWord]
    unfold placedLane
    rw [hl.real, bundle_team? hl.issues (by simp [hl.bundle]), hargs]
    dsimp only
    rw [show s.m.placedChecks tm th p = none by rw [Mach.placedChecks, hn]; rfl]
    dsimp only
    rw [hn]
    rfl
  obtain ⟨s', hs', hs⟩ := hacts.leaves (placedOnce_none hl.issues.team hl.real hargs hn) hl.issues.team hl.issues.quiet rfl id
  refine ⟨s', ⟨hs', ?_, othersWait_of fun r y hr hy => ⟨y, ?_, rfl⟩, hs.teams⟩, fun a ha => hs.mem a ha⟩
  · rw [hs.thread?, List.append_nil]
    exact thread?_lone hl _
  · exact (hs.thread? r).trans ((thread?_lone_other hl hr _).trans hy)

/-- A placed word of one element whose operands pass the checks of R377, at the home of its destination. -/
theorem placed_one (hl : Lone s tm th) (he : exec i s = runWord (placedWord i args) s) (hb : staticBad s.m tm i = false)
    (hargs : args th = some p) {ld : Leaf} (h : s.m.PlacesOne tm th p ld) (hw : s.m.mem.wf = true) (hops : th.ops = [])
    (hset : s.m.settled) (hexc : pteExc ld.bits ≠ 0) {xs : List (Nat × Nat)} {v : Nat}
    (hsrcs : ∀ m : Mach, m.PlacesOne tm th p ld → m.mem = s.m.mem → (∀ a w l, s.m.Placeable tm th p.tag (pteExc ld.bits) a w l →
        m.Placeable tm th p.tag (pteExc ld.bits) a w l) →
      p.srcs.foldl (Mach.takeSource tm th (ld.pa p.d) (0 * tagBytes p.tag) (tagBytes p.tag)) (m, some []) = (m, some xs))
    (hv : v = xApply p.x p.tag
        (sourceValue xs (ld.pa p.d) p.value 0 (leNat (s.m.mem.read (ld.pa p.d) (tagBytes p.tag))))
        (sourceValue xs (ld.pa p.d) p.value 1 (leNat (s.m.mem.read (ld.pa p.d) (tagBytes p.tag))))
        (leNat (s.m.mem.read (ld.pa p.d) (tagBytes p.tag)))) :
    ∃ s', (exec i s = .next s' ∧ s'.m.thread? th.ref = some { th.onward s.m i.size with
        ops := th.ops ++ [placedOp s.m.uid (if spaceOf (ld.pa p.d) = 2 then some (ld.pa p.d, p.d) else none)] } ∧
        s.OthersWait s' th.ref ∧ s'.m.teams = s.m.teams) ∧ s.Puts s' (ld.pa p.d) (leBytes v (tagBytes p.tag)) := by
  set op := placedOp s.m.uid (if spaceOf (ld.pa p.d) = 2 then some (ld.pa p.d, p.d) else none) with hop
  have hacts : Acts i s fun m => placedOnce args [th] (({ m with uid := m.uid + 1 } : Mach).addOp th.ref
      (placedOp m.uid (if spaceOf (ld.pa p.d) = 2 then some (ld.pa p.d, p.d) else none))) := by
    refine acts_of_lone (f := fun m => ({ m with uid := m.uid + 1 } : Mach).addOp th.ref
      (placedOp m.uid (if spaceOf (ld.pa p.d) = 2 then some (ld.pa p.d, p.d) else none))) hl he rfl hb ?_
    dsimp only [placedWord]
    unfold placedLane
    rw [hl.real, bundle_team? hl.issues (by simp [hl.bundle]), hargs]
    dsimp only
    rw [h.checks]
    change LaneOut.ok (fun m => if p.n == 0 then m else (({ m with uid := m.uid + 1 } : Mach).addOp th.ref
      (placedOp m.uid ((s.m.placedPages tm th p).findSome? OpPage.place)))) = _
    rw [h.counted, h.one]
    rfl
  set m0 := s.m.advance (refs s.m.bundle) (s.m.wordAddr i.size) with hm0
  set m1 := ({ m0 with uid := m0.uid + 1 } : Mach).addOp th.ref op with hm1
  set m2 : Mach := { m1 with free := m1.free + 1 } with hm2
  have hplace : ∀ a w l, s.m.Placeable tm th p.tag (pteExc ld.bits) a w l → m2.Placeable tm th p.tag (pteExc ld.bits) a w l :=
    fun a w l h => ⟨⟨h.reach.aligned, h.reach.global, h.reach.page, h.reach.allowed, h.reach.dirty⟩, h.within, h.suits, h.still,
      h.place, h.home⟩
  have hone : m2.PlacesOne tm th p ld := ⟨h.one, hplace _ _ _ h.dest, fun a ha => (h.srcs a ha).imp fun l hl => hplace _ _ _ hl⟩
  have hth : m2.thread? th.ref = some ((th.onward s.m i.size).withOp op) := Mach.thread?_addOp (m := { m0 with uid := m0.uid + 1 })
    (thread?_lone hl i.size) op
  have hsettle : ({ m2 with uid := m2.uid + 1 } : Mach).settleLoads tm.core th.ref (lineOf (ld.pa p.d)) m2.uid =
      { m2 with uid := m2.uid + 1 } := by
    refine Mach.settleLoads_stores (m := { m2 with uid := m2.uid + 1 }) (x := (th.onward s.m i.size).withOp op) hth ?_ _ _ _
    rw [Thread.withOp, show (th.onward s.m i.size).ops = [] from hops]
    intro o ho
    rw [List.mem_singleton.1 ho]
    exact ⟨_, rfl⟩
  have helem := hone.element (m := m2) hset hexc (hsrcs m2 hone rfl hplace) hsettle
  have hvalue : xApply p.x p.tag
      (sourceValue xs (ld.pa p.d) p.value 0 (leNat (m2.mem.read (ld.pa p.d) (tagBytes p.tag))))
      (sourceValue xs (ld.pa p.d) p.value 1 (leNat (m2.mem.read (ld.pa p.d) (tagBytes p.tag))))
      (leNat (m2.mem.read (ld.pa p.d) (tagBytes p.tag))) = v := hv.symm
  rw [hvalue] at helem
  have hhome : ({ m2 with uid := m2.uid + 1 } : Mach).atHome (ld.pa p.d) := h.dest.home
  have hrest := Mach.amendHome_rest hhome (tagBytes p.tag) (some v)
  have hwakes := Mach.amendHome_wakes hhome (tagBytes p.tag) (some v)
  obtain ⟨s', hs', hs⟩ := hacts.leaves ((placedOnce_one (m := m1) hl.issues.team hl.real hargs h.one).trans helem) (tm := tm)
    (by rw [hrest]; exact hl.issues.team) hl.issues.quiet (by rw [hrest]; rfl)
    (fun hw => by rw [hrest]; exact Memory.write_wf _ _ hw)
  refine ⟨s', ⟨hs', ?_, othersWait_of fun r y hr hy => ?_, ?_⟩, fun z hz => ?_⟩
  · obtain ⟨z, hz, -, hready⟩ := hwakes th.ref _ hth
    rw [hs.thread?, hz, hready (lone_ready hl i.size)]
    rfl
  · obtain ⟨z, hz, hzrest, -⟩ := hwakes r y ((Mach.thread?_addOp_other (m := { m0 with uid := m0.uid + 1 }) hr op).trans
      ((thread?_lone_other hl hr i.size).trans hy))
    exact ⟨z, (hs.thread? r).trans hz, hzrest⟩
  · rw [hs.teams, hrest]
    rfl
  · rw [hs.mem z hz, hrest]
    exact Memory.get_write _ _ _ hw

/-- The operands of a two-source placed word. -/
theorem placedTwo_of {x : XOp} {d a b n : Reg} {g : Tag} {xd xa xb : Nat} (hd : th.pairIs d xd) (ha : th.pairIs a xa)
    (hb : th.pairIs b xb) (hn : th.tagAt n.toNat = .i32) : placedTwo x d a b g n th =
      some { x := x, tag := g, n := (th.reg n.toNat).bits.toNat, d := xd, srcs := [xa, xb], value := 0 } := by
  rw [placedTwo, Thread.pairAt_of_pairIs hd, Thread.pairAt_of_pairIs ha, Thread.pairAt_of_pairIs hb, Thread.i32At_of_tag hn]

/-- The operands of XFIL. -/
theorem placedFil_of {d a n : Reg} {g : Tag} {xd : Nat} (hd : th.pairIs d xd) (ha : th.tagAt a.toNat = g)
    (hf : th.formed a.toNat = true) (hn : th.tagAt n.toNat = .i32) : placedFil d a g n th =
      some { x := .fil, tag := g, n := (th.reg n.toNat).bits.toNat, d := xd, srcs := [], value := th.valAt a.toNat } := by
  rw [placedFil, Thread.pairAt_of_pairIs hd, Thread.i32At_of_tag hn]
  dsimp only
  rw [beq_iff_eq.2 ha, hf]
  rfl

/-- The element of a two-source placed word, its sources at their homes. -/
theorem placed_two (hl : Lone s tm th) {x : XOp} {d a b n : Reg} {g : Tag} {xd xa xb : Nat}
    (he : exec i s = runWord (placedWord i (placedTwo x d a b g n)) s) (hb : staticBad s.m tm i = false)
    (hargs : placedTwo x d a b g n th = some { x := x, tag := g, n := 1, d := xd, srcs := [xa, xb], value := 0 })
    (hw : s.m.mem.wf = true) (hops : th.ops = []) (hset : s.m.settled) {ld la lb : Leaf} (hexc : pteExc ld.bits ≠ 0)
    (hd : s.m.Placeable tm th g (pteExc ld.bits) xd true ld) (ha : s.m.Placeable tm th g (pteExc ld.bits) xa false la)
    (hb' : s.m.Placeable tm th g (pteExc ld.bits) xb false lb) :
    ∃ s', (exec i s = .next s' ∧ s'.m.thread? th.ref = some { th.onward s.m i.size with
        ops := th.ops ++ [placedOp s.m.uid (if spaceOf (ld.pa xd) = 2 then some (ld.pa xd, xd) else none)] } ∧
        s.OthersWait s' th.ref ∧ s'.m.teams = s.m.teams) ∧ s.Puts s' (ld.pa xd) (leBytes (xApply x g
          (leNat (s.m.mem.read (la.pa xa) (tagBytes g))) (leNat (s.m.mem.read (lb.pa xb) (tagBytes g)))
          (leNat (s.m.mem.read (ld.pa xd) (tagBytes g)))) (tagBytes g)) := by
  have hone : s.m.PlacesOne tm th { x := x, tag := g, n := 1, d := xd, srcs := [xa, xb], value := 0 } ld := by
    refine ⟨rfl, hd, fun z hz => ?_⟩
    rcases List.mem_cons.1 hz with rfl | hz
    · exact ⟨la, ha⟩
    · rw [List.mem_singleton.1 hz]
      exact ⟨lb, hb'⟩
  refine placed_one hl he hb hargs hone hw hops hset hexc (xs := [
    (la.pa xa, if la.pa xa = ld.pa xd then 0 else leNat (s.m.mem.read (la.pa xa) (tagBytes g))),
    (lb.pa xb, if lb.pa xb = ld.pa xd then 0 else leNat (s.m.mem.read (lb.pa xb) (tagBytes g)))]) (fun m _ hmem hplace => ?_) ?_
  · rw [← hmem]
    dsimp only [List.foldl_cons, List.foldl_nil]
    rw [(hplace _ _ _ ha).takeSource, (hplace _ _ _ hb').takeSource]
    rfl
  · dsimp only
    rw [sourceValue_home (k := 0) rfl, sourceValue_home (k := 1) rfl]

/-- The element that XFIL fills. -/
theorem placed_fil (hl : Lone s tm th) {d a n : Reg} {g : Tag} {xd : Nat}
    (hb : staticBad s.m tm (.xfil d a g n) = false)
    (hargs : placedFil d a g n th = some { x := .fil, tag := g, n := 1, d := xd, srcs := [], value := th.valAt a.toNat })
    (hw : s.m.mem.wf = true) (hops : th.ops = []) (hset : s.m.settled) {ld : Leaf} (hexc : pteExc ld.bits ≠ 0)
    (hd : s.m.Placeable tm th g (pteExc ld.bits) xd true ld) :
    ∃ s', (exec (.xfil d a g n) s = .next s' ∧ s'.m.thread? th.ref = some { th.onward s.m (Instr.xfil d a g n).size with
        ops := th.ops ++ [placedOp s.m.uid (if spaceOf (ld.pa xd) = 2 then some (ld.pa xd, xd) else none)] } ∧
        s.OthersWait s' th.ref ∧ s'.m.teams = s.m.teams) ∧ s.Puts s' (ld.pa xd) (leBytes (th.valAt a.toNat) (tagBytes g)) :=
  placed_one hl rfl hb hargs (p := { x := .fil, tag := g, n := 1, d := xd, srcs := [], value := th.valAt a.toNat })
    ⟨rfl, hd, fun _ h => absurd h List.not_mem_nil⟩ hw hops hset hexc (xs := []) (fun _ _ _ _ => rfl) rfl

end

theorem tagBytes_width (g : Tag) : g.width / 8 = tagBytes g := by cases g <;> rfl

/-- Settles O29. -/
theorem placedArithmetic : Obligations.PlacedArithmetic := by
  intro s tm th d a b n t xd xa xb ld la lb hl hd hn goes e counted here old alone
  have he : e = tagBytes t := tagBytes_width t
  clear_value e
  subst he
  have hplace : ∀ x w l, here s.m x w l → s.m.Placeable tm th t (pteExc ld.bits) x w l := by
    rintro x w l ⟨h1, h2, h3, h4, h5, h6⟩
    exact ⟨h1, h2, h3, h4, h5, h6⟩
  have hcount {k : Nat} (h : (th.reg n.toNat).bits = BitVec.ofNat 32 k) (hk : k < 2 ^ 32) : (th.reg n.toNat).bits.toNat = k := by
    rw [h, BitVec.toNat_ofNat, Nat.mod_eq_of_lt hk]
  refine ⟨?_, fun hb ha hf => ⟨fun h0 => ?_, fun h1 halone => ?_⟩⟩
  · have key : ∀ {i : Instr} {x : XOp}, exec i s = runWord (placedWord i (placedTwo x d a b t n)) s → staticBad s.m tm i = false →
        th.pairIs a xa → th.pairIs b xb →
        ((th.reg n.toNat).bits = 0 → ∃ s', goes i [] s' ∧ s.Keeps s') ∧
        ((th.reg n.toNat).bits = 1 → alone → here s.m xa false la → here s.m xb false lb →
          ∃ s', goes i counted s' ∧ s.Puts s' (ld.pa xd) (leBytes (xApply x t
            (leNat (s.m.mem.read (la.pa xa) (tagBytes t))) (leNat (s.m.mem.read (lb.pa xb) (tagBytes t))) old) (tagBytes t))) := by
      intro i x he hb ha hb'
      have hargs := placedTwo_of (x := x) (g := t) hd ha hb' hn
      refine ⟨fun h0 => placed_none hl he hb hargs (hcount h0 (by decide)), fun h1 ⟨hw, hops, hset, hexc, hdest⟩ hla hlb => ?_⟩
      rw [hcount h1 (by decide)] at hargs
      exact placed_two hl he hb hargs hw hops hset hexc (hplace _ _ _ hdest) (hplace _ _ _ hla) (hplace _ _ _ hlb)
    simp only [List.forall_mem_cons]
    exact ⟨key rfl, key rfl, key rfl, key rfl, key rfl, key rfl, fun _ h => absurd h List.not_mem_nil⟩
  · exact placed_none hl rfl hb (placedFil_of hd ha hf hn) (hcount h0 (by decide))
  · obtain ⟨hw, hops, hset, hexc, hdest⟩ := halone
    have hargs := placedFil_of hd ha hf hn
    rw [hcount h1 (by decide)] at hargs
    exact placed_fil hl hb hargs hw hops hset hexc (hplace _ _ _ hdest)

end Sys2Proof.Machine
end

section
/-! SUPPORT. Queries of pages (06 R121; 24 R380). -/

namespace Sys2Proof.Machine

/-- A result of XQRY on its way. -/
def Mach.queried (t : TRef) (d : Reg) (v : Nat) (m : Mach) : Mach :=
  ({ m with uid := m.uid + 1 } : Mach).addOp t { valueOp m.uid (valRegs .i64 v) (.regs d.toNat .i64 1) false with entry := false }

theorem Mach.resolve_global (m : Mach) (tm : Team) {x : Nat} (h : x < 2 ^ 57) (n : Nat) : m.resolve tm x n = .global x := by
  have hva : x % 2 ^ 57 = x := Nat.mod_eq_of_lt h
  have htop : x / 2 ^ 56 ≤ 1 := by omega
  simp only [Mach.resolve, htop, if_true, hva]

section
variable {s : State} {tm : Team} {th : Thread} {d a : Reg} {x : Nat}

theorem acts_of_query (hl : Lone s tm th) (hx : th.pairIs a x) (hb : staticBad s.m tm (.xqry d a) = false) {off : Nat}
    (ho : tm.own x 1 off) : Acts (.xqry d a) s (Mach.queried th.ref d (s.m.mapAddr (.scratch tm.uid off))) := by
  refine acts_of_lone (w := xqrySem d a) hl rfl rfl hb (f := Mach.queried th.ref d (s.m.mapAddr (.scratch tm.uid off))) ?_
  dsimp only [xqrySem, laneWord]
  rw [bundle_team? hl.issues (by simp [hl.bundle]), Thread.pairAt_of_pairIs hx]
  dsimp only
  rw [Mach.resolve_own _ ho]
  rfl

theorem acts_of_query_global (hl : Lone s tm th) (hx : th.pairIs a x) (hb : staticBad s.m tm (.xqry d a) = false) (hlt : x < 2 ^ 57)
    {l : Leaf} (hlook : s.m.lookup tm.core (s.m.subOf th.ref) tm.ctx x = some l) (hu : pteU l.bits = true) :
    Acts (.xqry d a) s (Mach.queried th.ref d (s.m.queryWord l x)) := by
  have hacts : Acts (.xqry d a) s fun m => Mach.queried th.ref d (m.query [tm.uid] tm th.ref x).2 (m.query [tm.uid] tm th.ref x).1 := by
    refine acts_of_lone (w := xqrySem d a) hl rfl rfl hb
      (f := fun m => Mach.queried th.ref d (m.query [tm.uid] tm th.ref x).2 (m.query [tm.uid] tm th.ref x).1) ?_
    dsimp only [xqrySem, laneWord]
    rw [bundle_team? hl.issues (by simp [hl.bundle]), Thread.pairAt_of_pairIs hx]
    dsimp only
    rw [Mach.resolve_global _ _ hlt, hl.real]
    rfl
  refine hacts.congr ?_
  set m0 := s.m.advance (refs s.m.bundle) (s.m.wordAddr (Instr.xqry d a).size) with hm0
  have hwalk : m0.walkNow [tm.uid] tm.core (m0.subOf th.ref) tm.ctx x false = (m0, some l) := by
    rw [Mach.walkNow, show m0.lookup tm.core (m0.subOf th.ref) tm.ctx x = some l from hlook]
  have hquery : m0.query [tm.uid] tm th.ref x = (m0, s.m.queryWord l x) := by
    rw [Mach.query, hwalk]
    dsimp only
    rw [hu, Bool.true_or, if_pos rfl]
    rfl
  rw [hquery]

end

/-- Settles O30. -/
theorem queries : Obligations.Queries := by
  intro s tm th d a x off l hl hx hb issued
  refine ⟨fun ho => ?_, fun hlt hlook hu => ?_⟩
  · have hteam : s.m.team? tm.uid = some tm := lone_team hl
    have haddr : s.m.mapAddr (.scratch tm.uid off) = 0xFF * 2 ^ 56 + tm.core * 2 ^ 49 + 2 ^ 46 + tm.slot * 2 ^ 22 + off := by
      simp only [Mach.mapAddr, hteam, Nat.one_mul]
    exact haddr ▸ acts_of_query hl hx hb ho
  · have hword : s.m.queryWord l x = l.bits.toNat / 2 ^ 56 * 2 ^ 56 + s.m.homeDie (l.pa x) * 2 ^ 54 +
        (if spaceOf (l.pa x) = 0 then s.m.stackOf (l.pa x) else 15) * 2 ^ 50 + sliceOf (l.pa x) * 2 ^ 45 +
        pteKey l.bits * 2 ^ 8 + l.bits.toNat % 2 ^ 8 := by
      simp only [Mach.queryWord, beq_iff_eq]
    exact hword ▸ acts_of_query_global hl hx hb hlt hlook hu

end Sys2Proof.Machine
end

section
/-! SUPPORT. Hurdles (09 R170, R171; 22 R332, R333). -/

namespace Sys2Proof.Machine

theorem leNat_leBytes (v n : Nat) : leNat (leBytes v n) = v % 256 ^ n := by
  induction n generalizing v with
  | zero => simp [leBytes, leNat, Nat.mod_one]
  | succ n ih =>
    have hb : (BitVec.ofNat 8 (v % 256)).toNat = v % 256 := by
      rw [BitVec.toNat_ofNat]; omega
    rw [leBytes, leNat, ih, hb, Nat.pow_succ', Nat.mod_mul]

/-! ### Writing a hurdle -/

/-- The bytes of a hurdle (09 R170). -/
def hurdleBytes (a g e p : Nat) : List Byte := leBytes (a + g * 2 ^ 16 + e * 2 ^ 32 + p * 2 ^ 64) 16

/-- A team that counts the hurdle at an offset if it is partly arrived. -/
def Team.counted (off : Nat) (t : Team) : Team :=
  { t with hurdles := if partly t.scratch off then off :: t.hurdles.filter (· != off) else t.hurdles.filter (· != off) }

/-- A team whose hurdle has been written. -/
def Team.hurdled (tm : Team) (off a g e p : Nat) : Team := (tm.scratched off (hurdleBytes a g e p)).counted off

theorem Team.counted_known (off : Nat) (t : Team) : (t.counted off).known = t.known := rfl

theorem Team.scratched_known (tm : Team) (off : Nat) (bs : List Byte) : (tm.scratched off bs).known = tm.known := rfl

theorem Team.hurdled_known (tm : Team) (off a g e p : Nat) : (tm.hurdled off a g e p).known = tm.known :=
  (Team.counted_known off _).trans (tm.scratched_known off _)

theorem hurdleOf_write {mem : Memory} (hw : mem.wf = true) (off : Nat) {a g e p : Nat} (ha : a < 2 ^ 16) (hg : g < 2 ^ 16) (he : e < 2048)
    (hp : p < 2 ^ 36) : hurdleOf (mem.write off (hurdleBytes a g e p)) off = (a, g, e, p) := by
  have hread : (mem.write off (hurdleBytes a g e p)).read off 16 = hurdleBytes a g e p := by
    have hlen : (hurdleBytes a g e p).length = 16 := leBytes_length _ _
    have := Memory.read_write off (hurdleBytes a g e p) hw
    rwa [hlen] at this
  unfold hurdleOf
  rw [hread, hurdleBytes, leNat_leBytes]
  dsimp only
  refine Prod.ext ?_ (Prod.ext ?_ (Prod.ext ?_ ?_)) <;> dsimp only <;> omega

section
variable {m : Mach} {tm : Team} {off a g e p : Nat}

/-- A scratchpad written and its hurdles counted. -/
theorem Mach.scratchCounted_amends (h : m.team? tm.uid = some tm) (off : Nat) (bs : List Byte) :
    m.Amends ((m.scratchWrite tm.uid off bs).updTeam tm.uid (Team.counted off)) tm.uid ((tm.scratched off bs).counted off) := by
  obtain ⟨hcur, hteam, hmem, hports, hthread⟩ := Mach.scratchWrite_amends h off bs
  set m' := m.scratchWrite tm.uid off bs with hm'
  clear_value m'
  refine ⟨hcur, ?_, hmem, hports, hthread⟩
  exact (Mach.team?_updTeam m' tm.uid (Team.counted off) fun _ => rfl).trans (congrArg (Option.map (Team.counted off)) hteam)

theorem Mach.hurdleWrite_amends (h : m.team? tm.uid = some tm) (off a g e p : Nat) :
    m.Amends (m.hurdleWrite tm.uid off a g e p) tm.uid (tm.hurdled off a g e p) :=
  Mach.scratchCounted_amends h off (hurdleBytes a g e p)

/-- What stands of a hurdle that has been written, and outside it. -/
theorem Team.hurdled_stands (hw : tm.scratch.wf = true) (ha : a < 2 ^ 16) (hg : g < 2 ^ 16) (he : e < 2048) (hp : p < 2 ^ 36) :
    hurdleOf (tm.hurdled off a g e p).scratch off = (a, g, e, p) ∧
      ∀ y, y < off ∨ off + 16 ≤ y → (tm.hurdled off a g e p).scratch.get y = tm.scratch.get y := by
  have hscr : (tm.hurdled off a g e p).scratch = tm.scratch.write off (hurdleBytes a g e p) := rfl
  rw [hscr]
  refine ⟨hurdleOf_write hw off ha hg he hp, fun y hy => ?_⟩
  have hlen : (hurdleBytes a g e p).length = 16 := leBytes_length _ _
  exact (Memory.get_write off y _ hw).trans (if_neg (by rw [hlen]; omega))

end

/-! ### Words of a lone lane that amend its team -/

section
variable {s : State} {tm : Team} {th : Thread}

/-- A lone lane's word amends its team and leaves the lane's thread. -/
theorem lone_amends (hl : Lone s tm th) {i : Instr} {effect : Mach → Mach} (h : Acts i s effect) {m1 m2 : Mach}
    (heff : effect (s.m.advance (refs s.m.bundle) (s.m.wordAddr i.size)) = m2) {z : Thread} (hz : m1.thread? th.ref = some z)
    (hready : z.wait = .ready) (hoth : ∀ r, r ≠ th.ref → m1.thread? r = s.m.thread? r) (hmem : m1.mem = s.m.mem)
    (hcur : m1.cur = s.m.cur) (hports : m1.traceAt = s.m.traceAt) {tm' : Team} (ha : m1.Amends m2 tm.uid tm') (hq : tm'.known = []) :
    ∃ s', exec i s = .next s' ∧ s'.m.thread? th.ref = some z ∧ s.OthersWait s' th.ref ∧ s'.m.team? tm.uid = some tm' ∧ s.Keeps s' := by
  obtain ⟨hcur', hteam, hmem', hports', hwakes⟩ := ha
  obtain ⟨s', he, hs⟩ := h.leaves heff (tm := tm') (by
      rw [hcur', hcur]
      exact (congrArg m2.team? (lone_cur hl).symm).trans hteam) hq (hports'.trans hports) (fun hw => by rw [hmem', hmem]; exact hw)
  refine ⟨s', he, ?_, othersWait_of fun r y hr hy => ?_, ?_, fun x hx => (hs.mem x hx).trans (by rw [hmem', hmem])⟩
  · obtain ⟨z', hz', -, hsame⟩ := hwakes th.ref z hz
    rw [hs.thread?, hz', hsame hready]
  · obtain ⟨z', hz', hrest, -⟩ := hwakes r y ((hoth r hr).trans hy)
    exact ⟨z', (hs.thread? r).trans hz', hrest⟩
  · rw [Mach.team?, hs.teams]
    exact hteam

/-! ### The words -/

variable {a b d : Reg} {x off v : Nat}

theorem Mach.hurdleAt_own {m : Mach} (ho : tm.own x 16 off) (d : Dst) (alt : Option (Mach → Mach)) :
    m.hurdleAt tm x d alt = .ok (tm.uid, off) := by
  obtain ⟨hx, hal, hoff, -⟩ := id ho
  have htop : (x / 2 ^ 56 == 0xFC || x / 2 ^ 56 == 0xFE) = true := by
    rw [show x / 2 ^ 56 = 0xFC by omega]
    rfl
  rw [Mach.hurdleAt, if_neg (by simp [hal]), htop, if_pos rfl, m.resolve_own ho]

theorem hurdle_set (hl : Lone s tm th) (hb : staticBad s.m tm (.hrdi d a b) = false) (hx : th.pairIs a x) (ho : tm.own x 16 off)
    (hv : th.tagAt b.toNat = .i32) (hbits : (th.reg b.toNat).bits.toNat = v) {p : Nat} (hp : th.pairIs d p) (h1 : 1 ≤ v) (h2 : v ≤ 1024) :
    ∃ s', exec (.hrdi d a b) s = .next s' ∧ s'.m.thread? th.ref = some (th.onward s.m 1) ∧ s.OthersWait s' th.ref ∧
      s'.m.team? tm.uid = some (tm.hurdled off 0 (((hurdleOf tm.scratch off).2.1 + 1) % 2 ^ 16) v (p % 2 ^ 36)) ∧ s.Keeps s' := by
  have hacts : Acts (.hrdi d a b) s fun m => m.hurdleInit tm.uid off v (p % 2 ^ 36) := by
    refine acts_of_lone (w := hrdiSem d a b) hl rfl rfl hb (f := fun m => m.hurdleInit tm.uid off v (p % 2 ^ 36)) ?_
    have hgood : (v == 0 || decide (1024 < v)) = false := by simp; omega
    unfold hrdiSem laneWord
    dsimp only
    rw [bundle_team? hl.issues (by simp [hl.bundle]), Thread.pairAt_of_pairIs hx, Thread.i32At_of_tag hv, Thread.pairAt_of_pairIs hp, hbits]
    dsimp only
    rw [Mach.hurdleAt_own ho]
    dsimp only
    rw [hgood, if_neg Bool.false_ne_true]
  set m0 := s.m.advance (refs s.m.bundle) (s.m.wordAddr (Instr.hrdi d a b).size) with hm0
  have hteam : m0.team? tm.uid = some tm := lone_team hl
  have hwrite := Mach.hurdleWrite_amends hteam off 0 (((hurdleOf tm.scratch off).2.1 + 1) % 2 ^ 16) v (p % 2 ^ 36)
  have hinit : m0.hurdleInit tm.uid off v (p % 2 ^ 36) =
      m0.hurdleWrite tm.uid off 0 (((hurdleOf tm.scratch off).2.1 + 1) % 2 ^ 16) v (p % 2 ^ 36) := by
    rw [Mach.hurdleInit, hteam]
  exact lone_amends hl hacts hinit (thread?_lone hl 1) (lone_ready hl 1)
    (fun r hr => thread?_lone_other hl hr 1) rfl rfl rfl hwrite ((Team.hurdled_known ..).trans hl.issues.quiet)

/-- The fields of a hurdle after an arrival (09 R171). -/
def arrived (f : Nat × Nat × Nat × Nat) (n : Nat) : Nat × Nat × Nat × Nat :=
  let a := min (f.1 + 1) 0xFFFF
  let p := (f.2.2.2 + n) % 2 ^ 36
  if a = f.2.2.1 ∧ p = 0 then (0, (f.2.1 + 1) % 2 ^ 16, f.2.2.1, 0) else (a, f.2.1, f.2.2.1, p)

theorem Mach.hurdleCheck_arrived (m : Mach) (u off : Nat) (f : Nat × Nat × Nat × Nat) (n : Nat) :
    m.hurdleCheck u off (min (f.1 + 1) 0xFFFF) f.2.1 f.2.2.1 ((f.2.2.2 + n) % 2 ^ 36) =
      m.hurdleWrite u off (arrived f n).1 (arrived f n).2.1 (arrived f n).2.2.1 (arrived f n).2.2.2 := by
  unfold Mach.hurdleCheck arrived
  simp only [Bool.and_eq_true, beq_iff_eq]
  split <;> rfl

theorem Mach.hurdleArrive_real {m : Mach} {u : Nat} {tm : Team} (h : m.team? u = some tm) (t : TRef) (d off n : Nat)
    {f : Nat × Nat × Nat × Nat} (hf : arrived (hurdleOf tm.scratch off) n = f) :
    m.hurdleArrive t false d u off n =
      (m.updThread t (Thread.setRegs · d (valRegs .i32 (hurdleOf tm.scratch off).2.1))).hurdleWrite u off f.1 f.2.1 f.2.2.1 f.2.2.2 := by
  subst hf
  rw [← Mach.hurdleCheck_arrived]
  unfold Mach.hurdleArrive
  rw [h]
  dsimp only
  rw [if_neg Bool.false_ne_true]

theorem hurdle_arrive (hl : Lone s tm th) (hb : staticBad s.m tm (.hrda d a b) = false) (hx : th.pairIs a x) (ho : tm.own x 16 off)
    (hv : th.tagAt b.toNat = .i32) (hbits : (th.reg b.toNat).bits.toNat = v) {f : Nat × Nat × Nat × Nat}
    (hf : arrived (hurdleOf tm.scratch off) v = f) :
    ∃ s', exec (.hrda d a b) s = .next s' ∧ s'.m.thread? th.ref = some (th.put s.m 1 d.toNat .i32 (hurdleOf tm.scratch off).2.1) ∧
      s.OthersWait s' th.ref ∧ s'.m.team? tm.uid = some (tm.hurdled off f.1 f.2.1 f.2.2.1 f.2.2.2) ∧ s.Keeps s' := by
  have hacts : Acts (.hrda d a b) s fun m => m.hurdleArrive th.ref false d.toNat tm.uid off v := by
    refine acts_of_lone (w := hrdaSem d a b) hl rfl rfl hb (f := fun m => m.hurdleArrive th.ref false d.toNat tm.uid off v) ?_
    dsimp only [hrdaSem, laneWord]
    rw [bundle_team? hl.issues (by simp [hl.bundle]), Thread.pairAt_of_pairIs hx, Thread.i32At_of_tag hv, hbits]
    dsimp only
    rw [Mach.hurdleAt_own ho, hl.real]
  set m0 := s.m.advance (refs s.m.bundle) (s.m.wordAddr (Instr.hrda d a b).size) with hm0
  have hteam : m0.team? tm.uid = some tm := lone_team hl
  set gen := (hurdleOf tm.scratch off).2.1 with hgen
  set m1 := m0.updThread th.ref (Thread.setRegs · d.toNat (valRegs .i32 gen)) with hm1
  have hwrite := Mach.hurdleWrite_amends (m := m1) hteam off f.1 f.2.1 f.2.2.1 f.2.2.2
  have harrive := Mach.hurdleArrive_real hteam th.ref d.toNat off v hf
  refine lone_amends hl hacts (m1 := m1) harrive (z := (th.onward s.m 1).setRegs d.toNat (valRegs .i32 gen)) ?_ (lone_ready hl 1) (fun r hr => ?_)
    rfl rfl rfl hwrite ((Team.hurdled_known ..).trans hl.issues.quiet)
  · exact Mach.thread?_updThread_same (f := (Thread.setRegs · d.toNat (valRegs .i32 gen))) (thread?_lone hl 1) fun _ => rfl
  · exact ((Mach.thread?_updThread m0 th.ref r (Thread.setRegs · d.toNat (valRegs .i32 gen)) fun _ => rfl).trans (if_neg hr)).trans
      (thread?_lone_other hl hr 1)

/-- A lane that HRDW keeps waiting for a generation of its own scratchpad's hurdle. -/
def Thread.awaits (gen u off g : Nat) (x : Thread) : Thread :=
  if gen != g then x else { x with wait := .hrdw u off g false }

theorem hurdle_wait (hl : Lone s tm th) (hb : staticBad s.m tm (.hrdw a b) = false) (hx : th.pairIs a x) (ho : tm.own x 16 off)
    (hv : th.tagAt b.toNat = .i32) (hbits : (th.reg b.toNat).bits.toNat = v) :
    Becomes (.hrdw a b) s fun y => (y.onward s.m 1).awaits (hurdleOf tm.scratch off).2.1 tm.uid off (v % 2 ^ 16) := by
  have hforeign : (tm.uid != th.ref.team) = false := by rw [lone_uid hl, bne_self_eq_false]
  have hacts : Acts (.hrdw a b) s fun m => if m.genAt tm.uid off != v % 2 ^ 16 then m
      else m.updThread th.ref fun y => { y with wait := .hrdw tm.uid off (v % 2 ^ 16) false } := by
    refine acts_of_lone (w := hrdwSem a b) hl rfl rfl hb (f := fun m => if m.genAt tm.uid off != v % 2 ^ 16 then m
      else m.updThread th.ref fun y => { y with wait := .hrdw tm.uid off (v % 2 ^ 16) false }) ?_
    unfold hrdwSem ctlWord
    dsimp only
    rw [bundle_team? hl.issues (by simp [hl.bundle]), Thread.pairAt_of_pairIs hx, Thread.i32At_of_tag hv, hbits]
    dsimp only
    rw [Mach.hurdleAt_own ho]
    dsimp only
    rw [hforeign]
  refine becomes_of_acts hl.issues hacts (g := fun _ => Thread.awaits (hurdleOf tm.scratch off).2.1 tm.uid off (v % 2 ^ 16))
    (fun _ y => by unfold Thread.awaits; split <;> rfl) ?_
  set m0 := s.m.advance (refs s.m.bundle) (s.m.wordAddr (Instr.hrdw a b).size) with hm0
  have hgen : m0.genAt tm.uid off = (hurdleOf tm.scratch off).2.1 := by
    rw [Mach.genAt, show m0.team? tm.uid = some tm from lone_team hl]
  rw [hl.bundle, hgen, List.foldl_cons, List.foldl_nil]
  split
  next h =>
    rw [show Thread.awaits (hurdleOf tm.scratch off).2.1 tm.uid off (v % 2 ^ 16) = fun x => x from funext fun x => if_pos h]
    exact (updThread_same m0 th.ref).symm
  next h =>
    rw [show Thread.awaits (hurdleOf tm.scratch off).2.1 tm.uid off (v % 2 ^ 16) = fun x => { x with wait := .hrdw tm.uid off (v % 2 ^ 16) false }
      from funext fun x => if_neg h]

end

theorem hurdleOf_lt (mem : Memory) (off : Nat) : (hurdleOf mem off).1 < 2 ^ 16 ∧ (hurdleOf mem off).2.1 < 2 ^ 16 ∧
    (hurdleOf mem off).2.2.1 < 2048 ∧ (hurdleOf mem off).2.2.2 < 2 ^ 36 :=
  ⟨Nat.mod_lt _ (by decide), Nat.mod_lt _ (by decide), Nat.mod_lt _ (by decide), Nat.mod_lt _ (by decide)⟩

/-- Settles O32. -/
theorem hurdles : Obligations.Hurdles := by
  intro s tm th d a b x off v p hl hx ho hv hbits hw
  obtain ⟨harr, hgen, hexp, hpend⟩ := hurdleOf_lt tm.scratch off
  generalize hf : hurdleOf tm.scratch off = f at harr hgen hexp hpend
  obtain ⟨arr, gen, exp, pend⟩ := f
  dsimp only at harr hgen hexp hpend ⊢
  refine ⟨fun hb hp h1 h2 => ?_, fun hb => ?_, fun hb => ?_⟩
  · obtain ⟨s', he, hth, hothers, hteam, hk⟩ := hurdle_set hl hb hx ho hv hbits hp h1 h2
    rw [hf] at hteam
    obtain ⟨hread, hrest⟩ := Team.hurdled_stands (off := off) hw (a := 0) (by decide) (Nat.mod_lt (gen + 1) (by decide))
      (e := v) (by omega) (Nat.mod_lt p (by decide))
    exact ⟨s', he, hth, hk, hothers, _, hteam, hread, hrest⟩
  · obtain ⟨s', he, hth, hothers, hteam, hk⟩ := hurdle_arrive hl hb hx ho hv hbits rfl
    rw [hf] at hth hteam
    refine ⟨s', he, hth, ?_⟩
    by_cases hdone : min (arr + 1) 0xFFFF = exp ∧ (pend + v) % 2 ^ 36 = 0
    · rw [if_pos hdone]
      rw [show arrived (arr, gen, exp, pend) v = (0, (gen + 1) % 2 ^ 16, exp, 0) from if_pos hdone] at hteam
      obtain ⟨hread, hrest⟩ := Team.hurdled_stands (off := off) hw (a := 0) (by decide) (Nat.mod_lt (gen + 1) (by decide)) hexp
        (p := 0) (by decide)
      exact ⟨hk, hothers, _, hteam, hread, hrest⟩
    · rw [if_neg hdone]
      rw [show arrived (arr, gen, exp, pend) v = (min (arr + 1) 0xFFFF, gen, exp, (pend + v) % 2 ^ 36) from if_neg hdone] at hteam
      obtain ⟨hread, hrest⟩ := Team.hurdled_stands (off := off) hw (a := min (arr + 1) 0xFFFF) (by omega) hgen hexp
        (Nat.mod_lt (pend + v) (by decide))
      exact ⟨hk, hothers, _, hteam, hread, hrest⟩
  · refine (hurdle_wait hl hb hx ho hv hbits).congr fun y _ => ?_
    rw [hf, Thread.awaits]
    simp only [bne_iff_ne]

end Sys2Proof.Machine
end

section
/-! SUPPORT. Watches that end at once, and those that sleep on a scratchpad word (09 R165, R166; 24 R373). -/

namespace Sys2Proof.Machine

section
variable {s : State} {tm : Team} {th : Thread} {k : KIx} {a b : Reg} {f : Cond} {u : Option (BitVec 25)} {x : Nat}

/-- The watch of a WAITA in a lane, at a place. -/
def watchOf (k : KIx) (b : Reg) (f : Cond) (u : Option (BitVec 25)) (clk : Nat) (th : Thread) (p : Watch) : WaitA where
  k := k
  watch := p
  width := tagBytes (th.tagAt b.toNat)
  cond := f
  value := BitVec.ofNat 64 (th.valAt b.toNat)
  deadline := match u with | some u => if u == 0 then none else some (clk + 1024 * u.toNat) | none => none
  foreign := false
  record := false
  woken := none

theorem watchOf_deadline (k : KIx) (b : Reg) (f : Cond) (u : Option (BitVec 25)) (clk : Nat) (th : Thread) (p : Watch) :
    (watchOf k b f u clk th p).deadline =
      u.bind fun t => if t = 0 then none else some (clk + 1024 * t.toNat) := by
  cases u with
  | none => rfl
  | some t => simp only [watchOf, Option.bind_some, beq_iff_eq]

theorem Thread.valAt_i32_lt {t : Thread} {r : Nat} (h : t.tagAt r = .i32) : t.valAt r < 2 ^ 64 := by
  rw [Thread.valAt, h]
  have h0 := (t.reg (r + 0)).bits.isLt
  show joinW 32 [(t.reg (r + 0)).bits.toNat] < _
  simp only [joinW]
  omega

/-- The comparand of a watch, of 32 or 64 bits. -/
theorem watchOf_holds (hg : th.tagAt b.toNat ∈ [Tag.i32, .i64]) (clk : Nat) (p : Watch) (v : Nat) :
    holds (watchOf k b f u clk th p) v = iCmp f (8 * tagBytes (th.tagAt b.toNat)) v (th.valAt b.toNat) := by
  have hlt : th.valAt b.toNat < 2 ^ 64 := by
    rcases List.mem_cons.1 hg with h | h
    · exact Thread.valAt_i32_lt h
    · exact Thread.valAt_i64_lt (List.mem_singleton.1 h)
  have hv : (BitVec.ofNat 64 (th.valAt b.toNat)).toNat = th.valAt b.toNat := by
    rw [BitVec.toNat_ofNat, Nat.mod_eq_of_lt hlt]
  simp only [holds, watchOf, hv]

theorem Mach.checkGlobal_reaches {m : Mach} {t : Thread} {n : Nat} {l : Leaf} (h : m.Reaches tm t x n false l) (kind : Nat)
    (alt : Option (Mach → Mach)) : m.checkGlobal tm t kind false x alt = .ok l := by
  have hva : x % 2 ^ 57 = x := Nat.mod_eq_of_lt h.global
  simp only [Mach.checkGlobal, hva, h.page, h.allowed, Bool.not_true, Bool.false_and, Bool.false_eq_true, if_false]

/-- WAITA of a word of the own scratchpad or of a line that the lane reaches. -/
theorem acts_of_watch (hl : Lone s tm th) (hx : th.pairIs a x) (hb : staticBad s.m tm (.waita k a b f u) = false)
    (hg : th.tagAt b.toNat ∈ [Tag.i32, .i64]) (hform : th.formed b.toNat = true) (hal : th.tagAt b.toNat = .i64 → b.toNat % 2 = 0)
    {p : Watch} (hp : (∃ off, tm.own x (tagBytes (th.tagAt b.toNat)) off ∧ p = .scratch tm.uid off) ∨
      ∃ l, s.m.Reaches tm th x (tagBytes (th.tagAt b.toNat)) false l ∧ p = .line (l.pa x) x) :
    Acts (.waita k a b f u) s fun m => m.watch th.ref (watchOf k b f u s.m.clk th p) := by
  refine acts_of_lone (w := waitaSem k a b f u) hl rfl rfl hb (f := fun m => m.watch th.ref (watchOf k b f u s.m.clk th p)) ?_
  have hpair : (th.tagAt b.toNat == .i64 && b.toNat % 2 != 0) = false := by
    by_cases h : th.tagAt b.toNat = .i64
    · simp [hal h]
    · simp [h]
  have htag : ((th.tagAt b.toNat == .i32 || th.tagAt b.toNat == .i64) && th.formed b.toNat) = true := by
    rw [hform]
    simpa using hg
  have hxal : (x % tagBytes (th.tagAt b.toNat) != 0) = false := by
    rcases hp with ⟨off, ho, -⟩ | ⟨l, hr, -⟩
    · simp [ho.2.1]
    · simp [hr.aligned]
  show waitaLane k a b f u s.m th = _
  unfold waitaLane
  dsimp only
  rw [hpair, if_neg Bool.false_ne_true, bundle_team? hl.issues (by simp [hl.bundle]), Thread.pairAt_of_pairIs hx, htag]
  dsimp only
  rw [hxal, if_neg Bool.false_ne_true]
  rcases hp with ⟨off, ho, rfl⟩ | ⟨l, hr, rfl⟩
  · have htop : (x / 2 ^ 56 == 0xFF) = false := by
      obtain ⟨hx, -, hoff, -⟩ := ho
      exact beq_eq_false_iff_ne.2 (by omega)
    have hforeign : (tm.uid != th.ref.team) = false := by rw [lone_uid hl, bne_self_eq_false]
    rw [Mach.resolve_own _ ho]
    dsimp only
    rw [htop, if_neg Bool.false_ne_true, hforeign]
    rfl
  · rw [Mach.resolve_global _ _ hr.global]
    dsimp only
    rw [Mach.checkGlobal_reaches hr]
    rfl

/-- A lane whose watch ends as its word issues. -/
def Thread.watched (k : KIx) (x : Thread) : Thread :=
  { (x.setPred k true) with wait := match x.wait with | .waita _ => .woken | _ => .ready }

theorem Thread.watched_ready {y : Thread} (h : y.wait = .ready) (k : KIx) : y.watched k = y.setPred k true := by
  have hw : (y.setPred k true).wait = .ready := by
    rw [← h]
    unfold Thread.setPred
    split <;> rfl
  unfold Thread.watched
  rw [h]
  dsimp only
  rw [← hw]

/-- A watch whose value is `v` and that finds a record. -/
theorem Mach.watch_of {m : Mach} {t : TRef} {w : WaitA} {v : Nat} (hv : m.watched w = (m, some v)) (hr : holds w v = false → m.recordFree t w = (m, true)) :
    m.watch t w = if holds w v then m.updThread t (Thread.watched w.k) else m.updThread t fun x => { x with wait := .waita { w with record := true } } := by
  unfold Mach.watch
  rw [hv]
  dsimp only
  cases hh : holds w v with
  | true =>
    rw [if_pos rfl, if_pos rfl]
    unfold Mach.endWatch
    cases w.watch <;> rfl
  | false => rw [if_neg Bool.false_ne_true, if_neg Bool.false_ne_true, hr hh]

theorem becomes_of_watch (hl : Lone s tm th) {w : WaitA} (h : Acts (.waita k a b f u) s fun m => m.watch th.ref w) {v : Nat}
    (hv : (s.m.advance (refs s.m.bundle) (s.m.wordAddr (Instr.waita k a b f u).size)).watched w =
      (s.m.advance (refs s.m.bundle) (s.m.wordAddr (Instr.waita k a b f u).size), some v))
    (hr : holds w v = false → ∀ m : Mach, m.recordFree th.ref w = (m, true)) :
    Becomes (.waita k a b f u) s fun y => if holds w v then (y.onward s.m (Instr.waita k a b f u).size).setPred w.k true
      else { y.onward s.m (Instr.waita k a b f u).size with wait := .waita { w with record := true } } := by
  set m0 := s.m.advance (refs s.m.bundle) (s.m.wordAddr (Instr.waita k a b f u).size) with hm0
  refine (becomes_of_acts hl.issues h (g := fun _ y => if holds w v then y.watched w.k else { y with wait := .waita { w with record := true } })
    (fun _ y => ?_) ?_).congr fun y hy => ?_
  · cases holds w v
    · rfl
    · exact Thread.setPred_ref y w.k true
  · rw [← hm0, Mach.watch_of hv fun h => hr h m0, hl.bundle, List.foldl_cons, List.foldl_nil]
    cases holds w v <;> rfl
  · dsimp only
    rw [Thread.watched_ready (y := y.onward s.m (Instr.waita k a b f u).size) (hl.issues.ready y hy)]

end

/-- Settles O33. -/
theorem watches : Obligations.Watches := by
  intro s tm th k a b f u x off l hl hx hb hg hform hal n size
  have hsize : (Instr.waita k a b f u).size = size := by cases u <;> rfl
  refine ⟨fun ho => ?_, fun hr hh hholds => ?_⟩
  · set w := watchOf k b f u s.m.clk th (.scratch tm.uid off) with hw
    have h := becomes_of_watch hl (acts_of_watch hl hx hb hg hform hal (.inl ⟨off, ho, rfl⟩))
      (v := leNat (tm.scratch.read off n)) ?_ fun _ _ => rfl
    · refine h.congr fun y _ => ?_
      rw [hsize, watchOf_holds hg, ← watchOf_deadline k b f u s.m.clk th (.scratch tm.uid off)]
      rfl
    · have hteam : (s.m.advance (refs s.m.bundle) (s.m.wordAddr (Instr.waita k a b f u).size)).team? tm.uid = some tm := lone_team hl
      unfold Mach.watched watchOf
      dsimp only
      rw [hteam]
      rfl
  · have hv : holds (watchOf k b f u s.m.clk th (.line (l.pa x) x)) (leNat (s.m.mem.read (l.pa x) n)) = true := by
      rw [watchOf_holds hg]
      exact hholds
    have h := becomes_of_watch hl (acts_of_watch hl hx hb hg hform hal (.inr ⟨l, hr, rfl⟩))
      (v := leNat (s.m.mem.read (l.pa x) n)) ?_ fun hn => absurd hn (by rw [hv]; decide)
    · refine h.congr fun y _ => ?_
      rw [hsize, if_pos hv]
      rfl
    · have hread := Mach.cohRead_home (m := s.m.advance (refs s.m.bundle) (s.m.wordAddr (Instr.waita k a b f u).size)) n hh
        (l.pa_fits hr.aligned)
      unfold Mach.watched watchOf
      dsimp only
      exact (congrArg (fun r : Mach × Option (List Byte) => match r with
        | (m, some bs) => (m, some (leNat bs))
        | (m, none) => (m, none)) hread).trans rfl

end Sys2Proof.Machine
end

section
/-! SUPPORT. DQRY in a team whose save has put a command back in front of its queue: the state that refutes O34 (11 R181; 16 R251). -/

namespace Sys2Proof.Machine

/-- An accepted command that a save has put back. -/
def putBack : Cmd := {
  id := 0, team := 1, owner := { team := 1, tidx := 0 }, inst := 0, seq := 0, entries := [], next := 0, landed := 0, done := false
  status := 0, badAddr := 0, pieces := [], parked := none, lat := .near, pages := [] }

def queryTeam : Team := { callTeam with returned := [putBack] }

/-- The state of `callState`, with the command put back. -/
def queryState : State := { callState with m := { callState.m with teams := [queryTeam] } }

theorem queryState_bundle : queryState.m.bundle = [callLane] := rfl

theorem queryState_issues : Issues queryState queryTeam where
  team := rfl
  lanes := callState_issues.lanes
  named := callState_issues.named
  apart := callState_issues.apart
  whole := callState_issues.whole
  ready := callState_issues.ready
  narrow := callState_issues.narrow
  quiet := rfl

/-- The value that DQRY leaves in r0 of the lane. -/
def queryAfter (s : State) : Option Nat :=
  match exec (.dqry 0) s with
  | .next t => (t.m.thread? callLane.ref).map fun x => (x.reg 0).bits.toNat
  | _ => none

/-- The command that was put back is one that has not ended. -/
theorem queryAfter_queryState : queryAfter queryState = some (1 * 2 ^ 9 + 256) := by decide

/-- Refutes O34: a command that a save has put back in front of the team's queue counts as well in DQRY's value. -/
theorem not_droverWords : ¬ Obligations.DroverWords := by
  intro hall
  obtain ⟨t, he, -, hlane⟩ := (hall queryState queryTeam).2 0 queryState_issues (by decide)
  have hx := hlane callLane (by simp [queryState_bundle])
  have hvalue := queryAfter_queryState
  simp only [queryAfter, he, hx] at hvalue
  exact absurd hvalue (by decide)

end Sys2Proof.Machine
end

section
/-! SUPPORT. Scope entries and invalidations of translations (06 R114; 07 R126; 22 R337; 23 R358). -/

namespace Sys2Proof.Machine

/-! ### What the tables give does not depend on threads -/

/-- The machine with other threads. -/
def Mach.rethreaded (m : Mach) (ts : List Thread) : Mach := { m with threads := ts }

/-- Machines that are equal but for their threads. -/
def Mach.Twin (m m' : Mach) : Prop := ∃ ts, m' = m.rethreaded ts

section
variable {m m' : Mach}

theorem Mach.Twin.trans {m'' : Mach} (h : m.Twin m') (h' : m'.Twin m'') : m.Twin m'' := by
  obtain ⟨ts, rfl⟩ := h
  obtain ⟨ts', rfl⟩ := h'
  exact ⟨ts', rfl⟩

theorem Mach.Twin.noteLine (h : m.Twin m') (pa n : Nat) : (m.noteLine pa n).Twin (m'.noteLine pa n) := by
  obtain ⟨ts, rfl⟩ := h
  exact ⟨_, rfl⟩

theorem Mach.Twin.leaveTrail (h : m.Twin m') (bs : List (Nat × Nat × Nat × Nat)) : (m.leaveTrail bs).Twin (m'.leaveTrail bs) := by
  obtain ⟨ts, rfl⟩ := h
  refine ⟨ts, ?_⟩
  unfold Mach.leaveTrail Mach.rethreaded
  dsimp only
  split <;> rfl

theorem Mach.Twin.setMeta (h : m.Twin m') (a : Nat) (v : BitVec 16) : (m.setMeta a v).Twin (m'.setMeta a v) := by
  obtain ⟨ts, rfl⟩ := h
  exact ⟨ts, rfl⟩

theorem Mach.Twin.recallCore (h : m.Twin m') (line own : Nat) : (m.recallCore line own).Twin (m'.recallCore line own) := by
  obtain ⟨ts, rfl⟩ := h
  have htrail := Mach.Twin.leaveTrail (m := m) ⟨ts, rfl⟩ ((m.versions.filter fun b => b.atomic && (b.core == own && lineOf b.pa == line)).map
    fun b => (b.pa, 1, b.core, b.vis))
  obtain ⟨ts', hts⟩ := htrail
  refine ⟨ts', ?_⟩
  unfold Mach.recallCore
  dsimp only
  rw [show (m.rethreaded ts).versions = m.versions from rfl, hts]
  rfl

theorem Mach.Twin.recallAgent (h : m.Twin m') (line own : Nat) : (m.recallAgent line own).Twin (m'.recallAgent line own) := by
  obtain ⟨ts, rfl⟩ := h
  refine ⟨ts, ?_⟩
  unfold Mach.recallAgent Mach.rethreaded
  dsimp only
  split <;> rfl

/-- A line that an agent gives up. -/
theorem Mach.Twin.copies (h : m.Twin m') (f : List L1Line → List L1Line) : ({ m with l1 := f m.l1 } : Mach).Twin { m' with l1 := f m'.l1 } := by
  obtain ⟨ts, rfl⟩ := h
  exact ⟨ts, rfl⟩

theorem Mach.Twin.recall (h : m.Twin m') (line : Nat) : (m.recall line).Twin (m'.recall line) := by
  have hown : m'.ownerOf? line = m.ownerOf? line := by
    obtain ⟨ts, rfl⟩ := h
    rfl
  have hmeta : m'.meta line = m.meta line := by
    obtain ⟨ts, rfl⟩ := h
    rfl
  unfold Mach.recall
  rw [hown, hmeta]
  cases m.ownerOf? line with
  | none => exact h
  | some own =>
    dsimp only
    refine ((Mach.Twin.copies (f := List.map fun c => if c.line == line && c.core == own then { c with owned := false } else c)
      ?_).setMeta _ _).noteLine _ _
    split
    · exact h.recallCore line own
    · exact h.recallAgent line own

theorem Mach.Twin.combine (h : m.Twin m') (line : Nat) : (m.combine line).Twin (m'.combine line) := by
  obtain ⟨ts, rfl⟩ := h
  unfold Mach.combine
  dsimp only
  rw [show (m.rethreaded ts).meta line = m.meta line from rfl]
  split
  · refine Mach.Twin.noteLine (Mach.Twin.setMeta ?_ _ _) _ _
    obtain ⟨ts', hts⟩ := Mach.Twin.leaveTrail (m := m) ⟨ts, rfl⟩ ((((((m.partials.filter fun p => p.line == line).foldl
      (fun acc p => insPartial p acc) []).filter fun p => p.module.isNone)).map
        fun p => p.elems.map fun e => (line + e.1, e.2.2.1.width / 8, p.core, m.uid)).flatten)
    refine ⟨ts', ?_⟩
    rw [show (m.rethreaded ts).partials = m.partials from rfl, show (m.rethreaded ts).uid = m.uid from rfl, hts]
    rfl
  · exact ⟨ts, rfl⟩

theorem Mach.Twin.readPte (h : m.Twin m') (pa : Nat) : (m.readPte pa).1.Twin (m'.readPte pa).1 ∧ (m'.readPte pa).2 = (m.readPte pa).2 := by
  have hprep := (h.recall (lineOf pa)).combine (lineOf pa)
  refine ⟨hprep, ?_⟩
  obtain ⟨ts, hts⟩ := hprep
  show ((if (m'.cohPrep (lineOf pa)).poisoned pa then none else some ((m'.cohPrep (lineOf pa)).homeRead pa 8)).map
    fun b => BitVec.ofNat 64 (leNat b)) = _
  rw [show m'.cohPrep (lineOf pa) = (m.cohPrep (lineOf pa)).rethreaded ts from hts]
  rfl

theorem Mach.Twin.putTable (h : m.Twin m') (w : WalkEnt) : (m.putTable w).Twin (m'.putTable w) := by
  obtain ⟨ts, rfl⟩ := h
  refine ⟨ts, ?_⟩
  unfold Mach.putTable Mach.rethreaded
  dsimp only
  split <;> rfl

theorem Mach.Twin.walkFrom (h : m.Twin m') (die ctx va n table : Nat) :
    (m.walkFrom die ctx va n table).1.Twin (m'.walkFrom die ctx va n table).1 ∧
      (m'.walkFrom die ctx va n table).2 = (m.walkFrom die ctx va n table).2 := by
  induction n generalizing m m' table with
  | zero => exact ⟨h, rfl⟩
  | succ n ih =>
    have hcache : m'.walkCache = m.walkCache := by
      obtain ⟨ts, rfl⟩ := h
      rfl
    obtain ⟨hpte, hbits⟩ := h.readPte (table + 8 * (va / 2 ^ (12 + 9 * n) % 512))
    unfold Mach.walkFrom
    dsimp only
    rw [hcache]
    split
    · exact ih h _
    · generalize m.readPte (table + 8 * (va / 2 ^ (12 + 9 * n) % 512)) = r at hpte hbits ⊢
      generalize m'.readPte (table + 8 * (va / 2 ^ (12 + 9 * n) % 512)) = r' at hpte hbits ⊢
      obtain ⟨p, b⟩ := r
      obtain ⟨p', b'⟩ := r'
      dsimp only at hpte hbits ⊢
      subst hbits
      cases b' with
      | none => exact ⟨hpte, rfl⟩
      | some b =>
        have hleaf : p'.leafOk n b = p.leafOk n b := by
          obtain ⟨ts, rfl⟩ := hpte
          rfl
        dsimp only
        rw [hleaf]
        split
        · exact ⟨hpte, rfl⟩
        · split
          · split
            · exact ⟨hpte, rfl⟩
            · exact ih (hpte.putTable _) _
          · split <;> exact ⟨hpte, rfl⟩

/-- The leaf that the tables give an address. -/
theorem Mach.Twin.tableLeaf (h : m.Twin m') (ctx va : Nat) : m'.tableLeaf ctx va = m.tableLeaf ctx va := by
  have hw : ({ m with walkCache := [] } : Mach).Twin { m' with walkCache := [] } := by
    obtain ⟨ts, rfl⟩ := h
    exact ⟨ts, rfl⟩
  have hctx : m'.ctx? ctx = m.ctx? ctx := by
    obtain ⟨ts, rfl⟩ := h
    rfl
  unfold Mach.tableLeaf Mach.walk Mach.walkFor
  dsimp only
  rw [show ({ m' with walkCache := [] } : Mach).ctx? ctx = m.ctx? ctx from hctx,
    show ({ m with walkCache := [] } : Mach).ctx? ctx = m.ctx? ctx from rfl]
  cases m.ctx? ctx with
  | none => rfl
  | some c =>
    dsimp only
    have hwalk := (hw.walkFrom 0 ctx va 5 c.desc.root).2
    generalize ({ m with walkCache := [] } : Mach).walkFrom 0 ctx va 5 c.desc.root = r at hwalk ⊢
    generalize ({ m' with walkCache := [] } : Mach).walkFrom 0 ctx va 5 c.desc.root = r' at hwalk ⊢
    obtain ⟨p, q⟩ := r
    obtain ⟨p', q'⟩ := r'
    dsimp only at hwalk ⊢
    subst hwalk
    cases q' <;> rfl

theorem Mach.Twin.coverOf (h : m.Twin m') (ctx va : Nat) : m'.coverOf ctx va = m.coverOf ctx va := by
  unfold Mach.coverOf
  rw [h.tableLeaf]
  obtain ⟨ts, rfl⟩ := h
  rfl

end

theorem Mach.advance_twin (m : Mach) (ts : List TRef) (pc : DWord) : m.Twin (m.advance ts pc) := ⟨_, rfl⟩

/-! ### Dropping and replaying (06 R114, R115) -/

/-- Whether a team runs in a context. -/
def Mach.runsIn (m : Mach) (ctx u : Nat) : Bool := match m.team? u with | some x => x.ctx == ctx | none => false

/-- A lane whose translations in hand that an invalidation covers are gone. -/
def Thread.unhanded (m : Mach) (ctx : Nat) (c : Cover) (t : Thread) : Thread :=
  if m.runsIn ctx t.ref.team then
    { t with inhand := t.inhand.filter fun p => match p.2 with
        | some l => !c.drops (l.page (p.1 * 4096)) l
        | none => !c.names (p.1 * 4096) }
  else t

/-- A parked lane that an invalidation frees. -/
def Thread.freed (m : Mach) (ctx : Nat) (c : Cover) (t : Thread) : Thread :=
  match t.wait with
  | .parked p => if m.runsIn ctx t.ref.team && c.replays p then { t with wait := .ready, inhand := [] } else t
  | _ => t

section
variable {m : Mach} {ctx : Nat} {c : Cover}

theorem Thread.unhanded_ref (t : Thread) : (t.unhanded m ctx c).ref = t.ref := by
  unfold Thread.unhanded
  split <;> rfl

theorem Thread.unhanded_wait (t : Thread) : (t.unhanded m ctx c).wait = t.wait := by
  unfold Thread.unhanded
  split <;> rfl

theorem Thread.freed_ref (t : Thread) : (t.freed m ctx c).ref = t.ref := by
  unfold Thread.freed
  split
  · split <;> rfl
  · rfl

/-- A ready lane with nothing in hand is left alone. -/
theorem Thread.freed_unhanded_ready {t : Thread} (hw : t.wait = .ready) (hi : t.inhand = []) : (t.unhanded m ctx c).freed m ctx c = t := by
  have hun : t.unhanded m ctx c = t := by
    unfold Thread.unhanded
    rw [hi, List.filter_nil, ← hi]
    split <;> rfl
  rw [hun]
  unfold Thread.freed
  rw [hw]

/-- A parked lane that an invalidation covers is ready again. -/
theorem Thread.freed_unhanded_parked {t : Thread} {p : ParkInfo} (hw : t.wait = .parked p) (hr : m.runsIn ctx t.ref.team = true)
    (hc : c.replays p = true) : ((t.unhanded m ctx c).freed m ctx c).wait = .ready := by
  have hwait : (t.unhanded m ctx c).wait = .parked p := (t.unhanded_wait).trans hw
  have hif : (m.runsIn ctx (t.unhanded m ctx c).ref.team && c.replays p) = true := by rw [t.unhanded_ref, hr, hc]; rfl
  unfold Thread.freed
  rw [hwait]
  dsimp only
  rw [if_pos hif]

/-- With no command under way, no launch queued, no XSHT in flight and no record lost, an invalidation drops and frees, and has nothing to
wait for. -/
theorem Mach.invalidate_idle (hcmds : m.cmds = []) (hlaunch : m.launches = [])
    (hx : ∀ y ∈ m.threads, ∀ o ∈ y.ops, ∀ z, o.kind ≠ .xsht z) (hlost : ∀ k ∈ m.ctxs, k.lost = []) :
    m.invalidate ctx c = ((m.dropTranslations ctx c).replay ctx c, [], []) := by
  have hholders : m.holders ctx c = [] := by rw [Mach.holders, hcmds]; rfl
  have hstamps : m.stampHolders ctx c = [] := by
    rw [Mach.stampHolders, List.flatten_eq_nil_iff]
    intro l hl
    obtain ⟨y, hy, rfl⟩ := List.mem_map.1 hl
    rw [List.map_eq_nil_iff, List.filter_eq_nil_iff]
    intro o ho
    cases hk : o.kind with
    | xsht z => exact absurd hk (hx y hy o ho z)
    | _ => simp
  set m1 := (m.dropTranslations ctx c).replay ctx c with hm1
  have hctxs : m1.ctxs = m.ctxs := rfl
  have hrewrite : m1.rewriteLost ctx c = m1 := by
    unfold Mach.rewriteLost
    cases hk : m1.ctx? ctx with
    | none => rfl
    | some k =>
      have hkl : k.lost = [] := hlost k (List.mem_of_find?_eq_some hk)
      dsimp only
      rw [hkl]
      show m1.updCtx ctx (fun y => { y with lost := [] }) = m1
      have hsame : m1.ctxs.map (fun x => if x.desc.ctxno == ctx then { x with lost := [] } else x) = m1.ctxs := by
        refine (List.map_congr_left fun x hxm => ?_).trans (List.map_id _)
        split
        · rw [show ([] : List (Nat × Nat)) = x.lost from (hlost x hxm).symm]
          rfl
        · rfl
      rw [Mach.updCtx, hsame]
  have hretr : m1.retranslate ctx c = m1 := by
    rw [Mach.retranslate, hrewrite, show m1.launches = [] from hlaunch]
    rfl
  unfold Mach.invalidate
  dsimp only
  rw [hholders, hstamps, ← hm1, hretr]

theorem Mach.thread?_invalidated (r : TRef) :
    ((m.dropTranslations ctx c).replay ctx c).thread? r = (m.thread? r).map fun t => (t.unhanded m ctx c).freed m ctx c := by
  have h1 := Mach.thread?_mapThreads m (Thread.unhanded m ctx c) (fun t => t.unhanded_ref) r
  have h2 := Mach.thread?_mapThreads (m.dropTranslations ctx c) (Thread.freed m ctx c) (fun t => t.freed_ref) r
  refine h2.trans ((congrArg (Option.map (Thread.freed m ctx c)) h1).trans ?_)
  rw [Option.map_map]
  rfl

end

/-! ### INVT (22 R337) -/

/-- What INVT of a mode names, for a lane whose address is `x`. -/
def Mach.invtCover (m : Mach) (ctx x : Nat) : InvtMode → Cover
  | .page _ => m.coverOf ctx x
  | .nonGlobal => .nonGlobal
  | .all => .all

/-- What INVT of a mode names, for lanes that run it. -/
def Mach.invtCovers (m : Mach) (ctx : Nat) (ts : List Thread) (mode : InvtMode) : List Cover :=
  match mode with
  | .page a => ts.filterMap fun t => match t.pairAt a with
      | some x => if x / 2 ^ 56 ≤ 1 then some (m.coverOf ctx (x % 2 ^ 57)) else none
      | none => none
  | .nonGlobal => [.nonGlobal]
  | .all => [.all]

/-- Lanes go on once what their invalidation waits for has ended. -/
def Mach.heldFor (ts : List Thread) (r : Mach × List (Nat × Nat × Nat) × List (TRef × Nat)) : Mach :=
  if r.1.drained r.2.1 r.2.2 then r.1
  else ts.foldl (fun m t => m.updThread t.ref fun x => { x with wait := .drains r.2.1 r.2.2 }) r.1

theorem invtOnce_eq {m : Mach} {tm : Team} (h : m.team? m.cur.team = some tm) (mode : InvtMode) (ts : List Thread) :
    invtOnce mode ts m = Mach.heldFor ts ((m.invtCovers tm.ctx ts mode).foldl (fun r c =>
      ((r.1.invalidate tm.ctx c).1, r.2.1 ++ (r.1.invalidate tm.ctx c).2.1, r.2.2 ++ (r.1.invalidate tm.ctx c).2.2)) (m, [], [])) := by
  unfold invtOnce
  rw [h]
  cases mode <;> rfl

theorem Mach.invtCovers_lone {m : Mach} {th : Thread} {mode : InvtMode} {x : Nat} (hx : ∀ a, mode = .page a → th.pairIs a x) (hlt : x < 2 ^ 57)
    (ctx : Nat) : m.invtCovers ctx [th] mode = [m.invtCover ctx x mode] := by
  cases mode with
  | page a =>
    have htop : x / 2 ^ 56 ≤ 1 := by omega
    unfold Mach.invtCovers
    dsimp only
    rw [List.filterMap_cons, List.filterMap_nil, Thread.pairAt_of_pairIs (hx a rfl)]
    dsimp only
    rw [if_pos htop, Nat.mod_eq_of_lt hlt]
    rfl
  | nonGlobal => rfl
  | all => rfl

theorem Mach.Twin.invtCover {m m' : Mach} (h : m.Twin m') (ctx x : Nat) (mode : InvtMode) :
    m'.invtCover ctx x mode = m.invtCover ctx x mode := by
  cases mode with
  | page a => exact h.coverOf ctx x
  | nonGlobal => rfl
  | all => rfl

section
variable {s : State} {tm : Team} {th : Thread} {x : Nat}

theorem acts_of_invt (hl : Lone s tm th) {mode : InvtMode} (hx : ∀ a, mode = .page a → th.pairIs a x) (hlt : x < 2 ^ 57)
    (hb : staticBad s.m tm (.invt mode) = false) (hcmds : s.m.cmds = []) (hlaunch : s.m.launches = [])
    (hxs : ∀ y ∈ s.m.threads, ∀ o ∈ y.ops, ∀ z, o.kind ≠ .xsht z) (hlost : ∀ k ∈ s.m.ctxs, k.lost = []) :
    Acts (.invt mode) s fun m => (m.dropTranslations tm.ctx (s.m.invtCover tm.ctx x mode)).replay tm.ctx (s.m.invtCover tm.ctx x mode) := by
  have hacts : Acts (.invt mode) s fun m => invtOnce mode [th] m := by
    refine acts_of_lone (w := invtSem mode) (f := id) hl rfl rfl hb ?_
    cases mode with
    | page a =>
      show (if (th.pairAt a).isSome then LaneOut.ok id else _) = _
      rw [Thread.pairAt_of_pairIs (hx a rfl)]
      rfl
    | nonGlobal => rfl
    | all => rfl
  refine hacts.congr ?_
  set m0 := s.m.advance (refs s.m.bundle) (s.m.wordAddr (Instr.invt mode).size) with hm0
  have hops : ∀ y ∈ m0.threads, ∀ o ∈ y.ops, ∀ z, o.kind ≠ .xsht z := by
    intro y hy
    obtain ⟨y', hy', rfl⟩ := List.mem_map.1 hy
    split
    · exact hxs y' hy'
    · exact hxs y' hy'
  have hteam : m0.team? m0.cur.team = some tm := hl.issues.team
  have hinv := Mach.invalidate_idle (m := m0) (ctx := tm.ctx) (c := s.m.invtCover tm.ctx x mode) hcmds hlaunch hops hlost
  rw [invtOnce_eq hteam, Mach.invtCovers_lone hx hlt, (s.m.advance_twin _ _).invtCover, List.foldl_cons, List.foldl_nil, hinv]
  rfl

/-- INVT in a lone lane: what goes, what stays, and who is ready again. -/
theorem invt_drops (hl : Lone s tm th) {mode : InvtMode} (hx : ∀ a, mode = .page a → th.pairIs a x) (hlt : x < 2 ^ 57)
    (hb : staticBad s.m tm (.invt mode) = false) (hcmds : s.m.cmds = []) (hlaunch : s.m.launches = [])
    (hxs : ∀ y ∈ s.m.threads, ∀ o ∈ y.ops, ∀ z, o.kind ≠ .xsht z) (hlost : ∀ k ∈ s.m.ctxs, k.lost = []) :
    ∃ s', exec (.invt mode) s = .next s' ∧ s.Keeps s' ∧ s'.m.thread? th.ref = some (th.onward s.m 1) ∧
      (∀ e, e ∈ s'.m.tlb ↔ e ∈ s.m.tlb ∧ ¬ (e.ctx = tm.ctx ∧ (s.m.invtCover tm.ctx x mode).drops e.page e.leaf = true)) ∧
      ∀ v y i, v ≠ th.ref → s.m.thread? v = some y → y.wait = .parked i → v.team = tm.uid →
        (s.m.invtCover tm.ctx x mode).replays i = true → ∃ z, s'.m.thread? v = some z ∧ z.wait = .ready := by
  set c := s.m.invtCover tm.ctx x mode with hc
  set m0 := s.m.advance (refs s.m.bundle) (s.m.wordAddr (Instr.invt mode).size) with hm0
  set m1 := (m0.dropTranslations tm.ctx c).replay tm.ctx c with hm1
  obtain ⟨s', he, hs⟩ := (acts_of_invt hl hx hlt hb hcmds hlaunch hxs hlost).leaves (m := m1) rfl (tm := tm) hl.issues.team
    hl.issues.quiet rfl fun hw => hw
  refine ⟨s', he, fun z hz => hs.mem z hz, ?_, fun e => ?_, fun v y i hv hy hw hvt hr => ?_⟩
  · rw [hs.thread?, hm1, Mach.thread?_invalidated, show m0.thread? th.ref = _ from thread?_lone hl 1]
    exact congrArg some (Thread.freed_unhanded_ready (lone_ready hl 1) rfl)
  · rw [hs.rest]
    show e ∈ s.m.tlb.filter (fun e => !(e.ctx == tm.ctx && c.drops e.page e.leaf)) ↔ _
    rw [List.mem_filter]
    simp only [Bool.not_eq_true', Bool.and_eq_false_imp, beq_iff_eq, not_and, Bool.not_eq_true]
  · have hyref : y.ref = v := by
      have := List.find?_some hy
      exact beq_iff_eq.1 this
    have hruns : m0.runsIn tm.ctx y.ref.team = true := by
      rw [hyref, hvt, Mach.runsIn, show m0.team? tm.uid = some tm from lone_team hl]
      exact beq_self_eq_true _
    refine ⟨(y.unhanded m0 tm.ctx c).freed m0 tm.ctx c, ?_, Thread.freed_unhanded_parked hw hruns hr⟩
    rw [hs.thread?, hm1, Mach.thread?_invalidated, show m0.thread? v = _ from (thread?_lone_other hl hv 1).trans hy]
    rfl

end

/-- A lane parked at a page that holds the address named is freed. -/
theorem Mach.invtCover_replays (m : Mach) (ctx : Nat) {x : Nat} {i : ParkInfo} (h1 : i.page ≤ x) (h2 : x < i.page + i.bytes)
    (mode : InvtMode) : (m.invtCover ctx x mode).replays i = true := by
  cases mode with
  | page a =>
    have hmeets : (decide (i.page ≤ x) && decide (x < i.page + i.bytes)) = true := by simp [h1, h2]
    unfold Mach.invtCover Mach.coverOf Cover.replays
    dsimp only
    cases m.tableLeaf ctx x <;> exact Bool.or_eq_true_iff.2 (.inr hmeets)
  | nonGlobal => rfl
  | all => rfl

/-- Settles O35. -/
theorem scopesInvalidations : Obligations.ScopesInvalidations := by
  refine fun s tm => ⟨fun idx a h hb hfits => ?_, fun th a x hl hx hlt hcmds hlaunch hxs hlost p hp hb => ?_⟩
  · have hacts := acts_of_pass (w := scpgSem idx a) (f := fun th m => m.updCtx tm.ctx fun c =>
      { c with scopes := c.scopes.set (idx.toNat - 4) (BitVec.ofNat 128 (th.valAt a.toNat)) }) h rfl rfl hb fun th hth => ?_
    · exact hacts
    · obtain ⟨htag, hform⟩ := hfits th hth
      have hif : (th.tagAt a.toNat == .b128 && th.formed a.toNat) = true := by rw [htag, hform]; rfl
      unfold scpgSem laneWord
      dsimp only
      rw [bundle_team? h hth]
      dsimp only
      rw [if_pos hif]
  · have hmodes : p = (.page a, fun e => (s.m.coverOf tm.ctx x).drops e.page e.leaf = true) ∨
        p = (.nonGlobal, fun e => pteG e.leaf.bits = false) ∨ p = (.all, fun _ => True) := by
      simpa only [List.mem_cons, List.not_mem_nil, or_false] using hp
    have hpage : ∀ a', p.1 = .page a' → th.pairIs a' x := by
      rcases hmodes with rfl | rfl | rfl
      · intro a' ha'
        obtain rfl : a = a' := InvtMode.page.inj ha'
        exact hx
      · exact fun _ h => absurd h nofun
      · exact fun _ h => absurd h nofun
    have hdrops : ∀ e : Tlb, (s.m.invtCover tm.ctx x p.1).drops e.page e.leaf = true ↔ p.2 e := by
      rcases hmodes with rfl | rfl | rfl
      · exact fun _ => Iff.rfl
      · exact fun e => by simp only [Mach.invtCover, Cover.drops, Bool.not_eq_true']
      · exact fun _ => ⟨fun _ => trivial, fun _ => rfl⟩
    obtain ⟨s', he, hk, hth, htlb, hfree⟩ := invt_drops hl hpage hlt hb hcmds hlaunch hxs hlost
    exact ⟨s', he, hk, hth, fun e => by rw [htlb e, hdrops e], fun v y i hv hy hw hvt h1 h2 =>
      hfree v y i hv hy hw hvt (s.m.invtCover_replays tm.ctx h1 h2 p.1)⟩

end Sys2Proof.Machine
end

section
/-! SUPPORT. Service calls as they issue (19 R269; 23 R364). -/

namespace Sys2Proof.Machine

section
variable {s : State} {tm : Team} {num : BitVec 7} {a : Reg}

/-- The batch that a bundle's call sends. -/
def State.batchOf (s : State) (tm : Team) (num a : Nat) : Batch := {
  id := s.m.uid, team := tm.uid, ctx := tm.ctx, die := dieOf tm.core, num := num, a := a
  inst := s.m.wordBits s.m.svcOff, pc := s.m.wordAddr s.m.svcOff, resume := s.m.cur.pc
  calls := (s.m.bundle.filter fun th => !th.helper).map fun th => (th.ref, th.block a 8), change := none
  results := [], dropped := false }

theorem foldl_id {α β : Type} (xs : List β) (x : α) : xs.foldl (fun m _ => m) x = x := by
  induction xs with
  | nil => rfl
  | cons y ys ih => exact ih

theorem Mach.serves_of {m : Mach} {sh : Team} {c : Ctx} (hs : m.services = true) (hc : m.ctx? tm.ctx = some c) (hok : c.desc.svcok = true)
    {n : Nat} (hn : n ∈ [0, 1, 2, 0x21]) (ht : tm.shepherd = false) (hsh : m.shepherd? (dieOf tm.core) = some sh) : m.serves tm n = true := by
  have hknown : serviceKnown n = true := by
    simp only [List.mem_cons, List.not_mem_nil, or_false] at hn
    rcases hn with rfl | rfl | rfl | rfl <;> rfl
  simp only [Mach.serves, hs, hc, hok, hsh, hknown, ht, Option.isSome_some, Bool.and_self, Bool.not_false]

/-- A call that is sent. -/
theorem acts_of_service (h : Issues s tm) (hb : staticBad s.m tm (.svc num a) = false) (hs : s.m.serves tm num.toNat = true)
    (hreal : ∃ th ∈ s.m.bundle, th.helper = false) :
    Acts (.svc num a) s fun m => s.m.bundle.foldl (fun m th => m.updThread th.ref fun y => { y with wait := .service s.m.uid })
      { m with uid := m.uid + 1, batches := m.batches ++ [s.batchOf tm num.toNat a.toNat] } := by
  have hacts := acts_of_pass (w := svcSem num a) (f := fun _ m => m) h rfl rfl hb fun th hth => ?_
  · refine hacts.congr ?_
    rw [foldl_id]
    set m0 := s.m.advance (refs s.m.bundle) (s.m.wordAddr (Instr.svc num a).size) with hm0
    have hteam : m0.team? m0.cur.team = some tm := h.team
    obtain ⟨th, hth, hh⟩ := hreal
    have hmem : th ∈ s.m.bundle.filter fun t => !t.helper := List.mem_filter.2 ⟨hth, by rw [hh]; rfl⟩
    show m0.callService num.toNat a.toNat s.m.bundle = _
    unfold Mach.callService State.batchOf
    rw [hteam]
    cases hf : s.m.bundle.filter fun t => !t.helper with
    | nil => rw [hf] at hmem; cases hmem
    | cons x xs => rfl
  · unfold svcSem ctlWord
    dsimp only
    rw [bundle_team? h hth]
    dsimp only
    rw [hs, if_pos rfl, ite_self]
    rfl

end

/-- Settles O37. -/
theorem serviceCalls : Obligations.ServiceCalls := by
  refine fun s tm sh c num a h hb => ⟨fun hs hc hok hn ht hsh hreal => ?_, fun hs hcan => ?_⟩
  · exact acts_of_service h hb (Mach.serves_of hs hc hok hn ht hsh) hreal
  · refine becomes_of_plain_trap (w := svcSem num a) (c := 0x41) (a := fun _ => 0) (e := fun _ => 0) (sv := fun _ => sub0)
      (alt := fun _ => none) h rfl rfl rfl hb hcan fun th hth => ?_
    have hno : s.m.serves tm num.toNat = false := by simp [Mach.serves, hs]
    unfold svcSem ctlWord
    dsimp only
    rw [(hcan th hth).1, if_neg Bool.false_ne_true, bundle_team? h hth]
    dsimp only
    rw [hno, if_neg Bool.false_ne_true]

end Sys2Proof.Machine
end

section
/-! SUPPORT. Launches and shootdowns as their words issue (06 R123; 15 R226; 22 R342; 24 R381). -/

namespace Sys2Proof.Machine

section
variable {s : State} {tm : Team} {th : Thread} {d a b : Reg} {x y off v : Nat} {l : Leaf}

/-! ### LNCH -/

/-- A launch record's read in flight. -/
def launchOp (id : Nat) (d : Reg) (k : OpKind) : Op :=
  { id := id, kind := k, dst := .regs d.toNat .i32 1, loads := false, stores := false, tile := false }

theorem Mach.launchAt_own {m : Mach} (ho : tm.own x 128 off) (t : Thread) (d : Dst) : m.launchAt tm t x d = .ok (false, off, 0, false) := by
  obtain ⟨hx, hal, hoff, -⟩ := id ho
  have hplace : (tm.uid == tm.uid && x / 2 ^ 56 != 0xFF) = true := by
    rw [show x / 2 ^ 56 = 0xFC by omega, beq_self_eq_true]
    rfl
  rw [Mach.launchAt, if_neg (by simp [hal]), m.resolve_own ho]
  exact if_pos hplace

theorem Mach.launchAt_reaches {m : Mach} (hr : m.Reaches tm th x 128 false l) (d : Dst) :
    m.launchAt tm th x d = .ok (true, l.pa x, x, pteNc l.bits) := by
  rw [Mach.launchAt, if_neg (by simp [hr.aligned]), m.resolve_global tm hr.global]
  dsimp only
  rw [Mach.checkGlobal_reaches hr]

theorem acts_of_launch (hl : Lone s tm th) (hx : th.pairIs a x) (hb : staticBad s.m tm (.lnch d a) = false) {g nc : Bool} {at_ va : Nat}
    (hat : s.m.launchAt tm th x (.regs d.toNat .i32 1) = .ok (g, at_, va, nc)) {got : List Byte}
    (hgot : got = if g then [] else tm.scratch.read at_ 128) :
    Acts (.lnch d a) s fun m => ({ m with uid := m.uid + 1 } : Mach).addOp th.ref (launchOp m.uid d (.launch g at_ va nc got)) := by
  have hacts : Acts (.lnch d a) s fun m => ({ m with uid := m.uid + 1 } : Mach).addOp th.ref (launchOp m.uid d (.launch g at_ va nc
      (if g then [] else ({ m with uid := m.uid + 1 } : Mach).readArray (.scratch th.ref.team at_) 128))) := by
    refine acts_of_lone (w := lnchSem d a) hl rfl rfl hb (f := fun m => ({ m with uid := m.uid + 1 } : Mach).addOp th.ref
      (launchOp m.uid d (.launch g at_ va nc
        (if g then [] else ({ m with uid := m.uid + 1 } : Mach).readArray (.scratch th.ref.team at_) 128)))) ?_
    unfold lnchSem laneWord
    dsimp only
    rw [hl.real, if_neg Bool.false_ne_true, bundle_team? hl.issues (by simp [hl.bundle]), Thread.pairAt_of_pairIs hx]
    dsimp only
    rw [hat]
    rfl
  refine hacts.congr ?_
  set m0 := s.m.advance (refs s.m.bundle) (s.m.wordAddr (Instr.lnch d a).size) with hm0
  have hread : ({ m0 with uid := m0.uid + 1 } : Mach).readArray (.scratch th.ref.team at_) 128 = tm.scratch.read at_ 128 := by
    have hteam : ({ m0 with uid := m0.uid + 1 } : Mach).team? th.ref.team = some tm := bundle_team? hl.issues (by simp [hl.bundle])
    simp only [Mach.readArray, hteam]
  rw [hread, hgot]

/-! ### XSHT -/

theorem Mach.xshtStamp_own {m : Mach} (ho : tm.own y 8 off) (t : Thread) : m.xshtStamp tm t y = .ok (off, none) := by
  obtain ⟨hx, hal, hoff, -⟩ := id ho
  have hplace : (tm.uid == tm.uid && y / 2 ^ 56 != 0xFF) = true := by
    rw [show y / 2 ^ 56 = 0xFC by omega, beq_self_eq_true]
    rfl
  rw [Mach.xshtStamp, if_neg (by simp [hal]), m.resolve_own ho]
  exact if_pos hplace

theorem Mach.checkGlobal_writes {m : Mach} {t : Thread} {n : Nat} (h : m.Reaches tm t y n true l) (kind : Nat)
    (alt : Option (Mach → Mach)) : m.checkGlobal tm t kind true y alt = .ok l := by
  have hva : y % 2 ^ 57 = y := Nat.mod_eq_of_lt h.global
  simp only [Mach.checkGlobal, hva, h.page, h.allowed, h.dirty rfl, Bool.not_true, Bool.and_false, Bool.false_and, Bool.false_eq_true, if_false]

theorem Mach.xshtStamp_reaches {m : Mach} (hr : m.Reaches tm th y 8 true l) : m.xshtStamp tm th y = .ok (y, some l) := by
  rw [Mach.xshtStamp, if_neg (by simp [hr.aligned]), m.resolve_global tm hr.global]
  dsimp only
  rw [Mach.checkGlobal_writes hr]

/-- An XSHT in flight. -/
def xshtOp (id : Nat) (z : Xsht) : Op := { id := id, kind := .xsht z, dst := .none, loads := false, stores := true, tile := false }

/-- A machine in which a thread's XSHT is in flight. -/
def Mach.xshtWaits (m : Mach) (t : TRef) (z : Xsht) : Mach := ({ m with uid := m.uid + 1 } : Mach).addOp t (xshtOp m.uid z)

/-- The stamp of an XSHT with a status. -/
def stampOf (stamp : Nat × Option Leaf) (v status : Nat) : Xsht := {
  va := stamp.1, leaf := stamp.2, value := BitVec.ofNat 64 (v / 2 ^ 16 * 2 ^ 16 + status), page := 0, bytes := 0, cmds := []
  tiles := [], stamps := [] }

/-- The bits of an XSHT's stamp but its status. -/
def stampBits (v : Nat) : DWord := BitVec.ofNat 64 (v / 2 ^ 16 * 2 ^ 16)

/-- A stamp with a value. -/
def stampWith (stamp : Nat × Option Leaf) (value : DWord) : Xsht := {
  va := stamp.1, leaf := stamp.2, value := value, page := 0, bytes := 0, cmds := [], tiles := [], stamps := [] }

theorem stampOf_status (stamp : Nat × Option Leaf) (v n : Nat) : stampOf stamp v n = stampWith stamp (stampBits v + BitVec.ofNat 64 n) := by
  unfold stampOf stampBits stampWith
  rw [← BitVec.ofNat_add]

theorem stampOf_zero (stamp : Nat × Option Leaf) (v : Nat) : stampOf stamp v 0 = stampWith stamp (stampBits v) := by
  rw [stampOf_status, BitVec.add_zero]

theorem acts_of_xsht (hl : Lone s tm th) (hb : staticBad s.m tm (.xsht d a b) = false) (hx : th.pairIs a x) (hlt : x < 2 ^ 57)
    (hv : th.pairIs d v) (hy : th.pairIs b y) {stamp : Nat × Option Leaf}
    (hat : (tm.own y 8 off ∧ stamp = (off, none)) ∨ (s.m.Reaches tm th y 8 true l ∧ stamp = (y, some l))) :
    Acts (.xsht d a b) s fun m => m.beginXsht tm th.ref x v stamp := by
  have hstamp : s.m.xshtStamp tm th y = .ok stamp ∧ (y % 8 != 0) = false := by
    rcases hat with ⟨ho, rfl⟩ | ⟨hr, rfl⟩
    · exact ⟨Mach.xshtStamp_own ho th, by simp [ho.2.1]⟩
    · exact ⟨Mach.xshtStamp_reaches hr, by simp [hr.aligned]⟩
  refine acts_of_lone (w := xshtSem d a b) hl rfl rfl hb (f := fun m => m.beginXsht tm th.ref x v stamp) ?_
  unfold xshtSem laneWord
  dsimp only
  rw [hl.real, if_neg Bool.false_ne_true, bundle_team? hl.issues (by simp [hl.bundle]), Thread.pairAt_of_pairIs hv,
    Thread.pairAt_of_pairIs hx, Thread.pairAt_of_pairIs hy]
  dsimp only
  rw [hstamp.2, if_neg Bool.false_ne_true, if_neg (by omega), hstamp.1]

/-- With no atomic that has still to act through a page's translation there is none to act before its drop. -/
theorem Mach.actThrough_none {m : Mach} {e : Leaf}
    (h : ∀ t ∈ m.threads, ∀ o ∈ t.ops, ∀ z f, o.kind = .atomic z → z.leaf = some f → ptePa f.bits ≠ ptePa e.bits) (ctx : Nat) :
    m.actThrough ctx e = m := by
  unfold Mach.actThrough Mach.actAll
  dsimp only
  rw [List.flatten_eq_nil_iff.2 fun l hl => ?_]
  · rfl
  · obtain ⟨t, ht, rfl⟩ := List.mem_map.1 hl
    rw [List.map_eq_nil_iff, List.filter_eq_nil_iff]
    intro o ho
    cases hk : o.kind with
    | atomic z =>
      cases hz : z.leaf with
      | some f => simp [hz, h t ht o ho z f hk hz]
      | none => simp [hz]
    | _ => simp

/-- The pages that XSHT of an address drops. -/
def shotCover (x : Nat) (e : Leaf) : Cover := .page x (e.page x) e.size

/-- XSHT of a page with MIG set: its stamp and what it waits for. -/
def Mach.shotStamp (w : Mach) (ctx x : Nat) (e : Leaf) (stamp : Nat × Option Leaf) (v : Nat) : Xsht :=
  { stampOf stamp v 0 with
    page := ptePa e.bits, bytes := if pteExc e.bits == 0 || pteExc e.bits == 2 then e.size else 0
    cmds := w.holders ctx (shotCover x e), tiles := w.tileHolders e, stamps := w.stampHolders ctx (shotCover x e) }

/-- XSHT once its page has been walked. -/
def Mach.shoot (t : TRef) (ctx x v : Nat) (stamp : Nat × Option Leaf) (p : Mach × Option Leaf) : Mach :=
  match p.2 with
  | none => p.1.xshtWaits t (stampOf stamp v 2)
  | some e =>
    if !pteMig e.bits then p.1.xshtWaits t (stampOf stamp v 1)
    else (((({ p.1 with uid := p.1.uid + 1 } : Mach).actThrough ctx e)).dropTranslations ctx (shotCover x e)).addOp t
      (xshtOp p.1.uid ((({ p.1 with uid := p.1.uid + 1 } : Mach).actThrough ctx e).shotStamp ctx x e stamp v))

theorem Mach.beginXsht_eq {m : Mach} {stamp : Nat × Option Leaf} (hd : ∀ l, stamp.2 = some l → pteD l.bits = true) (hlt : x < 2 ^ 57)
    (t : TRef) (v : Nat) : m.beginXsht tm t x v stamp = Mach.shoot t tm.ctx x v stamp (m.walk (dieOf tm.core) tm.ctx x true) := by
  have hva : x % 2 ^ 57 = x := Nat.mod_eq_of_lt hlt
  have hdirty : ∀ l, stamp.2 = some l → m.setDirty l = m := fun l hl => Mach.setDirty_dirty (hd l hl)
  obtain ⟨at_, lo⟩ := stamp
  unfold Mach.beginXsht Mach.shoot Mach.shotStamp shotCover
  rw [stampOf_zero, stampOf_status (at_, lo) v 1, stampOf_status (at_, lo) v 2]
  dsimp only
  rw [show BitVec.ofNat 64 (v / 2 ^ 16 * 2 ^ 16) = stampBits v from rfl]
  generalize stampBits v = base
  cases lo with
  | none =>
    dsimp only
    rw [hva]
    generalize m.walk (dieOf tm.core) tm.ctx x true = p
    obtain ⟨w, r⟩ := p
    cases r <;> rfl
  | some l =>
    dsimp only
    rw [hdirty l rfl, hva]
    generalize m.walk (dieOf tm.core) tm.ctx x true = p
    obtain ⟨w, r⟩ := p
    cases r <;> rfl

theorem Mach.shoot_mig {w : Mach} {e : Leaf} (hm : pteMig e.bits = true)
    (ha : ∀ t ∈ w.threads, ∀ o ∈ t.ops, ∀ z f, o.kind = .atomic z → z.leaf = some f → ptePa f.bits ≠ ptePa e.bits) (t : TRef) (ctx x v : Nat)
    (stamp : Nat × Option Leaf) : Mach.shoot t ctx x v stamp (w, some e) =
      (w.dropTranslations ctx (shotCover x e)).xshtWaits t (w.shotStamp ctx x e stamp v) := by
  unfold Mach.shoot
  dsimp only
  rw [hm, Mach.actThrough_none (m := { w with uid := w.uid + 1 }) ha]
  rfl

theorem Mach.shoot_still {w : Mach} {e : Leaf} (hm : pteMig e.bits = false) (t : TRef) (ctx x v : Nat) (stamp : Nat × Option Leaf) :
    Mach.shoot t ctx x v stamp (w, some e) = w.xshtWaits t (stampOf stamp v 1) := by
  unfold Mach.shoot
  dsimp only
  rw [hm]
  rfl

end

/-! ### What goes, and what the drain waits for -/

section
variable {w : Mach} {ctx x : Nat} {e : Leaf}

/-- A page that holds the address or meets its page. -/
def meetsPage (x : Nat) (e : Leaf) (lo n : Nat) : Prop := (lo ≤ x ∧ x < lo + n) ∨ (lo < e.page x + e.size ∧ e.page x < lo + n)

theorem shotCover_drops (page : Nat) (l : Leaf) : (shotCover x e).drops page l = true ↔ meetsPage x e page l.size := by
  simp [shotCover, Cover.drops, meetsPage]

theorem runsIn_iff (u : Nat) : w.runsIn ctx u = true ↔ ∃ tu, w.team? u = some tu ∧ tu.ctx = ctx := by
  unfold Mach.runsIn
  cases w.team? u <;> simp

theorem mem_dropped_tlb (c : Tlb) :
    c ∈ (w.dropTranslations ctx (shotCover x e)).tlb ↔ c ∈ w.tlb ∧ ¬ (c.ctx = ctx ∧ meetsPage x e c.page c.leaf.size) := by
  rw [← shotCover_drops]
  show c ∈ w.tlb.filter (fun k => !(k.ctx == ctx && (shotCover x e).drops k.page k.leaf)) ↔ _
  rw [List.mem_filter]
  simp only [Bool.not_eq_true', Bool.and_eq_false_imp, beq_iff_eq, not_and, Bool.not_eq_true]

theorem mem_dropped_tables (c : WalkEnt) :
    c ∈ (w.dropTranslations ctx (shotCover x e)).walkCache ↔ c ∈ w.walkCache ∧ ¬ (c.ctx = ctx ∧
      c.va * 2 ^ (12 + 9 * c.level) < e.page x + e.size ∧ e.page x < (c.va + 1) * 2 ^ (12 + 9 * c.level)) := by
  show c ∈ w.walkCache.filter (fun k => !(k.ctx == ctx && (shotCover x e).dropsTable k)) ↔ _
  rw [List.mem_filter]
  simp only [shotCover, Cover.dropsTable, Bool.not_eq_true', Bool.and_eq_false_imp, beq_iff_eq, not_and, decide_eq_true_eq,
    decide_eq_false_iff_not]

theorem thread?_dropped {u : TRef} {t : Thread} (ht : w.thread? u = some t) :
    ∃ hs, (w.dropTranslations ctx (shotCover x e)).thread? u = some { t with inhand := hs } ∧ ∀ p, p ∈ hs ↔ p ∈ t.inhand ∧
      ¬ ((∃ tu, w.team? u.team = some tu ∧ tu.ctx = ctx) ∧ match p.2 with
        | some f => meetsPage x e (f.page (p.1 * 4096)) f.size
        | none => e.page x ≤ p.1 * 4096 ∧ p.1 * 4096 < e.page x + e.size) := by
  have hget : (w.dropTranslations ctx (shotCover x e)).thread? u = some (t.unhanded w ctx (shotCover x e)) :=
    (Mach.thread?_mapThreads w (Thread.unhanded w ctx (shotCover x e)) (fun t => t.unhanded_ref) u).trans (congrArg (Option.map _) ht)
  have href : t.ref = u := by
    have := List.find?_some ht
    exact beq_iff_eq.1 this
  rw [hget]
  unfold Thread.unhanded
  rw [← runsIn_iff, ← href]
  cases hr : w.runsIn ctx t.ref.team with
  | false => exact ⟨t.inhand, by rw [if_neg Bool.false_ne_true], fun p => by simp⟩
  | true =>
    refine ⟨_, by rw [if_pos rfl], fun p => ?_⟩
    rw [List.mem_filter]
    obtain ⟨k, lo⟩ := p
    cases lo with
    | some f =>
      dsimp only
      rw [← shotCover_drops]
      simp
    | none =>
      simp only [shotCover, Cover.names, true_and, not_and, not_lt, Bool.not_eq_true', Bool.and_eq_false_imp, decide_eq_true_eq,
        decide_eq_false_iff_not]

theorem mem_holders (c p n : Nat) : (c, p, n) ∈ w.holders ctx (shotCover x e) ↔ ∃ k ∈ w.cmds, ∃ f,
    (∃ tu, w.team? k.team = some tu ∧ tu.ctx = ctx) ∧ (p, f) ∈ k.pages ∧ meetsPage x e p f.size ∧ k.uses p f.size = true ∧
      c = k.id ∧ n = f.size := by
  have hmem : (c, p, n) ∈ w.holders ctx (shotCover x e) ↔ ∃ k ∈ w.cmds, w.runsIn ctx k.team = true ∧ ∃ f,
      (p, f) ∈ k.pages ∧ ((shotCover x e).drops p f && k.uses p f.size) = true ∧ (k.id, p, f.size) = (c, p, n) := by
    unfold Mach.holders
    rw [List.mem_flatten]
    constructor
    · rintro ⟨ys, hys, hin⟩
      obtain ⟨k, hk, rfl⟩ := List.mem_map.1 hys
      obtain ⟨hk, hr⟩ := List.mem_filter.1 hk
      obtain ⟨⟨p', f⟩, hpf, heq⟩ := List.mem_map.1 hin
      obtain ⟨hpf, hd⟩ := List.mem_filter.1 hpf
      obtain rfl : p' = p := congrArg (·.2.1) heq
      exact ⟨k, hk, hr, f, hpf, hd, heq⟩
    · rintro ⟨k, hk, hr, f, hpf, hd, heq⟩
      exact ⟨_, List.mem_map.2 ⟨k, List.mem_filter.2 ⟨hk, hr⟩, rfl⟩, List.mem_map.2 ⟨(p, f), List.mem_filter.2 ⟨hpf, hd⟩, heq⟩⟩
  rw [hmem]
  simp only [runsIn_iff, Bool.and_eq_true, shotCover_drops, Prod.mk.injEq, true_and]
  constructor
  · rintro ⟨k, hk, hr, f, hpf, ⟨hd, hu⟩, rfl, rfl⟩
    exact ⟨k, hk, f, hr, hpf, hd, hu, rfl, rfl⟩
  · rintro ⟨k, hk, f, hr, hpf, hd, hu, rfl, rfl⟩
    exact ⟨k, hk, hr, f, hpf, ⟨hd, hu⟩, rfl, rfl⟩

/-- The merge operations (13 R217). -/
theorem merges_iff (i : Instr) : (match i with | .tspl .. | .tfch .. => true | _ => false) = true ↔
    ∃ td g h, i = .tspl td g h ∨ i = .tfch td g h := by
  constructor
  · intro h
    split at h
    · exact ⟨_, _, _, .inl rfl⟩
    · exact ⟨_, _, _, .inr rfl⟩
    · cases h
  · rintro ⟨td, g, h, rfl | rfl⟩ <;> rfl

theorem mem_tileHolders (n : Nat) : n ∈ w.tileHolders e ↔ ∃ q ∈ w.tileq, n = q.order ∧
    (∃ td g h, q.instr = .tspl td g h ∨ q.instr = .tfch td g h) ∧ ∃ p ∈ q.pas, ptePa e.bits ≤ p.1 ∧ p.1 < ptePa e.bits + e.size := by
  have hpas (q : TileOp) : (q.pas.any fun p => ptePa e.bits ≤ p.1 && decide (p.1 < ptePa e.bits + e.size)) = true ↔
      ∃ p ∈ q.pas, ptePa e.bits ≤ p.1 ∧ p.1 < ptePa e.bits + e.size := by
    simp only [List.any_eq_true, Bool.and_eq_true, decide_eq_true_eq]
  unfold Mach.tileHolders
  rw [List.mem_map]
  constructor
  · rintro ⟨q, hq, rfl⟩
    obtain ⟨hq, hcond⟩ := List.mem_filter.1 hq
    obtain ⟨hi, hp⟩ := (Bool.and_eq_true _ _).mp hcond
    exact ⟨q, hq, rfl, (merges_iff q.instr).1 hi, (hpas q).1 hp⟩
  · rintro ⟨q, hq, rfl, hi, hp⟩
    exact ⟨q, List.mem_filter.2 ⟨hq, (Bool.and_eq_true _ _).mpr ⟨(merges_iff q.instr).2 hi, (hpas q).2 hp⟩⟩, rfl⟩

theorem mem_stampHolders (u : TRef) (n : Nat) : (u, n) ∈ w.stampHolders ctx (shotCover x e) ↔ ∃ t ∈ w.threads, u = t.ref ∧
    (∃ tu, w.team? u.team = some tu ∧ tu.ctx = ctx) ∧ ∃ o ∈ t.ops, ∃ k f, n = o.id ∧ o.kind = .xsht k ∧ k.leaf = some f ∧
      meetsPage x e (f.page k.va) f.size := by
  unfold Mach.stampHolders
  rw [List.mem_flatten]
  constructor
  · rintro ⟨ys, hys, hin⟩
    obtain ⟨t, ht, rfl⟩ := List.mem_map.1 hys
    obtain ⟨o, ho, heq⟩ := List.mem_map.1 hin
    obtain ⟨rfl, rfl⟩ := Prod.mk.inj heq
    obtain ⟨ho, hcond⟩ := List.mem_filter.1 ho
    split at hcond
    next k hk =>
      obtain ⟨hr, hd⟩ := (Bool.and_eq_true _ _).mp hcond
      split at hd
      next f hf => exact ⟨t, ht, rfl, runsIn_iff _ |>.1 hr, o, ho, k, f, rfl, hk, hf, (shotCover_drops _ _).1 hd⟩
      next => cases hd
    next => cases hcond
  · rintro ⟨t, ht, rfl, hr, o, ho, k, f, rfl, hk, hf, hd⟩
    refine ⟨_, List.mem_map.2 ⟨t, ht, rfl⟩, List.mem_map.2 ⟨o, List.mem_filter.2 ⟨ho, ?_⟩, rfl⟩⟩
    rw [hk]
    dsimp only
    rw [hf]
    exact (Bool.and_eq_true _ _).mpr ⟨(runsIn_iff _).2 hr, (shotCover_drops _ _).2 hd⟩

end

/-- Settles O36. -/
theorem launchShootdownWords : Obligations.LaunchShootdownWords := by
  intro s tm th d a b x y off v l hl hx issued
  refine ⟨fun hb => ⟨fun ho => ?_, fun hr => ?_⟩, fun hb hlt hv hy at_ hat => ?_⟩
  · exact acts_of_launch hl hx hb (Mach.launchAt_own ho th _) rfl
  · exact acts_of_launch hl hx hb (Mach.launchAt_reaches hr _) rfl
  · intro waits stamp w r hw
    have hacts := acts_of_xsht hl hb hx hlt hv hy hat
    have hdirty : ∀ l, at_.2 = some l → pteD l.bits = true := by
      rcases hat with ⟨-, rfl⟩ | ⟨hr, rfl⟩
      · exact fun _ h => absurd h nofun
      · intro l' hl'
        obtain rfl := Option.some.inj hl'
        exact hr.dirty rfl
    have hbegin (m : Mach) (hm : m = s.m.advance (refs s.m.bundle) (s.m.wordAddr (Instr.xsht d a b).size)) :
        m.beginXsht tm th.ref x v at_ = Mach.shoot th.ref tm.ctx x v at_ (w, r) := by
      rw [Mach.beginXsht_eq hdirty hlt, hm]
      exact congrArg _ hw
    refine ⟨?_, ?_⟩
    · rintro rfl
      exact hacts.congr (hbegin _ rfl)
    · rintro e rfl
      refine ⟨fun hm => hacts.congr ((hbegin _ rfl).trans (Mach.shoot_still hm _ _ _ _ _)), fun hm ha => ?_⟩
      refine ⟨w.dropTranslations tm.ctx (shotCover x e), w.shotStamp tm.ctx x e at_ v,
        hacts.congr ((hbegin _ rfl).trans (Mach.shoot_mig hm ha _ _ _ _ _)), rfl, ?_, mem_dropped_tlb, mem_dropped_tables,
        fun u t ht => thread?_dropped ht, mem_holders, mem_tileHolders, mem_stampHolders⟩
      simp only [Mach.shotStamp, Bool.or_eq_true, beq_iff_eq]
      rfl

end Sys2Proof.Machine
end

section
/-! SUPPORT. PACQ of Die class by a core that owns a line of which its die holds a byte: the state that refutes O31 (07 R130, R131). -/

namespace Sys2Proof.Machine

/-- A byte that another core's Die-class release has left at the die point. -/
def heldAtDie : VByte := {
  pa := 0, byte := 5, ref := { team := 2, tidx := 0 }, core := 1, op := 0, inL1 := true, diePub := true, heldDie := 0, heldFor := 2
  stack := false, atomic := false, seen := [], vis := 0, coreAt := 0, dieAt := 0, l2 := false, word := 0 }

/-- The issuing core's own copy of the byte's line, in E. -/
def ownedLine : L1Line := { core := 0, line := 0, data := List.replicate 128 0, round := 0, owned := true, since := 0 }

def acquireState : State := { callState with
  m := { callState.m with versions := [heldAtDie], l1 := [ownedLine], linemeta := [(0, mkMeta 2 0 0 0)] } }

theorem acquireState_bundle : acquireState.m.bundle = [callLane] := rfl

theorem acquireState_issues : Issues acquireState callTeam where
  team := rfl
  lanes := callState_issues.lanes
  named := callState_issues.named
  apart := callState_issues.apart
  whole := callState_issues.whole
  ready := callState_issues.ready
  narrow := callState_issues.narrow
  quiet := rfl

/-- The first byte of the first copy in the L1s. -/
def firstByte (s : State) : Option Byte := s.m.l1.head?.bind fun c => c.data.head?

/-- The first byte of the copy after PACQ of Die class. -/
def byteAcquired : Option Byte :=
  match exec (.pacq 1) acquireState with
  | .next t => firstByte t
  | _ => none

/-- The core sees in its copy what its die holds. -/
theorem byteAcquired_held : byteAcquired = some 5 := by decide

/-- Refutes O31: an acquire leaves a line that its core owns in the L1, but with the bytes that its die holds in place, not as it stood. -/
theorem not_releasesAcquires : ¬ Obligations.ReleasesAcquires := by
  intro hall
  obtain ⟨-, -, hacq⟩ := hall acquireState callTeam 1 acquireState_issues
  obtain ⟨tr, htr, he⟩ := hacq (by decide) (by decide) (by decide) (fun y hy k g => by
    obtain rfl : y = callLane := List.mem_singleton.1 hy
    exact nofun)
  have hbyte := byteAcquired_held
  rw [htr (by decide)] at he
  simp only [byteAcquired, he] at hbyte
  exact absurd hbyte (by decide)

end Sys2Proof.Machine
end

section
/-! SUPPORT. Tile words entering their unit's queue (13 R205-R218; 24 R365-R368). -/

namespace Sys2Proof.Machine

/-! ### Joining the queue (R205) -/

/-- Whether a tile word counts in the stores class too. -/
def storesTile (i : Instr) : Bool := match i with | .tst .. => true | _ => false

/-- The stores of a lane that its tile word comes after. -/
def Mach.storesBefore (m : Mach) (i : Instr) (t : TRef) : List (TRef × Nat) :=
  match i, m.thread? t with
  | .tld .., some x => (x.ops.filter fun o => o.stores).map fun o => (t, o.id)
  | _, _ => []

/-- A tile operation in flight in a lane. -/
def tileLaneOp (id : Nat) (i : Instr) (dst : Dst) : Op :=
  { id := id, kind := .plain, dst := dst, loads := false, stores := storesTile i, tile := true }

section
variable {m : Mach} {q : TileOp} {t : TRef} {rs : List RV} {dst : Dst}

/-- The first lane of a chain enters its operation in the queue. -/
theorem Mach.joinTile_first (h : ∀ y ∈ m.tileq, y.order ≠ q.order) : m.joinTile q t rs dst =
    ({ m with
      uid := m.uid + 1
      tileq := m.tileq ++ [{ q with
        op := m.uid, lanes := [(t.tidx % 32, t, rs)], before := m.storesBefore q.instr t }] } : Mach).addOp t
      (tileLaneOp m.uid q.instr dst) := by
  have hfind : (m.tileq.find? fun x => x.order == q.order) = none :=
    List.find?_eq_none.2 fun y hy => mt beq_iff_eq.1 (h y hy)
  unfold Mach.joinTile
  dsimp only
  rw [hfind]
  rfl

/-- A further lane joins the operation at the queue's end. -/
theorem Mach.joinTile_next {old : List TileOp} {y : TileOp} (hq : m.tileq = old ++ [y]) (hy : y.order = q.order)
    (h : ∀ y ∈ old, y.order ≠ q.order) : m.joinTile q t rs dst =
    ({ m with tileq := old ++ [{ y with
        lanes := y.lanes ++ [(t.tidx % 32, t, rs)], before := y.before ++ m.storesBefore q.instr t }] } : Mach).addOp t
      (tileLaneOp y.op q.instr dst) := by
  have hold : (old.find? fun x => x.order == q.order) = none := List.find?_eq_none.2 fun y hy => mt beq_iff_eq.1 (h y hy)
  have hfind : (m.tileq.find? fun x => x.order == q.order) = some y := by
    rw [hq, List.find?_append, hold]
    simp [hy]
  have hmap (f : TileOp → TileOp) : (m.tileq.map fun x => if x.order == q.order then f x else x) = old ++ [f y] := by
    have hstay : (old.map fun x => if x.order == q.order then f x else x) = old :=
      (List.map_congr_left (g := id) fun x hx => if_neg (mt beq_iff_eq.1 (h x hx))).trans (List.map_id old)
    rw [hq, List.map_append, List.map_singleton, if_pos (beq_iff_eq.2 hy), hstay]
  unfold Mach.joinTile
  dsimp only
  rw [hfind]
  dsimp only
  rw [hmap]
  rfl

end

/-- The lanes `ts` have joined the tile operation `q`, with the registers `rs` and what each comes after, and have become what
`after` says of them. -/
structure Mach.Joined (m : Mach) (q : TileOp) (rs : Thread → List RV) (bef : Thread → List (TRef × Nat)) (dst : Dst)
    (after : Thread → Thread → Thread) (ts : List Thread) (m' : Mach) : Prop where
  rest   : m' = { m with uid := m.uid + 1, tileq := m'.tileq, threads := m'.threads }
  queue  : m'.tileq = m.tileq ++ [{ q with
    op := m.uid, lanes := ts.map fun t => (t.lane, t.ref, rs t), before := (ts.map bef).flatten }]
  lanes  : ∀ t ∈ ts, ∀ x, m.thread? t.ref = some x → m'.thread? t.ref = some (after t (x.withOp (tileLaneOp m.uid q.instr dst)))
  others : ∀ r, r ∉ refs ts → m'.thread? r = m.thread? r

section
variable {m m' : Mach} {q : TileOp} {rs : Thread → List RV} {bef : Thread → List (TRef × Nat)} {dst : Dst}
  {after : Thread → Thread → Thread} {ts : List Thread} {t : Thread}

/-- A lane joins a tile operation and becomes what `after` says. -/
def Mach.joinAs (q : TileOp) (rs : Thread → List RV) (dst : Dst) (after : Thread → Thread → Thread) (m : Mach) (t : Thread) : Mach :=
  (m.joinTile q t.ref (rs t) dst).updThread t.ref (after t)

theorem Mach.thread?_joined {x : Thread} {op : Op} (ha : ∀ t x, (after t x).ref = x.ref) (hx : m.thread? t.ref = some x) :
    ((m.addOp t.ref op).updThread t.ref (after t)).thread? t.ref = some (after t (x.withOp op)) :=
  Mach.thread?_updThread_same (Mach.thread?_addOp hx op) (ha t)

theorem Mach.thread?_joined_other {op : Op} (ha : ∀ t x, (after t x).ref = x.ref) {r : TRef} (hr : r ≠ t.ref) :
    ((m.addOp t.ref op).updThread t.ref (after t)).thread? r = m.thread? r := by
  rw [Mach.thread?_updThread _ _ _ _ (ha t), if_neg hr, Mach.thread?_addOp_other hr]

theorem Mach.joined_first (ha : ∀ t x, (after t x).ref = x.ref) (hq : ∀ y ∈ m.tileq, y.order ≠ q.order)
    (hb : m.storesBefore q.instr t.ref = bef t) : m.Joined q rs bef dst after [t] (m.joinAs q rs dst after t) := by
  unfold Mach.joinAs
  rw [Mach.joinTile_first hq]
  refine ⟨rfl, ?_, fun u hu x hx => ?_, fun r hr => ?_⟩
  · rw [hb]
    simp [Mach.addOp, Mach.updThread, Thread.lane]
  · rw [List.mem_singleton.1 hu] at hx ⊢
    exact Mach.thread?_joined (m := { m with uid := _, tileq := _ }) ha hx
  · exact Mach.thread?_joined_other (m := { m with uid := _, tileq := _ }) ha (mt List.mem_singleton.2 hr)

theorem Mach.Joined.next (h : m.Joined q rs bef dst after ts m') (ha : ∀ t x, (after t x).ref = x.ref)
    (hq : ∀ y ∈ m.tileq, y.order ≠ q.order) (ht : t.ref ∉ refs ts) (hb : m.storesBefore q.instr t.ref = bef t) :
    m.Joined q rs bef dst after (ts ++ [t]) (m'.joinAs q rs dst after t) := by
  obtain ⟨hrest, hqueue, hlanes, hothers⟩ := h
  have hb' : m'.storesBefore q.instr t.ref = bef t := by
    rw [← hb]
    simp only [Mach.storesBefore, hothers _ ht]
  have hjoin := Mach.joinTile_next (q := q) (t := t.ref) (rs := rs t) (dst := dst) hqueue rfl hq
  dsimp only at hjoin
  unfold Mach.joinAs
  rw [hjoin]
  refine ⟨?_, ?_, fun u hu x hx => ?_, fun r hr => ?_⟩
  · rw [hrest]
    rfl
  · rw [hb']
    simp [Mach.addOp, Mach.updThread, Thread.lane]
  · rcases List.mem_append.1 hu with hu | hu
    · have hut : u.ref ≠ t.ref := fun he => ht (he ▸ List.mem_map_of_mem hu)
      exact (Mach.thread?_joined_other (m := { m' with tileq := _ }) ha hut).trans (hlanes u hu x hx)
    · rw [List.mem_singleton.1 hu] at hx ⊢
      exact Mach.thread?_joined (m := { m' with tileq := _ }) ha ((hothers _ ht).trans hx)
  · have hr' : r ∉ refs ts ∧ r ≠ t.ref := by
      simpa [refs, List.map_append, not_or] using hr
    exact (Mach.thread?_joined_other (m := { m' with tileq := _ }) ha hr'.2).trans (hothers r hr'.1)

/-- The lanes of a bundle join one tile operation (R205). -/
theorem Mach.joined_all (ha : ∀ t x, (after t x).ref = x.ref) (hq : ∀ y ∈ m.tileq, y.order ≠ q.order) (hne : ts ≠ [])
    (hnd : (refs ts).Nodup) (hb : ∀ t ∈ ts, m.storesBefore q.instr t.ref = bef t) :
    m.Joined q rs bef dst after ts (ts.foldl (Mach.joinAs q rs dst after) m) := by
  induction ts using List.reverseRecOn with
  | nil => exact absurd rfl hne
  | append_singleton ts t ih =>
    rw [List.foldl_append, List.foldl_cons, List.foldl_nil]
    cases ts with
    | nil => exact Mach.joined_first ha hq (hb t (by simp))
    | cons u us =>
      have hnd' : (refs (u :: us)).Nodup ∧ t.ref ∉ refs (u :: us) := by
        rw [refs, List.map_append, List.nodup_append] at hnd
        exact ⟨hnd.1, fun h => hnd.2.2 _ h _ (by simp) rfl⟩
      exact (ih (by simp) hnd'.1 fun v hv => hb v (List.mem_append_left _ hv)).next ha hq hnd'.2 (hb t (by simp))

end

/-! ### A tile word in the lanes of its bundle -/

section
variable {s : State} {tm : Team} {i : Instr} {q : TileOp} {rs : Thread → List RV} {bef : Thread → List (TRef × Nat)} {dst : Dst}
  {after : Thread → Thread → Thread}

/-- Nothing that tile words enter in the queue leaves any place but the queue and its lanes. -/
theorem queued_of_joins (h : Issues s tm) (hacts : Acts i s fun m => s.m.bundle.foldl (Mach.joinAs q rs dst after) m)
    (ha : ∀ t x, (after t x).ref = x.ref) (hq : ∀ y ∈ s.m.tileq, y.order ≠ q.order)
    (hb : ∀ th ∈ s.m.bundle, (s.m.advance (refs s.m.bundle) (s.m.wordAddr i.size)).storesBefore q.instr th.ref = bef th) :
    ∃ s', exec i s = .next s' ∧ s.Keeps s' ∧ s'.m.teams = s.m.teams ∧ s'.m.versions = s.m.versions ∧
      s'.m.tileq = s.m.tileq ++ [{ q with
        op := s.m.uid, lanes := s.m.bundle.map fun th => (th.lane, th.ref, rs th), before := (s.m.bundle.map bef).flatten }] ∧
      ∀ th ∈ s.m.bundle, s'.m.thread? th.ref =
        some (after th ((th.onward s.m i.size).withOp (tileLaneOp s.m.uid q.instr dst))) := by
  set m0 := s.m.advance (refs s.m.bundle) (s.m.wordAddr i.size) with hm0
  have hj := Mach.joined_all (m := m0) (q := q) (rs := rs) (bef := bef) (dst := dst) ha hq h.lanes h.apart hb
  obtain ⟨hrest, hqueue, hlanes, -⟩ := hj
  obtain ⟨s', he, hs⟩ := hacts.leaves rfl (tm := tm) (by rw [hrest]; exact h.team) h.quiet (by rw [hrest]; rfl)
    (fun hw => by rw [hrest]; exact hw)
  refine ⟨s', he, fun a hna => (hs.mem a hna).trans ?_, hs.teams.trans ?_, ?_, ?_, fun th hth => ?_⟩
  · rw [hrest]
    rfl
  · rw [hrest]
    rfl
  · rw [hs.rest, hrest]
    rfl
  · rw [hs.rest]
    exact hqueue
  · rw [hs.thread?]
    exact hlanes th hth _ (thread?_advanced h hth i.size)

variable {t0 : Thread} {off : List Thread → Bool} {check : Mach → Team → List Thread → Thread → Thread → Option LaneOut}
  {mk : Mach → Team → Thread → TileOp → TileOp} {join : Mach → Team → Thread → Mach → TileOp → Mach}

/-- A tile word whose checks pass enters its unit's queue. -/
theorem queued_of (h : Issues s tm) (h0 : s.m.bundle.head? = some t0) (horder : ∀ y ∈ s.m.tileq, y.order ≠ s.m.uid)
    (he : exec i s = runWord (tileWord i off check mk join) s) (hb : staticBad s.m tm i = false) (hoff : off s.m.bundle = false)
    (hcheck : ∀ th ∈ s.m.bundle, check s.m tm s.m.bundle t0 th = none)
    (hmk : mk s.m tm t0 (s.m.newTileOp tm t0.ref i s.m.uid) = q) (hqorder : q.order = s.m.uid) (hinstr : q.instr = i)
    (hjoin : ∀ th ∈ s.m.bundle, ∀ m, join s.m tm th m q = m.joinAs q rs dst after th) (ha : ∀ t x, (after t x).ref = x.ref)
    (hbef : ∀ th ∈ s.m.bundle, (s.m.advance (refs s.m.bundle) (s.m.wordAddr i.size)).storesBefore i th.ref = bef th) :
    ∃ s', exec i s = .next s' ∧ s.Keeps s' ∧ s'.m.teams = s.m.teams ∧ s'.m.versions = s.m.versions ∧
      s'.m.tileq = s.m.tileq ++ [{ q with
        op := s.m.uid, lanes := s.m.bundle.map fun th => (th.lane, th.ref, rs th), before := (s.m.bundle.map bef).flatten }] ∧
      ∀ th ∈ s.m.bundle, s'.m.thread? th.ref =
        some (after th ((th.onward s.m i.size).withOp (tileLaneOp s.m.uid i dst))) := by
  have hacts : Acts i s fun m => s.m.bundle.foldl (Mach.joinAs q rs dst after) m := by
    refine acts_of_pass (w := tileWord i off check mk join) (f := fun th m => Mach.joinAs q rs dst after m th) h he rfl hb fun th hth => ?_
    dsimp only [tileWord, laneWord]
    rw [h0, bundle_team? h hth]
    dsimp only
    rw [hoff, hcheck th hth, hmk]
    exact congrArg LaneOut.ok (funext fun m => hjoin th hth m)
  subst hinstr
  exact queued_of_joins h hacts ha (fun y hy => hqorder ▸ horder y hy) hbef

end

/-! ### Their checks -/

theorem Mach.updThread_id (m : Mach) (t : TRef) : (m.updThread t fun x => x) = m := by simp [Mach.updThread]

/-- A lane that joins and changes in nothing else. -/
theorem Mach.joinAs_plain (m : Mach) (q : TileOp) (rs : Thread → List RV) (dst : Dst) (t : Thread) :
    m.joinTile q t.ref (rs t) dst = m.joinAs q rs dst (fun _ x => x) t := (Mach.updThread_id _ _).symm

theorem Mach.latchAddr_order (m : Mach) (tm : Team) (t : Thread) (a : Nat) (w : Bool) (q : TileOp) :
    (m.latchAddr tm t a w q).order = q.order := by
  unfold Mach.latchAddr
  split <;> rfl

theorem Mach.latchAddr_instr (m : Mach) (tm : Team) (t : Thread) (a : Nat) (w : Bool) (q : TileOp) :
    (m.latchAddr tm t a w q).instr = q.instr := by
  unfold Mach.latchAddr
  split <;> rfl

/-- Pages with D set stand as they are. -/
theorem Mach.dirtyPages_clean {m : Mach} {tm : Team} {t : Thread} {p : Nat}
    (h : ∀ q ∈ m.pieces tm t 16 p 49152, ∀ l, q.2.2 = .ok l → pteD l.bits = true) (m' : Mach) : m.dirtyPages tm t p m' = m' := by
  have hone (x : Mach) (q : Nat × Nat × Trans) (hq : q ∈ m.pieces tm t 16 p 49152) :
      (match q.2.2 with | .ok l => x.setDirty l | _ => x) = x := by
    split
    next l hl => exact Mach.setDirty_dirty (h q hq l hl)
    next => rfl
  unfold Mach.dirtyPages
  refine List.foldlRecOn (motive := fun x => x = m') _ _ rfl fun x hx q hq => ?_
  rw [hx]
  exact hone m' q hq

/-- A block of one tag that tiles take. -/
theorem blockFits_of {a : Reg} {t0 t : Thread} {w : Tag} (hw : w ∈ [Tag.i32, .f32, .f64]) (h0 : t0.tagAt a.toNat = w)
    (h : ∀ j < 8, t.tagAt (a.toNat + j) = w) : blockFits a t0 t = true := by
  have hhead : t.tagAt a.toNat = w := h 0 (by decide)
  have hall : (t.block a.toNat 8).all (fun v => v.tag == w) = true := by
    simp only [Thread.block, List.all_map, List.all_eq_true, List.mem_range, Function.comp_apply, beq_iff_eq]
    exact h
  unfold blockFits
  rw [hhead, h0, hall, beq_self_eq_true]
  simp only [List.mem_cons, List.not_mem_nil, or_false] at hw
  rcases hw with rfl | rfl | rfl <;> rfl

theorem block_all {t : Thread} {r k : Nat} {g : Tag} (h : ∀ j < k, t.tagAt (r + j) = g) :
    (t.block r k).all (fun v => v.tag == g) = true := by
  simp only [Thread.block, List.all_map, List.all_eq_true, List.mem_range, Function.comp_apply, beq_iff_eq]
  exact h

theorem tsclCheck_f32 {m : Mach} {tm : Team} {t : Thread} {td : TIx} {a : Reg} (hg : m.tagOf tm td = .f32)
    (h : ∀ j < 2, t.tagAt (a.toNat + j) = .f32) : tsclCheck td a m tm t = none := by
  unfold tsclCheck
  rw [hg]
  exact if_pos (block_all h)

theorem tsclCheck_f64 {m : Mach} {tm : Team} {t : Thread} {td : TIx} {a : Reg} (hg : m.tagOf tm td = .f64)
    (ha : a.toNat % 4 = 0) (hr : a.toNat + 4 ≤ tm.regs) (h : ∀ j < 4, t.tagAt (a.toNat + j) = .f64) :
    tsclCheck td a m tm t = none := by
  have hbad : (a.toNat % 4 != 0 || decide (tm.regs < a.toNat + 4)) = false := by simp [ha, hr]
  unfold tsclCheck
  rw [hg]
  dsimp only
  rw [hbad, if_neg Bool.false_ne_true]
  exact if_pos (block_all h)

theorem areaCheck_of {lo hi v p : Nat} {w : Bool} {a b : Reg} {m : Mach} {tm : Team} {t0 t : Thread} (hp : t0.pairIs b p)
    (ha : t0.i32At a = some v) (hlo : lo ≤ v) (hhi : v ≤ hi) (haddr : m.tileAddr tm t0 p 4096 w false = none) :
    areaCheck lo hi w a b m tm t0 t = none := by
  have hin : (v < lo || hi < v) = false := by simp [hlo, hhi]
  unfold areaCheck
  rw [Thread.pairAt_of_pairIs hp, ha]
  dsimp only
  rw [haddr]
  simp [hlo, hhi]

/-! ### TMMA -/

section
variable {m : Mach} {tm : Team} {t t0 : Thread} {td : TIx} {a b : Reg} {ext : Option TmmaExt} {h : Shape} {f : BFmt} {p off : Nat}
  {bundle : List Thread}

/-- The bundle's shape is the lowest lane's, which gives the format of B or admits the extension's. -/
theorem tmmaShape_head (h0 : bundle.head? = some t0) (hshape : laneShape a t0 = some h) (hb : bFormat a ext t0 = some f)
    (hf : f ∈ h.fmts) (hown : (∃ e, ext = some e ∧ e.bfmt = some f) ∨ h.own = some f) : tmmaShape a f ext bundle = some h := by
  obtain ⟨us, rfl⟩ : ∃ us, bundle = t0 :: us := by
    cases bundle with
    | nil => exact absurd h0 (by simp)
    | cons u us => exact ⟨us, by rw [Option.some.inj h0]⟩
  unfold tmmaShape
  split
  next => simp [hshape, Option.filter, hf]
  next hno =>
    have hown' : h.own = some f := hown.resolve_left fun ⟨e, he, hef⟩ => by
      obtain ⟨d, fl, tr, bf⟩ := e
      subst hef
      exact hno _ _ _ _ he
    simp [hshape, Option.filter, hown']

/-- A lane whose A block has the bundle's shape fits. -/
theorem tmmaLaneFits_of {g : Shape} (hg : laneShape a t = some g) (hk : g.k = h.k) (hf : f ∈ g.fmts) (htile : g.tile = h.tile)
    (ht : h.tile = m.tagOf tm td)
    (h64 : h.k = 64 → ((aBlock a t).getD 8 rv0).tag = .i32 ∧ ((aBlock a t).getD 9 rv0).tag = .f32) :
    tmmaLaneFits td a f h m tm t = true := by
  unfold tmmaLaneFits
  rw [hg]
  dsimp only
  by_cases hk64 : h.k = 64
  · have htags := h64 hk64
    simp only [List.getD_eq_getElem?_getD] at htags
    simp [hk, hf, htile, ht, htags]
  · simp [hk, hf, htile, ht, hk64]

/-- An address of the own scratchpad from which all of B lies in it. -/
theorem Mach.resolve_scratch (ho : tm.own p 1 off) {n : Nat} (hn : off + n ≤ 4096 * tm.scr) : m.resolve tm p n = .scratch tm.uid off := by
  obtain ⟨hp, -, hoff, -⟩ := ho
  have h1 : p / 2 ^ 56 = 0xFC := by omega
  have h2 : p / 2 ^ 32 % 2 ^ 24 = 0 := by omega
  have h3 : p % 2 ^ 32 = off := by omega
  simp only [Mach.resolve, h1, h2, h3]
  exact inScratch_of_fits hn

theorem tmmaCheck_of (hlatch : ∀ x ∈ bundle, ∀ l, x.latch = some l → l.a = a.toNat) (hp : t0.pairIs b p)
    (hb : bFormat a ext t0 = some f) (hshape : tmmaShape a f ext bundle = some h) (hfits : tmmaLaneFits td a f h m tm t = true)
    (hregs : h.k = 64 → a.toNat + 10 ≤ tm.regs) (hal : p % 64 = 0) (ho : tm.own p 1 off)
    (hn : off + bBytes h.k f ≤ 4096 * tm.scr) : tmmaCheck td a b ext m tm bundle t0 t = none := by
  have hany : (bundle.any fun x => match x.latch with | some l => l.a != a.toNat | none => false) = false := by
    rw [List.any_eq_false]
    intro x hx
    cases hxl : x.latch with
    | none => simp
    | some l => simp [hlatch x hx l hxl]
  have hkn : (blockTag (aBlock a t) == some .kn4x8 && t.latch.isNone && decide (tm.regs < a.toNat + 10)) = false := by
    by_cases hg : blockTag (aBlock a t) = some .kn4x8
    · have hk : h.k = 64 := by
        unfold tmmaLaneFits at hfits
        rw [laneShape, hg] at hfits
        simp [shapeOf] at hfits
        exact hfits.1.1.1.symm
      simp [hregs hk]
    · simp [hg]
  have htop : (p / 2 ^ 56 != 0xFF) = true := by
    obtain ⟨hx, -, hoff, -⟩ := ho
    exact bne_iff_ne.2 (by omega)
  unfold tmmaCheck
  refine (if_neg (ne_of_eq_of_ne hany Bool.false_ne_true)).trans ?_
  rw [Thread.pairAt_of_pairIs hp, hb]
  dsimp only
  rw [hkn, if_neg Bool.false_ne_true, hshape]
  dsimp only
  rw [hfits, hal, Mach.resolve_scratch ho hn]
  dsimp only
  rw [htop, beq_self_eq_true]
  rfl

/-- The latch that a TMMA leaves (13 R209). -/
theorem latchAfter_eq (ru : Bool) (a : Reg) (t : Thread) :
    latchAfter ru a t = if ru then some (t.latch.getD { a := a.toNat, regs := t.block a.toNat 10 }) else none := by
  unfold latchAfter aBlock
  cases t.latch <;> rfl

end

/-- Settles O38. -/
theorem tileWords : Obligations.TileWords := by
  intro s tm t0 hi h0 horder queued plain stored clean td ta a b g r n o ru ext p v
  have hplain {i : Instr} (hs : storesTile i = false)
      (hn : ∀ m th, Mach.storesBefore m i th = [])
      (he : exec i s = runWord (tileWord i neverOff (fun _ _ _ _ _ => none) (fun _ _ _ q => q) joinPlain) s) : plain i := by
    intro hb
    obtain ⟨s', h1, h2, h3, h4, h5, h6⟩ := queued_of (rs := fun _ => []) (dst := .none) (after := fun _ x => x) (bef := fun _ => []) hi h0 horder he hb rfl (fun _ _ => rfl) rfl rfl rfl
      (fun th _ m => Mach.joinAs_plain m _ (fun _ => []) _ th) (fun _ _ => rfl) fun _ _ => hn _ _
    refine ⟨s', h1, h2, h3, h4, h5, fun th hth => (h6 th hth).trans ?_⟩
    rw [tileLaneOp, hs]
    rfl
  have hsome (h : ∃ th ∈ s.m.bundle, th.helper = false) : allHelpers s.m.bundle = false := by
    obtain ⟨th, hth, hr⟩ := h
    exact List.all_eq_false.2 ⟨th, hth, by simp [hr]⟩
  refine ⟨hplain rfl (fun _ _ => rfl) rfl, hplain rfl (fun _ _ => rfl) rfl, fun hb => ?_, fun hw hb => ?_, fun hg hb => ?_, fun hg hb => ?_,
    fun hp => ⟨fun haddr hb => ?_, fun haddr hclean hreal hb => ?_, fun ha hv => ⟨fun hle haddr hclean hreal hb => ?_,
      fun hlo hhi haddr hb => ?_⟩, fun h f off hlanes hshape hregs hfmt hf hown htile hal ho hn hb => ?_⟩⟩
  · exact queued_of (after := fun _ x => x) hi h0 horder rfl hb rfl (fun _ _ => rfl) rfl rfl rfl
      (fun th _ m => Mach.joinAs_plain m _ (fun _ => []) _ th) (fun _ _ => rfl) fun _ _ => rfl
  · refine queued_of (after := fun _ x => x) hi h0 horder rfl hb rfl (fun th hth => ?_) rfl rfl rfl
      (fun th _ m => Mach.joinAs_plain m _ (fun th => th.block a.toNat 8) _ th) (fun _ _ => rfl) fun _ _ => rfl
    obtain ⟨w, hin, h0, hall⟩ := hw th hth
    exact if_pos (blockFits_of hin h0 hall)
  · refine queued_of (after := fun _ x => x) hi h0 horder rfl hb rfl (fun th hth => ?_) rfl rfl rfl
      (fun th _ m => Mach.joinAs_plain m _ (fun th => th.block a.toNat 4) _ th) (fun _ _ => rfl) fun _ _ => rfl
    rcases hg with ⟨hg, hall⟩ | ⟨hg, ha, hr, hall⟩
    · exact tsclCheck_f32 hg (hall th hth)
    · exact tsclCheck_f64 hg ha hr (hall th hth)
  · refine queued_of (after := fun _ x => x) hi h0 horder rfl hb rfl (fun th hth => ?_) rfl rfl rfl
      (fun th _ m => Mach.joinAs_plain m _ (fun _ => []) _ th) (fun _ _ => rfl) fun _ _ => rfl
    refine if_neg ?_
    rw [Bool.and_eq_true, beq_iff_eq]
    rintro ⟨h64, hbad⟩
    obtain ⟨heven, hr⟩ := hg h64
    simp only [heven, bne_self_eq_false, Bool.false_or, decide_eq_true_eq] at hbad
    omega
  · have hpair := Thread.pairAt_of_pairIs hp
    refine queued_of (q := s.m.latchAddr tm t0 p false (s.m.newTileOp tm t0.ref (.tld td g b) s.m.uid)) (rs := fun _ => []) (dst := .none)
      (bef := stored) (after := fun _ x => x) hi h0 horder rfl hb rfl (fun _ _ => ?_) ?_ (Mach.latchAddr_order _ _ _ _ _ _)
      (Mach.latchAddr_instr _ _ _ _ _ _) (fun th _ m => Mach.joinAs_plain m _ (fun _ => []) _ th) (fun _ _ => rfl) fun th hth => ?_
    · simp only [hpair, haddr]
    · simp only [hpair, Option.getD_some]
    · simp only [Mach.storesBefore, thread?_advanced hi hth]
      rfl
  · have hpair := Thread.pairAt_of_pairIs hp
    refine queued_of (q := s.m.latchAddr tm t0 p true (s.m.newTileOp tm t0.ref (.tst td b) s.m.uid)) (rs := fun _ => []) (dst := .none)
      (bef := fun _ => []) (after := fun _ x => x) hi h0 horder rfl hb (hsome hreal) (fun _ _ => ?_) ?_ (Mach.latchAddr_order _ _ _ _ _ _)
      (Mach.latchAddr_instr _ _ _ _ _ _) (fun th _ m => ?_) (fun _ _ => rfl) fun _ _ => rfl
    · simp only [hpair, haddr]
    · simp only [hpair, Option.getD_some]
    · simp only [h0, hpair, Option.getD_some, Mach.dirtyPages_clean hclean, ite_self]
      exact Mach.joinAs_plain m _ (fun _ => []) _ th
  · have hpair := Thread.pairAt_of_pairIs hp
    have hi32 : t0.i32At a = some v := by rw [Thread.i32At_of_tag ha, hv]
    refine queued_of (q := { s.m.latchAddr tm t0 p true (s.m.newTileOp tm t0.ref (.tspl td a b) s.m.uid) with num := v })
      (rs := fun _ => []) (dst := .none) (bef := fun _ => []) (after := fun _ x => x) hi h0 horder rfl hb (hsome hreal)
      (fun _ _ => areaCheck_of hp hi32 (Nat.zero_le _) hle haddr) ?_ (Mach.latchAddr_order _ _ _ _ _ _)
      (Mach.latchAddr_instr _ _ _ _ _ _) (fun th _ m => ?_) (fun _ _ => rfl) fun _ _ => rfl
    · simp only [areaLatch, hpair, hi32, Option.getD_some]
    · simp only [h0, hpair, Option.getD_some, Mach.dirtyPages_clean hclean]
      exact Mach.joinAs_plain m _ (fun _ => []) _ th
  · have hpair := Thread.pairAt_of_pairIs hp
    have hi32 : t0.i32At a = some v := by rw [Thread.i32At_of_tag ha, hv]
    refine queued_of (q := { s.m.latchAddr tm t0 p false (s.m.newTileOp tm t0.ref (.tfch td a b) s.m.uid) with num := v })
      (rs := fun _ => []) (dst := .none) (bef := fun _ => []) (after := fun _ x => x) hi h0 horder rfl hb rfl
      (fun _ _ => areaCheck_of hp hi32 hlo hhi haddr) ?_ (Mach.latchAddr_order _ _ _ _ _ _)
      (Mach.latchAddr_instr _ _ _ _ _ _) (fun th _ m => Mach.joinAs_plain m _ (fun _ => []) _ th) (fun _ _ => rfl) fun _ _ => rfl
    simp only [areaLatch, hpair, hi32, Option.getD_some]
  · have hpair := Thread.pairAt_of_pairIs hp
    have hbundle := tmmaShape_head h0 hshape hfmt hf hown
    have hcheck : ∀ th ∈ s.m.bundle, tmmaCheck td a b ext s.m tm s.m.bundle t0 th = none := fun th hth => by
      obtain ⟨-, ⟨g, hg, hk, hfg, hgt⟩, h64⟩ := hlanes th hth
      exact tmmaCheck_of (fun x hx => (hlanes x hx).1) hp hfmt hbundle (tmmaLaneFits_of hg hk hfg hgt htile h64) hregs hal ho hn
    obtain ⟨s', h1, h2, h3, h4, h5, h6⟩ := queued_of (q := { s.m.newTileOp tm t0.ref (.tmma td a b ru ext) s.m.uid with
        addr := some (.scratch tm.uid off), num := bBytes h.k f, fmt := f }) (rs := aBlock a) (dst := .none) (bef := fun _ => [])
      (after := fun t x => { x with latch := latchAfter ru a t }) hi h0 horder rfl hb rfl hcheck
      (by simp only [hpair, Option.getD_some, Mach.resolve_own _ ho, hfmt, hbundle]) rfl rfl (fun _ _ _ => rfl) (fun _ _ => rfl) fun _ _ => rfl
    refine ⟨s', h1, h2, h3, h4, h5, fun th hth => (h6 th hth).trans ?_⟩
    rw [latchAfter_eq]
    rfl

end Sys2Proof.Machine
end

section
/-! SUPPORT. A lane that enters its handler once its results are in: the state that refutes O39 (16 R240; 17 R256). -/

namespace Sys2Proof.Machine

/-- What a lane with TRAP's cause has to enter its handler with. -/
def enteringInfo : TrapInfo := {
  cause := 0x40, pc := 3, inst := 0, mask := 1, addr := 0, exc := 0, sub := sub0, dst := .none, resume := 3 }

/-- The lane of `callState` as it waits to enter its handler. -/
def enteringLane : Thread := { callLane with wait := .entering enteringInfo }

def enteringState : State := { callState with m := { callState.m with threads := [enteringLane] } }

/-- The cycle from which on the lane stands with those that became ready, after HANDLER_ENTRY. -/
def enteringAfter (s : State) : Option Nat :=
  match exec (.handlerEntry enteringLane.ref) s with
  | .next t => (t.m.thread? enteringLane.ref).map fun x => x.joined
  | _ => none

/-- The lane stands with those that became ready in this cycle. -/
theorem enteringAfter_enteringState : enteringAfter enteringState = some 1 := by decide

/-- Refutes O39: HANDLER_ENTRY also notes in the lane that it became ready in this cycle, so that it is in a bundle from the next one on. -/
theorem not_threadEvents : ¬ Obligations.ThreadEvents := by
  intro hall
  obtain ⟨-, hentry, -⟩ := hall enteringState enteringLane.ref enteringLane callTeam rfl rfl
  have he := hentry enteringInfo rfl (Or.inl rfl) (by decide) (by decide) (by decide)
  have hjoined := enteringAfter_enteringState
  unfold enteringAfter at hjoined
  rw [he] at hjoined
  exact absurd hjoined (by decide)

end Sys2Proof.Machine
end

section
/-! SUPPORT. A load that returns with a line to drop: the state that refutes O40 (07 R136; 22 R339). -/

namespace Sys2Proof.Machine

/-- A load of a word of an NC page at its home. -/
def droppingReq : LoadReq := {
  pa := 0, va := 0, size := 4, nc := true, alloc := false, bound := none, copy := none, data := none, word := 0 }

/-- That load, its completion to drop the clean copy of line 0. -/
def droppingLoad : Op := {
  id := 0, kind := .load droppingReq, dst := .regs 0 .i32 1, loads := true, stores := false, tile := false, drop := some 0 }

def droppingLane : Thread := { callLane with ops := [droppingLoad] }

/-- A clean copy of line 0 in the lane's core. -/
def cleanCopy : L1Line := { core := 0, line := 0, data := List.replicate 128 0, round := 0, owned := false, since := 0 }

def droppingState : State := { callState with m := { callState.m with threads := [droppingLane], l1 := [cleanCopy] } }

/-- How many lines the L1s hold after the load has returned. -/
def droppingAfter (s : State) : Option Nat :=
  match exec (.loadReturn droppingLane.ref 0) s with
  | .next t => some t.m.l1.length
  | _ => none

theorem droppingAfter_droppingState : droppingAfter droppingState = some 0 := by decide

/-- Refutes O40: the return of a load that names a line to drop takes the clean copy of that line from the L1. -/
theorem not_completions : ¬ Obligations.Completions := by
  intro hall
  obtain ⟨-, hload, -⟩ := hall droppingState droppingLane.ref droppingLane callTeam rfl rfl (by decide)
  obtain ⟨hnc, -⟩ := hload droppingLoad droppingReq 0 .i32 rfl rfl rfl rfl rfl rfl rfl ⟨by decide, by decide⟩ (by decide) (by decide)
  obtain ⟨m, ⟨⟨he, -⟩, -⟩, hl1⟩ := hnc rfl rfl
  have hlines := droppingAfter_droppingState
  unfold droppingAfter at hlines
  rw [show (0 : Nat) = droppingLoad.id from rfl, he] at hlines
  dsimp only at hlines
  rw [hl1] at hlines
  exact absurd hlines (by decide)

end Sys2Proof.Machine
end

section
/-! SUPPORT. A release in a lane whose name a second thread bears: the state that refutes O41 (07 R130). -/

namespace Sys2Proof.Machine

/-- A Core-class release of the word `upto`. -/
def coreRelease (upto : Nat) : Release := { cls := 0, upto := upto, regions := [], lines := [], counted := false }

def releasingLane : Thread := { callLane with release := some (coreRelease 1) }

/-- A thread of the same name, in a release of another word. -/
def namesakeLane : Thread := { callLane with release := some (coreRelease 2) }

def releasingState : State := { callState with m := { callState.m with threads := [releasingLane, namesakeLane] } }

/-- The words whose releases have still to end. -/
def releasingAfter (s : State) : Option (List (Option Nat)) :=
  match exec (.publicationComplete callLane.ref) s with
  | .next t => some (t.m.threads.map fun x => x.release.map fun r => r.upto)
  | _ => none

theorem releasingAfter_releasingState : releasingAfter releasingState = some [none, none] := by decide

/-- Refutes O41: a release that ends, ends in every thread of its lanes' names, be it of another word. -/
theorem not_releases : ¬ Obligations.Releases := by
  intro hall
  obtain ⟨hcore, -⟩ := hall releasingState callLane.ref releasingLane (coreRelease 1) rfl rfl (by decide)
  obtain ⟨m, ⟨he, -, hthreads⟩, -⟩ := hcore rfl
  have hafter := releasingAfter_releasingState
  unfold releasingAfter at hafter
  rw [he] at hafter
  dsimp only at hafter
  rw [hthreads] at hafter
  exact absurd hafter (by decide)

end Sys2Proof.Machine
end

section
/-! SUPPORT. Coherence events: partials, ownership, recalls, pushes and invalidations (05 R102; 07 R137-R140, R384). -/

namespace Sys2Proof.Machine

section
variable {m : Mach} {core line : Nat}

theorem lineOf_of_line (h : line % 128 = 0) : lineOf line = line := by
  unfold lineOf
  omega

/-- A core that the home grants a line it has a copy of takes it with no data (07 R138). -/
theorem Mach.takeOwnership_bare {c : L1Line} (hcore : core < 128) (hs : stateOf (m.meta line) = 1)
    (hsh : (sharersOf (m.meta line)).testBit (dieOf core) = true) (hc : m.l1? core line = some c) (st : Nat) :
    m.Took (m.takeOwnership core line st) core line st c.data ∧
      (m.takeOwnership core line st).l1? core line = some { c with owned := true } := by
  have hown : (m.ownerOf? line == some core) = false := by
    rw [Mach.ownerOf?, hs]
    rfl
  have hbare : m.grantsBare core line = true := by
    rw [Mach.grantsBare, hs, hsh, hc]
    simp [hcore]
  have hcopy : (m.takeOwnership core line st).l1? core line = some { c with owned := true } := by
    unfold Mach.takeOwnership
    dsimp only
    rw [hown, if_neg Bool.false_ne_true, hbare, if_pos rfl]
    show List.find? (fun c => c.core == core && c.line == line) ((m.dropCopies line core).l1.map (L1Line.taken core line)) = _
    have hfind := Mach.l1?_dropCopies m line core
    rw [hc] at hfind
    have hp (x : L1Line) : ((fun c : L1Line => c.core == core && c.line == line) ∘ L1Line.taken core line) x =
        (x.core == core && x.line == line) := by
      unfold L1Line.taken
      dsimp only [Function.comp]
      split <;> rfl
    rw [List.find?_map, funext hp]
    exact (congrArg (Option.map _) hfind).trans (congrArg some (if_pos (List.find?_some hc)))
  refine ⟨⟨?_, ?_, ⟨_, hcopy, rfl, rfl⟩, fun y hy hyl => ?_⟩, hcopy⟩
  all_goals
    unfold Mach.takeOwnership at *
    dsimp only at *
    rw [hown, if_neg Bool.false_ne_true, hbare, if_pos rfl] at *
  · rfl
  · exact (Mach.meta_setMeta _ _ _ _).trans (if_pos rfl)
  · obtain ⟨z, hz, rfl⟩ := List.mem_map.1 hy
    have hzl : z.line = line := by
      split at hyl <;> exact hyl
    have := Mach.dropCopies_alone hz hzl
    split <;> exact this

/-- An upgrade of a line that is not poisoned takes it in E. -/
theorem Mach.upgrade_takes (hcore : core < 128) (hp : m.poisoned line = false) (hline : line % 128 = 0) :
    m.upgrade core line = m.takeOwnership core line 2 := by
  rw [Mach.upgrade, if_neg (Nat.not_le.2 hcore), hp, if_neg Bool.false_ne_true, lineOf_of_line hline]

/-- An upgrade of a poisoned line is the requester's imprecise fault. -/
theorem Mach.upgrade_poisoned {tm : Team} (hcore : core < 128) (hp : m.poisoned line = true) (hline : line % 128 = 0)
    (ht : m.teamsAt core = [tm]) : m.upgrade core line =
      ({ m with free := m.free + 1 } : Mach).meet tm.uid { cause := 0x30, addr := BitVec.ofNat 64 line, thread := none } := by
  have hreq : m.requester core = ({ m with free := m.free + 1 }, some tm.uid) := by
    rw [Mach.requester, ht]
    rfl
  rw [Mach.upgrade, if_neg (Nat.not_le.2 hcore), hp, if_pos rfl, hreq, lineOf_of_line hline]

/-- A team that an imprecise fault waits for of which its core has not learned (16 R244). -/
def Team.unaware (i : Imprecise) (t : Team) : Team := { t with latent := t.latent ++ [i] }

/-! ### Recalls (07 R384) -/

theorem Mach.leaveTrail_rest (m : Mach) (bs : List (Nat × Nat × Nat × Nat)) :
    m.leaveTrail bs = { m with uid := (m.leaveTrail bs).uid, trail := (m.leaveTrail bs).trail } := by
  unfold Mach.leaveTrail
  split <;> rfl

/-- What a core gives back that has one byte of the line which an atomic wrote. -/
theorem Mach.recallCore_byte {b : VByte} (hv : m.versions = [b]) (ha : b.atomic = true) (hl : lineOf b.pa = line) :
    (m.recallCore line b.core).mem = m.mem.set b.pa b.byte ∧ (m.recallCore line b.core).versions = [] ∧
      (m.recallCore line b.core).teams = m.teams ∧ (m.recallCore line b.core).linemeta = m.linemeta := by
  have htake : (m.versions.filter fun x => x.atomic && (x.core == b.core && lineOf x.pa == line)) = [b] := by
    simp [hv, ha, hl]
  unfold Mach.recallCore
  dsimp only
  rw [htake, Mach.leaveTrail_rest]
  refine ⟨rfl, ?_, rfl, rfl⟩
  simp [Mach.copyBytes, Mach.dropOwned, hv, ha, hl]

/-- An owned line whose owner has one byte of it that an atomic wrote gives that back and stays shared with its owner. -/
theorem Mach.recall_byte {b : VByte} (hs : stateOf (m.meta line) ∈ [2, 3, 4]) (hv : m.versions = [b]) (ha : b.atomic = true)
    (hb : b.core = ownerOf (m.meta line)) (hcore : b.core < 128) (hl : lineOf b.pa = line) :
    (m.recall line).mem = m.mem.set b.pa b.byte ∧ (m.recall line).versions = [] ∧ (m.recall line).teams = m.teams ∧
      (m.recall line).meta line = mkMeta 1 0 (sharersOf (m.meta line) ||| sharerBit b.core) ((m.meta line).toNat % 2) ∧
      ∀ y ∈ (m.recall line).l1, y.core = b.core → y.line = line → y.owned = false := by
  have hown : m.ownerOf? line = some b.core := by
    have hstate : (stateOf (m.meta line) == 2 || stateOf (m.meta line) == 3 || stateOf (m.meta line) == 4) = true := by
      simpa [or_assoc] using hs
    rw [Mach.ownerOf?, hb]
    exact if_pos hstate
  have hchiplet : (decide (0x80 ≤ b.core) && decide (b.core < 0x8C)) = false := by
    rw [decide_eq_false (by omega)]
    rfl
  have hpeer : (b.core == 0xFF) = false := beq_eq_false_iff_ne.2 (by omega)
  obtain ⟨hmem, hver, hteams, hmeta⟩ := Mach.recallCore_byte hv ha hl
  have hrec : m.recall line = (({ m.recallCore line b.core with
      l1 := (m.recallCore line b.core).l1.map fun (c : L1Line) =>
        if c.line == line && c.core == b.core then { c with owned := false } else c } : Mach).setMeta line
      (mkMeta 1 0 (sharersOf (m.meta line) ||| sharerBit b.core) ((m.meta line).toNat % 2))).noteLine line 128 := by
    unfold Mach.recall
    rw [hown]
    dsimp only
    simp only [hchiplet, hpeer, if_pos hcore, Bool.false_eq_true, if_false]
  rw [hrec]
  refine ⟨hmem, hver, hteams, (Mach.meta_setMeta _ _ _ _).trans (if_pos rfl), fun y hy hyc hyl => ?_⟩
  obtain ⟨c, -, rfl⟩ := List.mem_map.1 hy
  by_cases hc : (c.line == line && c.core == b.core) = true
  · rw [if_pos hc]
  · rw [if_neg hc] at hyc hyl
    exact absurd (by rw [hyc, hyl]; simp) hc

/-- A sharer's bit among others. -/
theorem sharerBit_in {core sh : Nat} (hcore : core < 128) (hsh : sh < 16) :
    sh ||| sharerBit core < 16 ∧ (sh ||| sharerBit core).testBit (dieOf core) = true := by
  have hbit : sharerBit core = 2 ^ (core / 32) := if_pos hcore
  have hlt : 2 ^ (core / 32) < 2 ^ 4 := Nat.pow_lt_pow_right (by decide) (by omega)
  rw [hbit]
  exact ⟨Nat.or_lt_two_pow (n := 4) hsh hlt, by simp [dieOf, Nat.testBit_or, Nat.testBit_two_pow_self]⟩

theorem sharersOf_mkMeta {st core sharers rsh : Nat} (hs : st < 8) (hc : core < 256) (hsh : sharers < 16) (hr : rsh < 2) :
    sharersOf (mkMeta st core sharers rsh) = sharers := by
  rw [sharersOf, mkMeta_toNat hs hc hsh hr]
  omega

end

/-- Settles O42. -/
theorem coherenceEvents : Obligations.CoherenceEvents := by
  intro s core line die region hline goes
  refine ⟨?_, fun hcore hh hnone hset => ?_, fun c hcore hs hsh hc => ?_, fun tm hcore hp hat ht => ?_, fun b hw hs hv ha hb hcore hl => ?_,
    ?_, fun hspace hh => ?_⟩
  · have hmap : (s.m.partials.map fun (p : Partial) => if p.core == core && p.line == line then { p with home := true } else p) =
        s.m.partials.map fun p => { p with home := p.home || (p.core == core && p.line == line) } := by
      refine List.map_congr_left fun p _ => ?_
      cases h : p.core == core && p.line == line <;> simp
    exact congrArg (fun ps => Host.Outcome.next { s with m := { s.m with partials := ps } }) hmap
  · have hl := lineOf_of_line hline
    obtain ⟨hrest, hentry, ⟨c, hc, hcown, hdata⟩, halone⟩ := Mach.takeOwnership_home (core := core) hh 2 (hl.symm ▸ hset)
    rw [hl] at hrest hentry hc hdata halone
    refine ⟨s.m.upgrade core line, c, rfl, ?_⟩
    rw [Mach.upgrade_takes hcore (Mach.poisoned_home hh) hline]
    refine ⟨by rw [hrest], by rw [hrest], ?_, ?_, hc, hcown, ?_, halone⟩
    · rw [hentry]
      exact stateOf_mkMeta (by decide) (by omega) (by decide) (by decide)
    · rw [hentry]
      exact ownerOf_mkMeta (by decide) (by omega) (by decide) (by decide)
    · rw [hdata, Mach.grantData, hnone]
      rfl
  · have hp : s.m.poisoned line = false := by
      rw [Mach.poisoned, lineOf_of_line hline, hs]
      rfl
    obtain ⟨⟨hrest, hentry, -, halone⟩, hcopy⟩ := Mach.takeOwnership_bare hcore hs hsh hc 2
    refine ⟨s.m.upgrade core line, rfl, ?_⟩
    rw [Mach.upgrade_takes hcore hp hline]
    refine ⟨by rw [hrest], by rw [hrest], ?_, ?_, hcopy, halone⟩
    · rw [hentry]
      exact stateOf_mkMeta (by decide) (by omega) (by decide) (by decide)
    · rw [hentry]
      exact ownerOf_mkMeta (by decide) (by omega) (by decide) (by decide)
  · refine ⟨s.m.upgrade core line, rfl, ?_⟩
    rw [Mach.upgrade_poisoned hcore hp hline hat]
    exact ⟨rfl, rfl, rfl, (Mach.team?_updTeam { s.m with free := s.m.free + 1 } tm.uid (Team.unaware _) fun _ => rfl).trans (congrArg _ ht)⟩
  · obtain ⟨hmem, hver, hteams, hmeta, howned⟩ := Mach.recall_byte hs hv ha hb hcore hl
    have hsh := sharerBit_in hcore (sharersOf_lt (s.m.meta line))
    have hrsh : (s.m.meta line).toNat % 2 < 2 := Nat.mod_lt _ (by decide)
    refine ⟨s.m.recall line, congrArg (fun l => Host.Outcome.next { s with m := s.m.recall l } : Nat → Host.Outcome State Fault Refusal)
      (lineOf_of_line hline), ?_, hver, hteams,
      ?_, ?_, howned⟩
    · rw [hmem]
      exact fun x => Memory.get_write b.pa x [b.byte] hw
    · rw [hmeta]
      exact stateOf_mkMeta (by decide) (by decide) hsh.1 hrsh
    · rw [hmeta, sharersOf_mkMeta (by decide) (by decide) hsh.1 hrsh]
      exact hsh.2
  · have hmap : (s.m.mirrors.map fun (e : Nat × Nat × Word) =>
          if e.1 == die && e.2.1 == region then (die, region, s.m.round region) else e) =
        s.m.mirrors.map fun e => if e.1 = die ∧ e.2.1 = region then (die, region, s.m.round region) else e := by
      refine List.map_congr_left fun e _ => ?_
      simp only [Bool.and_eq_true, beq_iff_eq]
    exact congrArg (fun es => Host.Outcome.next { s with m := { s.m with mirrors := es } }) hmap
  · have hl := lineOf_of_line hline
    refine ⟨s.m.peerInvalidate line, rfl, ?_⟩
    have hstate : stateOf (s.m.meta line) ≤ 1 := hl ▸ hh.1
    rw [Mach.peerInvalidate, if_pos (beq_iff_eq.2 hspace), hl, Mach.recall_home hstate]
    refine ⟨rfl, fun y => ?_⟩
    simp [Mach.dropCopies, List.mem_filter, imp_iff_not_or]

end Sys2Proof.Machine
end

section
/-! SUPPORT. A TST whose lane has a launch in flight that reads its record from a line of the tile's range: the state that refutes O43 (13 R212;
15 R226; 07 R128). -/

namespace Sys2Proof.Machine

/-- A launch that has `got` of its record, which begins at address 0 on an NC page. -/
def recordOp (got : List Byte) : Op := {
  id := 0, kind := .launch true 0 0 true got, dst := .regs 0 .i32 1, loads := true, stores := false, tile := false }

/-- The lane of a TST, whose launch has still to read the last 16 bytes of its record. -/
def tstLane : Thread := { callLane with ops := [recordOp (List.replicate 112 0)] }

/-- The team of the tile unit's operation. -/
def tstTeam : Team := { callTeam with uid := 2, core := 128 }

/-- The pages of the tile's range. -/
def tstPages : List Nat := (List.range 12).map fun i => 4096 * i

def tstOp : TileOp := {
  core := 128, sub := 0, order := 0, op := 1, team := 2, ctx := 0, lanes := [(0, callLane.ref, [])], instr := .tst 0 0, addr := none
  pas := tstPages.map fun p => (p, 4096, false), base := 0, num := 0, dirty := [], sent := false, before := [] }

def tstState : State := { callState with
  m := { callState.m with clk := 1, threads := [tstLane], teams := [tstTeam], tileq := [tstOp] } }

/-- The launch has its record, and the version is the lane's as far as the TST has stored. -/
structure Mach.RecordRead (m : Mach) : Prop where
  ops      : ∃ x got, m.thread? callLane.ref = some x ∧ 128 ≤ got.length ∧ x.ops = [recordOp got]
  areas    : m.areas = []
  teams    : m.teams = [tstTeam]
  versions : ∀ b ∈ m.versions, b.ref = callLane.ref ∧ b.inL1 = true ∧ b.diePub = false

/-- A launch that has its record reads nothing more. -/
theorem Mach.RecordRead.settleLoads {m : Mach} (h : m.RecordRead) (line : Nat) :
    m.settleLoads 128 callLane.ref line 1 = m := by
  obtain ⟨⟨x, got, hx, hgot, hops⟩, -, -, -⟩ := h
  have hread : m.readRecord 128 callLane.ref 0 = m := by
    rw [Mach.readRecord, hx]
    dsimp only
    rw [hops]
    exact if_pos hgot
  have hlaunch : m.settleLaunch 128 callLane.ref line (recordOp got) = m := by
    unfold Mach.settleLaunch
    dsimp only [recordOp]
    have hall : (List.range 8).foldl (fun z _ => z.readRecord 128 callLane.ref 0) m = m :=
      List.foldlRecOn (motive := fun z => z = m) _ _ rfl fun z hz _ _ => hz ▸ hread
    rw [hall, ite_self]
  have hload : m.settleLoad 128 callLane.ref line 0 = m := by
    rw [Mach.settleLoad, hx, Option.bind_some, hops]
    rfl
  rw [Mach.settleLoads, hx]
  dsimp only
  rw [hops, List.foldl_cons, List.foldl_nil]
  exact (if_neg (show ¬ 1 ≤ (recordOp got).id from Nat.not_succ_le_zero 0)).trans ((congrArg (fun z => Mach.settleLaunch z 128 callLane.ref line (recordOp got)) hload).trans hlaunch)

theorem mem_insertBytes {op : Nat} {rs : List TRef} {vs new : List VByte} {b : VByte} (h : b ∈ insertBytes op rs vs new) :
    b ∈ vs ∨ b ∈ new := by
  unfold insertBytes at h
  induction new generalizing vs with
  | nil => exact .inl h
  | cons c cs ih =>
    rw [List.foldl_cons] at h
    rcases ih h with h | h
    · rcases List.mem_append.1 h with h | h
      · exact .inl (List.mem_of_mem_take h)
      · rcases List.mem_cons.1 h with rfl | h
        · exact .inr List.mem_cons_self
        · exact .inl (List.mem_of_mem_drop h)
    · exact .inr (List.mem_cons_of_mem _ h)

/-- A byte of a line that the TST stores. -/
def tstByte (pa vis : Nat) (stack nc : Bool) (bs : List Byte) (i : Nat) : VByte := {
  pa := pa + i, byte := bs.getD i 0, ref := callLane.ref, core := 128, op := 1, inL1 := true, diePub := false, stack := stack
  atomic := false, seen := [], vis := vis, coreAt := 0, dieAt := 0, l2 := nc }

/-- A line of the TST goes into the version, once the launch has its record. -/
theorem Mach.tstLine_recordRead {m : Mach} {pa : Nat} (h : (m.settleLoads 128 callLane.ref pa 1).RecordRead) (stack nc : Bool)
    (bs : List Byte) : (m.tstLine tstTeam tstOp pa stack nc bs).RecordRead := by
  set m1 := m.settleLoads 128 callLane.ref pa 1 with hm1
  obtain ⟨hops, hareas, hteams, hver⟩ := h
  have hnone : m1.versionOf tstTeam.uid = [] := by
    unfold Mach.versionOf
    refine List.filter_eq_nil_iff.2 fun b hb => ?_
    obtain ⟨hr, -, hd⟩ := hver b hb
    have howner : (b.owner == tstTeam.uid) = false := by
      rw [VByte.owner, hd, hr]
      rfl
    rw [howner]
    exact Bool.false_ne_true
  have hroom : m1.makeRoom tstTeam pa = m1 := by
    have hfits : ¬ 262144 / max 1 (m1.teamsOn (dieOf tstTeam.core)) < m1.vlines tstTeam.uid + 1 := by
      rw [Mach.vlines, hnone, Mach.teamsOn, hteams]
      decide
    rw [Mach.makeRoom, decide_eq_false hfits, Bool.and_false]
    rfl
  have harrive : (m1.arriveOlder [callLane.ref] 128 1 pa).versions = m1.versions := by
    unfold Mach.arriveOlder
    have hmine : (m1.versions.filter fun b => b.core == 128 && lineOf b.pa == pa && [callLane.ref].contains b.ref && decide (b.op < 1) &&
        !b.inL1 && !b.diePub) = [] := List.filter_eq_nil_iff.2 fun b hb => by simp [(hver b hb).2.1]
    dsimp only
    rw [hmine]
    rfl
  have hspace : m1.makeSpace tstTeam.core pa = m1 := by
    unfold Mach.makeSpace
    exact if_pos rfl
  set z := m1.arriveOlder [callLane.ref] 128 1 pa with hz
  have hline : m.tstLine tstTeam tstOp pa stack nc bs = { z with
      uid := z.uid + 1
      versions := insertBytes 1 [callLane.ref] z.versions ((List.range 128).map (tstByte pa z.uid stack nc bs)) } := by
    unfold Mach.tstLine
    dsimp only [tstOp, List.foldl_cons, List.foldl_nil]
    rw [show m.settleLoads tstTeam.core callLane.ref pa 1 = m1 from rfl, hroom, Mach.touchAreas_none hareas, hspace, ite_self]
    rfl
  rw [hline]
  refine ⟨hops, hareas, hteams, fun b hb => ?_⟩
  rcases mem_insertBytes hb with hb | hb
  · exact hver b (harrive ▸ hb)
  · obtain ⟨i, -, rfl⟩ := List.mem_map.1 hb
    exact ⟨rfl, rfl, rfl⟩

/-- The lines of the tile's range, the first of them apart. -/
theorem linesOf_tstPages : linesOf (tstPages.map fun p => (p, 4096, false)) =
    (0, 0, false) :: (linesOf (tstPages.map fun p => (p, 4096, false))).tail := by decide +kernel

/-- The launch reads the rest of its record before the TST stores to the line that holds it. -/
theorem recordRead_first : (tstState.m.settleLoads 128 callLane.ref 0 1).RecordRead where
  ops := ⟨{ callLane with ops := [recordOp (List.replicate 128 0)] }, List.replicate 128 0, by decide +kernel, by decide +kernel, rfl⟩
  areas := by decide +kernel
  teams := by decide +kernel
  versions := by
    have hnone : (tstState.m.settleLoads 128 callLane.ref 0 1).versions = [] := by decide +kernel
    rw [hnone]
    exact fun b hb => absurd hb List.not_mem_nil

theorem applyTst_recordRead : (tstState.m.applyTst tstOp 0).RecordRead := by
  have hteam : tstState.m.team? tstOp.team = some tstTeam := rfl
  unfold Mach.applyTst
  rw [hteam]
  dsimp only [tstOp]
  rw [linesOf_tstPages, List.foldl_cons]
  refine List.foldlRecOn (motive := Mach.RecordRead) _ _ (Mach.tstLine_recordRead recordRead_first _ _ _) fun m hm p _ => ?_
  exact Mach.tstLine_recordRead (by rw [hm.settleLoads]; exact hm) _ _ _

/-- The only operation of a core's tile unit that is past its cycle and has what it waits for applies and leaves the queue. -/
theorem tileComplete_tstState : tstState.m.tileComplete 128 0 = (tstState.m.applyTst tstOp 0).endTile tstOp := by
  have hold : tstState.m.oldestTile 128 = some tstOp := by decide +kernel
  unfold Mach.tileComplete
  rw [hold]
  rfl

theorem tstState_atHome (pa : Nat) : tstState.m.atHome pa := by
  refine ⟨?_, rfl⟩
  show stateOf 0 ≤ 1
  decide

/-- A tile operation of one lane leaves its counts. -/
theorem Mach.thread?_endTile {m : Mach} {q : TileOp} {l : Nat} {t : TRef} {rs : List RV} {x : Thread} (hq : q.lanes = [(l, t, rs)])
    (hx : m.thread? t = some x) : (m.endTile q).thread? t = some { x with ops := x.ops.filter fun o => o.id != q.op } := by
  unfold Mach.endTile
  dsimp only
  rw [hq]
  exact Mach.thread?_updThread_same (m := { m with tileq := m.tileq.filter fun y => y.order != q.order }) hx
    (f := fun x => { x with ops := x.ops.filter fun o => o.id != q.op }) fun _ => rfl

/-- A machine after an event is the only one. -/
theorem outcome_mach {s : State} {m m' : Mach} (h : (.next { s with m := m } : Host.Outcome State Fault Refusal) = .next { s with m := m' }) :
    m = m' := congrArg State.m (Host.Outcome.next.inj h)

/-- Refutes O43: a TST has a launch of its lane read its record from a line of the tile's range first, and so changes that operation of the
lane. -/
theorem not_tileUnitEvents : ¬ Obligations.TileUnitEvents := by
  intro hall
  obtain ⟨-, -, htst, -⟩ := hall tstState tstOp tstTeam 0 callLane.ref tstLane [] rfl rfl (by decide +kernel) (by decide +kernel) rfl (by decide +kernel) rfl (by decide +kernel) rfl
  obtain ⟨-, hglobal⟩ := htst 0 0 rfl
  have hpages : tstPages.length = 12 := by decide
  obtain ⟨m, hruns, hrest, -⟩ := hglobal tstPages false rfl
    ⟨rfl, hpages, by decide, by decide, fun p _ o _ => tstState_atHome (p + o)⟩ rfl rfl (by decide) (by decide)
  have hm : tstState.m.tileComplete 128 0 = m := outcome_mach ((onMach_next (fun m => m.tileComplete 128 0) tstState).symm.trans hruns)
  obtain ⟨x, got, hx, hgot, hops⟩ := applyTst_recordRead.ops
  have hend : (tstState.m.tileComplete 128 0).thread? callLane.ref = some { x with ops := x.ops.filter fun o => o.id != 1 } := by
    rw [tileComplete_tstState]
    exact Mach.thread?_endTile (q := tstOp) rfl hx
  have hsame := (hend.symm.trans (congrArg (Mach.thread? · _) hm)).trans hrest.2.2
  have hrecord : [recordOp got] = [recordOp (List.replicate 112 0)] := by
    have hall := congrArg Thread.ops (Option.some.inj hsame)
    dsimp only at hall
    rw [hops] at hall
    exact hall
  have hkind := congrArg Op.kind (List.singleton_injective hrecord)
  dsimp only [recordOp] at hkind
  injection hkind with _ _ _ _ hgot'
  rw [hgot', List.length_replicate] at hgot
  exact absurd hgot (by decide)

end Sys2Proof.Machine
end

section
/-! SUPPORT. Drover queues: turns, acceptance, payload, the end of a command and its stamp (11 R178, R186, R194-R197). -/

namespace Sys2Proof.Machine

/-! ### The drover's turn (R178) -/

/-- The nearer of a team and one found before. -/
def nearer (d : Team → Nat) (acc : Option Team) (t : Team) : Option Team :=
  match acc with
  | none => some t
  | some b => if d t < d b then some t else some b

theorem foldl_nearer_some (d : Team → Nat) (ts : List Team) (b : Team) : ∃ y, ts.foldl (nearer d) (some b) = some y ∧
    (y = b ∨ y ∈ ts) ∧ d y ≤ d b ∧ ∀ z ∈ ts, d y ≤ d z := by
  induction ts generalizing b with
  | nil => exact ⟨b, rfl, .inl rfl, Nat.le_refl _, by simp⟩
  | cons t ts ih =>
    rw [List.foldl_cons, nearer]
    split
    next hlt =>
      obtain ⟨y, hy, hin, hle, hall⟩ := ih t
      refine ⟨y, hy, .inr ?_, hle.trans (Nat.le_of_lt hlt), fun z hz => ?_⟩
      · rcases hin with rfl | hin
        · exact List.mem_cons_self
        · exact List.mem_cons_of_mem _ hin
      · rcases List.mem_cons.1 hz with rfl | hz
        · exact hle
        · exact hall z hz
    next hge =>
      obtain ⟨y, hy, hin, hle, hall⟩ := ih b
      refine ⟨y, hy, hin.imp_right (List.mem_cons_of_mem _), hle, fun z hz => ?_⟩
      rcases List.mem_cons.1 hz with rfl | hz
      · omega
      · exact hall z hz

/-- The distance of a team's slot from the last one served. -/
def Mach.turnDist (m : Mach) (core : Nat) (t : Team) : Nat := (t.slot + 31 - getAssoc 31 core m.droverTurn) % 32

theorem Mach.droverNext_eq (m : Mach) (core : Nat) : m.droverNext core =
    ((m.teams.filter fun t => t.core == core && m.headFits t).foldl (nearer (m.turnDist core)) none).map (·.uid) := rfl

/-- The queue served is the nearest of those whose heads have room. -/
theorem Mach.droverNext_spec {m : Mach} {core u : Nat} (h : m.droverNext core = some u) : ∃ y ∈ m.teams, y.uid = u ∧ y.core = core ∧
    m.headFits y = true ∧ ∀ z ∈ m.teams, z.core = core → m.headFits z = true → m.turnDist core y ≤ m.turnDist core z := by
  rw [Mach.droverNext_eq] at h
  cases hts : m.teams.filter fun t => t.core == core && m.headFits t with
  | nil => simp [hts] at h
  | cons b ts =>
    rw [hts, List.foldl_cons, nearer] at h
    obtain ⟨y, hy, hin, hle, hall⟩ := foldl_nearer_some (m.turnDist core) ts b
    rw [hy] at h
    have hmem : y ∈ b :: ts := by
      rcases hin with rfl | hin
      · exact List.mem_cons_self
      · exact List.mem_cons_of_mem _ hin
    rw [← hts, List.mem_filter, Bool.and_eq_true, beq_iff_eq] at hmem
    refine ⟨y, hmem.1, Option.some.inj h, hmem.2.1, hmem.2.2, fun z hz hc hf => ?_⟩
    have hz' : z ∈ b :: ts := hts ▸ List.mem_filter.2 ⟨hz, by simp [hc, hf]⟩
    rcases List.mem_cons.1 hz' with rfl | hz'
    · exact hle
    · exact hall z hz'

/-- A drover serves some queue where one has a head with room. -/
theorem Mach.droverNext_isSome {m : Mach} {t : Team} (ht : t ∈ m.teams) (hf : m.headFits t = true) : (m.droverNext t.core).isSome := by
  rw [Mach.droverNext_eq]
  cases hts : m.teams.filter fun x => x.core == t.core && m.headFits x with
  | nil => exact absurd (List.mem_filter.2 ⟨ht, by simp [hf]⟩ : t ∈ m.teams.filter fun x => x.core == t.core && m.headFits x) (by rw [hts]; simp)
  | cons b ts =>
    obtain ⟨y, hy, -⟩ := foldl_nearer_some (m.turnDist t.core) ts b
    rw [List.foldl_cons, nearer, hy]
    rfl

/-! ### Acceptance (R186) -/

section
variable {m : Mach} {t : Team} {n : Nat} {owner : TRef} {w : Word} {rest : List (Nat × TRef × Word)}

/-- The command that a queue's first push makes. -/
def Mach.pushed (m : Mach) (t : Team) (n : Nat) (owner : TRef) (w : Word) : Cmd := {
  id := m.uid, team := t.uid, owner := owner, inst := w, seq := t.qhead
  entries := (List.range n).map fun i => BitVec.ofNat 256 (leNat (t.qmem.read (32 * ((t.qhead + i) % 256)) 32))
  next := 0, landed := 0, done := false, status := 0, badAddr := 0, pieces := [], parked := none, lat := .near, pages := [] }

theorem Mach.headCmd_pushed (hq : t.qcmds = (n, owner, w) :: rest) (hr : t.returned = []) :
    m.headCmd t = some { m.pushed t n owner w with lat := m.latOf (m.pushed t n owner w) t } := by
  rw [Mach.headCmd, hr, hq]
  rfl

theorem Mach.headCmd_empty (hq : t.qcmds = []) (hr : t.returned = []) : m.headCmd t = none := by
  rw [Mach.headCmd, hr, hq]

/-- A team whose queue has lost its head. -/
def Team.taken (n : Nat) (t : Team) : Team := { t with qcmds := t.qcmds.drop 1, qhead := t.qhead + n }

/-- An accepted command with the outcome of its checks. -/
def Mach.accepted (m : Mach) (t : Team) (c : Cmd) : Cmd :=
  { c with done := (m.acceptStatus t c).1 != 0, status := (m.acceptStatus t c).1, badAddr := BitVec.ofNat 64 (m.acceptStatus t c).2 }

/-- The drover takes the head of the queue whose turn it is. -/
theorem Mach.accept_pushed {c : Cmd} (ht : m.team? t.uid = some t) (hc : m.headCmd t = some c) (hr : t.returned = [])
    (ha : m.noAccept = false) (hn : m.droverNext t.core = some t.uid) : ∃ z : Mach,
      m.accept t.uid = { z.updTeam t.uid (Team.taken c.entries.length) with cmds := m.cmds ++ [z.accepted t c] } ∧
      z = { m with uid := m.uid + 1, droverTurn := setAssoc t.core t.slot m.droverTurn } := by
  refine ⟨_, ?_, rfl⟩
  have hbusy : (m.noAccept || m.droverNext t.core != some t.uid) = false := by simp [ha, hn]
  unfold Mach.accept
  rw [ht]
  dsimp only
  rw [hc]
  dsimp only
  rw [hbusy, if_neg Bool.false_ne_true, hr]
  rfl

end

/-! ### Landing and ending (R194-R197) -/

section
variable {m : Mach} {t : Team} {c : Cmd}

theorem Mach.cmd?_only (h : m.cmds = [c]) : m.cmd? c.id = some c := by
  rw [Mach.cmd?, h]
  exact List.find?_cons_of_pos (beq_self_eq_true _)

theorem Mach.updCmd_only (h : m.cmds = [c]) (f : Cmd → Cmd) : m.updCmd c.id f = { m with cmds := [f c] } := by
  unfold Mach.updCmd
  rw [h, List.map_singleton, if_pos (beq_self_eq_true _)]

/-- A command that credits no hurdle counts what has landed. -/
theorem Mach.creditCmd_plain {z : Cmd} (hz : z.id = c.id) (hcrh : z.crh = false) (h : m.cmds = [c]) (n : Nat) :
    m.creditCmd z n = { m with cmds := [{ c with landed := c.landed + n }] } := by
  have hnone (y : Team) : z.hurdle y = none := by
    rw [Cmd.hurdle, hcrh]
    rfl
  unfold Mach.creditCmd
  rw [hz, Mach.updCmd_only h]
  dsimp only
  split
  · rw [hnone]
  · rfl

/-- A piece of payload lands in the team's scratchpad. -/
theorem Mach.payloadLand_scratch {p : Piece} {off : Nat} (h : m.cmds = [c]) (hp : c.pieces = [p]) (hd : p.dst = .scratch t.uid off)
    (hcrh : c.crh = false) (ht : m.team? t.uid = some t) : m.payloadLand c.id p.id = { m.scratchWrite t.uid off p.bytes with
      cmds := [{ c with pieces := [], landed := c.landed + p.bytes.length }] } := by
  have hfind : (c.pieces.find? fun q => q.id == p.id) = some p := by
    rw [hp]
    exact List.find?_cons_of_pos (beq_self_eq_true _)
  have hgone : (c.pieces.filter fun q => q.id != p.id) = [] := by simp [hp]
  have hcmds : (m.scratchWrite t.uid off p.bytes).cmds = [c] := by
    rw [Mach.scratchWrite_eq ht]
    exact h
  unfold Mach.payloadLand
  rw [Mach.cmd?_only h]
  dsimp only
  rw [hfind]
  dsimp only [Mach.landAt]
  rw [hd]
  dsimp only
  rw [Mach.updCmd_only hcmds, hgone]
  exact Mach.creditCmd_plain (z := c) (c := { c with pieces := [] }) rfl hcrh rfl _

/-- A thread with one command less. -/
def Thread.unowed (x : Thread) : Thread := { x with drover := x.drover - 1 }

/-- A command leaves its queue and its owner's count. -/
def Mach.closeCmd (m : Mach) (c : Cmd) : Mach :=
  ({ m with cmds := m.cmds.filter fun x => x.id != c.id } : Mach).updThread c.owner Thread.unowed

theorem Mach.closeCmd_thread {x : Thread} (hx : m.thread? c.owner = some x) : (m.closeCmd c).thread? c.owner = some x.unowed :=
  Mach.thread?_updThread_same (m := { m with cmds := m.cmds.filter fun x => x.id != c.id }) hx fun _ => rfl

/-- The imprecise fault of a command that has failed without a stamp. -/
def Cmd.fault (c : Cmd) : Imprecise := { cause := 0x31, addr := c.badAddr, thread := some c.owner }

/-- A command with no stamp and no hurdle that has ended, of a thread that has not exited. -/
theorem Mach.endCmd_bare {x : Thread} (h : m.cmds = [c]) (hst : c.staddr = 0) (hcrh : c.crh = false) (hx : m.thread? c.owner = some x)
    (hw : x.wait ≠ .exited) : ∃ z : Mach, z.team? c.team = m.team? c.team ∧ z.mem = m.mem ∧ z.thread? c.owner = some x ∧
      (z.cmds.filter fun y => y.id != c.id) = [] ∧
      m.endCmd c = if c.status = 0 ∨ c.status = 0x000B then z.closeCmd c else (z.meet c.team c.fault).closeCmd c := by
  have hcredit : ∃ c' : Cmd, c'.id = c.id ∧
      (if c.status == 0 then m else m.creditCmd c (c.payload - min c.landed c.payload)) = { m with cmds := [c'] } := by
    split
    · exact ⟨c, rfl, by rw [← h]⟩
    · exact ⟨{ c with landed := c.landed + (c.payload - min c.landed c.payload) }, rfl, Mach.creditCmd_plain (z := c) rfl hcrh h _⟩
  obtain ⟨c', hid, hz⟩ := hcredit
  refine ⟨{ m with cmds := [c'] }, rfl, rfl, hx, by simp [hid], ?_⟩
  have hgone : (match ({ m with cmds := [c'] } : Mach).thread? c.owner with | some x => x.wait == Wait.exited | none => true) = false := by
    rw [show ({ m with cmds := [c'] } : Mach).thread? c.owner = some x from hx]
    exact beq_eq_false_iff_ne.2 hw
  have hfault : ({ m with cmds := [c'] } : Mach).droverFault c c.badAddr = ({ m with cmds := [c'] } : Mach).meet c.team c.fault := by
    unfold Mach.droverFault
    exact congrArg (fun b : Bool => ({ m with cmds := [c'] } : Mach).meet c.team
      { cause := 0x31, addr := c.badAddr, thread := if b then none else some c.owner }) hgone
  unfold Mach.endCmd
  rw [hz, hst]
  dsimp only
  rw [show ((0 : Nat) != 0) = false from rfl, if_neg Bool.false_ne_true, hfault]
  by_cases hs : c.status = 0 ∨ c.status = 0x000B
  · rw [if_pos hs, if_pos (by simpa using hs)]
    rfl
  · rw [if_neg hs, if_neg (by simpa using hs)]
    rfl

/-- A STAMP that ends without failure writes its value to the team's scratchpad. -/
theorem Mach.endCmd_stamp {off : Nat} (hteam : c.team = t.uid) (ht : m.team? t.uid = some t) (hs : c.status = 0) (ho : t.own c.staddr 8 off) :
    m.endCmd c = (m.scratchWrite t.uid off (leBytes (c.stval / 2 ^ 16 * 2 ^ 16) 8)).closeCmd c := by
  have hne : (c.staddr != 0) = true := bne_iff_ne.2 (by obtain ⟨hx, -⟩ := ho; omega)
  have hal : (c.staddr % 8 != 0) = false := by simp [ho.2.1]
  have htop : (c.staddr / 2 ^ 56 != 0xFF) = true := by
    obtain ⟨hx, -, hoff, -⟩ := ho
    exact bne_iff_ne.2 (by omega)
  have hstamp : m.stampCmd c = m.scratchWrite t.uid off (leBytes (c.stval / 2 ^ 16 * 2 ^ 16) 8) := by
    unfold Mach.stampCmd
    rw [hteam, ht]
    dsimp only
    rw [hal, if_neg Bool.false_ne_true, Mach.resolve_own _ ho]
    dsimp only
    rw [beq_self_eq_true, htop, hs, Nat.add_zero]
    exact if_pos rfl
  unfold Mach.endCmd
  rw [hs, show ((0 : Nat) == 0) = true from rfl, hne]
  simp only [if_true, hstamp]
  rfl

end

/-- Settles O44. -/
theorem droverQueues : Obligations.DroverQueues := by
  intro s t owner x ht hx
  refine ⟨fun hn => ?_, fun core u hu => Mach.droverNext_spec hu, fun n w rest hq hr hcmds ha hrun halone => ?_, fun c hc hteam howner => ⟨fun p off hp hd hcrh hw => ?_,
    fun hdone hp hst hcrh hw => ?_, fun off hk hdone hs ho hwf hready => ?_⟩⟩
  · have hacc : s.m.accept t.uid = s.m := by
      have hbusy : (s.m.noAccept || s.m.droverNext t.core != some t.uid) = true := by simp [hn]
      unfold Mach.accept
      rw [ht]
      dsimp only
      split
      · rfl
      · exact if_pos hbusy
    exact congrArg (fun m => Host.Outcome.next { s with m := m }) hacc
  · have hhead := Mach.headCmd_pushed (m := s.m) hq hr
    have hfits : s.m.headFits t = true := by
      have hocc : t.occupies = true := by rw [Team.occupies, hrun]
      have hload : s.m.engineLoad t.core (s.m.latOf (s.m.pushed t n owner w) t) = 0 := by
        rw [Mach.engineLoad, hcmds]
        rfl
      have hroom (l : Lat) : 0 < l.room := by cases l <;> decide
      rw [Mach.headFits, hocc, hhead]
      simp [hload, hroom]
    have hnext : s.m.droverNext t.core = some t.uid := by
      obtain ⟨u, hu⟩ := Option.isSome_iff_exists.1 (Mach.droverNext_isSome (List.mem_of_find?_eq_some ht) hfits)
      obtain ⟨y, hy, hyu, hyc, hyf, -⟩ := Mach.droverNext_spec hu
      rcases halone y hy hyc with hsame | ⟨hyq, hyr⟩
      · rw [hu, ← hyu, hsame]
      · rw [Mach.headFits, Mach.headCmd_empty hyq hyr, Bool.and_false] at hyf
        exact absurd hyf Bool.false_ne_true
    obtain ⟨z, hacc, hz⟩ := Mach.accept_pushed ht hhead hr ha hnext
    set c := { s.m.pushed t n owner w with lat := s.m.latOf (s.m.pushed t n owner w) t } with hc
    have hlen : c.entries.length = n := by simp [hc, Mach.pushed]
    refine ⟨s.m.accept t.uid, z.accepted t c, Team.taken n t, rfl, ?_⟩
    rw [hacc, hlen, hcmds]
    subst hz
    refine ⟨rfl, rfl, ?_, ?_, rfl, rfl, rfl, rfl, rfl, rfl, rfl, rfl, bne_iff_ne, rfl, fun hbad => ?_⟩
    · exact (Mach.team?_updTeam _ t.uid (Team.taken n) fun _ => rfl).trans (congrArg _ ht)
    · rw [Team.taken, hq]
      rfl
    · have hstatus (y : Mach) : y.acceptStatus t c = (2, c.dst) := by
        refine if_pos ?_
        simp only [Bool.or_eq_true, decide_eq_true_eq, bne_iff_ne, hlen]
        rcases hbad with h | h | h
        · exact .inl (.inl h)
        · exact .inr (Ne.symm h)
        · exact .inl (.inr h)
      exact ⟨congrArg Prod.fst (hstatus _), congrArg (fun p : Nat × Nat => BitVec.ofNat 64 p.2) (hstatus _)⟩
  · have hrun := Mach.payloadLand_scratch hc hp hd hcrh ht
    refine ⟨s.m.payloadLand c.id p.id, t.scratched off p.bytes, rfl, ?_⟩
    rw [hrun]
    refine ⟨?_, rfl, Mach.team?_scratchWrite ht, Team.scratched_stored hw⟩
    rw [Mach.scratchWrite_eq ht]
  · subst howner
    obtain ⟨z, hzt, hzm, hzth, hzc, hend⟩ := Mach.endCmd_bare (m := s.m) hc hst hcrh hx hw
    have hrun : exec (.droverCommandEnd c.id) s = .next { s with m := s.m.endCmd c } := by
      have hturn : s.m.stampTurn c = true := by simp [Mach.stampTurn, hc]
      refine congrArg (fun m => Host.Outcome.next { s with m := m }) ?_
      dsimp only
      rw [Mach.cmd?_only hc]
      dsimp only
      rw [hdone, hp, hturn]
      rfl
    have hzteam : z.team? t.uid = some t := by rw [← hteam, hzt, hteam, ht]
    by_cases hs : c.status = 0 ∨ c.status = 0x000B
    · rw [if_pos hs] at hend
      refine ⟨s.m.endCmd c, t, hrun, ?_⟩
      rw [hend, if_pos hs, List.append_nil]
      exact ⟨hzm, hzc, Mach.closeCmd_thread hzth, hzteam, rfl⟩
    · rw [if_neg hs] at hend
      refine ⟨s.m.endCmd c, Team.unaware c.fault t, hrun, ?_⟩
      rw [hend, if_neg hs]
      refine ⟨hzm, hzc, Mach.closeCmd_thread hzth, ?_, rfl⟩
      rw [← hteam] at hzteam ⊢
      exact (Mach.team?_updTeam z c.team (Team.unaware c.fault) fun _ => rfl).trans (congrArg _ hzteam)
  · subst howner
    have hrun : exec (.droverStamp c.id) s = .next { s with m := s.m.endCmd c } := by
      have hturn : s.m.stampTurn c = true := by simp [Mach.stampTurn, hc]
      refine congrArg (fun m => Host.Outcome.next { s with m := m }) ?_
      dsimp only
      rw [Mach.cmd?_only hc]
      dsimp only
      rw [hk, hdone, hturn]
      rfl
    refine ⟨s.m.endCmd c, t.scratched off (leBytes (c.stval / 2 ^ 16 * 2 ^ 16) 8), hrun, ?_⟩
    rw [Mach.endCmd_stamp hteam ht hs ho]
    refine ⟨?_, ?_, ?_, ?_, Team.scratched_stored hwf⟩
    · show (s.m.scratchWrite _ _ _).mem = _
      rw [Mach.scratchWrite_eq ht]
    · show (s.m.scratchWrite _ _ _).cmds.filter _ = _
      rw [Mach.scratchWrite_eq ht]
      simp [hc]
    · refine Mach.closeCmd_thread ?_
      rw [Mach.thread?_scratchWrite ht, hx, Option.map_some, Thread.stirred_ready hready]
    · exact Mach.team?_scratchWrite ht

end Sys2Proof.Machine
end

section
/-! SUPPORT. The copy kinds of the drover within a scratchpad (11 R187, R188). -/

namespace Sys2Proof.Machine

/-! ### A range of the team's own scratchpad -/

/-- `n` bytes at `off` of the team's scratchpad, from the generic address `a` on. -/
def Team.holds (t : Team) (a n off : Nat) : Prop := t.own a 1 off ∧ off + n ≤ 4096 * t.scr ∧ off + n ≤ 2 ^ 32

section
variable {m : Mach} {t : Team} {c : Cmd} {a n off : Nat}

theorem Team.holds.resolve (h : t.holds a n off) {k : Nat} (hk : k ≤ n) (m : Mach) : m.resolve t a k = .scratch t.uid off :=
  Mach.resolve_scratch h.1 (by have := h.2.1; omega)

theorem Team.holds.shift (h : t.holds a n off) {k : Nat} (hk : k < n) : t.holds (a + k) (n - k) (off + k) := by
  obtain ⟨⟨ha, -, hlt, hin⟩, hfit, htop⟩ := h
  exact ⟨⟨by omega, Nat.mod_one _, by omega, by omega⟩, by omega, by omega⟩

theorem Memory.read_add (mem : Memory) (a k j : Nat) : mem.read a (k + j) = mem.read a k ++ mem.read (a + k) j := by
  induction k generalizing a with
  | zero => rw [Nat.zero_add]; rfl
  | succ k ih => rw [Nat.succ_add, Memory.read, ih, Memory.read, List.cons_append, Nat.add_assoc, Nat.add_comm 1]

theorem Memory.read_split (mem : Memory) (a : Nat) {k n : Nat} (h : k ≤ n) : mem.read a n = mem.read a k ++ mem.read (a + k) (n - k) := by
  rw [← Memory.read_add, Nat.add_sub_cancel' h]

/-- What a command reads next lies within an aligned 8. -/
theorem step_within {a n fuel : Nat} (h : n + a % 8 ≤ 8 * (fuel + 1)) (hk : min n (8 - a % 8) < n) :
    n - min n (8 - a % 8) + (a + min n (8 - a % 8)) % 8 ≤ 8 * fuel := by omega

/-! ### Reading (R187) -/

theorem Mach.readBytes_zero (home : Bool) (fuel a : Nat) : m.readBytes c t home fuel a 0 = (m, .ok []) := by
  cases fuel <;> rfl

/-- A command reads its team's scratchpad as it stands. -/
theorem Mach.readBytes_scratch (ht : m.team? t.uid = some t) (home : Bool) {fuel : Nat} (h : t.holds a n off) (hf : n + a % 8 ≤ 8 * fuel) :
    m.readBytes c t home fuel a n = (m, .ok (t.scratch.read off n)) := by
  induction fuel generalizing a n off with
  | zero =>
    have hn : n = 0 := by omega
    subst hn
    rfl
  | succ fuel ih =>
    by_cases hn : n = 0
    · subst hn
      rfl
    · set k := min n (8 - a % 8) with hk
      have hpiece : m.readPiece c t a k home = (m, .ok (t.scratch.read off k)) := by
        unfold Mach.readPiece
        rw [h.resolve (Nat.min_le_left _ _)]
        dsimp only
        rw [Mach.readArray, ht]
      have hrest : m.readBytes c t home fuel (a + k) (n - k) = (m, .ok (t.scratch.read (off + k) (n - k))) := by
        by_cases hkn : k < n
        · exact ih (h.shift hkn) (step_within hf hkn)
        · rw [Nat.sub_eq_zero_of_le (Nat.le_of_not_lt hkn)]
          exact Mach.readBytes_zero _ _ _
      rw [Mach.readBytes, if_neg (mt beq_iff_eq.1 hn)]
      dsimp only
      rw [← hk, hpiece]
      dsimp only
      rw [hrest, Memory.read_split t.scratch off (Nat.min_le_left n (8 - a % 8))]

theorem Mach.cmdRead_scratch (ht : m.team? t.uid = some t) (home : Bool) (h : t.holds a n off) :
    m.cmdRead c t home a n = (m, .ok (t.scratch.read off n)) :=
  Mach.readBytes_scratch ht home h (by omega)

/-! ### Sending -/

/-- Pieces carry `bs` to `off` of the team's scratchpad. -/
def Team.carries (t : Team) (ps : List Piece) (off : Nat) (bs : List Byte) : Prop := (ps.map fun p => p.bytes).flatten = bs ∧
  ∀ (j : Nat) (p : Piece), ps[j]? = some p → p.dst = .scratch t.uid (off + ((ps.take j).map fun q => q.bytes.length).sum)

/-- A piece and those behind it. -/
theorem Team.carries.cons {ps : List Piece} {bs cs : List Byte} {id : Nat} {fill : Bool} (h : t.carries ps (off + bs.length) cs) :
    t.carries ({ id := id, dst := .scratch t.uid off, bytes := bs, va := none, fill := fill } :: ps) off (bs ++ cs) := by
  obtain ⟨hbs, hdst⟩ := h
  refine ⟨by simp [hbs], fun j p hp => ?_⟩
  cases j with
  | zero =>
    rw [← Option.some.inj hp]
    simp
  | succ j =>
    rw [hdst j p hp]
    simp [Nat.add_assoc]

/-- A command sends bytes to its team's scratchpad. -/
theorem Mach.sendBytes_scratch (fill : Bool) {fuel : Nat} {bs : List Byte} (h : t.holds a bs.length off)
    (hf : bs.length + a % 8 ≤ 8 * fuel) : ∃ ps, m.sendBytes c t fill fuel a bs = ({ m with uid := m.uid + ps.length }, .ok ps) ∧
      t.carries ps off bs := by
  induction fuel generalizing a off bs m with
  | zero =>
    have hbs : bs = [] := List.length_eq_zero_iff.1 (by omega)
    subst hbs
    exact ⟨[], rfl, rfl, by simp⟩
  | succ fuel ih =>
    by_cases hbs : bs = []
    · subst hbs
      exact ⟨[], rfl, rfl, by simp⟩
    · set k := min bs.length (8 - a % 8) with hk
      have hwhole : (a % 128 == 0 && decide (128 ≤ bs.length) && decide (a / 2 ^ 56 ≤ 1)) = false := by
        obtain ⟨⟨ha, -⟩, -⟩ := h
        rw [decide_eq_false (p := a / 2 ^ 56 ≤ 1) (by omega), Bool.and_false]
      have hland : m.landing c t a k = (m, .ok (.scratch t.uid off)) := by
        unfold Mach.landing
        rw [h.resolve (Nat.min_le_left _ _)]
      have hlen : (bs.take k).length = k := List.length_take_of_le (Nat.min_le_left _ _)
      obtain ⟨ps, hps, hcar⟩ : ∃ ps, ({ m with uid := m.uid + 1 } : Mach).sendBytes c t fill fuel (a + k) (bs.drop k) =
          ({ m with uid := m.uid + 1 + ps.length }, .ok ps) ∧ t.carries ps (off + (bs.take k).length) (bs.drop k) := by
        rw [hlen]
        by_cases hkn : k < bs.length
        · refine ih (m := { m with uid := m.uid + 1 }) ?_ ?_
          · rw [List.length_drop]
            exact h.shift hkn
          · rw [List.length_drop]
            exact step_within hf hkn
        · rw [List.drop_of_length_le (Nat.le_of_not_lt hkn)]
          refine ⟨[], ?_, rfl, by simp⟩
          cases fuel <;> rfl
      refine ⟨_, ?_, List.take_append_drop k bs ▸ hcar.cons (id := m.uid) (fill := fill)⟩
      rw [Mach.sendBytes, if_neg (by simpa using hbs)]
      dsimp only
      rw [hwhole, if_neg Bool.false_ne_true, ← hk, hland]
      dsimp only [Mach.fresh]
      rw [hps]
      dsimp only
      rw [List.length_cons, Nat.add_assoc m.uid, Nat.add_comm 1]

end

/-! ### Units -/

section
variable {m : Mach} {t : Team} {c : Cmd} {a off : Nat}

/-- The command after a unit that ends at `next` of `total`. -/
def Cmd.sent (c : Cmd) (ps : List Piece) (next total : Nat) : Cmd :=
  { c with pieces := c.pieces ++ ps, next := next, done := decide (total ≤ next) }

/-- A unit of one part for the team's scratchpad. -/
theorem Mach.sendUnit_scratch (hc : m.cmds = [c]) {bs : List Byte} (h : t.holds a bs.length off) (fill : Bool) (next total : Nat) :
    ∃ ps, m.sendUnit c t [(a, bs, fill)] next total =
      { m with uid := m.uid + ps.length, cmds := [c.sent ps next total] } ∧ t.carries ps off bs := by
  obtain ⟨ps, hps, hcar⟩ := Mach.sendBytes_scratch (m := m) (c := c) fill (fuel := bs.length / 8 + 2) h (by omega)
  refine ⟨ps, ?_, hcar⟩
  unfold Mach.sendUnit
  dsimp only [List.foldl_cons, List.foldl_nil]
  rw [hps]
  exact Mach.updCmd_only (m := { m with uid := m.uid + ps.length }) hc fun x => x.sent ([] ++ ps) next total

/-- An engine does the next part of the only command. -/
theorem Mach.drive_only (hc : m.cmds = [c]) (ht : m.team? c.team = some t) (hrun : t.status = .running) (hdone : c.done = false)
    (hp : c.parked = none) (hfit : m.readsFit c t = true) {kind : Nat} (hk : c.kind = kind) (f : Mach → Cmd → Team → Mach) :
    m.drive c.id kind f = f m c t := by
  have hback : m.heldBack c = false := by simp [Mach.heldBack, hc, hp]
  unfold Mach.drive
  rw [Mach.cmd?_only hc]
  dsimp only
  rw [ht]
  dsimp only
  rw [hk, hdone, hp, hrun, hback, hfit]
  simp

/-- LIN within the scratchpad. -/
theorem Mach.linStep_scratch (hc : m.cmds = [c]) (ht : m.team? t.uid = some t) {so : Nat}
    (hs : t.holds (c.src + c.next) (min 256 (c.word 1 2 - c.next)) so) (hd : t.holds (c.dst + c.next) (min 256 (c.word 1 2 - c.next)) off) :
    ∃ ps, m.linStep c t = { m with
        uid := m.uid + ps.length, cmds := [c.sent ps (c.next + min 256 (c.word 1 2 - c.next)) (c.word 1 2)] } ∧
      t.carries ps off (t.scratch.read so (min 256 (c.word 1 2 - c.next))) := by
  unfold Mach.linStep
  dsimp only
  rw [Mach.cmdRead_scratch ht false hs]
  exact Mach.sendUnit_scratch hc (by rw [Memory.read_length]; exact hd) _ _ _

/-- The pattern of a FILL over `n` bytes. -/
def Cmd.pattern (c : Cmd) (n : Nat) : List Byte := (List.range n).map fun j => ((leBytes c.src 8).take c.esize).getD (j % c.esize) 0

/-- FILL within the scratchpad. -/
theorem Mach.fillStep_scratch (hc : m.cmds = [c]) (hd : t.holds (c.dst + c.next) (min 256 (c.word 1 2 - c.next)) off) :
    ∃ ps, m.fillStep c t = { m with
        uid := m.uid + ps.length, cmds := [c.sent ps (c.next + min 256 (c.word 1 2 - c.next)) (c.word 1 2)] } ∧
      t.carries ps off (c.pattern (min 256 (c.word 1 2 - c.next))) :=
  Mach.sendUnit_scratch hc (by simpa [Cmd.pattern] using hd) true _ _

/-! ### Windows -/

/-- The piece of element `j` of a window's part, which lies at `d j` of the scratchpad and comes from `so j`. -/
def Cmd.elemPiece (c : Cmd) (t : Team) (uid : Nat) (so d : Nat → Nat) (j : Nat) : Piece := {
  id := uid + j, dst := .scratch t.uid (d j)
  bytes := if (c.element (c.next + j)).1.isSome then t.scratch.read (so j) c.esize else c.fill
  fill := (c.element (c.next + j)).1.isNone }

/-- The part that sends element `j` of a window's part. -/
def Cmd.elemPart (c : Cmd) (t : Team) (so : Nat → Nat) (j : Nat) : Part :=
  ((c.element (c.next + j)).2, if (c.element (c.next + j)).1.isSome then t.scratch.read (so j) c.esize else c.fill,
    (c.element (c.next + j)).1.isNone)

/-- Element `j` of a window's part lies whole in the scratchpad, as does its source where it has one. -/
structure Cmd.ElemHere (c : Cmd) (t : Team) (so d : Nat → Nat) (j : Nat) : Prop where
  aligned : (c.element (c.next + j)).2 % c.esize = 0
  dest    : t.holds (c.element (c.next + j)).2 c.esize (d j)
  source  : ∀ a, (c.element (c.next + j)).1 = some a → t.holds a c.esize (so j)

/-- One more element of a window's part, read after those before it. -/
def Mach.readElem (c : Cmd) (t : Team) (acc : Mach × Except Stop (List Part)) (i : Nat) : Mach × Except Stop (List Part) :=
  match acc.2 with
  | .error _ => acc
  | .ok out =>
    match c.element (c.next + i) with
    | (none, d) => (acc.1, .ok (out ++ [(d, c.fill, true)]))
    | (some a, d) => match acc.1.cmdRead c t false a c.esize with
      | (m, .ok bs) => (m, .ok (out ++ [(d, bs, false)]))
      | (m, .error e) => (m, .error e)

theorem Mach.readElem_here {so d : Nat → Nat} {j : Nat} (ht : m.team? t.uid = some t) (h : c.ElemHere t so d j) (out : List Part) :
    Mach.readElem c t (m, .ok out) j = (m, .ok (out ++ [c.elemPart t so j])) := by
  unfold Mach.readElem Cmd.elemPart
  have hsrc := h.source
  revert hsrc
  obtain ⟨src, dst⟩ := c.element (c.next + j)
  intro hsrc
  cases src with
  | none => rfl
  | some a =>
    dsimp only
    rw [Mach.cmdRead_scratch ht false (hsrc a rfl)]
    rfl

theorem Mach.readElems_here {so d : Nat → Nat} {k : Nat} (ht : m.team? t.uid = some t) (h : ∀ j < k, c.ElemHere t so d j) :
    (List.range k).foldl (Mach.readElem c t) (m, .ok []) = (m, .ok ((List.range k).map (c.elemPart t so))) := by
  induction k with
  | zero => rfl
  | succ k ih =>
    rw [List.range_succ, List.foldl_append, ih fun j hj => h j (Nat.lt_succ_of_lt hj), List.foldl_cons, List.foldl_nil,
      Mach.readElem_here ht (h k (Nat.lt_succ_self k)), List.map_append, List.map_singleton]

/-- One more part of a unit, sent after those before it. -/
def Mach.sendPart (c : Cmd) (t : Team) (acc : Mach × Except Stop (List Piece)) (p : Part) : Mach × Except Stop (List Piece) :=
  match acc.2 with
  | .error _ => acc
  | .ok ps => match acc.1.sendBytes c t p.2.2 (p.2.1.length / 8 + 2) p.1 p.2.1 with
    | (m, .ok qs) => (m, .ok (ps ++ qs))
    | (m, .error e) => (m, .error e)

/-- Bytes within an aligned 8 go as one piece. -/
theorem Mach.sendBytes_one (fill : Bool) (fuel : Nat) {bs : List Byte} (h : t.holds a bs.length off) (hne : bs ≠ [])
    (hin : bs.length + a % 8 ≤ 8) : m.sendBytes c t fill (fuel + 1) a bs =
      ({ m with uid := m.uid + 1 }, .ok [{ id := m.uid, dst := .scratch t.uid off, bytes := bs, va := none, fill := fill }]) := by
  have hwhole : (a % 128 == 0 && decide (128 ≤ bs.length) && decide (a / 2 ^ 56 ≤ 1)) = false := by
    obtain ⟨⟨ha, -⟩, -⟩ := h
    rw [decide_eq_false (p := a / 2 ^ 56 ≤ 1) (by omega), Bool.and_false]
  have hk : min bs.length (8 - a % 8) = bs.length := by omega
  have hland : m.landing c t a bs.length = (m, .ok (.scratch t.uid off)) := by
    unfold Mach.landing
    rw [h.resolve (Nat.le_refl _)]
  have hrest (m : Mach) : m.sendBytes c t fill fuel (a + bs.length) [] = (m, .ok []) := by cases fuel <;> rfl
  rw [Mach.sendBytes, if_neg (by simpa using hne)]
  dsimp only
  rw [hwhole, if_neg Bool.false_ne_true, hk, hland]
  dsimp only [Mach.fresh]
  rw [List.drop_length, hrest, List.take_length]

theorem Cmd.fill_length (h : c.esize ∈ [1, 2, 4, 8]) : c.fill.length = c.esize := by
  have : c.esize ≤ 8 := by
    simp only [List.mem_cons, List.not_mem_nil, or_false] at h
    omega
  rw [Cmd.fill, List.length_take, leBytes_length, Nat.min_eq_left this]

theorem Cmd.elemPart_length {so : Nat → Nat} (h : c.esize ∈ [1, 2, 4, 8]) (j : Nat) : (c.elemPart t so j).2.1.length = c.esize := by
  unfold Cmd.elemPart
  dsimp only
  split
  · exact Memory.read_length _ _
  · exact Cmd.fill_length h

theorem Mach.sendPart_here {so d : Nat → Nat} {j : Nat} (hsize : c.esize ∈ [1, 2, 4, 8]) (h : c.ElemHere t so d j) (ps : List Piece) :
    Mach.sendPart c t (m, .ok ps) (c.elemPart t so j) =
      ({ m with uid := m.uid + 1 }, .ok (ps ++ [{ c.elemPiece t 0 so d j with id := m.uid }])) := by
  have hlen := Cmd.elemPart_length (t := t) (so := so) hsize j
  have hin : (c.elemPart t so j).2.1.length + (c.elemPart t so j).1 % 8 ≤ 8 := by
    have hal := h.aligned
    rw [hlen]
    show c.esize + (c.element (c.next + j)).2 % 8 ≤ 8
    simp only [List.mem_cons, List.not_mem_nil, or_false] at hsize
    rcases hsize with he | he | he | he <;> rw [he] at hal ⊢ <;> omega
  have hne : (c.elemPart t so j).2.1 ≠ [] := fun he => by
    rw [he] at hlen
    simp [← hlen] at hsize
  unfold Mach.sendPart
  dsimp only
  rw [Mach.sendBytes_one (off := d j) (c.elemPart t so j).2.2 _ (hlen ▸ h.dest) hne hin]
  rfl

theorem Mach.sendParts_here {so d : Nat → Nat} {k : Nat} (hsize : c.esize ∈ [1, 2, 4, 8]) (h : ∀ j < k, c.ElemHere t so d j) :
    ((List.range k).map (c.elemPart t so)).foldl (Mach.sendPart c t) (m, .ok []) =
      ({ m with uid := m.uid + k }, .ok ((List.range k).map (c.elemPiece t m.uid so d))) := by
  induction k with
  | zero => rfl
  | succ k ih =>
    rw [List.range_succ, List.map_append, List.foldl_append, ih fun j hj => h j (Nat.lt_succ_of_lt hj), List.map_singleton, List.foldl_cons,
      List.foldl_nil, Mach.sendPart_here hsize (h k (Nat.lt_succ_self k)), List.map_append, List.map_singleton]
    rfl

/-- TEN2 and TEN3 within the scratchpad. -/
theorem Mach.tenStep_scratch (hc : m.cmds = [c]) (ht : m.team? t.uid = some t) {so d : Nat → Nat} (hsize : c.esize ∈ [1, 2, 4, 8])
    (h : ∀ j < c.tenPart, c.ElemHere t so d j) : m.tenStep c t = { m with
      uid := m.uid + c.tenPart
      cmds := [c.sent ((List.range c.tenPart).map (c.elemPiece t m.uid so d)) (c.next + c.tenPart) c.window] } := by
  unfold Mach.tenStep
  dsimp only
  change (match (List.range c.tenPart).foldl (Mach.readElem c t) (m, .ok []) with
    | (m, .error e) => m.stopCmd c t e
    | (m, .ok out) => m.sendUnit c t out (c.next + c.tenPart) c.window) = _
  rw [Mach.readElems_here ht h]
  change (match ((List.range c.tenPart).map (c.elemPart t so)).foldl (Mach.sendPart c t) (m, .ok []) with
    | (m, .error e) => m.stopCmd c t e
    | (m, .ok ps) => m.updCmd c.id fun x => x.sent ps (c.next + c.tenPart) c.window) = _
  rw [Mach.sendParts_here hsize h]
  exact Mach.updCmd_only (m := { m with uid := m.uid + c.tenPart }) hc _

/-! ### GATH (R188) -/

/-- The row of a GATH's next element by the index that its table gives. -/
theorem Mach.gathRow_scratch (ht : m.team? t.uid = some t) (hrow : c.row = none) {io : Nat} (hi : t.holds (c.wide 1 2 + 4 * c.next) 4 io) :
    m.gathRow c t = (m, .ok (if 0 ≤ toS 32 (leNat (t.scratch.read io 4)) ∧ toS 32 (leNat (t.scratch.read io 4)) < c.word 1 7 then
      some ((c.src : Int) + toS 32 (leNat (t.scratch.read io 4)) * c.int 1 6).toNat else none)) := by
  unfold Mach.gathRow
  rw [hrow]
  dsimp only
  unfold Mach.rowOf
  rw [Mach.cmdRead_scratch ht false hi]
  dsimp only
  simp only [Bool.and_eq_true, decide_eq_true_eq]
  split <;> rfl

end

/-- Settles O45: each copy kind is its own step on the one command of the machine, whose reads and
pieces stay in the team's scratchpad. -/
theorem droverCopies : Obligations.DroverCopies := by
  intro s t c ht hrun hc hdone hp hfit has sent carries n
  have hteam : s.m.team? t.uid = some t := by
    have := team?_uid ht
    rw [this, ht]
  have hsent {i : Instr} {ps : List Piece} {next total u : Nat} {m : Mach} (he : exec i s = .next { s with m := m })
      (hm : m = { s.m with uid := u, cmds := [c.sent ps next total] }) : sent i ps next total := by
    subst hm
    exact ⟨_, he, rfl, rfl, rfl, rfl⟩
  have hdrive {kind : Nat} (hk : c.kind = kind) (f : Mach → Cmd → Team → Mach) : s.m.drive c.id kind f = f s.m c t :=
    Mach.drive_only hc ht hrun hdone hp hfit hk f
  have hstep {i : Instr} {kind : Nat} {f : Mach → Cmd → Team → Mach}
      (he : exec i s = onMach (fun m => m.drive c.id kind f) s) (hk : c.kind = kind) :
      exec i s = .next { s with m := f s.m c t } := by
    rw [he, onMach_next, hdrive hk]
  refine ⟨fun so d hk hs hd => ?_, fun d hk hd => ?_, fun k so d hkeq hsize helem => ?_, fun io so d hk hrow hi hd => ⟨fun h0 h1 hs => ?_, fun hout hlen hmod => ?_⟩⟩
  · obtain ⟨ps, hm, hcar⟩ := Mach.linStep_scratch hc hteam hs hd
    exact ⟨ps, hsent (hstep rfl hk) hm, hcar⟩
  · obtain ⟨ps, hm, hcar⟩ := Mach.fillStep_scratch hc hd
    exact ⟨ps, hsent (hstep rfl hk) hm, hcar⟩
  · have hhere : ∀ j < c.tenPart, c.ElemHere t so d j := fun j hj => by
      obtain ⟨hal, hdst, hsrc⟩ := helem j (hkeq.symm ▸ hj)
      exact ⟨hal, hdst, fun a ha => (hsrc a ha).2⟩
    have hm := Mach.tenStep_scratch hc hteam hsize hhere
    have hk' : c.tenPart = k := hkeq.symm
    rw [hk'] at hm
    simp only [List.forall_mem_cons]
    exact ⟨fun hk => hsent (hstep rfl hk) hm,
      fun hk => hsent (hstep rfl hk) hm, fun _ h => absurd h List.not_mem_nil⟩
  · have hg := Mach.gathRow_scratch hteam hrow hi
    rw [if_pos ⟨h0, h1⟩] at hg
    obtain ⟨ps, hm, hcar⟩ := Mach.sendUnit_scratch hc (off := d) (bs := t.scratch.read so (c.word 1 5)) (by rw [Memory.read_length]; exact hd)
      false (c.next + 1) (c.word 1 4)
    refine ⟨ps, hsent (hstep rfl hk) (Eq.trans ?_ hm), hcar⟩
    unfold Mach.gathStep
    dsimp only
    rw [hg]
    dsimp only
    rw [Mach.cmdRead_scratch hteam false hs]
  · have hg := Mach.gathRow_scratch hteam hrow hi
    rw [if_neg (by omega)] at hg
    obtain ⟨ps, hm, hcar⟩ := Mach.sendUnit_scratch hc (off := d) (bs := (List.replicate (c.word 1 5 / c.esize) c.fill).flatten) (by
      have : (c.word 1 5 / c.esize) * c.esize = c.word 1 5 := Nat.div_mul_cancel (Nat.dvd_of_mod_eq_zero hmod)
      simp only [List.length_flatten, List.map_replicate, hlen, List.sum_replicate, smul_eq_mul, this]
      exact hd) true (c.next + 1) (c.word 1 4)
    refine ⟨ps, hsent (hstep rfl hk) (Eq.trans ?_ hm), hcar⟩
    unfold Mach.gathStep
    dsimp only
    rw [hg]

end Sys2Proof.Machine
end

section
/-! SUPPORT. A collective that holds a large page and a small one within it: the state that refutes O46 (11 R193, 19 R275). -/

namespace Sys2Proof.Machine

/-- Pages that a user reads and writes: of 4 KiB at 0x20000, and of 16 KiB at 0x10000. -/
def smallPage : Leaf := { bits := 0x2004B#64, pte := 0, level := 0 }
def largePage : Leaf := { bits := 0x100000000001004B#64, pte := 0, level := 0 }

/-- A COLL of one rank over one I32: its vector at 0x1000, which both pages cover, its result and its members at places that only the
large page covers. -/
def loneCollective : Cmd := {
  id := 9, team := 1, owner := callLane.ref, inst := 0, seq := 0
  entries := [BitVec.ofNat 256 (0x48 + 2 ^ 192 * 0x2000), BitVec.ofNat 256 (0x1000 + 2 ^ 64 + 2 ^ 128 + 2 ^ 192 * 0x3000)]
  next := 0, landed := 0, done := false, status := 0, badAddr := 0, pieces := [], parked := none, lat := .near
  pages := [(0x1000, smallPage), (0, largePage)] }

def userContext : Ctx := newCtx {
  ctxno := callTeam.ctx, root := 0, keymask := 0xFFFF#16, kmode := false, lright := false, policy := false, svcok := false
  rlimit := 0, fqbase := 0, fqsize := 0, fqtail := 0 } 0

def collectiveState : State := { callState with m := { callState.m with
  cmds := [loneCollective], ctxs := [userContext], mem := callState.m.mem.write 0x20000 [1] } }

/-- The bytes that commands have on their way after the collective's step. -/
def sentAfter (s : State) : Option (List (List (List Byte))) :=
  match exec (.coll 9 true []) s with
  | .next t => some (t.m.cmds.map fun c => c.pieces.map fun p => p.bytes)
  | _ => none

theorem sentAfter_collectiveState : sentAfter collectiveState = some [[[0, 0, 0, 0]]] := by decide +kernel

/-- Refutes O46: the large page, held anew for the list of members, stands before the small one from then on, and the command reads its
vector through it. -/
theorem not_droverHomeKinds : ¬ Obligations.DroverHomeKinds := by
  intro hall
  obtain ⟨-, -, hcoll⟩ := hall collectiveState callTeam loneCollective rfl rfl rfl rfl rfl (by decide +kernel) rfl (by decide) (by decide)
    ⟨rfl, rfl⟩ (fun _ h => absurd h List.not_mem_nil)
  obtain ⟨m, c', he, -, -, hcmds, -, -, hpieces⟩ := hcoll .i32 largePage largePage smallPage 4 [] (by decide) rfl (by decide) (by decide)
    (by decide) (by decide) (by decide +kernel) (by decide) (by decide) (by decide) (by decide)
    ⟨by decide, ⟨0, by decide⟩, by decide, by decide⟩ ⟨by decide, ⟨0x1000, by decide⟩, by decide, by decide⟩
    ⟨by decide, ⟨0, by decide⟩, by decide, by decide⟩ ⟨by decide, by decide⟩ ⟨by decide, by decide⟩ (by decide)
  have hafter := sentAfter_collectiveState
  unfold sentAfter at hafter
  rw [show loneCollective.id = 9 from rfl] at he
  rw [he] at hafter
  dsimp only at hafter
  rw [hcmds, List.map_singleton, hpieces] at hafter
  exact absurd hafter (by decide)

end Sys2Proof.Machine
end

section
/-! SUPPORT. Records in a context's ring (19 R267), team faults (16 R244, R245) and the restart of a team (15 R232). -/

namespace Sys2Proof.Machine

/-! ### A record in a ring with room (19 R267) -/

def Ctx.moved (c : Ctx) : Ctx := { c with fqhead := c.fqhead + 1 }

/-- Memory with a record in a context's ring and FQHEAD moved on. -/
def Memory.posted (a : Memory) (c : Ctx) (r : Record) : Memory :=
  (a.write c.ringAt (leBytes (r.bits c.fqhead) 32)).write (c.addr + 28) (leBytes (c.fqhead + 1).toNat 4)

/-- A machine with bytes written at their home, and the wakes that they record. -/
def Mach.put (m : Mach) (pa : Nat) (bs : List Byte) : Mach := ({ m with mem := m.mem.write pa bs } : Mach).noteLine pa bs.length

theorem Mach.put_rest (m : Mach) (pa : Nat) (bs : List Byte) : m.put pa bs = { m with
    mem := m.mem.write pa bs, threads := (m.put pa bs).threads, launches := (m.put pa bs).launches } := rfl

/-- A machine with one round more of a region. -/
def Mach.counted (m : Mach) (g : Nat) : Mach := { m with rounds := setAssoc g (m.round g + 1) m.rounds }

/-- A machine with a record in a context's ring. -/
def Mach.posted (m : Mach) (ctx : Nat) (c : Ctx) (r : Record) : Mach :=
  (((m.put c.ringAt (leBytes (r.bits c.fqhead) 32)).counted (regionOf c.ringAt)).put (c.addr + 28)
    (leBytes (c.fqhead + 1).toNat 4)).updCtx ctx Ctx.moved

theorem Mach.put_counted_put_rest (m : Mach) (pa pb g ctx : Nat) (as bs : List Byte) (f : Ctx → Ctx) :
    (((m.put pa as).counted g).put pb bs).updCtx ctx f = { m with
      mem := (m.mem.write pa as).write pb bs, threads := (((m.put pa as).counted g).put pb bs).threads
      launches := (((m.put pa as).counted g).put pb bs).launches
      rounds := setAssoc g (m.round g + 1) m.rounds, ctxs := (m.updCtx ctx f).ctxs } := rfl

theorem Mach.posted_rest (m : Mach) (ctx : Nat) (c : Ctx) (r : Record) : m.posted ctx c r = { m with
    mem := m.mem.posted c r, threads := (m.posted ctx c r).threads, launches := (m.posted ctx c r).launches
    rounds := setAssoc (regionOf c.ringAt) (m.round (regionOf c.ringAt) + 1) m.rounds, ctxs := (m.updCtx ctx Ctx.moved).ctxs } :=
  Mach.put_counted_put_rest m _ _ _ _ _ _ _

theorem lineOf_descriptor {a : Nat} (h : a % 64 = 0) : lineOf (a + 28) = lineOf a := by
  simp only [lineOf]
  omega

theorem Mach.put_counted_put_mem (m : Mach) (pa pb g ctx : Nat) (as bs : List Byte) (f : Ctx → Ctx) :
    ((((m.put pa as).counted g).put pb bs).updCtx ctx f).mem = (m.mem.write pa as).write pb bs := rfl

theorem Mach.posted_mem (m : Mach) (ctx : Nat) (c : Ctx) (r : Record) : (m.posted ctx c r).mem = m.mem.posted c r :=
  Mach.put_counted_put_mem m _ _ _ _ _ _ _

theorem Mach.posted_versions (m : Mach) (ctx : Nat) (c : Ctx) (r : Record) : (m.posted ctx c r).versions = m.versions := by
  rw [Mach.posted_rest]

theorem Mach.cohWrite1_put {m : Mach} {pa : Nat} (h : m.atHome pa) (bs : List Byte) : m.cohWrite1 pa bs = m.put pa bs :=
  Mach.cohWrite1_home bs h

theorem Mach.atHome_descriptor {m : Mach} {a : Nat} (h : m.atHome a) (h64 : a % 64 = 0) : m.atHome (a + 28) := by
  rw [Mach.atHome, lineOf_descriptor h64]
  exact h

theorem Mach.countRounds_one (m : Mach) (g : Nat) : m.countRounds [g] = m.counted g := rfl

theorem Mach.writeRecord_home {m : Mach} {ctx : Nat} {c : Ctx} (hc : m.ctx? ctx = some c)
    (hroom : (c.fqhead - m.fqTail c).toNat ≠ c.desc.fqsize) (hring : m.atHome c.ringAt) (hdesc : m.atHome c.addr) (h64 : c.addr % 64 = 0)
    (r : Record) : m.writeRecord ctx r = m.posted ctx c r := by
  have hat (pa g : Nat) (bs : List Byte) : ((m.put pa bs).counted g).atHome (c.addr + 28) := Mach.atHome_descriptor hdesc h64
  simp only [Mach.writeRecord, hc, Mach.cohPrep_home hdesc]
  rw [if_neg (mt beq_iff_eq.1 hroom)]
  rw [show c.desc.fqbase + 32 * (c.fqhead.toNat % c.desc.fqsize) = c.ringAt from rfl, Mach.cohWrite1_put hring, Mach.countRounds_one,
    Mach.cohWrite1_put (hat _ _ _)]
  rfl

theorem Memory.get_posted {a : Memory} (hwf : a.wf = true) {c : Ctx} (hd : c.addr + 64 ≤ c.ringAt ∨ c.ringAt + 32 ≤ c.addr) (r : Record)
    (y : Nat) : (a.posted c r).get y = if c.ringAt ≤ y ∧ y < c.ringAt + 32 then (leBytes (r.bits c.fqhead) 32).getD (y - c.ringAt) 0
      else if c.addr + 28 ≤ y ∧ y < c.addr + 32 then (leBytes (c.fqhead + 1).toNat 4).getD (y - (c.addr + 28)) 0 else a.get y := by
  rw [Memory.posted, Memory.get_write _ _ _ (Memory.write_wf _ _ hwf), Memory.get_write _ _ _ hwf, leBytes_length, leBytes_length]
  split_ifs <;> first | rfl | omega

theorem Mach.ctx?_updCtx {m : Mach} {ctx : Nat} {c : Ctx} (hc : m.ctx? ctx = some c) (f : Ctx → Ctx)
    (hf : ∀ x, (f x).desc.ctxno = x.desc.ctxno) : (m.updCtx ctx f).ctx? ctx = some (f c) := by
  have hno : c.desc.ctxno = ctx := by simpa using List.find?_some hc
  simp only [Mach.ctx?, Mach.updCtx, List.find?_map] at hc ⊢
  have hsame : ((fun x : Ctx => x.desc.ctxno == ctx) ∘ fun x => if x.desc.ctxno == ctx then f x else x) =
      fun x : Ctx => x.desc.ctxno == ctx := by
    funext x
    by_cases hx : x.desc.ctxno = ctx <;> simp [hx, hf]
  rw [hsame, hc]
  simp [hno]

theorem Mach.ctx?_posted {m : Mach} {ctx : Nat} {c : Ctx} (hc : m.ctx? ctx = some c) (d : Ctx) (r : Record) :
    (m.posted ctx d r).ctx? ctx = some c.moved := by
  rw [Mach.posted_rest]
  exact Mach.ctx?_updCtx hc Ctx.moved fun _ => rfl

theorem Mach.round_posted (m : Mach) (ctx : Nat) (c : Ctx) (r : Record) :
    (m.posted ctx c r).round (regionOf c.ringAt) = m.round (regionOf c.ringAt) + 1 := by
  rw [Mach.posted_rest]
  exact (getAssoc_setAssoc _ _ _ _ _).trans (if_pos rfl)

/-! ### Detection (16 R244) -/

def Team.informed (i : Imprecise) (t : Team) : Team := { t with latent := [], known := [i], fp := true }

def Thread.skidding (t : Thread) : Thread := { t with skid := 0 }

theorem detects {s : State} {t : Team} (ht : s.m.team? t.uid = some t) (hr : t.status = .running) :
    exec (.impreciseFaultDetect t.uid) s = .next { s with m := s.m.detect t.uid } := by
  change execImpreciseFaultDetect t.uid s = _
  refine (onMach_next _ s).trans (congrArg (fun m => Host.Outcome.next { s with m := m }) ?_)
  simp only [ht, Team.occupies, hr, if_true]

/-- Whether the thread of a fault has not retired. -/
def Imprecise.alive (m : Mach) (i : Imprecise) : Bool :=
  match i.thread.bind m.thread? with
  | some x => x.wait != .exited
  | none => false

/-- The fault that a core learns of: attributed to the team when its thread has retired. -/
def Imprecise.attributed (m : Mach) (i : Imprecise) : Imprecise := { i with thread := if i.alive m then i.thread else none }

theorem Imprecise.attributed_alive {m : Mach} {i : Imprecise} {r : TRef} {x : Thread} (hi : i.thread = some r)
    (hx : m.thread? r = some x) (hw : x.wait ≠ .exited) : i.attributed m = i := by
  obtain ⟨cause, addr, thread⟩ := i
  subst hi
  simp [Imprecise.attributed, Imprecise.alive, hx, hw]

theorem Imprecise.attributed_team {m : Mach} {i : Imprecise} (hi : i.thread = none) : i.attributed m = i := by
  obtain ⟨cause, addr, thread⟩ := i
  subst hi
  rfl

/-- What becomes of the machine once the team has learned of a first fault. -/
def Mach.firstKnown (m : Mach) (u : Nat) (i : Imprecise) : Mach :=
  match i.thread with
  | none => m.reportFault u i
  | some r => m.updThread r fun x => { x with skid := 0 }

theorem Mach.detect_first {m : Mach} {u : Nat} {t : Team} {i : Imprecise} (ht : m.team? u = some t) (hl : t.latent = [i]) (hk : t.known = []) :
    m.detect u = (m.updTeam u (Team.informed (i.attributed m))).firstKnown u (i.attributed m) := by
  unfold Mach.detect
  rw [ht]
  cases t
  cases hl
  cases hk
  rfl

theorem Mach.detect_thread {m : Mach} {t : Team} {i : Imprecise} {r : TRef} {x : Thread} (ht : m.team? t.uid = some t)
    (hl : t.latent = [i]) (hk : t.known = []) (hi : i.thread = some r) (hx : m.thread? r = some x) (hw : x.wait ≠ .exited) :
    m.detect t.uid = (m.updTeam t.uid fun y => { y with latent := [], known := [i], fp := true }).updThread r fun y => { y with skid := 0 } := by
  rw [Mach.detect_first ht hl hk, Imprecise.attributed_alive hi hx hw, Mach.firstKnown, hi]
  rfl

theorem Mach.detect_team {m : Mach} {t : Team} {i : Imprecise} (ht : m.team? t.uid = some t) (hl : t.latent = [i]) (hk : t.known = [])
    (hi : i.thread = none) : m.detect t.uid = (m.updTeam t.uid (Team.informed i)).reportFault t.uid i := by
  rw [Mach.detect_first ht hl hk, Imprecise.attributed_team hi, Mach.firstKnown, hi]

theorem Mach.reportFault_running {m : Mach} {t : Team} {i : Imprecise} (ht : m.team? t.uid = some t) (hr : t.status = .running)
    (hi : i.thread = none) : (m.reportFault t.uid i).mem = m.mem ∧ (m.reportFault t.uid i).team? t.uid = some (t.faulted {
      addr := i.addr, inst := 0, taskid := t.taskid, mask := 0, exc := 0, cause := i.cause, kind := 7, core := t.core
      tslot := t.slot, group := 0 }) := by
  unfold Mach.reportFault
  rw [ht, hi]
  exact ⟨(Mach.teamFault_rest ht hr _).2.1, Mach.team?_teamFault ht hr _⟩

/-! ### The record of a team fault (16 R245) -/

theorem Mach.ctx?_congr {m n : Mach} (h : n.ctxs = m.ctxs) (u : Nat) : n.ctx? u = m.ctx? u := by rw [Mach.ctx?, Mach.ctx?, h]

/-- What the end of a faulted team's queue leaves: nothing but its commands, their names and the queue itself change. -/
def Team.unqueued (h : Nat) (t : Team) : Team := { t with qcmds := [], returned := [], qhead := h }

theorem Mach.abortQueue_rest {m : Mach} {u : Nat} {t : Team} (ht : m.team? u = some t) : ∃ uid cmds h, m.abortQueue u =
    { (m.updTeam u (Team.unqueued h)) with uid := uid, cmds := cmds } := by
  unfold Mach.abortQueue
  rw [ht]
  dsimp only
  generalize hstep : (fun (acc : Mach × Nat) (q : Nat × TRef × Word) => _) = step
  have hfold : ∃ uid cmds, (t.qcmds.foldl step ({ m with cmds := m.cmds ++ t.returned.map fun c =>
      { c with parked := none, done := true, status := 0x000B, pieces := [] } }, t.qhead)).1 = { m with uid := uid, cmds := cmds } := by
    refine List.foldlRecOn (motive := fun acc : Mach × Nat => ∃ uid cmds, acc.1 = { m with uid := uid, cmds := cmds }) _ _ ⟨_, _, rfl⟩ ?_
    rintro acc ⟨uid, cmds, hacc⟩ q -
    subst hstep
    exact ⟨uid + 1, _, by dsimp only; rw [hacc]; rfl⟩
  obtain ⟨uid, cmds, hfold⟩ := hfold
  exact ⟨uid, _, _, by rw [hfold]; rfl⟩

def Team.settled (restart : Bool) (t : Team) : Team := { t with fault := none, killed := !restart, fp := false, known := [], latent := [] }

/-- Whether a faulted team may start again (16 R245). -/
def Team.restarts? (t : Team) (c : Ctx) : Bool :=
  c.desc.policy && t.rstr && !t.nr && decide (t.restarts < c.desc.rlimit) && !t.shepherd

/-- Whether a faulted team may start again, by its context as it stands. -/
def Mach.restarts? (m : Mach) (t : Team) : Bool :=
  match m.ctx? t.ctx with
  | some c => t.restarts? c
  | none => false

/-- The machine in which a faulted team's bytes are gone and its queue has ended. -/
def Mach.unqueued (m : Mach) (u uid h : Nat) (cmds : List Cmd) : Mach :=
  { ((m.discard u).updTeam u (Team.unqueued h)) with uid := uid, cmds := cmds }

theorem Mach.settleFault_records {s : State} {t : Team} {c : Ctx} {r : Record} (ht : s.m.team? t.uid = some t) (hrec : s.Records t c r) :
    ∃ uid cmds h, s.m.settleFault t r = ((s.m.unqueued t.uid uid h cmds).posted t.ctx c r).updTeam t.uid (Team.settled (t.restarts? c)) := by
  obtain ⟨-, hctx, hroom, -, ⟨h64, -⟩, -, hring, hdesc⟩ := hrec
  obtain ⟨uid, cmds, h, hq⟩ := Mach.abortQueue_rest (m := s.m.discard t.uid) (t := t) ht
  refine ⟨uid, cmds, h, ?_⟩
  have hw : (s.m.unqueued t.uid uid h cmds).writeRecord t.ctx r = (s.m.unqueued t.uid uid h cmds).posted t.ctx c r :=
    Mach.writeRecord_home (m := s.m.unqueued t.uid uid h cmds) hctx hroom hring hdesc h64 r
  have hre : ((s.m.unqueued t.uid uid h cmds).posted t.ctx c r).restarts? t = t.restarts? c := by
    rw [Mach.restarts?, Mach.ctx?_posted (m := s.m.unqueued t.uid uid h cmds) hctx]
    rfl
  unfold Mach.settleFault
  rw [hq]
  change (Mach.updTeam ((s.m.unqueued t.uid uid h cmds).writeRecord t.ctx r) t.uid
    (Team.settled (((s.m.unqueued t.uid uid h cmds).writeRecord t.ctx r).restarts? t))) = _
  rw [hw, hre]

theorem Mach.team?_posted (m : Mach) (ctx : Nat) (c : Ctx) (r : Record) (u : Nat) : (m.posted ctx c r).team? u = m.team? u := by
  rw [Mach.posted_rest]
  rfl

/-! ### The restart of a team (15 R232, 16 R245) -/

theorem exec_teamRetire (s : State) (u : Nat) : exec (.teamRetire u) s = .next { s with
    m := s.m.retireTeam u } := rfl

theorem Mach.opsDone_of {m : Mach} {u : Nat} (h : ∀ x ∈ m.threads, x.ref.team = u → x.ops = [] ∧ x.release = none) : m.opsDone u = true := by
  rw [Mach.opsDone, List.all_eq_true]
  intro x hx
  by_cases hu : x.ref.team = u
  · simp [h x hx hu]
  · simp [hu]

theorem Mach.retireTeam_faulted {m : Mach} {u : Nat} {t : Team} {r : Record} (ht : m.team? u = some t) (hs : t.status = .stopping)
    (hf : t.fault = some r) (hd : m.opsDone u = true) : m.retireTeam u = m.settleFault t r := by
  unfold Mach.retireTeam
  rw [ht]
  dsimp only
  rw [hs, hf]
  exact if_pos hd

theorem Mach.retireTeam_restart {m : Mach} {u : Nat} {t : Team} (ht : m.team? u = some t) (hs : t.status = .stopping)
    (hf : t.fault = none) (hk : t.killed = false) (hd : m.teamDrained u = true) : m.retireTeam u = m.restart t := by
  unfold Mach.retireTeam
  rw [ht]
  dsimp only
  rw [hs, hf]
  simp [hd, hk]

theorem groupsOn_le_eight {n : Nat} (h : n ≤ 1024) (b : Nat) {sub : Nat} (hs : sub < 4) : groupsOn n b sub ≤ 8 := by
  have hall : ∀ x < 4, ∀ y < 4, ((List.range 32).filter fun g => (x + g) % 4 == y).length ≤ 8 := by decide
  have hcount : groupCount n ≤ 32 := by
    simp only [groupCount]
    omega
  refine le_trans (List.Sublist.length_le ((List.range_sublist.2 hcount).filter _)) ?_
  · have hmod : (fun g => (b + g) % 4 == sub) = fun g => (b % 4 + g) % 4 == sub := funext fun g => by rw [Nat.mod_add_mod]
    rw [hmod]
    exact hall _ (Nat.mod_lt _ (by omega)) _ hs

theorem Mach.seatGroups_rest (m : Mach) (u core n base : Nat) : ∃ gs, m.seatGroups u core n base = { m with groups := gs } := by
  unfold Mach.seatGroups
  exact List.foldlRecOn (motive := fun x : Mach => ∃ gs, x = { m with groups := gs }) _ _ ⟨_, rfl⟩ (by
    rintro _ ⟨gs, rfl⟩ g -
    exact ⟨_, rfl⟩)

def Team.again (t : Team) : Team := { t with restarts := min 255 (t.restarts + 1) }

/-- The slots suffice for a team whose groups are the only ones: the machine in which it starts again. -/
theorem Mach.restart_alone {m : Mach} {t : Team} (hn : t.n ≤ 1024) (hg : ∀ g ∈ m.groups, g.team = t.uid) :
    ∃ gs acc, m.restart t = (({ m.endWatches t.uid with groups := gs } : Mach).updTeam t.uid Team.again).startTeam t.uid acc := by
  have hnone : m.groups.filter (fun g => g.team != t.uid) = [] := List.filter_eq_nil_iff.2 fun g h => by simp [hg g h]
  have hfit : ((List.range 4).all fun s => groupsOn t.n t.base s +
      (({ m with groups := m.groups.filter fun g => g.team != t.uid } : Mach).slotsUsed t.core s).length ≤ 8) = true := by
    rw [List.all_eq_true]
    intro s hs
    rw [hnone]
    exact decide_eq_true (groupsOn_le_eight hn t.base (List.mem_range.1 hs))
  obtain ⟨gs, hgs⟩ := Mach.seatGroups_rest (({ m with groups := m.groups.filter fun g => g.team != t.uid } : Mach).endWatches t.uid)
    t.uid t.core t.n t.base
  refine ⟨gs, match m.launch? t.launch with | some l => l.accepted | none => 0, (if_pos hfit).trans ?_⟩
  rw [hgs]
  rfl

/-- A team in team-start state, in a machine whose next name is `uid` and whose clock reads `clk` (15 R232). -/
def Team.fresh (clk uid : Nat) (t : Team) : Team := { t with
  scratch := [], tileMem := [], tileTags := List.replicate t.tiles .f32, qmem := [], qhead := 0, qtail := 0, qcmds := [], returned := []
  taskid := 0, nr := false, fp := false, defer := false, latent := [], known := [], hurdles := [], status := .running
  startClk := clk, preempt := none, killed := false, lost := false, brk := false, fault := none, since := uid }

theorem Mach.startTeam_of {m : Mach} {u acc : Nat} {t : Team} (ht : m.team? u = some t) :
    (m.startTeam u acc).mem = m.mem ∧ (m.startTeam u acc).team? u = some (t.fresh m.clk m.uid) ∧
      (m.startTeam u acc).threads = m.threads.filter (fun x => !(x.ref.team == u)) ++
        (teamThreads t.n).map fun p => startThread { team := u, tidx := p.1 } p.2 t.regs t.entry m.clk := by
  unfold Mach.startTeam
  rw [ht]
  refine ⟨rfl, ?_, rfl⟩
  exact (Mach.team?_updTeam m u (Team.fresh m.clk m.uid) fun _ => rfl).trans (congrArg (Option.map _) ht)

theorem started_threads (u : Nat) (xs : List Thread) (ps : List (Nat × Bool)) (n : Nat) (entry : DWord) (clk : Nat) :
    ((xs.filter fun x => !(x.ref.team == u)) ++ ps.map fun p => startThread { team := u, tidx := p.1 } p.2 n entry clk).filter
      (fun x => x.ref.team == u) = ps.map fun p => startThread { team := u, tidx := p.1 } p.2 n entry clk := by
  rw [List.filter_append, List.filter_filter]
  simp [startThread, List.filter_map, Function.comp_def]

/-- What stands of a machine once a record of a team stands in its context's ring. -/
structure State.Posted (s : State) (t : Team) (c : Ctx) (r : Record) (n : Mach) : Prop where
  mem      : ∀ y, n.mem.get y = if c.ringAt ≤ y ∧ y < c.ringAt + 32 then (leBytes (r.bits c.fqhead) 32).getD (y - c.ringAt) 0
    else if c.addr + 28 ≤ y ∧ y < c.addr + 32 then (leBytes (c.fqhead + 1).toNat 4).getD (y - (c.addr + 28)) 0 else s.m.mem.get y
  ctx      : n.ctx? t.ctx = some c.moved
  round    : n.round (regionOf c.ringAt) = s.m.round (regionOf c.ringAt) + 1
  versions : n.versions = s.m.versions.filter (fun b => b.diePub || b.ref.team != t.uid)

/-- What a team fault leaves once its record stands in the ring. -/
theorem Mach.unqueued_posted {s : State} {t : Team} {c : Ctx} {r : Record} (hrec : s.Records t c r) (uid h : Nat) (cmds : List Cmd) :
    s.Posted t c r ((s.m.unqueued t.uid uid h cmds).posted t.ctx c r) where
  mem y := by
    rw [Mach.posted_mem, show (s.m.unqueued t.uid uid h cmds).mem = s.m.mem from rfl, Memory.get_posted hrec.wf hrec.desc.2]
  ctx := Mach.ctx?_posted (m := s.m.unqueued t.uid uid h cmds) hrec.ctx c r
  round := Mach.round_posted (s.m.unqueued t.uid uid h cmds) t.ctx c r
  versions := Mach.posted_versions _ _ _ _

/-- A team fault whose operations have completed leaves its record and what becomes of its team. -/
theorem teamRetire_faulted {s : State} {t : Team} {c : Ctx} {r : Record} (ht : s.m.team? t.uid = some t) (hs : t.status = .stopping)
    (hrec : s.Records t c r) (hops : ∀ x ∈ s.m.threads, x.ref.team = t.uid → x.ops = [] ∧ x.release = none) :
    ∃ n h, s.Posted t c r n ∧ n.team? t.uid = some (t.unqueued h) ∧
      exec (.teamRetire t.uid) s = .next { s with m := n.updTeam t.uid (Team.settled (t.restarts? c)) } := by
  obtain ⟨uid, cmds, h, hm⟩ := Mach.settleFault_records ht hrec
  have hteam : ((s.m.unqueued t.uid uid h cmds).posted t.ctx c r).team? t.uid = some (t.unqueued h) :=
    (Mach.team?_posted _ _ _ _ _).trans ((Mach.team?_updTeam _ _ (Team.unqueued h) fun _ => rfl).trans (congrArg (Option.map _) ht))
  refine ⟨_, h, Mach.unqueued_posted hrec uid h cmds, hteam, (exec_teamRetire s t.uid).trans ?_⟩
  rw [Mach.retireTeam_faulted ht hs hrec.fault (Mach.opsDone_of hops), hm]

/-- Settles O47: a fault that the core learns of, the record of a team fault, and the restart, each by what its step leaves of the
machine. -/
theorem teamFaults : Obligations.TeamFaults := by
  intro s t ht
  refine ⟨fun i hr hl hk => ⟨fun r x hi hx hw => ?_, fun hi => ?_⟩, fun c r hs hrec hops => ?_, fun hs hf hk hn hd hg => ?_⟩
  · rw [detects ht hr, Mach.detect_thread ht hl hk hi hx hw]
  · have hinf : (s.m.updTeam t.uid (Team.informed i)).team? (t.informed i).uid = some (t.informed i) :=
      (Mach.team?_updTeam _ _ (Team.informed i) fun _ => rfl).trans (congrArg (Option.map _) ht)
    obtain ⟨hmem, hteam⟩ := Mach.reportFault_running hinf hr hi
    exact ⟨_, _, (detects ht hr).trans (by rw [Mach.detect_team ht hl hk hi]; rfl), hmem, hteam, rfl, rfl⟩
  · obtain ⟨n, h, hn, hteam, he⟩ := teamRetire_faulted ht hs hrec hops
    refine ⟨_, _, he, hn.mem, hn.ctx, hn.round, hn.versions,
      (Mach.team?_updTeam _ _ (Team.settled (t.restarts? c)) fun _ => rfl).trans (congrArg (Option.map _) hteam), hs, rfl, ?_⟩
    rw [Team.settled, Bool.not_eq_true', ← Bool.not_eq_true]
    exact not_congr (by simp [Team.restarts?, and_assoc])
  · obtain ⟨gs, acc, hm⟩ := Mach.restart_alone hn hg
    have hteam : (({ s.m.endWatches t.uid with groups := gs } : Mach).updTeam t.uid Team.again).team? t.uid = some t.again :=
      (Mach.team?_updTeam _ _ Team.again fun _ => rfl).trans (congrArg (Option.map _) ht)
    obtain ⟨hmem, hfresh, hthreads⟩ := Mach.startTeam_of (acc := acc) hteam
    refine ⟨_, _, (exec_teamRetire s t.uid).trans (by rw [Mach.retireTeam_restart ht hs hf hk hd, hm]), hmem, hfresh, ?_, ?_⟩
    · obtain ⟨⟩ := t
      cases hf
      cases hk
      rfl
    · rw [hthreads]
      exact started_threads _ _ _ _ _ _

end Sys2Proof.Machine
end

section
/-! SUPPORT. A dependence stamp that ends in a pool's shadow table: the state that refutes O48 (15 R227, 19 R272). -/

namespace Sys2Proof.Machine

/-- The shadow table of a pool of 8 KiB behind port 0: the last line of die 0's HBM. -/
def tableBase : Nat := shadowBase 0 8192

/-- A launch that waits for 2^32 in the eight bytes of which the last four are the table's first. -/
def stampedLaunch : Launch := { benchLaunch 1 with
  eligible := false, dep0 := some (0, 0x100000000#64), dep0pa := some (tableBase - 4), dep1 := none, rec0 := false, met0 := false }

/-- The first line of the pool has a remote sharer. -/
def stampedState : State := { callState with m := { callState.m with
  launches := [stampedLaunch], ports := [.cxl 8192], linemeta := [(poolBase 0, 1#16)] } }

/-- Which launches are eligible after the event. -/
def eligibleAfter (s : State) : Option (List Bool) :=
  match exec (.launchEligible 1) s with
  | .next t => some (t.m.launches.map fun l => l.eligible)
  | _ => none

theorem eligibleAfter_stampedState : eligibleAfter stampedState = some [true] := by decide +kernel

theorem stampedState_atHome : stampedState.m.atHome (tableBase - 4) := ⟨by decide +kernel, by decide +kernel⟩

/-- Refutes O48: the eight bytes of a stamp that is not aligned reach into the next line, and the home reads those of a shadow table
from the metadata of pool lines, not from memory. -/
theorem not_teamEvents : ¬ Obligations.TeamEvents := by
  rintro ⟨-, -, heligible, -⟩
  have he := heligible stampedState stampedLaunch 0 (tableBase - 4) 0x100000000#64 rfl rfl rfl rfl rfl stampedState_atHome
  have hnot : ¬ (stampedLaunch.met0 = true ∨ (stampedLaunch.rec0 = false ∧
      (0x100000000#64).toNat ≤ leNat (stampedState.m.mem.read (tableBase - 4) 8))) := by decide +kernel
  rw [if_neg hnot] at he
  have hafter := eligibleAfter_stampedState
  unfold eligibleAfter at hafter
  rw [show (1 : Nat) = stampedLaunch.uid from rfl, he] at hafter
  exact absurd hafter (by decide)

end Sys2Proof.Machine
end

section
/-! SUPPORT. Pre-empting, saving and restoring teams, and the end of a context (15 R229, R233; 16 R250-R254). -/

namespace Sys2Proof.Machine

/-! ### Requests and limits (16 R250-R252) -/

/-- A team asked to give up its core by a method from a cycle on. -/
def Team.asked (me : Method) (since : Nat) (d : Option Nat) (f : Bool) (t : Team) : Team := { t with
  preempt := some { method := me, since := since, defer := d, forced := f }, defer := d.isSome }

variable {m : Mach} {u : Nat} {t : Team}

theorem Mach.beginPreempt_drain (ht : m.team? u = some t) (hr : t.status = .running) (f : Bool) :
    m.beginPreempt u .drain f = m.updTeam u (Team.asked .drain m.clk none f) := by
  unfold Mach.beginPreempt
  rw [ht]
  dsimp only
  rw [hr]
  rfl

theorem Mach.beginPreempt_deferred (ht : m.team? u = some t) (hr : t.status = .running) (hh : t.hurdles ≠ []) {me : Method}
    (hme : me ≠ .drain) (f : Bool) : m.beginPreempt u me f = m.updTeam u (Team.asked me m.clk (some m.clk) f) := by
  have hd : (me == .drain) = false := beq_eq_false_iff_ne.2 hme
  have he : t.hurdles.isEmpty = false := by simpa using hh
  unfold Mach.beginPreempt
  rw [ht]
  dsimp only
  rw [hr, hd, he]
  rfl

theorem Mach.beginPreempt_saves (ht : m.team? u = some t) (hr : t.status = .running) (hh : t.hurdles = []) (f : Bool) :
    m.beginPreempt u .save f = m.updTeam u (Team.asked .save m.clk none f) := by
  unfold Mach.beginPreempt
  rw [ht]
  dsimp only
  rw [hr, hh]
  rfl

/-- A save waits while a hurdle is partly arrived. -/
theorem Mach.beginPreempt_save_or (ht : m.team? u = some t) (hr : t.status = .running) (f : Bool) :
    m.beginPreempt u .save f = m.updTeam u (Team.asked .save m.clk (if t.hurdles = [] then none else some m.clk) f) := by
  split_ifs with hh
  · exact Mach.beginPreempt_saves ht hr hh f
  · exact Mach.beginPreempt_deferred ht hr hh (by decide) f

theorem Mach.abortQueue_empty (ht : m.team? u = some t) (hq : t.qcmds = []) :
    ∃ cmds, m.abortQueue u = { (m.updTeam u (Team.unqueued t.qhead)) with cmds := cmds } := by
  unfold Mach.abortQueue
  rw [ht]
  dsimp only
  rw [hq]
  exact ⟨_, rfl⟩

theorem Team.unqueued_empty (hq : t.qcmds = []) (hret : t.returned = []) : t.unqueued t.qhead = t := by
  obtain ⟨⟩ := t
  cases hq
  cases hret
  rfl

/-- A flush leaves of the team what it stands for, with an empty queue. -/
theorem Mach.beginPreempt_flush (ht : m.team? u = some t) (hr : t.status = .running) (hh : t.hurdles = []) (hq : t.qcmds = [])
    (hret : t.returned = []) (f : Bool) : (m.beginPreempt u .flush f).mem = m.mem ∧
      (m.beginPreempt u .flush f).team? u = some (t.asked .flush m.clk none f) := by
  have hasked : (m.updTeam u (Team.asked .flush m.clk none f)).team? u = some (t.asked .flush m.clk none f) :=
    (Mach.team?_updTeam _ _ (Team.asked .flush m.clk none f) fun _ => rfl).trans (congrArg (Option.map _) ht)
  obtain ⟨cmds, hab⟩ := Mach.abortQueue_empty hasked hq
  have hb : m.beginPreempt u .flush f =
      ((((m.updTeam u (Team.asked .flush m.clk none f)).abortQueue u).dropMerges u).settleTiles u).dropBatches u := by
    unfold Mach.beginPreempt
    rw [ht]
    dsimp only
    rw [hr, hh]
    rfl
  rw [hb, hab]
  refine ⟨rfl, ?_⟩
  change ((m.updTeam u (Team.asked .flush m.clk none f)).updTeam u (Team.unqueued (t.asked .flush m.clk none f).qhead)).team? u = _
  rw [Mach.team?_updTeam _ _ (Team.unqueued _) fun _ => rfl, hasked, Option.map_some,
    Team.unqueued_empty (t := t.asked .flush m.clk none f) hq hret]

/-- The time that a team has run, and its groups, all and retired (16 R250). -/
theorem Mach.methodFor_flush (hi : t.idem = true) (he : m.clk - t.startClk < 35000) : m.methodFor t = .flush := by
  unfold Mach.methodFor
  dsimp only
  rw [if_pos (by rw [hi]; exact decide_eq_true he)]

theorem Mach.methodFor_long (hi : t.idem = true → 35000 ≤ m.clk - t.startClk) :
    m.methodFor t = if 1 ≤ ((m.groups.filter fun g => g.team == t.uid).filter fun g => g.retired).length ∧
      (m.clk - t.startClk) * ((m.groups.filter fun g => g.team == t.uid).length -
        ((m.groups.filter fun g => g.team == t.uid).filter fun g => g.retired).length) ≤
        350000 * ((m.groups.filter fun g => g.team == t.uid).filter fun g => g.retired).length then .drain else .save := by
  have hno : (t.idem && decide (m.clk - t.startClk < Config.usCycles 20)) = false := by
    rw [Bool.and_eq_false_imp]
    exact fun h => decide_eq_false (Nat.not_lt.2 (hi h))
  unfold Mach.methodFor
  dsimp only
  rw [hno, if_neg Bool.false_ne_true]
  simp only [Bool.and_eq_true, decide_eq_true_eq]
  rfl

/-! ### Requests -/

theorem requestPreempt_free {s : State} (ht : s.m.team? t.uid = some t) (hp : t.preempt = none) :
    s.m.requestPreempt t.uid = s.m.beginPreempt t.uid (s.m.methodFor t) false := by
  unfold Mach.requestPreempt
  rw [ht]
  dsimp only
  rw [hp]
  rfl

theorem preemptRequest_free {s : State} (ht : s.m.team? t.uid = some t) (hp : t.preempt = none) (hs : t.shepherd = false) :
    exec (.preemptRequest t.uid) s = .next { s with m := s.m.beginPreempt t.uid (s.m.methodFor t) false } := by
  change execPreemptRequest t.uid s = _
  refine (onMach_next _ s).trans (congrArg (fun m => Host.Outcome.next { s with m := m }) ?_)
  rw [ht]
  dsimp only
  rw [hs]
  exact requestPreempt_free ht hp

/-- A waiting priority-3 fold whose one victim is asked. -/
theorem Mach.askRoom_one {l : Launch} {k : Mach} (ht : m.team? t.uid = some t) (hl : m.launch? l.uid = some l) (hp : l.prio = 3)
    (hs : l.shepherd = none) (he : l.eligible = true) (hn : l.next < l.folds) (hw : l.waited m.clk = true) (ha : l.asked = [])
    (hr : m.runs l.ctx = true) (hc : m.choice l = some [t.uid]) (hk : m.requestPreempt t.uid = k) (hh : k.heldCores = m.heldCores) :
    m.askRoom l.uid = { (k.updLaunch l.uid fun y => { y with asked := [t.uid] }) with
      heldCores := (m.heldCores ++ [(t.core, l.uid)]).dedup } := by
  unfold Mach.askRoom
  rw [hl]
  dsimp only
  rw [hp, hs, he, hw, ha, hr, hc, decide_eq_false (Nat.not_le.2 hn)]
  simp [ht, hk, hh, Mach.updLaunch]

theorem priorityWait_one {s : State} {l : Launch} (ht : s.m.team? t.uid = some t) (hrun : t.status = .running) (hfree : t.preempt = none)
    (hl : s.m.launch? l.uid = some l) (hp : l.prio = 3) (hs : l.shepherd = none) (he : l.eligible = true) (hn : l.next < l.folds)
    (hw : l.waited s.m.clk = true) (ha : l.asked = []) (hr : s.m.runs l.ctx = true) (hc : s.m.choice l = some [t.uid])
    (hme : s.m.methodFor t = .save) (hh : t.hurdles = []) :
    exec (.priorityWaitExpiry l.uid) s = .next { s with
      m := { ((s.m.updTeam t.uid (Team.asked .save s.m.clk none false)).updLaunch l.uid fun y => { y with asked := [t.uid] }) with
        heldCores := (s.m.heldCores ++ [(t.core, l.uid)]).dedup } } := by
  have hk : s.m.requestPreempt t.uid = s.m.updTeam t.uid (Team.asked .save s.m.clk none false) := by
    rw [requestPreempt_free ht hfree, hme, Mach.beginPreempt_saves ht hrun hh]
  change execPriorityWaitExpiry l.uid s = _
  exact (onMach_next _ s).trans (congrArg (fun m => Host.Outcome.next { s with m := m })
    (Mach.askRoom_one ht hl hp hs he hn hw ha hr hc hk rfl))

/-! ### Limits -/

theorem Mach.drainTimeout_of {p : Preempt} (ht : m.team? u = some t) (hp : t.preempt = some p) (hme : p.method = .drain)
    (hc : p.since + 350000 ≤ m.clk) : m.drainTimeout u = m.beginPreempt u .save p.forced := by
  unfold Mach.drainTimeout
  rw [ht]
  obtain ⟨⟩ := t
  obtain ⟨⟩ := p
  cases hp
  cases hme
  exact if_pos hc

theorem Mach.deferTimeout_of {p : Preempt} {c : Nat} (ht : m.team? u = some t) (hr : t.status = .running) (hp : t.preempt = some p)
    (hd : p.defer = some c) (hc : c + 175000 ≤ m.clk) : m.deferTimeout u =
      m.updTeam u fun y => { y with preempt := some { p with method := .save, defer := none }, defer := false } := by
  unfold Mach.deferTimeout
  rw [ht]
  obtain ⟨⟩ := t
  obtain ⟨⟩ := p
  cases hp
  cases hr
  cases hd
  exact if_pos hc

theorem Mach.deferClear_of {p : Preempt} {c : Nat} (ht : m.team? u = some t) (hp : t.preempt = some p) (hd : p.defer = some c) :
    m.deferClear u = if t.hurdles.isEmpty then m.beginPreempt u (if p.forced then .save else m.methodFor t) p.forced else m := by
  unfold Mach.deferClear
  rw [ht]
  obtain ⟨⟩ := t
  obtain ⟨⟩ := p
  cases hp
  cases hd
  rfl

theorem exec_drainTimeout (s : State) (u : Nat) : exec (.drainTimeout u) s = .next { s with m := s.m.drainTimeout u } := rfl

theorem exec_deferTimeout (s : State) (u : Nat) : exec (.deferTimeout u) s = .next { s with m := s.m.deferTimeout u } := rfl

theorem exec_deferClear (s : State) (u : Nat) : exec (.deferClear u) s = .next { s with m := s.m.deferClear u } := rfl

/-! ### Save (16 R251, R253) -/

/-- What a save leaves: the team aside with some commands put back, some commands in their engines, the lanes that a breakpoint stopped
ready, and the team's unpublished bytes in a slice. -/
def Mach.setAside (m : Mach) (u : Nat) (cs stay : List Cmd) : Mach :=
  { (m.updTeam u fun y => { y with status := .saved, preempt := none, defer := false, returned := cs ++ y.returned }) with
    cmds := stay
    threads := m.threads.map fun x => if x.ref.team = u ∧ x.wait = .halted then { x with wait := .ready } else x
    versions := m.versions.map fun b => if b.ref.team = u ∧ b.inL1 = true ∧ b.diePub = false then { b with l2 := true } else b }

theorem Mach.canSave_of {p : Preempt} (hr : t.status = .running) (hp : t.preempt = some p) (hme : p.method = .save)
    (hd : p.defer = none) (hq : m.tileq = []) (hops : ∀ x ∈ m.threads, x.ref.team = t.uid → x.ops = [] ∧ x.release = none)
    (hcmds : (m.cmds.all fun c => c.team != t.uid || m.cmdSavable c t) = true) : m.canSave t = true := by
  have hthreads : (m.threads.all fun x => x.ref.team != t.uid || (x.release.isNone && x.ops.all fun o => o.tile)) = true := by
    rw [List.all_eq_true]
    intro x hx
    by_cases hu : x.ref.team = t.uid
    · obtain ⟨hnone, hrel⟩ := hops x hx hu
      simp [hnone, hrel]
    · simp [hu]
  have htiles : m.tilesSavable t.uid = true := by
    unfold Mach.tilesSavable
    rw [hq]
    rfl
  have hme' : (match t.preempt with | some { method := .save, defer := none, .. } => true | _ => false) = true := by
    obtain ⟨⟩ := p
    cases hme
    cases hd
    rw [hp]
  unfold Mach.canSave
  rw [hcmds, hthreads, htiles, hr, Bool.and_true, Bool.and_true, Bool.and_true]
  exact hme'

/-- The commands of a team that a save puts back, in order. -/
def Mach.putBack (m : Mach) (u : Nat) : List Cmd :=
  (m.cmds.filter fun c => c.team == u && !c.awaits).foldl (fun acc c => insertCmd { c with parked := none, pages := [] } acc) []

theorem Mach.saveTeam_of (ht : m.team? u = some t) (hs : m.canSave t = true) :
    m.saveTeam u = m.setAside u (m.putBack u) (m.cmds.filter fun c => !(c.team == u && !c.awaits)) := by
  unfold Mach.saveTeam
  rw [ht]
  dsimp only
  rw [hs]
  have hthreads : (fun x : Thread => if (x.ref.team == u && x.wait == Wait.halted) = true then { x with wait := .ready } else x) =
      fun x => if x.ref.team = u ∧ x.wait = .halted then { x with wait := .ready } else x := by
    funext x
    simp only [Bool.and_eq_true, beq_iff_eq]
  have hversions : (fun b : VByte => if (b.ref.team == u && b.inL1 && !b.diePub) = true then { b with l2 := true } else b) =
      fun b => if b.ref.team = u ∧ b.inL1 = true ∧ b.diePub = false then { b with l2 := true } else b := by
    funext b
    simp only [Bool.and_eq_true, beq_iff_eq, Bool.not_eq_true', and_assoc]
  rw [Mach.setAside, ← hthreads, ← hversions]
  rfl

theorem exec_teamSave (s : State) (u : Nat) : exec (.teamSave u) s = .next { s with m := s.m.saveTeam u } := rfl

theorem Cmd.stays {c : Cmd} (hk : c.kind = 8) (hp : c.peers = none) (hpark : c.parked = none) : c.awaits = true := by
  rw [Cmd.awaits, hk, hp, hpark]
  rfl

theorem Cmd.awaits_of_parked {c : Cmd} (hp : c.parked ≠ none) : c.awaits = false := by
  rw [Cmd.awaits, Bool.and_eq_false_iff]
  exact .inr (by simpa [Option.isSome_iff_ne_none] using hp)

theorem Mach.cmdSavable_of {c : Cmd} (hpieces : c.pieces = []) (hd : c.done = false) (h : c.parked ≠ none ∨ c.awaits = true) :
    m.cmdSavable c t = true := by
  rw [Mach.cmdSavable, hpieces, hd]
  rcases h with h | h
  · simp [Option.isSome_iff_ne_none.2 h]
  · simp [h]

/-! ### Restore (16 R253) -/

theorem Mach.restoreWait_ready {x : Thread} (h : x.wait = .ready) : m.restoreWait x = m := by
  rw [Mach.restoreWait, h]

def Team.resumed (t : Team) : Team := { t with status := .running }

theorem foldl_restoreWait (k : Mach) (xs : List Thread) (h : ∀ x ∈ xs, x.wait = .ready) : xs.foldl (fun m x => m.restoreWait x) k = k := by
  induction xs with
  | nil => rfl
  | cons x xs ih =>
    rw [List.foldl_cons, Mach.restoreWait_ready (h x List.mem_cons_self)]
    exact ih fun y hy => h y (List.mem_cons_of_mem _ hy)

theorem Mach.restoreFaults_none (ht : m.team? t.uid = some t.resumed) (hl : t.latent = []) (hk : t.known = []) (hlost : t.lost = false) :
    m.restoreFaults t = m := by
  have hdetect : m.detectAll t.uid = m := by
    unfold Mach.detectAll
    rw [ht]
    dsimp only
    rw [show t.resumed.latent = [] from hl]
    rfl
  unfold Mach.restoreFaults
  rw [hlost, if_neg Bool.false_ne_true, hdetect]
  unfold Mach.report
  rw [ht]
  obtain ⟨⟩ := t
  cases hk
  rfl

theorem Mach.restoreTeam_whole (ht : m.team? t.uid = some t) (hb : m.batches = []) (hl : t.latent = []) (hk : t.known = [])
    (hlost : t.lost = false) (hw : ∀ x ∈ m.threads, x.ref.team = t.uid → x.wait = .ready) :
    m.restoreTeam t = m.updTeam t.uid Team.resumed := by
  have hteam : (m.updTeam t.uid Team.resumed).team? t.uid = some t.resumed :=
    (Mach.team?_updTeam _ _ Team.resumed fun _ => rfl).trans (congrArg (Option.map _) ht)
  have hwait := foldl_restoreWait (m.updTeam t.uid Team.resumed) (m.threads.filter fun x => x.ref.team == t.uid)
    fun x hx => hw x (List.mem_filter.1 hx).1 (beq_iff_eq.1 (List.mem_filter.1 hx).2)
  unfold Mach.restoreTeam
  change Mach.restoreFaults (List.foldl _ (List.foldl (fun m x => Mach.restoreWait m x) (m.updTeam t.uid Team.resumed)
    (m.threads.filter fun x => x.ref.team == t.uid)) (List.filter _ (Mach.batches (List.foldl (fun m x => Mach.restoreWait m x)
    (m.updTeam t.uid Team.resumed) (m.threads.filter fun x => x.ref.team == t.uid))))) t = _
  rw [hwait]
  change Mach.restoreFaults (List.foldl _ _ (m.batches.filter _)) t = _
  rw [hb]
  exact Mach.restoreFaults_none hteam hl hk hlost

theorem exec_teamRestore {s : State} (ht : s.m.team? t.uid = some t) (hs : t.status = .saved) (hc : s.m.canRestore t = true) :
    exec (.teamRestore t.uid false) s = .next { s with
      m := s.m.restoreTeam t, sys := { s.sys with power := if s.sys.power = .idle then .run else s.sys.power } } := by
  change execTeamRestore t.uid false s = _
  unfold execTeamRestore
  rw [ht]
  dsimp only
  rw [hs, hc]
  simp only [beq_iff_eq]
  rfl

theorem teamRestore_brk {s : State} (ht : s.m.team? t.uid = some t) (hb : t.brk = true) : exec (.teamRestore t.uid false) s = .next s := by
  have hc : s.m.canRestore t = false := by
    unfold Mach.canRestore
    simp [hb]
  change execTeamRestore t.uid false s = _
  unfold execTeamRestore
  rw [ht]
  dsimp only
  rw [hc]
  split <;> rfl

theorem exec_teamRestore_fault {s : State} (ht : s.m.team? t.uid = some t) (hs : t.status = .saved) :
    exec (.teamRestore t.uid true) s = .next { s with m := s.m.saveFault t } := by
  change execTeamRestore t.uid true s = _
  unfold execTeamRestore
  rw [ht]
  dsimp only
  rw [hs]
  rfl

end Sys2Proof.Machine
end

section
/-! SUPPORT. The end of a context (15 R233, 16 R254). -/

namespace Sys2Proof.Machine

variable {m : Mach} {t : Team}

/-! ### What goes with a context -/

/-- Machines with the same memory, contexts, objects, directory, translations, teams and launches. -/
structure Mach.Calm (m n : Mach) : Prop where
  mem      : n.mem = m.mem
  ctxs     : n.ctxs = m.ctxs
  objects  : n.objects = m.objects
  linemeta : n.linemeta = m.linemeta
  ports    : n.ports = m.ports
  tlb      : n.tlb = m.tlb
  teams    : n.teams = m.teams
  launches : n.launches = m.launches

theorem Mach.Calm.same : m.Calm m := ⟨rfl, rfl, rfl, rfl, rfl, rfl, rfl, rfl⟩

theorem Mach.Calm.trans {a b c : Mach} (h : a.Calm b) (g : b.Calm c) : a.Calm c :=
  ⟨g.mem.trans h.mem, g.ctxs.trans h.ctxs, g.objects.trans h.objects, g.linemeta.trans h.linemeta, g.ports.trans h.ports,
    g.tlb.trans h.tlb, g.teams.trans h.teams, g.launches.trans h.launches⟩

theorem Mach.calm_foldl {α : Type} {f : Mach → α → Mach} (hf : ∀ (m : Mach) (a : α), m.Calm (f m a)) (m : Mach) (as : List α) :
    m.Calm (as.foldl f m) :=
  List.foldlRecOn (motive := fun n => m.Calm n) _ _ .same fun _ h a _ => h.trans (hf _ a)

theorem Mach.discardWakes_calm (m : Mach) (ctx : Nat) : m.Calm (m.discardWakes ctx) := by
  refine Mach.calm_foldl (fun m t => ?_) _ _
  split
  next w _ =>
    split
    · dsimp only
      generalize (w.woken.isSome && _) = b
      cases b
      · exact .same
      · exact ⟨rfl, rfl, rfl, rfl, rfl, rfl, rfl, rfl⟩
    · exact .same
  · exact .same

theorem Mach.commitTeams_none (h : m.versions = []) (us : List Nat) : m.commitTeams us = { m with versions := [], trail := [] } := by
  unfold Mach.commitTeams
  dsimp only
  rw [h]
  change Mach.countRounds { (m.leaveTrail []) with versions := (m.leaveTrail []).versions.filter _ } [] = _
  have ht : m.leaveTrail [] = { m with trail := [] } := by
    unfold Mach.leaveTrail
    rw [h]
    rfl
  rw [ht]
  change ({ m with trail := [], versions := m.versions.filter _ } : Mach) = _
  rw [h]
  rfl

theorem Mach.endVersions_none (h : m.versions = []) (ctx : Nat) : m.Calm (m.endVersions ctx) := by
  unfold Mach.endVersions
  dsimp only
  rw [h, Mach.commitTeams_none (by rfl)]
  exact ⟨rfl, rfl, rfl, rfl, rfl, rfl, rfl, rfl⟩

/-- What a context leaves: its teams and launches are gone. -/
structure Mach.WipedOf (m n : Mach) (ctx : Nat) : Prop where
  mem      : n.mem = m.mem
  ctxs     : n.ctxs = m.ctxs
  objects  : n.objects = m.objects
  linemeta : n.linemeta = m.linemeta
  ports    : n.ports = m.ports
  tlb      : n.tlb = m.tlb
  teams    : n.teams = m.teams.filter fun t => !(m.teamsOf ctx).contains t.uid
  launches : ∀ l ∈ n.launches, l.ctx ≠ ctx

theorem dropLaunches_rest (us : List Nat) (m : Mach) : ∃ held, us.foldl (fun m u => m.dropLaunch u) m = { m with
    launches := m.launches.filter fun l => !us.contains l.uid, heldCores := held } := by
  induction us generalizing m with
  | nil => exact ⟨m.heldCores, by simp⟩
  | cons u us ih =>
    obtain ⟨held, h⟩ := ih (m.dropLaunch u)
    refine ⟨held, h.trans ?_⟩
    have hf : (m.dropLaunch u).launches.filter (fun l => !us.contains l.uid) = m.launches.filter fun l => !(u :: us).contains l.uid := by
      change (m.launches.filter fun l => l.uid != u).filter _ = _
      rw [List.filter_filter]
      refine congrArg (List.filter · _) (funext fun l => ?_)
      rw [List.contains_cons, Bool.not_or, Bool.and_comm]
      rfl
    rw [hf]
    rfl

theorem Mach.wipe_wiped (m : Mach) (ctx : Nat) : m.WipedOf (m.wipe ctx) ctx := by
  unfold Mach.wipe
  extract_lets us mine m1 m2 ls m3
  have hm1 : m.Calm m1 := Mach.calm_foldl (f := fun m u => m.dropFold u) (fun m u => ⟨rfl, rfl, rfl, rfl, rfl, rfl, rfl, rfl⟩) _ _
  have hm2 : m1.Calm m2 := Mach.calm_foldl (f := fun m (t : Team) => m.failBatches (dieOf t.core)) (fun m t => ⟨rfl, rfl, rfl, rfl, rfl, rfl, rfl, rfl⟩) _ _
  have h := hm1.trans hm2
  obtain ⟨held, he⟩ := dropLaunches_rest ls m3
  rw [he]
  refine ⟨h.mem, h.ctxs, h.objects, h.linemeta, h.ports, h.tlb, ?_, fun l hl hc => ?_⟩
  · change m2.teams.filter _ = _
    rw [h.teams]
  · obtain ⟨hin, hnot⟩ := List.mem_filter.1 hl
    have : l.uid ∈ ls := List.mem_map.2 ⟨l, List.mem_filter.2 ⟨hin, by simpa using hc⟩, rfl⟩
    simp [this] at hnot

theorem Mach.finishUnloads_none (h : ∀ o ∈ m.objects, o.unloaded = false) : m.finishUnloads = m := by
  unfold Mach.finishUnloads
  refine List.foldlRecOn (motive := fun n => n = m) _ _ rfl fun n hn o ho => ?_
  subst hn
  rw [h o ho]
  rfl

/-! ### What a stamp's translation leaves as it stands -/

/-- Machines with the same teams, contexts and objects, and launches of the same contexts. -/
structure Mach.SameStaff (m n : Mach) : Prop where
  teams   : n.teams = m.teams
  ctxs    : n.ctxs = m.ctxs
  objects : n.objects = m.objects
  owners  : n.launches.map (·.ctx) = m.launches.map (·.ctx)

theorem Mach.SameStaff.same : m.SameStaff m := ⟨rfl, rfl, rfl, rfl⟩

theorem Mach.SameStaff.trans {a b c : Mach} (h : a.SameStaff b) (g : b.SameStaff c) : a.SameStaff c :=
  ⟨g.teams.trans h.teams, g.ctxs.trans h.ctxs, g.objects.trans h.objects, g.owners.trans h.owners⟩

theorem Mach.sameStaff_of_eq {n : Mach} (ht : n.teams = m.teams) (hc : n.ctxs = m.ctxs) (ho : n.objects = m.objects)
    (hl : n.launches = m.launches) : m.SameStaff n := ⟨ht, hc, ho, congrArg _ hl⟩

theorem Mach.noteLine_sameStaff (m : Mach) (pa n : Nat) : m.SameStaff (m.noteLine pa n) :=
  ⟨rfl, rfl, rfl, by
    change (m.launches.map _).map _ = _
    rw [List.map_map]
    rfl⟩

theorem Mach.leaveTrail_sameStaff (m : Mach) (bs : List (Nat × Nat × Nat × Nat)) : m.SameStaff (m.leaveTrail bs) := by
  unfold Mach.leaveTrail
  split <;> exact Mach.sameStaff_of_eq rfl rfl rfl rfl

theorem Mach.recallAgent_sameStaff (m : Mach) (line own : Nat) : m.SameStaff (m.recallAgent line own) := by
  unfold Mach.recallAgent
  split <;> exact Mach.sameStaff_of_eq rfl rfl rfl rfl

theorem Mach.recall_sameStaff (m : Mach) (line : Nat) : m.SameStaff (m.recall line) := by
  unfold Mach.recall
  split
  · exact .same
  next own _ =>
    refine Mach.SameStaff.trans ?_ (Mach.noteLine_sameStaff _ _ _)
    refine Mach.SameStaff.trans (b := if own < 128 then m.recallCore line own else m.recallAgent line own) ?_
      (Mach.sameStaff_of_eq rfl rfl rfl rfl)
    split
    · exact (m.leaveTrail_sameStaff _).trans (Mach.sameStaff_of_eq rfl rfl rfl rfl)
    · exact m.recallAgent_sameStaff line own

theorem Mach.combine_sameStaff (m : Mach) (line : Nat) : m.SameStaff (m.combine line) := by
  unfold Mach.combine
  dsimp only
  split
  · refine Mach.SameStaff.trans ?_ (Mach.noteLine_sameStaff _ _ _)
    exact (m.leaveTrail_sameStaff _).trans (Mach.sameStaff_of_eq rfl rfl rfl rfl)
  · exact .same

theorem Mach.cohPrep_sameStaff (m : Mach) (line : Nat) : m.SameStaff (m.cohPrep line) :=
  (m.recall_sameStaff line).trans (Mach.combine_sameStaff _ line)

theorem Mach.put_sameStaff (m : Mach) (pa : Nat) (bs : List Byte) : m.SameStaff (m.put pa bs) :=
  (Mach.sameStaff_of_eq (m := m) (n := { m with mem := m.mem.write pa bs }) rfl rfl rfl rfl).trans (Mach.noteLine_sameStaff _ pa bs.length)

theorem Mach.cohWrite1_sameStaff (m : Mach) (pa : Nat) (bs : List Byte) : m.SameStaff (m.cohWrite1 pa bs) :=
  (m.cohPrep_sameStaff (lineOf pa)).trans (Mach.put_sameStaff _ pa bs)

theorem Mach.readPte_sameStaff (m : Mach) (pa : Nat) : m.SameStaff (m.readPte pa).1 := m.cohPrep_sameStaff _

theorem Mach.putTable_sameStaff (m : Mach) (w : WalkEnt) : m.SameStaff (m.putTable w) := by
  unfold Mach.putTable
  dsimp only
  split <;> exact Mach.sameStaff_of_eq rfl rfl rfl rfl

theorem Mach.walkFrom_sameStaff (m : Mach) (die ctx va n table : Nat) : m.SameStaff (m.walkFrom die ctx va n table).1 := by
  induction n generalizing m table with
  | zero => exact .same
  | succ n ih =>
    unfold Mach.walkFrom
    dsimp only
    have hp := m.readPte_sameStaff (table + 8 * (va / 2 ^ (12 + 9 * n) % 512))
    split
    · exact ih _ _
    · split
      next h => rw [h] at hp; exact hp
      next h =>
        rw [h] at hp
        split
        · exact hp
        · split
          · split
            · exact hp
            · exact (hp.trans (Mach.putTable_sameStaff _ _)).trans (ih _ _)
          · split <;> exact hp

/-- A walk on nobody's behalf meets no fault of a team. -/
theorem Mach.walk_sameStaff (m : Mach) (die ctx va : Nat) (acc : Bool) : m.SameStaff (m.walk die ctx va acc).1 := by
  unfold Mach.walk Mach.walkFor
  split
  · exact .same
  next c _ =>
    have hw := m.walkFrom_sameStaff die ctx va 5 c.desc.root
    split
    next h => rw [h] at hw; exact hw
    next h => rw [h] at hw; exact hw
    next h =>
      rw [h] at hw
      split
      · exact hw.trans (Mach.cohWrite1_sameStaff _ _ _)
      · exact hw

theorem Mach.setDirty_sameStaff (m : Mach) (l : Leaf) : m.SameStaff (m.setDirty l) := by
  unfold Mach.setDirty
  split
  · exact .same
  · exact (m.cohPrep_sameStaff _).trans ((Mach.cohWrite1_sameStaff _ _ _).trans (Mach.sameStaff_of_eq rfl rfl rfl rfl))

theorem Mach.stampLeaf_sameStaff (m : Mach) (ctx a : Nat) (write : Bool) : m.SameStaff (m.stampLeaf ctx a write).1 := by
  unfold Mach.stampLeaf
  have hw := m.walk_sameStaff 0 ctx (a % 2 ^ 57) true
  split
  next h => rw [h] at hw; exact hw
  next h =>
    rw [h] at hw
    split
    · split
      · exact hw.trans (Mach.setDirty_sameStaff _ _)
      · exact hw
    · exact hw

/-! ### The end of a context whose team's fill faulted (16 R254) -/

/-- The record of a fault of a team's spill or fill. -/
def Team.fillRecord (t : Team) : Record := {
  addr := 0, inst := 0, taskid := t.taskid, mask := 0, exc := 0, cause := 0, kind := 10, core := t.core, tslot := t.slot, group := 0 }

/-- A ring with room, and the descriptor, at home. -/
structure Mach.Quiet (w : Mach) (c : Ctx) : Prop where
  room : (c.fqhead - w.fqTail c).toNat ≠ c.desc.fqsize
  wf   : w.mem.wf = true
  ring : w.atHome c.ringAt
  desc : w.atHome c.addr

theorem Memory.read_of_get {a : Memory} {x : Nat} {bs : List Byte} (h : ∀ i < bs.length, a.get (x + i) = bs.getD i 0) {n : Nat}
    (hn : bs.length = n) : a.read x n = bs := by
  subst hn
  refine List.ext_getElem? fun i => ?_
  rw [Memory.read_getElem?]
  split_ifs with hi
  · rw [h i hi, List.getD_eq_getElem?_getD, List.getElem?_eq_getElem hi, Option.getD_some]
  · rw [List.getElem?_eq_none (Nat.not_lt.1 hi)]

theorem Memory.read_write_other {a : Memory} (hw : a.wf = true) {x n pa : Nat} {bs : List Byte}
    (h : x + n ≤ pa ∨ pa + bs.length ≤ x) : (a.write pa bs).read x n = a.read x n := by
  refine List.ext_getElem? fun i => ?_
  rw [Memory.read_getElem?, Memory.read_getElem?]
  split_ifs with hi
  · rw [Memory.get_write _ _ _ hw, if_neg (by omega)]
  · rfl

theorem Memory.read_posted_ring {a : Memory} (hw : a.wf = true) {c : Ctx} (hd : c.addr + 64 ≤ c.ringAt ∨ c.ringAt + 32 ≤ c.addr)
    (r : Record) : (a.posted c r).read c.ringAt 32 = leBytes (r.bits c.fqhead) 32 := by
  rw [Memory.posted, Memory.read_write_other (Memory.write_wf _ _ hw) (by rw [leBytes_length]; omega)]
  have := Memory.read_write c.ringAt (leBytes (r.bits c.fqhead) 32) hw
  rwa [leBytes_length] at this

theorem Memory.read_posted_other {a : Memory} (hw : a.wf = true) {c : Ctx} (r : Record) {p : Nat}
    (hr : p + 8 ≤ c.ringAt ∨ c.ringAt + 32 ≤ p) (ha : p + 8 ≤ c.addr ∨ c.addr + 64 ≤ p) : (a.posted c r).read p 8 = a.read p 8 := by
  rw [Memory.posted, Memory.read_write_other (Memory.write_wf _ _ hw) (by rw [leBytes_length]; omega),
    Memory.read_write_other hw (by rw [leBytes_length]; omega)]

theorem Mach.SameStaff.mem_contexts {n : Mach} (h : m.SameStaff n) {ctx : Nat} (hm : ∀ l ∈ m.launches, l.ctx ≠ ctx) :
    ∀ l ∈ n.launches, l.ctx ≠ ctx := fun l hl hc => by
  have : ctx ∈ m.launches.map (·.ctx) := h.owners ▸ List.mem_map.2 ⟨l, hl, hc⟩
  obtain ⟨k, hk, hkc⟩ := List.mem_map.1 this
  exact hm k hk hkc

theorem Mach.counted_sameStaff (m : Mach) (g : Nat) : m.SameStaff (m.counted g) := ⟨rfl, rfl, rfl, rfl⟩

theorem Mach.put_counted_put_sameStaff (m : Mach) (pa pb g : Nat) (as bs : List Byte) :
    m.SameStaff (((m.put pa as).counted g).put pb bs) :=
  ((m.put_sameStaff pa as).trans (Mach.counted_sameStaff _ g)).trans (Mach.put_sameStaff _ pb bs)

theorem Mach.posted_staff (m : Mach) (ctx : Nat) (c : Ctx) (r : Record) : (m.posted ctx c r).teams = m.teams ∧
    (m.posted ctx c r).objects = m.objects ∧ (m.posted ctx c r).launches.map (·.ctx) = m.launches.map (·.ctx) := by
  have h := Mach.put_counted_put_sameStaff m c.ringAt (c.addr + 28) (regionOf c.ringAt) (leBytes (r.bits c.fqhead) 32)
    (leBytes (c.fqhead + 1).toNat 4)
  rw [Mach.posted]
  generalize ((m.put c.ringAt (leBytes (r.bits c.fqhead) 32)).counted (regionOf c.ringAt)).put (c.addr + 28)
    (leBytes (c.fqhead + 1).toNat 4) = n at h
  exact ⟨h.teams, h.objects, h.owners⟩

/-- What a fill fault leaves, from the machine in which the context's stamps stand. -/
theorem Mach.fillRecord_ends {w : Mach} {c : Ctx} {ctx : Nat} (hc : w.ctx? ctx = some c) (h64 : c.addr % 64 = 0)
    (hq : w.Quiet c) (ho : w.objects = []) (hl : ∀ l ∈ w.launches, l.ctx ≠ ctx)
    (r : Record) : ∃ n, (w.writeRecord ctx r).finishUnloads = n ∧ n.teams = w.teams ∧ n.ctx? ctx = some c.moved ∧
      n.mem = w.mem.posted c r ∧ ∀ l ∈ n.launches, l.ctx ≠ ctx := by
  obtain ⟨hteams, hobjects, howners⟩ := Mach.posted_staff w ctx c r
  have hnone : (w.posted ctx c r).finishUnloads = w.posted ctx c r :=
    Mach.finishUnloads_none fun o h => by rw [hobjects, ho] at h; exact absurd h List.not_mem_nil
  refine ⟨_, (by rw [Mach.writeRecord_home hc hq.room hq.ring hq.desc h64, hnone]), hteams, Mach.ctx?_posted hc c r,
    Mach.posted_mem w ctx c r, fun l hin hctx => ?_⟩
  have : ctx ∈ w.launches.map (·.ctx) := howners ▸ List.mem_map.2 ⟨l, hin, hctx⟩
  obtain ⟨k, hk, hkc⟩ := List.mem_map.1 this
  exact hl k hk hkc

/-- The machine in which a context is gone but for its stamps and its record. -/
def Mach.cleared (m : Mach) (ctx : Nat) : Mach := (m.endVersions ctx).wipe ctx

theorem Mach.cleared_wiped (h : m.versions = []) (ctx : Nat) : m.WipedOf (m.cleared ctx) ctx := by
  have hc := Mach.endVersions_none h ctx
  have hw := Mach.wipe_wiped (m.endVersions ctx) ctx
  exact ⟨hw.mem.trans hc.mem, hw.ctxs.trans hc.ctxs, hw.objects.trans hc.objects, hw.linemeta.trans hc.linemeta, hw.ports.trans hc.ports,
    hw.tlb.trans hc.tlb, hw.teams.trans (by rw [Mach.teamsOf, hc.teams]; rfl), hw.launches⟩

theorem Mach.WipedOf.quiet {n : Mach} {ctx : Nat} {c : Ctx} (h : m.WipedOf n ctx) (hq : m.Quiet c) : n.Quiet c where
  room := by rw [Mach.fqTail, h.mem]; exact hq.room
  wf := by rw [h.mem]; exact hq.wf
  ring := by simp only [Mach.atHome, Mach.meta, Mach.shadowed, h.linemeta, h.ports]; exact hq.ring
  desc := by simp only [Mach.atHome, Mach.meta, Mach.shadowed, h.linemeta, h.ports]; exact hq.desc

theorem Mach.WipedOf.mem_teams {n : Mach} {ctx : Nat} (h : m.WipedOf n ctx) (y : Team) :
    y ∈ n.teams ↔ y ∈ m.teams ∧ ∀ z ∈ m.teams, z.ctx = ctx → z.uid ≠ y.uid := by
  rw [h.teams, List.mem_filter]
  refine and_congr_right fun _ => ?_
  simp only [Mach.teamsOf, Bool.not_eq_true', List.contains_eq_mem, decide_eq_false_iff_not, List.mem_map, List.mem_filter, beq_iff_eq,
    not_exists, not_and, and_imp]

theorem completionStamp_none {l : Launch} (h : l.csa = 0) (m : Mach) (status : Nat) : m.completionStamp l status = m := by
  rw [Mach.completionStamp, h]
  rfl

/-- Eight aligned bytes are written as they stand. -/
theorem Mach.cohWrite_aligned {pa : Nat} (h : m.atHome pa) (hp : pa % 8 = 0) {bs : List Byte} (hb : bs.length = 8) :
    m.cohWrite pa bs = m.put pa bs := by
  have htake : bs.take (128 - pa % 128) = bs := List.take_of_length_le (by omega)
  have hdrop : bs.drop (128 - pa % 128) = [] := List.drop_eq_nil_of_le (by omega)
  have hne : bs.isEmpty = false := by
    rw [List.isEmpty_eq_false_iff]
    rintro rfl
    simp at hb
  have hcut : cutLines (bs.length / 128 + 2) pa bs = [(pa, bs)] := by
    rw [hb]
    simp only [cutLines, hne, Bool.false_eq_true, if_false, htake, hdrop, List.isEmpty_nil, if_true]
  rw [Mach.cohWrite, hcut]
  exact Mach.cohWrite1_put h bs

theorem Mach.saveFault_eq (m : Mach) (t : Team) : m.saveFault t =
    (((m.launches.filter fun l => l.ctx == t.ctx && decide (0 < l.next)).foldl (fun m l => m.completionStamp l 2)
      (m.cleared t.ctx)).writeRecord t.ctx t.fillRecord).finishUnloads := rfl

/-- A context's memory, teams and launches once a fill fault has ended it, from what its stamps left. -/
structure Mach.FillEnds (m n : Mach) (ctx : Nat) (c : Ctx) (r : Record) (mem : Memory) : Prop where
  teams    : ∀ y, y ∈ n.teams ↔ y ∈ m.teams ∧ ∀ z ∈ m.teams, z.ctx = ctx → z.uid ≠ y.uid
  context  : n.ctx? ctx = some c.moved
  memory   : n.mem = mem.posted c r
  launches : ∀ l ∈ n.launches, l.ctx ≠ ctx

theorem Mach.saveFault_unstamped {c : Ctx} (hc : m.ctx? t.ctx = some c) (h64 : c.addr % 64 = 0) (hv : m.versions = [])
    (ho : m.objects = []) (hl : ∀ l ∈ m.launches, l.ctx = t.ctx → 0 < l.next → l.csa = 0) (hq : m.Quiet c) :
    m.FillEnds (m.saveFault t) t.ctx c t.fillRecord m.mem := by
  have hw := Mach.cleared_wiped hv t.ctx
  have hstamps : (m.launches.filter fun l => l.ctx == t.ctx && decide (0 < l.next)).foldl (fun m l => m.completionStamp l 2)
      (m.cleared t.ctx) = m.cleared t.ctx := by
    refine List.foldlRecOn (motive := fun n => n = m.cleared t.ctx) _ _ rfl fun n hn l hin => ?_
    obtain ⟨hin, hgoing⟩ := List.mem_filter.1 hin
    simp only [Bool.and_eq_true, beq_iff_eq, decide_eq_true_eq] at hgoing
    rw [completionStamp_none (hl l hin hgoing.1 hgoing.2), hn]
  obtain ⟨n, hn, hteams, hctx, hmem, hlaunches⟩ := Mach.fillRecord_ends ((Mach.ctx?_congr hw.ctxs _).trans hc) h64 (hw.quiet hq)
    (hw.objects.trans ho) hw.launches t.fillRecord
  rw [Mach.saveFault_eq, hstamps, hn]
  exact ⟨fun y => by rw [hteams]; exact hw.mem_teams y, hctx, by rw [hmem, hw.mem], hlaunches⟩

theorem Mach.Quiet.put {w : Mach} {c : Ctx} (hq : w.Quiet c) {p : Nat} {bs : List Byte} (hb : bs.length = 8)
    (ha : p + 8 ≤ c.addr ∨ c.addr + 64 ≤ p) : (w.put p bs).Quiet c where
  room := by
    rw [Mach.put_rest]
    change (c.fqhead - BitVec.ofNat 32 (leNat ((w.mem.write p bs).read (c.addr + 32) 4))).toNat ≠ _
    rw [Memory.read_write_other hq.wf (by omega)]
    exact hq.room
  wf := by
    rw [Mach.put_rest]
    exact Memory.write_wf _ _ hq.wf
  ring := hq.ring
  desc := hq.desc

theorem Mach.saveFault_stamped {c : Ctx} {l : Launch} {w : Mach} {f : Leaf} (hc : m.ctx? t.ctx = some c) (h64 : c.addr % 64 = 0)
    (hv : m.versions = []) (ho : m.objects = []) (hl : m.launches.filter (fun k => k.ctx == t.ctx && decide (0 < k.next)) = [l])
    (hcsa : l.csa ≠ 0) (hleaf : (m.cleared t.ctx).stampLeaf t.ctx l.csa true = (w, .ok f)) (hp : f.pa (l.csa % 2 ^ 57) % 8 = 0)
    (hq : w.Quiet c) (hh : w.atHome (f.pa (l.csa % 2 ^ 57)))
    (ha : f.pa (l.csa % 2 ^ 57) + 8 ≤ c.addr ∨ c.addr + 64 ≤ f.pa (l.csa % 2 ^ 57)) :
    m.FillEnds (m.saveFault t) t.ctx c t.fillRecord
      (w.mem.write (f.pa (l.csa % 2 ^ 57)) (leBytes (l.csv.toNat / 2 ^ 16 * 2 ^ 16 + 2) 8)) := by
  have hw := Mach.cleared_wiped hv t.ctx
  have hctx : l.ctx = t.ctx := by
    have : l ∈ m.launches.filter fun k => k.ctx == t.ctx && decide (0 < k.next) := hl ▸ List.mem_singleton_self l
    simpa using (Bool.and_eq_true_iff.1 (List.mem_filter.1 this).2).1
  have hstaff : (m.cleared t.ctx).SameStaff w := by
    have := Mach.stampLeaf_sameStaff (m.cleared t.ctx) t.ctx l.csa true
    rwa [hleaf] at this
  have hstamp : (m.cleared t.ctx).completionStamp l 2 =
      w.put (f.pa (l.csa % 2 ^ 57)) (leBytes (l.csv.toNat / 2 ^ 16 * 2 ^ 16 + 2) 8) := by
    rw [Mach.completionStamp, if_neg (mt beq_iff_eq.1 hcsa), hctx, hleaf]
    exact Mach.cohWrite_aligned hh hp (leBytes_length _ _)
  have hput := hstaff.trans (Mach.put_sameStaff w (f.pa (l.csa % 2 ^ 57)) (leBytes (l.csv.toNat / 2 ^ 16 * 2 ^ 16 + 2) 8))
  obtain ⟨n, hn, hteams, hmoved, hmem, hlaunches⟩ := Mach.fillRecord_ends
    ((Mach.ctx?_congr (hput.ctxs.trans hw.ctxs) _).trans hc) h64 (hq.put (leBytes_length _ _) ha)
    ((hput.objects.trans hw.objects).trans ho) (hput.mem_contexts hw.launches) t.fillRecord
  rw [Mach.saveFault_eq, hl, List.foldl_cons, List.foldl_nil, hstamp, hn]
  refine ⟨fun y => by rw [hteams, hput.teams]; exact hw.mem_teams y, hmoved, ?_, hlaunches⟩
  rw [hmem, Mach.put_rest]

theorem Mach.FillEnds.record {n : Mach} {ctx : Nat} {c : Ctx} {r : Record} {mem : Memory} (h : m.FillEnds n ctx c r mem)
    (hw : mem.wf = true) (hd : c.addr + 64 ≤ c.ringAt ∨ c.ringAt + 32 ≤ c.addr) :
    n.mem.read c.ringAt 32 = leBytes (r.bits c.fqhead) 32 := by
  rw [h.memory]
  exact Memory.read_posted_ring hw hd r

theorem Mach.teardown_of (hv : m.versions = []) (ho : ∀ o ∈ m.objects, o.unloaded = false) (ctx : Nat) :
    (m.teardown ctx).mem = m.mem ∧ (∀ y, y ∈ (m.teardown ctx).teams ↔ y ∈ m.teams ∧ ∀ z ∈ m.teams, z.ctx = ctx → z.uid ≠ y.uid) ∧
    ((m.teardown ctx).ctxs = m.ctxs.filter fun c => c.desc.ctxno != ctx) ∧
    ((m.teardown ctx).objects = m.objects.filter fun o => o.ctx != ctx) ∧
    ((m.teardown ctx).tlb = m.tlb.filter fun x => x.ctx != ctx) ∧ ∀ l ∈ (m.teardown ctx).launches, l.ctx ≠ ctx := by
  have hcalm := (Mach.endVersions_none hv ctx).trans (Mach.discardWakes_calm _ ctx)
  have hw := Mach.wipe_wiped ((m.endVersions ctx).discardWakes ctx) ctx
  have hfin := Mach.finishUnloads_none (m := ((m.endVersions ctx).discardWakes ctx).wipe ctx) fun o h =>
    ho o (by rwa [hw.objects, hcalm.objects] at h)
  unfold Mach.teardown
  rw [hfin]
  clear hfin
  generalize ((m.endVersions ctx).discardWakes ctx).wipe ctx = n at hw
  refine ⟨hw.mem.trans hcalm.mem, fun y => ?_, ?_, ?_, ?_, hw.launches⟩
  · have := hw.mem_teams y
    rwa [hcalm.teams] at this
  · exact congrArg (List.filter _) (hw.ctxs.trans hcalm.ctxs)
  · exact congrArg (List.filter _) (hw.objects.trans hcalm.objects)
  · exact congrArg (List.filter _) (hw.tlb.trans hcalm.tlb)

theorem exec_contextTeardown (s : State) (ctx : Nat) : exec (.contextTeardown ctx) s = .next { s with m := s.m.teardown ctx } := rfl

/-- Settles O49: each request, limit, save, restore and end by what its step makes of the machine. -/
theorem preemption : Obligations.Preemption := by
  intro s t ht gives put gs r e wiped
  refine ⟨fun hrun hfree hshep => ?_, fun p hrun hp => ?_, fun hsaved => ?_, fun hv ho => ?_⟩
  · refine ⟨fun hi he hh hq hret => ?_, fun hi he hh => ?_, fun hi h1 hg => ?_, fun hi hg => ?_,
      fun l hl hp hs hel hn hw ha hr hc hi h0 hh => ?_⟩
    · obtain ⟨hmem, hteam⟩ := Mach.beginPreempt_flush ht hrun hh hq hret false
      exact ⟨_, (preemptRequest_free ht hfree hshep).trans (by rw [Mach.methodFor_flush hi he]), hmem, hteam⟩
    · refine (preemptRequest_free ht hfree hshep).trans ?_
      rw [Mach.methodFor_flush hi he, Mach.beginPreempt_deferred ht hrun hh (by decide)]
      rfl
    · refine (preemptRequest_free ht hfree hshep).trans ?_
      rw [Mach.methodFor_long hi, if_pos ⟨h1, hg⟩, Mach.beginPreempt_drain ht hrun]
      rfl
    · refine (preemptRequest_free ht hfree hshep).trans ?_
      rw [Mach.methodFor_long hi, if_neg (fun h : 1 ≤ r ∧ e * (gs.length - r) ≤ 350000 * r => by omega), Mach.beginPreempt_save_or ht hrun]
      rfl
    · have hme : s.m.methodFor t = .save := by
        rw [Mach.methodFor_long fun h => absurd (hi ▸ h) Bool.false_ne_true,
        if_neg (fun h : 1 ≤ r ∧ e * (gs.length - r) ≤ 350000 * r => by omega)]
      exact priorityWait_one ht hrun hfree hl hp hs hel hn hw ha hr hc hme hh
  · refine ⟨fun hme hh hc => ?_, fun c hd hc => ?_, fun c hd hh hme => ?_, fun c hd hh hf => ?_, fun c hd hh => ?_,
      fun hme hd htq hops => ?_⟩
    · refine (exec_drainTimeout s t.uid).trans ?_
      rw [Mach.drainTimeout_of ht hp hme hc, Mach.beginPreempt_saves ht hrun hh]
      rfl
    · refine (exec_deferTimeout s t.uid).trans ?_
      rw [Mach.deferTimeout_of ht hrun hp hd hc]
    · have hsave : (if p.forced then Method.save else s.m.methodFor t) = .save := by
        rcases hme with h | h
        · rw [h]; rfl
        · rw [h, ite_self]
      refine (exec_deferClear s t.uid).trans ?_
      rw [Mach.deferClear_of ht hp hd, hh, hsave, Mach.beginPreempt_saves ht hrun hh]
      rfl
    · refine ⟨fun hi h1 hg => ?_, fun hi he hq hret => ?_⟩
      · refine (exec_deferClear s t.uid).trans ?_
        rw [Mach.deferClear_of ht hp hd, hh, hf, if_neg Bool.false_ne_true, Mach.methodFor_long hi,
          if_pos (show 1 ≤ r ∧ e * (gs.length - r) ≤ 350000 * r from ⟨h1, hg⟩),
          Mach.beginPreempt_drain ht hrun]
        rfl
      · obtain ⟨hmem, hteam⟩ := Mach.beginPreempt_flush ht hrun hh hq hret false
        refine ⟨_, (exec_deferClear s t.uid).trans ?_, hmem, hteam⟩
        rw [Mach.deferClear_of ht hp hd, hh, hf, if_neg Bool.false_ne_true, Mach.methodFor_flush hi he]
        rfl
    · refine (exec_deferClear s t.uid).trans ?_
      rw [Mach.deferClear_of ht hp hd, if_neg (by simpa using hh)]
    · intro saved
      refine ⟨fun hc => ?_, fun c hc hu hpieces hdone => ⟨fun hpark => ?_, fun hk hpeers hpark => ?_⟩⟩
      · refine (exec_teamSave s t.uid).trans ?_
        rw [Mach.saveTeam_of ht (Mach.canSave_of hrun hp hme hd htq hops (by rw [hc]; rfl)), Mach.putBack, hc]
        rfl
      · refine (exec_teamSave s t.uid).trans ?_
        have hback : (c.team == t.uid && !c.awaits) = true := by rw [hu, Cmd.awaits_of_parked hpark]; simp
        rw [Mach.saveTeam_of ht (Mach.canSave_of hrun hp hme hd htq hops (by
          rw [hc]; simp [Mach.cmdSavable_of hpieces hdone (.inl hpark)])), Mach.putBack, hc]
        simp only [List.filter_cons, List.filter_nil, hback, if_true, Bool.not_true, Bool.false_eq_true, if_false]
        rfl
      · refine (exec_teamSave s t.uid).trans ?_
        have hstays := Cmd.stays hk hpeers hpark
        have hback : (c.team == t.uid && !c.awaits) = false := by rw [hstays]; simp
        rw [Mach.saveTeam_of ht (Mach.canSave_of hrun hp hme hd htq hops (by
          rw [hc]; simp [Mach.cmdSavable_of hpieces hdone (.inr hstays)])), Mach.putBack, hc]
        simp only [List.filter_cons, List.filter_nil, hback, if_true, Bool.not_false, Bool.false_eq_true, if_false]
        rfl
  · refine ⟨fun hb => ?_, fun hcan hb hl hk hlost hw => ?_, fun c hc hfq h64 hd hv ho => ?_⟩
    · exact teamRestore_brk ht hb
    · refine ⟨_, exec_teamRestore ht hsaved hcan, ?_⟩
      rw [Mach.restoreTeam_whole ht hb hl hk hlost hw]
      exact ⟨rfl, rfl, (Mach.team?_updTeam _ _ Team.resumed fun _ => rfl).trans (congrArg (Option.map _) ht)⟩
    · intro quiet rec10 ends
      refine ⟨fun hl hq => ?_, fun l w f hl hcsa hleaf => ?_⟩
      · obtain ⟨hroom, hwf, hring, hdesc⟩ := hq
        have hends := Mach.saveFault_unstamped hc h64 hv ho hl ⟨hroom, hwf, hring, hdesc⟩
        exact ⟨_, exec_teamRestore_fault ht hsaved, hends.teams, hends.context, hends.record hwf hd, hends.launches⟩
      · intro p hp8 hq hh hpr hpa
        obtain ⟨hroom, hwf, hring, hdesc⟩ := hq
        have hends := Mach.saveFault_stamped hc h64 hv ho hl hcsa hleaf hp8 ⟨hroom, hwf, hring, hdesc⟩ hh hpa
        have hwrite := Memory.read_write p (leBytes (l.csv.toNat / 2 ^ 16 * 2 ^ 16 + 2) 8) hwf
        rw [leBytes_length] at hwrite
        refine ⟨_, ⟨exec_teamRestore_fault ht hsaved, hends.teams, hends.context, hends.record (Memory.write_wf _ _ hwf) hd, hends.launches⟩, ?_⟩
        rw [hends.memory, Memory.read_posted_other (Memory.write_wf _ _ hwf) _ hpr hpa]
        exact hwrite
  · obtain ⟨hmem, hwiped, hctxs, hobjects, htlb, hlaunches⟩ := Mach.teardown_of hv ho t.ctx
    exact ⟨_, exec_contextTeardown s t.ctx, hmem, hwiped, hctxs, hobjects, htlb, hlaunches⟩

end Sys2Proof.Machine
end

section
/-! SUPPORT. Errors of arrays and lines, their counters, and peers out of reach (05 R104-R106, 16 R244, 19 R274). -/

namespace Sys2Proof.Machine

variable {m : Mach}

/-! ### Counters (05 R106) -/

theorem countersOf_filter_other {p q : Place} (h : q ≠ p) (es : List (Place × Nat × Nat)) :
    countersOf q (es.filter fun e => e.1 != p) = countersOf q es := by
  induction es with
  | nil => rfl
  | cons e es ih =>
    obtain ⟨a, c⟩ := e
    by_cases ha : a = p
    · have hq : (a == q) = false := beq_eq_false_iff_ne.2 fun haq => h (haq ▸ ha)
      simp only [List.filter_cons, ha, bne_self_eq_false, Bool.false_eq_true, if_false, ih, countersOf, ha ▸ hq]
    · simp only [List.filter_cons, bne_iff_ne.2 ha, if_true, countersOf, ih]

theorem countersOf_filter_same (p : Place) (es : List (Place × Nat × Nat)) : countersOf p (es.filter fun e => e.1 != p) = (0, 0) := by
  induction es with
  | nil => rfl
  | cons e es ih =>
    obtain ⟨a, c⟩ := e
    by_cases ha : a = p
    · simp only [List.filter_cons, ha, bne_self_eq_false, Bool.false_eq_true, if_false, ih]
    · simp only [List.filter_cons, bne_iff_ne.2 ha, if_true, countersOf, beq_eq_false_iff_ne.2 ha, Bool.false_eq_true, if_false, ih]

theorem countersOf_setCounters_same (m : Mach) (p : Place) (c u : Nat) :
    countersOf p (m.setCounters p c u).errors = (min c 0xFFFFFFFF, min u 0xFFFFFFFF) := by
  unfold Mach.setCounters
  dsimp only
  split_ifs with h
  · obtain ⟨hc, hu⟩ := Bool.and_eq_true_iff.1 h
    rw [countersOf_filter_same, eq_of_beq hc, eq_of_beq hu]
    rfl
  · simp [countersOf]

theorem countersOf_setCounters_other (m : Mach) {p q : Place} (h : q ≠ p) (c u : Nat) :
    countersOf q (m.setCounters p c u).errors = countersOf q m.errors := by
  unfold Mach.setCounters
  dsimp only
  split_ifs
  · exact countersOf_filter_other h _
  · simp only [countersOf, beq_eq_false_iff_ne.2 (Ne.symm h), Bool.false_eq_true, if_false]
    exact countersOf_filter_other h _

/-- A machine whose counters alone have changed: those of one array, by some errors. -/
structure Mach.Counts (m n : Mach) (p : Place) (c u : Nat) : Prop where
  same  : countersOf p n.errors = (min ((countersOf p m.errors).1 + c) 0xFFFFFFFF, min ((countersOf p m.errors).2 + u) 0xFFFFFFFF)
  other : ∀ q, q ≠ p → countersOf q n.errors = countersOf q m.errors

theorem Mach.countCorrected_counts (m : Mach) (p : Place) : m.Counts (m.countCorrected p) p 1 0 where
  same := countersOf_setCounters_same m p _ _
  other _ h := countersOf_setCounters_other m h _ _

theorem Mach.countUncorrectable_counts (m : Mach) (p : Place) : m.Counts (m.countUncorrectable p) p 0 1 where
  same := countersOf_setCounters_same m p _ _
  other _ h := countersOf_setCounters_other m h _ _

theorem Mach.setCounters_rest (m : Mach) (p : Place) (c u : Nat) : m.setCounters p c u = { m with errors := (m.setCounters p c u).errors } := rfl

/-! ### Faults that errors are (16 R244) -/

/-- A team that has met a fault which its core does not know of yet. -/
def Team.struck (i : Imprecise) (t : Team) : Team := { t with latent := t.latent ++ [i] }

theorem Mach.team?_meet {u : Nat} {t : Team} (h : m.team? u = some t) (i : Imprecise) : (m.meet u i).team? u = some (t.struck i) :=
  (Mach.team?_updTeam m u (Team.struck i) fun _ => rfl).trans (congrArg (Option.map _) h)

theorem exec_uncorrectableError (s : State) (p : Place) (w : Struck) :
    exec (.uncorrectableError p w) s = .next { s with m := s.m.arrayError p w } := rfl

theorem exec_correctableError (s : State) (p : Place) : exec (.correctableError p none) s = .next { s with m := s.m.countCorrected p } := rfl

theorem exec_correctableError_line (s : State) (p : Place) (pa : Nat) :
    exec (.correctableError p (some pa)) s = .next { s with m := (s.m.countCorrected p).refetch p pa } := rfl

theorem Mach.arrayError_register {p : Place} {t : TRef} {v : Nat} {x : Thread} {tm : Team} (hx : m.thread? t = some x)
    (hw : x.wait ≠ .exited) (ht : m.team? t.team = some tm) : (m.arrayError p (.register t v)).mem = m.mem ∧
      (m.arrayError p (.register t v)).errors = (m.countUncorrectable p).errors ∧ (m.arrayError p (.register t v)).threads = m.threads ∧
      (m.arrayError p (.register t v)).team? t.team = some { tm with latent := tm.latent ++
        if x.helper then [] else [{ cause := 0x30, addr := 0, thread := some t }] } := by
  have hm : m.arrayError p (.register t v) = if x.helper then m.countUncorrectable p else
      (m.countUncorrectable p).meet t.team { cause := 0x30, addr := 0, thread := some t } := by
    unfold Mach.arrayError
    dsimp only
    rw [show (m.countUncorrectable p).thread? t = some x from hx]
    dsimp only
    rw [beq_eq_false_iff_ne.2 hw, if_neg Bool.false_ne_true]
  rw [hm]
  cases hh : x.helper
  · exact ⟨rfl, rfl, rfl, Mach.team?_meet (m := m.countUncorrectable p) ht _⟩
  · refine ⟨rfl, rfl, rfl, ?_⟩
    rw [if_pos rfl, if_pos rfl, List.append_nil]
    exact ht

/-! ### Lines (05 R105) -/

theorem Mach.refetch_clean {core pa : Nat} (hv : m.versions = []) : (m.refetch (.l1 core) pa).mem = m.mem ∧
    (m.refetch (.l1 core) pa).errors = m.errors ∧
    ∀ y, y ∈ (m.refetch (.l1 core) pa).l1 ↔ y ∈ m.l1 ∧ ¬ (y.core = core ∧ y.line = lineOf pa ∧ y.owned = false) := by
  have hm : m.refetch (.l1 core) pa =
      ({ m with l1 := m.l1.filter fun c => !(c.core == core && c.line == lineOf pa && !c.owned) } : Mach).tidyHints := by
    unfold Mach.refetch Mach.dropClean
    dsimp only
    rw [hv]
    rfl
  rw [hm]
  refine ⟨rfl, rfl, fun y => ?_⟩
  change y ∈ m.l1.filter _ ↔ _
  rw [List.mem_filter]
  simp only [Bool.not_eq_true', Bool.and_eq_false_iff, beq_eq_false_iff_ne, Bool.not_eq_false', not_and_or, ne_eq, Bool.not_eq_false,
    or_assoc]

/-- A dirty line that an error strikes stands poisoned at its home, with no copy. -/
structure Mach.Poisons (m : Mach) (p : Place) (pa : Nat) (n : Mach) : Prop where
  mem    : n.mem = m.mem
  errors : n.errors = (m.noteError p (lineOf pa)).errors
  checks : n.machineChecks = (m.noteError p (lineOf pa)).machineChecks
  poison : n.poisoned pa = true
  l1     : ∀ y ∈ n.l1, y.line ≠ lineOf pa
  bytes  : ∀ b ∈ n.versions, lostBytes p (lineOf pa) b = false

theorem Mach.noteError_rest (m : Mach) (p : Place) (line : Nat) : m.noteError p line = { m with
    errors := (m.noteError p line).errors, machineChecks := (m.noteError p line).machineChecks } := by
  unfold Mach.noteError
  cases p <;> rfl

theorem Mach.arrayError_dirty (m : Mach) (p : Place) (pa : Nat) : m.Poisons p pa (m.arrayError p (.dirtyLine pa)) where
  mem := by
    change (m.noteError p (lineOf pa)).mem = m.mem
    rw [Mach.noteError_rest]
  errors := rfl
  checks := rfl
  poison := by
    simp only [Mach.poisoned, decide_eq_true_eq]
    change 6 ≤ stateOf (getAssoc 0 (lineOf pa) (setAssoc (lineOf pa) (mkMeta 7 0 0 0) _))
    rw [getAssoc_setAssoc, if_pos rfl]
    decide
  l1 y hy := by
    have := (List.mem_filter.1 hy).2
    simpa using this
  bytes b hb := by
    have h := (List.mem_filter.1 (List.mem_filter.1 hb).1).2
    simpa using h

/-! ### A peer out of reach (19 R274) -/

theorem exec_peerUnreachable (s : State) (peer : Nat) : exec (.peerUnreachable peer) s = .next { s with m := s.m.peerGone peer } := rfl

theorem Mach.thread?_single {x : Thread} (h : m.threads = [x]) : m.thread? x.ref = some x := by
  rw [Mach.thread?, h]
  simp

theorem Mach.dropFor_rest (m : Mach) (t : TRef) (o : Op) : ∃ l1 hints, m.dropFor t o = { m with l1 := l1, hints := hints } := by
  unfold Mach.dropFor
  split
  · unfold Mach.dropClean
    split
    · exact ⟨m.l1, m.hints, rfl⟩
    · exact ⟨_, _, rfl⟩
  · exact ⟨m.l1, m.hints, rfl⟩

theorem Thread.writeDst_rest (t : Thread) (d : Dst) (rs : List RV) :
    (t.writeDst d rs).ref = t.ref ∧ (t.writeDst d rs).ops = t.ops ∧ (t.writeDst d rs).release = t.release := by
  cases d with
  | regs r g k => exact ⟨Thread.setRegs_ref t r rs, Thread.setRegs_ops t r rs, Thread.setRegs_release t r rs⟩
  | pred k =>
    simp only [Thread.writeDst, Thread.setPred]
    split <;> exact ⟨rfl, rfl, rfl⟩
  | none => exact ⟨rfl, rfl, rfl⟩

/-- The thread that an operation's result has returned to. -/
def Thread.served (x : Thread) (o : Op) (rs : List RV) : Thread := { x.writeDst o.dst rs with ops := [] }

theorem Mach.deliver_single {x : Thread} {o : Op} (h : m.threads = [x]) (ho : x.ops = [o]) (hw : x.wait ≠ .exited) (rs : List RV) :
    ∃ l1 hints, m.deliver x.ref o rs = { m with threads := [x.served o rs], l1 := l1, hints := hints } := by
  obtain ⟨href, hops, -⟩ := Thread.writeDst_rest x o.dst rs
  have hthreads : ((m.updThread x.ref fun y => if y.wait == Wait.exited then y else y.writeDst o.dst rs).dropOp x.ref o.id) =
      { m with threads := [x.served o rs] } := by
    simp only [Mach.updThread, Mach.dropOp, h, List.map_cons, List.map_nil, beq_self_eq_true, if_true, beq_eq_false_iff_ne.2 hw,
      Bool.false_eq_true, if_false, href, hops, ho, Thread.served]
    simp
  obtain ⟨l1, hints, hd⟩ := Mach.dropFor_rest ({ m with threads := [x.served o rs] } : Mach) x.ref o
  exact ⟨l1, hints, by rw [Mach.deliver, hthreads, hd]⟩

theorem Mach.meetPoison_single {x : Thread} (h : m.threads = [x]) (hh : x.helper = false) (hw : x.wait ≠ .exited) (va : Nat) :
    m.meetPoison x.ref va = m.meet x.ref.team { cause := 0x30, addr := BitVec.ofNat 64 (lineOf va), thread := some x.ref } := by
  unfold Mach.meetPoison
  rw [Mach.thread?_single h]
  dsimp only
  rw [hh, beq_eq_false_iff_ne.2 hw]
  rfl

theorem Mach.failRelease_none {x y : Thread} (h : m.threads = [x]) (hr : x.release = none) (href : y.ref = x.ref) (peer : Nat) :
    m.failRelease peer y = m := by
  unfold Mach.failRelease
  rw [href, Mach.thread?_single h]
  dsimp only [Option.bind_some]
  rw [hr]

/-- What a peer out of reach leaves of a lone thread's operation there. -/
theorem Mach.peerGone_op {x : Thread} {tm : Team} {o : Op} {peer va : Nat} {rs : List RV} (h : m.threads = [x])
    (ht : m.team? x.ref.team = some tm) (ho : x.ops = [o]) (hr : x.release = none) (hc : m.cmds = []) (hw : x.wait ≠ .exited)
    (hh : x.helper = false) (hq : m.tileq = []) (hp : m.peerOp peer o = some va)
    (hf : m.failOp x.ref o va = (m.meetPoison x.ref va).deliver x.ref o rs) : (m.peerGone peer).mem = m.mem ∧
      (m.peerGone peer).threads = [x.served o rs] ∧ (m.peerGone peer).team? x.ref.team = some { tm with
        latent := tm.latent ++ [{ cause := 0x30, addr := BitVec.ofNat 64 (lineOf va), thread := some x.ref }] } := by
  obtain ⟨href, -, hrel⟩ := Thread.writeDst_rest x o.dst rs
  have hmet := Mach.meetPoison_single h hh hw va
  obtain ⟨l1, hints, hd⟩ := Mach.deliver_single (m := m.meet x.ref.team
    { cause := 0x30, addr := BitVec.ofNat 64 (lineOf va), thread := some x.ref }) h ho hw rs
  have hfail : m.failOp x.ref o va = { m.meet x.ref.team
    { cause := 0x30, addr := BitVec.ofNat 64 (lineOf va), thread := some x.ref } with threads := [x.served o rs], l1 := l1, hints := hints } := by
    rw [hf, hmet, hd]
  have hgone : m.peerGone peer = m.failOp x.ref o va := by
    unfold Mach.peerGone
    dsimp only
    rw [h, List.foldl_cons, List.foldl_nil, ho, List.foldl_cons, List.foldl_nil, hp]
    dsimp only
    rw [hfail]
    dsimp only [Mach.meet, Mach.updTeam]
    rw [hq, hc, List.foldl_nil, List.foldl_cons, List.foldl_nil]
    rw [Mach.failRelease_none (x := x.served o rs) rfl (hrel.trans hr) rfl]
    rfl
  rw [hgone, hfail]
  exact ⟨rfl, rfl, Mach.team?_meet ht _⟩

theorem linesOf_first {pa n : Nat} {c : Bool} {rest : List (Nat × Nat × Bool)} (hn : 128 ≤ n) :
    ∃ ls, linesOf ((pa, n, c) :: rest) = (pa, 0, c) :: ls := by
  obtain ⟨k, hk⟩ : ∃ k, n / 128 = k + 1 := ⟨n / 128 - 1, by omega⟩
  unfold linesOf
  rw [List.foldl_cons, List.nil_append, hk, List.range_succ_eq_map, List.map_cons]
  exact List.foldlRecOn (motive := fun acc : List (Nat × Nat × Bool) × Nat => ∃ ls, acc.1 = (pa, 0, c) :: ls) _ _ ⟨_, rfl⟩ (by
    rintro acc ⟨ls, hacc⟩ p -
    exact ⟨_, by rw [hacc]; rfl⟩)

/-- A queued tile operation of a lone thread, whose first line is on the peer. -/
theorem Mach.failTile_first {x : Thread} {q : TileOp} {l : Nat} {rs : List RV} {peer pa n : Nat} {c : Bool} {rest : List (Nat × Nat × Bool)}
    (h : m.threads = [x]) (hh : x.helper = false) (hq : m.tileq = [q]) (hl : q.lanes = [(l, x.ref, rs)])
    (hi : (∃ td g a, q.instr = .tld td g a) ∨ ∃ td a, q.instr = .tst td a) (hp : q.pas = (pa, n, c) :: rest) (hn : 128 ≤ n)
    (hon : onPeer peer pa = true) : m.failTile peer q = { m.meet q.team { cause := 0x30, addr := BitVec.ofNat 64 q.base, thread := none } with
      tileq := [{ q with cutOff := peer :: q.cutOff }] } := by
  obtain ⟨ls, hls⟩ := linesOf_first (c := c) (pa := pa) (rest := rest) hn
  have hfind : (linesOf q.pas).find? (fun p => onPeer peer p.1) = some (pa, 0, c) := by
    rw [hp, hls]
    exact List.find?_cons_of_pos hon
  have hpoison : m.tilePoison q 0 = m.meet q.team { cause := 0x30, addr := BitVec.ofNat 64 q.base, thread := none } := by
    unfold Mach.tilePoison
    rw [hl, List.all_cons, List.all_nil]
    dsimp only
    rw [Mach.thread?_single h]
    exact if_neg (by simp [hh])
  have htiles : (m.tileq.map fun y => if y.order == q.order then { y with cutOff := peer :: y.cutOff } else y) =
      [{ q with cutOff := peer :: q.cutOff }] := by
    rw [hq]
    simp
  rw [← htiles]
  unfold Mach.failTile
  rw [hfind]
  rcases hi with ⟨td, g, a, hi⟩ | ⟨td, a, hi⟩ <;>
    (rw [hi]; dsimp only; rw [hpoison])

theorem Mach.clearRsh_rest (m : Mach) : ∃ linemeta, m.clearRsh = { m with linemeta := linemeta } :=
  List.foldlRecOn (motive := fun n : Mach => ∃ linemeta, n = { m with linemeta := linemeta }) _ _ ⟨_, rfl⟩ (by
    rintro _ ⟨linemeta, rfl⟩ l -
    exact ⟨_, rfl⟩)

theorem Mach.countRounds_rest (m : Mach) (gs : List Nat) : ∃ rounds, m.countRounds gs = { m with rounds := rounds } :=
  List.foldlRecOn (motive := fun n : Mach => ∃ rounds, n = { m with rounds := rounds }) _ _ ⟨_, rfl⟩ (by
    rintro _ ⟨rounds, rfl⟩ l -
    exact ⟨_, rfl⟩)

theorem Mach.setRelease_single {x : Thread} (h : m.threads = [x]) (q : Option Release) :
    m.setRelease [x] q = { m with threads := [{ x with release := q }] } := by
  rw [Mach.setRelease, h]
  simp

/-- A release that ends, its rounds counted. -/
def Mach.closeRelease (m : Mach) (r : Release) (ls : List Thread) : Mach :=
  (if r.counted then m else m.countRounds r.regions).clearRsh.setRelease ls none

theorem Mach.closeRelease_single {x : Thread} (h : m.threads = [x]) (r : Release) : ∃ rounds linemeta,
    m.closeRelease r [x] = { m with rounds := rounds, linemeta := linemeta, threads := [{ x with release := none }] } := by
  unfold Mach.closeRelease
  have hcounted : ∃ rounds, (if r.counted then m else m.countRounds r.regions) = { m with rounds := rounds } := by
    split_ifs
    · exact ⟨_, rfl⟩
    · exact m.countRounds_rest r.regions
  obtain ⟨rounds, hrounds⟩ := hcounted
  obtain ⟨linemeta, hmeta⟩ := Mach.clearRsh_rest { m with rounds := rounds }
  refine ⟨rounds, linemeta, ?_⟩
  rw [hrounds, hmeta]
  exact Mach.setRelease_single (m := { m with rounds := rounds, linemeta := linemeta }) h none

/-- What a peer out of reach leaves of a lone thread's release. -/
theorem Mach.failRelease_lone {x : Thread} {r : Release} {b : VByte} {peer : Nat} (h : m.threads = [x]) (hops : x.ops = [])
    (hr : x.release = some r) (hcls : 2 ≤ r.cls) (hh : x.helper = false) (hv : m.versions = [b]) (hb : b.ref = x.ref) (hop : b.op < r.upto)
    (hd : b.diePub = false) (hon : onPeer peer b.pa = true) : ∃ rounds linemeta, m.failRelease peer x =
      ({ m with versions := [], rounds := rounds, linemeta := linemeta
                threads := [{ x with release := if r.cls = 3 then none else some { r with lines := r.lines.filter fun l => !onPeer peer l } }] }
        : Mach).meet x.ref.team { cause := 0x30, addr := 0, thread := some x.ref } := by
  have hls : m.releasing x.ref.team r = [x] := by
    rw [Mach.releasing, h]
    simp [hr]
  have hpub : m.pubSet x.ref r.upto = [b] := by
    rw [Mach.pubSet, hv]
    simp [hb, hop, hd]
  have hplace : m.toPlace x.ref.team [x] r = [b] := by
    rw [Mach.toPlace, hv]
    have h1 : (r.cls == 1) = false := beq_eq_false_iff_ne.2 (by omega)
    simp [hpub, h1, hd]
  have hawaits : m.awaitsPeer peer x.ref.team r = (m, true) := by
    unfold Mach.awaitsPeer
    dsimp only
    rw [hls, hplace, if_neg (by simp [Thread.storesDone, hops]; omega), if_pos (by simp [hon])]
  have hbelow : m.leaves [b] b = true := by simp [Mach.leaves, sameStore]
  have hversions : m.versions.filter (fun x => !m.leaves [b] x) = [] := by
    rw [hv]
    simp [hbelow]
  unfold Mach.failRelease
  rw [Mach.thread?_single h, Option.bind_some, hr]
  dsimp only
  rw [hawaits]
  dsimp only
  rw [hls, hplace]
  rw [List.filter_cons, hon, if_pos rfl, List.filter_nil, hversions]
  rw [List.find?_cons_of_pos (by simp [hh])]
  have hcleared (n : Mach) (hn : n.threads = [x]) : ∃ rounds linemeta, (if (r.cls == 3 && [b].length == [b].length) = true then
      n.closeRelease r [x] else n.setRelease [x] (some { r with lines := r.lines.filter fun l => !onPeer peer l })) =
      { n with rounds := rounds, linemeta := linemeta
               threads := [{ x with release := if r.cls = 3 then none else some { r with lines := r.lines.filter fun l => !onPeer peer l } }] } := by
    by_cases h3 : r.cls = 3
    · rw [if_pos (by simp [h3]), if_pos h3]
      exact Mach.closeRelease_single hn r
    · rw [if_neg (by simp [h3]), if_neg h3]
      exact ⟨_, _, Mach.setRelease_single hn _⟩
  obtain ⟨rounds, linemeta, hc⟩ := hcleared { m with versions := [] } h
  exact ⟨rounds, linemeta, congrArg (fun n => Mach.meet n x.ref.team { cause := 0x30, addr := 0, thread := some x.ref }) hc⟩

theorem Mach.peerGone_tile {x : Thread} {tm : Team} {o : Op} {q : TileOp} {peer : Nat} (h : m.threads = [x])
    (ht : m.team? x.ref.team = some tm) (ho : x.ops = [o]) (hr : x.release = none) (hc : m.cmds = []) (hk : o.kind = .plain)
    (hq : m.tileq = [q]) (hu : q.team = x.ref.team)
    (hf : m.failTile peer q = { m.meet q.team { cause := 0x30, addr := BitVec.ofNat 64 q.base, thread := none } with
      tileq := [{ q with cutOff := peer :: q.cutOff }] }) : (m.peerGone peer).mem = m.mem ∧ (m.peerGone peer).threads = [x] ∧
      (m.peerGone peer).tileq = [{ q with cutOff := peer :: q.cutOff }] ∧ (m.peerGone peer).team? x.ref.team = some { tm with
        latent := tm.latent ++ [{ cause := 0x30, addr := BitVec.ofNat 64 q.base, thread := none }] } := by
  have hplain : m.peerOp peer o = none := by
    unfold Mach.peerOp
    rw [hk]
  have hgone : m.peerGone peer = m.failTile peer q := by
    unfold Mach.peerGone
    dsimp only
    rw [h, List.foldl_cons, List.foldl_nil, ho, List.foldl_cons, List.foldl_nil, hplain]
    dsimp only
    rw [hq, List.foldl_cons, List.foldl_nil, hf]
    dsimp only [Mach.meet, Mach.updTeam]
    rw [h, hc, List.foldl_cons, List.foldl_nil, Mach.failRelease_none (x := x) (y := x) rfl hr rfl]
    rfl
  rw [hgone, hf, hu]
  exact ⟨rfl, h, rfl, Mach.team?_meet ht _⟩

theorem Mach.peerGone_release {x : Thread} {tm : Team} {r : Release} {peer : Nat} {rounds : List (Nat × Word)}
    {linemeta : List (Nat × BitVec 16)} (h : m.threads = [x]) (ht : m.team? x.ref.team = some tm) (ho : x.ops = []) (hc : m.cmds = [])
    (hq : m.tileq = []) (hf : m.failRelease peer x =
      ({ m with versions := [], rounds := rounds, linemeta := linemeta
                threads := [{ x with release := if r.cls = 3 then none else some { r with lines := r.lines.filter fun l => !onPeer peer l } }] }
        : Mach).meet x.ref.team { cause := 0x30, addr := 0, thread := some x.ref }) : (m.peerGone peer).mem = m.mem ∧
      (m.peerGone peer).versions = [] ∧ (m.peerGone peer).team? x.ref.team = some { tm with
        latent := tm.latent ++ [{ cause := 0x30, addr := 0, thread := some x.ref }] } ∧ (m.peerGone peer).threads =
        [{ x with release := if r.cls = 3 then none else some { r with lines := r.lines.filter fun l => !onPeer peer l } }] := by
  have hgone : m.peerGone peer = m.failRelease peer x := by
    unfold Mach.peerGone
    dsimp only
    rw [h, List.foldl_cons, List.foldl_nil, ho, List.foldl_nil, hq, List.foldl_nil, h, List.foldl_cons, List.foldl_nil, hf]
    dsimp only [Mach.meet, Mach.updTeam]
    rw [hc]
    rfl
  rw [hgone, hf]
  exact ⟨rfl, rfl, Mach.team?_meet (m := { m with
    versions := [], rounds := rounds, linemeta := linemeta
    threads := [{ x with release := if r.cls = 3 then none else some { r with lines := r.lines.filter fun l => !onPeer peer l } }] }) ht _, rfl⟩

theorem Mach.Counts.of_errors {n k : Mach} {p : Place} {c u : Nat} (h : m.Counts n p c u) (he : k.errors = n.errors) : m.Counts k p c u :=
  ⟨he ▸ h.same, fun q hq => he ▸ h.other q hq⟩

/-- Settles O50: each error by what its array's counters, its line and its team become, and a peer out of reach by the one operation,
tile operation or release that stands there. -/
theorem errors : Obligations.Errors := by
  intro s p gives counted
  have hcounts {n : Mach} {c u : Nat} (h : s.m.Counts n p c u) : counted n c u := ⟨h.same, h.other⟩
  refine ⟨fun t v x tm hx hw ht => ?_, fun u tm ht => ?_, fun core pa hp => ⟨fun hv => ?_, ?_⟩, fun pa hp => ?_, fun u tm ht => ?_, ?_, ?_,
    fun peer x tm o hx ht ho hr hc hw hh => ⟨fun hq => ?_, fun q l rs pa n c rest hq hl hu hk hi hpas hn hon => ?_⟩,
    fun peer x tm r b hx ht ho hr hcls hc hq hh hv hb hop hd hon => ?_⟩
  · obtain ⟨hmem, herr, hthreads, hteam⟩ := Mach.arrayError_register (p := p) (v := v) hx hw ht
    exact ⟨_, ⟨exec_uncorrectableError s p _, hmem⟩, hcounts ((s.m.countUncorrectable_counts p).of_errors herr), hthreads, hteam⟩
  · exact ⟨_, ⟨exec_uncorrectableError s p _, rfl⟩, hcounts ((s.m.countUncorrectable_counts p).of_errors rfl),
      Mach.team?_meet (m := s.m.countUncorrectable p) ht _⟩
  · subst hp
    obtain ⟨hmem, herr, hl1⟩ := Mach.refetch_clean (m := s.m.countCorrected (.l1 core)) (core := core) (pa := pa) hv
    have hc := hcounts ((s.m.countCorrected_counts (.l1 core)).of_errors herr)
    simp only [List.forall_mem_cons]
    exact ⟨⟨_, ⟨exec_uncorrectableError s _ _, hmem⟩, hc, hl1⟩, ⟨_, ⟨exec_correctableError_line s _ _, hmem⟩, hc, hl1⟩,
      fun _ h => absurd h List.not_mem_nil⟩
  · subst hp
    have hd := s.m.arrayError_dirty (.l1 core) pa
    refine ⟨_, ⟨exec_uncorrectableError s _ _, hd.mem⟩, hcounts ((s.m.countUncorrectable_counts (.l1 core)).of_errors hd.errors), hd.poison,
      hd.l1, fun b hb => ?_⟩
    rintro ⟨hline, hcore, hpub, hl2⟩
    have := hd.bytes b hb
    simp [lostBytes, hline, hcore, hpub, hl2] at this
  · have hd := s.m.arrayError_dirty p pa
    refine ⟨_, ⟨exec_uncorrectableError s _ _, hd.mem⟩, hd.errors.trans ?_, hd.poison, hd.checks.trans ?_⟩
    · rcases hp with rfl | ⟨n, rfl⟩ <;> rfl
    · rcases hp with rfl | ⟨n, rfl⟩
      · rfl
      · rw [if_neg (by simp), List.append_nil]
        rfl
  · exact ⟨_, ⟨exec_uncorrectableError s p _, rfl⟩, hcounts ((s.m.countUncorrectable_counts p).of_errors rfl),
      (Mach.team?_updTeam _ _ (fun t => { t with lost := true }) fun _ => rfl).trans (congrArg (Option.map _) ht)⟩
  · exact ⟨_, ⟨exec_correctableError s p, rfl⟩, hcounts (s.m.countCorrected_counts p), rfl⟩
  · exact ⟨s.m.setCounters p 0 0, ⟨rfl, rfl⟩, countersOf_setCounters_same s.m p 0 0, rfl,
      fun q hq => countersOf_setCounters_other s.m hq 0 0⟩
  · intro ends
    refine ⟨fun r hk hon => ?_, fun rs pa va hk hpl hon => ?_⟩
    · have hpeer : s.m.peerOp peer o = some r.va := by
        unfold Mach.peerOp
        rw [hk]
        exact if_pos hon
      obtain ⟨hmem, hthreads, hteam⟩ := Mach.peerGone_op hx ht ho hr hc hw hh hq hpeer (rs := o.dst.zeros o.dst.tag)
        (by unfold Mach.failOp; rw [hk])
      exact ⟨_, ⟨exec_peerUnreachable s peer, hmem⟩, hthreads, hteam⟩
    · have hpeer : s.m.peerOp peer o = some va := by
        unfold Mach.peerOp
        rw [hk]
        dsimp only
        rw [Op.there, hpl]
        exact if_pos hon
      obtain ⟨hmem, hthreads, hteam⟩ := Mach.peerGone_op hx ht ho hr hc hw hh hq hpeer (rs := rs) (by unfold Mach.failOp; rw [hk])
      exact ⟨_, ⟨exec_peerUnreachable s peer, hmem⟩, hthreads, hteam⟩
  · obtain ⟨hmem, hthreads, htiles, hteam⟩ := Mach.peerGone_tile hx ht ho hr hc hk hq hu (Mach.failTile_first hx hh hq hl hi hpas hn hon)
    exact ⟨_, ⟨exec_peerUnreachable s peer, hmem⟩, hthreads, htiles, hteam⟩
  · obtain ⟨rounds, linemeta, hf⟩ := Mach.failRelease_lone hx ho hr hcls hh hv hb hop hd hon
    obtain ⟨hmem, hversions, hteam, hthreads⟩ := Mach.peerGone_release hx ht ho hc hq hf
    exact ⟨_, ⟨exec_peerUnreachable s peer, hmem⟩, hversions, hteam, hthreads⟩

end Sys2Proof.Machine
end

section
/-! SUPPORT. A peer's row command over an L1 line that starts within a line: the state that refutes O51 (11 R191, R192). -/

namespace Sys2Proof.Machine

/-- A copy whose address is no multiple of 128, in the row unit at 0. -/
def strayCopy : L1Line := { core := 0, line := 1, data := [], round := 0, owned := false, since := 0 }

def strayState : State := { callState with m := { callState.m with l1 := [strayCopy] } }

/-- The addresses of the copies after a peer has zeroed the row unit at 0. -/
def copiesAfter (s : State) : Option (List Nat) :=
  match exec (.drovewayRequest (.row 0 none)) s with
  | .next t => some (t.m.l1.map fun c => c.line)
  | _ => none

theorem copiesAfter_strayState : copiesAfter strayState = some [1] := by decide +kernel

/-- Refutes O51: a row command drops the copies whose addresses are those of the unit's lines, and a copy at an address between them
stays. -/
theorem not_agentAccesses : ¬ Obligations.AgentAccesses := by
  intro hall
  obtain ⟨-, -, -, hrow, -⟩ := hall strayState 0 (by decide) ⟨by decide, by decide⟩
  obtain ⟨⟨m, he, -, -, -, hcopies⟩, -⟩ := hrow ⟨rfl, by decide⟩ rfl ⟨rfl, rfl⟩ (fun _ h => absurd h List.not_mem_nil)
  have hafter := copiesAfter_strayState
  unfold copiesAfter at hafter
  rw [he] at hafter
  obtain ⟨c, hc, hline⟩ := List.mem_map.1 ((Option.some.inj hafter).symm ▸ List.mem_singleton_self 1)
  have := hcopies c hc
  omega

end Sys2Proof.Machine
end

section
/-! SUPPORT. The results of a service call for a lane whose name a second thread bears: the state that refutes O52 (19 R269). -/

namespace Sys2Proof.Machine

/-- A batch that has been served: it has an answer for the lane. -/
def servedBatch : Batch := {
  id := 5, team := 1, ctx := 1, die := 0, num := 0, a := 0, inst := 0, pc := 0, resume := 0, calls := [], change := none
  results := [(callLane.ref, [rv0])], dropped := false }

def waitingLane : Thread := { callLane with wait := .service 5 }

/-- A thread of the same name, whose load is outstanding. -/
def loadingNamesake : Thread := { callLane with ops := [{ id := 0, kind := .plain, dst := .none, loads := true, stores := false, tile := false }] }

def servedState : State := { callState with m := { callState.m with
  batches := [servedBatch], threads := [waitingLane, loadingNamesake], services := true, uid := 1 } }

/-- Whether the lane is ready after its results have arrived. -/
def readyAfter (s : State) : Option Bool :=
  match exec (.serviceResult 5) s with
  | .next t => (t.m.thread? callLane.ref).map fun x => x.wait == .ready
  | _ => none

theorem readyAfter_servedState : readyAfter servedState = some false := by decide

/-- Refutes O52: the acquire that follows the results waits for the loads of every thread of the lane's name. -/
theorem not_services : ¬ Obligations.Services := by
  rintro ⟨-, hresult, -, -⟩
  obtain ⟨m, he, -, hlane, -, -⟩ := hresult servedState servedBatch callLane.ref waitingLane callTeam [rv0] rfl rfl rfl rfl rfl rfl rfl rfl
    rfl rfl rfl rfl rfl (fun _ h => absurd h List.not_mem_nil) (fun _ h => absurd h List.not_mem_nil) (fun y hy c g => by
      rcases List.mem_cons.1 hy with rfl | hy
      · exact Wait.noConfusion
      · rw [List.mem_singleton.1 hy]
        exact Wait.noConfusion)
  have hafter := readyAfter_servedState
  unfold readyAfter at hafter
  rw [show servedBatch.id = 5 from rfl] at he
  rw [he] at hafter
  dsimp only at hafter
  rw [hlane] at hafter
  exact absurd hafter (by decide)

end Sys2Proof.Machine
end

section
/-! SUPPORT. A load of an absent page while another lane of its group still walks at the same place: the state that refutes O28
(06 R113, R115). -/

namespace Sys2Proof.Machine

def plainCtx : Ctx := {
  desc := { ctxno := 1, root := 0, keymask := 0, kmode := true, lright := false, policy := false, svcok := false, rlimit := 0
            fqbase := 4096, fqsize := 128, fqtail := 0 }
  addr := 0, fqhead := 0, fqovf := 0, scopes := [], halted := false }

/-- A lane whose walk for the page at 0 has ended without a leaf, with that address in its pair at r0. -/
def absentLane : Thread := { callLane with
  regs := List.replicate 16 { bits := 0, tag := .i64 }, inhand := [(0, none)] }

/-- A lane of the same group that still walks for another page, at the same packet. -/
def walkingLane : Thread := { callLane with ref := { team := 1, tidx := 1 }, wait := .walk 1 0 }

def walkingState : State := { callState with m := { callState.m with
  threads := [absentLane, walkingLane], ctxs := [plainCtx] } }

theorem walkingState_bundle : walkingState.m.bundle = [absentLane] := rfl

theorem walkingState_issues : Issues walkingState callTeam where
  team := rfl
  lanes := by simp [walkingState_bundle]
  named := by
    intro th hth
    rw [walkingState_bundle, List.mem_singleton] at hth
    subst hth
    rfl
  apart := by simp [walkingState_bundle]
  whole := by
    intro th hth
    rw [walkingState_bundle, List.mem_singleton] at hth
    subst hth
    rfl
  ready := by
    intro th hth
    rw [walkingState_bundle, List.mem_singleton] at hth
    subst hth
    rfl
  narrow := by decide
  quiet := rfl

theorem walkingState_ringReady : walkingState.RingReady callTeam.ctx plainCtx where
  ctx := by decide
  room := by decide +kernel
  ring := rfl
  desc := by decide
  wf := rfl
  home := ⟨by unfold Mach.atHome; decide +kernel, by unfold Mach.atHome; decide +kernel⟩

/-- LDB into r4 from the address in the pair at r0. -/
def absentLoad : Instr := .ldb 4 0 false .i32 0

/-- Whether the lane is parked after a word. -/
def parkedAfter (i : Instr) (s : State) : Option Bool :=
  match exec i s with
  | .next t => (t.m.thread? absentLane.ref).map fun x => match x.wait with | .parked _ => true | _ => false
  | _ => none

theorem parkedAfter_absentLoad : parkedAfter absentLoad walkingState = some false := by decide +kernel

/-- Refutes O28: a lane that finds its page absent is not parked while another lane of its group, at the same word, still walks: it waits
for that walk, and no record is written. -/
theorem not_parkedLanes : ¬ Obligations.ParkedLanes := by
  intro hall
  obtain ⟨hwords, -⟩ := hall
  obtain ⟨hloads, -⟩ := hwords walkingState callTeam absentLane 4 0 0 0 .normal .i32 0 0 0 0 ⟨walkingState_issues, walkingState_bundle, rfl⟩
    rfl (by decide)
  obtain ⟨-, hbounded⟩ := hloads ⟨by decide, by decide, by decide⟩ rfl
  obtain ⟨habsent, -⟩ := hbounded rfl false (by decide)
  obtain ⟨t, he, -, -, hlane⟩ := habsent (by decide) plainCtx walkingState_ringReady
  have hafter := parkedAfter_absentLoad
  unfold parkedAfter absentLoad at hafter
  rw [he] at hafter
  simp only [hlane] at hafter
  exact absurd hafter (by decide)

end Sys2Proof.Machine
end

section
/-! SUPPORT. Power states, starting, and the memory description that a start writes (20 R289-R296). -/

namespace Sys2Proof.Machine

/-! ### The memory description (20 R296) -/

/-- An entry of the memory description: type, number, base and size. -/
abbrev DescEntry := Nat × Nat × Nat × Nat

def entryBytes (e : DescEntry) : List Byte := descEntry e.1 e.2.1 e.2.2.1 e.2.2.2

/-- An entry whose fields fit their widths. -/
def DescEntry.Fits (e : DescEntry) : Prop := e.1 < 2 ^ 32 ∧ e.2.1 < 2 ^ 32 ∧ e.2.2.1 < 2 ^ 64 ∧ e.2.2.2 < 2 ^ 64

/-- An entry stands at an address. -/
def Memory.EntryAt (mem : Memory) (x : Nat) (e : DescEntry) : Prop :=
  leNat (mem.read x 4) = e.1 ∧ leNat (mem.read (x + 4) 4) = e.2.1 ∧ leNat (mem.read (x + 8) 8) = e.2.2.1 ∧
    leNat (mem.read (x + 16) 8) = e.2.2.2

/-- The entries of a port: its pool and the pool's shadow table. -/
def portEntries (x : Port) (p : Nat) : List DescEntry :=
  match x with
  | .cxl b => [(2, p, poolBase p, poolBytes b), (3, p, shadowBase p b, poolBytes b / 64)]
  | _ => []

def Mach.stackEntries (m : Mach) : List DescEntry := m.stackBase.zipIdx.map fun p => (1, p.2, p.1, stackBytes)

def Mach.poolEntries (m : Mach) : List DescEntry := ((List.range 4).map fun p => portEntries (m.ports.getD p .off) p).flatten

/-- The entries of the memory description in order. -/
def Mach.entries (m : Mach) : List DescEntry :=
  m.stackEntries ++ m.poolEntries ++ [(4, 0, m.mailBase, bar0Bytes), (5, 0, m.fwBase, fwBytes), (0, 0, 0, 0)]

theorem entryBytes_length (e : DescEntry) : (entryBytes e).length = 32 := by
  simp [entryBytes, descEntry, leBytes_length]

theorem entriesBytes_length (es : List DescEntry) : (es.map entryBytes).flatten.length = 32 * es.length := by
  induction es with
  | nil => rfl
  | cons e es ih =>
    rw [List.map_cons, List.flatten_cons, List.length_append, ih, entryBytes_length, List.length_cons]
    omega

theorem portEntries_bytes (x : Port) (p : Nat) : ((portEntries x p).map entryBytes).flatten = match x with
    | .cxl b => descEntry 2 p (poolBase p) (poolBytes b) ++ descEntry 3 p (shadowBase p b) (poolBytes b / 64)
    | _ => [] := by
  cases x with
  | cxl b => exact (congrArg _ (List.append_nil _))
  | off => rfl
  | pcie => rfl

theorem flatten_map_flatten {α β : Type} (f : α → List β) (ls : List (List α)) :
    (ls.flatten.map f).flatten = (ls.map fun l => (l.map f).flatten).flatten := by
  induction ls with
  | nil => rfl
  | cons l ls ih => rw [List.flatten_cons, List.map_append, List.flatten_append, ih, List.map_cons, List.flatten_cons]

theorem Mach.poolEntries_bytes (m : Mach) : (m.poolEntries.map entryBytes).flatten =
    ((List.range 4).map fun p => match m.ports.getD p .off with
      | .cxl b => descEntry 2 p (poolBase p) (poolBytes b) ++ descEntry 3 p (shadowBase p b) (poolBytes b / 64)
      | _ => []).flatten := by
  rw [Mach.poolEntries, flatten_map_flatten, List.map_map]
  exact congrArg List.flatten (List.map_congr_left fun p _ => portEntries_bytes _ p)

theorem Mach.description_entries (m : Mach) : m.description = (m.entries.map entryBytes).flatten := by
  rw [Mach.entries, List.map_append, List.flatten_append, List.map_append, List.flatten_append, Mach.poolEntries_bytes,
    Mach.stackEntries, List.map_map]
  simp only [Mach.description, List.map_cons, List.map_nil, List.flatten_cons, List.flatten_nil, List.append_nil, List.append_assoc]
  rfl

/-- Four fields one after another, as they are read. -/
theorem Memory.entryAt_of_read {mem : Memory} {x : Nat} {e : DescEntry} (he : e.Fits) (h : mem.read x 32 = entryBytes e) :
    mem.EntryAt x e := by
  obtain ⟨h1, h2, h3, h4⟩ := he
  rw [show 32 = 4 + (4 + (8 + (8 + 8))) from rfl, Memory.read_add, Memory.read_add, Memory.read_add, Memory.read_add] at h
  simp only [entryBytes, descEntry, List.append_assoc] at h
  obtain ⟨ha, h⟩ := List.append_inj h (by rw [Memory.read_length, leBytes_length])
  obtain ⟨hb, h⟩ := List.append_inj h (by rw [Memory.read_length, leBytes_length])
  obtain ⟨hc, h⟩ := List.append_inj h (by rw [Memory.read_length, leBytes_length])
  obtain ⟨hd, -⟩ := List.append_inj h (by rw [Memory.read_length, leBytes_length])
  refine ⟨?_, ?_, ?_, ?_⟩
  · rw [ha, leNat_leBytes]
    exact Nat.mod_eq_of_lt h1
  · rw [hb, leNat_leBytes]
    exact Nat.mod_eq_of_lt h2
  · rw [show x + 8 = x + 4 + 4 from rfl, hc, leNat_leBytes]
    exact Nat.mod_eq_of_lt h3
  · rw [show x + 16 = x + 4 + 4 + 8 from rfl, hd, leNat_leBytes]
    exact Nat.mod_eq_of_lt h4

/-- An entry of a description that has been written stands at its place. -/
theorem Memory.entryAt_written {mem : Memory} (hw : mem.wf = true) {a j : Nat} {es : List DescEntry} {e : DescEntry} (hj : es[j]? = some e)
    (he : e.Fits) : (mem.write a (es.map entryBytes).flatten).EntryAt (a + 32 * j) e := by
  obtain ⟨hlt, rfl⟩ := List.getElem?_eq_some_iff.1 hj
  refine Memory.entryAt_of_read he ?_
  have hread := Memory.read_write a (es.map entryBytes).flatten hw
  have hsplit : es = es.take j ++ (es[j] :: es.drop (j + 1)) := by
    rw [← List.drop_eq_getElem_cons hlt, List.take_append_drop]
  have htake : (es.take j).length = j := List.length_take_of_le hlt.le
  have hlen : (es.map entryBytes).flatten.length = 32 * j + (32 + 32 * (es.length - (j + 1))) := by
    rw [entriesBytes_length]
    omega
  rw [hlen, Memory.read_add, Memory.read_add] at hread
  generalize hm : mem.write a (es.map entryBytes).flatten = mem' at hread ⊢
  rw [hsplit, List.map_append, List.flatten_append, List.map_cons, List.flatten_cons] at hread
  obtain ⟨-, hrest⟩ := List.append_inj hread (by rw [Memory.read_length, entriesBytes_length, htake])
  exact (List.append_inj hrest (by rw [Memory.read_length, entryBytes_length])).1

theorem portEntries_fits {x : Port} {p : Nat} (hp : p < 4) : ∀ e ∈ portEntries x p, e.Fits := by
  cases x with
  | off => exact fun _ h => absurd h List.not_mem_nil
  | pcie => exact fun _ h => absurd h List.not_mem_nil
  | cxl b =>
    simp only [portEntries, List.forall_mem_cons, DescEntry.Fits, poolBase, shadowBase, poolBytes]
    exact ⟨by omega, by omega, fun _ h => absurd h List.not_mem_nil⟩

theorem Mach.stackEntries_at {m : Mach} {n : Nat} (hn : n < m.stackBase.length) :
    m.stackEntries[n]? = some (1, n, m.stackBase.getD n 0, stackBytes) := by
  simp [Mach.stackEntries, hn]

/-- A pool's two entries stand side by side. -/
theorem Mach.poolEntries_at {m : Mach} {p b : Nat} (hp : p < 4) (hb : m.ports.getD p .off = .cxl b) : ∃ j, j + 1 < m.poolEntries.length ∧
    m.poolEntries[j]? = some (2, p, poolBase p, poolBytes b) ∧ m.poolEntries[j + 1]? = some (3, p, shadowBase p b, poolBytes b / 64) := by
  obtain ⟨before, after, hrange⟩ := List.append_of_mem (List.mem_range.2 hp)
  have hpool : m.poolEntries = (before.map fun p => portEntries (m.ports.getD p .off) p).flatten ++
      ((2, p, poolBase p, poolBytes b) :: (3, p, shadowBase p b, poolBytes b / 64) ::
        (after.map fun p => portEntries (m.ports.getD p .off) p).flatten) := by
    rw [Mach.poolEntries, hrange, List.map_append, List.flatten_append, List.map_cons, List.flatten_cons, hb]
    rfl
  generalize (before.map fun p => portEntries (m.ports.getD p .off) p).flatten = pre at hpool
  rw [hpool]
  refine ⟨pre.length, ?_, ?_, ?_⟩
  · rw [List.length_append, List.length_cons, List.length_cons]
    omega
  · rw [List.getElem?_append_right le_rfl, Nat.sub_self]
    rfl
  · rw [List.getElem?_append_right (Nat.le_add_right _ 1), Nat.add_sub_cancel_left]
    rfl

/-- What a written description says: the stacks, the pools with their shadow tables, and an end. -/
theorem Mach.described {m : Mach} {mem : Memory} (hw : mem.wf = true) (hs : ∀ b ∈ m.stackBase, b < 2 ^ 64) (hl : m.stackBase.length ≤ 12)
    (a : Nat) :
    ∃ k, (∀ n < m.stackBase.length, (mem.write a m.description).EntryAt (a + 32 * n) (1, n, m.stackBase.getD n 0, stackBytes)) ∧
      (∀ p b, p < 4 → m.ports.getD p .off = .cxl b → ∃ j < k,
        (mem.write a m.description).EntryAt (a + 32 * j) (2, p, poolBase p, poolBytes b) ∧
        (mem.write a m.description).EntryAt (a + 32 * (j + 1)) (3, p, shadowBase p b, poolBytes b / 64)) ∧
      (mem.write a m.description).EntryAt (a + 32 * k) (0, 0, 0, 0) := by
  rw [Mach.description_entries]
  have hlen : m.stackEntries.length = m.stackBase.length := by simp [Mach.stackEntries]
  refine ⟨(m.stackEntries ++ m.poolEntries).length + 2, fun n hn => ?_, fun p b hp hb => ?_, ?_⟩
  · refine Memory.entryAt_written hw ?_ ?_
    · rw [Mach.entries, List.append_assoc, List.getElem?_append_left (by rw [hlen]; exact hn), Mach.stackEntries_at hn]
    · have hb : m.stackBase.getD n 0 < 2 ^ 64 := by
        rw [List.getD_eq_getElem?_getD, List.getElem?_eq_getElem hn, Option.getD_some]
        exact hs _ (List.getElem_mem hn)
      exact ⟨Nat.one_lt_two_pow (by decide), by dsimp only; omega, hb, by simp only [stackBytes]; omega⟩
  · obtain ⟨j, hj, hpool, hshadow⟩ := Mach.poolEntries_at hp hb
    have hat (i : Nat) (hi : i < m.poolEntries.length) : m.entries[m.stackEntries.length + i]? = m.poolEntries[i]? := by
      rw [Mach.entries, List.getElem?_append_left (by rw [List.length_append]; omega), List.getElem?_append_right (by omega)]
      congr 1
      omega
    have hfits := portEntries_fits (x := .cxl b) hp
    simp only [portEntries, List.forall_mem_cons] at hfits
    refine ⟨m.stackEntries.length + j, by rw [List.length_append]; omega, ?_, ?_⟩
    · exact Memory.entryAt_written hw ((hat j (by omega)).trans hpool) hfits.1
    · exact Memory.entryAt_written hw ((hat (j + 1) hj).trans hshadow) hfits.2.1
  · refine Memory.entryAt_written hw ?_ ⟨by decide, by decide, by decide, by decide⟩
    rw [Mach.entries, List.getElem?_append_right (by omega), Nat.add_sub_cancel_left]
    rfl

/-! ### Calls and requests (20 R289-R291) -/

theorem call_silent {s : State} (h : s.sys.silent = true) (k : State → Host.Outcome State Fault Refusal) : call k s = .next s := if_pos h

theorem call_live {s : State} (h : s.sys.silent = false) (k : State → Host.Outcome State Fault Refusal) : call k s = k s :=
  if_neg (by rw [h]; exact Bool.false_ne_true)

theorem managed_awake {s : State} (h : s.sys.power ≠ .pkgSleep) (k : State → Host.Outcome State Fault Refusal) : managed k s = k s :=
  congrArg k (if_neg (mt beq_iff_eq.1 h))

theorem managed_asleep {s : State} (h : s.sys.power = .pkgSleep) (k : State → Host.Outcome State Fault Refusal) : managed k s = k s.wake :=
  congrArg k (if_pos (beq_iff_eq.2 h))

/-- The state in which a module is back in RUN with no shepherd to start again. -/
def State.woken (s : State) : State := { s with m := { s.m with diesOff := [] }, sys := { s.sys with power := .run } }

def Mach.allOn (m : Mach) (minimal : Bool) : Mach := { m with diesOff := if minimal then [1, 2, 3] else [] }

/-- Start the shepherds again that dies have lost (19 R270). -/
def Mach.relaunch (m : Mach) (ps : List (Nat × Nat × DWord)) : Mach :=
  ps.foldl (fun (m : Mach) p => match m.kernelAt 1 p.2.1 with
    | some (o, k) => m.launchShepherds [p.1] o k p.2.2
    | none => m) m

/-- The machine that a wake leaves: the dies are on again, and lost shepherds start again. -/
def Mach.waked (m : Mach) (minimal : Bool) : Mach :=
  if m.services then (m.allOn minimal).relaunch m.lostDies else m.allOn minimal

theorem State.wake_waked (s : State) : s.wake = { s with
    m := s.m.waked s.sys.boot.minimal, sys := { s.sys with power := if s.sys.boot.minimal then .dieOff else .run } } := rfl

theorem State.wake_woken {s : State} (hmin : s.sys.boot.minimal = false) (h : s.m.services = false ∨ s.m.lostDies = []) :
    s.wake = s.woken := by
  have hm : s.m.waked false = { s.m with diesOff := [] } := by
    rcases h with h | h
    · exact if_neg (by rw [h]; exact Bool.false_ne_true)
    · rw [Mach.waked, h]
      exact ite_self _
  rw [State.wake_waked, hmin, hm]
  rfl

/-- A machine with a shepherd's launch for a die. -/
def Mach.shepherded (m : Mach) (d : Nat) (o : Object) (k : Kernel) (arg : DWord) : Mach := { m with
  uid := m.uid + 1, launches := m.launches ++ [shepherdLaunch m.uid d o k arg], lostDies := m.lostDies.filter fun x => x.1 != d }

theorem Mach.launchShepherds_cons {m : Mach} {d : Nat} (hd : m.diesOff = []) (h : m.hasShepherd d = false) (ds : List Nat) (o : Object)
    (k : Kernel) (arg : DWord) : m.launchShepherds (d :: ds) o k arg = (m.shepherded d o k arg).launchShepherds ds o k arg := by
  refine congrArg (fun x : Mach => x.launchShepherds ds o k arg) (if_neg ?_)
  rw [hd, h]
  exact Bool.false_ne_true

theorem Mach.hasShepherd_false {m : Mach} {d : Nat} (ht : ∀ t ∈ m.teams, t.shepherd = true → dieOf t.core ≠ d)
    (hq : ∀ l ∈ m.launches, l.shepherd ≠ some d) : m.hasShepherd d = false := by
  have h1 : (m.teams.find? fun t => t.shepherd && dieOf t.core == d && (t.status == .running || t.status == .saved)) = none := by
    refine List.find?_eq_none.2 fun t htm => ?_
    simp only [Bool.and_eq_true, beq_iff_eq]
    exact fun h => ht t htm h.1.1 h.1.2
  have h2 : (m.launches.find? fun l => l.shepherd == some d && decide (l.next < l.folds)) = none := by
    refine List.find?_eq_none.2 fun l hlm => ?_
    simp only [Bool.and_eq_true, beq_iff_eq]
    exact fun h => hq l hlm h.1
  simp only [Mach.hasShepherd, Mach.shepherdOf, h1, h2]
  rfl

theorem Mach.relaunch_one {m : Mach} {d entry : Nat} {arg : DWord} {o : Object} {k : Kernel} (hk : m.kernelAt 1 entry = some (o, k)) :
    m.relaunch [(d, entry, arg)] = m.launchShepherds [d] o k arg := by
  simp only [Mach.relaunch, List.foldl_cons, List.foldl_nil, hk]

/-- A wake that starts the one lost shepherd again (19 R270). -/
theorem Mach.waked_shepherd {m : Mach} {d entry : Nat} {arg : DWord} {o : Object} {k : Kernel} (hs : m.services = true)
    (hl : m.lostDies = [(d, entry, arg)]) (hk : m.kernelAt 1 entry = some (o, k)) (ht : ∀ t ∈ m.teams, t.shepherd = true → dieOf t.core ≠ d)
    (hq : ∀ l ∈ m.launches, l.shepherd ≠ some d) : m.waked false = { m with
      diesOff := [], uid := m.uid + 1, lostDies := [], launches := m.launches ++ [shepherdLaunch m.uid d o k arg] } := by
  have hfilter : m.lostDies.filter (fun x => x.1 != d) = [] := by rw [hl]; simp
  rw [Mach.waked, if_pos hs, hl, Mach.relaunch_one (show (m.allOn false).kernelAt 1 entry = some (o, k) from hk),
    Mach.launchShepherds_cons (m := m.allOn false) rfl (Mach.hasShepherd_false (m := m.allOn false) ht hq)]
  change { m.allOn false with
    uid := m.uid + 1, launches := m.launches ++ [shepherdLaunch m.uid d o k arg], lostDies := m.lostDies.filter fun x => x.1 != d } = _
  rw [hfilter]
  rfl

/-- No team occupies a core. -/
def Mach.Idle (m : Mach) : Prop := ∀ t ∈ m.teams, t.status ≠ .running ∧ t.status ≠ .stopping ∧ t.status ≠ .retired

theorem Team.occupies_iff (t : Team) : t.occupies = true ↔ t.status = .running ∨ t.status = .stopping ∨ t.status = .retired := by
  unfold Team.occupies
  cases t.status <;> simp

theorem Mach.idle_iff (m : Mach) : m.Idle ↔ (m.teams.all fun t => !t.occupies) = true := by
  rw [List.all_eq_true]
  refine forall₂_congr fun t _ => ?_
  rw [Bool.not_eq_true', ← Bool.not_eq_true, Team.occupies_iff]
  simp only [not_or]

theorem Mach.mayEnter_idle {m : Mach} (h : m.Idle) (ds : List Nat) : m.mayEnter .idle ds = true := m.idle_iff.1 h

theorem Mach.mayEnter_dieOff {m : Mach} (h : m.Idle) (ds : List Nat) : m.mayEnter .dieOff ds = true := by
  refine List.all_eq_true.2 fun t ht => ?_
  have hn := List.all_eq_true.1 (m.idle_iff.1 h) t ht
  rw [Bool.not_eq_true'] at hn
  rw [hn]
  rfl

theorem Mach.mayEnter_pkgSleep {m : Mach} (h : m.Idle) (hc : m.cmds = []) (ds : List Nat) : m.mayEnter .pkgSleep ds = true := by
  unfold Mach.mayEnter
  dsimp only
  rw [m.idle_iff.1 h, hc]
  rfl

theorem State.enterPower_idle {s : State} (h : s.sys.power ≠ .pkgSleep) (hd : s.m.diesOff = []) (ds : List Nat) :
    s.enterPower .idle ds = s.endRequest 0 s.m .idle := by
  unfold State.enterPower
  rw [if_neg (by simp [h])]
  dsimp only
  rw [hd]
  rfl

/-- The machine of whose dies some go off while no shepherd is there. -/
def Mach.darkened (m : Mach) (dies : List Nat) : Mach := { m.coresOff dies with
  diesOff := m.diesOff ++ dies.filter fun d => !m.diesOff.contains d }

theorem noShepherds {ts : List Team} (ht : ∀ t ∈ ts, t.shepherd = false) (q : Team → Bool) :
    (ts.filter fun t => t.shepherd && q t) = [] := by
  refine List.filter_eq_nil_iff.2 fun t htm => ?_
  rw [ht t htm]
  exact Bool.false_ne_true

theorem Mach.endShepherds_none {m : Mach} (ht : ∀ t ∈ m.teams, t.shepherd = false) : ∃ v, m.endShepherds = { m with svcoff := v } := by
  have hno : (m.teams.filter fun t => t.shepherd) = [] := by simpa using noShepherds ht fun _ => true
  unfold Mach.endShepherds
  split
  · exact ⟨_, rfl⟩
  · rw [hno]
    exact ⟨_, rfl⟩

theorem Mach.failBatches_none {m : Mach} (hb : m.batches = []) (d : Nat) : m.failBatches d = m := by
  rw [Mach.failBatches, hb]
  cases m
  cases hb
  rfl

theorem Mach.shepherdKilled_none {m : Mach} (hb : m.batches = []) (ht : ∀ t ∈ m.teams, t.shepherd = false) (d : Nat) :
    ∃ v, m.shepherdKilled d = { m with svcoff := v } := by
  unfold Mach.shepherdKilled
  rw [Mach.failBatches_none hb, ite_self]
  dsimp only
  rw [show (m.batches.filter fun b => b.die == d && b.failed) = [] by rw [hb]; rfl]
  exact Mach.endShepherds_none ht

/-- A die without a shepherd loses none: no thread, no byte and no team changes. -/
theorem Mach.loseShepherd_none {m : Mach} {d : Nat} (hb : m.batches = []) (hl : m.launches = []) (ht : ∀ t ∈ m.teams, t.shepherd = false) :
    ∃ cmds tileq v, m.loseShepherd d = { m with cmds := cmds, tileq := tileq, svcoff := v, launches := [] } := by
  have hus : (m.teams.filter fun t => t.shepherd && dieOf t.core == d && t.status != .gone) = [] := by
    have := noShepherds ht fun t => dieOf t.core == d && t.status != .gone
    simpa only [Bool.and_assoc] using this
  have hof : m.shepherdOf d = none := by
    have := Mach.hasShepherd_false (m := m) (d := d) (fun t htm h => absurd h (by rw [ht t htm]; exact Bool.false_ne_true))
      (by rw [hl]; exact fun _ h => absurd h List.not_mem_nil)
    rwa [Mach.hasShepherd, Option.isSome_eq_false_iff, Option.isNone_iff_eq_none] at this
  obtain ⟨v, hv⟩ := Mach.shepherdKilled_none (m := { m with
    cmds := m.cmds.filter fun c => !([] : List Nat).contains c.team, tileq := m.tileq.filter fun q => !([] : List Nat).contains q.team
    launches := [] }) hb ht d
  refine ⟨_, _, v, Eq.trans ?_ hv⟩
  unfold Mach.loseShepherd
  rw [hus, hof, hl]
  rfl

/-- With no L1 line, turning cores off leaves memory and the teams, and sends the partials of those cores home (20 R290). -/
theorem Mach.coresOff_bare {m : Mach} (h : m.l1 = []) (dies : List Nat) : (m.coresOff dies).mem = m.mem ∧ (m.coresOff dies).teams = m.teams ∧
    (m.coresOff dies).linemeta = m.linemeta ∧
    (m.coresOff dies).partials = m.partials.map fun (p : Partial) => if dies.contains (dieOf p.core) then { p with home := true } else p := by
  unfold Mach.coresOff
  dsimp only
  rw [h]
  exact ⟨rfl, rfl, rfl, rfl⟩

theorem Mach.slicesOff_bare {m : Mach} (h : m.linemeta = []) : m.slicesOff.mem = m.mem ∧ m.slicesOff.teams = m.teams ∧
    m.slicesOff.mirrors = [] ∧ m.slicesOff.tlb = [] := by
  unfold Mach.slicesOff
  rw [h]
  exact ⟨rfl, rfl, rfl, rfl⟩

/-- The die that cores below 32 stand on is die 0. -/
theorem sentHome {ps : List Partial} {p : Partial} (hcore : p.core < 32)
    (hp : p ∈ ps.map fun (p : Partial) => if [0].contains (dieOf p.core) then { p with home := true } else p) : p.home = true := by
  obtain ⟨q, -, rfl⟩ := List.mem_map.1 hp
  split at hcore
  · rename_i hdie
    rw [if_pos hdie]
  · rename_i hdie
    exact absurd (List.contains_iff_mem.2 (List.mem_singleton.2 (Nat.div_eq_of_lt hcore))) hdie

/-- What the entry into DIE-OFF of die 0 leaves. -/
theorem State.enterPower_dieOff {s : State} (hp : s.sys.power ≠ .pkgSleep) (hl1 : s.m.l1 = []) (hb : s.m.batches = []) (hl : s.m.launches = [])
    (ht : ∀ t ∈ s.m.teams, t.shepherd = false) : ∃ m, s.enterPower .dieOff [0] = s.endRequest 0 m .dieOff ∧
      m.mem = s.m.mem ∧ m.teams = s.m.teams ∧ m.diesOff = s.m.diesOff ++ (if 0 ∈ s.m.diesOff then [] else [0]) ∧
      ∀ p ∈ m.partials, p.core < 32 → p.home = true := by
  obtain ⟨cmds, tileq, v, hlose⟩ := Mach.loseShepherd_none (d := 0) hb hl ht
  have hdark : ([0] : List Nat).filter (fun d => !s.m.diesOff.contains d) = if 0 ∈ s.m.diesOff then [] else [0] := by
    by_cases h0 : 0 ∈ s.m.diesOff <;> simp [h0]
  have henter : s.enterPower .dieOff [0] = s.endRequest 0 (Mach.enableServices { (s.m.loseShepherd 0).coresOff [0] with
      diesOff := s.m.diesOff ++ [0].filter fun d => !s.m.diesOff.contains d } s.sys.shepherd.isSome) .dieOff := by
    unfold State.enterPower
    rw [if_neg (by simp [hp])]
    rfl
  obtain ⟨hmem, hteams, -, hpartials⟩ := Mach.coresOff_bare (m := s.m.loseShepherd 0) (by rw [hlose]; exact hl1) [0]
  rw [hdark] at henter
  refine ⟨_, henter, hmem.trans (by rw [hlose]), hteams.trans (by rw [hlose]), rfl, fun p hp hcore => sentHome hcore (hpartials ▸ hp)⟩

/-- What the entry into PKG-SLEEP leaves. -/
theorem State.enterPower_pkgSleep {s : State} (hl1 : s.m.l1 = []) (hlm : s.m.linemeta = []) (ds : List Nat) : ∃ m,
    s.enterPower .pkgSleep ds = s.endRequest 0 m .pkgSleep ∧ m.mem = s.m.mem ∧ m.teams = s.m.teams ∧ m.diesOff = [0, 1, 2, 3] ∧
      m.mirrors = [] ∧ m.tlb = [] := by
  obtain ⟨hmem, hteams, hmeta, -⟩ := Mach.coresOff_bare hl1 [0, 1, 2, 3]
  obtain ⟨hmem', hteams', hmirrors, htlb⟩ := Mach.slicesOff_bare (m := s.m.coresOff [0, 1, 2, 3]) (hmeta.trans hlm)
  have henter : s.enterPower .pkgSleep ds = s.endRequest 0 { (s.m.coresOff [0, 1, 2, 3]).slicesOff with diesOff := [0, 1, 2, 3] } .pkgSleep := by
    unfold State.enterPower
    rw [if_neg (by simp)]
    rfl
  exact ⟨_, henter, hmem'.trans hmem, hteams'.trans hteams, rfl, hmirrors, htlb⟩

/-! ### Starting (20 R292-R294) -/

theorem startReason_eq (f : Fuses) (r : StartReport) : startReason f r = if r.formatOk = false then 3 else if r.svn < f.fwsvnCount then 2
    else if ¬ (keyDigest r.key = f.rootHash ∧ sigValid r.key r.image r.sig = true) then 1
    else if 4 ≤ r.check ∧ r.check ≤ 7 then r.check else 0 := by
  simp only [startReason, imageSigned, Bool.not_eq_true', Bool.and_eq_false_iff, Bool.and_eq_true, decide_eq_true_eq, beq_eq_false_iff_ne,
    not_and_or, Bool.not_eq_true, ne_eq]

theorem loader_iff (minimal : Bool) (n : Nat) : (minimal && decide (1 ≤ n) && decide (n ≤ 3)) = true ↔ minimal = true ∧ 1 ≤ n ∧ n ≤ 3 := by
  simp only [Bool.and_eq_true, decide_eq_true_eq, and_assoc]

theorem State.powerOn_loader {s : State} {r : StartReport} {minimal : Bool} (hm : (s.sys.boot.fails == 3 && !s.sys.boot.full) = minimal)
    (h : minimal = true ∧ 1 ≤ s.sys.boot.reason ∧ s.sys.boot.reason ≤ 3) : s.powerOn r = { s with
      m := s.m.bare
      sys := { s.sys.atStart with boot := { s.sys.boot with full := false, minimal := true, stage := 1, fwsvn := 0 } } } := by
  subst hm
  exact if_pos ((loader_iff _ _).2 h)

theorem State.powerOn_fails {s : State} {r : StartReport} {minimal : Bool} (hm : (s.sys.boot.fails == 3 && !s.sys.boot.full) = minimal)
    (h : ¬ (minimal = true ∧ 1 ≤ s.sys.boot.reason ∧ s.sys.boot.reason ≤ 3)) (hwhy : startReason s.sys.fuses r ≠ 0) :
    s.powerOn r = { s with
      m := s.m.bare
      sys := { s.sys.atStart with boot := {
        full := false, reason := startReason s.sys.fuses r, fails := min 3 (s.sys.boot.fails + 1), minimal := minimal, fwsvn := 0
        stage := stageOf (startReason s.sys.fuses r) } } } := by
  subst hm
  exact (if_neg (mt (loader_iff _ _).1 h)).trans (if_pos (bne_iff_ne.2 hwhy))

theorem State.powerOn_starts {s : State} {r : StartReport} {minimal : Bool} (hm : (s.sys.boot.fails == 3 && !s.sys.boot.full) = minimal)
    (h : ¬ (minimal = true ∧ 1 ≤ s.sys.boot.reason ∧ s.sys.boot.reason ≤ 3)) (hwhy : startReason s.sys.fuses r = 0) :
    s.powerOn r = { s with
      m := s.m.started minimal r
      sys := { s.sys.atStart with
        image := r.image, startClk := some 0, power := if minimal then .dieOff else .idle
        boot := { s.sys.boot with full := false, minimal := minimal, fwsvn := r.svn % 256, stage := 5 } } } := by
  subst hm
  exact (if_neg (mt (loader_iff _ _).1 h)).trans (if_neg (by
    rw [show startReason s.sys.atStart.fuses r = 0 from hwhy]
    exact Bool.false_ne_true))

/-- The machine of a start before its firmware has written the memory description. -/
def Mach.starting (m : Mach) (minimal : Bool) (r : StartReport) : Mach := { m.bare with
  module := if r.modules ≤ 1 then 0 else r.module, modules := max r.modules 1, droveway := !minimal
  ports := if minimal then List.replicate 4 .off else r.ports
  timeBase := if r.modules ≤ 1 then 0 else r.time
  stackBase := if minimal then Mach.reset.stackBase.take 3 else Mach.reset.stackBase
  diesOff := if minimal then [1, 2, 3] else [] }

theorem Mach.started_eq (m : Mach) (minimal : Bool) (r : StartReport) : m.started minimal r = { m.starting minimal r with
    mem := Memory.write [] Mach.reset.fwBase (m.starting minimal r).description, memTable := some Mach.reset.fwBase
    fwBase := (m.started minimal r).fwBase } := rfl

theorem Mach.starting_stackBase (m : Mach) (minimal : Bool) (r : StartReport) : (∀ b ∈ (m.starting minimal r).stackBase, b < 2 ^ 64) ∧
    (m.starting minimal r).stackBase.length = if minimal then 3 else 12 := by
  cases minimal
  · exact ⟨by change ∀ b ∈ Mach.reset.stackBase, b < 2 ^ 64; decide, rfl⟩
  · exact ⟨by change ∀ b ∈ Mach.reset.stackBase.take 3, b < 2 ^ 64; decide, rfl⟩

theorem State.powerOn_keeps (s : State) (r : StartReport) : (s.powerOn r).sys.fuses = s.sys.fuses ∧ (s.powerOn r).sys.debug = .none ∧
    (s.powerOn r).sys.security = (if s.sys.fuses.sealBit then .sealed else .openState) ∧ (s.powerOn r).m.teams = [] ∧
    (s.powerOn r).sys.started = false ∧ (s.powerOn r).sys.boot.minimal = (s.sys.boot.fails == 3 && !s.sys.boot.full) := by
  by_cases h : (s.sys.boot.fails == 3 && !s.sys.boot.full) = true ∧ 1 ≤ s.sys.boot.reason ∧ s.sys.boot.reason ≤ 3
  · rw [State.powerOn_loader rfl h]
    exact ⟨rfl, rfl, rfl, rfl, rfl, h.1.symm⟩
  · by_cases hwhy : startReason s.sys.fuses r = 0
    · rw [State.powerOn_starts rfl h hwhy]
      exact ⟨rfl, rfl, rfl, rfl, rfl, rfl⟩
    · rw [State.powerOn_fails rfl h hwhy]
      exact ⟨rfl, rfl, rfl, rfl, rfl, rfl⟩

theorem Sys.bootStatus_fields {y : Sys} (hr : y.boot.reason < 256) (hf : y.boot.fails < 4) (hv : y.boot.fwsvn < 256) (hs : y.boot.stage < 256) :
    y.bootStatus.toNat / 2 ^ 24 = y.boot.reason ∧ y.bootStatus.toNat / 2 ^ 22 % 4 = y.boot.fails ∧
      y.bootStatus.toNat / 2 ^ 21 % 2 = y.boot.minimal.toNat ∧
      y.bootStatus.toNat / 2 ^ 19 % 4 = (match y.security with | .openState => 0 | .sealed => 1 | .attested => 2) ∧
      y.bootStatus.toNat / 2 ^ 8 % 256 = y.boot.fwsvn ∧ y.bootStatus.toNat % 256 = y.boot.stage := by
  have hm : y.boot.minimal.toNat ≤ 1 := Bool.toNat_le _
  unfold Sys.bootStatus
  rw [BitVec.toNat_ofNat]
  cases y.security <;> dsimp only <;> omega

/-! ### Requests (20 R291) -/

section
variable {s : State} {st : PowerState} {ds : List Nat} {w : Nat} {r : PowerReq}

theorem powerRequest_denied (hn : s.sys.powerReq = none) (hp : permits s.sys.security s.sys.debug = false) : powerRequest st ds w s = reply 2 s := by
  unfold powerRequest
  rw [hn, hp]
  exact if_pos (Bool.or_true _)

theorem powerRequest_fresh (hn : s.sys.powerReq = none) (hw : powerWellFormed st ds = true) (hp : permits s.sys.security s.sys.debug = true) :
    powerRequest st ds w s = if s.m.mayEnter st ds then .next (s.enterPower st ds) else .next { s with
      m := { s.m with noPlace := requestDies st ds, noAccept := st == .pkgSleep }
      sys := { s.sys with powerAns := none, powerReq := some {
        state := st, dies := ds, deadline := s.m.clk + Config.usCycles (min w 1000000) } } } := by
  unfold powerRequest
  rw [hn, hw, hp]
  rfl

theorem powerRequest_busy (hr : s.sys.powerReq = some r) (h : r.state ≠ st ∨ r.dies ≠ ds) : powerRequest st ds w s = reply 1 s := by
  unfold powerRequest
  rw [hr]
  refine if_neg ?_
  simp only [Bool.and_eq_true, beq_iff_eq]
  exact fun hb => h.elim (fun h1 => h1 hb.1) fun h2 => h2 hb.2

theorem powerRequest_again (hr : s.sys.powerReq = some r) (hst : r.state = st) (hds : r.dies = ds) :
    powerRequest st ds w s = .next (s.settleRequest r) := by
  unfold powerRequest
  rw [hr]
  exact if_pos (by rw [hst, hds]; simp)

theorem State.settleRequest_late (h : r.deadline ≤ s.m.clk) : s.settleRequest r = s.endRequest 1 s.m s.sys.power := if_pos h

theorem State.settleRequest_enters (h : s.m.clk < r.deadline) (hm : s.m.mayEnter r.state r.dies = true) :
    s.settleRequest r = s.enterPower r.state r.dies := (if_neg (Nat.not_le.2 h)).trans (if_pos hm)

end

/-- What a request of a power state that no other waits before comes to at once, or that it waits. -/
theorem powerRequest_first {s : State} {ds : List Nat} {w : Nat} (st : PowerState) (hn : s.sys.powerReq = none) (hp : s.sys.power ≠ .pkgSleep)
    (hok : permits s.sys.security s.sys.debug = true) :
    (st = .idle → s.m.Idle → s.m.diesOff = [] → powerRequest st ds w s = .next (s.endRequest 0 s.m .idle)) ∧
    (st = .dieOff → ds = [0] → s.m.Idle → s.m.l1 = [] → s.m.batches = [] → s.m.launches = [] → s.sys.shepherd = none →
      (∀ t ∈ s.m.teams, t.shepherd = false) → ∃ m, powerRequest st ds w s = .next (s.endRequest 0 m .dieOff) ∧
        m.mem = s.m.mem ∧ m.teams = s.m.teams ∧ m.diesOff = s.m.diesOff ++ (if 0 ∈ s.m.diesOff then [] else [0]) ∧
        (∀ p ∈ m.partials, p.core < 32 → p.home = true)) ∧
    (st = .pkgSleep → s.m.Idle → s.m.cmds = [] → s.m.l1 = [] → s.m.linemeta = [] → ∃ m,
      powerRequest st ds w s = .next (s.endRequest 0 m .pkgSleep) ∧ m.mem = s.m.mem ∧ m.teams = s.m.teams ∧
        m.diesOff = [0, 1, 2, 3] ∧ m.mirrors = [] ∧ m.tlb = []) ∧
    (st = .idle → ¬ s.m.Idle → powerRequest st ds w s = .next { s with
      m := { s.m with noPlace := [0, 1, 2, 3], noAccept := false }
      sys := { s.sys with powerAns := none, powerReq := some {
        state := .idle, dies := ds, deadline := s.m.clk + 1750 * min w 1000000 } } }) := by
  refine ⟨?_, ?_, ?_, ?_⟩
  · rintro rfl hidle hoff
    rw [powerRequest_fresh hn rfl hok, if_pos (Mach.mayEnter_idle hidle ds), State.enterPower_idle hp hoff]
  · rintro rfl rfl hidle hl1 hb hl - ht
    obtain ⟨m, he, hrest⟩ := State.enterPower_dieOff hp hl1 hb hl ht
    rw [powerRequest_fresh hn rfl hok, if_pos (Mach.mayEnter_dieOff hidle _), he]
    exact ⟨m, rfl, hrest⟩
  · rintro rfl hidle hc hl1 hlm
    obtain ⟨m, he, hrest⟩ := State.enterPower_pkgSleep hl1 hlm ds
    rw [powerRequest_fresh hn rfl hok, if_pos (Mach.mayEnter_pkgSleep hidle hc _), he]
    exact ⟨m, rfl, hrest⟩
  · rintro rfl hbusy
    have hno : ¬ s.m.mayEnter .idle ds = true := mt s.m.idle_iff.2 hbusy
    rw [powerRequest_fresh hn rfl hok, if_neg hno, Config.usCycles, Nat.mul_comm]
    rfl

theorem State.startExpired_early {s : State} {c : Nat} (hc : s.sys.startClk = some c) (h : s.m.clk < c + 17500000000) : s.startExpired = s := by
  unfold State.startExpired
  rw [hc]
  exact if_pos h

/-- The state that a start leaves whose time has passed. -/
def State.expired (s : State) : State := { s with
  m := s.m.bare
  sys := { s.sys with startClk := none, boot := { s.sys.boot with reason := 8, fails := min 3 (s.sys.boot.fails + 1) } } }

theorem State.startExpired_late {s : State} {c : Nat} (hc : s.sys.startClk = some c) (h : c + 17500000000 ≤ s.m.clk) : s.startExpired = s.expired := by
  unfold State.startExpired
  rw [hc]
  exact if_neg (Nat.not_lt.2 h)

theorem startComplete_early {s : State} {c : Nat} (hc : s.sys.startClk = some c) (h : s.m.clk < c + 17500000000) :
    exec .startComplete s = .next { s with sys := { s.sys with
      started := true, startClk := none, boot := { s.sys.boot with fails := 0 } } } := by
  change execStartComplete s = _
  unfold execStartComplete
  rw [State.startExpired_early hc h]
  dsimp only
  rw [hc]

theorem startComplete_late {s : State} {c : Nat} (hc : s.sys.startClk = some c) (h : c + 17500000000 ≤ s.m.clk) :
    exec .startComplete s = .next s.expired := by
  change execStartComplete s = _
  unfold execStartComplete
  rw [State.startExpired_late hc h]
  rfl

theorem managed_wakes {s : State} (h : s.sys.power ≠ .pkgSleep ∨ s.sys.boot.minimal = false ∧ (s.m.services = false ∨ s.m.lostDies = []))
    (k : State → Host.Outcome State Fault Refusal) : managed k s = k (if s.sys.power = .pkgSleep then s.woken else s) := by
  by_cases hp : s.sys.power = .pkgSleep
  · obtain ⟨hmin, hlost⟩ := h.resolve_left fun hne => hne hp
    rw [managed_asleep hp, if_pos hp, State.wake_woken hmin hlost]
  · rw [managed_awake hp, if_neg hp]

/-- A successful start: its time runs, and its firmware has described memory. -/
theorem State.powerOn_success {s : State} {r : StartReport} {minimal : Bool} (hm : (s.sys.boot.fails == 3 && !s.sys.boot.full) = minimal)
    (h : ¬ (minimal = true ∧ 1 ≤ s.sys.boot.reason ∧ s.sys.boot.reason ≤ 3)) (hwhy : startReason s.sys.fuses r = 0) :
    ∃ a k, (s.powerOn r).m.memTable = some a ∧
      (∀ n < (if minimal then 3 else 12), (s.powerOn r).m.mem.EntryAt (a + 32 * n) (1, n, (s.powerOn r).m.stackBase.getD n 0, 96 * 2 ^ 30)) ∧
      (∀ p c, p < 4 → (s.powerOn r).m.ports.getD p .off = .cxl c → ∃ j < k,
        (s.powerOn r).m.mem.EntryAt (a + 32 * j) (2, p, 2 ^ 54 + p * 2 ^ 44, min c (2 ^ 44)) ∧
        (s.powerOn r).m.mem.EntryAt (a + 32 * (j + 1)) (3, p, shadowBase p c, min c (2 ^ 44) / 64)) ∧
      (s.powerOn r).m.mem.EntryAt (a + 32 * k) (0, 0, 0, 0) := by
  obtain ⟨hfit, hlen⟩ := s.m.starting_stackBase minimal r
  obtain ⟨k, hstacks, hpools, hend⟩ := Mach.described (m := s.m.starting minimal r) (mem := []) rfl hfit (by rw [hlen]; split <;> decide) Mach.reset.fwBase
  rw [State.powerOn_starts hm h hwhy]
  rw [hlen] at hstacks
  exact ⟨Mach.reset.fwBase, k, rfl, hstacks, hpools, hend⟩

theorem wakeToRun_asleep {s : State} (h : s.sys.power ≠ .run) : wakeToRun s = .next s.wake := congrArg _ (if_neg (mt beq_iff_eq.1 h))

/-- Settles O55, clause by clause: requests by their conditions, a start by what it finds. -/
theorem powerAndStart : Obligations.PowerAndStart := by
  unfold Obligations.PowerAndStart
  intro s replies idle ended live woken wakes
  refine ⟨fun hsil st ds w f => ?_, fun st ds w hlive => ⟨fun hn hp => ?_, fun hn hp hok => ?_, fun r hr => ⟨fun hne => ?_,
      fun hst hds => ⟨fun hlate => ?_, fun hlt hidle hteams hoff hp => ?_⟩⟩⟩,
    fun r hr => ⟨fun h => ?_, fun h => ?_⟩, fun h => ?_, fun hlive hrun hw => ?_,
    fun d entry arg o k hlive hpow hmin hserv hlost _ hk ht hq => ?_, fun w hlive hw => ⟨fun hlo hhi => ?_, fun hout => ?_⟩, fun hw => ?_,
    fun _ => rfl, ⟨_, rfl, rfl, rfl, rfl, rfl, rfl, rfl, rfl, rfl⟩, fun r => ?_, fun h1 h2 h3 h4 => Sys.bootStatus_fields h1 h2 h3 h4,
    fun c hc => ⟨fun h => ?_, fun h => ⟨s.expired, ?_, rfl, rfl, rfl, rfl⟩, startComplete_early hc⟩, ?_⟩
  · simp only [List.forall_mem_cons]
    exact ⟨call_silent hsil _, call_silent hsil _, call_silent hsil _, if_pos hsil, fun _ h => absurd h List.not_mem_nil⟩
  · exact (call_live hlive _).trans (powerRequest_denied hn hp)
  · rw [show exec (.powerStateRequest st ds w) s = powerRequest st ds w s from call_live hlive _]
    exact powerRequest_first st hn hp hok
  · exact (call_live hlive _).trans (powerRequest_busy hr hne)
  · exact (call_live hlive _).trans ((powerRequest_again hr hst hds).trans (congrArg _ (State.settleRequest_late hlate)))
  · refine (call_live hlive _).trans ((powerRequest_again hr hst hds).trans (congrArg _ ?_))
    rw [State.settleRequest_enters hlt (by rw [hst, hidle]; exact Mach.mayEnter_idle hteams _), hst, hidle, State.enterPower_idle hp hoff]
    rfl
  · change execPowerRequestTimeout s = _
    unfold execPowerRequestTimeout
    rw [hr]
    exact congrArg _ (if_neg (Nat.not_le.2 h))
  · change execPowerRequestTimeout s = _
    unfold execPowerRequestTimeout
    rw [hr]
    exact congrArg _ ((if_pos h).trans (State.settleRequest_late h))
  · change call wakeToRun s = _
    unfold call wakeToRun
    rw [if_pos (beq_iff_eq.2 h), ite_self]
  · refine (call_live hlive _).trans ((wakeToRun_asleep hrun).trans ?_)
    rw [State.wake_woken hw.1 hw.2]
    rfl
  · refine (call_live hlive _).trans ((wakeToRun_asleep (by rw [hpow]; decide)).trans ?_)
    rw [State.wake_waked, hmin, Mach.waked_shepherd hserv hlost hk ht hq]
    rfl
  · refine (call_live hlive _).trans ((managed_wakes hw _).trans (if_pos ?_))
    simp [hlo, hhi]
  · refine (call_live hlive _).trans ((managed_wakes hw _).trans (if_neg ?_))
    simp only [Bool.and_eq_true, decide_eq_true_eq]
    omega
  · intro s'
    change execClearFails s = _
    rw [execClearFails, managed_wakes hw]
    change Host.Outcome.next { s' with sys := { s'.sys with boot := { s'.sys.boot with fails := 0 } } } = _
    rw [show s'.sys.boot = s.sys.boot by by_cases hp : s.sys.power = .pkgSleep <;> simp [s', woken, hp]]
  · obtain ⟨hfuses, hdebug, hsec, hteams, hstarted, hminimal⟩ := s.powerOn_keeps r
    refine ⟨s.powerOn r, rfl, hfuses, hdebug, hsec, hteams, hstarted, ?_⟩
    intro b minimal why loader
    have hwhy : startReason s.sys.fuses r = why := startReason_eq _ _
    refine ⟨hminimal, fun h => ?_, fun h hne => ?_, fun h h0 => ?_⟩
    · rw [State.powerOn_loader rfl h]
      exact ⟨rfl, rfl, rfl, rfl⟩
    · rw [State.powerOn_fails rfl h (hwhy ▸ hne), hwhy]
      exact ⟨rfl, rfl, rfl, rfl⟩
    · have hstart := State.powerOn_starts (s := s) (r := r) rfl h (hwhy.trans h0)
      obtain ⟨a, k, hdesc⟩ := State.powerOn_success (s := s) (r := r) rfl h (hwhy.trans h0)
      exact ⟨by rw [hstart], by rw [hstart]; rfl, by rw [hstart], by rw [hstart], by rw [hstart], by rw [hstart], by rw [hstart]; rfl,
        by rw [hstart]; rfl, by rw [hstart]; rfl, by rw [hstart]; rfl, a, k, hdesc⟩
  · exact congrArg _ (State.startExpired_early hc h)
  · simp only [List.forall_mem_cons]
    exact ⟨congrArg _ (State.startExpired_late hc h), startComplete_late hc h, fun _ h => absurd h List.not_mem_nil⟩
  · change execRecoveryImageWrite s = _
    unfold execRecoveryImageWrite
    by_cases h : s.sys.boot.minimal = true ∧ 1 ≤ s.sys.boot.reason ∧ s.sys.boot.reason ≤ 3
    · rw [if_pos h]
      exact if_pos ((loader_iff _ _).2 h)
    · rw [if_neg h]
      exact if_neg (mt (loader_iff _ _).1 h)

end Sys2Proof.Machine
end

section
/-! SUPPORT. What the firmware's calls of shepherds and of SUBMIT do (19 R270, R387; 15 R222-R226). -/

namespace Sys2Proof.Machine

/-! ### SVCON and SVCOFF (19 R270) -/

theorem Mach.launchShepherds_next (m : Mach) {d : Nat} {o : Object} {k : Kernel} {arg : DWord} (ht : m.teams = []) (hd : m.diesOff = [])
    (hl : ∀ l ∈ m.launches, l.shepherd ≠ some d) (ds : List Nat) :
    m.launchShepherds (d :: ds) o k arg = (m.shepherded d o k arg).launchShepherds ds o k arg :=
  Mach.launchShepherds_cons hd (Mach.hasShepherd_false (by rw [ht]; exact fun _ h => absurd h List.not_mem_nil) hl) ds o k arg

/-- A machine of no team, no launch and no lost die launches a shepherd on every die. -/
theorem Mach.launchShepherds_all {m : Mach} (ht : m.teams = []) (hl : m.launches = []) (hd : m.diesOff = []) (hlost : m.lostDies = [])
    (o : Object) (k : Kernel) (arg : DWord) : m.launchShepherds [0, 1, 2, 3] o k arg = { m with
      uid := m.uid + 4, launches := [0, 1, 2, 3].map fun d => shepherdLaunch (m.uid + d) d o k arg } := by
  rw [Mach.launchShepherds_next m ht hd (by rw [hl]; exact fun _ h => absurd h List.not_mem_nil),
    Mach.launchShepherds_next (m.shepherded 0 o k arg) ht hd (by simp [Mach.shepherded, hl, shepherdLaunch]),
    Mach.launchShepherds_next ((m.shepherded 0 o k arg).shepherded 1 o k arg) ht hd (by simp [Mach.shepherded, hl, shepherdLaunch]),
    Mach.launchShepherds_next (((m.shepherded 0 o k arg).shepherded 1 o k arg).shepherded 2 o k arg) ht hd
      (by simp [Mach.shepherded, hl, shepherdLaunch])]
  simp only [Mach.shepherded, hl, hlost, List.filter_nil, List.nil_append]
  rfl

/-- The machine of SVCOFF before the shepherds end. -/
def Mach.unstaffed (m : Mach) : Mach := { m with
  services := false, svcoff := true, lostDies := []
  launches := m.launches.filter fun l => !(l.shepherd.isSome && decide (l.next < l.folds)) }

theorem exec_svcoff {s : State} (h : s.sys.silent = false) : exec .svcoff s = .next { s with
    m := s.m.unstaffed.endShepherds
    sys := { s.sys with shepherd := none, answer := if s.m.unstaffed.endShepherds.svcoff then 1 else 0 } } := call_live h _

theorem Mach.endShepherds_waits {m : Mach} (h : m.batches.any m.unserved = true) : m.endShepherds = m := by
  unfold Mach.endShepherds
  rw [h, Bool.or_true, Bool.true_or]
  rfl

/-- One shepherd ends: every group of it exits, and it retires. -/
def Mach.endShepherd (m : Mach) (t : Team) : Mach :=
  ((m.groups.filter fun g => g.team == t.uid).foldl (fun m g =>
    m.exitLanes t.uid g.index
      ((m.threads.filter fun x => x.ref.team == t.uid && x.group == g.index && x.wait != .exited).map (·.ref))) m).updTeam t.uid
    fun x => if x.status == .saved then { x with status := .retired } else x

theorem Mach.unstaffed_launches (m : Mach) : (m.unstaffed.launches.any fun l => l.shepherd.isSome && decide (l.next < l.folds)) = false := by
  refine List.any_eq_false.2 fun l hl => ?_
  have hleft := (List.mem_filter.1 hl).2
  rw [Bool.not_eq_true'] at hleft
  rw [hleft]
  exact Bool.false_ne_true

theorem Mach.unstaffed_ends {m : Mach} (h : m.batches.any m.unstaffed.unserved = false) : m.unstaffed.endShepherds =
    (m.teams.filter fun t => t.shepherd).foldl (fun m t => m.endShepherd t) { m.unstaffed with svcoff := false } := by
  have hb : m.unstaffed.batches.any m.unstaffed.unserved = false := h
  refine if_neg ?_
  rw [hb, m.unstaffed_launches]
  exact Bool.false_ne_true

/-- A batch that is held for a saved team. -/
def Mach.holds (m : Mach) (b : Batch) : Prop := b.calls = [] ∧ ∃ t, m.team? b.team = some t ∧ t.status = .saved

theorem Mach.isSaved_iff (m : Mach) (u : Nat) : m.isSaved u = true ↔ ∃ t, m.team? u = some t ∧ t.status = .saved := by
  unfold Mach.isSaved
  cases h : m.team? u with
  | none => simp
  | some t => simp

theorem Mach.unserved_iff (m : Mach) (b : Batch) : m.unserved b = true ↔ b.failed = false ∧ ¬ m.holds b := by
  have := m.isSaved_iff b.team
  simp only [Mach.unserved, Mach.holds, Bool.and_eq_true, Bool.not_eq_true', ← this, ← List.isEmpty_iff, ← Bool.not_eq_true]

/-! ### The exit of a lone shepherd (02 R34, R38-R40) -/

/-- A thread once a mask of its group is released. -/
def Thread.released (m : Mach) (u j n : Nat) (t : Thread) : Thread :=
  if t.ref.team == u && t.group == j && t.wait == Wait.held n then { t with wait := .ready, issued := m.clk } else t

def Group.masked (n : Nat) (e p : Word) (g : Group) : Group := { g with e := g.e.set n e, p := g.p.set n p }

def Group.cleared (n : Nat) (g : Group) : Group := { g with e := g.e.set n 0, p := g.p.set n 0 }

theorem Thread.released_exited {m : Mach} {u j n : Nat} {t : Thread} (h : t.wait = .exited) : t.released m u j n = t := by
  refine if_neg ?_
  rw [h]
  simp

/-- A machine of one team, one of its groups, and one thread of that, which has exited. -/
structure Mach.Ending (m0 : Mach) (t : Team) (i : Nat) (m : Mach) : Prop where
  mem      : m.mem = m0.mem
  services : m.services = m0.services
  svcoff   : m.svcoff = m0.svcoff
  teams    : m.teams = [t]
  threads  : ∃ x, m.threads = [x] ∧ x.wait = .exited ∧ x.helper = false
  groups   : ∃ g, m.groups = [g] ∧ g.team = t.uid ∧ g.index = i

section
variable {m0 m : Mach} {t : Team} {i : Nat}

theorem Mach.Ending.updGroup (h : m0.Ending t i m) (u j : Nat) (f : Group → Group) (hf : ∀ g, (f g).team = g.team ∧ (f g).index = g.index) :
    m0.Ending t i (m.updGroup u j f) := by
  obtain ⟨g, hg, hteam, hindex⟩ := h.groups
  refine ⟨h.mem, h.services, h.svcoff, h.teams, h.threads, if g.team == u && g.index == j then f g else g, ?_, ?_, ?_⟩
  · change m.groups.map _ = _
    rw [hg]
    rfl
  · split
    · exact (hf g).1.trans hteam
    · exact hteam
  · split
    · exact (hf g).2.trans hindex
    · exact hindex

theorem Mach.Ending.mapThreads (h : m0.Ending t i m) (f : Thread → Thread) (hf : ∀ x, x.wait = .exited → (f x).wait = .exited ∧ (f x).helper = x.helper) :
    m0.Ending t i { m with threads := m.threads.map f } := by
  obtain ⟨x, hx, hw, hh⟩ := h.threads
  exact ⟨h.mem, h.services, h.svcoff, h.teams, ⟨f x, by rw [hx]; rfl, (hf x hw).1, (hf x hw).2.trans hh⟩, h.groups⟩

theorem Mach.Ending.release (h : m0.Ending t i m) (u j n : Nat) : m0.Ending t i (m.releaseMask u j n) := by
  refine Mach.Ending.updGroup (m := { m with threads := m.threads.map (Thread.released m u j n) }) (h.mapThreads _ fun x hx => ?_) u j
    (Group.cleared n) fun _ => ⟨rfl, rfl⟩
  rw [Thread.released_exited hx]
  exact ⟨hx, rfl⟩

theorem Mach.Ending.strike (h : m0.Ending t i m) (u j n : Nat) (w : Word) : m0.Ending t i (m.strike u j n w) := by
  unfold Mach.strike
  split
  · exact h
  next g _ =>
    have hg := h.updGroup u j (Group.masked n (g.e.getD n 0 &&& ~~~w) (g.p.getD n 0 &&& ~~~w)) fun _ => ⟨rfl, rfl⟩
    dsimp only
    split
    · exact Mach.Ending.release hg u j n
    · exact hg

/-- The lone thread of a machine retires. -/
theorem Mach.retireThread_ending {x : Thread} {g : Group} (ht : m.teams = [t]) (hx : m.threads = [x]) (hh : x.helper = false)
    (hg : m.groups = [g]) (hteam : g.team = t.uid) (hindex : g.index = i) : m.Ending t i (m.retireThread x.ref) := by
  unfold Mach.retireThread
  refine List.foldlRecOn (motive := fun n => m.Ending t i n) _ _ ?_ fun n hn j _ => hn.strike _ _ _ _
  refine ⟨rfl, rfl, rfl, ht, ⟨{ x with wait := .exited }, ?_, rfl, hh⟩, g, hg, hteam, hindex⟩
  change m.threads.map _ = _
  rw [hx]
  simp

theorem Mach.Ending.idleHelpers (h : m0.Ending t i m) (u j : Nat) : m.idleHelpers u j = [] := by
  obtain ⟨x, hx, hw, hh⟩ := h.threads
  unfold Mach.idleHelpers
  rw [List.map_eq_nil_iff, List.filter_eq_nil_iff]
  intro y hy
  have hyx : y = x := by
    have := (List.mem_filter.1 hy).1
    rwa [hx, List.mem_singleton] at this
  rw [hyx, hh]
  exact Bool.false_ne_true

/-- A group whose lone thread has exited retires. -/
theorem Mach.Ending.retireGroup (h : m0.Ending t i m) : ∃ g, m0.Ending t i (m.retireGroup t.uid i) ∧ (m.retireGroup t.uid i).groups = [g] ∧
    g.retired = true := by
  obtain ⟨x, hx, hw, hh⟩ := h.threads
  obtain ⟨g, hg, hteam, hindex⟩ := h.groups
  have hno : (m.threads.any fun y => y.ref.team == t.uid && y.group == i && y.wait != .exited) = false := by
    rw [hx]
    simp [hw]
  have heq : m.retireGroup t.uid i = Mach.updGroup { m with threads := m.threads.map fun (y : Thread) =>
      if y.ref.team == t.uid && y.group == i then { y with latch := none } else y } t.uid i fun g => { g with
        retired := true, bundles := [], e := List.replicate 8 0, p := List.replicate 8 0 } := if_neg (by rw [hno]; exact Bool.false_ne_true)
  rw [heq]
  refine ⟨{ g with retired := true, bundles := [], e := List.replicate 8 0, p := List.replicate 8 0 },
    Mach.Ending.updGroup (h.mapThreads _ fun y hy => ?_) _ _ _ fun _ => ⟨rfl, rfl⟩, ?_, rfl⟩
  · split
    · exact ⟨hy, rfl⟩
    · exact ⟨hy, rfl⟩
  · change m.groups.map _ = _
    rw [hg, List.map_singleton, if_pos (by simp [hteam, hindex])]

/-- The exit of the lone thread of a lone group: the team retires. -/
theorem Mach.exitLanes_lone {x : Thread} {g : Group} (ht : m.teams = [t]) (hx : m.threads = [x])
    (hh : x.helper = false) (hg : m.groups = [g]) (hteam : g.team = t.uid) : ∃ n, m.exitLanes t.uid g.index [x.ref] =
      Mach.updTeam n t.uid (fun y => if y.status == .running then { y with status := .retired } else y) ∧ m.Ending t g.index n := by
  have hend := Mach.retireThread_ending ht hx hh hg hteam rfl
  obtain ⟨g', hn, hgs, hret⟩ := hend.retireGroup
  refine ⟨(m.retireThread x.ref).retireGroup t.uid g.index, ?_, hn⟩
  unfold Mach.exitLanes
  dsimp only [List.foldl_cons, List.foldl_nil]
  rw [hend.idleHelpers]
  dsimp only [List.foldl_nil]
  refine if_pos ?_
  rw [hgs]
  simp [hret]

/-- SVCOFF's end of a lone shepherd. -/
theorem Mach.endShepherd_lone {x : Thread} {g : Group} (ht : m.teams = [t]) (hrun : t.status = .running) (hx : m.threads = [x])
    (hteam' : x.ref.team = t.uid) (hgroup : x.group = g.index) (hwait : x.wait ≠ .exited) (hh : x.helper = false) (hg : m.groups = [g])
    (hteam : g.team = t.uid) : ∃ n, m.Ending t g.index n ∧
      m.endShepherd t = { n with teams := [{ t with status := .retired }] } := by
  obtain ⟨n, hexit, hn⟩ := Mach.exitLanes_lone ht hx hh hg hteam
  refine ⟨n, hn, ?_⟩
  have hgs : (m.groups.filter fun g => g.team == t.uid) = [g] := by
    rw [hg, List.filter_cons, if_pos (beq_iff_eq.2 hteam)]
    rfl
  have hxs : (m.threads.filter fun x => x.ref.team == t.uid && x.group == g.index && x.wait != .exited) = [x] := by
    rw [hx, List.filter_cons, if_pos (by simp [hteam', hgroup, hwait])]
    rfl
  unfold Mach.endShepherd
  rw [hgs]
  dsimp only [List.foldl_cons, List.foldl_nil]
  rw [hxs, List.map_singleton, hexit]
  simp only [Mach.updTeam, hn.teams, List.map_singleton, beq_self_eq_true, hrun, if_true]
  rfl

end

theorem svcoff_waits {s : State} (h : s.sys.silent = false) {b : Batch} (hb : b ∈ s.m.batches) (hf : b.failed = false) (hh : ¬ s.m.holds b) :
    exec .svcoff s = .next { s with m := s.m.unstaffed, sys := { s.sys with shepherd := none, answer := 1 } } := by
  have hany : s.m.unstaffed.batches.any s.m.unstaffed.unserved = true :=
    List.any_eq_true.2 ⟨b, hb, (Mach.unserved_iff _ _).2 ⟨hf, hh⟩⟩
  rw [exec_svcoff h, Mach.endShepherds_waits hany]
  rfl

theorem Mach.none_unserved {m : Mach} (h : ∀ b ∈ m.batches, b.failed = true ∨ m.holds b) : m.batches.any m.unstaffed.unserved = false := by
  refine List.any_eq_false.2 fun b hb hu => ?_
  obtain ⟨hf, hh⟩ := (Mach.unserved_iff _ _).1 hu
  rcases h b hb with h | h
  · rw [hf] at h
    exact absurd h Bool.false_ne_true
  · exact hh h

theorem svcoff_alone {s : State} (h : s.sys.silent = false) (hb : ∀ b ∈ s.m.batches, b.failed = true ∨ s.m.holds b)
    (ht : ∀ t ∈ s.m.teams, t.shepherd = false) : exec .svcoff s = .next { s with
      m := { s.m.unstaffed with svcoff := false }, sys := { s.sys with shepherd := none, answer := 0 } } := by
  have hno : (s.m.teams.filter fun t => t.shepherd) = [] := by simpa using noShepherds ht fun _ => true
  rw [exec_svcoff h, Mach.unstaffed_ends (Mach.none_unserved hb), hno]
  rfl

theorem svcoff_lone {s : State} {t : Team} {g : Group} {x : Thread} (h : s.sys.silent = false) (hb : s.m.batches = []) (ht : s.m.teams = [t])
    (hshep : t.shepherd = true) (hrun : t.status = .running) (hg : s.m.groups = [g]) (hteam : g.team = t.uid) (hx : s.m.threads = [x])
    (hxt : x.ref.team = t.uid) (hxg : x.group = g.index) (hw : x.wait ≠ .exited) (hh : x.helper = false) : ∃ m,
      exec .svcoff s = .next { s with m := m, sys := { s.sys with shepherd := none, answer := 0 } } ∧ m.mem = s.m.mem ∧
      m.services = false ∧ m.svcoff = false ∧ m.teams = [{ t with status := .retired }] ∧ ∀ y ∈ m.threads, y.wait = .exited := by
  obtain ⟨n, hn, hend⟩ := Mach.endShepherd_lone (m := { s.m.unstaffed with svcoff := false }) ht hrun hx hxt hxg hw hh hg hteam
  have hone : (s.m.teams.filter fun t => t.shepherd) = [t] := by
    rw [ht, List.filter_cons, if_pos hshep]
    rfl
  have hm : s.m.unstaffed.endShepherds = { n with teams := [{ t with status := .retired }] } := by
    rw [Mach.unstaffed_ends (Mach.none_unserved (by rw [hb]; exact fun _ h => absurd h List.not_mem_nil)), hone]
    exact hend
  obtain ⟨y, hy, hyw, -⟩ := hn.threads
  refine ⟨{ n with teams := [{ t with status := .retired }] }, ?_, hn.mem, hn.services, hn.svcoff, rfl, fun z hz => ?_⟩
  · rw [exec_svcoff h, hm, show n.svcoff = false from hn.svcoff]
    rfl
  · rw [show n.threads = [y] from hy] at hz
    rw [List.mem_singleton.1 hz]
    exact hyw

/-! ### Launch records (15 R222, R226) -/

theorem field_read (mem : Memory) (a : Nat) {N off n : Nat} (h : off + n ≤ N) : field (mem.read a N) off n = leNat (mem.read (a + off) n) := by
  unfold field
  rw [Memory.read_split mem a (k := off) (n := N) (by omega), List.drop_left' (Memory.read_length _ _),
    Memory.read_split mem (a + off) (k := n) (n := N - off) (by omega), List.take_left' (Memory.read_length _ _)]

theorem leNat_eq_zero (bs : List Byte) : (bs.all fun b => b == 0) = true ↔ leNat bs = 0 := by
  induction bs with
  | nil => simp [leNat]
  | cons b bs ih =>
    rw [List.all_cons, Bool.and_eq_true, ih, leNat, beq_iff_eq]
    have : b = 0 ↔ b.toNat = 0 := by
      constructor
      · rintro rfl
        rfl
      · exact fun h => BitVec.eq_of_toNat_eq h
    rw [this]
    omega

theorem stampOk_iff (a : Nat) : stampOk a = true ↔ a % 8 = 0 ∧ a < 2 ^ 57 := by
  simp only [stampOk, Bool.or_eq_true, Bool.and_eq_true, beq_iff_eq, decide_eq_true_eq]
  omega

theorem recordOk_iff (bs : List Byte) (l : Launch) (k : Kernel) : recordOk bs l k = true ↔
    1 ≤ l.folds ∧ l.folds ≤ 2 ^ 24 ∧ 1 ≤ l.threads ∧ l.threads ≤ 1024 ∧ 1 ≤ l.teams ∧ l.teams ≤ 16 ∧ l.regs % 8 = 0 ∧
      8 ≤ l.regs ∧ l.regs ≤ 128 ∧ l.regs = k.regs ∧ k.scr ≤ l.scr ∧ l.tiles ≤ 32 ∧ field bs 27 1 < 16 ∧
      (field bs 32 8 % 8 = 0 ∧ field bs 32 8 < 2 ^ 57) ∧ (field bs 48 8 % 8 = 0 ∧ field bs 48 8 < 2 ^ 57) ∧
      (field bs 64 8 % 8 = 0 ∧ field bs 64 8 < 2 ^ 57) ∧ field bs 80 48 = 0 := by
  simp only [recordOk, Bool.and_eq_true, decide_eq_true_eq, beq_iff_eq, leNat_eq_zero, stampOk_iff]
  unfold field
  constructor
  · rintro ⟨⟨⟨⟨⟨⟨⟨⟨⟨⟨⟨⟨⟨h1, h2⟩, h3, h4⟩, h5, h6⟩, h7, h8⟩, h9⟩, h10⟩, h11⟩, h12⟩, h13⟩, h14⟩, h15⟩, h16⟩, h17⟩
    exact ⟨h1, h2, h3, h4, h5, h6, h9, h7, h8, h10, h11, h12, h13, h15, h16, h17, h14⟩
  · rintro ⟨h1, h2, h3, h4, h5, h6, h9, h7, h8, h10, h11, h12, h13, h15, h16, h17, h14⟩
    exact ⟨⟨⟨⟨⟨⟨⟨⟨⟨⟨⟨⟨⟨h1, h2⟩, h3, h4⟩, h5, h6⟩, h7, h8⟩, h9⟩, h10⟩, h11⟩, h12⟩, h13⟩, h14⟩, h15⟩, h16⟩, h17⟩

/-! ### The stamps of a launch (15 R227) -/

theorem Mach.SameStaff.count {m n : Mach} (h : m.SameStaff n) : n.launches.length = m.launches.length := by
  simpa using congrArg List.length h.owners

theorem Mach.counts_sameStaff (m : Mach) (gs : List Nat) : m.SameStaff (m.countRounds gs) :=
  List.foldlRecOn (motive := fun n => m.SameStaff n) _ _ .same fun _ hn _ _ => hn.trans (Mach.sameStaff_of_eq rfl rfl rfl rfl)

theorem Mach.writeRecord_count (m : Mach) (ctx : Nat) (r : Record) : (m.writeRecord ctx r).launches.length = m.launches.length := by
  unfold Mach.writeRecord
  split
  · rfl
  next c _ =>
    dsimp only
    split
    · exact ((m.cohPrep_sameStaff _).trans (Mach.cohWrite1_sameStaff _ _ _)).count
    · exact ((((m.cohPrep_sameStaff _).trans (Mach.cohWrite1_sameStaff _ _ _)).trans (Mach.counts_sameStaff _ _)).trans
        (Mach.cohWrite1_sameStaff _ _ _)).count

theorem Mach.depPa_count (m : Mach) (ctx : Nat) (dep : Option (Nat × DWord)) : (m.depPa ctx dep).1.launches.length = m.launches.length := by
  unfold Mach.depPa
  split
  · rfl
  next a _ =>
    have hs := (m.stampLeaf_sameStaff ctx a false).count
    split
    next h => rw [h] at hs; exact hs
    next h =>
      rw [h] at hs
      exact (Mach.writeRecord_count _ _ _).trans hs

theorem Mach.recordAt_count (m : Mach) (p : Nat) : (m.recordAt p).1.launches.length = m.launches.length := by
  unfold Mach.recordAt
  split <;> rfl

theorem Mach.depMet_count (m : Mach) (dep : Option (Nat × DWord)) (pa : Option Nat) :
    (m.depMet dep pa).1.launches.length = m.launches.length := by
  unfold Mach.depMet
  split
  · rfl
  · rfl
  next p =>
    have hc := (m.cohPrep_sameStaff (lineOf p)).count
    split
    next h => exact (congrArg (fun x => x.1.launches.length) h).symm.trans hc
    next h => exact (congrArg (fun x => x.1.launches.length) h).symm.trans hc

theorem Mach.watchStamp_count (m : Mach) (dep : Option (Nat × DWord)) (pa : Option Nat) :
    (m.watchStamp dep pa).1.launches.length = m.launches.length := by
  unfold Mach.watchStamp
  split
  · rfl
  next p => exact (Mach.depMet_count _ _ _).trans (m.recordAt_count p)

/-- A launch that watches its first stamp. -/
def Launch.watching0 (l : Launch) (p : Option (Nat × Nat × Nat)) (r b : Bool) : Launch :=
  { l with dep0pa := p.map (·.1), page0 := p.map (·.2), rec0 := r, met0 := b || (l.met0 && l.dep0pa == p.map (·.1)) }

/-- A launch that watches its second stamp. -/
def Launch.watching1 (l : Launch) (p : Option (Nat × Nat × Nat)) (r b : Bool) : Launch :=
  { l with dep1pa := p.map (·.1), page1 := p.map (·.2), rec1 := r, met1 := b || (l.met1 && l.dep1pa == p.map (·.1)) }

/-- Both stamps of a launch are placed: no launch comes or goes, and the launch itself but notes where its stamps stand. -/
theorem Mach.placeStamps_all (m : Mach) (l : Launch) : ∃ p0 r0 b0 p1 r1 b1,
    (m.placeStamps l fun _ _ => true).2 = (l.watching0 p0 r0 b0).watching1 p1 r1 b1 ∧
    (m.placeStamps l fun _ _ => true).1.launches.length = m.launches.length := by
  unfold Mach.placeStamps
  exact ⟨_, _, _, _, _, _, rfl, ((((Mach.watchStamp_count _ _ _).trans (Mach.depPa_count _ _ _)).trans
    (Mach.watchStamp_count _ _ _)).trans (Mach.depPa_count _ _ _))⟩

theorem Mach.placeStamps_none {m : Mach} {l : Launch} (h0 : l.dep0 = none) (h1 : l.dep1 = none) :
    (m.placeStamps l fun _ _ => true).1 = m := by
  unfold Mach.placeStamps
  dsimp only
  rw [h0, h1]
  rfl

/-! ### SUBMIT (19 R387) -/

/-- A field of a launch record, or its default where it is 0. -/
def orElse (x d : Nat) : Nat := if x = 0 then d else x

section
variable {m : Mach} {bs : List Byte} {o : Object} {k : Kernel}

theorem submitAs_noCtx (issuer : Nat) (h0 : field bs 28 4 ≠ 0) (h : m.ctx? (field bs 28 4) = none) : m.submitAs true issuer bs = (m, 1) := by
  unfold Mach.submitAs
  dsimp only
  rw [if_neg (mt beq_iff_eq.1 h0), h]
  rfl

/-- SUBMIT's checks behind its context's. -/
theorem submitAs_ctx (issuer : Nat) (h0 : field bs 28 4 ≠ 0) (h : m.ctx? (field bs 28 4) ≠ none) : m.submitAs true issuer bs =
    match m.kernelAt (field bs 28 4) (field bs 0 8) with
    | none => (m, 2)
    | some (o, k) =>
      let l := launchOf bs (field bs 28 4) m.uid o k
      if !recordOk bs l k then (m, 3)
      else if 3145728 - 4096 * l.regs < 4096 * l.scr + 8192 then (m, 4)
      else if Config.queueDepth ≤ m.queueLen (field bs 28 4) l.prio then (m, 5)
      else ({ (m.fresh.2.placeStamps l fun _ _ => true).1 with
        launches := (m.fresh.2.placeStamps l fun _ _ => true).1.launches ++ [(m.fresh.2.placeStamps l fun _ _ => true).2] }, 0) := by
  unfold Mach.submitAs
  dsimp only
  rw [if_neg (mt beq_iff_eq.1 h0)]
  refine if_neg ?_
  rw [Option.isNone_iff_eq_none.not.2 h |> Bool.eq_false_iff.2]
  simp

theorem submitAs_noKernel (issuer : Nat) (h0 : field bs 28 4 ≠ 0) (h : m.ctx? (field bs 28 4) ≠ none)
    (hk : m.kernelAt (field bs 28 4) (field bs 0 8) = none) : m.submitAs true issuer bs = (m, 2) := by
  rw [submitAs_ctx issuer h0 h, hk]

theorem submitAs_kernel (issuer : Nat) (h0 : field bs 28 4 ≠ 0) (h : m.ctx? (field bs 28 4) ≠ none)
    (hk : m.kernelAt (field bs 28 4) (field bs 0 8) = some (o, k)) {l : Launch} (hl : l = launchOf bs (field bs 28 4) m.uid o k) :
    (recordOk bs l k = false → m.submitAs true issuer bs = (m, 3)) ∧
    (recordOk bs l k = true → ¬ 4096 * l.scr + 8192 ≤ 3145728 - 4096 * l.regs → m.submitAs true issuer bs = (m, 4)) ∧
    (recordOk bs l k = true → 4096 * l.scr + 8192 ≤ 3145728 - 4096 * l.regs → 1024 ≤ m.queueLen (field bs 28 4) l.prio →
      m.submitAs true issuer bs = (m, 5)) ∧
    (recordOk bs l k = true → 4096 * l.scr + 8192 ≤ 3145728 - 4096 * l.regs → m.queueLen (field bs 28 4) l.prio < 1024 →
      m.submitAs true issuer bs = ({ (m.fresh.2.placeStamps l fun _ _ => true).1 with
        launches := (m.fresh.2.placeStamps l fun _ _ => true).1.launches ++ [(m.fresh.2.placeStamps l fun _ _ => true).2] }, 0)) := by
  rw [submitAs_ctx issuer h0 h, hk]
  dsimp only
  rw [← hl]
  refine ⟨fun hok => ?_, fun hok hfit => ?_, fun hok hfit hq => ?_, fun hok hfit hq => ?_⟩
  · rw [hok]
    rfl
  · rw [hok]
    exact if_pos (Nat.not_le.1 hfit)
  · rw [hok]
    exact (if_neg (Nat.not_lt.2 hfit)).trans (if_pos hq)
  · rw [hok]
    exact (if_neg (Nat.not_lt.2 hfit)).trans (if_neg (Nat.not_le.2 hq))

end

/-- The fields of the launch that a record describes. -/
theorem launchOf_fields (bs : List Byte) (ctx uid : Nat) (o : Object) (k : Kernel) :
    (launchOf bs ctx uid o k).threads = orElse (field bs 20 2) k.threads ∧ (launchOf bs ctx uid o k).teams = orElse (field bs 22 1) k.teams ∧
    (launchOf bs ctx uid o k).regs = orElse (field bs 23 1) k.regs ∧ (launchOf bs ctx uid o k).scr = orElse (field bs 24 2) k.scr ∧
    (launchOf bs ctx uid o k).idem = ((field bs 27 1).testBit 2 || k.idem) ∧ (launchOf bs ctx uid o k).rstr = ((field bs 27 1).testBit 3 || k.rstr) := by
  have hbit (x i : Nat) : (x / 2 ^ i % 2 == 1) = x.testBit i := by
    rw [Nat.testBit_eq_decide_div_mod_eq, beq_eq_decide]
  refine ⟨?_, ?_, ?_, ?_, ?_, ?_⟩
  · simp only [launchOf, orElse, beq_iff_eq]
  · simp only [launchOf, orElse, beq_iff_eq]
  · simp only [launchOf, orElse, beq_iff_eq]
  · simp only [launchOf, orElse, beq_iff_eq]
  · exact congrArg (· || k.idem) (hbit _ 2)
  · exact congrArg (· || k.rstr) (hbit _ 3)

theorem leNat_lt (bs : List Byte) : leNat bs < 256 ^ bs.length := by
  induction bs with
  | nil => exact Nat.one_pos
  | cons b bs ih =>
    have := b.isLt
    rw [leNat, List.length_cons, Nat.pow_succ]
    omega

theorem field_lt (bs : List Byte) (off n : Nat) : field bs off n < 256 ^ n :=
  (leNat_lt _).trans_le (Nat.pow_le_pow_right (by decide) (List.length_take_le _ _))

theorem depOf_eq (bs : List Byte) (off : Nat) : depOf bs off =
    if field bs off 8 = 0 then none else some (field bs off 8, BitVec.ofNat 64 (field bs (off + 8) 8)) := by
  simp only [depOf, beq_iff_eq]

section
variable {s : State} {pa : Nat}

/-- SUBMIT of a record that stands at its home. -/
theorem exec_submit (h : s.sys.silent = false) (hat : s.m.atHome pa) (h128 : pa % 128 = 0) {bs : List Byte} (hbs : bs = s.m.mem.read pa 128) :
    exec (.submit pa) s = if field bs 28 4 == 0 then reply 1 s else .next { s with
      m := (s.m.submitAs true 1 bs).1, sys := { s.sys with answer := (s.m.submitAs true 1 bs).2 } } := by
  refine (call_live h _).trans ?_
  unfold submitCall
  rw [Mach.cohRead_home 128 hat (by rw [lineOf]; omega), ← hbs]
  rfl

/-- A record that names a context and, with it, a kernel. -/
structure State.Names (s : State) (pa : Nat) (bs : List Byte) (o : Object) (k : Kernel) : Prop where
  live   : s.sys.silent = false
  home   : s.m.atHome pa
  whole  : pa % 128 = 0
  bytes  : bs = s.m.mem.read pa 128
  given  : field bs 28 4 ≠ 0
  ctx    : s.m.ctx? (field bs 28 4) ≠ none
  kernel : s.m.kernelAt (field bs 28 4) (field bs 0 8) = some (o, k)

/-- The launch that a record describes, before its stamps are placed. -/
def State.described (s : State) (bs : List Byte) (o : Object) (k : Kernel) : Launch := launchOf bs (field bs 28 4) s.m.uid o k

section
variable {bs : List Byte} {o : Object} {k : Kernel}

theorem State.Names.exec (h : s.Names pa bs o k) : exec (.submit pa) s = .next { s with
    m := (s.m.submitAs true 1 bs).1, sys := { s.sys with answer := (s.m.submitAs true 1 bs).2 } } :=
  (exec_submit h.live h.home h.whole h.bytes).trans (if_neg (mt beq_iff_eq.1 h.given))

theorem State.Names.answers (h : s.Names pa bs o k) {n : Nat} (hn : s.m.submitAs true 1 bs = (s.m, n)) :
    Machine.exec (.submit pa) s = .next { s with sys := { s.sys with answer := n } } := by
  rw [h.exec, hn]

theorem submit_badRecord (h : s.Names pa bs o k) (hok : recordOk bs (s.described bs o k) k = false) :
    exec (.submit pa) s = .next { s with sys := { s.sys with answer := 3 } } :=
  h.answers ((submitAs_kernel 1 h.given h.ctx h.kernel rfl).1 hok)

theorem submit_tooLarge (h : s.Names pa bs o k) (hok : recordOk bs (s.described bs o k) k = true)
    (hfit : ¬ 4096 * (s.described bs o k).scr + 8192 ≤ 3145728 - 4096 * (s.described bs o k).regs) :
    exec (.submit pa) s = .next { s with sys := { s.sys with answer := 4 } } :=
  h.answers ((submitAs_kernel 1 h.given h.ctx h.kernel rfl).2.1 hok hfit)

theorem submit_queueFull (h : s.Names pa bs o k) (hok : recordOk bs (s.described bs o k) k = true)
    (hfit : 4096 * (s.described bs o k).scr + 8192 ≤ 3145728 - 4096 * (s.described bs o k).regs)
    (hq : 1024 ≤ s.m.queueLen (field bs 28 4) (s.described bs o k).prio) :
    exec (.submit pa) s = .next { s with sys := { s.sys with answer := 5 } } :=
  h.answers ((submitAs_kernel 1 h.given h.ctx h.kernel rfl).2.2.1 hok hfit hq)

/-- A record whose checks pass is the last launch from then on. -/
theorem submit_launches (h : s.Names pa bs o k) (hok : recordOk bs (s.described bs o k) k = true)
    (hfit : 4096 * (s.described bs o k).scr + 8192 ≤ 3145728 - 4096 * (s.described bs o k).regs)
    (hq : s.m.queueLen (field bs 28 4) (s.described bs o k).prio < 1024) : ∃ m p0 r0 b0 p1 r1 b1,
      exec (.submit pa) s = .next { s with m := m, sys := { s.sys with answer := 0 } } ∧
      m.launches.getLast? = some (((s.described bs o k).watching0 p0 r0 b0).watching1 p1 r1 b1) ∧
      m.launches.length = s.m.launches.length + 1 ∧ (field bs 32 8 = 0 → field bs 48 8 = 0 → m = { s.m with
        uid := s.m.uid + 1
        launches := s.m.launches ++ [((s.described bs o k).watching0 p0 r0 b0).watching1 p1 r1 b1] }) := by
  obtain ⟨p0, r0, b0, p1, r1, b1, hl, hcount⟩ := s.m.fresh.2.placeStamps_all (s.described bs o k)
  have hsub := (submitAs_kernel 1 h.given h.ctx h.kernel (l := s.described bs o k) rfl).2.2.2 hok hfit hq
  rw [hl] at hsub
  have hnone (off : Nat) (hz : field bs off 8 = 0) : depOf bs off = none := by rw [depOf_eq, if_pos hz]
  have hsame (h0 : field bs 32 8 = 0) (h1 : field bs 48 8 = 0) :=
    Mach.placeStamps_none (m := s.m.fresh.2) (l := s.described bs o k) (hnone 32 h0) (hnone 48 h1)
  generalize (s.m.fresh.2.placeStamps (s.described bs o k) fun _ _ => true).1 = n at hsub hcount hsame
  refine ⟨{ n with launches := n.launches ++ [((s.described bs o k).watching0 p0 r0 b0).watching1 p1 r1 b1] }, p0, r0, b0, p1, r1, b1,
    ?_, ?_, ?_, fun h0 h1 => ?_⟩
  · rw [h.exec, hsub]
  · exact List.getLast?_concat
  · rw [List.length_append, hcount]
    rfl
  · rw [hsame h0 h1]
    rfl

end

end

end Sys2Proof.Machine
end

section
/-! SUPPORT. What LOADOBJ does with an object that it has read: its checks in order, and the pages it maps (20 R277-R282). -/

namespace Sys2Proof.Machine

/-! ### The checks (20 R280) -/

section
variable {y : Sys} {m : Mach} {bs : List Byte} {h : Header} {dig : BitVec 384} {ctx cb db : Nat}

theorem loadStatus_format (hf : formatOk bs h = false) : loadStatus y m bs h dig ctx cb db = 1 := by
  simp only [loadStatus, hf, Bool.not_false, if_true]

/-- Check 2 comes once the format is in order. -/
theorem loadStatus_revoked (hf : formatOk bs h = true) (hv : h.svn < y.fuses.cosvnCount) : loadStatus y m bs h dig ctx cb db = 2 := by
  simp only [loadStatus, hf, Bool.not_true, Bool.false_eq_true, if_false, hv, if_true]

theorem loadStatus_signed (hf : formatOk bs h = true) (hv : y.fuses.cosvnCount ≤ h.svn) : loadStatus y m bs h dig ctx cb db =
    if !(y.verified.contains (dig, h.signer) || sigOk y bs h dig) then 3
    else if h.gen != 2 then 4 else if !steppingOk m.k2 bs h then 5 else if !m.spaceFree ctx cb db h then 6 else 0 := by
  simp only [loadStatus, hf, Bool.not_true, Bool.false_eq_true, if_false, Nat.not_lt.2 hv]

end

theorem cacheAfter_revoked (y : Sys) (key : BitVec 384 × BitVec 384) : cacheAfter y key 2 = y.verified.filter fun e => e != key := rfl

theorem cacheAfter_passed {y : Sys} {key : BitVec 384 × BitVec 384} {n : Nat} (h1 : n ≠ 1) (h2 : n ≠ 2) (h3 : n ≠ 3) :
    cacheAfter y key n = if y.verified.contains key then y.verified else (key :: y.verified).take 1024 := by
  rw [cacheAfter, beq_eq_false_iff_ne.2 h1, beq_eq_false_iff_ne.2 h2, beq_eq_false_iff_ne.2 h3]
  rfl

/-! ### Reading an object (20 R277) -/

theorem Mach.homeRead_length (m : Mach) (pa n : Nat) : (m.homeRead pa n).length = n := by
  unfold Mach.homeRead
  split
  · rw [List.length_map, List.length_range]
  · exact Memory.read_length _ _

theorem Mach.cohRead_length {m m' : Mach} {pa n : Nat} {bs : List Byte} (h : m.cohRead pa n = (m', some bs)) : bs.length = n := by
  have h2 := congrArg Prod.snd h
  simp only [Mach.cohRead] at h2
  split at h2
  · cases h2
  · rw [← Option.some.inj h2]
    exact Mach.homeRead_length _ _ _

theorem Mach.readObject_length {fuel : Nat} {m m' : Mach} {pa n : Nat} {bs : List Byte} (hf : n = 0 ∨ n + pa % 128 ≤ 128 * fuel)
    (h : m.readObject fuel pa n = (m', some bs)) : bs.length = n := by
  induction fuel generalizing m pa n bs with
  | zero =>
    obtain rfl : n = 0 := by omega
    cases h
    rfl
  | succ fuel ih =>
    unfold Mach.readObject at h
    split at h
    next h0 =>
      cases h
      exact (beq_iff_eq.1 h0).symm
    next h0 =>
      dsimp only at h
      split at h
      · cases h
      next m1 b1 h1 =>
        split at h
        next m2 rest h2 =>
          cases h
          have hl := Mach.cohRead_length h1
          have hr := ih (by have := beq_iff_eq.not.1 h0; omega) h2
          rw [List.length_append, hl, hr]
          omega
        · cases h

/-- A section of an object that has been read has its whole length. -/
theorem section_length {bs : List Byte} {off n : Nat} (h : off + n ≤ bs.length) : ((bs.drop off).take n).length = n := by
  rw [List.length_take, List.length_drop]
  omega

/-! ### Machines whose lines all stand at home -/

/-- A machine with other bytes in memory: only threads and launches that watch them differ besides. -/
def Mach.Rewritten (m : Mach) (mem : Memory) (n : Mach) : Prop := n = { m with mem := mem, threads := n.threads, launches := n.launches }

theorem Mach.put_rewritten (m : Mach) (pa : Nat) (bs : List Byte) : m.Rewritten (m.mem.write pa bs) (m.put pa bs) := rfl

theorem Mach.Rewritten.trans {a b c : Mach} {x y : Memory} (h : a.Rewritten x b) (g : b.Rewritten y c) : a.Rewritten y c := by
  rw [Mach.Rewritten] at h g ⊢
  rw [g, h]

theorem Mach.Rewritten.atHome {m n : Mach} {mem : Memory} (h : m.Rewritten mem n) {a : Nat} (ha : m.atHome a) : n.atHome a := by
  rw [Mach.Rewritten] at h
  rw [h]
  exact ha

theorem Mach.Rewritten.mem_eq {m n : Mach} {mem : Memory} (h : m.Rewritten mem n) : n.mem = mem := by
  rw [Mach.Rewritten] at h
  rw [h]

theorem Memory.write_append (mem : Memory) (a : Nat) (xs ys : List Byte) :
    mem.write a (xs ++ ys) = (mem.write a xs).write (a + xs.length) ys := by
  induction xs generalizing mem a with
  | nil => rfl
  | cons x xs ih =>
    rw [List.cons_append, Memory.write, ih, List.length_cons, Nat.add_assoc, Nat.add_comm 1]
    rfl

/-- Bytes written line by line stand as they were given. -/
theorem Mach.cutLines_rewritten {fuel : Nat} {m : Mach} (hm : ∀ a, m.atHome a) {pa : Nat} {bs : List Byte}
    (hf : bs.length + pa % 128 ≤ 128 * fuel) :
    m.Rewritten (m.mem.write pa bs) ((cutLines fuel pa bs).foldl (fun m p => m.cohWrite1 p.1 p.2) m) := by
  induction fuel generalizing m pa bs with
  | zero =>
    obtain rfl : bs = [] := List.length_eq_zero_iff.1 (by omega)
    rfl
  | succ fuel ih =>
    unfold cutLines
    split
    next h =>
      rw [List.isEmpty_iff] at h
      rw [h]
      rfl
    next h =>
      dsimp only [List.foldl_cons]
      rw [Mach.cohWrite1_put (hm pa)]
      have hput := m.put_rewritten pa (bs.take (128 - pa % 128))
      have hne : 0 < bs.length := List.length_pos_iff.2 (mt List.isEmpty_iff.2 h)
      have hlater := ih (m := m.put pa (bs.take (128 - pa % 128))) (fun a => hput.atHome (hm a)) (pa := pa + (128 - pa % 128))
        (bs := bs.drop (128 - pa % 128)) (by rw [List.length_drop]; omega)
      rw [hput.mem_eq] at hlater
      have hwrite : m.mem.write pa bs =
          (m.mem.write pa (bs.take (128 - pa % 128))).write (pa + (128 - pa % 128)) (bs.drop (128 - pa % 128)) := by
        by_cases hlen : 128 - pa % 128 ≤ bs.length
        · have := Memory.write_append m.mem pa (bs.take (128 - pa % 128)) (bs.drop (128 - pa % 128))
          rwa [List.take_append_drop, List.length_take_of_le hlen] at this
        · rw [List.take_of_length_le (by omega), List.drop_eq_nil_of_le (by omega)]
          rfl
      rw [hwrite]
      exact hput.trans hlater

theorem Mach.cohWrite_rewritten {m : Mach} (hm : ∀ a, m.atHome a) (pa : Nat) (bs : List Byte) :
    m.Rewritten (m.mem.write pa bs) (m.cohWrite pa bs) := Mach.cutLines_rewritten hm (by omega)

/-! ### Mapping a page (20 R282; 06 R107, R109) -/

/-- The entry for an address in a table of a level. -/
def entryOf (table va n : Nat) : Nat := table + 8 * (va / 2 ^ (12 + 9 * n) % 512)

/-- A table entry that names the next table. -/
def Mach.leads (m : Mach) (table va n next : Nat) : Prop :=
  leNat (m.mem.read (entryOf table va n) 8) = 15 * 2 ^ 60 + next + 1 ∧ table % 4096 = 0 ∧ next % 4096 = 0 ∧ next < 2 ^ 56

theorem isTable_next {t : Nat} (h4 : t % 4096 = 0) (h : t < 2 ^ 56) : isTable (BitVec.ofNat 64 (15 * 2 ^ 60 + t + 1)) = true ∧
    ptePa (BitVec.ofNat 64 (15 * 2 ^ 60 + t + 1)) = t := by
  have hn : (BitVec.ofNat 64 (15 * 2 ^ 60 + t + 1)).toNat = 15 * 2 ^ 60 + t + 1 := by
    rw [BitVec.toNat_ofNat]
    omega
  simp only [isTable, ptePa, pteSz, hn, Bool.and_eq_true, beq_iff_eq]
  omega

theorem entryOf_within {t va n : Nat} (h4 : t % 4096 = 0) : entryOf t va n % 8 = 0 ∧ t ≤ entryOf t va n ∧ entryOf t va n + 8 ≤ t + 4096 := by
  have := Nat.mod_lt (va / 2 ^ (12 + 9 * n)) (show 0 < 512 by decide)
  unfold entryOf
  omega

/-- A level whose entry names a table is passed. -/
theorem Mach.mapPage_table {m : Mach} (hm : ∀ a, m.atHome a) {table va leaf n next : Nat} (hn : n ≠ 0) (h : m.leads table va n next) :
    m.mapPage va leaf (n + 1) table = m.mapPage va leaf n next := by
  obtain ⟨hword, htable, hnext, hlt⟩ := h
  obtain ⟨hat, hpa⟩ := isTable_next hnext hlt
  have h8 := (entryOf_within (va := va) (n := n) htable).1
  have hread : m.readPte (entryOf table va n) = (m, some (BitVec.ofNat 64 (15 * 2 ^ 60 + next + 1))) := by
    rw [Mach.readPte, Mach.cohRead_home 8 (hm _) (by rw [lineOf]; omega), ← hword]
    rfl
  conv_lhs => unfold Mach.mapPage
  dsimp only
  rw [if_neg (mt beq_iff_eq.1 hn), show table + 8 * (va / 2 ^ (12 + 9 * n) % 512) = entryOf table va n from rfl, hread]
  dsimp only
  rw [Option.filter_some, if_pos hat]
  dsimp only
  rw [hpa]

theorem Mach.mapPage_leaf {m : Mach} (hm : ∀ a, m.atHome a) (table va leaf : Nat) :
    m.mapPage va leaf 1 table = m.put (entryOf table va 0) (leBytes leaf 8) := by
  unfold Mach.mapPage
  dsimp only
  rw [show table + 8 * (va / 2 ^ (12 + 9 * 0) % 512) = entryOf table va 0 from rfl, Mach.cohPrep_home (hm _), Mach.cohWrite1_put (hm _)]
  rfl

/-- The tables through which an address is mapped, from the root's level down. -/
structure Mach.Mapped (m : Mach) (root t1 t2 t3 t4 va : Nat) : Prop where
  level4 : m.leads root va 4 t1
  level3 : m.leads t1 va 3 t2
  level2 : m.leads t2 va 2 t3
  level1 : m.leads t3 va 1 t4

theorem Mach.Mapped.mapPage {m : Mach} {root t1 t2 t3 t4 va : Nat} (h : m.Mapped root t1 t2 t3 t4 va) (hm : ∀ a, m.atHome a) (leaf : Nat) :
    m.mapPage va leaf 5 root = m.put (entryOf t4 va 0) (leBytes leaf 8) := by
  rw [Mach.mapPage_table hm (by decide) h.level4, Mach.mapPage_table hm (by decide) h.level3, Mach.mapPage_table hm (by decide) h.level2,
    Mach.mapPage_table hm (by decide) h.level1, Mach.mapPage_leaf hm]

/-- Bytes written below a page, or behind it, leave its table entries. -/
theorem Mach.Rewritten.leads {m n : Mach} {mem : Memory} (h : m.Rewritten mem n) {table va l next : Nat} (hl : m.leads table va l next)
    (hsame : mem.read (entryOf table va l) 8 = m.mem.read (entryOf table va l) 8) : n.leads table va l next := by
  obtain ⟨hword, hrest⟩ := hl
  exact ⟨by rw [h.mem_eq, hsame]; exact hword, hrest⟩

/-- Bytes written past the tables leave the way through them. -/
theorem Mach.Rewritten.mapped {m n : Mach} {root t1 t2 t3 t4 va pa : Nat} {bs : List Byte} (h : m.Rewritten (m.mem.write pa bs) n)
    (hw : m.mem.wf = true) (hmap : m.Mapped root t1 t2 t3 t4 va)
    (hoff : ∀ t ∈ [root, t1, t2, t3], t + 4096 ≤ pa ∨ pa + bs.length ≤ t) : n.Mapped root t1 t2 t3 t4 va := by
  have hpart {t l next : Nat} (hl : m.leads t va l next) (ht : t + 4096 ≤ pa ∨ pa + bs.length ≤ t) : n.leads t va l next := by
    obtain ⟨-, hlo, hhi⟩ := entryOf_within (va := va) (n := l) hl.2.1
    exact h.leads hl (Memory.read_write_other hw (by omega))
  simp only [List.forall_mem_cons] at hoff
  obtain ⟨h0, h1, h2, h3, -⟩ := hoff
  exact ⟨hpart hmap.level4 h0, hpart hmap.level3 h1, hpart hmap.level2 h2, hpart hmap.level1 h3⟩

/-- A machine whose firmware region begins a page later. -/
def Mach.paged (m : Mach) : Mach := { m with fwBase := m.fwBase + 4096 }

theorem Mach.Mapped.paged {m : Mach} {root t1 t2 t3 t4 va : Nat} (h : m.Mapped root t1 t2 t3 t4 va) : m.paged.Mapped root t1 t2 t3 t4 va :=
  ⟨h.level4, h.level3, h.level2, h.level1⟩

/-- What mapping at most a page leaves: its bytes at the next page of the firmware's region, its leaf, and that region's new end. -/
theorem Mach.mapBytes_page {m : Mach} {root t1 t2 t3 t4 va : Nat} (hm : ∀ a, m.atHome a) (hw : m.mem.wf = true) {bs : List Byte}
    (h0 : 0 < bs.length) (h1 : bs.length ≤ 4096) (hmap : m.Mapped root t1 t2 t3 t4 va)
    (hbelow : ∀ t ∈ [root, t1, t2, t3], t + 4096 ≤ m.fwBase) (flags : Nat) :
    m.paged.Rewritten ((m.mem.write m.fwBase bs).write (entryOf t4 va 0) (leBytes (m.fwBase + flags) 8)) (m.mapBytes root va flags bs) := by
  have hpages : (bs.length + 4095) / 4096 = 1 := by omega
  have hdata := Mach.cohWrite_rewritten (m := m.paged) hm m.fwBase bs
  have hmapped : (m.paged.cohWrite m.fwBase bs).Mapped root t1 t2 t3 t4 va :=
    hdata.mapped (m := m.paged) hw hmap.paged fun t ht => .inl (hbelow t ht)
  have heq : m.mapBytes root va flags bs = (m.paged.cohWrite m.fwBase bs).mapPage va (m.fwBase + flags) 5 root := by
    simp only [Mach.mapBytes, Mach.takePages, hpages, Nat.one_mul, List.range_one, List.foldl_cons, List.foldl_nil, Nat.mul_zero, Nat.add_zero]
    rfl
  rw [heq, hmapped.mapPage fun a => hdata.atHome (hm a)]
  have hput := Mach.put_rewritten (m.paged.cohWrite m.fwBase bs) (entryOf t4 va 0) (leBytes (m.fwBase + flags) 8)
  rw [hdata.mem_eq] at hput
  exact hdata.trans hput

/-- The entry of a page's leaf. -/
theorem entryOf_apart {t a b : Nat} (h : a / 4096 % 512 ≠ b / 4096 % 512) :
    entryOf t a 0 + 8 ≤ entryOf t b 0 ∨ entryOf t b 0 + 8 ≤ entryOf t a 0 := by
  simp only [entryOf, Nat.mul_zero, Nat.add_zero, show 2 ^ 12 = 4096 from rfl]
  omega

/-- What a loaded object of a page of code and a page of data leaves in memory (R282). -/
theorem Mach.mapSections {m : Mach} {root t1 t2 t3 t4 cb db : Nat} (hm : ∀ a, m.atHome a) (hw : m.mem.wf = true) {code data : List Byte}
    (hc0 : 0 < code.length) (hc1 : code.length ≤ 4096) (hd0 : 0 < data.length) (hd1 : data.length ≤ 4096)
    (h56 : m.fwBase + 8192 ≤ 2 ^ 56) (htables : ∀ t ∈ [root, t1, t2, t3, t4], t % 4096 = 0 ∧ t + 4096 ≤ m.fwBase)
    (h4 : t4 ∉ [root, t1, t2, t3]) (hne : cb / 4096 % 512 ≠ db / 4096 % 512) (hcode : m.Mapped root t1 t2 t3 t4 cb)
    (hdata : m.Mapped root t1 t2 t3 t4 db) {mem : Memory} (hmem : mem = ((m.mapBytes root cb 0xD code).mapBytes root db 0xB data).mem) :
    leNat (mem.read (entryOf t4 cb 0) 8) = m.fwBase + 0xD ∧ leNat (mem.read (entryOf t4 db 0) 8) = m.fwBase + 4096 + 0xB ∧
      mem.read m.fwBase code.length = code ∧ mem.read (m.fwBase + 4096) data.length = data := by
  have hsection := Mach.mapBytes_page hm hw hc0 hc1 hcode (fun t ht => (htables t (by simp at ht ⊢; tauto)).2) 0xD
  generalize m.mapBytes root cb 0xD code = n at hsection hmem
  have hfw : n.fwBase = m.fwBase + 4096 := by
    rw [Mach.Rewritten] at hsection
    rw [hsection]
    rfl
  obtain ⟨h4al, h4fw⟩ := htables t4 (by simp)
  obtain ⟨-, hlo1, hhi1⟩ := entryOf_within (va := cb) (n := 0) h4al
  obtain ⟨-, hlo2, hhi2⟩ := entryOf_within (va := db) (n := 0) h4al
  have hw1 := Memory.write_wf m.fwBase code hw
  have hw2 := Memory.write_wf (entryOf t4 cb 0) (leBytes (m.fwBase + 0xD) 8) hw1
  have hcoded : ({ m.paged with mem := m.mem.write m.fwBase code } : Mach).Mapped root t1 t2 t3 t4 db :=
    Mach.Rewritten.mapped (m := m.paged) (pa := m.fwBase) (bs := code) rfl hw hdata.paged
      fun t ht => .inl (htables t (by simp at ht ⊢; tauto)).2
  have hn : n.Mapped root t1 t2 t3 t4 db := by
    refine Mach.Rewritten.mapped (m := { m.paged with mem := m.mem.write m.fwBase code }) hsection hw1 hcoded fun t ht => ?_
    have hne : t ≠ t4 := fun h => h4 (h ▸ ht)
    have hal := (htables t (by simp at ht ⊢; tauto)).1
    rw [leBytes_length]
    omega
  have hrest := Mach.mapBytes_page (fun a => hsection.atHome (hm a)) (by rw [hsection.mem_eq]; exact hw2) hd0 hd1 hn
    (fun t ht => by rw [hfw]; exact (htables t (by simp at ht ⊢; tauto)).2.trans (Nat.le_add_right _ _)) 0xB
  rw [hrest.mem_eq, hsection.mem_eq, hfw] at hmem
  subst hmem
  have hw3 := Memory.write_wf (m.fwBase + 4096) data hw2
  have hapart := entryOf_apart (t := t4) hne
  have hleaf (a : Memory) (ha : a.wf = true) (x v : Nat) : (a.write x (leBytes v 8)).read x 8 = leBytes v 8 := by
    have := Memory.read_write x (leBytes v 8) ha
    rwa [leBytes_length] at this
  refine ⟨?_, ?_, ?_, ?_⟩
  · rw [Memory.read_write_other hw3 (by rw [leBytes_length]; omega), Memory.read_write_other hw2 (by omega), hleaf _ hw1, leNat_leBytes]
    omega
  · rw [hleaf _ hw3, leNat_leBytes]
    omega
  · rw [Memory.read_write_other hw3 (by rw [leBytes_length]; omega), Memory.read_write_other hw2 (by omega),
      Memory.read_write_other hw1 (by rw [leBytes_length]; omega), Memory.read_write _ _ hw]
  · rw [Memory.read_write_other hw3 (by rw [leBytes_length]; omega), Memory.read_write _ _ hw2]

/-! ### What mapping leaves of the machine's staff -/

theorem Mach.mapPage_sameStaff (m : Mach) (va leaf n table : Nat) : m.SameStaff (m.mapPage va leaf n table) := by
  induction n generalizing m table with
  | zero => exact .same
  | succ n ih =>
    unfold Mach.mapPage
    dsimp only
    split
    · exact (m.cohPrep_sameStaff _).trans (Mach.cohWrite1_sameStaff _ _ _)
    · have hp := m.readPte_sameStaff (table + 8 * (va / 2 ^ (12 + 9 * n) % 512))
      generalize m.readPte (table + 8 * (va / 2 ^ (12 + 9 * n) % 512)) = r at hp ⊢
      split
      · exact hp.trans (ih _ _)
      · refine Mach.SameStaff.trans ?_ (ih _ _)
        exact (hp.trans (Mach.sameStaff_of_eq (n := (r.1.takePages 4096).2) rfl rfl rfl rfl)).trans (Mach.cohWrite1_sameStaff _ _ _)

theorem Mach.cohWrite_sameStaff (m : Mach) (pa : Nat) (bs : List Byte) : m.SameStaff (m.cohWrite pa bs) :=
  List.foldlRecOn (motive := fun n => m.SameStaff n) _ _ .same fun _ hn _ _ => hn.trans (Mach.cohWrite1_sameStaff _ _ _)

theorem Mach.mapBytes_sameStaff (m : Mach) (root va flags : Nat) (bs : List Byte) : m.SameStaff (m.mapBytes root va flags bs) := by
  refine List.foldlRecOn (motive := fun n => m.SameStaff n) _ _ ?_ fun _ hn _ _ => hn.trans (Mach.mapPage_sameStaff _ _ _ _ _)
  exact (Mach.sameStaff_of_eq (m := m) (n := (m.takePages bs.length).2) rfl rfl rfl rfl).trans (Mach.cohWrite_sameStaff _ _ _)

/-- The object that a load adds. -/
def loadedObject (uid : Nat) (bs : List Byte) (h : Header) (ctx cb db : Nat) : Object := {
  uid := uid, ctx := ctx, codeBase := cb, codeLen := h.codeLen, dataBase := db, dataLen := h.dataLen
  svn := h.svn, kernels := (List.range h.nkern).map fun i => kernelOf bs h cb i, revoked := false, unloaded := false }

/-- The machine in which an object's sections are mapped. -/
def Mach.mappedBoth (m : Mach) (root : Nat) (bs : List Byte) (h : Header) (cb db : Nat) : Mach :=
  (m.mapBytes root cb 0xD ((bs.drop h.codeOff).take h.codeLen)).mapBytes root db 0xB ((bs.drop h.dataOff).take h.dataLen)

theorem Mach.mapObject_eq {m : Mach} {c : Ctx} {ctx : Nat} (hc : m.ctx? ctx = some c) (bs : List Byte) (h : Header) (cb db : Nat) :
    m.mapObject bs h ctx cb db = { m.mappedBoth c.desc.root bs h cb db with
      uid := (m.mappedBoth c.desc.root bs h cb db).uid + 1
      objects := m.objects ++ [loadedObject (m.mappedBoth c.desc.root bs h cb db).uid bs h ctx cb db] } := by
  have hobj : (m.mappedBoth c.desc.root bs h cb db).objects = m.objects :=
    ((m.mapBytes_sameStaff _ _ _ _).trans (Mach.mapBytes_sameStaff _ _ _ _ _)).objects
  unfold Mach.mapObject
  rw [hc]
  dsimp only
  rw [← hobj]
  rfl

/-! ### LOADOBJ (20 R280-R282) -/

section
variable {s : State} {m1 m2 : Mach} {hd bs : List Byte} {pa ctx cb db : Nat}

theorem loadobj_unread (hlive : s.sys.silent = false) (h1 : s.m.finishUnloads.readObject 4 pa 256 = (m1, some hd))
    (hok : headerOk hd (headerOf hd) = false) :
    exec (.loadobj pa ctx cb db) s = .next { s with m := m1, sys := { s.sys with answer := 1, detail := 0 } } := by
  refine (call_live hlive _).trans ?_
  unfold loadobj
  rw [h1]
  exact if_pos (by rw [hok]; rfl)

/-- An object that has been read whole answers by its checks. -/
theorem loadobj_read (hlive : s.sys.silent = false) (h1 : s.m.finishUnloads.readObject 4 pa 256 = (m1, some hd)) {h : Header}
    (hh : h = headerOf hd) (hok : headerOk hd h = true) (h2 : m1.readObject (h.sigOff / 128 + 3) pa (h.sigOff + 96) = (m2, some bs))
    {dig : BitVec 384} (hdig : dig = sha384 (bs.take h.sigOff)) {st : Nat} (hst : loadStatus s.sys m2 bs h dig ctx cb db = st) :
    exec (.loadobj pa ctx cb db) s = .next { s with
      m := if st == 0 then m2.mapObject bs h ctx cb db else m2
      sys := { s.sys with
        verified := cacheAfter s.sys (dig, h.signer) st, answer := st
        detail := if st == 0 then ((codeWords bs h).filter isDeprecated).length else 0 } } := by
  subst hh hdig hst
  refine (call_live hlive _).trans ?_
  unfold loadobj
  rw [h1]
  dsimp only
  rw [if_neg (by rw [hok]; exact Bool.false_ne_true), h2]

end

theorem headerOk_sections {bs : List Byte} {h : Header} (hok : headerOk bs h = true) : h.codeOff + h.codeLen ≤ h.sigOff ∧
    h.dataOff + h.dataLen ≤ h.sigOff := by
  unfold headerOk at hok
  simp only [Bool.and_eq_true, List.all_cons, decide_eq_true_eq] at hok
  tauto

end Sys2Proof.Machine
end

section
/-! SUPPORT. The firmware's calls of objects, fuses, descriptors and the debug interface (19 R267; 20 R283-R288). -/

namespace Sys2Proof.Machine

/-! ### The code-object fuse counter (20 R283, R285) -/

theorem filter_or_one {l : List Nat} (hl : l.Nodup) {i : Nat} (hi : i ∈ l) {p : Nat → Bool} (hp : p i = false) :
    (l.filter fun j => p j || j == i).length = (l.filter p).length + 1 := by
  induction l with
  | nil => exact absurd hi List.not_mem_nil
  | cons a l ih =>
    obtain ⟨ha, hl⟩ := List.nodup_cons.1 hl
    by_cases hai : a = i
    · subst hai
      have hrest : (l.filter fun j => p j || j == a) = l.filter p := by
        refine List.filter_congr fun j hj => ?_
        rw [beq_eq_false_iff_ne.2 fun h : j = a => ha (h ▸ hj), Bool.or_false]
      rw [List.filter_cons_of_pos (by simp), List.filter_cons_of_neg (by simp [hp]), hrest, List.length_cons]
    · have hmem : i ∈ l := (List.mem_cons.1 hi).resolve_left fun h => hai h.symm
      by_cases hpa : p a = true
      · rw [List.filter_cons_of_pos (by simp [hpa]), List.filter_cons_of_pos hpa, List.length_cons, List.length_cons, ih hl hmem]
      · rw [List.filter_cons_of_neg (by simp [hpa, hai]), List.filter_cons_of_neg hpa, ih hl hmem]

/-- A fuse array with one more bit blown. -/
def Fuses.cosvnBlown (f : Fuses) (i : Nat) : Fuses := { f with cosvn := f.cosvn ||| (1#128 <<< i) }

theorem Fuses.cosvnBlown_bit (f : Fuses) {i j : Nat} (hj : j < 128) : (f.cosvnBlown i).cosvn.getLsbD j = (f.cosvn.getLsbD j || j == i) := by
  have hone : (1#128 <<< i).getLsbD j = (j == i) := by
    rw [BitVec.getLsbD_shiftLeft, BitVec.getLsbD_one]
    by_cases hji : j = i
    · subst hji
      simp [hj]
    · rw [beq_eq_false_iff_ne.2 hji]
      by_cases hlt : j < i
      · simp [hlt]
      · simp [hj, hlt]
        omega
  rw [Fuses.cosvnBlown, BitVec.getLsbD_or, hone]

theorem Fuses.cosvnBlown_count (f : Fuses) {i : Nat} (hi : i < 128) :
    (f.cosvnBlown i).cosvnCount = if f.cosvn.getLsbD i then f.cosvnCount else f.cosvnCount + 1 := by
  have hbits : ((List.range 128).filter fun j => (f.cosvnBlown i).cosvn.getLsbD j) =
      (List.range 128).filter fun j => f.cosvn.getLsbD j || j == i :=
    List.filter_congr fun j hj => f.cosvnBlown_bit (List.mem_range.1 hj)
  rw [Fuses.cosvnCount, hbits]
  split
  next hset =>
    refine congrArg List.length (List.filter_congr fun j _ => ?_)
    by_cases hji : j = i
    · rw [hji, hset, Bool.true_or]
    · rw [beq_eq_false_iff_ne.2 hji, Bool.or_false]
  next hset => exact filter_or_one List.nodup_range (List.mem_range.2 hi) (Bool.eq_false_iff.2 hset)

/-- Raising the counter to a number, bit by bit, as far as bit `k`: either it has been reached, or every bit so far is blown. -/
structure Fuses.Raising (f : Fuses) (n k : Nat) (g : Fuses) : Prop where
  same  : g = { f with cosvn := g.cosvn }
  kept  : ∀ i, f.cosvn.getLsbD i = true → g.cosvn.getLsbD i = true
  count : (n ≤ g.cosvnCount ∧ g.cosvnCount = max f.cosvnCount n) ∨
    (g.cosvnCount < n ∧ f.cosvnCount ≤ g.cosvnCount ∧ ∀ i < k, g.cosvn.getLsbD i = true)

/-- One step of ADVSVN's counter. -/
def Fuses.raiseStep (n : Nat) (f : Fuses) (i : Nat) : Fuses := if f.cosvnCount < n then f.cosvnBlown i else f

theorem Fuses.Raising.step {f g : Fuses} {n k : Nat} (h : f.Raising n k g) (hk : k < 128) : f.Raising n (k + 1) (g.raiseStep n k) := by
  obtain ⟨hsame, hkept, hcount⟩ := h
  rcases hcount with ⟨hle, hmax⟩ | ⟨hlt, hge, hall⟩
  · rw [Fuses.raiseStep, if_neg (Nat.not_lt.2 hle)]
    exact ⟨hsame, hkept, .inl ⟨hle, hmax⟩⟩
  · rw [Fuses.raiseStep, if_pos hlt]
    have hnew := g.cosvnBlown_count hk
    refine ⟨?_, fun i hi => ?_, ?_⟩
    · rw [Fuses.cosvnBlown, hsame]
    · have := hkept i hi
      rw [Fuses.cosvnBlown, BitVec.getLsbD_or, this, Bool.true_or]
    · by_cases hn : (g.cosvnBlown k).cosvnCount < n
      · refine .inr ⟨hn, ?_, fun i hi => ?_⟩
        · rw [hnew]
          split <;> omega
        · rw [g.cosvnBlown_bit (by omega)]
          by_cases hik : i = k
          · rw [hik, beq_self_eq_true, Bool.or_true]
          · rw [hall i (by omega), Bool.true_or]
      · refine .inl ⟨Nat.not_lt.1 hn, ?_⟩
        have hone : (g.cosvnBlown k).cosvnCount ≤ g.cosvnCount + 1 := by
          rw [hnew]
          split <;> omega
        omega

theorem Fuses.raiseCosvn_upTo (f : Fuses) (n k : Nat) (hk : k ≤ 128) : f.Raising n k ((List.range k).foldl (Fuses.raiseStep n) f) := by
  induction k with
  | zero =>
    refine ⟨rfl, fun _ h => h, ?_⟩
    change (n ≤ f.cosvnCount ∧ f.cosvnCount = _) ∨ _
    by_cases h : n ≤ f.cosvnCount
    · exact .inl ⟨h, (max_eq_left h).symm⟩
    · exact .inr ⟨Nat.not_le.1 h, le_rfl, fun i hi => absurd hi (Nat.not_lt_zero i)⟩
  | succ k ih =>
    rw [List.range_succ, List.foldl_append]
    exact (ih (by omega)).step (by omega)

/-- ADVSVN's counter never falls, and reaches the number asked for. -/
theorem Fuses.raiseCosvn_spec (f : Fuses) {n : Nat} (hn : n ≤ 128) : (f.raiseCosvn n).cosvnCount = max f.cosvnCount n ∧
    f.raiseCosvn n = { f with cosvn := (f.raiseCosvn n).cosvn } ∧ ∀ i, f.cosvn.getLsbD i = true → (f.raiseCosvn n).cosvn.getLsbD i = true := by
  obtain ⟨hsame, hkept, hcount⟩ := f.raiseCosvn_upTo n 128 le_rfl
  have heq : f.raiseCosvn n = (List.range 128).foldl (Fuses.raiseStep n) f := rfl
  rw [heq]
  refine ⟨?_, hsame, hkept⟩
  rcases hcount with ⟨-, hmax⟩ | ⟨hlt, -, hall⟩
  · exact hmax
  · have hfull : ((List.range 128).foldl (Fuses.raiseStep n) f).cosvnCount = 128 := by
      rw [Fuses.cosvnCount, List.filter_eq_self.2 fun i hi => hall i (List.mem_range.1 hi), List.length_range]
    omega

/-! ### UNLOADOBJ (20 R284) -/

section
variable {s : State}

theorem unloadobj_unknown (h : s.sys.silent = false) {u ctx : Nat}
    (hno : ∀ x ∈ s.m.objects, x.uid = u → x.ctx = ctx → x.unloaded = true) : exec (.unloadobj u ctx) s = reply 7 s := by
  refine (call_live h _).trans (if_neg ?_)
  rw [List.any_eq_true]
  rintro ⟨x, hx, hcond⟩
  simp only [Bool.and_eq_true, beq_iff_eq, Bool.not_eq_true'] at hcond
  rw [hno x hx hcond.1.1 hcond.1.2] at hcond
  exact absurd hcond.2 (by decide)

/-- An object that an accepted launch still needs is only marked. -/
theorem unloadobj_needed (h : s.sys.silent = false) {o : Object} (ho : s.m.objects = [o]) (hun : o.unloaded = false)
    (hl : ∃ l ∈ s.m.launches, l.object = o.uid) : exec (.unloadobj o.uid o.ctx) s = .next { s with
      m := { s.m with objects := [{ o with unloaded := true }] }, sys := { s.sys with answer := 0 } } := by
  obtain ⟨l, hmem, hobj⟩ := hl
  have hneed : (s.m.launches.any fun l => l.object == o.uid) = true := List.any_eq_true.2 ⟨l, hmem, beq_iff_eq.2 hobj⟩
  have hmark : (s.m.objects.map fun (x : Object) => if x.uid == o.uid then { x with unloaded := true } else x) = [{ o with unloaded := true }] := by
    rw [ho, List.map_singleton, beq_self_eq_true]
    rfl
  refine (call_live h _).trans ((if_pos ?_).trans ?_)
  · rw [ho]
    simp [hun]
  · dsimp only
    rw [hmark]
    refine congrArg (fun m => Host.Outcome.next { s with m := m, sys := { s.sys with answer := 0 } }) ?_
    unfold Mach.finishUnloads
    dsimp only [List.foldl_cons, List.foldl_nil]
    rw [hneed]
    rfl

end

/-! ### Keys (20 R286) -/

theorem Sys.enrols_iff (y : Sys) (signed : Bool) : y.enrols signed = true ↔
    y.security = .openState ∨ (y.security = .sealed ∧ signed = true ∧ y.fuses.ownerHash ≠ 0) := by
  unfold Sys.enrols
  cases y.security <;> simp

/-! ### Context descriptors (19 R267) -/

theorem Ctx.bytes_length (c : Ctx) : c.bytes.length = 64 := by
  simp [Ctx.bytes, leBytes_length]

/-- The fields of a context's descriptor at an address (R267). -/
structure Memory.DescAt (mem : Memory) (x : Nat) (c : Ctx) : Prop where
  root    : leNat (mem.read x 8) = c.desc.root
  keymask : leNat (mem.read (x + 8) 2) = c.desc.keymask.toNat
  flags   : leNat (mem.read (x + 10) 1) =
    c.desc.kmode.toNat + 2 * c.desc.lright.toNat + 4 * c.desc.policy.toNat + 8 * c.desc.svcok.toNat
  rlimit  : leNat (mem.read (x + 11) 1) = c.desc.rlimit
  ctxno   : leNat (mem.read (x + 12) 4) = c.desc.ctxno
  fqbase  : leNat (mem.read (x + 16) 8) = c.desc.fqbase
  fqsize  : leNat (mem.read (x + 24) 4) = c.desc.fqsize
  fqhead  : leNat (mem.read (x + 28) 4) = c.fqhead.toNat
  fqtail  : leNat (mem.read (x + 32) 4) = c.desc.fqtail.toNat
  fqovf   : leNat (mem.read (x + 36) 4) = c.fqovf.toNat

theorem read_field {mem : Memory} {x n v : Nat} (h : mem.read x n = leBytes v n) (hv : v < 256 ^ n) : leNat (mem.read x n) = v := by
  rw [h, leNat_leBytes, Nat.mod_eq_of_lt hv]

theorem descOk_bounds {d : CtxDesc} (h : descOk d = true) : d.root < 2 ^ 56 ∧ d.rlimit < 256 ∧ d.ctxno < 65536 ∧ d.fqbase < 2 ^ 56 ∧
    d.fqsize ≤ 65536 := by
  simp only [descOk, Bool.and_eq_true, decide_eq_true_eq, List.any_eq_true, List.mem_range, beq_iff_eq] at h
  obtain ⟨⟨⟨⟨⟨⟨⟨⟨-, hno⟩, -⟩, -⟩, hroot⟩, hlimit⟩, -⟩, hbase⟩, i, hi, hsize⟩ := h
  refine ⟨hroot, hlimit, hno, hbase, ?_⟩
  rw [hsize]
  exact Nat.pow_le_pow_right (by decide) (by omega : 7 + i ≤ 16)

/-- The bytes of a descriptor that stand at an address say its fields. -/
theorem Memory.descAt_of_read {mem : Memory} {x : Nat} {c : Ctx} (hok : descOk c.desc = true) (h : mem.read x 64 = c.bytes) : mem.DescAt x c := by
  obtain ⟨hroot, hlimit, hno, hbase, hsize⟩ := descOk_bounds hok
  rw [show 64 = 8 + (2 + (1 + (1 + (4 + (8 + (4 + (4 + (4 + (4 + 24))))))))) from rfl] at h
  simp only [Memory.read_add, Ctx.bytes, List.append_assoc] at h
  obtain ⟨h1, h⟩ := List.append_inj h (by rw [Memory.read_length, leBytes_length])
  obtain ⟨h2, h⟩ := List.append_inj h (by rw [Memory.read_length, leBytes_length])
  obtain ⟨h3, h⟩ := List.append_inj h (by rw [Memory.read_length, leBytes_length])
  obtain ⟨h4, h⟩ := List.append_inj h (by rw [Memory.read_length, leBytes_length])
  obtain ⟨h5, h⟩ := List.append_inj h (by rw [Memory.read_length, leBytes_length])
  obtain ⟨h6, h⟩ := List.append_inj h (by rw [Memory.read_length, leBytes_length])
  obtain ⟨h7, h⟩ := List.append_inj h (by rw [Memory.read_length, leBytes_length])
  obtain ⟨h8, h⟩ := List.append_inj h (by rw [Memory.read_length, leBytes_length])
  obtain ⟨h9, h⟩ := List.append_inj h (by rw [Memory.read_length, leBytes_length])
  obtain ⟨h10, -⟩ := List.append_inj h (by rw [Memory.read_length, leBytes_length])
  have hb (b : Bool) : b.toNat ≤ 1 := Bool.toNat_le b
  have hflags : c.desc.kmode.toNat + 2 * c.desc.lright.toNat + 4 * c.desc.policy.toNat + 8 * c.desc.svcok.toNat < 256 := by
    have := hb c.desc.kmode
    have := hb c.desc.lright
    have := hb c.desc.policy
    have := hb c.desc.svcok
    omega
  exact ⟨read_field h1 (by omega), read_field h2 c.desc.keymask.isLt, read_field h3 hflags, read_field h4 hlimit,
    read_field h5 (by omega), read_field h6 (by omega), read_field h7 (by omega), read_field h8 c.fqhead.isLt,
    read_field h9 c.desc.fqtail.isLt, read_field h10 c.fqovf.isLt⟩

theorem Mach.ctxResident_iff (m : Mach) (ctx : Nat) : m.ctxResident ctx = true ↔
    ∃ t ∈ m.teams, t.ctx = ctx ∧ (t.status = .running ∨ t.status = .stopping ∨ t.status = .retired) := by
  simp only [Mach.ctxResident, List.any_eq_true, Bool.and_eq_true, beq_iff_eq, Team.occupies_iff]

/-- A context's descriptor as the firmware rewrites it. -/
def Ctx.redescribed (d : CtxDesc) (c : Ctx) : Ctx := { c with desc := d }

/-- A machine with a new context, whose descriptor stands on the next page of the firmware's region. -/
def Mach.withCtx (m : Mach) (d : CtxDesc) : Mach := { m with
  fwBase := m.fwBase + 4096, ctxs := m.ctxs ++ [newCtx d m.fwBase] }

theorem Mach.ctx?_withCtx {m : Mach} {d : CtxDesc} (hn : m.ctx? d.ctxno = none) : (m.withCtx d).ctx? d.ctxno = some (newCtx d m.fwBase) := by
  unfold Mach.ctx? at hn ⊢
  rw [Mach.withCtx, List.find?_append, hn]
  exact List.find?_cons_of_pos (p := fun x : Ctx => x.desc.ctxno == d.ctxno) (beq_self_eq_true d.ctxno)

theorem Mach.ctx?_redescribed {m : Mach} {d : CtxDesc} {c : Ctx} (hc : m.ctx? d.ctxno = some c) :
    (m.updCtx d.ctxno (Ctx.redescribed d)).ctx? d.ctxno = some (c.redescribed d) := by
  have hno : c.desc.ctxno = d.ctxno := by simpa using List.find?_some hc
  have hsame : ((fun x : Ctx => x.desc.ctxno == d.ctxno) ∘ fun x => if x.desc.ctxno == d.ctxno then Ctx.redescribed d x else x) =
      fun x : Ctx => x.desc.ctxno == d.ctxno := by
    funext x
    by_cases hx : x.desc.ctxno = d.ctxno <;> simp [hx, Ctx.redescribed]
  simp only [Mach.ctx?, Mach.updCtx, List.find?_map] at hc ⊢
  rw [hsame, hc]
  simp [hno]

section
variable {s : State} {d : CtxDesc}

theorem changeDesc_bad (h : descOk d = false) : changeDesc d s = reply 2 s := if_pos (by rw [h]; rfl)

theorem changeDesc_new (h : descOk d = true) (hn : s.m.ctx? d.ctxno = none) (hat : s.m.atHome s.m.fwBase) : changeDesc d s = .next { s with
    m := (s.m.withCtx d).put s.m.fwBase (newCtx d s.m.fwBase).bytes, sys := { s.sys with answer := 0 } } := by
  unfold changeDesc
  rw [if_neg (by rw [h]; exact Bool.false_ne_true), hn]
  refine congrArg (fun m => Host.Outcome.next { s with m := m, sys := { s.sys with answer := 0 } }) ?_
  change (s.m.withCtx d).writeDesc d.ctxno = _
  unfold Mach.writeDesc
  rw [Mach.ctx?_withCtx hn]
  exact Mach.cohWrite1_put (m := s.m.withCtx d) hat _

theorem changeDesc_denied {c : Ctx} (h : descOk d = true) (hc : s.m.ctx? d.ctxno = some c) (hlive : s.m.ctxResident d.ctxno = true)
    (hne : d ≠ { c.desc with fqtail := d.fqtail }) : changeDesc d s = reply 2 s := by
  unfold changeDesc
  rw [if_neg (by rw [h]; exact Bool.false_ne_true), hc]
  exact (if_neg (mt beq_iff_eq.1 (Ne.symm hne))).trans (if_pos hlive)

theorem changeDesc_tail {c : Ctx} (h : descOk d = true) (hc : s.m.ctx? d.ctxno = some c) (heq : d = { c.desc with fqtail := d.fqtail })
    (hat : s.m.atHome (c.addr + 32)) : changeDesc d s = .next { s with
      m := (s.m.updCtx d.ctxno (Ctx.redescribed d)).put (c.addr + 32) (leBytes d.fqtail.toNat 4), sys := { s.sys with answer := 0 } } := by
  unfold changeDesc
  rw [if_neg (by rw [h]; exact Bool.false_ne_true), hc]
  refine (if_pos (beq_iff_eq.2 heq.symm)).trans ?_
  refine congrArg (fun m => Host.Outcome.next { s with m := m, sys := { s.sys with answer := 0 } }) ?_
  exact Mach.cohWrite1_put (m := s.m.updCtx d.ctxno (Ctx.redescribed d)) hat _

theorem changeDesc_whole {c : Ctx} (h : descOk d = true) (hc : s.m.ctx? d.ctxno = some c) (hlive : s.m.ctxResident d.ctxno = false)
    (hne : d ≠ { c.desc with fqtail := d.fqtail }) (hat : s.m.atHome c.addr) : changeDesc d s = .next { s with
      m := (s.m.updCtx d.ctxno (Ctx.redescribed d)).put c.addr ({ c with desc := d } : Ctx).bytes, sys := { s.sys with answer := 0 } } := by
  unfold changeDesc
  rw [if_neg (by rw [h]; exact Bool.false_ne_true), hc]
  refine (if_neg (mt beq_iff_eq.1 (Ne.symm hne))).trans ((if_neg (by rw [hlive]; exact Bool.false_ne_true)).trans ?_)
  refine congrArg (fun m => Host.Outcome.next { s with m := m, sys := { s.sys with answer := 0 } }) ?_
  change Mach.writeDesc (s.m.updCtx d.ctxno (Ctx.redescribed d)) d.ctxno = _
  unfold Mach.writeDesc
  rw [Mach.ctx?_redescribed hc]
  exact Mach.cohWrite1_put (m := s.m.updCtx d.ctxno (Ctx.redescribed d)) hat _

end

/-! ### The debug interface (20 R287) -/

/-- A machine that a debugger has let go of: the context's teams may run again. -/
def Mach.resumed (m : Mach) (ctx : Nat) : Mach := { (m.updCtx ctx fun c => { c with halted := false }) with
  teams := m.teams.map fun (t : Team) => if t.ctx = ctx then { t with brk := false } else t }

section
variable {s : State} {ctx : Nat}

theorem debugResume_eq (hlive : s.sys.silent = false) (hp : s.sys.power ≠ .pkgSleep) (es : List DebugEdit) :
    exec (.debugResume ⟨ctx, es⟩) s = .next { s with
      m := (if s.sys.debug = .halt then s.m.edits ctx es else s.m).resumed ctx, sys := { s.sys with answer := 0 } } := by
  refine (call_live hlive _).trans ((if_neg (mt beq_iff_eq.1 hp)).trans ?_)
  simp only [beq_iff_eq]
  rfl

theorem debugResume_plain (hlive : s.sys.silent = false) (hp : s.sys.power ≠ .pkgSleep) {es : List DebugEdit}
    (h : es = [] ∨ s.sys.debug ≠ .halt) :
    exec (.debugResume ⟨ctx, es⟩) s = .next { s with m := s.m.resumed ctx, sys := { s.sys with answer := 0 } } := by
  rw [debugResume_eq hlive hp]
  rcases h with rfl | h
  · rw [show s.m.edits ctx [] = s.m from rfl, ite_self]
  · rw [if_neg h]

end

/-- A saved team of a context in HALT, which the debug interface may write. -/
structure State.Editable (s : State) (ctx : Nat) (t : Team) : Prop where
  live   : s.sys.silent = false
  awake  : s.sys.power ≠ .pkgSleep
  halt   : s.sys.debug = .halt
  team   : s.m.team? t.uid = some t
  ofCtx  : t.ctx = ctx
  saved  : t.status = .saved

section
variable {s : State} {ctx : Nat} {t : Team} {e : DebugEdit}

theorem State.Editable.resume (h : s.Editable ctx t) (he : editTeam e = t.uid) : exec (.debugResume ⟨ctx, [e]⟩) s = .next { s with
    m := (s.m.edit e).resumed ctx, sys := { s.sys with answer := 0 } } := by
  rw [debugResume_eq h.live h.awake, if_pos h.halt]
  refine congrArg (fun m : Mach => Host.Outcome.next { s with m := m.resumed ctx, sys := { s.sys with answer := 0 } }) ?_
  unfold Mach.edits
  dsimp only [List.foldl_cons, List.foldl_nil]
  rw [he, h.team]
  exact if_pos (by simp [h.ofCtx, h.saved])

/-- What the debugger wrote of a thread stands. -/
theorem State.Editable.thread (h : s.Editable ctx t) {u : TRef} {x : Thread} (hx : s.m.thread? u = some x) (he : editTeam e = t.uid)
    (f : Thread → Thread) (hf : ∀ x, (f x).ref = x.ref) (hed : (s.m.edit e).threads = (s.m.updThread u f).threads)
    (hmem : (s.m.edit e).mem = s.m.mem) : ∃ m, exec (.debugResume ⟨ctx, [e]⟩) s = .next { s with m := m, sys := { s.sys with answer := 0 } } ∧
      m.mem = s.m.mem ∧ m.thread? u = some (f x) := by
  refine ⟨_, h.resume he, hmem, ?_⟩
  have hnew := Mach.thread?_updThread_same hx hf
  unfold Mach.thread? at hnew ⊢
  rw [show ((s.m.edit e).resumed ctx).threads = (s.m.updThread u f).threads from hed]
  exact hnew

/-- What the debugger wrote of a team stands. -/
theorem State.Editable.written (h : s.Editable ctx t) (he : editTeam e = t.uid) (f : Team → Team) (hf : ∀ x, (f x).uid = x.uid)
    (hctx : (f t).ctx = t.ctx) (hed : (s.m.edit e).teams = (s.m.updTeam t.uid f).teams) :
    ∃ m, exec (.debugResume ⟨ctx, [e]⟩) s = .next { s with m := m, sys := { s.sys with answer := 0 } } ∧
      m.team? t.uid = some { f t with brk := false } := by
  refine ⟨_, h.resume he, ?_⟩
  have hnew := s.m.team?_updTeam t.uid f hf
  rw [h.team] at hnew
  have hkey : (fun x : Team => x.uid == t.uid) ∘ (fun x : Team => if x.ctx = ctx then { x with brk := false } else x) =
      fun x => x.uid == t.uid := by
    funext x
    by_cases hxc : x.ctx = ctx <;> simp [hxc]
  unfold Mach.team? at hnew ⊢
  change (((s.m.edit e).teams.map fun x : Team => if x.ctx = ctx then { x with brk := false } else x).find? _) = _
  rw [List.find?_map, hkey, hed, hnew, Option.map_some, Option.map_some, if_pos (hctx.trans h.ofCtx)]

/-- What the debugger wrote of a group stands. -/
theorem State.Editable.group (h : s.Editable ctx t) {i : Nat} {y : Group} (hy : s.m.group? t.uid i = some y) (he : editTeam e = t.uid)
    (f : Group → Group) (hf : ∀ g, (f g).team = g.team ∧ (f g).index = g.index)
    (hed : (s.m.edit e).groups = (s.m.updGroup t.uid i f).groups) :
    ∃ m, exec (.debugResume ⟨ctx, [e]⟩) s = .next { s with m := m, sys := { s.sys with answer := 0 } } ∧ m.group? t.uid i = some (f y) := by
  refine ⟨_, h.resume he, ?_⟩
  have hnew := s.m.group?_updGroup t.uid i f hf
  rw [hy] at hnew
  unfold Mach.group? at hnew ⊢
  rw [show ((s.m.edit e).resumed ctx).groups = (s.m.updGroup t.uid i f).groups from hed]
  exact hnew

/-- DEBUG_HALT of a context's lone team whose method is a save. -/
theorem debugHalt_lone (hlive : s.sys.silent = false) (hp : s.sys.power ≠ .pkgSleep) (hd : s.sys.debug = .halt) (ht : s.m.teams = [t])
    (hctx : t.ctx = ctx) (hrun : t.status = .running) (hpre : t.preempt = none) (hsave : t.shepherd = true ∨ s.m.methodFor t = .save) :
    ∃ m, exec (.debugHalt ctx) s = .next { s with m := m, sys := { s.sys with answer := 0 } } ∧
      m.ctxs = (s.m.updCtx ctx fun c => { c with halted := true }).ctxs ∧
      m.teams = [Team.asked .save s.m.clk (if t.hurdles = [] then none else some s.m.clk) t.shepherd t] := by
  have hteam : (s.m.updCtx ctx fun c => { c with halted := true }).team? t.uid = some t := by
    unfold Mach.team?
    rw [show (s.m.updCtx ctx fun c => { c with halted := true }).teams = [t] from ht]
    exact List.find?_cons_of_pos (p := fun x : Team => x.uid == t.uid) (beq_self_eq_true t.uid)
  have hone : (s.m.teams.filter fun t => t.ctx == ctx && t.status == .running) = [t] := by
    rw [ht, List.filter_cons_of_pos (by simp [hctx, hrun])]
    rfl
  have hhalt : s.m.halt ctx = (s.m.updCtx ctx fun c => { c with halted := true }).updTeam t.uid
      (Team.asked .save s.m.clk (if t.hurdles = [] then none else some s.m.clk) t.shepherd) := by
    unfold Mach.halt
    rw [hone]
    dsimp only [List.foldl_cons, List.foldl_nil]
    by_cases hs : t.shepherd = true
    · rw [if_pos hs, hpre, hs]
      exact Mach.beginPreempt_save_or hteam hrun true
    · have hreq := requestPreempt_free (s := { s with m := s.m.updCtx ctx fun c => { c with halted := true } }) hteam hpre
      rw [if_neg hs, hreq, Bool.eq_false_iff.2 hs, show (s.m.updCtx ctx fun c => { c with halted := true }).methodFor t = .save from
        hsave.resolve_left hs]
      exact Mach.beginPreempt_save_or hteam hrun false
  refine ⟨s.m.halt ctx, ?_, by rw [hhalt]; rfl, ?_⟩
  · exact (call_live hlive _).trans ((if_neg (mt beq_iff_eq.1 hp)).trans (if_neg (by rw [hd]; decide)))
  · rw [hhalt]
    change s.m.teams.map _ = _
    rw [ht, List.map_singleton, beq_self_eq_true]
    rfl

end

end Sys2Proof.Machine
end

section
/-! SUPPORT. The firmware's calls put together (15 R222-R227; 19 R267, R270, R387; 20 R280-R287). -/

namespace Sys2Proof.Machine

/-! ### The launch of a record (15 R222, R226) -/

/-- What a launch takes from the fields `f` of its record and its kernel's descriptor. -/
structure Launch.Reads (l : Launch) (f : Nat → Nat → Nat) (k : Kernel) : Prop where
  ctx     : l.ctx = f 28 4
  entry   : l.entry.toNat = f 0 8
  argp    : l.argp.toNat = f 8 8
  folds   : l.folds = f 16 4
  threads : l.threads = orElse (f 20 2) k.threads
  teams   : l.teams = orElse (f 22 1) k.teams
  regs    : l.regs = orElse (f 23 1) k.regs
  scr     : l.scr = orElse (f 24 2) k.scr
  tiles   : l.tiles = f 26 1
  prio    : l.prio = f 27 1 % 4
  idem    : l.idem = ((f 27 1).testBit 2 || k.idem)
  rstr    : l.rstr = ((f 27 1).testBit 3 || k.rstr)
  csa     : l.csa = f 64 8
  csv     : l.csv.toNat = f 72 8
  dep0    : l.dep0 = if f 32 8 = 0 then none else some (f 32 8, BitVec.ofNat 64 (f 40 8))
  dep1    : l.dep1 = if f 48 8 = 0 then none else some (f 48 8, BitVec.ofNat 64 (f 56 8))

theorem field_word (bs : List Byte) (off : Nat) : (BitVec.ofNat 64 (field bs off 8)).toNat = field bs off 8 := by
  rw [BitVec.toNat_ofNat]
  exact Nat.mod_eq_of_lt (field_lt bs off 8)

theorem State.described_reads {s : State} {bs : List Byte} {f : Nat → Nat → Nat} (hf : ∀ {x n : Nat}, x + n ≤ 128 → field bs x n = f x n)
    (o : Object) (k : Kernel) : (s.described bs o k).Reads f k := by
  obtain ⟨hthreads, hteams, hregs, hscr, hidem, hrstr⟩ := launchOf_fields bs (field bs 28 4) s.m.uid o k
  rw [hf (by decide : 20 + 2 ≤ 128)] at hthreads
  rw [hf (by decide : 22 + 1 ≤ 128)] at hteams
  rw [hf (by decide : 23 + 1 ≤ 128)] at hregs
  rw [hf (by decide : 24 + 2 ≤ 128)] at hscr
  rw [hf (by decide : 27 + 1 ≤ 128)] at hidem hrstr
  exact {
    ctx := hf (by decide), entry := (field_word bs 0).trans (hf (by decide)), argp := (field_word bs 8).trans (hf (by decide))
    folds := hf (by decide), threads := hthreads, teams := hteams, regs := hregs, scr := hscr, tiles := hf (by decide)
    prio := congrArg (· % 4) (hf (by decide)), idem := hidem, rstr := hrstr, csa := hf (by decide)
    csv := (field_word bs 72).trans (hf (by decide))
    dep0 := by rw [← hf (by decide : 32 + 8 ≤ 128), ← hf (by decide : 40 + 8 ≤ 128)]; exact depOf_eq bs 32
    dep1 := by rw [← hf (by decide : 48 + 8 ≤ 128), ← hf (by decide : 56 + 8 ≤ 128)]; exact depOf_eq bs 48 }

theorem Launch.Reads.watching {l : Launch} {f : Nat → Nat → Nat} {k : Kernel} (h : l.Reads f k) (p0 : Option (Nat × Nat × Nat)) (r0 b0 : Bool)
    (p1 : Option (Nat × Nat × Nat)) (r1 b1 : Bool) : ((l.watching0 p0 r0 b0).watching1 p1 r1 b1).Reads f k :=
  ⟨h.ctx, h.entry, h.argp, h.folds, h.threads, h.teams, h.regs, h.scr, h.tiles, h.prio, h.idem, h.rstr, h.csa, h.csv, h.dep0, h.dep1⟩

/-! ### Keys (20 R286) -/

section
variable {s : State} {key : PubKey} {signed : Bool}

theorem enrolKey_new (hmay : s.sys.enrols signed = true) (hnew : key ∉ s.sys.keys) (hroom : s.sys.keys.length < 8) :
    enrolKey key signed s = .next { s with sys := { s.sys with keys := s.sys.keys ++ [key], answer := 0 } } := by
  have hno : s.sys.keys.contains key = false := Bool.eq_false_iff.2 fun h => hnew (List.contains_iff_mem.1 h)
  unfold enrolKey
  rw [hmay, hno]
  exact if_pos (by simpa using hroom)

theorem enrolKey_known (hmay : s.sys.enrols signed = true) (hold : key ∈ s.sys.keys) :
    enrolKey key signed s = .next { s with sys := { s.sys with answer := 0 } } := by
  unfold enrolKey
  rw [hmay, List.contains_iff_mem.2 hold]
  rfl

theorem enrolKey_denied (h : s.sys.enrols signed = false ∨ (key ∉ s.sys.keys ∧ 8 ≤ s.sys.keys.length)) : enrolKey key signed s = reply 2 s := by
  refine if_neg ?_
  simp only [Bool.and_eq_true, Bool.or_eq_true, List.contains_iff_mem, decide_eq_true_eq]
  rintro ⟨hmay, hin | hroom⟩
  · rcases h with h | ⟨h, -⟩
    · rw [h] at hmay
      exact absurd hmay Bool.false_ne_true
    · exact h hin
  · rcases h with h | ⟨-, h⟩
    · rw [h] at hmay
      exact absurd hmay Bool.false_ne_true
    · omega

end

/-! ### LOADOBJ (20 R280-R282) -/

/-- An object that has been read whole: its header is in order. -/
structure State.Read (s : State) (pa : Nat) (hd : List Byte) (h : Header) (m1 m2 : Mach) (bs : List Byte) : Prop where
  live   : s.sys.silent = false
  head   : s.m.finishUnloads.readObject 4 pa 256 = (m1, some hd)
  header : h = headerOf hd
  ok     : headerOk hd h = true
  whole  : m1.readObject (h.sigOff / 128 + 3) pa (h.sigOff + 96) = (m2, some bs)

section
variable {s : State} {pa ctx cb db : Nat} {hd bs : List Byte} {h : Header} {m1 m2 : Mach}

/-- The verified-object cache behind an object that has passed check 3 (R281). -/
def Sys.verifiedBy (y : Sys) (key : BitVec 384 × BitVec 384) : Sys :=
  if y.verified.contains key then y else { y with verified := (key :: y.verified).take 1024 }

theorem Sys.verifiedBy_cache {y : Sys} {key : BitVec 384 × BitVec 384} {n : Nat} (h1 : n ≠ 1) (h2 : n ≠ 2) (h3 : n ≠ 3) (a d : Nat) :
    ({ y with verified := cacheAfter y key n, answer := a, detail := d } : Sys) = { y.verifiedBy key with answer := a, detail := d } := by
  rw [cacheAfter_passed h1 h2 h3, Sys.verifiedBy]
  split <;> rfl

theorem State.Read.fails (hr : s.Read pa hd h m1 m2 bs) {n : Nat} (hst : loadStatus s.sys m2 bs h (sha384 (bs.take h.sigOff)) ctx cb db = n + 1) :
    exec (.loadobj pa ctx cb db) s = .next { s with m := m2, sys := { s.sys with
      verified := cacheAfter s.sys (sha384 (bs.take h.sigOff), h.signer) (n + 1), answer := n + 1, detail := 0 } } :=
  loadobj_read hr.live hr.head hr.header hr.ok hr.whole rfl hst

theorem State.Read.loads (hr : s.Read pa hd h m1 m2 bs) (hst : loadStatus s.sys m2 bs h (sha384 (bs.take h.sigOff)) ctx cb db = 0) :
    exec (.loadobj pa ctx cb db) s = .next { s with m := m2.mapObject bs h ctx cb db, sys := { s.sys with
      verified := cacheAfter s.sys (sha384 (bs.take h.sigOff), h.signer) 0, answer := 0
      detail := ((codeWords bs h).filter isDeprecated).length } } :=
  loadobj_read hr.live hr.head hr.header hr.ok hr.whole rfl hst

/-- An object that passes check 3 and a later one fails. -/
theorem State.Read.rejects (hr : s.Read pa hd h m1 m2 bs) {n : Nat} (hst : loadStatus s.sys m2 bs h (sha384 (bs.take h.sigOff)) ctx cb db = n + 4) :
    exec (.loadobj pa ctx cb db) s = .next { s with m := m2, sys := { s.sys.verifiedBy (sha384 (bs.take h.sigOff), h.signer) with
      answer := n + 4, detail := 0 } } := by
  rw [← Sys.verifiedBy_cache (n := n + 4) (by omega) (by omega) (by omega)]
  exact hr.fails (n := n + 3) hst

theorem State.Read.maps (hr : s.Read pa hd h m1 m2 bs) (hst : loadStatus s.sys m2 bs h (sha384 (bs.take h.sigOff)) ctx cb db = 0) :
    exec (.loadobj pa ctx cb db) s = .next { s with
      m := m2.mapObject bs h ctx cb db
      sys := { s.sys.verifiedBy (sha384 (bs.take h.sigOff), h.signer) with
        answer := 0, detail := ((codeWords bs h).filter isDeprecated).length } } := by
  rw [← Sys.verifiedBy_cache (n := 0) (by decide) (by decide) (by decide)]
  exact hr.loads hst

/-- The sections of an object that has been read lie within it. -/
theorem State.Read.sections (hr : s.Read pa hd h m1 m2 bs) : ((bs.drop h.codeOff).take h.codeLen).length = h.codeLen ∧
    ((bs.drop h.dataOff).take h.dataLen).length = h.dataLen := by
  have hlen := Mach.readObject_length (.inr (by omega)) hr.whole
  obtain ⟨hcode, hdata⟩ := headerOk_sections hr.ok
  exact ⟨section_length (by omega), section_length (by omega)⟩

end

theorem Mach.spaceFree_ctx {m : Mach} {ctx cb db : Nat} {h : Header} (hf : m.spaceFree ctx cb db h = true) : ∃ c, m.ctx? ctx = some c := by
  simp only [Mach.spaceFree, Bool.and_eq_true] at hf
  exact Option.isSome_iff_exists.1 hf.1.1.1.1.1.1

/-! ### Context descriptors (19 R267) -/

theorem Mach.put_stored {m n : Mach} (h : n.mem = m.mem) (hw : m.mem.wf = true) (pa : Nat) (bs : List Byte) :
    m.mem.Stored (n.put pa bs).mem pa bs := fun x => by
  rw [← h] at hw ⊢
  exact Memory.get_write pa x bs hw

theorem Mach.read_put {n : Mach} (hw : n.mem.wf = true) (pa : Nat) (bs : List Byte) : (n.put pa bs).mem.read pa bs.length = bs :=
  Memory.read_write pa bs hw

/-- A new context's descriptor stands at the start of the firmware's region. -/
theorem changeDesc_described {s : State} {d : CtxDesc} (hok : descOk d = true) (hn : s.m.ctx? d.ctxno = none) (hw : s.m.mem.wf = true)
    (hat : s.m.atHome s.m.fwBase) : ∃ m, changeDesc d s = .next { s with m := m, sys := { s.sys with answer := 0 } } ∧
      m.ctxs = s.m.ctxs ++ [newCtx d s.m.fwBase] ∧ m.mem.DescAt s.m.fwBase (newCtx d s.m.fwBase) ∧
      ∀ y, y < s.m.fwBase ∨ s.m.fwBase + 64 ≤ y → m.mem.get y = s.m.mem.get y := by
  have hlen := (newCtx d s.m.fwBase).bytes_length
  have hstored := Mach.put_stored (n := s.m.withCtx d) rfl hw s.m.fwBase (newCtx d s.m.fwBase).bytes
  have hread := Mach.read_put (n := s.m.withCtx d) hw s.m.fwBase (newCtx d s.m.fwBase).bytes
  rw [hlen] at hread
  refine ⟨_, changeDesc_new hok hn hat, rfl, Memory.descAt_of_read (c := newCtx d s.m.fwBase) hok hread, fun y hy => ?_⟩
  exact (hstored y).trans (if_neg (by rw [hlen]; omega))

/-! ### What the debugger writes (20 R287) -/

section
variable {s : State} {ctx : Nat} {t : Team}

theorem State.Editable.threads (h : s.Editable ctx t) {u : TRef} {x : Thread} (hx : s.m.thread? u = some x) (hu : u.team = t.uid) (r : Reg)
    (b : Word) (g : Tag) (k : Byte) (v : DWord) :
    ∀ p ∈ [(DebugEdit.reg u r b g, x.setRegs r.toNat [{ bits := b, tag := g }]),
        (.preds u k, { x with preds := k ||| 1 }), (.pc u v, { x with pc := v }), (.sys u .fltPc v, { x with fltPc := v }),
        (.sys u .frm v, { x with frm := v.setWidth 32 &&& 7 }), (.sub u (v ++ v) g, { x with fltSub := { bits := v ++ v, tag := g } }),
        (.latch u (some (r.toNat, [(b, g)])), { x with latch := some { a := r.toNat, regs := [{ bits := b, tag := g }] } }),
        (.wait u .ready, { x with wait := .ready }), (.wait u (.held 7), { x with wait := .held 7 }),
        (.wait u .xfen, { x with wait := .xfen }), (.wait u (.counts 1 2 3 4), { x with wait := .counts 1 2 3 4 }),
        (.wait u (.service k.toNat), { x with wait := .service k.toNat }),
        (.handler u true false v, { x with handlerActive := true, written := false, resume := v })],
      ∃ m, exec (.debugResume ⟨ctx, [p.1]⟩) s = .next { s with m := m, sys := { s.sys with answer := 0 } } ∧ m.mem = s.m.mem ∧
        m.thread? u = some p.2 := by
  have hwrites (e : DebugEdit) (he : editTeam e = u.team) (f : Thread → Thread) (hf : ∀ x, (f x).ref = x.ref)
      (hed : (s.m.edit e).threads = (s.m.updThread u f).threads) (hmem : (s.m.edit e).mem = s.m.mem) := h.thread hx (he.trans hu) f hf hed hmem
  simp only [List.forall_mem_cons]
  refine ⟨hwrites _ rfl (fun x => x.setRegs r.toNat [{ bits := b, tag := g }]) (fun _ => rfl) rfl rfl,
    hwrites _ rfl (fun x => { x with preds := k ||| 1 }) (fun _ => rfl) rfl rfl, hwrites _ rfl (fun x => { x with pc := v }) (fun _ => rfl) rfl rfl,
    hwrites _ rfl (fun x => x.debugSys .fltPc v) (fun _ => rfl) rfl rfl, hwrites _ rfl (fun x => x.debugSys .frm v) (fun _ => rfl) rfl rfl,
    hwrites _ rfl (fun x => { x with fltSub := { bits := v ++ v, tag := g } }) (fun _ => rfl) rfl rfl,
    hwrites _ rfl (fun x => { x with latch := some { a := r.toNat, regs := [{ bits := b, tag := g }] } }) (fun _ => rfl) rfl rfl,
    hwrites _ rfl (fun x => { x with wait := .ready }) (fun _ => rfl) rfl rfl, hwrites _ rfl (fun x => { x with wait := .held 7 }) (fun _ => rfl) rfl rfl,
    hwrites _ rfl (fun x => { x with wait := .xfen }) (fun _ => rfl) rfl rfl,
    hwrites _ rfl (fun x => { x with wait := .counts 1 2 3 4 }) (fun _ => rfl) rfl rfl,
    hwrites _ rfl (fun x => { x with wait := .service k.toNat }) (fun _ => rfl) rfl rfl,
    hwrites _ rfl (fun x => { x with handlerActive := true, written := false, resume := v }) (fun _ => rfl) rfl rfl,
    fun _ h => absurd h List.not_mem_nil⟩

theorem State.Editable.masks (h : s.Editable ctx t) {i : Nat} {y : Group} (n : Nat) (w : Word) (hy : s.m.group? t.uid i = some y) :
    ∀ p ∈ [(false, { y with e := y.e.set n w }), (true, { y with p := y.p.set n w })],
      ∃ m, exec (.debugResume ⟨ctx, [.mask t.uid i n p.1 w]⟩) s = .next { s with m := m, sys := { s.sys with answer := 0 } } ∧
        m.group? t.uid i = some p.2 := by
  simp only [List.forall_mem_cons]
  exact ⟨h.group hy rfl (fun g => { g with e := g.e.set n w }) (fun _ => ⟨rfl, rfl⟩) rfl,
    h.group hy rfl (fun g => { g with p := g.p.set n w }) (fun _ => ⟨rfl, rfl⟩) rfl, fun _ h => absurd h List.not_mem_nil⟩

theorem Team.debugSys_taskst (t : Team) : t.debugSys .taskst (1 <<< 31) = { t with
    nr := true, fp := false, defer := false, restarts := 0, known := [], latent := [] } := by
  have h30 : (1 <<< 31 : DWord).getLsbD 30 = false := by decide
  unfold Team.debugSys
  dsimp only
  rw [h30, Bool.and_false]
  rfl

theorem State.Editable.teams (h : s.Editable ctx t) (o : Nat) (b : Byte) (v : DWord) :
    ∀ p ∈ [(DebugEdit.scratch t.uid o b, { t with scratch := t.scratch.set o b, brk := false }),
        (.tile t.uid o b, { t with tileMem := t.tileMem.set o b, brk := false }),
        (.queue t.uid o b, { t with qmem := t.qmem.set o b, brk := false }),
        (.tileTag t.uid o .i32, { t with tileTags := t.tileTags.set o .i32, brk := false }),
        (.sys { team := t.uid, tidx := o } .argp v, { t with argp := v, brk := false }),
        (.sys { team := t.uid, tidx := o } .taskid v, { t with taskid := v.setWidth 32, brk := false }),
        (.sys { team := t.uid, tidx := o } .taskst (1 <<< 31), { t with
          nr := true, fp := false, defer := false, restarts := 0, known := [], latent := [], brk := false }),
        (.pushes t.uid o o [], { t with qhead := o, qtail := o, qcmds := [], brk := false })],
      ∃ m, exec (.debugResume ⟨ctx, [p.1]⟩) s = .next { s with m := m, sys := { s.sys with answer := 0 } } ∧ m.team? t.uid = some p.2 := by
  have htaskst := h.written (e := .sys { team := t.uid, tidx := o } .taskst (1 <<< 31)) rfl (fun x => x.debugSys .taskst (1 <<< 31))
    (fun _ => rfl) rfl rfl
  rw [Team.debugSys_taskst] at htaskst
  simp only [List.forall_mem_cons]
  exact ⟨h.written rfl (fun x => { x with scratch := x.scratch.set o b }) (fun _ => rfl) rfl rfl,
    h.written rfl (fun x => { x with tileMem := x.tileMem.set o b }) (fun _ => rfl) rfl rfl,
    h.written rfl (fun x => { x with qmem := x.qmem.set o b }) (fun _ => rfl) rfl rfl,
    h.written rfl (fun x => { x with tileTags := x.tileTags.set o .i32 }) (fun _ => rfl) rfl rfl,
    h.written rfl (fun x => x.debugSys .argp v) (fun _ => rfl) rfl rfl, h.written rfl (fun x => x.debugSys .taskid v) (fun _ => rfl) rfl rfl, htaskst,
    h.written rfl (fun x => { x with qhead := o, qtail := o, qcmds := [] }) (fun _ => rfl) rfl rfl, fun _ h => absurd h List.not_mem_nil⟩

end

/-- Settles O53, call by call. -/
theorem firmwareCalls : Obligations.FirmwareCalls := by
  unfold Obligations.FirmwareCalls
  intro s hlive replies gives
  refine ⟨fun entry arg => ⟨fun hk => ?_, fun o k hk => ⟨fun hoff => ?_, fun hoff hlost ht hl hd => ?_⟩⟩, ?_⟩
  · refine (call_live hlive _).trans ?_
    unfold svcon
    rw [hk]
    rfl
  · refine (call_live hlive _).trans ?_
    unfold svcon
    rw [hk]
    exact if_pos hoff
  · refine (call_live hlive _).trans ?_
    unfold svcon
    rw [hk]
    refine (if_neg (by rw [hoff]; exact Bool.false_ne_true)).trans ?_
    rw [Mach.launchShepherds_all ht hl hd hlost]
    rfl
  intro off held
  refine ⟨fun ⟨b, hb, hf, hh⟩ => svcoff_waits hlive hb hf hh, fun hb ht => svcoff_alone hlive hb ht,
    fun t g x hb hl ht hshep hrun hg hgt hx hxt hxg hw hh => svcoff_lone hlive hb ht hshep hrun hg hgt hx hxt hxg hw hh, ?_⟩
  refine ⟨fun pa hat h128 => ?_, fun pa ctx cb db m1 hd h1 => ?_, fun o ctx => ⟨fun h => unloadobj_unknown hlive h, ?_⟩, fun n hn => ?_,
    fun key signed => ?_, fun nonce => ⟨fun hsec hdeb => ?_, fun hno => ?_⟩, fun d => ?_, fun f bit => ?_, fun d => ?_, fun ctx => ?_⟩
  · intro f ctx
    have hf {x n : Nat} (h : x + n ≤ 128) : field (s.m.mem.read pa 128) x n = f x n := field_read _ _ h
    have hctx : field (s.m.mem.read pa 128) 28 4 = ctx := hf (by decide)
    refine ⟨fun hno => ?_, fun h0 hne => ⟨fun hk => ?_, fun o k hk => ?_⟩⟩
    · by_cases h0 : ctx = 0
      · exact (exec_submit hlive hat h128 rfl).trans (if_pos (beq_iff_eq.2 (hctx.trans h0)))
      · refine (exec_submit hlive hat h128 rfl).trans ((if_neg (mt beq_iff_eq.1 (hctx ▸ h0))).trans ?_)
        rw [submitAs_noCtx 1 (hctx ▸ h0) (by rw [hctx]; exact hno.resolve_left h0)]
    · refine (exec_submit hlive hat h128 rfl).trans ((if_neg (mt beq_iff_eq.1 (hctx ▸ h0))).trans ?_)
      rw [submitAs_noKernel 1 (hctx ▸ h0) (by rw [hctx]; exact hne) (by rw [hctx, hf (by decide)]; exact hk)]
    · have hnames : s.Names pa (s.m.mem.read pa 128) o k :=
        ⟨hlive, hat, h128, rfl, hctx ▸ h0, by rw [hctx]; exact hne, by rw [hctx, hf (by decide)]; exact hk⟩
      have hreads := s.described_reads hf o k
      intro or'
      split
      next threads teams regs scr heq =>
        obtain ⟨rfl, rfl, rfl, rfl⟩ : or' (f 20 2) k.threads = threads ∧ or' (f 22 1) k.teams = teams ∧ or' (f 23 1) k.regs = regs ∧
          or' (f 24 2) k.scr = scr := by simpa only [Prod.mk.injEq] using heq
        intro stamp ok fits queued
        have hok : recordOk (s.m.mem.read pa 128) (s.described (s.m.mem.read pa 128) o k) k = true ↔ ok := by
          rw [recordOk_iff, hreads.folds, hreads.threads, hreads.teams, hreads.regs, hreads.scr, hreads.tiles, hf (by decide), hf (by decide),
            hf (by decide), hf (by decide), hf (by decide)]
          exact Iff.rfl
        have hfits : 4096 * (s.described (s.m.mem.read pa 128) o k).scr + 8192 ≤
            3145728 - 4096 * (s.described (s.m.mem.read pa 128) o k).regs ↔ fits := by
          rw [hreads.scr, hreads.regs]
          exact Iff.rfl
        have hqueue : s.m.queueLen (field (s.m.mem.read pa 128) 28 4) (s.described (s.m.mem.read pa 128) o k).prio = queued.length := by
          rw [hctx, hreads.prio]
          rfl
        refine ⟨fun hbad => submit_badRecord hnames (Bool.eq_false_iff.2 (mt hok.1 hbad)),
          fun hgood hbig => submit_tooLarge hnames (hok.2 hgood) (mt hfits.1 hbig),
          fun hgood hsmall hfull => submit_queueFull hnames (hok.2 hgood) (hfits.2 hsmall) (hqueue ▸ hfull), fun hgood hsmall hroom => ?_⟩
        obtain ⟨m, p0, r0, b0, p1, r1, b1, he, hlast, hlen, hsame⟩ :=
          submit_launches hnames (hok.2 hgood) (hfits.2 hsmall) (hqueue ▸ hroom)
        have hl := hreads.watching p0 r0 b0 p1 r1 b1
        refine ⟨m, _, he, hlast, hlen, fun h0 h1 => hsame ((hf (by decide)).trans h0) ((hf (by decide)).trans h1), hl.ctx, hl.entry, hl.argp,
          hl.folds, hl.threads, hl.teams, hl.regs, hl.scr, hl.tiles, hl.prio, hl.idem, hl.rstr, hl.csa, hl.csv, rfl, ?_, rfl, rfl, rfl, rfl, rfl⟩
        simp only [List.forall_mem_cons]
        exact ⟨hl.dep0, hl.dep1, fun _ h => absurd h List.not_mem_nil⟩
  · intro h
    refine ⟨fun hbad => loadobj_unread hlive h1 hbad, fun m2 bs hok h2 => ?_⟩
    have hr : s.Read pa hd h m1 m2 bs := ⟨hlive, h1, rfl, hok, h2⟩
    intro digest fails
    refine ⟨fun hf => hr.fails (n := 0) (loadStatus_format hf), fun hf hv => hr.fails (n := 1) (loadStatus_revoked hf hv),
      fun hf hv hnew hsig => hr.fails (n := 2) ?_, ?_⟩
    · have hno : s.sys.verified.contains (digest, h.signer) = false := Bool.eq_false_iff.2 fun hc => hnew (List.contains_iff_mem.1 hc)
      rw [loadStatus_signed hf hv, hno, hsig]
      rfl
    intro known y hf hv hpass
    have hstat := loadStatus_signed (m := m2) (dig := digest) (ctx := ctx) (cb := cb) (db := db) hf hv
    rw [if_neg (by rw [hpass]; exact Bool.false_ne_true)] at hstat
    refine ⟨fun hgen => hr.rejects (n := 0) (hstat.trans (if_pos (bne_iff_ne.2 hgen))), fun hgen hstep => hr.rejects (n := 1) ?_,
      fun hgen hstep hfree => hr.rejects (n := 2) ?_, fun hgen hstep hfree => ?_⟩
    · rw [hstat, hgen, hstep]
      rfl
    · rw [hstat, hgen, hstep, hfree]
      rfl
    have hzero := hr.maps (hstat.trans (by rw [hgen, hstep, hfree]; rfl))
    obtain ⟨c, hc⟩ := Mach.spaceFree_ctx hfree
    have hmap := Mach.mapObject_eq hc bs h cb db
    refine ⟨_, loadedObject (m2.mappedBoth c.desc.root bs h cb db).uid bs h ctx cb db, hzero, by rw [hmap], rfl, rfl, rfl, rfl, rfl, rfl, rfl, ?_⟩
    intro c' t1 t2 t3 t4 hc' hw hhome hc0 hc1 hd0 hd1 h4096 h56 htables h4 hne word table hwords
    obtain rfl : c = c' := Option.some.inj (hc.symm.trans hc')
    obtain ⟨hcode, hdata⟩ := hr.sections
    have hway (va : Nat) (hva : va ∈ [cb, db]) : m2.Mapped c.desc.root t1 t2 t3 t4 va := by
      obtain ⟨w4, w3, w2, w1⟩ := hwords va hva
      have hal (t : Nat) (ht : t ∈ [c.desc.root, t1, t2, t3, t4]) : t % 4096 = 0 ∧ t < 2 ^ 56 := by
        have := htables t ht
        omega
      have h0 := hal c.desc.root (by simp)
      have h1 := hal t1 (by simp)
      have h2 := hal t2 (by simp)
      have h3 := hal t3 (by simp)
      have h4 := hal t4 (by simp)
      exact ⟨⟨w4, h0.1, h1.1, h1.2⟩, ⟨w3, h1.1, h2.1, h2.2⟩, ⟨w2, h2.1, h3.1, h3.2⟩, ⟨w1, h3.1, h4.1, h4.2⟩⟩
    have hmem := Mach.mapSections hhome hw (hcode.symm ▸ hc0) (hcode.symm ▸ hc1) (hdata.symm ▸ hd0) (hdata.symm ▸ hd1) h56 htables h4 hne
      (hway cb (by simp)) (hway db (by simp)) rfl
    rw [hcode, hdata] at hmem
    rw [hmap]
    exact hmem
  · rintro ho rfl hun hl
    exact unloadobj_needed hlive ho hun hl
  · obtain ⟨hcount, hsame, hkept⟩ := s.sys.fuses.raiseCosvn_spec hn
    exact ⟨s.sys.fuses.raiseCosvn n, call_live hlive _, hcount, hsame, hkept⟩
  · intro may
    exact ⟨fun hmay hnew hroom => (call_live hlive _).trans (enrolKey_new ((s.sys.enrols_iff signed).2 hmay) hnew hroom),
      fun hmay hold => (call_live hlive _).trans (enrolKey_known ((s.sys.enrols_iff signed).2 hmay) hold),
      fun hno => (call_live hlive _).trans (enrolKey_denied (hno.imp_left fun h => Bool.eq_false_iff.2 (mt (s.sys.enrols_iff signed).1 h)))⟩
  · exact (call_live hlive _).trans (if_pos (by simp [hsec, hdeb]))
  · refine (call_live hlive _).trans (if_neg ?_)
    simp only [Bool.and_eq_true, beq_iff_eq]
    exact fun hb => hno.elim (fun h => h hb.1) fun h => h hb.2
  · refine ⟨fun hbad => (call_live hlive _).trans (changeDesc_bad hbad), fun hok => ?_⟩
    intro base
    refine ⟨fun hn hw hat => ?_, fun c hc => ?_⟩
    · obtain ⟨m, he, hctxs, hd, hrest⟩ := changeDesc_described hok hn hw hat
      exact ⟨m, (call_live hlive _).trans he, hctxs, hd.root, hd.keymask, hd.flags, hd.rlimit, hd.ctxno, hd.fqbase, hd.fqsize, hd.fqhead,
        hd.fqtail, hd.fqovf, hrest⟩
    · intro live takes
      have hlive' : s.m.ctxResident d.ctxno = true ↔ live := s.m.ctxResident_iff d.ctxno
      refine ⟨fun hl hne => (call_live hlive _).trans (changeDesc_denied hok hc (hlive'.2 hl) hne), fun heq hw hat => ?_, fun hl hne hw hat => ?_⟩
      · exact ⟨_, (call_live hlive _).trans (changeDesc_tail hok hc heq hat), rfl, Mach.put_stored rfl hw _ _⟩
      · exact ⟨_, (call_live hlive _).trans (changeDesc_whole hok hc (Bool.eq_false_iff.2 (mt hlive'.1 hl)) hne hat), rfl, Mach.put_stored rfl hw _ _⟩
  · refine ⟨?_, ?_⟩
    · rintro rfl
      exact if_neg (by rw [hlive]; exact Bool.false_ne_true)
    · rintro rfl
      exact if_neg (by rw [hlive]; exact Bool.false_ne_true)
  · refine ⟨fun hp hno => ?_, fun hok => ⟨fun hp => ?_, fun hp hmin hlost => ?_⟩⟩
    · exact (call_live hlive _).trans ((managed_awake hp _).trans (if_neg (by rw [hno]; exact Bool.false_ne_true)))
    · exact (call_live hlive _).trans ((managed_awake hp _).trans (if_pos hok))
    · refine (call_live hlive _).trans ((managed_asleep hp _).trans ?_)
      rw [State.wake_woken hmin (.inr hlost)]
      exact if_pos hok
  · refine ⟨fun hp => ⟨?_, fun es => ?_⟩, fun hp hd => ?_, fun hp es hes => debugResume_plain hlive hp hes, fun u x t hp hd hx ht hctx hsav => ?_,
      fun t hp hd ht hctx hrun hpre hsave => ?_⟩
    · exact (call_live hlive _).trans (if_pos (beq_iff_eq.2 hp))
    · exact (call_live hlive _).trans (if_pos (beq_iff_eq.2 hp))
    · exact (call_live hlive _).trans ((if_neg (mt beq_iff_eq.1 hp)).trans (if_pos (bne_iff_ne.2 hd)))
    · have hu : t.uid = u.team := team?_uid ht
      have hedit : s.Editable ctx t := ⟨hlive, hp, hd, by rw [hu]; exact ht, hctx, hsav⟩
      exact ⟨hedit.threads hx hu.symm, fun g y n w hy => hedit.masks n w hy, hedit.teams⟩
    · obtain ⟨m, he, hctxs, hteams⟩ := debugHalt_lone hlive hp hd ht hctx hrun hpre hsave
      refine ⟨m, he, hctxs, hteams.trans ?_⟩
      cases hh : t.hurdles <;> simp [Team.asked, hh]

end Sys2Proof.Machine
end
